-- ==== Sys2Proof/Word.lean ====
section
/-! DEFINITION. The words of the machine (R3, R4, R50) and their plainest arithmetic. -/

namespace Sys2Proof

/-- A general register's contents (R50). -/
abbrev Word := BitVec 64

/-- One byte of memory (R4). -/
abbrev Byte := BitVec 8

/-- The number of a general register, g0 to g31 (R50). -/
abbrev Reg := BitVec 5

/-- The all-ones word, the answer several blocks give for "no such entry". -/
abbrev allOnes : Word := BitVec.allOnes 64

/-- A flag as a word: 1 or 0. -/
def Word.ofBool (b : Bool) : Word := if b then 1 else 0

end Sys2Proof
end

