-- ==== Sys2Proof/Config.lean ====
section
/-! DEFINITION. The figures every RB-GL2-A has (R1, R12) and the free values: what the manual leaves open.
A free value is opaque: nothing in Lean can evaluate it, and a claim proved here holds whatever it is. -/

namespace Sys2Proof.Config

/-- Logical cores of the module (R12, R14). -/
abbrev cores : Nat := 6144

/-- Rings of the module (R12). -/
abbrev rings : Nat := 384

/-- Bytes of one local bank (R12, R153). -/
abbrev bankBytes : Nat := 0xC000

/-- Bytes of device DRAM behind one ring (R229). -/
abbrev ringBytes : Nat := 0x30000000

/-- First physical address past device DRAM (R229). -/
abbrev dramEnd : Nat := 0x4800000000

/-- First address of the host memory window (R229). -/
abbrev hostBase : Nat := 0x8000000000

/-- First address of the peer memory window (R229). -/
abbrev peerBase : Nat := 0xC000000000

/-- First pool address (R229). -/
abbrev poolBase : Nat := 0x10000000000

/-- Own local window (R152). -/
abbrev ownWindow : Nat := 0x00F0000000000000

/-- Remote local window (R152). -/
abbrev remoteWindow : Nat := 0x00F8000000000000

/-- A byte the manual does not fix: bytes of a stopped copy chunk (R292), bytes read from host and peer memory (R230).
DESIGN CHOICE: one free value for each value of the counter State.free (log 6). -/
opaque freeByte : Nat → BitVec 8

/-- A yes or no the manual does not fix: whether a discarded write is present in the pool (R98), whether a byte of a
stopped chunk was written (R292). DESIGN CHOICE (log 6). -/
opaque freeBool : Nat → Bool

/-- A number the manual does not fix: the entry a full TLB gives up (R374). DESIGN CHOICE (log 6). -/
opaque freeNat : Nat → Nat

/-- Byte `i` of the state area of the `n`-th saved context image, whose layout is that of the part (R377).
DESIGN CHOICE (log 24). -/
opaque stateArea : Nat → Nat → BitVec 8

end Sys2Proof.Config
end

