-- ==== Sys2Proof/Syntax.lean ====
section
/-! DEFINITION. The rows of spec/opcode_table.json as one inductive: the 239 instruction words of Fitapol (R58-R66) and
the 110 steps of the part that no word encodes (spec/95). Operand fields carry the names and widths of the table;
sub-fields with a fixed set of values are inductive types. -/

namespace Sys2Proof

/-- Floating format codes (R61). -/
inductive FFmt where
  | f64 | f32 | bf16 | f16
deriving DecidableEq, Repr

/-- Integer type codes of the conversions (R61). -/
inductive IntTy where
  | i32 | i64 | n32 | n64
deriving DecidableEq, Repr

/-- Order of a load (R62, R84). -/
inductive LdOrd where
  | weak | strong | acq
deriving DecidableEq, Repr

/-- Order of a store (R62, R84). -/
inductive StOrd where
  | weak | strong | rel
deriving DecidableEq, Repr

/-- Types of `amo` (R63). -/
inductive AmoTy where
  | i32 | i64 | f32 | f64 | bf16 | p32 | pbf16
deriving DecidableEq, Repr

/-- Order of `amo` (R63). -/
inductive AmoOrd where
  | rlx | acq | rel | ar
deriving DecidableEq, Repr

/-- Scopes of a fence and of a tag (R87). -/
inductive Scope where
  | core | ring | die | dev | pool | sys
deriving DecidableEq, Repr

/-- Element types of tensors and vector commands, in code order 0 to 12 (R66). -/
inductive ElemTy where
  | f64 | f32 | bf16 | f16 | i8 | i16 | i32 | i64 | n8 | n16 | n32 | n64 | c8
deriving DecidableEq, Repr

/-- What the loader places for an owner on a core (R38, R39, R101): the sections, the sizes of the regions, and the
table images with the virtual address of the read-only area the loader gives them. -/
structure CodeObject where
  text    : List Byte
  data    : List Byte
  regions : List Nat
  imgBase : Nat
  dec     : List (List (BitVec 32))
  coef    : List (List (BitVec 32))
deriving DecidableEq, Repr

/-- One row of the opcode table. -/
inductive Instr where
  /-- `ADD` (R138). Writes a + b modulo 2^64 to d. -/
  | add (d : Reg) (a : Reg) (b : Reg)
  /-- `SUB` (R138). Writes a − b modulo 2^64 to d. -/
  | sub (d : Reg) (a : Reg) (b : Reg)
  /-- `AND` (R138). Writes a AND b to d. -/
  | and (d : Reg) (a : Reg) (b : Reg)
  /-- `OR` (R138). Writes a OR b to d. -/
  | or (d : Reg) (a : Reg) (b : Reg)
  /-- `XOR` (R138). Writes a XOR b to d. -/
  | xor (d : Reg) (a : Reg) (b : Reg)
  /-- `ANDN` (R138). Writes a AND NOT b to d. -/
  | andn (d : Reg) (a : Reg) (b : Reg)
  /-- `ORN` (R138). Writes a OR NOT b to d. -/
  | orn (d : Reg) (a : Reg) (b : Reg)
  /-- `NOR` (R138). Writes NOT (a OR b) to d. -/
  | nor (d : Reg) (a : Reg) (b : Reg)
  /-- `SLL` (R138). Shifts a left by b[5:0]. -/
  | sll (d : Reg) (a : Reg) (b : Reg)
  /-- `SRL` (R138). Shifts a right logically by b[5:0]. -/
  | srl (d : Reg) (a : Reg) (b : Reg)
  /-- `SRA` (R138). Shifts a right arithmetically by b[5:0]. -/
  | sra (d : Reg) (a : Reg) (b : Reg)
  /-- `ROL` (R138). Rotates a left by b[5:0]. -/
  | rol (d : Reg) (a : Reg) (b : Reg)
  /-- `ROR` (R138). Rotates a right by b[5:0]. -/
  | ror (d : Reg) (a : Reg) (b : Reg)
  /-- `SLT` (R138). Writes 1 if a < b signed, else 0. -/
  | slt (d : Reg) (a : Reg) (b : Reg)
  /-- `SLTN` (R138). Writes 1 if a < b unsigned, else 0. -/
  | sltn (d : Reg) (a : Reg) (b : Reg)
  /-- `SEQ` (R138). Writes 1 if a == b, else 0. -/
  | seq (d : Reg) (a : Reg) (b : Reg)
  /-- `SNE` (R138). Writes 1 if a ≠ b, else 0. -/
  | sne (d : Reg) (a : Reg) (b : Reg)
  /-- `MIN` (R138). Writes the signed lesser of a and b. -/
  | min (d : Reg) (a : Reg) (b : Reg)
  /-- `MAX` (R138). Writes the signed greater of a and b. -/
  | max (d : Reg) (a : Reg) (b : Reg)
  /-- `MINN` (R138). Writes the unsigned lesser of a and b. -/
  | minn (d : Reg) (a : Reg) (b : Reg)
  /-- `MAXN` (R138). Writes the unsigned greater of a and b. -/
  | maxn (d : Reg) (a : Reg) (b : Reg)
  /-- `ADDS1` (R138). Writes a + (b << 1). -/
  | adds1 (d : Reg) (a : Reg) (b : Reg)
  /-- `ADDS2` (R138). Writes a + (b << 2). -/
  | adds2 (d : Reg) (a : Reg) (b : Reg)
  /-- `ADDS3` (R138). Writes a + (b << 3). -/
  | adds3 (d : Reg) (a : Reg) (b : Reg)
  /-- `SEL` (R138). Writes a if the old d is non-zero, else b. -/
  | sel (d : Reg) (a : Reg) (b : Reg)
  /-- `CLZ` (R138). Counts leading zero bits of a. -/
  | clz (d : Reg) (a : Reg)
  /-- `CTZ` (R138). Counts trailing zero bits of a. -/
  | ctz (d : Reg) (a : Reg)
  /-- `POPC` (R138). Counts the one bits of a. -/
  | popc (d : Reg) (a : Reg)
  /-- `BREV` (R138). Reverses the bit order of a. -/
  | brev (d : Reg) (a : Reg)
  /-- `BSWAP` (R138). Reverses the byte order of a. -/
  | bswap (d : Reg) (a : Reg)
  /-- `SXB` (R138). Sign-extends a[7:0]. -/
  | sxb (d : Reg) (a : Reg)
  /-- `SXH` (R138). Sign-extends a[15:0]. -/
  | sxh (d : Reg) (a : Reg)
  /-- `SXW` (R138). Sign-extends a[31:0]. -/
  | sxw (d : Reg) (a : Reg)
  /-- `ZXW` (R138). Zero-extends a[31:0]. -/
  | zxw (d : Reg) (a : Reg)
  /-- `MUL` (R139). Writes the low 64 bits of a × b after its latency. -/
  | mul (d : Reg) (a : Reg) (b : Reg)
  /-- `MULH` (R139). Writes bits 127:64 of the signed product. -/
  | mulh (d : Reg) (a : Reg) (b : Reg)
  /-- `MULHN` (R139). Writes bits 127:64 of the unsigned product. -/
  | mulhn (d : Reg) (a : Reg) (b : Reg)
  /-- `MULW` (R139). Writes the sign-extended 32-bit product of the low words. -/
  | mulw (d : Reg) (a : Reg) (b : Reg)
  /-- `DIV` (R139). Writes the signed quotient truncated toward zero. -/
  | div (d : Reg) (a : Reg) (b : Reg)
  /-- `DIVN` (R139). Writes the unsigned quotient. -/
  | divn (d : Reg) (a : Reg) (b : Reg)
  /-- `REM` (R139). Writes the signed remainder. -/
  | rem (d : Reg) (a : Reg) (b : Reg)
  /-- `REMN` (R139). Writes the unsigned remainder. -/
  | remn (d : Reg) (a : Reg) (b : Reg)
  /-- `ADDI` (R140). Adds the sign-extended immediate to a. -/
  | addi (d : Reg) (a : Reg) (i : BitVec 16)
  /-- `ANDI` (R140). ANDs a with the zero-extended immediate. -/
  | andi (d : Reg) (a : Reg) (i : BitVec 16)
  /-- `ORI` (R140). ORs a with the sign-extended immediate. -/
  | ori (d : Reg) (a : Reg) (i : BitVec 16)
  /-- `XORI` (R140). XORs a with the sign-extended immediate. -/
  | xori (d : Reg) (a : Reg) (i : BitVec 16)
  /-- `SLTI` (R140). Writes 1 if a is below the immediate, signed. -/
  | slti (d : Reg) (a : Reg) (i : BitVec 16)
  /-- `SLTNI` (R140). Writes 1 if a is below the immediate, unsigned. -/
  | sltni (d : Reg) (a : Reg) (i : BitVec 16)
  /-- `SLLI` (R141). Shifts a left by an immediate amount. -/
  | slli (d : Reg) (a : Reg) (s : BitVec 6)
  /-- `SRLI` (R141). Shifts a right logically by an immediate amount. -/
  | srli (d : Reg) (a : Reg) (s : BitVec 6)
  /-- `SRAI` (R141). Shifts a right arithmetically by an immediate amount. -/
  | srai (d : Reg) (a : Reg) (s : BitVec 6)
  /-- `ROLI` (R141). Rotates a left by an immediate amount. -/
  | roli (d : Reg) (a : Reg) (s : BitVec 6)
  /-- `BFX` (R142). Extracts a zero-extended bit field of a. -/
  | bfx (d : Reg) (a : Reg) (p : BitVec 6) (l : BitVec 6)
  /-- `BFXS` (R142). Extracts a sign-extended bit field of a. -/
  | bfxs (d : Reg) (a : Reg) (p : BitVec 6) (l : BitVec 6)
  /-- `BFI` (R142). Inserts the low bits of a into a field of d. -/
  | bfi (d : Reg) (a : Reg) (p : BitVec 6) (l : BitVec 6)
  /-- `LDHI` (R143). Writes SEXT(imm21) << 16 to d. -/
  | ldhi (d : Reg) (i : BitVec 21)
  /-- `ADPC` (R144). Writes PC + (SEXT(imm21) << 2) to d. -/
  | adpc (d : Reg) (i : BitVec 21)
  /-- `FADD` (R119). Adds two floating values in the chosen format under RMODE. -/
  | fadd (d : Reg) (a : Reg) (b : Reg) (f : FFmt)
  /-- `FSUB` (R119). Subtracts two floating values. -/
  | fsub (d : Reg) (a : Reg) (b : Reg) (f : FFmt)
  /-- `FMUL` (R119). Multiplies two floating values. -/
  | fmul (d : Reg) (a : Reg) (b : Reg) (f : FFmt)
  /-- `FFMA` (R119). Computes d + a × b with one rounding. -/
  | ffma (d : Reg) (a : Reg) (b : Reg) (f : FFmt)
  /-- `FDIV` (R119). Divides two floating values. -/
  | fdiv (d : Reg) (a : Reg) (b : Reg) (f : FFmt)
  /-- `FSQRT` (R119). Takes the square root of a. -/
  | fsqrt (d : Reg) (a : Reg) (f : FFmt)
  /-- `FMIN` (R119). Writes the lesser floating value, −0 below +0. -/
  | fmin (d : Reg) (a : Reg) (b : Reg) (f : FFmt)
  /-- `FMAX` (R119). Writes the greater floating value. -/
  | fmax (d : Reg) (a : Reg) (b : Reg) (f : FFmt)
  /-- `FSGN` (R119). Moves the magnitude of a with the sign of b. -/
  | fsgn (d : Reg) (a : Reg) (b : Reg) (f : FFmt)
  /-- `FSGNN` (R119). Moves the magnitude of a with the inverted sign of b. -/
  | fsgnn (d : Reg) (a : Reg) (b : Reg) (f : FFmt)
  /-- `FSGNX` (R119). Moves the magnitude of a with the XOR of both signs. -/
  | fsgnx (d : Reg) (a : Reg) (b : Reg) (f : FFmt)
  /-- `FEQ` (R120). Writes 1 if the two floating values are equal. -/
  | feq (d : Reg) (a : Reg) (b : Reg) (f : FFmt)
  /-- `FLT` (R120). Writes 1 if a < b. -/
  | flt (d : Reg) (a : Reg) (b : Reg) (f : FFmt)
  /-- `FLE` (R120). Writes 1 if a ≤ b. -/
  | fle (d : Reg) (a : Reg) (b : Reg) (f : FFmt)
  /-- `FCLASS` (R120). Writes one class bit for a. -/
  | fclass (d : Reg) (a : Reg) (f : FFmt)
  /-- `FCVTI` (R121). Converts a floating value to an integer type with saturation. -/
  | fcvti (d : Reg) (a : Reg) (t : IntTy) (f : FFmt)
  /-- `FCVTF` (R121). Converts an integer to a floating format. -/
  | fcvtf (d : Reg) (a : Reg) (t : IntTy) (f : FFmt)
  /-- `FCVTFF` (R121). Converts between floating formats. -/
  | fcvtff (d : Reg) (a : Reg) (s : FFmt) (f : FFmt)
  /-- `FEV` (R122). Evaluates a coefficient table at a[31:0]. -/
  | fev (d : Reg) (a : Reg) (m : BitVec 2) (t : BitVec 2)
  /-- `FRED` (R123). Reduces a[31:0] by the table's period. -/
  | fred (d : Reg) (a : Reg) (m : BitVec 2) (t : BitVec 2)
  /-- `BEQ` (R146). Branches if a == b. -/
  | beq (a : Reg) (b : Reg) (p : BitVec 16)
  /-- `BNE` (R146). Branches if a ≠ b. -/
  | bne (a : Reg) (b : Reg) (p : BitVec 16)
  /-- `BLT` (R146). Branches if a < b signed. -/
  | blt (a : Reg) (b : Reg) (p : BitVec 16)
  /-- `BGE` (R146). Branches if a ≥ b signed. -/
  | bge (a : Reg) (b : Reg) (p : BitVec 16)
  /-- `BLTN` (R146). Branches if a < b unsigned. -/
  | bltn (a : Reg) (b : Reg) (p : BitVec 16)
  /-- `BGEN` (R146). Branches if a ≥ b unsigned. -/
  | bgen (a : Reg) (b : Reg) (p : BitVec 16)
  /-- `BANY` (R146). Branches if a AND b is non-zero. -/
  | bany (a : Reg) (b : Reg) (p : BitVec 16)
  /-- `BNONE` (R146). Branches if a AND b is zero. -/
  | bnone (a : Reg) (b : Reg) (p : BitVec 16)
  /-- `DBNZ` (R147). Decrements a and branches if the result is non-zero. -/
  | dbnz (a : Reg) (p : BitVec 16)
  /-- `JMP` (R148). Jumps PC-relative by disp26. -/
  | jmp (p : BitVec 26)
  /-- `JAL` (R148). Links PC + 4 in g1 and jumps PC-relative. -/
  | jal (p : BitVec 26)
  /-- `JR` (R148). Jumps to the address in a. -/
  | jr (a : Reg)
  /-- `JALR` (R148). Links PC + 4 in d and jumps to a. -/
  | jalr (d : Reg) (a : Reg)
  /-- `DONE` (R137). Ends the activation, releasing handles and counting its end. -/
  | done
  /-- `CALLAT` (R189). Sends a call message with four arguments and a ticket to another core. -/
  | callat (d : Reg) (a : Reg) (b : Reg)
  /-- `REPLY` (R189). Sends a reply message that starts the caller's reply handler. -/
  | reply (a : Reg) (b : Reg)
  /-- `LD_B` (R162). Loads a sign-extended byte. -/
  | ldB (d : Reg) (a : Reg) (o : LdOrd) (i : BitVec 11)
  /-- `LD_BN` (R162). Loads a zero-extended byte. -/
  | ldBn (d : Reg) (a : Reg) (o : LdOrd) (i : BitVec 11)
  /-- `LD_H` (R162). Loads a sign-extended halfword. -/
  | ldH (d : Reg) (a : Reg) (o : LdOrd) (i : BitVec 11)
  /-- `LD_HN` (R162). Loads a zero-extended halfword. -/
  | ldHn (d : Reg) (a : Reg) (o : LdOrd) (i : BitVec 11)
  /-- `LD_W` (R162). Loads a sign-extended word. -/
  | ldW (d : Reg) (a : Reg) (o : LdOrd) (i : BitVec 11)
  /-- `LD_WN` (R162). Loads a zero-extended word. -/
  | ldWn (d : Reg) (a : Reg) (o : LdOrd) (i : BitVec 11)
  /-- `LD_D` (R162). Loads a doubleword. -/
  | ldD (d : Reg) (a : Reg) (o : LdOrd) (i : BitVec 11)
  /-- `LD_Q` (R162). Loads 16 bytes into a register pair as two accesses. -/
  | ldQ (d : Reg) (a : Reg) (o : LdOrd) (i : BitVec 11)
  /-- `ST_B` (R162). Places a byte write group in the store queue. -/
  | stB (d : Reg) (a : Reg) (o : StOrd) (i : BitVec 11)
  /-- `ST_H` (R162). Places a halfword write group in the store queue. -/
  | stH (d : Reg) (a : Reg) (o : StOrd) (i : BitVec 11)
  /-- `ST_W` (R162). Places a word write group in the store queue. -/
  | stW (d : Reg) (a : Reg) (o : StOrd) (i : BitVec 11)
  /-- `ST_D` (R162). Places a doubleword write group in the store queue. -/
  | stD (d : Reg) (a : Reg) (o : StOrd) (i : BitVec 11)
  /-- `ST_Q` (R162). Places two 8-byte write groups from a register pair in the store queue. -/
  | stQ (d : Reg) (a : Reg) (o : StOrd) (i : BitVec 11)
  /-- `AMO_ADD` (R267). Atomically adds the operand at the home. -/
  | amoAdd (d : Reg) (a : Reg) (b : Reg) (t : AmoTy) (n : Bool) (o : AmoOrd)
  /-- `AMO_AND` (R267). Atomically ANDs the operand at the home. -/
  | amoAnd (d : Reg) (a : Reg) (b : Reg) (t : AmoTy) (n : Bool) (o : AmoOrd)
  /-- `AMO_OR` (R267). Atomically ORs the operand at the home. -/
  | amoOr (d : Reg) (a : Reg) (b : Reg) (t : AmoTy) (n : Bool) (o : AmoOrd)
  /-- `AMO_XOR` (R267). Atomically XORs the operand at the home. -/
  | amoXor (d : Reg) (a : Reg) (b : Reg) (t : AmoTy) (n : Bool) (o : AmoOrd)
  /-- `AMO_MIN` (R267). Atomically takes the signed minimum. -/
  | amoMin (d : Reg) (a : Reg) (b : Reg) (t : AmoTy) (n : Bool) (o : AmoOrd)
  /-- `AMO_MAX` (R267). Atomically takes the signed maximum. -/
  | amoMax (d : Reg) (a : Reg) (b : Reg) (t : AmoTy) (n : Bool) (o : AmoOrd)
  /-- `AMO_SWAP` (R267). Atomically swaps in the operand. -/
  | amoSwap (d : Reg) (a : Reg) (b : Reg) (t : AmoTy) (n : Bool) (o : AmoOrd)
  /-- `AMO_CAS` (R267). Atomically compares with d and swaps on equality. -/
  | amoCas (d : Reg) (a : Reg) (b : Reg) (t : AmoTy) (o : AmoOrd)
  /-- `AMO_CASQ` (R267). Atomically compares and swaps 16 bytes using register pairs. -/
  | amoCasq (d : Reg) (a : Reg) (b : Reg) (o : AmoOrd)
  /-- `AMO_FADD` (R267). Atomically adds a floating operand, nearest-even. -/
  | amoFadd (d : Reg) (a : Reg) (b : Reg) (t : AmoTy) (n : Bool) (o : AmoOrd)
  /-- `AMO_FMIN` (R267). Atomically takes the floating minimum. -/
  | amoFmin (d : Reg) (a : Reg) (b : Reg) (t : AmoTy) (n : Bool) (o : AmoOrd)
  /-- `AMO_FMAX` (R267). Atomically takes the floating maximum. -/
  | amoFmax (d : Reg) (a : Reg) (b : Reg) (t : AmoTy) (n : Bool) (o : AmoOrd)
  /-- `AMO_MINN` (R267). Atomically takes the unsigned minimum. -/
  | amoMinn (d : Reg) (a : Reg) (b : Reg) (t : AmoTy) (n : Bool) (o : AmoOrd)
  /-- `AMO_MAXN` (R267). Atomically takes the unsigned maximum. -/
  | amoMaxn (d : Reg) (a : Reg) (b : Reg) (t : AmoTy) (n : Bool) (o : AmoOrd)
  /-- `OADD` (R271). Sends an ordered integer add with sequence number d to a group's region. -/
  | oadd (d : Reg) (a : Reg) (b : Reg)
  /-- `OFADD` (R271). Sends an ordered F32 add with sequence number d to a group's region. -/
  | ofadd (d : Reg) (a : Reg) (b : Reg)
  /-- `OJOIN` (R272). Registers a watch that decrements a task record once sequence s is reached. -/
  | ojoin (d : Reg) (a : Reg) (b : Reg)
  /-- `RDLK` (R274). Requests a read lock, granted, queued, refused or failed. -/
  | rdlk (d : Reg) (a : Reg) (b : Reg)
  /-- `WRLK` (R274). Requests a write lock. -/
  | wrlk (d : Reg) (a : Reg) (b : Reg)
  /-- `RDUL` (R274). Releases a read lock and hands off. -/
  | rdul (d : Reg) (a : Reg)
  /-- `WRUL` (R274). Releases a write lock and hands off. -/
  | wrul (d : Reg) (a : Reg)
  /-- `LKINIT` (R274). Sets writer preference of an idle lock word. -/
  | lkinit (d : Reg) (a : Reg) (b : Reg)
  /-- `HBIND` (R170). Binds a handle to a buffer header as consumer or producer. -/
  | hbind (d : Reg) (h : BitVec 4) (c : BitVec 6)
  /-- `HWAIT` (R170). Parks until cnt slots are full and returns the slot address. -/
  | hwait (d : Reg) (h : BitVec 4) (c : BitVec 6)
  /-- `HFREE` (R170). Parks until cnt slots are free and returns the slot address. -/
  | hfree (d : Reg) (h : BitVec 4) (c : BitVec 6)
  /-- `HADV` (R170). Advances the handle cursor, moving TAIL or publishing HEAD. -/
  | hadv (d : Reg) (h : BitVec 4) (c : BitVec 6)
  /-- `HREL` (R170). Unbinds a handle. -/
  | hrel (h : BitVec 4)
  /-- `HLDA` (R170). Loads a doubleword from the current consumer slot. -/
  | hlda (d : Reg) (h : BitVec 4) (c : BitVec 6)
  /-- `HSTA` (R170). Stores a doubleword into the current producer slot. -/
  | hsta (d : Reg) (h : BitVec 4) (c : BitVec 6)
  /-- `NSEND` (R173). Sends one slot of up to 64 bytes through a send window. -/
  | nsend (d : Reg) (a : Reg) (b : Reg)
  /-- `AMSG` (R175). Starts an activation of the owner on another core with g2–g5. -/
  | amsg (a : Reg) (b : Reg)
  /-- `WOPEN` (R172). Opens a send window onto a buffer on another core. -/
  | wopen (d : Reg) (a : Reg) (b : Reg)
  /-- `MHDL` (R176). Registers or clears a buffer's data-arrival handler. -/
  | mhdl (d : Reg) (a : Reg) (b : Reg)
  /-- `TINIT` (R187). Reinitialises a task record's count and class after its release condition. -/
  | tinit (d : Reg) (a : Reg) (b : Reg)
  /-- `TDEC` (R187). Sends a decrement message to a task record. -/
  | tdec (a : Reg) (b : Reg)
  /-- `TINC` (R187). Sends an increment message to a task record. -/
  | tinc (a : Reg) (b : Reg)
  /-- `LARM` (R191). Arms a launch record and returns its status. -/
  | larm (d : Reg) (a : Reg)
  /-- `LPATCH` (R197). Writes one RW field of a launch record. -/
  | lpatch (d : Reg) (a : Reg) (b : Reg)
  /-- `LSTAT` (R197). Reads one word of a launch record. -/
  | lstat (d : Reg) (a : Reg) (b : Reg)
  /-- `WIDF` (R197). Extracts one level field of the work identifier. -/
  | widf (d : Reg) (a : Reg)
  /-- `QSYNC` (R204). Parks until the current deterministic quantum ends and returns the quantum count. -/
  | qsync (d : Reg)
  /-- `WB` (R258). Writes back the dirty bytes of a range and waits for settling. -/
  | wb (a : Reg) (b : Reg)
  /-- `INV` (R258). Drops the owner's copies of a range. -/
  | inv (a : Reg) (b : Reg)
  /-- `FLUSH` (R258). Writes back and then drops the copies of a range. -/
  | flush (a : Reg) (b : Reg)
  /-- `LRENEW` (R258). Renews the lease of self-invalidating copies in a range. -/
  | lrenew (a : Reg) (b : Reg)
  /-- `PFCH` (R259). Requests a fill of one sector without waiting. -/
  | pfch (a : Reg) (b : Reg)
  /-- `FENCE_ALL` (R88). Waits for loads, stores and engine commands at a scope, then drops, acquires and starts a tag. -/
  | fenceAll (s : Scope)
  /-- `FENCE_LD` (R88). Waits for earlier loads and acquires tags. -/
  | fenceLd (s : Scope)
  /-- `FENCE_ST` (R88). Waits for queued stores to settle at its scope and starts a tag. -/
  | fenceSt (s : Scope)
  /-- `FENCE_ENG` (R88). Waits for earlier engine commands and acquires their writes. -/
  | fenceEng (s : Scope)
  /-- `VADD` (R313). Adds two tensors element-wise on the vector engine. -/
  | vadd (d : Reg) (a : Reg) (b : Reg) (t : ElemTy)
  /-- `VSUB` (R313). Subtracts two tensors element-wise. -/
  | vsub (d : Reg) (a : Reg) (b : Reg) (t : ElemTy)
  /-- `VMUL` (R313). Multiplies two tensors element-wise. -/
  | vmul (d : Reg) (a : Reg) (b : Reg) (t : ElemTy)
  /-- `VFMA` (R313). Computes dst + s1 × s2 element-wise with one rounding. -/
  | vfma (d : Reg) (a : Reg) (b : Reg) (t : ElemTy)
  /-- `VMIN` (R312). Takes the element-wise minimum. -/
  | vmin (d : Reg) (a : Reg) (b : Reg) (t : ElemTy)
  /-- `VMAX` (R312). Takes the element-wise maximum. -/
  | vmax (d : Reg) (a : Reg) (b : Reg) (t : ElemTy)
  /-- `VABS` (R312). Takes the element-wise absolute value. -/
  | vabs (d : Reg) (a : Reg) (b : Reg) (t : ElemTy)
  /-- `VCVT` (R313). Converts each element to the lane type. -/
  | vcvt (d : Reg) (a : Reg) (b : Reg) (t : ElemTy)
  /-- `VSCL` (R312). Scales each element by an F32 constant. -/
  | vscl (d : Reg) (a : Reg) (b : Reg) (t : ElemTy)
  /-- `VCMP` (R314). Compares two tensors and writes mask words. -/
  | vcmp (d : Reg) (a : Reg) (b : Reg) (t : ElemTy)
  /-- `VSEL` (R312). Selects elements of two sources by the mask. -/
  | vsel (d : Reg) (a : Reg) (b : Reg) (t : ElemTy)
  /-- `VRED` (R315). Reduces along dimension 0 by the fixed tree. -/
  | vred (d : Reg) (a : Reg) (b : Reg) (t : ElemTy)
  /-- `VFEV` (R312). Evaluates a coefficient table on each element. -/
  | vfev (d : Reg) (a : Reg) (b : Reg) (t : ElemTy)
  /-- `VRNG` (R316). Writes per-element random bits from GEN. -/
  | vrng (d : Reg) (a : Reg) (b : Reg) (t : ElemTy)
  /-- `VSR` (R317). Rounds each element stochastically to the destination format. -/
  | vsr (d : Reg) (a : Reg) (b : Reg) (t : ElemTy)
  /-- `VDROP` (R317). Keeps or zeroes each element by a random threshold. -/
  | vdrop (d : Reg) (a : Reg) (b : Reg) (t : ElemTy)
  /-- `VGATH` (R318). Gathers elements by an index tensor. -/
  | vgath (d : Reg) (a : Reg) (b : Reg) (t : ElemTy)
  /-- `VSCAT` (R318). Scatters elements by an index tensor. -/
  | vscat (d : Reg) (a : Reg) (b : Reg) (t : ElemTy)
  /-- `VSPARSE` (R319). Sends each enabled non-zero element as an 8-byte message through a window. -/
  | vsparse (d : Reg) (a : Reg) (b : Reg) (t : ElemTy)
  /-- `VSEND` (R319). Sends each beat as a 64-byte slot through a window. -/
  | vsend (d : Reg) (a : Reg) (b : Reg) (t : ElemTy)
  /-- `VCOPY` (R312). Copies element bits. -/
  | vcopy (d : Reg) (a : Reg) (b : Reg) (t : ElemTy)
  /-- `VMEXP` (R320). Finds the maximum exponent of each block. -/
  | vmexp (d : Reg) (a : Reg) (b : Reg) (t : ElemTy)
  /-- `VALIGN` (R320). Aligns values to a block exponent as I32 or C8. -/
  | valign (d : Reg) (a : Reg) (b : Reg) (t : ElemTy)
  /-- `VNORM` (R320). Converts aligned integers back to floating values. -/
  | vnorm (d : Reg) (a : Reg) (b : Reg) (t : ElemTy)
  /-- `MLEASE` (R331). Joins a carousel lease request and parks until granted or refused. -/
  | mlease (d : Reg) (a : Reg)
  /-- `MREL` (R333). Group command that ends the lease once it completes. -/
  | mrel (d : Reg) (a : Reg)
  /-- `MCFG` (R332). Returns the lease state of the issuer and the ring's array. -/
  | mcfg (d : Reg)
  /-- `MLDA` (R333). Binds the member's A panel. -/
  | mlda (d : Reg) (a : Reg)
  /-- `MLDB` (R333). Loads a B tile with chunk index J into the latch. -/
  | mldb (d : Reg) (a : Reg)
  /-- `MSTEP` (R334). Accumulates one exact step and optionally rotates the latches. -/
  | mstep (d : Reg) (a : Reg)
  /-- `MROT` (R333). Rotates the latches without products. -/
  | mrot (d : Reg) (a : Reg)
  /-- `MDRAIN` (R335). Writes the accumulators to an output record, optionally clearing them. -/
  | mdrain (d : Reg) (a : Reg)
  /-- `MZERO` (R333). Clears the member's accumulators. -/
  | mzero (d : Reg) (a : Reg)
  /-- `MSPM` (R338). Registers a sparse-mode data-arrival handler on a header. -/
  | mspm (d : Reg) (a : Reg) (b : Reg)
  /-- `CPY` (R292). Starts a streamer copy described by a 32-byte descriptor. -/
  | cpy (d : Reg) (a : Reg) (b : Reg)
  /-- `CPYT` (R291). Starts a streamer copy between two tensor records. -/
  | cpyt (d : Reg) (a : Reg) (b : Reg)
  /-- `MCAST` (R298). Sends a tile down the maypole to every subscriber. -/
  | mcast (d : Reg) (a : Reg)
  /-- `JOIN` (R297). Subscribes the context to a multicast group. -/
  | join (d : Reg) (a : Reg) (b : Reg)
  /-- `LEAVE` (R300). Removes a receiver or source match entry. -/
  | leave (d : Reg) (a : Reg)
  /-- `BFREE` (R299). Frees landing slots and sends frees toward the source. -/
  | bfree (d : Reg) (a : Reg) (b : Reg)
  /-- `MBOX` (R299). Parks until MAILBOX or ARRIVED passes a value. -/
  | mbox (d : Reg) (a : Reg) (b : Reg)
  /-- `CPST` (R295). Reads progress, poison or fault data of a copy. -/
  | cpst (d : Reg) (a : Reg) (b : Reg)
  /-- `CABORT` (R295). Marks a copy to stop before its next chunk. -/
  | cabort (d : Reg) (a : Reg)
  /-- `TDEF` (R288). Installs a tensor record in the tensor table. -/
  | tdef (d : Reg) (a : Reg) (b : Reg)
  /-- `TGET` (R288). Stores a tensor table entry to local memory. -/
  | tget (d : Reg) (a : Reg) (b : Reg)
  /-- `TDROP` (R288). Empties a tensor table entry. -/
  | tdrop (d : Reg) (a : Reg)
  /-- `DTLD` (R125). Loads a decode image into the decode table and returns CHK. -/
  | dtld (d : Reg) (a : Reg)
  /-- `DTCHK` (R125). Returns CHK of the current decode table. -/
  | dtchk (d : Reg)
  /-- `CMLD` (R125). Loads a coefficient image into a coefficient table. -/
  | cmld (d : Reg) (a : Reg) (b : Reg)
  /-- `ENC` (R112). Encodes an F32 value into a C8 code. -/
  | enc (d : Reg) (a : Reg)
  /-- `DEC` (R125). Decodes a C8 code to F32. -/
  | dec (d : Reg) (a : Reg)
  /-- `RESEED` (R223). Sends a new key to the owner's key store and parks for the answer. -/
  | reseed (d : Reg) (a : Reg)
  /-- `DRAW` (R224). Draws a program value from a stream word in local memory. -/
  | draw (d : Reg) (a : Reg) (b : Reg)
  /-- `XCQ` (R225). Returns the exact delay bound for the owner's weight. -/
  | xcq (d : Reg) (a : Reg) (b : Reg)
  /-- `ICTR` (R226). Reads and optionally clears a measured-delay counter. -/
  | ictr (d : Reg) (a : Reg) (b : Reg)
  /-- `SHQ` (R227). Returns the owner's share at a point. -/
  | shq (d : Reg) (a : Reg)
  /-- `CGIVE` (R278). Passes a region's writer capability to a context or makes it unheld. -/
  | cgive (d : Reg) (a : Reg) (b : Reg)
  /-- `CQ` (R278). Reads a region's holder or group word. -/
  | cq (d : Reg) (a : Reg) (b : Reg)
  /-- `CGRP` (R278). Forms a reduction group holding a region. -/
  | cgrp (d : Reg) (a : Reg) (b : Reg)
  /-- `CACCEPT` (R278). Takes an unheld region or parks until the capability is the issuer's. -/
  | caccept (d : Reg) (a : Reg)
  /-- `CNODE` (R358). Creates a containment node. -/
  | cnode (d : Reg) (a : Reg)
  /-- `CENR` (R359). Enrols tiles under a node. -/
  | cenr (d : Reg) (a : Reg) (b : Reg)
  /-- `CDROP` (R359). Removes tiles of a node or deletes a node. -/
  | cdrop (d : Reg) (a : Reg) (b : Reg)
  /-- `CMOVE` (R360). Re-parents a node. -/
  | cmove (d : Reg) (a : Reg) (b : Reg)
  /-- `CSETTLE` (R361). Waits for known bumps to roll up at a node and returns its count. -/
  | csettle (d : Reg) (a : Reg)
  /-- `CREAD` (R362). Reads a node word or a tile entry without waiting. -/
  | cread (d : Reg) (a : Reg) (b : Reg)
  /-- `TLW` (R301). Parks until an engine timeline counter reaches v and makes those commands known. -/
  | tlw (d : Reg) (a : Reg) (b : Reg)
  /-- `TLR` (R301). Reads a timeline counter or the frame's LASTN. -/
  | tlr (d : Reg) (a : Reg)
  /-- `BBINIT` (R200). Binds, rebinds or unbinds a byte barrier to a task record. -/
  | bbinit (d : Reg) (a : Reg) (b : Reg)
  /-- `BBEXP` (R200). Sends an expectation of one arrival and b bytes to a barrier. -/
  | bbexp (a : Reg) (b : Reg)
  /-- `BBARR` (R200). Sends an arrival of one and b bytes to a barrier. -/
  | bbarr (a : Reg) (b : Reg)
  /-- `BBQ` (R200). Reads a barrier word as a strong load. -/
  | bbq (d : Reg) (a : Reg)
  /-- `MFS` (R149). Reads a special register. -/
  | mfs (d : Reg) (n : BitVec 16)
  /-- `MTS` (R150). Writes a special register field by field. -/
  | mts (a : Reg) (n : BitVec 16)
  /-- `TRAP` (R381). Enters the trap handler with cause TRAP. -/
  | trap
  /-- `BRK` (R381). Enters the trap handler with cause BRK. -/
  | brk
  /-- `TRET` (R381). Leaves the trap handler and resumes at EPC. -/
  | tret
  /-- `IDLE` (R381). Parks until a wake event reaches the core. -/
  | idle
  /-- `FRESUME` (R371). Resumes an owner's fault-parked activations by block or sequence number. -/
  | fresume (d : Reg) (a : Reg) (b : Reg)
  /-- `TLBI` (R375). Drops matching translations module-wide and waits for their users. -/
  | tlbi (a : Reg) (b : Reg)
  /-- `BANKCTL` (R376). Zeroes or queries a context bank. -/
  | bankctl (d : Reg) (a : Reg)
  /-- `CTXSAVE` (R378). Drains and saves an owner's context from the core into an image. -/
  | ctxsave (d : Reg) (a : Reg) (b : Reg)
  /-- `CTXLOAD` (R379). Restores an owner's context from an image into masked banks. -/
  | ctxload (d : Reg) (a : Reg) (b : Reg)
  /-- `ISSUE_DRAW` (R128). Each issue slot draws an owner by the slot lottery and issues its oldest Ready frame or lends the slot. -/
  | issueDraw (core : Nat)
  /-- `ARBITRATION_SLOT` (R211). Each slot of an L2 port, router output, DRAM port, atomic unit, streamer or pool port is drawn, granted or lent. -/
  | arbitrationSlot (code inst : Nat)
  /-- `VECTOR_BEAT` (R303). The vector engine moves one beat per clk for the assigned owner or a borrower. -/
  | vectorBeat (core : Nat)
  /-- `LEASE_ARBITRATION` (R324). While the array is free the carousel draws a lease holder each clk. -/
  | leaseArbitration (ring : Nat)
  /-- `GROUP_COMMAND_START` (R326). A group command starts on all members once every part is issued and ready. -/
  | groupCommandStart (ring : Nat)
  /-- `LEASE_IDLE_TIMEOUT` (R325). A lease ends after 65,536 clk with no group command starting. -/
  | leaseIdleTimeout (ring : Nat)
  /-- `SETTLE` (R82). The oldest queue entry for a location enters the write set at its home. -/
  | settle (ctx idx : Nat)
  /-- `COALESCE` (R82). A weak store entry is removed in favour of a later one for the same location. -/
  | coalesce (ctx idx : Nat)
  /-- `MESSAGE_DEPART` (R91). A message entry leaves the store queue once its release condition holds. -/
  | messageDepart (ctx idx : Nat)
  /-- `SERVE_WEAK` (R82). A weak read returns a candidate write from the queue, L1 copy or write set. -/
  | serveWeak (read : Nat) (choice : List Nat)
  /-- `SERVE_AT_HOME` (R82). A strong or acquire read returns the last settled write at the home. -/
  | serveAtHome (read : Nat)
  /-- `FILL` (R82). An L1 copy of a location is set from its write set. -/
  | fill (core owner pa : Nat) (choice : List (Nat × Nat))
  /-- `SECTOR_FILL` (R237). A home-slice sector is filled from DRAM or the pool. -/
  | sectorFill (owner pa : Nat)
  /-- `PROBE` (R250). A probe removes matching L1 copies and recalls M data. -/
  | probe (pa : Nat) (owner : Option Nat)
  /-- `LEASE_EXPIRY` (R252). A self-invalidating copy is written back and dropped when CLK reaches its expiry. -/
  | leaseExpiry (core idx : Nat)
  /-- `ATOMIC_STEP` (R264). The atomic unit or bank performs one atomic on the last settled write. -/
  | atomicStep (idx : Nat)
  /-- `RESULT_RETURN` (R133). A pending result (load, multiply, divide or answer) is written to its register. -/
  | resultReturn (core frame idx : Nat)
  /-- `REFUSAL_RETURN` (R158). A refusal returning to the issuing activation raises PROT or CAP there. -/
  | refusalReturn (idx : Nat)
  /-- `PARK_RELEASE` (R127). A parked frame's condition holds and the frame becomes Waiting. -/
  | parkRelease (core frame : Nat)
  /-- `FETCH_REFILL` (R164). A word enters a frame's fetch buffer as a read served at the bank. -/
  | fetchRefill (core frame : Nat)
  /-- `TABLE_REPLACE` (R102). A decode or coefficient table is replaced in one step after its image is read. -/
  | tableReplace (core frame : Nat)
  /-- `KEY_STORE_STEP` (R223). The key store applies a reseed or KEY write, flipping the epoch and starting a sweep. -/
  | keyStoreStep (idx : Nat)
  /-- `SWEEP_MOVE` (R247). The sweep moves an old-epoch line of the owner to its new set. -/
  | sweepMove (owner ring set way : Nat)
  /-- `SWEEP_END` (R247). The reseed sweep ends and EPOCH.SWEEP returns to 0. -/
  | sweepEnd (owner : Nat)
  /-- `FUSED_L1_TRANSITION` (R235). A ring passes into or out of the fused L1 state, writing back and dropping copies. -/
  | fusedL1Transition (owner ring : Nat)
  /-- `PUBLISH` (R97). A settled pool-coherent write is acknowledged by the pool. -/
  | publish (write : Nat)
  /-- `BISNP_ARRIVAL` (R97). An invalidation from the pool enters the port's back-invalidation queue. -/
  | bisnpArrival (port line : Nat) (writes : List (Nat × BitVec 8))
  /-- `APPLY` (R97). The oldest invalidation removes the line's copies and installs the pool's writes. -/
  | apply (port : Nat)
  /-- `LINK_WRITE_ACK` (R230). The host port or a Zasol link acknowledges a write toward host or peer memory. -/
  | linkWriteAck (write : Nat)
  /-- `START_REQUEST_ARRIVAL` (R179). A start request enters the target owner's run queue or the inbound queue. -/
  | startRequestArrival (idx : Nat)
  /-- `ACTIVATION_PLACE` (R181). One request per clk is placed into a frame and its activation set up. -/
  | activationPlace (core owner : Nat)
  /-- `INBOUND_QUEUE_RELEASE` (R178). Held accesses and starts leave the ring's inbound queue in arrival order. -/
  | inboundQueueRelease (ring owner : Nat)
  /-- `WINDOW_OPEN_ARRIVAL` (R172). An open message at the target grants a window or refuses it. -/
  | windowOpenArrival (idx : Nat)
  /-- `WINDOW_OPEN_REPLY` (R172). The open reply reaches the issuer and opens the window. -/
  | windowOpenReply (idx : Nat)
  /-- `SLOT_ARRIVAL` (R173). A sent slot is written at the target and HEAD advances. -/
  | slotArrival (idx : Nat)
  /-- `CREDIT_ARRIVAL` (R174). A credit sets the producer window's ACK or is discarded. -/
  | creditArrival (idx : Nat)
  /-- `WINDOW_CLOSE_ARRIVAL` (R174). A close message clears PV at the target. -/
  | windowCloseArrival (idx : Nat)
  /-- `TINIT_STEP` (R187). After the release condition, tinit rewrites word 0 at the home bank and may fire. -/
  | tinitStep (idx : Nat)
  /-- `TDEC_ARRIVAL` (R187). A decrement at the home bank lowers COUNT or fires the record. -/
  | tdecArrival (idx : Nat)
  /-- `TINC_ARRIVAL` (R187). An increment at the home bank raises COUNT, saturating. -/
  | tincArrival (idx : Nat)
  /-- `LAUNCH_START_REQUEST` (R193). An armed record sends one start request per clk in ascending L. -/
  | launchStartRequest (iface index : Nat)
  /-- `END_NOTICE_SEND` (R194). An ended activation's end notice leaves once its queue entries have settled. -/
  | endNoticeSend (idx : Nat)
  /-- `END_NOTICE_ARRIVAL` (R194). An end notice raises ENDED of the launch record. -/
  | endNoticeArrival (idx : Nat)
  /-- `BBINIT_STEP` (R200). After the release condition, bbinit binds or unbinds the barrier at the bank. -/
  | bbinitStep (idx : Nat)
  /-- `BARRIER_UPDATE` (R199). An expectation, arrival or copy subtraction updates a barrier word in one step. -/
  | barrierUpdate (idx : Nat)
  /-- `QUANTUM_END` (R201). A deterministic quantum ends, QRET clears and issue resumes. -/
  | quantumEnd (iface index : Nat)
  /-- `ORDERED_ARRIVAL` (R271). An ordered atomic reaches the slice and is placed, dropped or refused. -/
  | orderedArrival (idx : Nat)
  /-- `ORDERED_RESEND` (R271). A refused ordered entry is resent no sooner than 64 clk later. -/
  | orderedResend (idx : Nat)
  /-- `WATCH_ARRIVAL` (R272). An ojoin watch reaches the slice and is taken, fired or refused with CAP. -/
  | watchArrival (idx : Nat)
  /-- `LOCK_STEP` (R274). The unit performs one lock operation on a lock word. -/
  | lockStep (idx : Nat)
  /-- `CAPABILITY_STEP` (R278). The home slice applies a cgive, cgrp, caccept or cq to a region's capability. -/
  | capabilityStep (idx : Nat)
  /-- `COPY_CHUNK` (R292). The streamer translates, reads and writes one 64 KiB chunk of a copy. -/
  | copyChunk (idx : Nat)
  /-- `COPY_DONE` (R292). A finished copy writes its status word and reports done. -/
  | copyDone (idx : Nat)
  /-- `ENGINE_COMMAND_DONE` (R95). A command completes and the timeline counter advances over done commands. -/
  | engineCommandDone (ctx cls num : Nat)
  /-- `JOIN_ARRIVAL` (R297). A join reaches the source, sets bitmaps and creates the entries. -/
  | joinArrival (idx : Nat)
  /-- `LEAVE_ARRIVAL` (R300). A leave reaches the source, clears bitmaps and lowers SUBS. -/
  | leaveArrival (idx : Nat)
  /-- `TILE_ARRIVAL` (R298). A multicast tile is written into a subscriber's landing slot when room exists. -/
  | tileArrival (idx : Nat)
  /-- `FREE_ARRIVAL` (R299). Combined frees reach the root and MAILBOX rises. -/
  | freeArrival (idx : Nat)
  /-- `PAGE_WALK` (R374). A walk of the shadow table completes with a translation, XLAT or PROT. -/
  | pageWalk (idx : Nat)
  /-- `RESUME_ARRIVAL` (R371). A resume reaches its core and moves the activation to Waiting. -/
  | resumeArrival (idx : Nat)
  /-- `POOL_PORT_LOSS` (R348). A pool port is lost, marking its regions lost and freeing its entries. -/
  | poolPortLoss (port : Nat)
  /-- `ROLLUP_STEP` (R354). The roll-up engine adds 1 to a node's COUNT for a set of pending bumps. -/
  | rollupStep (node : Nat) (bumps : List Nat)
  /-- `CARAVAN` (R395). A core hot for 14,000 clk migrates its banks to a cool core of the die. -/
  | caravan (lcore target : Nat)
  /-- `THERMAL_EMERGENCY` (R394). A die passing 105 °C raises every rail to at least level 4 and sends notices. -/
  | thermalEmergency (die : Nat)
  /-- `RAIL_LEVEL_CHANGE` (R394). The power controller changes a rail level at an 8-clk boundary. -/
  | railLevelChange (rail level : Nat)
  /-- `SLOWDOWN_NOTICE_SEND` (R392). During an emergency a notice is repeated every 140,000 clk on the masked links. -/
  | slowdownNoticeSend
  /-- `SLOWDOWN_NOTICE_RECEIVE` (R392). A received notice raises the device's rails to at least its level. -/
  | slowdownNoticeReceive (link level : Nat)
  /-- `SLOWDOWN_HOLD_EXPIRY` (R392). The raised level is released after 1.4 × 10^6 clk without a notice. -/
  | slowdownHoldExpiry
  /-- `ZASOL_LINK_LOST` (R391). A link that cannot deliver for 1 ms is lost and vector 0 is raised. -/
  | zasolLinkLost (link : Nat)
  /-- `PEER_ACCESS_ARRIVAL` (R230). A peer's access arrives over Zasol as a system-scope party and is served at the home slice. -/
  | peerAccessArrival (link pa bytes : Nat) (write : Option Nat)
  /-- `HOST_MEMORY_ACCESS` (R390). A host HDM-DB access settles at the home slice as a system-scope party. -/
  | hostMemoryAccess (pa bytes : Nat) (write : Option Nat)
  /-- `NOTIFY` (R388). A host write to the notify page arms a launch record as owner NOWN. `w` is the word written. -/
  | notify (iface : Nat) (w : Nat) (value : BitVec 64)
  /-- `NOTIFY_STAMP_POLL` (R389). In fenced mode the device reads the stamp every 1,000 clk until it matches. -/
  | notifyStampPoll (iface : Nat)
  /-- `NOTIFY_TIMEOUT` (R389). A stamp unmatched after 1 ms drops the notify and counts NTMO. -/
  | notifyTimeout (iface : Nat)
  /-- `STATIC_ENERGY` (R396). Every 64 clk each core charges 96 static energy units to bank owners. -/
  | staticEnergy
  /-- `PERST_RELEASE` (R397). Release of PERST# starts the boot ROM, which trains the host port. -/
  | perstRelease
  /-- `FIRMWARE_IMAGE_WRITE` (R397). A firmware image in the mailbox is checked and, if valid, brings up the module. -/
  | firmwareImageWrite (verified : Bool)
  /-- `CODE_OBJECT_LOAD` (R38). The loader places a verified code object into an owner's banks or refuses it. -/
  | codeObjectLoad (owner : Nat) (cores : List Nat) (object : CodeObject) (verified : Bool)
  /-- `GATE_WRITE` (R130). A write to GATE stops or restarts issue from context banks. -/
  | gateWrite (core : Nat) (value : BitVec 64)
  /-- `BANKMAP_WRITE` (R367). Assigns or clears a bank's owner, refused if the bank is not clean or is live. -/
  | bankmapWrite (core : Nat) (value : BitVec 64)
  /-- `BANKMAP_SELECT` (R367). A BANKMAP write with RDONLY changes only BSEL. -/
  | bankmapSelect (core : Nat) (value : BitVec 64)
  /-- `CTDAT_WRITE` (R367). Writes the physical core of a logical-to-physical core table entry. -/
  | ctdatWrite (core : Nat) (value : BitVec 64)
  /-- `WAY_QUOTA` (R240). WTDAT class 0x02 sets an owner's way quota at a slice. -/
  | wayQuota (owner ring : Nat) (value : BitVec 64)
  /-- `INTERFACE_WEIGHT` (R383). WTDAT sets an interface's weight at a structure class. -/
  | interfaceWeight (iface cls : Nat) (value : BitVec 64)
  /-- `OWNER_WEIGHT` (R22). WTDAT sets an owner's weight at a structure class within the sums. -/
  | ownerWeight (owner cls : Nat) (value : BitVec 64)
  /-- `PEER_WINDOW_BASE` (R230). WTDAT class 0x0A sets a Zasol link's peer window base. -/
  | peerWindowBase (link : Nat) (value : BitVec 64)
  /-- `OWNER_CREATE` (R383). WTDAT class 0x0E with LIVE 1 creates an owner bound to an interface. -/
  | ownerCreate (owner iface : Nat)
  /-- `OWNER_DESTROY` (R383). WTDAT class 0x0E with LIVE 0 destroys an owner and writes back its lines. -/
  | ownerDestroy (owner : Nat)
  /-- `OWNER_KEY` (R208). WTDAT class 0x0F sets an owner's key and restarts its streams. -/
  | ownerKey (owner : Nat) (value : BitVec 64)
  /-- `BUCKET` (R215). WTDAT class 0x10 sets an owner's RATE and DEPTH. -/
  | bucket (owner : Nat) (value : BitVec 64)
  /-- `NODE_QUOTA` (R350). WTDAT class 0x11 sets an owner's node quota. -/
  | nodeQuota (owner : Nat) (value : BitVec 64)
  /-- `SHADOW_TABLE_ROOT` (R372). WTDAT class 0x12 sets an owner's shadow-table root. -/
  | shadowTableRoot (owner : Nat) (value : BitVec 64)
  /-- `FAULT_DESCRIPTOR` (R368). WTDAT class 0x13 places an owner's fault descriptor and MSI-X vector. -/
  | faultDescriptor (owner : Nat) (value : BitVec 64)
  /-- `QUANTUM` (R385). WTDAT class 0x14 sets an interface's QUANTUM, BANKLIM and NOWN. -/
  | quantum (iface : Nat) (value : BitVec 64)
  /-- `PARTITION` (R384). WTDAT class 0x15 hard-partitions a ring to an interface or returns it. -/
  | partition (iface ring : Nat) (value : BitVec 64)
  /-- `RECORD_BUILD` (R386). WTDAT class 0x16 builds a launch record from an image. -/
  | recordBuild (iface index : Nat) (value : BitVec 64)
  /-- `RECORD_FREE` (R386). WTDAT class 0x16 frees a launch record to Unbuilt. -/
  | recordFree (iface index : Nat)
  /-- `SHARING_KEY` (R383). WTDAT class 0x17 sets one of the module's sharing keys. -/
  | sharingKey (index : Nat) (value : BitVec 64)
  /-- `REGION_WRITE` (R343). WTDAT class 0x18 writes a pool region entry under the overlap and state rules. -/
  | regionWrite (index : Nat) (value : BitVec 64)
  /-- `REGION_MARK_LOST` (R343). A write of STATE 2 marks a live pool region lost in one step. -/
  | regionMarkLost (index : Nat)
  /-- `NODE_STORE_BASE` (R383). WTDAT class 0x19 sets the node-store base. -/
  | nodeStoreBase (value : BitVec 64)
  /-- `ABSENT_PROBE_CLEAR` (R383). WTDAT class 0x1A clears a ring's absent-probe count. -/
  | absentProbeClear (ring : Nat) (value : BitVec 64)
  /-- `SLOW_DOWN_LINK_MASK` (R392). WTDAT class 0x1B sets the links that carry slow-down notices. -/
  | slowDownLinkMask (value : BitVec 64)
  /-- `ECTR_CLEAR` (R396). WTDAT class 0x1D clears an owner's energy counter. -/
  | ectrClear (owner : Nat) (value : BitVec 64)
  /-- `MEMORY_ECC_ERROR` (R160). A bit error arises in local memory, an L1 or a home-slice sector; a single-bit error is corrected and counted, a double-bit or uncorrectable error sets the poison bit. -/
  | memoryEccError (loc : Nat) (uncorrectable : Bool)
  /-- `POOL_EXCLUSIVE_GRANT` (R345). The pool answers a home slice's request for exclusivity of a pool-coherent line, after every other holder has answered, and the slice holds the line exclusive. -/
  | poolExclusiveGrant (line : Nat)
  /-- `POOL_LINK_RECOVERY` (R348). A lost pool port's link returns to the active state and the port again carries traffic, but none for regions still lost. -/
  | poolLinkRecovery (port : Nat)
  /-- `THERMAL_EMERGENCY_END` (R394). A die's temperature falls back to 105 °C or below, ending the thermal emergency, so the forced rail minimum lapses and slow-down notices stop. -/
  | thermalEmergencyEnd (die : Nat)
  /-- `HOT_CORE_COOLING` (R395). A hot core without a caravan target cools below 100 °C and issues on every clk again. -/
  | hotCoreCooling (core : Nat)
  /-- `ZASOL_FLIT_RETRY` (R391). A Zasol flit fails its check at the receiver and is sent again from the link's retry buffer, with its order kept. -/
  | zasolFlitRetry (link : Nat)
deriving DecidableEq, Repr

end Sys2Proof
end

