-- ==== Sys2Proof/WellFormed.lean ====
section
/-! DEFINITION. Which rows are instruction words, and the limits a word's operands must meet before it can be encoded
(R60-R66, R68 steps 2-5). A row without an encoding (an event) is not well formed as a word. -/

namespace Sys2Proof

/-- Types the integer operations of `amo` take (R63). -/
def amoInt : AmoTy → Bool
  | .i32 | .i64 | .p32 => true
  | _ => false

/-- Types `amo.swap` takes (R63). -/
def amoSwp : AmoTy → Bool
  | .i32 | .i64 | .f32 | .f64 | .p32 => true
  | _ => false

/-- Types the floating operations of `amo` take (R63). -/
def amoFlt : AmoTy → Bool
  | .f32 | .f64 | .bf16 | .p32 | .pbf16 => true
  | _ => false

/-- FL of R312. -/
def vFL : ElemTy → Bool
  | .f64 | .f32 | .bf16 | .f16 => true
  | _ => false

/-- FL and INT of R312. -/
def vNum (t : ElemTy) : Bool := t != .c8

/-- FL and the signed integers (R312, `vabs`). -/
def vAbs (t : ElemTy) : Bool := vFL t || t == .i8 || t == .i16 || t == .i32 || t == .i64

/-- N8 to N64 (R312, `vrng`). -/
def vUns : ElemTy → Bool
  | .n8 | .n16 | .n32 | .n64 => true
  | _ => false

/-- F32, BF16 and F16 (R312). -/
def vNarrow : ElemTy → Bool
  | .f32 | .bf16 | .f16 => true
  | _ => false

/-- I32 and C8 (R312, `valign`). -/
def vAli : ElemTy → Bool
  | .i32 | .c8 => true
  | _ => false

/-- A register pair starts at an even register (R62, R63). -/
def evenReg (r : Reg) : Bool := r.toNat % 2 == 0

/-- pos + len within 64, with len − 1 in the word (R60, R142). -/
def bfFits (p l : BitVec 6) : Bool := decide (p.toNat + l.toNat + 1 ≤ 64)

/-- A defined special-register number (R53). -/
def sprDefined (n : BitVec 16) : Bool :=
  decide (n.toNat ≤ 0x00E) || (decide (0x100 ≤ n.toNat) && decide (n.toNat ≤ 0x10A))

/-- A no-return form has d = g0 (R63). -/
def nrOk (d : Reg) (n : Bool) : Bool := !n || d == 0

/-- The operand limits of a word (R68 steps 2 to 5), as far as the constructor's fields can break them; an event is no
word. The mode check of step 6 depends on the activation and is made when the word issues. -/
def Instr.wellFormed : Instr → Bool
  | .add _ _ _ => true
  | .sub _ _ _ => true
  | .and _ _ _ => true
  | .or _ _ _ => true
  | .xor _ _ _ => true
  | .andn _ _ _ => true
  | .orn _ _ _ => true
  | .nor _ _ _ => true
  | .sll _ _ _ => true
  | .srl _ _ _ => true
  | .sra _ _ _ => true
  | .rol _ _ _ => true
  | .ror _ _ _ => true
  | .slt _ _ _ => true
  | .sltn _ _ _ => true
  | .seq _ _ _ => true
  | .sne _ _ _ => true
  | .min _ _ _ => true
  | .max _ _ _ => true
  | .minn _ _ _ => true
  | .maxn _ _ _ => true
  | .adds1 _ _ _ => true
  | .adds2 _ _ _ => true
  | .adds3 _ _ _ => true
  | .sel _ _ _ => true
  | .clz _ _ => true
  | .ctz _ _ => true
  | .popc _ _ => true
  | .brev _ _ => true
  | .bswap _ _ => true
  | .sxb _ _ => true
  | .sxh _ _ => true
  | .sxw _ _ => true
  | .zxw _ _ => true
  | .mul _ _ _ => true
  | .mulh _ _ _ => true
  | .mulhn _ _ _ => true
  | .mulw _ _ _ => true
  | .div _ _ _ => true
  | .divn _ _ _ => true
  | .rem _ _ _ => true
  | .remn _ _ _ => true
  | .addi _ _ _ => true
  | .andi _ _ _ => true
  | .ori _ _ _ => true
  | .xori _ _ _ => true
  | .slti _ _ _ => true
  | .sltni _ _ _ => true
  | .slli _ _ _ => true
  | .srli _ _ _ => true
  | .srai _ _ _ => true
  | .roli _ _ _ => true
  | .bfx _ _ p l => bfFits p l
  | .bfxs _ _ p l => bfFits p l
  | .bfi _ _ p l => bfFits p l
  | .ldhi _ _ => true
  | .adpc _ _ => true
  | .fadd _ _ _ _ => true
  | .fsub _ _ _ _ => true
  | .fmul _ _ _ _ => true
  | .ffma _ _ _ _ => true
  | .fdiv _ _ _ _ => true
  | .fsqrt _ _ _ => true
  | .fmin _ _ _ _ => true
  | .fmax _ _ _ _ => true
  | .fsgn _ _ _ _ => true
  | .fsgnn _ _ _ _ => true
  | .fsgnx _ _ _ _ => true
  | .feq _ _ _ _ => true
  | .flt _ _ _ _ => true
  | .fle _ _ _ _ => true
  | .fclass _ _ _ => true
  | .fcvti _ _ _ _ => true
  | .fcvtf _ _ _ _ => true
  | .fcvtff _ _ _ _ => true
  | .fev _ _ m _ => m != 3
  | .fred _ _ _ _ => true
  | .beq _ _ _ => true
  | .bne _ _ _ => true
  | .blt _ _ _ => true
  | .bge _ _ _ => true
  | .bltn _ _ _ => true
  | .bgen _ _ _ => true
  | .bany _ _ _ => true
  | .bnone _ _ _ => true
  | .dbnz _ _ => true
  | .jmp _ => true
  | .jal _ => true
  | .jr _ => true
  | .jalr _ _ => true
  | .done => true
  | .callat _ _ _ => true
  | .reply _ _ => true
  | .ldB _ _ _ _ => true
  | .ldBn _ _ _ _ => true
  | .ldH _ _ _ _ => true
  | .ldHn _ _ _ _ => true
  | .ldW _ _ _ _ => true
  | .ldWn _ _ _ _ => true
  | .ldD _ _ _ _ => true
  | .ldQ d _ _ _ => evenReg d
  | .stB _ _ _ _ => true
  | .stH _ _ _ _ => true
  | .stW _ _ _ _ => true
  | .stD _ _ _ _ => true
  | .stQ d _ _ _ => evenReg d
  | .amoAdd d _ _ t n _ => amoInt t && nrOk d n
  | .amoAnd d _ _ t n _ => amoInt t && nrOk d n
  | .amoOr d _ _ t n _ => amoInt t && nrOk d n
  | .amoXor d _ _ t n _ => amoInt t && nrOk d n
  | .amoMin d _ _ t n _ => amoInt t && nrOk d n
  | .amoMax d _ _ t n _ => amoInt t && nrOk d n
  | .amoSwap d _ _ t n _ => amoSwp t && nrOk d n
  | .amoCas _ _ _ t _ => t == .i32 || t == .i64
  | .amoCasq d _ b _ => evenReg d && evenReg b
  | .amoFadd d _ _ t n _ => amoFlt t && nrOk d n
  | .amoFmin d _ _ t n _ => amoFlt t && nrOk d n
  | .amoFmax d _ _ t n _ => amoFlt t && nrOk d n
  | .amoMinn d _ _ t n _ => amoInt t && nrOk d n
  | .amoMaxn d _ _ t n _ => amoInt t && nrOk d n
  | .oadd _ _ _ => true
  | .ofadd _ _ _ => true
  | .ojoin _ _ _ => true
  | .rdlk _ _ _ => true
  | .wrlk _ _ _ => true
  | .rdul _ _ => true
  | .wrul _ _ => true
  | .lkinit _ _ _ => true
  | .hbind _ _ c => decide (c.toNat ≤ 1)
  | .hwait _ _ c => decide (1 ≤ c.toNat)
  | .hfree _ _ c => decide (1 ≤ c.toNat)
  | .hadv _ _ c => decide (1 ≤ c.toNat)
  | .hrel _ => true
  | .hlda _ _ c => decide (c.toNat ≤ 7)
  | .hsta _ _ c => decide (c.toNat ≤ 7)
  | .nsend _ _ _ => true
  | .amsg _ _ => true
  | .wopen _ _ _ => true
  | .mhdl _ _ _ => true
  | .tinit _ _ _ => true
  | .tdec _ _ => true
  | .tinc _ _ => true
  | .larm _ _ => true
  | .lpatch _ _ _ => true
  | .lstat _ _ _ => true
  | .widf _ _ => true
  | .qsync _ => true
  | .wb _ _ => true
  | .inv _ _ => true
  | .flush _ _ => true
  | .lrenew _ _ => true
  | .pfch _ _ => true
  | .fenceAll _ => true
  | .fenceLd _ => true
  | .fenceSt _ => true
  | .fenceEng _ => true
  | .vadd _ _ _ t => vNum t
  | .vsub _ _ _ t => vNum t
  | .vmul _ _ _ t => vNum t
  | .vfma _ _ _ t => vFL t
  | .vmin _ _ _ t => vNum t
  | .vmax _ _ _ t => vNum t
  | .vabs _ _ _ t => vAbs t
  | .vcvt _ _ _ _ => true
  | .vscl _ _ _ t => vFL t
  | .vcmp _ _ _ t => vNum t
  | .vsel _ _ _ _ => true
  | .vred _ _ _ _ => true
  | .vfev _ _ _ t => t == .f32
  | .vrng _ _ _ t => vUns t
  | .vsr _ _ _ t => vNarrow t
  | .vdrop _ _ _ t => vFL t
  | .vgath _ _ _ _ => true
  | .vscat _ _ _ _ => true
  | .vsparse _ _ _ t => vNarrow t
  | .vsend _ _ _ _ => true
  | .vcopy _ _ _ _ => true
  | .vmexp _ _ _ t => vFL t
  | .valign _ _ _ t => vAli t
  | .vnorm _ _ _ t => vFL t
  | .mlease _ _ => true
  | .mrel _ _ => true
  | .mcfg _ => true
  | .mlda _ _ => true
  | .mldb _ _ => true
  | .mstep _ _ => true
  | .mrot _ _ => true
  | .mdrain _ _ => true
  | .mzero _ _ => true
  | .mspm _ _ _ => true
  | .cpy _ _ _ => true
  | .cpyt _ _ _ => true
  | .mcast _ _ => true
  | .join _ _ _ => true
  | .leave _ _ => true
  | .bfree _ _ _ => true
  | .mbox _ _ _ => true
  | .cpst _ _ _ => true
  | .cabort _ _ => true
  | .tdef _ _ _ => true
  | .tget _ _ _ => true
  | .tdrop _ _ => true
  | .dtld _ _ => true
  | .dtchk _ => true
  | .cmld _ _ _ => true
  | .enc _ _ => true
  | .dec _ _ => true
  | .reseed _ _ => true
  | .draw _ _ _ => true
  | .xcq _ _ _ => true
  | .ictr _ _ _ => true
  | .shq _ _ => true
  | .cgive _ _ _ => true
  | .cq _ _ _ => true
  | .cgrp _ _ _ => true
  | .caccept _ _ => true
  | .cnode _ _ => true
  | .cenr _ _ _ => true
  | .cdrop _ _ _ => true
  | .cmove _ _ _ => true
  | .csettle _ _ => true
  | .cread _ _ _ => true
  | .tlw _ _ _ => true
  | .tlr _ _ => true
  | .bbinit _ _ _ => true
  | .bbexp _ _ => true
  | .bbarr _ _ => true
  | .bbq _ _ => true
  | .mfs _ n => sprDefined n
  | .mts _ n => sprDefined n
  | .trap => true
  | .brk => true
  | .tret => true
  | .idle => true
  | .fresume _ _ _ => true
  | .tlbi _ _ => true
  | .bankctl _ _ => true
  | .ctxsave _ _ _ => true
  | .ctxload _ _ _ => true
  | .issueDraw _ => false
  | .arbitrationSlot _ _ => false
  | .vectorBeat _ => false
  | .leaseArbitration _ => false
  | .groupCommandStart _ => false
  | .leaseIdleTimeout _ => false
  | .settle _ _ => false
  | .coalesce _ _ => false
  | .messageDepart _ _ => false
  | .serveWeak _ _ => false
  | .serveAtHome _ => false
  | .fill _ _ _ _ => false
  | .sectorFill _ _ => false
  | .probe _ _ => false
  | .leaseExpiry _ _ => false
  | .atomicStep _ => false
  | .resultReturn _ _ _ => false
  | .refusalReturn _ => false
  | .parkRelease _ _ => false
  | .fetchRefill _ _ => false
  | .tableReplace _ _ => false
  | .keyStoreStep _ => false
  | .sweepMove _ _ _ _ => false
  | .sweepEnd _ => false
  | .fusedL1Transition _ _ => false
  | .publish _ => false
  | .bisnpArrival _ _ _ => false
  | .apply _ => false
  | .linkWriteAck _ => false
  | .startRequestArrival _ => false
  | .activationPlace _ _ => false
  | .inboundQueueRelease _ _ => false
  | .windowOpenArrival _ => false
  | .windowOpenReply _ => false
  | .slotArrival _ => false
  | .creditArrival _ => false
  | .windowCloseArrival _ => false
  | .tinitStep _ => false
  | .tdecArrival _ => false
  | .tincArrival _ => false
  | .launchStartRequest _ _ => false
  | .endNoticeSend _ => false
  | .endNoticeArrival _ => false
  | .bbinitStep _ => false
  | .barrierUpdate _ => false
  | .quantumEnd _ _ => false
  | .orderedArrival _ => false
  | .orderedResend _ => false
  | .watchArrival _ => false
  | .lockStep _ => false
  | .capabilityStep _ => false
  | .copyChunk _ => false
  | .copyDone _ => false
  | .engineCommandDone _ _ _ => false
  | .joinArrival _ => false
  | .leaveArrival _ => false
  | .tileArrival _ => false
  | .freeArrival _ => false
  | .pageWalk _ => false
  | .resumeArrival _ => false
  | .poolPortLoss _ => false
  | .rollupStep _ _ => false
  | .caravan _ _ => false
  | .thermalEmergency _ => false
  | .railLevelChange _ _ => false
  | .slowdownNoticeSend => false
  | .slowdownNoticeReceive _ _ => false
  | .slowdownHoldExpiry => false
  | .zasolLinkLost _ => false
  | .peerAccessArrival _ _ _ _ => false
  | .hostMemoryAccess _ _ _ => false
  | .notify _ _ _ => false
  | .notifyStampPoll _ => false
  | .notifyTimeout _ => false
  | .staticEnergy => false
  | .perstRelease => false
  | .firmwareImageWrite _ => false
  | .codeObjectLoad _ _ _ _ => false
  | .gateWrite _ _ => false
  | .bankmapWrite _ _ => false
  | .bankmapSelect _ _ => false
  | .ctdatWrite _ _ => false
  | .wayQuota _ _ _ => false
  | .interfaceWeight _ _ _ => false
  | .ownerWeight _ _ _ => false
  | .peerWindowBase _ _ => false
  | .ownerCreate _ _ => false
  | .ownerDestroy _ => false
  | .ownerKey _ _ => false
  | .bucket _ _ => false
  | .nodeQuota _ _ => false
  | .shadowTableRoot _ _ => false
  | .faultDescriptor _ _ => false
  | .quantum _ _ => false
  | .partition _ _ _ => false
  | .recordBuild _ _ _ => false
  | .recordFree _ _ => false
  | .sharingKey _ _ => false
  | .regionWrite _ _ => false
  | .regionMarkLost _ => false
  | .nodeStoreBase _ => false
  | .absentProbeClear _ _ => false
  | .slowDownLinkMask _ => false
  | .ectrClear _ _ => false
  | .memoryEccError _ _ => false
  | .poolExclusiveGrant _ => false
  | .poolLinkRecovery _ => false
  | .thermalEmergencyEnd _ => false
  | .hotCoreCooling _ => false
  | .zasolFlitRetry _ => false

/-- The row has an instruction word (a mask in the opcode table). -/
def Instr.isWord : Instr → Bool
  | .add _ _ _ => true
  | .sub _ _ _ => true
  | .and _ _ _ => true
  | .or _ _ _ => true
  | .xor _ _ _ => true
  | .andn _ _ _ => true
  | .orn _ _ _ => true
  | .nor _ _ _ => true
  | .sll _ _ _ => true
  | .srl _ _ _ => true
  | .sra _ _ _ => true
  | .rol _ _ _ => true
  | .ror _ _ _ => true
  | .slt _ _ _ => true
  | .sltn _ _ _ => true
  | .seq _ _ _ => true
  | .sne _ _ _ => true
  | .min _ _ _ => true
  | .max _ _ _ => true
  | .minn _ _ _ => true
  | .maxn _ _ _ => true
  | .adds1 _ _ _ => true
  | .adds2 _ _ _ => true
  | .adds3 _ _ _ => true
  | .sel _ _ _ => true
  | .clz _ _ => true
  | .ctz _ _ => true
  | .popc _ _ => true
  | .brev _ _ => true
  | .bswap _ _ => true
  | .sxb _ _ => true
  | .sxh _ _ => true
  | .sxw _ _ => true
  | .zxw _ _ => true
  | .mul _ _ _ => true
  | .mulh _ _ _ => true
  | .mulhn _ _ _ => true
  | .mulw _ _ _ => true
  | .div _ _ _ => true
  | .divn _ _ _ => true
  | .rem _ _ _ => true
  | .remn _ _ _ => true
  | .addi _ _ _ => true
  | .andi _ _ _ => true
  | .ori _ _ _ => true
  | .xori _ _ _ => true
  | .slti _ _ _ => true
  | .sltni _ _ _ => true
  | .slli _ _ _ => true
  | .srli _ _ _ => true
  | .srai _ _ _ => true
  | .roli _ _ _ => true
  | .bfx _ _ _ _ => true
  | .bfxs _ _ _ _ => true
  | .bfi _ _ _ _ => true
  | .ldhi _ _ => true
  | .adpc _ _ => true
  | .fadd _ _ _ _ => true
  | .fsub _ _ _ _ => true
  | .fmul _ _ _ _ => true
  | .ffma _ _ _ _ => true
  | .fdiv _ _ _ _ => true
  | .fsqrt _ _ _ => true
  | .fmin _ _ _ _ => true
  | .fmax _ _ _ _ => true
  | .fsgn _ _ _ _ => true
  | .fsgnn _ _ _ _ => true
  | .fsgnx _ _ _ _ => true
  | .feq _ _ _ _ => true
  | .flt _ _ _ _ => true
  | .fle _ _ _ _ => true
  | .fclass _ _ _ => true
  | .fcvti _ _ _ _ => true
  | .fcvtf _ _ _ _ => true
  | .fcvtff _ _ _ _ => true
  | .fev _ _ _ _ => true
  | .fred _ _ _ _ => true
  | .beq _ _ _ => true
  | .bne _ _ _ => true
  | .blt _ _ _ => true
  | .bge _ _ _ => true
  | .bltn _ _ _ => true
  | .bgen _ _ _ => true
  | .bany _ _ _ => true
  | .bnone _ _ _ => true
  | .dbnz _ _ => true
  | .jmp _ => true
  | .jal _ => true
  | .jr _ => true
  | .jalr _ _ => true
  | .done => true
  | .callat _ _ _ => true
  | .reply _ _ => true
  | .ldB _ _ _ _ => true
  | .ldBn _ _ _ _ => true
  | .ldH _ _ _ _ => true
  | .ldHn _ _ _ _ => true
  | .ldW _ _ _ _ => true
  | .ldWn _ _ _ _ => true
  | .ldD _ _ _ _ => true
  | .ldQ _ _ _ _ => true
  | .stB _ _ _ _ => true
  | .stH _ _ _ _ => true
  | .stW _ _ _ _ => true
  | .stD _ _ _ _ => true
  | .stQ _ _ _ _ => true
  | .amoAdd _ _ _ _ _ _ => true
  | .amoAnd _ _ _ _ _ _ => true
  | .amoOr _ _ _ _ _ _ => true
  | .amoXor _ _ _ _ _ _ => true
  | .amoMin _ _ _ _ _ _ => true
  | .amoMax _ _ _ _ _ _ => true
  | .amoSwap _ _ _ _ _ _ => true
  | .amoCas _ _ _ _ _ => true
  | .amoCasq _ _ _ _ => true
  | .amoFadd _ _ _ _ _ _ => true
  | .amoFmin _ _ _ _ _ _ => true
  | .amoFmax _ _ _ _ _ _ => true
  | .amoMinn _ _ _ _ _ _ => true
  | .amoMaxn _ _ _ _ _ _ => true
  | .oadd _ _ _ => true
  | .ofadd _ _ _ => true
  | .ojoin _ _ _ => true
  | .rdlk _ _ _ => true
  | .wrlk _ _ _ => true
  | .rdul _ _ => true
  | .wrul _ _ => true
  | .lkinit _ _ _ => true
  | .hbind _ _ _ => true
  | .hwait _ _ _ => true
  | .hfree _ _ _ => true
  | .hadv _ _ _ => true
  | .hrel _ => true
  | .hlda _ _ _ => true
  | .hsta _ _ _ => true
  | .nsend _ _ _ => true
  | .amsg _ _ => true
  | .wopen _ _ _ => true
  | .mhdl _ _ _ => true
  | .tinit _ _ _ => true
  | .tdec _ _ => true
  | .tinc _ _ => true
  | .larm _ _ => true
  | .lpatch _ _ _ => true
  | .lstat _ _ _ => true
  | .widf _ _ => true
  | .qsync _ => true
  | .wb _ _ => true
  | .inv _ _ => true
  | .flush _ _ => true
  | .lrenew _ _ => true
  | .pfch _ _ => true
  | .fenceAll _ => true
  | .fenceLd _ => true
  | .fenceSt _ => true
  | .fenceEng _ => true
  | .vadd _ _ _ _ => true
  | .vsub _ _ _ _ => true
  | .vmul _ _ _ _ => true
  | .vfma _ _ _ _ => true
  | .vmin _ _ _ _ => true
  | .vmax _ _ _ _ => true
  | .vabs _ _ _ _ => true
  | .vcvt _ _ _ _ => true
  | .vscl _ _ _ _ => true
  | .vcmp _ _ _ _ => true
  | .vsel _ _ _ _ => true
  | .vred _ _ _ _ => true
  | .vfev _ _ _ _ => true
  | .vrng _ _ _ _ => true
  | .vsr _ _ _ _ => true
  | .vdrop _ _ _ _ => true
  | .vgath _ _ _ _ => true
  | .vscat _ _ _ _ => true
  | .vsparse _ _ _ _ => true
  | .vsend _ _ _ _ => true
  | .vcopy _ _ _ _ => true
  | .vmexp _ _ _ _ => true
  | .valign _ _ _ _ => true
  | .vnorm _ _ _ _ => true
  | .mlease _ _ => true
  | .mrel _ _ => true
  | .mcfg _ => true
  | .mlda _ _ => true
  | .mldb _ _ => true
  | .mstep _ _ => true
  | .mrot _ _ => true
  | .mdrain _ _ => true
  | .mzero _ _ => true
  | .mspm _ _ _ => true
  | .cpy _ _ _ => true
  | .cpyt _ _ _ => true
  | .mcast _ _ => true
  | .join _ _ _ => true
  | .leave _ _ => true
  | .bfree _ _ _ => true
  | .mbox _ _ _ => true
  | .cpst _ _ _ => true
  | .cabort _ _ => true
  | .tdef _ _ _ => true
  | .tget _ _ _ => true
  | .tdrop _ _ => true
  | .dtld _ _ => true
  | .dtchk _ => true
  | .cmld _ _ _ => true
  | .enc _ _ => true
  | .dec _ _ => true
  | .reseed _ _ => true
  | .draw _ _ _ => true
  | .xcq _ _ _ => true
  | .ictr _ _ _ => true
  | .shq _ _ => true
  | .cgive _ _ _ => true
  | .cq _ _ _ => true
  | .cgrp _ _ _ => true
  | .caccept _ _ => true
  | .cnode _ _ => true
  | .cenr _ _ _ => true
  | .cdrop _ _ _ => true
  | .cmove _ _ _ => true
  | .csettle _ _ => true
  | .cread _ _ _ => true
  | .tlw _ _ _ => true
  | .tlr _ _ => true
  | .bbinit _ _ _ => true
  | .bbexp _ _ => true
  | .bbarr _ _ => true
  | .bbq _ _ => true
  | .mfs _ _ => true
  | .mts _ _ => true
  | .trap => true
  | .brk => true
  | .tret => true
  | .idle => true
  | .fresume _ _ _ => true
  | .tlbi _ _ => true
  | .bankctl _ _ => true
  | .ctxsave _ _ _ => true
  | .ctxload _ _ _ => true
  | .issueDraw _ => false
  | .arbitrationSlot _ _ => false
  | .vectorBeat _ => false
  | .leaseArbitration _ => false
  | .groupCommandStart _ => false
  | .leaseIdleTimeout _ => false
  | .settle _ _ => false
  | .coalesce _ _ => false
  | .messageDepart _ _ => false
  | .serveWeak _ _ => false
  | .serveAtHome _ => false
  | .fill _ _ _ _ => false
  | .sectorFill _ _ => false
  | .probe _ _ => false
  | .leaseExpiry _ _ => false
  | .atomicStep _ => false
  | .resultReturn _ _ _ => false
  | .refusalReturn _ => false
  | .parkRelease _ _ => false
  | .fetchRefill _ _ => false
  | .tableReplace _ _ => false
  | .keyStoreStep _ => false
  | .sweepMove _ _ _ _ => false
  | .sweepEnd _ => false
  | .fusedL1Transition _ _ => false
  | .publish _ => false
  | .bisnpArrival _ _ _ => false
  | .apply _ => false
  | .linkWriteAck _ => false
  | .startRequestArrival _ => false
  | .activationPlace _ _ => false
  | .inboundQueueRelease _ _ => false
  | .windowOpenArrival _ => false
  | .windowOpenReply _ => false
  | .slotArrival _ => false
  | .creditArrival _ => false
  | .windowCloseArrival _ => false
  | .tinitStep _ => false
  | .tdecArrival _ => false
  | .tincArrival _ => false
  | .launchStartRequest _ _ => false
  | .endNoticeSend _ => false
  | .endNoticeArrival _ => false
  | .bbinitStep _ => false
  | .barrierUpdate _ => false
  | .quantumEnd _ _ => false
  | .orderedArrival _ => false
  | .orderedResend _ => false
  | .watchArrival _ => false
  | .lockStep _ => false
  | .capabilityStep _ => false
  | .copyChunk _ => false
  | .copyDone _ => false
  | .engineCommandDone _ _ _ => false
  | .joinArrival _ => false
  | .leaveArrival _ => false
  | .tileArrival _ => false
  | .freeArrival _ => false
  | .pageWalk _ => false
  | .resumeArrival _ => false
  | .poolPortLoss _ => false
  | .rollupStep _ _ => false
  | .caravan _ _ => false
  | .thermalEmergency _ => false
  | .railLevelChange _ _ => false
  | .slowdownNoticeSend => false
  | .slowdownNoticeReceive _ _ => false
  | .slowdownHoldExpiry => false
  | .zasolLinkLost _ => false
  | .peerAccessArrival _ _ _ _ => false
  | .hostMemoryAccess _ _ _ => false
  | .notify _ _ _ => false
  | .notifyStampPoll _ => false
  | .notifyTimeout _ => false
  | .staticEnergy => false
  | .perstRelease => false
  | .firmwareImageWrite _ => false
  | .codeObjectLoad _ _ _ _ => false
  | .gateWrite _ _ => false
  | .bankmapWrite _ _ => false
  | .bankmapSelect _ _ => false
  | .ctdatWrite _ _ => false
  | .wayQuota _ _ _ => false
  | .interfaceWeight _ _ _ => false
  | .ownerWeight _ _ _ => false
  | .peerWindowBase _ _ => false
  | .ownerCreate _ _ => false
  | .ownerDestroy _ => false
  | .ownerKey _ _ => false
  | .bucket _ _ => false
  | .nodeQuota _ _ => false
  | .shadowTableRoot _ _ => false
  | .faultDescriptor _ _ => false
  | .quantum _ _ => false
  | .partition _ _ _ => false
  | .recordBuild _ _ _ => false
  | .recordFree _ _ => false
  | .sharingKey _ _ => false
  | .regionWrite _ _ => false
  | .regionMarkLost _ => false
  | .nodeStoreBase _ => false
  | .absentProbeClear _ _ => false
  | .slowDownLinkMask _ => false
  | .ectrClear _ _ => false
  | .memoryEccError _ _ => false
  | .poolExclusiveGrant _ => false
  | .poolLinkRecovery _ => false
  | .thermalEmergencyEnd _ => false
  | .hotCoreCooling _ => false
  | .zasolFlitRetry _ => false

end Sys2Proof
end

