-- ==== Sys2Proof/Decode.lean ====
section
/-! DEFINITION. Decoding of instruction words (R47-R49, R58-R66) in the order of R68 steps 1 to 5, every refusal by
name, and the encoder beside it, written from the same tables. -/

namespace Sys2Proof

/-- Why a word is not an instruction. The first five are the ECAUSE.SUB values 1 to 5 of ILL (R57, R68). -/
inductive Reject where
  /-- SUB 1: the all-zero word or an unassigned major. -/
  | major
  /-- SUB 2: an unassigned fn, cmd or sub-field value, or an unassigned combination. -/
  | sub
  /-- SUB 3: a reserved field is not zero. -/
  | reserved
  /-- SUB 4: an operand limit carried in the word is broken. -/
  | limit
  /-- SUB 5: an undefined special-register number. -/
  | spr
  /-- Fewer than four bytes were given. -/
  | truncated
deriving DecidableEq, Repr

/-- ECAUSE.SUB of a refusal (R57). -/
def rejectSub : Reject → Nat
  | .major => 1
  | .sub => 2
  | .reserved => 3
  | .limit => 4
  | .spr => 5
  | .truncated => 0

/-! ### Fields (R48) -/

/-- The major opcode, bits 31:26. -/
def fOp (w : BitVec 32) : BitVec 6 := w.extractLsb' 26 6
/-- Field d of the forms A, I, U, M, C, H; field a of the form B. -/
def fD (w : BitVec 32) : BitVec 5 := w.extractLsb' 21 5
/-- Field a of the forms A, I, M, C; field b of the form B. -/
def fA (w : BitVec 32) : BitVec 5 := w.extractLsb' 16 5
/-- Field b of the forms A and C. -/
def fB (w : BitVec 32) : BitVec 5 := w.extractLsb' 11 5
/-- fn of the forms A and H, cmd of the form C. -/
def fFn (w : BitVec 32) : BitVec 11 := w.extractLsb' 0 11
/-- imm16, disp16. -/
def fImm (w : BitVec 32) : BitVec 16 := w.extractLsb' 0 16
/-- imm21. -/
def fImm21 (w : BitVec 32) : BitVec 21 := w.extractLsb' 0 21
/-- disp26. -/
def fDisp26 (w : BitVec 32) : BitVec 26 := w.extractLsb' 0 26
/-- h of the form H. -/
def fH (w : BitVec 32) : BitVec 4 := w.extractLsb' 17 4
/-- cnt of the form H. -/
def fCnt (w : BitVec 32) : BitVec 6 := w.extractLsb' 11 6

/-! ### Forms (R48) -/

/-- Form A and form C. -/
def encA (op : BitVec 6) (d a b : BitVec 5) (fn : BitVec 11) : BitVec 32 := op ++ d ++ a ++ b ++ fn
/-- Form I and form B. -/
def encI (op : BitVec 6) (d a : BitVec 5) (imm : BitVec 16) : BitVec 32 := op ++ d ++ a ++ imm
/-- Form U. -/
def encU (op : BitVec 6) (d : BitVec 5) (imm : BitVec 21) : BitVec 32 := op ++ d ++ imm
/-- Form J. -/
def encJ (op : BitVec 6) (disp : BitVec 26) : BitVec 32 := op ++ disp
/-- Form H. -/
def encH (op : BitVec 6) (d : BitVec 5) (h : BitVec 4) (c : BitVec 6) (fn : BitVec 11) : BitVec 32 :=
  op ++ d ++ h ++ c ++ fn

/-! ### Sub-field codes (R61-R66) -/

/-- Format codes of majors 0x0E and 0x0F (R61). -/
def fmtCode : FFmt → BitVec 5
  | .f64 => 0
  | .f32 => 1
  | .bf16 => 2
  | .f16 => 3
/-- The FFmt of a code, none where the code is unassigned. -/
def fmtOf (c : Nat) : Option FFmt :=
  match c with
  | 0 => some .f64
  | 1 => some .f32
  | 2 => some .bf16
  | 3 => some .f16
  | _ => none

/-- Integer type codes in field b (R61). -/
def ityCode : IntTy → BitVec 5
  | .i32 => 0
  | .i64 => 1
  | .n32 => 2
  | .n64 => 3
/-- The IntTy of a code, none where the code is unassigned. -/
def ityOf (c : Nat) : Option IntTy :=
  match c with
  | 0 => some .i32
  | 1 => some .i64
  | 2 => some .n32
  | 3 => some .n64
  | _ => none

/-- ord of a load (R62). -/
def ldOrdCode : LdOrd → BitVec 2
  | .weak => 0
  | .strong => 1
  | .acq => 2
/-- The LdOrd of a code, none where the code is unassigned. -/
def ldOrdOf (c : Nat) : Option LdOrd :=
  match c with
  | 0 => some .weak
  | 1 => some .strong
  | 2 => some .acq
  | _ => none

/-- ord of a store (R62). -/
def stOrdCode : StOrd → BitVec 2
  | .weak => 0
  | .strong => 1
  | .rel => 2
/-- The StOrd of a code, none where the code is unassigned. -/
def stOrdOf (c : Nat) : Option StOrd :=
  match c with
  | 0 => some .weak
  | 1 => some .strong
  | 2 => some .rel
  | _ => none

/-- Types of `amo` (R63). -/
def amoTyCode : AmoTy → BitVec 3
  | .i32 => 0
  | .i64 => 1
  | .f32 => 2
  | .f64 => 3
  | .bf16 => 4
  | .p32 => 5
  | .pbf16 => 6
/-- The AmoTy of a code, none where the code is unassigned. -/
def amoTyOf (c : Nat) : Option AmoTy :=
  match c with
  | 0 => some .i32
  | 1 => some .i64
  | 2 => some .f32
  | 3 => some .f64
  | 4 => some .bf16
  | 5 => some .p32
  | 6 => some .pbf16
  | _ => none

/-- Orders of `amo` (R63). -/
def amoOrdCode : AmoOrd → BitVec 2
  | .rlx => 0
  | .acq => 1
  | .rel => 2
  | .ar => 3
/-- The AmoOrd of a code, none where the code is unassigned. -/
def amoOrdOf (c : Nat) : Option AmoOrd :=
  match c with
  | 0 => some .rlx
  | 1 => some .acq
  | 2 => some .rel
  | 3 => some .ar
  | _ => none

/-- Scopes of `fence` (R64). -/
def scopeCode : Scope → BitVec 3
  | .core => 0
  | .ring => 1
  | .die => 2
  | .dev => 3
  | .pool => 4
  | .sys => 5
/-- The Scope of a code, none where the code is unassigned. -/
def scopeOf (c : Nat) : Option Scope :=
  match c with
  | 0 => some .core
  | 1 => some .ring
  | 2 => some .die
  | 3 => some .dev
  | 4 => some .pool
  | 5 => some .sys
  | _ => none

/-- Element types of major 0x28 (R66). -/
def elemCode : ElemTy → BitVec 5
  | .f64 => 0
  | .f32 => 1
  | .bf16 => 2
  | .f16 => 3
  | .i8 => 4
  | .i16 => 5
  | .i32 => 6
  | .i64 => 7
  | .n8 => 8
  | .n16 => 9
  | .n32 => 10
  | .n64 => 11
  | .c8 => 12
/-- The ElemTy of a code, none where the code is unassigned. -/
def elemOf (c : Nat) : Option ElemTy :=
  match c with
  | 0 => some .f64
  | 1 => some .f32
  | 2 => some .bf16
  | 3 => some .f16
  | 4 => some .i8
  | 5 => some .i16
  | 6 => some .i32
  | 7 => some .i64
  | 8 => some .n8
  | 9 => some .n16
  | 10 => some .n32
  | 11 => some .n64
  | 12 => some .c8
  | _ => none

/-! ### Checks -/

/-- R68 step 3: a reserved register field must be zero. -/
def resv (r : BitVec 5) (k : Except Reject Instr) : Except Reject Instr := if r = 0 then k else .error .reserved
/-- R68 step 4: a limit carried in the word. -/
def lim (c : Bool) (i : Instr) : Except Reject Instr := if c then .ok i else .error .limit
/-- R68 step 2: an assigned sub-field value. -/
def sel {α : Type} (o : Option α) (k : α → Except Reject Instr) : Except Reject Instr :=
  match o with
  | some x => k x
  | none => .error .sub
/-- R68 step 2: an assigned combination. -/
def pair (c : Bool) (k : Except Reject Instr) : Except Reject Instr := if c then k else .error .sub

/-! ### Majors (R60-R65) -/

/-- Major 0x01. -/
def decInt (fn : Nat) (d a b : Reg) : Except Reject Instr :=
  match fn with
  | 0x000 => .ok (.add d a b)
  | 0x001 => .ok (.sub d a b)
  | 0x002 => .ok (.and d a b)
  | 0x003 => .ok (.or d a b)
  | 0x004 => .ok (.xor d a b)
  | 0x005 => .ok (.andn d a b)
  | 0x006 => .ok (.orn d a b)
  | 0x007 => .ok (.nor d a b)
  | 0x008 => .ok (.sll d a b)
  | 0x009 => .ok (.srl d a b)
  | 0x00A => .ok (.sra d a b)
  | 0x00B => .ok (.rol d a b)
  | 0x00C => .ok (.ror d a b)
  | 0x00D => .ok (.slt d a b)
  | 0x00E => .ok (.sltn d a b)
  | 0x00F => .ok (.seq d a b)
  | 0x010 => .ok (.sne d a b)
  | 0x011 => .ok (.min d a b)
  | 0x012 => .ok (.max d a b)
  | 0x013 => .ok (.minn d a b)
  | 0x014 => .ok (.maxn d a b)
  | 0x015 => .ok (.adds1 d a b)
  | 0x016 => .ok (.adds2 d a b)
  | 0x017 => .ok (.adds3 d a b)
  | 0x018 => .ok (.sel d a b)
  | 0x019 => resv b (.ok (.clz d a))
  | 0x01A => resv b (.ok (.ctz d a))
  | 0x01B => resv b (.ok (.popc d a))
  | 0x01C => resv b (.ok (.brev d a))
  | 0x01D => resv b (.ok (.bswap d a))
  | 0x01E => resv b (.ok (.sxb d a))
  | 0x01F => resv b (.ok (.sxh d a))
  | 0x020 => resv b (.ok (.sxw d a))
  | 0x021 => resv b (.ok (.zxw d a))
  | _ => .error .sub

/-- Major 0x02. -/
def decMul (fn : Nat) (d a b : Reg) : Except Reject Instr :=
  match fn with
  | 0x000 => .ok (.mul d a b)
  | 0x001 => .ok (.mulh d a b)
  | 0x002 => .ok (.mulhn d a b)
  | 0x003 => .ok (.mulw d a b)
  | 0x004 => .ok (.div d a b)
  | 0x005 => .ok (.divn d a b)
  | 0x006 => .ok (.rem d a b)
  | 0x007 => .ok (.remn d a b)
  | _ => .error .sub

/-- Major 0x1C. -/
def decCtl (fn : Nat) (d a b : Reg) : Except Reject Instr :=
  match fn with
  | 0x000 => resv d (resv b (.ok (.jr a)))
  | 0x001 => resv b (.ok (.jalr d a))
  | 0x002 => resv d (resv a (resv b (.ok (.done))))
  | 0x003 => .ok (.callat d a b)
  | 0x004 => resv d (.ok (.reply a b))
  | _ => .error .sub

/-- Major 0x21. -/
def decOrd (fn : Nat) (d a b : Reg) : Except Reject Instr :=
  match fn with
  | 0x000 => .ok (.oadd d a b)
  | 0x001 => .ok (.ofadd d a b)
  | 0x01E => .ok (.ojoin d a b)
  | _ => .error .sub

/-- Major 0x22. -/
def decLock (fn : Nat) (d a b : Reg) : Except Reject Instr :=
  match fn with
  | 0x000 => .ok (.rdlk d a b)
  | 0x001 => .ok (.wrlk d a b)
  | 0x002 => resv b (.ok (.rdul d a))
  | 0x003 => resv b (.ok (.wrul d a))
  | 0x004 => .ok (.lkinit d a b)
  | _ => .error .sub

/-- Major 0x24. -/
def decSend (fn : Nat) (d a b : Reg) : Except Reject Instr :=
  match fn with
  | 0x000 => .ok (.nsend d a b)
  | 0x001 => resv d (.ok (.amsg a b))
  | 0x002 => .ok (.wopen d a b)
  | 0x003 => .ok (.mhdl d a b)
  | _ => .error .sub

/-- Major 0x25. -/
def decTask (fn : Nat) (d a b : Reg) : Except Reject Instr :=
  match fn with
  | 0x000 => .ok (.tinit d a b)
  | 0x001 => resv d (.ok (.tdec a b))
  | 0x002 => resv d (.ok (.tinc a b))
  | 0x003 => resv b (.ok (.larm d a))
  | 0x004 => .ok (.lpatch d a b)
  | 0x005 => .ok (.lstat d a b)
  | 0x006 => resv b (.ok (.widf d a))
  | 0x007 => resv a (resv b (.ok (.qsync d)))
  | _ => .error .sub

/-- Major 0x26. -/
def decCache (fn : Nat) (d a b : Reg) : Except Reject Instr :=
  match fn with
  | 0x000 => resv d (.ok (.wb a b))
  | 0x001 => resv d (.ok (.inv a b))
  | 0x002 => resv d (.ok (.flush a b))
  | 0x003 => resv d (.ok (.lrenew a b))
  | 0x004 => resv d (.ok (.pfch a b))
  | _ => .error .sub

/-- Major 0x29. -/
def decMat (fn : Nat) (d a b : Reg) : Except Reject Instr :=
  match fn with
  | 0x000 => resv b (.ok (.mlease d a))
  | 0x001 => resv b (.ok (.mrel d a))
  | 0x002 => resv a (resv b (.ok (.mcfg d)))
  | 0x003 => resv b (.ok (.mlda d a))
  | 0x004 => resv b (.ok (.mldb d a))
  | 0x005 => resv b (.ok (.mstep d a))
  | 0x006 => resv b (.ok (.mrot d a))
  | 0x007 => resv b (.ok (.mdrain d a))
  | 0x008 => resv b (.ok (.mzero d a))
  | 0x009 => .ok (.mspm d a b)
  | _ => .error .sub

/-- Major 0x2A. -/
def decStrm (fn : Nat) (d a b : Reg) : Except Reject Instr :=
  match fn with
  | 0x000 => .ok (.cpy d a b)
  | 0x001 => .ok (.cpyt d a b)
  | 0x002 => resv b (.ok (.mcast d a))
  | 0x003 => .ok (.join d a b)
  | 0x004 => resv b (.ok (.leave d a))
  | 0x005 => .ok (.bfree d a b)
  | 0x006 => .ok (.mbox d a b)
  | 0x007 => .ok (.cpst d a b)
  | 0x008 => resv b (.ok (.cabort d a))
  | _ => .error .sub

/-- Major 0x2B. -/
def decTab (fn : Nat) (d a b : Reg) : Except Reject Instr :=
  match fn with
  | 0x000 => .ok (.tdef d a b)
  | 0x001 => .ok (.tget d a b)
  | 0x002 => resv b (.ok (.tdrop d a))
  | 0x003 => resv b (.ok (.dtld d a))
  | 0x004 => resv a (resv b (.ok (.dtchk d)))
  | 0x005 => .ok (.cmld d a b)
  | 0x006 => resv b (.ok (.enc d a))
  | 0x007 => resv b (.ok (.dec d a))
  | _ => .error .sub

/-- Major 0x2C. -/
def decTomb (fn : Nat) (d a b : Reg) : Except Reject Instr :=
  match fn with
  | 0x000 => resv b (.ok (.reseed d a))
  | 0x001 => .ok (.draw d a b)
  | 0x002 => .ok (.xcq d a b)
  | 0x003 => .ok (.ictr d a b)
  | 0x004 => resv b (.ok (.shq d a))
  | _ => .error .sub

/-- Major 0x2D. -/
def decCap (fn : Nat) (d a b : Reg) : Except Reject Instr :=
  match fn with
  | 0x000 => .ok (.cgive d a b)
  | 0x001 => .ok (.cq d a b)
  | 0x002 => .ok (.cgrp d a b)
  | 0x003 => resv b (.ok (.caccept d a))
  | _ => .error .sub

/-- Major 0x2E. -/
def decNode (fn : Nat) (d a b : Reg) : Except Reject Instr :=
  match fn with
  | 0x000 => resv b (.ok (.cnode d a))
  | 0x001 => .ok (.cenr d a b)
  | 0x002 => .ok (.cdrop d a b)
  | 0x003 => .ok (.cmove d a b)
  | 0x004 => resv b (.ok (.csettle d a))
  | 0x005 => .ok (.cread d a b)
  | _ => .error .sub

/-- Major 0x2F. -/
def decLine (fn : Nat) (d a b : Reg) : Except Reject Instr :=
  match fn with
  | 0x000 => .ok (.tlw d a b)
  | 0x001 => resv b (.ok (.tlr d a))
  | 0x002 => .ok (.bbinit d a b)
  | 0x003 => resv d (.ok (.bbexp a b))
  | 0x004 => resv d (.ok (.bbarr a b))
  | 0x005 => resv b (.ok (.bbq d a))
  | _ => .error .sub

/-- Major 0x3A. -/
def decSys (fn : Nat) (d a b : Reg) : Except Reject Instr :=
  match fn with
  | 0x000 => resv d (resv a (resv b (.ok (.trap))))
  | 0x001 => resv d (resv a (resv b (.ok (.brk))))
  | 0x002 => resv d (resv a (resv b (.ok (.tret))))
  | 0x003 => resv d (resv a (resv b (.ok (.idle))))
  | 0x004 => .ok (.fresume d a b)
  | 0x005 => resv d (.ok (.tlbi a b))
  | 0x006 => resv b (.ok (.bankctl d a))
  | 0x007 => .ok (.ctxsave d a b)
  | 0x008 => .ok (.ctxload d a b)
  | _ => .error .sub

/-- Major 0x0E. -/
def decFArith (o f : Nat) (d a b : Reg) : Except Reject Instr :=
  match o with
  | 0x00 => sel (fmtOf f) fun f => .ok (.fadd d a b f)
  | 0x01 => sel (fmtOf f) fun f => .ok (.fsub d a b f)
  | 0x02 => sel (fmtOf f) fun f => .ok (.fmul d a b f)
  | 0x03 => sel (fmtOf f) fun f => .ok (.ffma d a b f)
  | 0x04 => sel (fmtOf f) fun f => .ok (.fdiv d a b f)
  | 0x05 => sel (fmtOf f) fun f => resv b (.ok (.fsqrt d a f))
  | 0x06 => sel (fmtOf f) fun f => .ok (.fmin d a b f)
  | 0x07 => sel (fmtOf f) fun f => .ok (.fmax d a b f)
  | 0x08 => sel (fmtOf f) fun f => .ok (.fsgn d a b f)
  | 0x09 => sel (fmtOf f) fun f => .ok (.fsgnn d a b f)
  | 0x0A => sel (fmtOf f) fun f => .ok (.fsgnx d a b f)
  | _ => .error .sub

/-- Major 0x0F. -/
def decFCmp (o f : Nat) (d a b : Reg) : Except Reject Instr :=
  match o with
  | 0x00 => sel (fmtOf f) fun f => .ok (.feq d a b f)
  | 0x01 => sel (fmtOf f) fun f => .ok (.flt d a b f)
  | 0x02 => sel (fmtOf f) fun f => .ok (.fle d a b f)
  | 0x03 => sel (fmtOf f) fun f => resv b (.ok (.fclass d a f))
  | 0x04 => sel (fmtOf f) fun f => sel (ityOf b.toNat) fun t => .ok (.fcvti d a t f)
  | 0x05 => sel (fmtOf f) fun f => sel (ityOf b.toNat) fun t => .ok (.fcvtf d a t f)
  | 0x06 => sel (fmtOf f) fun f => sel (fmtOf b.toNat) fun s => .ok (.fcvtff d a s f)
  | _ => .error .sub

/-- Major 0x09: the kind is imm 15:8, imm 7:6 is reserved. -/
def decShi (k : Nat) (z : BitVec 2) (s : BitVec 6) (d a : Reg) : Except Reject Instr :=
  pair (decide (k < 4)) (if z = 0 then
    match k with
    | 0 => .ok (.slli d a s)
    | 1 => .ok (.srli d a s)
    | 2 => .ok (.srai d a s)
    | _ => .ok (.roli d a s)
  else .error .reserved)

/-- Major 0x0A: imm 15:13 is reserved, imm 12 the sign flag. -/
def decBfx (z : BitVec 3) (sg : BitVec 1) (p l : BitVec 6) (d a : Reg) : Except Reject Instr :=
  if z = 0 then lim (bfFits p l) (if sg = 0 then .bfx d a p l else .bfxs d a p l) else .error .reserved

/-- Major 0x0B: imm 15:12 is reserved. -/
def decBfi (z : BitVec 4) (p l : BitVec 6) (d a : Reg) : Except Reject Instr :=
  if z = 0 then lim (bfFits p l) (.bfi d a p l) else .error .reserved

/-- Major 0x10: imm 15 chooses, imm 14:10 and 7:2 are reserved; `fev` has no mode 3. -/
def decFev (r : BitVec 1) (z : BitVec 5) (m : BitVec 2) (y : BitVec 6) (t : BitVec 2) (d a : Reg) : Except Reject Instr :=
  pair (r != 0 || m != 3) (if z = 0 ∧ y = 0 then .ok (if r = 0 then .fev d a m t else .fred d a m t)
    else .error .reserved)

/-- Major 0x1D. -/
def decLd (sz o : Nat) (d a : Reg) (i : BitVec 11) : Except Reject Instr :=
  sel (ldOrdOf o) fun o =>
  match sz with
  | 0 => .ok (.ldB d a o i)
  | 1 => .ok (.ldBn d a o i)
  | 2 => .ok (.ldH d a o i)
  | 3 => .ok (.ldHn d a o i)
  | 4 => .ok (.ldW d a o i)
  | 5 => .ok (.ldWn d a o i)
  | 6 => .ok (.ldD d a o i)
  | _ => lim (evenReg d) (.ldQ d a o i)

/-- Major 0x1E; sz 7 is `st.q` (log 12). -/
def decSt (sz o : Nat) (d a : Reg) (i : BitVec 11) : Except Reject Instr :=
  sel (stOrdOf o) fun o =>
  match sz with
  | 0 => .ok (.stB d a o i)
  | 2 => .ok (.stH d a o i)
  | 4 => .ok (.stW d a o i)
  | 6 => .ok (.stD d a o i)
  | 7 => lim (evenReg d) (.stQ d a o i)
  | _ => .error .sub

/-- A no-return form with d other than g0 has a non-zero reserved field (R63). -/
def amoNr (d : Reg) (n : Bool) (i : Instr) : Except Reject Instr := if nrOk d n then .ok i else .error .reserved

/-- Major 0x20 (R63). -/
def decAmo (op : Nat) (t : AmoTy) (n : Bool) (o : AmoOrd) (d a b : Reg) : Except Reject Instr :=
  match op with
  | 0x00 => pair (amoInt t) (amoNr d n (.amoAdd d a b t n o))
  | 0x01 => pair (amoInt t) (amoNr d n (.amoAnd d a b t n o))
  | 0x02 => pair (amoInt t) (amoNr d n (.amoOr d a b t n o))
  | 0x03 => pair (amoInt t) (amoNr d n (.amoXor d a b t n o))
  | 0x04 => pair (amoInt t) (amoNr d n (.amoMin d a b t n o))
  | 0x05 => pair (amoInt t) (amoNr d n (.amoMax d a b t n o))
  | 0x06 => pair (amoSwp t) (amoNr d n (.amoSwap d a b t n o))
  | 0x07 => pair (!n && (t == .i32 || t == .i64)) (.ok (.amoCas d a b t o))
  | 0x08 => pair (!n && t == .i64) (lim (evenReg d && evenReg b) (.amoCasq d a b o))
  | 0x09 => pair (amoFlt t) (amoNr d n (.amoFadd d a b t n o))
  | 0x0A => pair (amoFlt t) (amoNr d n (.amoFmin d a b t n o))
  | 0x0B => pair (amoFlt t) (amoNr d n (.amoFmax d a b t n o))
  | 0x0C => pair (amoInt t) (amoNr d n (.amoMinn d a b t n o))
  | 0x0D => pair (amoInt t) (amoNr d n (.amoMaxn d a b t n o))
  | _ => .error .sub

/-- Major 0x23 (R169). -/
def decH (fn : Nat) (d : Reg) (h : BitVec 4) (c : BitVec 6) : Except Reject Instr :=
  match fn with
  | 0 => lim (decide (c.toNat ≤ 1)) (.hbind d h c)
  | 1 => lim (decide (1 ≤ c.toNat)) (.hwait d h c)
  | 2 => lim (decide (1 ≤ c.toNat)) (.hfree d h c)
  | 3 => lim (decide (1 ≤ c.toNat)) (.hadv d h c)
  | 4 => resv d (if c = 0 then .ok (.hrel h) else .error .reserved)
  | 5 => lim (decide (c.toNat ≤ 7)) (.hlda d h c)
  | 6 => lim (decide (c.toNat ≤ 7)) (.hsta d h c)
  | _ => .error .sub

/-- Major 0x27: kind in fn 10:8, fn 7:3 reserved, scope in fn 2:0 (R64). -/
def decFence (k : Nat) (z : BitVec 5) (s : Nat) (d a b : Reg) : Except Reject Instr :=
  pair (decide (k < 4)) (sel (scopeOf s) fun s => if z = 0 then resv d (resv a (resv b (.ok (match k with
    | 0 => .fenceAll s
    | 1 => .fenceLd s
    | 2 => .fenceSt s
    | _ => .fenceEng s)))) else .error .reserved)

/-- Major 0x28 (R65, R66, R312). -/
def decVec (o : Nat) (t : ElemTy) (d a b : Reg) : Except Reject Instr :=
  match o with
  | 0x00 => pair (vNum t) (.ok (.vadd d a b t))
  | 0x01 => pair (vNum t) (.ok (.vsub d a b t))
  | 0x02 => pair (vNum t) (.ok (.vmul d a b t))
  | 0x03 => pair (vFL t) (.ok (.vfma d a b t))
  | 0x04 => pair (vNum t) (.ok (.vmin d a b t))
  | 0x05 => pair (vNum t) (.ok (.vmax d a b t))
  | 0x06 => pair (vAbs t) (.ok (.vabs d a b t))
  | 0x07 => .ok (.vcvt d a b t)
  | 0x08 => pair (vFL t) (.ok (.vscl d a b t))
  | 0x09 => pair (vNum t) (.ok (.vcmp d a b t))
  | 0x0A => .ok (.vsel d a b t)
  | 0x0B => .ok (.vred d a b t)
  | 0x0C => pair (t == .f32) (.ok (.vfev d a b t))
  | 0x0D => pair (vUns t) (.ok (.vrng d a b t))
  | 0x0E => pair (vNarrow t) (.ok (.vsr d a b t))
  | 0x0F => pair (vFL t) (.ok (.vdrop d a b t))
  | 0x10 => .ok (.vgath d a b t)
  | 0x11 => .ok (.vscat d a b t)
  | 0x12 => pair (vNarrow t) (.ok (.vsparse d a b t))
  | 0x13 => .ok (.vsend d a b t)
  | 0x14 => .ok (.vcopy d a b t)
  | 0x15 => pair (vFL t) (.ok (.vmexp d a b t))
  | 0x16 => pair (vAli t) (.ok (.valign d a b t))
  | 0x17 => pair (vFL t) (.ok (.vnorm d a b t))
  | _ => .error .sub

/-- The number is checked after the reserved field (R68 steps 3 and 5). -/
def sprOk (n : BitVec 16) (i : Instr) : Except Reject Instr := if sprDefined n then .ok i else .error .spr

/-- One word, in the order of R68 steps 1 to 5. -/
def decodeWord (w : BitVec 32) : Except Reject Instr :=
  if w = 0 then .error .major else
  match (fOp w).toNat with
  | 0x01 => decInt (fFn w).toNat (fD w) (fA w) (fB w)
  | 0x02 => decMul (fFn w).toNat (fD w) (fA w) (fB w)
  | 0x03 => .ok (.addi (fD w) (fA w) (fImm w))
  | 0x04 => .ok (.andi (fD w) (fA w) (fImm w))
  | 0x05 => .ok (.ori (fD w) (fA w) (fImm w))
  | 0x06 => .ok (.xori (fD w) (fA w) (fImm w))
  | 0x07 => .ok (.slti (fD w) (fA w) (fImm w))
  | 0x08 => .ok (.sltni (fD w) (fA w) (fImm w))
  | 0x09 => decShi ((fImm w).extractLsb' 8 8).toNat ((fImm w).extractLsb' 6 2) ((fImm w).extractLsb' 0 6) (fD w) (fA w)
  | 0x0A => decBfx ((fImm w).extractLsb' 13 3) ((fImm w).extractLsb' 12 1) ((fImm w).extractLsb' 6 6) ((fImm w).extractLsb' 0 6) (fD w) (fA w)
  | 0x0B => decBfi ((fImm w).extractLsb' 12 4) ((fImm w).extractLsb' 6 6) ((fImm w).extractLsb' 0 6) (fD w) (fA w)
  | 0x0C => .ok (.ldhi (fD w) (fImm21 w))
  | 0x0D => .ok (.adpc (fD w) (fImm21 w))
  | 0x0E => decFArith ((fFn w).extractLsb' 5 6).toNat ((fFn w).extractLsb' 0 5).toNat (fD w) (fA w) (fB w)
  | 0x0F => decFCmp ((fFn w).extractLsb' 5 6).toNat ((fFn w).extractLsb' 0 5).toNat (fD w) (fA w) (fB w)
  | 0x10 => decFev ((fImm w).extractLsb' 15 1) ((fImm w).extractLsb' 10 5) ((fImm w).extractLsb' 8 2) ((fImm w).extractLsb' 2 6) ((fImm w).extractLsb' 0 2) (fD w) (fA w)
  | 0x11 => .ok (.beq (fD w) (fA w) (fImm w))
  | 0x12 => .ok (.bne (fD w) (fA w) (fImm w))
  | 0x13 => .ok (.blt (fD w) (fA w) (fImm w))
  | 0x14 => .ok (.bge (fD w) (fA w) (fImm w))
  | 0x15 => .ok (.bltn (fD w) (fA w) (fImm w))
  | 0x16 => .ok (.bgen (fD w) (fA w) (fImm w))
  | 0x17 => .ok (.bany (fD w) (fA w) (fImm w))
  | 0x18 => .ok (.bnone (fD w) (fA w) (fImm w))
  | 0x19 => resv (fA w) (.ok (.dbnz (fD w) (fImm w)))
  | 0x1A => .ok (.jmp (fDisp26 w))
  | 0x1B => .ok (.jal (fDisp26 w))
  | 0x1C => decCtl (fFn w).toNat (fD w) (fA w) (fB w)
  | 0x1D => decLd ((fImm w).extractLsb' 13 3).toNat ((fImm w).extractLsb' 11 2).toNat (fD w) (fA w) (fFn w)
  | 0x1E => decSt ((fImm w).extractLsb' 13 3).toNat ((fImm w).extractLsb' 11 2).toNat (fD w) (fA w) (fFn w)
  | 0x20 => sel (amoTyOf ((fFn w).extractLsb' 3 3).toNat) fun t => sel (amoOrdOf ((fFn w).extractLsb' 0 2).toNat) fun o =>
      decAmo ((fFn w).extractLsb' 6 5).toNat t ((fFn w).getLsbD 2) o (fD w) (fA w) (fB w)
  | 0x21 => decOrd (fFn w).toNat (fD w) (fA w) (fB w)
  | 0x22 => decLock (fFn w).toNat (fD w) (fA w) (fB w)
  | 0x23 => decH (fFn w).toNat (fD w) (fH w) (fCnt w)
  | 0x24 => decSend (fFn w).toNat (fD w) (fA w) (fB w)
  | 0x25 => decTask (fFn w).toNat (fD w) (fA w) (fB w)
  | 0x26 => decCache (fFn w).toNat (fD w) (fA w) (fB w)
  | 0x27 => decFence ((fFn w).extractLsb' 8 3).toNat ((fFn w).extractLsb' 3 5) ((fFn w).extractLsb' 0 3).toNat (fD w) (fA w) (fB w)
  | 0x28 => sel (elemOf ((fFn w).extractLsb' 0 5).toNat) fun t => decVec ((fFn w).extractLsb' 5 6).toNat t (fD w) (fA w) (fB w)
  | 0x29 => decMat (fFn w).toNat (fD w) (fA w) (fB w)
  | 0x2A => decStrm (fFn w).toNat (fD w) (fA w) (fB w)
  | 0x2B => decTab (fFn w).toNat (fD w) (fA w) (fB w)
  | 0x2C => decTomb (fFn w).toNat (fD w) (fA w) (fB w)
  | 0x2D => decCap (fFn w).toNat (fD w) (fA w) (fB w)
  | 0x2E => decNode (fFn w).toNat (fD w) (fA w) (fB w)
  | 0x2F => decLine (fFn w).toNat (fD w) (fA w) (fB w)
  | 0x38 => resv (fA w) (sprOk (fImm w) (.mfs (fD w) (fImm w)))
  | 0x39 => resv (fD w) (sprOk (fImm w) (.mts (fA w) (fImm w)))
  | 0x3A => decSys (fFn w).toNat (fD w) (fA w) (fB w)
  | _ => .error .major

/-- The word of four bytes, the lowest address holding bits 7:0 (R4). -/
def wordOfBytes (b0 b1 b2 b3 : Byte) : BitVec 32 := b3 ++ b2 ++ b1 ++ b0

/-- The bytes of a word, lowest address first (R4). -/
def bytesOfWord (w : BitVec 32) : List Byte :=
  [w.extractLsb' 0 8, w.extractLsb' 8 8, w.extractLsb' 16 8, w.extractLsb' 24 8]

/-- Decode one instruction from the front of a list of bytes. -/
def decode : List Byte → Except Reject (Instr × List Byte)
  | b0 :: b1 :: b2 :: b3 :: r =>
    match decodeWord (wordOfBytes b0 b1 b2 b3) with
    | .ok i => .ok (i, r)
    | .error e => .error e
  | _ => .error .truncated

/-- The instruction the decoder reads from the bits `w` of a table row (the host's numbering). An event row has no
bits: `nbits` is not 32 there and the answer is none. -/
def decodeTableWord (nbits w : Nat) : Option Instr :=
  if nbits = 32 then
    match decode (bytesOfWord (BitVec.ofNat 32 w)) with
    | .ok (i, _) => some i
    | .error _ => none
  else none

/-! ### The encoder -/

/-- The word of a well-formed instruction; a row without an encoding has none and answers 0. -/
def encode : Instr → BitVec 32
  | .add d a b => encA 0x01 d a b 0x000
  | .sub d a b => encA 0x01 d a b 0x001
  | .and d a b => encA 0x01 d a b 0x002
  | .or d a b => encA 0x01 d a b 0x003
  | .xor d a b => encA 0x01 d a b 0x004
  | .andn d a b => encA 0x01 d a b 0x005
  | .orn d a b => encA 0x01 d a b 0x006
  | .nor d a b => encA 0x01 d a b 0x007
  | .sll d a b => encA 0x01 d a b 0x008
  | .srl d a b => encA 0x01 d a b 0x009
  | .sra d a b => encA 0x01 d a b 0x00A
  | .rol d a b => encA 0x01 d a b 0x00B
  | .ror d a b => encA 0x01 d a b 0x00C
  | .slt d a b => encA 0x01 d a b 0x00D
  | .sltn d a b => encA 0x01 d a b 0x00E
  | .seq d a b => encA 0x01 d a b 0x00F
  | .sne d a b => encA 0x01 d a b 0x010
  | .min d a b => encA 0x01 d a b 0x011
  | .max d a b => encA 0x01 d a b 0x012
  | .minn d a b => encA 0x01 d a b 0x013
  | .maxn d a b => encA 0x01 d a b 0x014
  | .adds1 d a b => encA 0x01 d a b 0x015
  | .adds2 d a b => encA 0x01 d a b 0x016
  | .adds3 d a b => encA 0x01 d a b 0x017
  | .sel d a b => encA 0x01 d a b 0x018
  | .clz d a => encA 0x01 d a 0 0x019
  | .ctz d a => encA 0x01 d a 0 0x01A
  | .popc d a => encA 0x01 d a 0 0x01B
  | .brev d a => encA 0x01 d a 0 0x01C
  | .bswap d a => encA 0x01 d a 0 0x01D
  | .sxb d a => encA 0x01 d a 0 0x01E
  | .sxh d a => encA 0x01 d a 0 0x01F
  | .sxw d a => encA 0x01 d a 0 0x020
  | .zxw d a => encA 0x01 d a 0 0x021
  | .mul d a b => encA 0x02 d a b 0x000
  | .mulh d a b => encA 0x02 d a b 0x001
  | .mulhn d a b => encA 0x02 d a b 0x002
  | .mulw d a b => encA 0x02 d a b 0x003
  | .div d a b => encA 0x02 d a b 0x004
  | .divn d a b => encA 0x02 d a b 0x005
  | .rem d a b => encA 0x02 d a b 0x006
  | .remn d a b => encA 0x02 d a b 0x007
  | .addi d a i => encI 0x03 d a i
  | .andi d a i => encI 0x04 d a i
  | .ori d a i => encI 0x05 d a i
  | .xori d a i => encI 0x06 d a i
  | .slti d a i => encI 0x07 d a i
  | .sltni d a i => encI 0x08 d a i
  | .slli d a s => encI 0x09 d a ((0x0 : BitVec 8) ++ (0 : BitVec 2) ++ s)
  | .srli d a s => encI 0x09 d a ((0x1 : BitVec 8) ++ (0 : BitVec 2) ++ s)
  | .srai d a s => encI 0x09 d a ((0x2 : BitVec 8) ++ (0 : BitVec 2) ++ s)
  | .roli d a s => encI 0x09 d a ((0x3 : BitVec 8) ++ (0 : BitVec 2) ++ s)
  | .bfx d a p l => encI 0x0A d a ((0 : BitVec 3) ++ (0 : BitVec 1) ++ p ++ l)
  | .bfxs d a p l => encI 0x0A d a ((0 : BitVec 3) ++ (1 : BitVec 1) ++ p ++ l)
  | .bfi d a p l => encI 0x0B d a ((0 : BitVec 4) ++ p ++ l)
  | .ldhi d i => encU 0x0C d i
  | .adpc d i => encU 0x0D d i
  | .fadd d a b f => encA 0x0E d a b ((0x00 : BitVec 6) ++ fmtCode f)
  | .fsub d a b f => encA 0x0E d a b ((0x01 : BitVec 6) ++ fmtCode f)
  | .fmul d a b f => encA 0x0E d a b ((0x02 : BitVec 6) ++ fmtCode f)
  | .ffma d a b f => encA 0x0E d a b ((0x03 : BitVec 6) ++ fmtCode f)
  | .fdiv d a b f => encA 0x0E d a b ((0x04 : BitVec 6) ++ fmtCode f)
  | .fsqrt d a f => encA 0x0E d a 0 ((0x05 : BitVec 6) ++ fmtCode f)
  | .fmin d a b f => encA 0x0E d a b ((0x06 : BitVec 6) ++ fmtCode f)
  | .fmax d a b f => encA 0x0E d a b ((0x07 : BitVec 6) ++ fmtCode f)
  | .fsgn d a b f => encA 0x0E d a b ((0x08 : BitVec 6) ++ fmtCode f)
  | .fsgnn d a b f => encA 0x0E d a b ((0x09 : BitVec 6) ++ fmtCode f)
  | .fsgnx d a b f => encA 0x0E d a b ((0x0A : BitVec 6) ++ fmtCode f)
  | .feq d a b f => encA 0x0F d a b ((0x00 : BitVec 6) ++ fmtCode f)
  | .flt d a b f => encA 0x0F d a b ((0x01 : BitVec 6) ++ fmtCode f)
  | .fle d a b f => encA 0x0F d a b ((0x02 : BitVec 6) ++ fmtCode f)
  | .fclass d a f => encA 0x0F d a 0 ((0x03 : BitVec 6) ++ fmtCode f)
  | .fcvti d a t f => encA 0x0F d a (ityCode t) ((0x04 : BitVec 6) ++ fmtCode f)
  | .fcvtf d a t f => encA 0x0F d a (ityCode t) ((0x05 : BitVec 6) ++ fmtCode f)
  | .fcvtff d a s f => encA 0x0F d a (fmtCode s) ((0x06 : BitVec 6) ++ fmtCode f)
  | .fev d a m t => encI 0x10 d a ((0 : BitVec 1) ++ (0 : BitVec 5) ++ m ++ (0 : BitVec 6) ++ t)
  | .fred d a m t => encI 0x10 d a ((1 : BitVec 1) ++ (0 : BitVec 5) ++ m ++ (0 : BitVec 6) ++ t)
  | .beq a b p => encI 0x11 a b p
  | .bne a b p => encI 0x12 a b p
  | .blt a b p => encI 0x13 a b p
  | .bge a b p => encI 0x14 a b p
  | .bltn a b p => encI 0x15 a b p
  | .bgen a b p => encI 0x16 a b p
  | .bany a b p => encI 0x17 a b p
  | .bnone a b p => encI 0x18 a b p
  | .dbnz a p => encI 0x19 a 0 p
  | .jmp p => encJ 0x1A p
  | .jal p => encJ 0x1B p
  | .jr a => encA 0x1C 0 a 0 0x000
  | .jalr d a => encA 0x1C d a 0 0x001
  | .done => encA 0x1C 0 0 0 0x002
  | .callat d a b => encA 0x1C d a b 0x003
  | .reply a b => encA 0x1C 0 a b 0x004
  | .ldB d a o i => encI 0x1D d a ((0x0 : BitVec 3) ++ ldOrdCode o ++ i)
  | .ldBn d a o i => encI 0x1D d a ((0x1 : BitVec 3) ++ ldOrdCode o ++ i)
  | .ldH d a o i => encI 0x1D d a ((0x2 : BitVec 3) ++ ldOrdCode o ++ i)
  | .ldHn d a o i => encI 0x1D d a ((0x3 : BitVec 3) ++ ldOrdCode o ++ i)
  | .ldW d a o i => encI 0x1D d a ((0x4 : BitVec 3) ++ ldOrdCode o ++ i)
  | .ldWn d a o i => encI 0x1D d a ((0x5 : BitVec 3) ++ ldOrdCode o ++ i)
  | .ldD d a o i => encI 0x1D d a ((0x6 : BitVec 3) ++ ldOrdCode o ++ i)
  | .ldQ d a o i => encI 0x1D d a ((7 : BitVec 3) ++ ldOrdCode o ++ i)
  | .stB d a o i => encI 0x1E d a ((0x0 : BitVec 3) ++ stOrdCode o ++ i)
  | .stH d a o i => encI 0x1E d a ((0x2 : BitVec 3) ++ stOrdCode o ++ i)
  | .stW d a o i => encI 0x1E d a ((0x4 : BitVec 3) ++ stOrdCode o ++ i)
  | .stD d a o i => encI 0x1E d a ((0x6 : BitVec 3) ++ stOrdCode o ++ i)
  | .stQ d a o i => encI 0x1E d a ((7 : BitVec 3) ++ stOrdCode o ++ i)
  | .amoAdd d a b t n o => encA 0x20 d a b ((0x00 : BitVec 5) ++ amoTyCode t ++ BitVec.ofBool n ++ amoOrdCode o)
  | .amoAnd d a b t n o => encA 0x20 d a b ((0x01 : BitVec 5) ++ amoTyCode t ++ BitVec.ofBool n ++ amoOrdCode o)
  | .amoOr d a b t n o => encA 0x20 d a b ((0x02 : BitVec 5) ++ amoTyCode t ++ BitVec.ofBool n ++ amoOrdCode o)
  | .amoXor d a b t n o => encA 0x20 d a b ((0x03 : BitVec 5) ++ amoTyCode t ++ BitVec.ofBool n ++ amoOrdCode o)
  | .amoMin d a b t n o => encA 0x20 d a b ((0x04 : BitVec 5) ++ amoTyCode t ++ BitVec.ofBool n ++ amoOrdCode o)
  | .amoMax d a b t n o => encA 0x20 d a b ((0x05 : BitVec 5) ++ amoTyCode t ++ BitVec.ofBool n ++ amoOrdCode o)
  | .amoSwap d a b t n o => encA 0x20 d a b ((0x06 : BitVec 5) ++ amoTyCode t ++ BitVec.ofBool n ++ amoOrdCode o)
  | .amoCas d a b t o => encA 0x20 d a b ((0x07 : BitVec 5) ++ amoTyCode t ++ (0 : BitVec 1) ++ amoOrdCode o)
  | .amoCasq d a b o => encA 0x20 d a b ((0x08 : BitVec 5) ++ (1 : BitVec 3) ++ (0 : BitVec 1) ++ amoOrdCode o)
  | .amoFadd d a b t n o => encA 0x20 d a b ((0x09 : BitVec 5) ++ amoTyCode t ++ BitVec.ofBool n ++ amoOrdCode o)
  | .amoFmin d a b t n o => encA 0x20 d a b ((0x0A : BitVec 5) ++ amoTyCode t ++ BitVec.ofBool n ++ amoOrdCode o)
  | .amoFmax d a b t n o => encA 0x20 d a b ((0x0B : BitVec 5) ++ amoTyCode t ++ BitVec.ofBool n ++ amoOrdCode o)
  | .amoMinn d a b t n o => encA 0x20 d a b ((0x0C : BitVec 5) ++ amoTyCode t ++ BitVec.ofBool n ++ amoOrdCode o)
  | .amoMaxn d a b t n o => encA 0x20 d a b ((0x0D : BitVec 5) ++ amoTyCode t ++ BitVec.ofBool n ++ amoOrdCode o)
  | .oadd d a b => encA 0x21 d a b 0x000
  | .ofadd d a b => encA 0x21 d a b 0x001
  | .ojoin d a b => encA 0x21 d a b 0x01E
  | .rdlk d a b => encA 0x22 d a b 0x000
  | .wrlk d a b => encA 0x22 d a b 0x001
  | .rdul d a => encA 0x22 d a 0 0x002
  | .wrul d a => encA 0x22 d a 0 0x003
  | .lkinit d a b => encA 0x22 d a b 0x004
  | .hbind d h c => encH 0x23 d h c 0x000
  | .hwait d h c => encH 0x23 d h c 0x001
  | .hfree d h c => encH 0x23 d h c 0x002
  | .hadv d h c => encH 0x23 d h c 0x003
  | .hrel h => encH 0x23 0 h 0 0x004
  | .hlda d h c => encH 0x23 d h c 0x005
  | .hsta d h c => encH 0x23 d h c 0x006
  | .nsend d a b => encA 0x24 d a b 0x000
  | .amsg a b => encA 0x24 0 a b 0x001
  | .wopen d a b => encA 0x24 d a b 0x002
  | .mhdl d a b => encA 0x24 d a b 0x003
  | .tinit d a b => encA 0x25 d a b 0x000
  | .tdec a b => encA 0x25 0 a b 0x001
  | .tinc a b => encA 0x25 0 a b 0x002
  | .larm d a => encA 0x25 d a 0 0x003
  | .lpatch d a b => encA 0x25 d a b 0x004
  | .lstat d a b => encA 0x25 d a b 0x005
  | .widf d a => encA 0x25 d a 0 0x006
  | .qsync d => encA 0x25 d 0 0 0x007
  | .wb a b => encA 0x26 0 a b 0x000
  | .inv a b => encA 0x26 0 a b 0x001
  | .flush a b => encA 0x26 0 a b 0x002
  | .lrenew a b => encA 0x26 0 a b 0x003
  | .pfch a b => encA 0x26 0 a b 0x004
  | .fenceAll s => encA 0x27 0 0 0 ((0x0 : BitVec 3) ++ (0 : BitVec 5) ++ scopeCode s)
  | .fenceLd s => encA 0x27 0 0 0 ((0x1 : BitVec 3) ++ (0 : BitVec 5) ++ scopeCode s)
  | .fenceSt s => encA 0x27 0 0 0 ((0x2 : BitVec 3) ++ (0 : BitVec 5) ++ scopeCode s)
  | .fenceEng s => encA 0x27 0 0 0 ((0x3 : BitVec 3) ++ (0 : BitVec 5) ++ scopeCode s)
  | .vadd d a b t => encA 0x28 d a b ((0x00 : BitVec 6) ++ elemCode t)
  | .vsub d a b t => encA 0x28 d a b ((0x01 : BitVec 6) ++ elemCode t)
  | .vmul d a b t => encA 0x28 d a b ((0x02 : BitVec 6) ++ elemCode t)
  | .vfma d a b t => encA 0x28 d a b ((0x03 : BitVec 6) ++ elemCode t)
  | .vmin d a b t => encA 0x28 d a b ((0x04 : BitVec 6) ++ elemCode t)
  | .vmax d a b t => encA 0x28 d a b ((0x05 : BitVec 6) ++ elemCode t)
  | .vabs d a b t => encA 0x28 d a b ((0x06 : BitVec 6) ++ elemCode t)
  | .vcvt d a b t => encA 0x28 d a b ((0x07 : BitVec 6) ++ elemCode t)
  | .vscl d a b t => encA 0x28 d a b ((0x08 : BitVec 6) ++ elemCode t)
  | .vcmp d a b t => encA 0x28 d a b ((0x09 : BitVec 6) ++ elemCode t)
  | .vsel d a b t => encA 0x28 d a b ((0x0A : BitVec 6) ++ elemCode t)
  | .vred d a b t => encA 0x28 d a b ((0x0B : BitVec 6) ++ elemCode t)
  | .vfev d a b t => encA 0x28 d a b ((0x0C : BitVec 6) ++ elemCode t)
  | .vrng d a b t => encA 0x28 d a b ((0x0D : BitVec 6) ++ elemCode t)
  | .vsr d a b t => encA 0x28 d a b ((0x0E : BitVec 6) ++ elemCode t)
  | .vdrop d a b t => encA 0x28 d a b ((0x0F : BitVec 6) ++ elemCode t)
  | .vgath d a b t => encA 0x28 d a b ((0x10 : BitVec 6) ++ elemCode t)
  | .vscat d a b t => encA 0x28 d a b ((0x11 : BitVec 6) ++ elemCode t)
  | .vsparse d a b t => encA 0x28 d a b ((0x12 : BitVec 6) ++ elemCode t)
  | .vsend d a b t => encA 0x28 d a b ((0x13 : BitVec 6) ++ elemCode t)
  | .vcopy d a b t => encA 0x28 d a b ((0x14 : BitVec 6) ++ elemCode t)
  | .vmexp d a b t => encA 0x28 d a b ((0x15 : BitVec 6) ++ elemCode t)
  | .valign d a b t => encA 0x28 d a b ((0x16 : BitVec 6) ++ elemCode t)
  | .vnorm d a b t => encA 0x28 d a b ((0x17 : BitVec 6) ++ elemCode t)
  | .mlease d a => encA 0x29 d a 0 0x000
  | .mrel d a => encA 0x29 d a 0 0x001
  | .mcfg d => encA 0x29 d 0 0 0x002
  | .mlda d a => encA 0x29 d a 0 0x003
  | .mldb d a => encA 0x29 d a 0 0x004
  | .mstep d a => encA 0x29 d a 0 0x005
  | .mrot d a => encA 0x29 d a 0 0x006
  | .mdrain d a => encA 0x29 d a 0 0x007
  | .mzero d a => encA 0x29 d a 0 0x008
  | .mspm d a b => encA 0x29 d a b 0x009
  | .cpy d a b => encA 0x2A d a b 0x000
  | .cpyt d a b => encA 0x2A d a b 0x001
  | .mcast d a => encA 0x2A d a 0 0x002
  | .join d a b => encA 0x2A d a b 0x003
  | .leave d a => encA 0x2A d a 0 0x004
  | .bfree d a b => encA 0x2A d a b 0x005
  | .mbox d a b => encA 0x2A d a b 0x006
  | .cpst d a b => encA 0x2A d a b 0x007
  | .cabort d a => encA 0x2A d a 0 0x008
  | .tdef d a b => encA 0x2B d a b 0x000
  | .tget d a b => encA 0x2B d a b 0x001
  | .tdrop d a => encA 0x2B d a 0 0x002
  | .dtld d a => encA 0x2B d a 0 0x003
  | .dtchk d => encA 0x2B d 0 0 0x004
  | .cmld d a b => encA 0x2B d a b 0x005
  | .enc d a => encA 0x2B d a 0 0x006
  | .dec d a => encA 0x2B d a 0 0x007
  | .reseed d a => encA 0x2C d a 0 0x000
  | .draw d a b => encA 0x2C d a b 0x001
  | .xcq d a b => encA 0x2C d a b 0x002
  | .ictr d a b => encA 0x2C d a b 0x003
  | .shq d a => encA 0x2C d a 0 0x004
  | .cgive d a b => encA 0x2D d a b 0x000
  | .cq d a b => encA 0x2D d a b 0x001
  | .cgrp d a b => encA 0x2D d a b 0x002
  | .caccept d a => encA 0x2D d a 0 0x003
  | .cnode d a => encA 0x2E d a 0 0x000
  | .cenr d a b => encA 0x2E d a b 0x001
  | .cdrop d a b => encA 0x2E d a b 0x002
  | .cmove d a b => encA 0x2E d a b 0x003
  | .csettle d a => encA 0x2E d a 0 0x004
  | .cread d a b => encA 0x2E d a b 0x005
  | .tlw d a b => encA 0x2F d a b 0x000
  | .tlr d a => encA 0x2F d a 0 0x001
  | .bbinit d a b => encA 0x2F d a b 0x002
  | .bbexp a b => encA 0x2F 0 a b 0x003
  | .bbarr a b => encA 0x2F 0 a b 0x004
  | .bbq d a => encA 0x2F d a 0 0x005
  | .mfs d n => encI 0x38 d 0 n
  | .mts a n => encI 0x39 0 a n
  | .trap => encA 0x3A 0 0 0 0x000
  | .brk => encA 0x3A 0 0 0 0x001
  | .tret => encA 0x3A 0 0 0 0x002
  | .idle => encA 0x3A 0 0 0 0x003
  | .fresume d a b => encA 0x3A d a b 0x004
  | .tlbi a b => encA 0x3A 0 a b 0x005
  | .bankctl d a => encA 0x3A d a 0 0x006
  | .ctxsave d a b => encA 0x3A d a b 0x007
  | .ctxload d a b => encA 0x3A d a b 0x008
  | .issueDraw _ => 0
  | .arbitrationSlot _ _ => 0
  | .vectorBeat _ => 0
  | .leaseArbitration _ => 0
  | .groupCommandStart _ => 0
  | .leaseIdleTimeout _ => 0
  | .settle _ _ => 0
  | .coalesce _ _ => 0
  | .messageDepart _ _ => 0
  | .serveWeak _ _ => 0
  | .serveAtHome _ => 0
  | .fill _ _ _ _ => 0
  | .sectorFill _ _ => 0
  | .probe _ _ => 0
  | .leaseExpiry _ _ => 0
  | .atomicStep _ => 0
  | .resultReturn _ _ _ => 0
  | .refusalReturn _ => 0
  | .parkRelease _ _ => 0
  | .fetchRefill _ _ => 0
  | .tableReplace _ _ => 0
  | .keyStoreStep _ => 0
  | .sweepMove _ _ _ _ => 0
  | .sweepEnd _ => 0
  | .fusedL1Transition _ _ => 0
  | .publish _ => 0
  | .bisnpArrival _ _ _ => 0
  | .apply _ => 0
  | .linkWriteAck _ => 0
  | .startRequestArrival _ => 0
  | .activationPlace _ _ => 0
  | .inboundQueueRelease _ _ => 0
  | .windowOpenArrival _ => 0
  | .windowOpenReply _ => 0
  | .slotArrival _ => 0
  | .creditArrival _ => 0
  | .windowCloseArrival _ => 0
  | .tinitStep _ => 0
  | .tdecArrival _ => 0
  | .tincArrival _ => 0
  | .launchStartRequest _ _ => 0
  | .endNoticeSend _ => 0
  | .endNoticeArrival _ => 0
  | .bbinitStep _ => 0
  | .barrierUpdate _ => 0
  | .quantumEnd _ _ => 0
  | .orderedArrival _ => 0
  | .orderedResend _ => 0
  | .watchArrival _ => 0
  | .lockStep _ => 0
  | .capabilityStep _ => 0
  | .copyChunk _ => 0
  | .copyDone _ => 0
  | .engineCommandDone _ _ _ => 0
  | .joinArrival _ => 0
  | .leaveArrival _ => 0
  | .tileArrival _ => 0
  | .freeArrival _ => 0
  | .pageWalk _ => 0
  | .resumeArrival _ => 0
  | .poolPortLoss _ => 0
  | .rollupStep _ _ => 0
  | .caravan _ _ => 0
  | .thermalEmergency _ => 0
  | .railLevelChange _ _ => 0
  | .slowdownNoticeSend => 0
  | .slowdownNoticeReceive _ _ => 0
  | .slowdownHoldExpiry => 0
  | .zasolLinkLost _ => 0
  | .peerAccessArrival _ _ _ _ => 0
  | .hostMemoryAccess _ _ _ => 0
  | .notify _ _ _ => 0
  | .notifyStampPoll _ => 0
  | .notifyTimeout _ => 0
  | .staticEnergy => 0
  | .perstRelease => 0
  | .firmwareImageWrite _ => 0
  | .codeObjectLoad _ _ _ _ => 0
  | .gateWrite _ _ => 0
  | .bankmapWrite _ _ => 0
  | .bankmapSelect _ _ => 0
  | .ctdatWrite _ _ => 0
  | .wayQuota _ _ _ => 0
  | .interfaceWeight _ _ _ => 0
  | .ownerWeight _ _ _ => 0
  | .peerWindowBase _ _ => 0
  | .ownerCreate _ _ => 0
  | .ownerDestroy _ => 0
  | .ownerKey _ _ => 0
  | .bucket _ _ => 0
  | .nodeQuota _ _ => 0
  | .shadowTableRoot _ _ => 0
  | .faultDescriptor _ _ => 0
  | .quantum _ _ => 0
  | .partition _ _ _ => 0
  | .recordBuild _ _ _ => 0
  | .recordFree _ _ => 0
  | .sharingKey _ _ => 0
  | .regionWrite _ _ => 0
  | .regionMarkLost _ => 0
  | .nodeStoreBase _ => 0
  | .absentProbeClear _ _ => 0
  | .slowDownLinkMask _ => 0
  | .ectrClear _ _ => 0
  | .memoryEccError _ _ => 0
  | .poolExclusiveGrant _ => 0
  | .poolLinkRecovery _ => 0
  | .thermalEmergencyEnd _ => 0
  | .hotCoreCooling _ => 0
  | .zasolFlitRetry _ => 0

/-- The four bytes of an instruction word. -/
def encodeBytes (i : Instr) : List Byte := bytesOfWord (encode i)

end Sys2Proof
end

