-- ==== Sys2Proof/Machine/State.lean ====
section
/-! DEFINITION. The state of the module as plain data: every piece of state the manual names (INVENTORY.md, State),
and the model's own fields (the schedule, identifiers, the free-value counter). Counts, ids and indices are Nat, what
software sees as a word is a bit vector. Maps are lists of key and value in rising key order. -/

namespace Sys2Proof.Machine

open Sys2Proof

/-- A finite map from numbers, kept in rising key order; an absent key stands for the default of its use. -/
abbrev NMap (α : Type) := List (Nat × α)

/-! ### Ordering: writes, tags, queue entries, reads (R73-R99) -/

/-- A tag: a set of writes with a scope (R85); `core` is the writer's logical core, which scope is judged by. -/
structure Tag where
  writes : List Nat
  scope  : Scope
  core   : Nat
deriving DecidableEq, Repr

/-- Who made a write: a context, the hardware's own tables, the host, or another party outside the module. -/
inductive Writer where
  | ctx (key : Nat)
  | hardware
  | host
  | outside
deriving DecidableEq, Repr

/-- A write group of the reference machine (R75, R77): its bytes by location, the writes that precede it (R78), its
tag, and what a refusal or a loss reports about it (R98, R281). -/
structure WRec where
  writer : Writer
  frame  : Nat
  act    : Nat
  bytes  : List (Nat × Byte)
  known  : List Nat
  tag    : Option Tag
  pc     : Word
  va     : Word
  pool   : Bool
  /-- Its place in the context's issue order (R98): its own id, for an engine write the command's. -/
  seq    : Nat
deriving DecidableEq, Repr

/-- Class and lineage of an activation (R180): early or not, and the launch record (interface, index). -/
structure Lin where
  early : Bool
  launch : Option (Nat × Nat)
deriving DecidableEq, Repr

/-- A start request (R136, R179, R184): what an activation receives. -/
structure Start where
  owner  : Nat
  entry  : Nat
  regs   : List (Nat × Word)
  lin    : Lin
  tag    : List Nat
  wid    : Word
  wfmt   : Word
  launch : Option (Nat × Nat)
  /-- For a data arrival: header offset, slot count, sparse mode (R177, R339). -/
  slot   : Option (Nat × Nat × Bool)
deriving DecidableEq, Repr

/-- Where an access goes: a physical address, or a local offset of the issuing owner on a logical core (R152). -/
inductive Tgt where
  | pa (a : Nat)
  | loc (core off : Nat)
deriving DecidableEq, Repr

/-- What a message carries (R91, R172-R178, R187, R194, R199, R297-R300, R371). Offsets are the owner's local offsets
on the target core. -/
inductive Body where
  | start (st : Start)
  | tdec (off amt : Nat)
  | tinc (off amt : Nat)
  /-- `sub` is true for an arrival or a copy's subtraction: arrivals and bytes (R199, R200). -/
  | barrier (off : Nat) (sub : Bool) (arr bytes : Nat)
  /-- A slot; `bad` lists its poisoned 8-byte units. -/
  | slot (hdr : Nat) (data : List Byte) (len : Nat) (lin : Lin) (bad : List Nat)
  | wopen (hdr req frame act id : Nat)
  /-- The reply: frame, activation, owed result, target header, and window, grant, HEAD, TAIL; none for a refusal (R172). -/
  | wreply (frame act id hdr : Nat) (ans : Option (Nat × Nat × Nat × Nat))
  | credit (hdr tail frame win : Nat)
  | close (hdr frame win : Nat)
  | endNotice (iface index arm : Nat)
  /-- A join: group tag, landing id, slots, barrier; `id` is the owed result and names the subscription (R297). -/
  | join (tag16 landing slots : Nat) (bar : Option Nat) (id : Nat)
  | leave (tag16 id : Nat)
  /-- Tile `k` of a group: source core, tag, subscription, source record, data, poisoned bytes, command (R298). -/
  | tile (src tag16 sub k : Nat) (t : List Word) (data : List Byte) (bad : List Nat) (cmd : Nat)
  /-- Frees of a subscription: a count of its oldest tiles, or one tile (R298, R299). -/
  | free (tag16 id count : Nat) (tile : Option Nat)
  /-- The combined free of a tile of a group by some subscribers, at the router of a ring, or past the source's, `Config.rings`
  (R299). -/
  | freed (tag16 tile : Nat) (froms : List (Nat × Nat)) (ring : Nat)
  | resume (frame seq fres : Nat)
deriving DecidableEq, Repr

/-- What a store-queue entry holds (R76). `treat` is the page's treatment, plus 4 for a single-writer page (R276). -/
inductive QBody where
  | write (wid : Nat) (tgt : Tgt) (len treat : Nat)
  | msg (core owner : Nat) (body : Body)
  /-- A streamer command's request, by command, on its way to its streamer (R283, R292). -/
  | request (cmd : Nat)
  | marker
deriving DecidableEq, Repr

/-- A store-queue entry (R76, R84): its segment's bank, and what must be gone before it may leave. -/
structure QEntry where
  id      : Nat
  frame   : Nat
  act     : Nat
  bank    : Nat
  body    : QBody
  /-- The sharing key that places the line of its page, none for the owner's K (R238). -/
  share   : Option Nat
  weak    : Bool
  /-- A release store or a message: nothing is coalesced across it (R82, R91). -/
  rel     : Bool
  /-- It waits in an inbound queue for a bank of its owner (R158). -/
  held    : Bool
  lin     : Lin
  /-- Entries that must have settled first (release condition, R84). -/
  after   : List Nat
  /-- Reads that must have been served first (R84). -/
  reads   : List Nat
  /-- Writes that must have been published (R346) or acknowledged (R230) first. -/
  pub     : List Nat
  acked   : List Nat
  tag     : List Nat
  /-- Its write joins no point until it is written back from an L1 (R221, R251). -/
  quiet   : Bool := false
  /-- The copy that held it was poisoned (R256). -/
  bad     : Bool := false
deriving DecidableEq, Repr

/-- A read issued and not yet served (R82): `mode` 0 weak, 1 strong, 2 acquire. -/
structure Read where
  id     : Nat
  ctx    : Nat
  frame  : Nat
  act    : Nat
  tgt    : Tgt
  len    : Nat
  /-- Sign-extends (R161). -/
  sx     : Bool
  treat  : Nat
  /-- The sharing key that places the line of its page, none for the owner's K (R238). -/
  share  : Option Nat
  mode   : Nat
  /-- It holds an L1 miss of its context (R234). -/
  miss   : Bool
  after  : List Nat
  /-- Back-invalidations that must be applied first (pool-scope acquire, R97). -/
  inval  : List Nat
  va     : Word
  pc     : Word
  /-- The owed result it supplies. -/
  owed   : Nat
  /-- Parked on a fault, or held for a bank or in the inbound queue. -/
  parked : Bool
  /-- The read of the other half of its `ld.q`, 0 for none (R72, R162). -/
  pair   : Nat := 0
deriving DecidableEq, Repr

/-- A message in flight (R91, R174). -/
structure Msg where
  id    : Nat
  ctx   : Nat
  frame : Nat
  act   : Nat
  core  : Nat
  owner : Nat
  body  : Body
  tag   : List Nat
deriving DecidableEq, Repr

/-- What waits in a ring's inbound queue (R158, R178). -/
inductive Held where
  | msg (m : Msg)
  | read (id : Nat)
  | write (ctx entry : Nat)
  | req (id : Nat)
deriving DecidableEq, Repr

/-- A request performed by one event at a unit, a bank or a store (R223, R263, R271, R272, R274, R278, R187, R200). -/
inductive ReqKind where
  /-- `op` is the operation code of R63; operand and expected value as numbers (R266). -/
  | amo (op : Nat) (ty : AmoTy) (ret acq : Bool) (tgt : Tgt) (opnd expect : Nat)
  | draw (tgt : Tgt) (inst : Nat)
  /-- Lock operation 0 to 4 (R274); the record is (core, offset), none for a try. -/
  | lock (op : Nat) (pa : Nat) (task : Option (Nat × Nat)) (bit : Bool)
  /-- Ordered add; `state` 0 on its way, 1 refused and waiting since `since`, 2 on its way again (R271). -/
  | ordered (float : Bool) (seq pa : Nat) (val : Word) (state since : Nat)
  /-- The application of the window entry at NEXT of a reduction group: ring and group (R262, R271). -/
  | apply (ring gid : Nat)
  | watch (seq pa : Nat) (task : Nat × Nat)
  /-- Capability operation 0 `cgive`, 1 `cq`, 2 `cgrp`, 3 `caccept` (R278). -/
  | cap (op pa : Nat) (b : Word)
  | tinit (off amt : Nat)
  | bbinit (off : Nat) (task : Option (Nat × Nat))
  /-- A reseed, or a write of KEY by `mts` (R223, R150). -/
  | key (owner : Nat) (k : Word) (reseed : Bool)
  /-- A load of a decode image (`dec`) or of coefficient image `img` into table `num` (R102). -/
  | table (dec : Bool) (img num : Nat) (cmds : List Nat)
deriving DecidableEq, Repr

/-- A request issued and not yet performed (R263). -/
structure Req where
  id    : Nat
  ctx   : Nat
  frame : Nat
  act   : Nat
  kind  : ReqKind
  /-- The page's treatment, plus 4 on a single-writer page; 2 for local memory. -/
  treat : Nat
  /-- The sharing key that places the line of its page, none for the owner's K (R238). -/
  share : Option Nat
  lin   : Lin
  after : List Nat
  reads : List Nat
  pub   : List Nat
  inval : List Nat
  tag   : List Nat
  /-- It is a release (R84). -/
  rel   : Bool
  va    : Word
  pc    : Word
  /-- Parked on a fault or held for a bank (R158, R264). -/
  parked : Bool
deriving DecidableEq, Repr

/-! ### Frames (R50, R52, R126, R127, R164, R170-R172, R285, R370) -/

/-- A condition a parked frame waits for (R127); each names what the parking instruction's block names. -/
inductive Cond where
  /-- The bank's store-queue segment has room (R76). -/
  | segment (bank : Nat)
  /-- The context's atomic queue has room (R263). -/
  | atomics
  /-- Queue entries have settled, and reads are served or requests performed (R84, R88). -/
  | settled (entries reads : List Nat)
  /-- Writes are published (R97), for a fence or not; or acknowledged (R230). -/
  | published (ids : List Nat) (fence : Bool)
  | acked (ids : List Nat)
  /-- Back-invalidations are applied (R97). -/
  | applied (ids : List Nat)
  /-- Engine commands of the context, as 4 × number + class, are done (R88, R95, R102). -/
  | cmdsDone (keys : List Nat)
  /-- Fewer than `n` commands of the class are not done (R283, R303, R322). -/
  | cmdRoom (cls n : Nat)
  /-- The counter of the class has reached `v` (R301). -/
  | timeline (cls v : Nat)
  /-- The owed result `id` has been written. -/
  | answer (id : Nat)
  /-- HEAD − C ≥ n, or N − (P − TAIL) ≥ n, of a header (R170). -/
  | full (hdr cursor n : Nat)
  | room (hdr cursor n : Nat)
  /-- No unfinished vector command holds the handle or the window (R309, R319). -/
  | handle (h : Nat)
  | window (w : Nat)
  /-- SENT − ACK < WIN (R173). -/
  | credit (w : Nat)
  /-- The walk of the page is over (R374). -/
  | walk (id : Nat)
  /-- Parked by a recoverable fault: sequence number, address, cause, and the read to issue again (R364, R370). -/
  | fault (seq : Nat) (addr : Word) (cause : Nat) (read : Option Nat)
  /-- The mailbox or arrival count has passed `v` (R299). -/
  | mailbox (src tag16 v : Nat)
  /-- The lease request is granted, refused or broken (R331). -/
  | lease
  /-- Bumps are rolled up at the node (R361). -/
  | bumps (node : Nat) (ids : List Nat)
  /-- Resumes have reached their cores (R371). -/
  | resumes (id : Nat)
  /-- Users of dropped translations are finished (R375). -/
  | users (ids : List Nat)
  /-- The quantum counter of the record has passed `n`; the owed result `id` then takes the count (R204). -/
  | quantum (iface index n id : Nat)
  /-- The context is drained (R378). -/
  | drained (owner : Nat)
  /-- A wake event has reached the core since the frame parked (R381). -/
  | wake (since : Nat)
deriving DecidableEq, Repr

/-- Free, active (Waiting or Ready, by its word and its owed results), or Parked (R127). -/
inductive FSt where
  | free
  | active
  | parked (conds : List Cond)
deriving DecidableEq, Repr

/-- A circular-buffer handle (R170): header offset, producer or consumer, cursor. -/
structure Handle where
  hdr      : Nat
  producer : Bool
  cursor   : Nat
deriving DecidableEq, Repr

/-- A send window (R172). -/
structure Window where
  core : Nat
  hdr  : Nat
  win  : Nat
  sent : Nat
  ack  : Nat
  /-- The frame number that the target's header holds: the frame may have been saved and restored in other banks (R172, R377). -/
  frame : Nat
deriving DecidableEq, Repr

/-- A result owed to a register (R133): none while it is not there. `learn` is what a status word makes known when the
register is first read (R96). -/
structure Owed where
  id    : Nat
  reg   : Nat
  val   : Option Word
  learn : Option (List Nat)
deriving DecidableEq, Repr

/-- A translation of a page (R372-R374). -/
structure Xlat where
  owner : Nat
  page  : Nat
  size  : Nat
  pa    : Nat
  rd    : Bool
  wr    : Bool
  treat : Nat
  shr   : Bool
  swr   : Bool
  kidx  : Nat
deriving DecidableEq, Repr

/-- One frame with the activation it holds (R126). -/
structure Frame where
  st      : FSt := .free
  /-- Serial number of the activation. -/
  act     : Nat := 0
  owner   : Nat := 0
  regs    : Vector Word 32 := Vector.replicate 32 0
  pc      : Word := 0
  handles : NMap Handle := []
  windows : NMap Window := []
  owed    : List Owed := []
  /-- Values a later read of a register makes known (R96). -/
  learn   : List (Nat × List Nat) := []
  /-- The fetch buffer: local offset and word (R164). -/
  fbuf    : List (Nat × BitVec 32) := []
  /-- The clk it became Ready, or took its last slot (R128). -/
  since   : Nat := 0
  /-- Clks of that age that its bank spent gated, which R132 does not count. -/
  gatedFor : Nat := 0
  /-- Clks it was Ready and not gated before `since`, since its last slot (R132). -/
  readyFor : Nat := 0
  wid     : Word := 0
  wfmt    : Word := 0
  rmode   : Nat := 0
  fflags  : Nat := 0
  reply   : Nat := 0
  lin     : Lin := { early := false, launch := none }
  launch  : Option (Nat × Nat × Nat) := none
  slot    : Option (Nat × Nat × Bool) := none
  /-- LASTN of the classes vector, carousel, streamer (R285). -/
  lastn   : NMap Nat := []
  /-- Writes its loads returned, for `fence` (R86). -/
  seen    : List Nat := []
  /-- The tag its later writes carry (R85). -/
  fence   : Option Tag := none
  /-- The parked instruction's wait at issue has been met (model's own). -/
  granted : Bool := false
  /-- Translations of the parked instruction's walks, and walks that ended in XLAT or PROT as (page, cause) (R374). -/
  walked  : List Xlat := []
  wfault  : List (Nat × Nat) := []
  /-- Numbers issued per class as the fence that waits issued: vector, carousel, streamer (R88). -/
  fenceAt : List Nat := []
  /-- Commands it has issued, as 4 × number + class, for `fence.eng` (R88). -/
  cmds    : List Nat := []
  /-- It has issued a vector command (R378). -/
  vec     : Bool := false
  /-- A park retires at its release (R135). -/
  retDue  : Bool := false
  /-- The word that issued last, and whether it executes again after a park (R127, R133). -/
  word    : BitVec 32 := 0
  again   : Bool := false
  /-- Cause of the lease's end as `mlease` reports it, with the index (R331). -/
  lease   : Option (Nat × Nat) := none
deriving DecidableEq, Repr

/-! ### Contexts (R74, R93, R100, R166-R168, R179, R188, R198, R263, R286, R296) -/

/-- Live state of a circular-buffer header (R166, R167). -/
structure Header where
  base   : Nat
  log2n  : Nat
  hoff   : Nat
  hv     : Bool
  pcore  : Nat
  pframe : Nat
  pwin   : Nat
  pv     : Bool
  win    : Nat
  head   : Nat
  tail   : Nat
  cb     : Bool
  pb     : Bool
  sparse : Bool
  /-- Consumed slots at or after TAIL (R177). -/
  eaten  : List Nat
  /-- Tags of the published slots (R92). -/
  tags   : List (Nat × List Nat)
deriving DecidableEq, Repr

/-- A tensor record, as its eight words (R287). -/
structure Tensor where
  words : List Word
deriving DecidableEq, Repr

/-- An entry of the match table (R296). -/
inductive MatchEntry where
  /-- Source: tag, SENT, MAILBOX, subscribers as (core, subscription), tiles not yet freed with the cores still to free
  them and the tags gathered, and the tags of the freed ones. -/
  | source (bank tag16 sent mailbox : Nat) (subs : List (Nat × Nat)) (open_ : List (Nat × List Nat × List Nat)) (boxTag : List Nat)
  /-- Receiver: source core, tag, subscription, landing id, S, barrier, ARRIVED, FREED, DROPPED. -/
  | receiver (bank src tag16 id landing slots : Nat) (bar : Option Nat) (arrived freed dropped : Nat)
deriving DecidableEq, Repr

/-- A coefficient table (R113). -/
structure Coef where
  s      : Nat := 0
  p      : BitVec 32 := 0
  pinv   : BitVec 32 := 0
  breaks : List (BitVec 32) := []
  coefs  : List (List (BitVec 32)) := []
deriving DecidableEq, Repr

/-- An engine context (R93): numbers issued, the counter, and done numbers above it. -/
structure Eng where
  issued  : Nat := 0
  counter : Nat := 0
  done    : List Nat := []
  /-- Knowledge that the commands up to the counter bring (R96), by number. -/
  learn   : List (Nat × List Nat) := []
deriving DecidableEq, Repr

/-- One owner on one logical core (R74). -/
structure Ctx where
  queue    : List QEntry := []
  known    : List Nat := []
  vec      : Eng := {}
  car      : Eng := {}
  str      : Eng := {}
  callSeq  : Nat := 0
  lseed    : Word := 0
  qret     : Nat := 0
  tensors  : NMap Tensor := []
  /-- Decode entries by code, absent +0 (R100). -/
  dec      : NMap (BitVec 19) := []
  coef     : NMap Coef := []
  /-- The code object that the core holds for the owner (R38). -/
  code     : Option CodeObject := none
  /-- The loader's read-only area of images (R101): how many decode images, the words of each coefficient image, and the
  base of the area. -/
  decImg   : Nat := 0
  coefImg  : List Nat := []
  imgBase  : Nat := 0
  region   : Nat := 0
  /-- Barrier table: bank, barrier offset, record (core, offset), tag of the updates (R198, R199). -/
  barriers : List (Nat × Nat × (Nat × Nat) × List Nat) := []
  headers  : NMap Header := []
  /-- Tags gathered by task records since their `tinit`, by offset (R92, R184). -/
  recTags  : NMap (List Nat) := []
  /-- Entries of the run queue, each with the bank whose segment holds it (R179). -/
  runq     : List (Nat × Start) := []
  matchTab : List MatchEntry := []
  /-- The 64-bit lane words of the generators (R316). -/
  lanes    : NMap Word := []
  horizon  : Nat := 0
deriving DecidableEq, Repr

/-! ### Cores (R56, R126, R131, R232, R365, R367, R374) -/

/-- One line of an L1 (R232, R248): each byte's write, 0 for the initial one; an absent byte is not held. -/
structure L1Line where
  owner  : Nat
  pa     : Nat
  treat  : Nat
  way    : Nat
  mesi   : Nat
  expiry : Nat
  filled : Nat
  used   : Nat
  vals   : NMap Nat
  dirty  : List Nat
  poison : Bool
deriving DecidableEq, Repr

/-- BANKMAP of one bank (R367). -/
structure Bank where
  owner : Nat := 0
  valid : Bool := false
  clean : Bool := true
deriving DecidableEq, Repr

/-- One logical core. -/
structure CoreSt where
  frames   : NMap Frame := []
  banks    : NMap Bank := []
  sup      : Bool := false
  supFrame : Nat := 0
  /-- Ids from here on are of accesses that the handler issued (R366). -/
  supFrom  : Nat := 0
  hregs    : Vector Word 32 := Vector.replicate 32 0
  hpc      : Word := 0
  evec     : Nat := 0
  epc      : Word := 0
  ecause   : Word := 0
  eaddr    : Word := 0
  wref     : Bool := false
  bsel     : Nat := 0
  gate     : BitVec 8 := 0
  /-- The clk each bank's gate bit was set (R132). -/
  gatedAt  : NMap Nat := []
  ctsel    : Nat := 0
  tlb      : List Xlat := []
  l1       : List L1Line := []
  /-- Owner the issue draw of the clk assigned, none where unassigned (R303). -/
  assigned : Option Nat := none
  /-- A hot core without a caravan target (R395). -/
  hot      : Bool := false
  /-- Wake events that have reached the core (R381). -/
  wakes    : Nat := 0
  /-- One past the clk of the last issue slot taken (model's own). -/
  lastSlot : Nat := 0
  /-- Slots of the vector rail that its issue stream has passed (model's own, R207). -/
  seen     : Nat := 0
  /-- Corrected errors counted (R160, R256). -/
  eccCount : Nat := 0
deriving DecidableEq, Repr

/-! ### Rings (R229-R256, R270-R279, R322-R335, R352, R374) -/

/-- One way of a home slice (R237): each present sector with its dirty bit and its directory state (0 I, 1 S, 2 E,
3 M). A sector's poison bit travels with its data and stands in the state's `poison` (R256). -/
structure Way where
  line    : Nat
  holder  : Nat
  shared  : Bool
  ebit    : Bool
  sectors : List (Nat × Bool × Nat)
  /-- Exact sharers, at most 4 of a sector: sector, core, owner (R249). -/
  exact   : List (Nat × Nat × Nat)
  /-- Sectors with a coarse record: sector, ring groups, owner, none for ANY (R249). -/
  coarse  : List (Nat × List Nat × Option Nat)
deriving DecidableEq, Repr

/-- Who holds a single-writer region (R277). -/
inductive Holder where
  | unheld
  | context (owner core : Nat)
  | group (id : Nat)
deriving DecidableEq, Repr

/-- An ordered-atomic entry placed in a window (R271). -/
structure OEntry where
  wid   : Nat
  seq   : Nat
  pa    : Nat
  float : Bool
  val   : Word
  tag   : List Nat
  ctx   : Nat
  frame : Nat
  act   : Nat
  lin   : Lin
  treat : Nat
  share : Option Nat
deriving DecidableEq, Repr

/-- A reduction group (R270). -/
structure Group where
  owner   : Nat
  first   : Nat
  count   : Nat
  next    : Nat
  window  : NMap OEntry
  /-- Watches: target, owner, record (core, offset), tag (R272). -/
  watches : List (Nat × Nat × (Nat × Nat) × List Nat)
  stale   : Nat
deriving DecidableEq, Repr

/-- Capability state of one 64 KiB block (R276, R277): holder and drops. -/
structure CapSt where
  holder : Holder := .unheld
  drops  : Nat := 0
deriving DecidableEq, Repr

/-- A queued lock request (R273). -/
structure Waiter where
  pa     : Nat
  writer : Bool
  owner  : Nat
  record : Nat × Nat
  ctx    : Nat
deriving DecidableEq, Repr

/-- An exact binary value: NaN, an infinity, or a signed m × 2^e (R116). -/
inductive FVal where
  | nan (signalling : Bool)
  | inf (neg : Bool)
  | fin (neg : Bool) (m : Nat) (e : Int)
deriving DecidableEq, Repr

/-- A latch: chunk index, extents, elements in linear order, poisoned elements (R333). -/
structure Latch where
  j    : Nat
  d0   : Nat
  d1   : Nat
  vals : List FVal
  bad  : List Nat
deriving DecidableEq, Repr

/-- One member of a lease (R322): its panel, accumulators (absent +0) and latch. -/
structure Member where
  core  : Nat
  frame : Nat
  act   : Nat
  issued : Nat
  panel : Option Tensor
  /-- The panel's scale record (R108). -/
  pscale : Option Tensor
  mr    : Nat
  acc   : NMap (BitVec 32)
  bad   : List Nat
  latch : Option Latch
deriving DecidableEq, Repr

/-- A lease request or a held lease (R322-R325, R331). -/
structure Lease where
  owner   : Nat
  first   : Nat
  size    : Nat
  run     : Nat
  members : List Member
  /-- Id that orders requests; the next group command; the clk of the last start (R325). -/
  id      : Nat
  next    : Nat
  last    : Nat
  /-- 0 before it first stood oldest, then one more than the arbitrations waited since (R322). -/
  waits   : Nat
  /-- The group command started last (R325). -/
  newest  : Nat := 0
deriving DecidableEq, Repr

/-- A bit of the subscription bitmap of a router output: its group, the output's direction, and the subscribers it is set for, as
core and subscription (R297, R300). -/
structure Branch where
  owner : Nat
  src   : Nat
  tag16 : Nat
  dir   : Nat
  users : List (Nat × Nat)
deriving DecidableEq, Repr

/-- One ring. -/
structure RingSt where
  part    : Option Nat := none
  absent  : Nat := 0
  ways    : NMap Way := []
  groups  : NMap Group := []
  caps    : NMap CapSt := []
  waiters : List Waiter := []
  pending : List Lease := []
  lease   : Option Lease := none
  /-- The clk from which the array has been free (R325). -/
  freeFrom : Nat := 0
  /-- Slots of the matrix rail before that clk (model's own, R207, R213). -/
  freeSeen : Nat := 0
  tlb     : List Xlat := []
  /-- Tile entries: tile number to node and TCOUNT (R352). -/
  tiles   : NMap (Nat × Nat) := []
  /-- Owners in the fused L1 state with their F (R235). -/
  fused   : NMap (BitVec 32) := []
  /-- Owners whose last launch with FUSE there has ended since they entered that state: a passage is due (R235). -/
  leaving : List Nat := []
  /-- Owners of which a launch with FUSE has come there while they are out of that state: a passage is due (R235). -/
  entering : List Nat := []
  /-- What the holders of a lock word knew as they unlocked it, by address (R275). -/
  lockTags : NMap (List Nat) := []
  /-- The subscription bitmaps of the ring's router outputs (R297). -/
  branches : List Branch := []
  inbound : List (Nat × Held) := []
  eccCount : Nat := 0
deriving DecidableEq, Repr

/-! ### Owners, interfaces, launch records, arbitration (R19-R22, R190, R206-R221, R382-R389) -/

/-- A draw stream: counter N and epoch E (R206). -/
structure Stream where
  n : Nat := 0
  e : Nat := 0
deriving DecidableEq, Repr

/-- One owner (R19-R22, R54, R208, R215, R221, R350, R368, R383). -/
structure Owner where
  live     : Bool := false
  iface    : Nat := 0
  key      : Word := 0
  ebit     : Bool := false
  sweep    : Bool := false
  /-- The clk by which the sweep has ended (R247). -/
  sweepBy  : Nat := 0
  oldKey   : Word := 0
  lease    : Nat := 0
  /-- The last write of LEASE: one past its clk, the writing core, and the value before, which other cores see until then (R150). -/
  leaseSet : Nat × Nat × Nat := (0, 0, 0)
  ectr     : Nat := 0
  ectrSat  : Bool := false
  weights  : NMap Nat := []
  quotas   : NMap Nat := []
  rate     : Nat := 256
  depth    : Nat := 32
  nodeQuota : Nat := 256
  root     : Nat := 0
  desc     : Nat := 0
  vector   : Nat := 0
  /-- LOST at the last written entry (R369, OVPREV). -/
  lostSeen : Nat := 0
  /-- Measured-delay counters by class × 32 + selector (R221). -/
  counters : NMap Nat := []
  /-- Streams of codes 0x02, 0x0B, 0x0C by code × 2048 + instance (R207). -/
  streams  : NMap Stream := []
deriving DecidableEq, Repr

/-- STATE of a launch record (R190). -/
inductive LState where
  | unbuilt | idle | running | done | faulted
deriving DecidableEq, Repr

/-- A launch record (R190) with the progress of its arm (R193-R195, R201). -/
structure LRec where
  state   : LState := .unbuilt
  entry   : Nat := 0
  policy  : Nat := 0
  det     : Bool := false
  early   : Bool := false
  fuse    : Bool := false
  fmt     : Word := 0
  counts  : List Word := []
  param   : Word := 0
  done    : Word := 0
  first   : Nat := 0
  ncores  : Nat := 0
  quantum : Nat := 0
  started : Nat := 0
  ended   : Nat := 0
  errors  : Nat := 0
  arms    : Nat := 0
  owner   : Nat := 0
  nextL   : Nat := 0
  armTag  : List Nat := []
  endTag  : List Nat := []
  image   : Nat := 0
  quanta  : Nat := 0
  lastReq : Nat := 0
deriving DecidableEq, Repr

/-- One virtual interface (R21, R385, R387). -/
structure Iface where
  weights : NMap Nat := []
  quantum : Nat := 4096
  banklim : Nat := 8
  nown    : Nat := 0
  qraised : Bool := false
  nst     : Nat := 0
  nfault  : Bool := false
  ncount  : Nat := 0
  fenced  : Bool := false
  stoff   : Nat := 0
  ntmo    : Nat := 0
  /-- A notify whose stamp is awaited: W0, the clk it began, the clk from which the next read is due (R389). -/
  await   : Option (Word × Nat × Nat) := none
  queued  : List Word := []
  records : NMap LRec := []
deriving DecidableEq, Repr

/-- The byte of memory that a request is for: its physical address, its page's treatment and sharing key. -/
structure Place where
  pa    : Nat
  treat : Nat
  share : Option Nat
  /-- A write made at once is dirty in the sector that its grant fills (R237). -/
  write : Bool := false
  /-- It carries data of a home slice away, and fills nothing. -/
  back  : Bool := false
deriving DecidableEq, Repr

/-- A request at an arbitration point: owner, id, slots waited at the head (R211, R220). -/
structure ArbReq where
  owner : Nat
  id    : Nat
  wait  : Nat
  /-- The clk it joined the point: it first competes in the next slot (R211). -/
  since : Nat
  /-- What it is for, none for local memory. -/
  at_   : Option Place
  /-- The points it still crosses after this one: code, instance (R213). -/
  path  : List (Nat × Nat)
deriving DecidableEq, Repr

/-- A copy of a tile that a router makes as the tile's flits leave it (R298): of the request `parent` with `left` outputs still to
cross, for the request `id` with its own way, `count` flits more. -/
structure Fork where
  parent : Nat
  left   : Nat
  owner  : Nat
  id     : Nat
  path   : List (Nat × Nat)
  count  : Nat
deriving DecidableEq, Repr

/-- An entry that a granted request holds: owner, request, and the address it is for. -/
structure Slot where
  owner : Nat
  id    : Nat
  pa    : Option Nat
deriving DecidableEq, Repr

/-- One arbitration point (R206-R218). -/
structure Point where
  draw    : Stream := {}
  borrow  : Stream := {}
  queue   : List ArbReq := []
  /-- Entries held by granted requests: misses (R243), atomics (R262), streamer requests (R283), pool requests (R342). -/
  busy    : List Slot := []
  /-- LEVEL by owner in 1/256 token, absent that of a bucket full at creation (R215). -/
  levels  : NMap Nat := []
  commons : Nat := 0
  lastSlot : Nat := 0
  /-- Slots of its rail that its stream has passed (model's own, R207). -/
  seen    : Nat := 0
deriving DecidableEq, Repr

/-! ### Engines (R93-R96, R283-R302, R303-R321) -/

/-- A command of an engine class and the data it read at issue. -/
inductive CmdKind where
  /-- Vector: operation 0 to 0x17, lane type code, mask, fields, records (destination, first and second source) with their
  scale records, RMODE, LSEED, WID and tables at issue, the next element, the channel records taken as (role, header,
  cursor), and the elements of a reduction under way as (value, bits, poisoned) (R306-R320). -/
  | vec (op ty : Nat) (mask : Option Word) (a : Word) (recs : List (Option Tensor)) (scales : List (Option Tensor))
      (rmode : Nat) (lseed wid : Word) (coef : Coef) (dec : NMap (BitVec 19)) (pos : Nat)
      (taken : List (Nat × Nat × Nat)) (acc : List (FVal × Nat × Bool))
  /-- Copy: source and destination address of a byte run, or records (source, destination); bytes, barrier (core, offset),
  owed result, chunks done, status, first poisoned offset, fault address and cause, abort mark (R292). -/
  | copy (src dst : Word) (len : Nat) (recs : Option (Tensor × Tensor)) (bar : Option (Nat × Nat)) (ans : Option Nat)
      (chunk : Nat) (status : Nat) (bad : Option Nat) (faddr : Word) (fcause : Nat) (abort : Bool)
  /-- Multicast tile: record, tag, k, owed result, whether it is sent, subscribers still to land as (core, subscription),
  status (R298). -/
  | mcast (t : Tensor) (tag16 k : Nat) (ans : Option Nat) (sent : Bool) (left : List (Nat × Nat)) (status : Nat)
  /-- A carousel part: operation 3 to 8 or 1 (`mrel`), its number under the lease, fields, record (R326). -/
  | car (op idx : Nat) (a : Word) (t : Option Tensor) (scale : Option Tensor) (dec : NMap (BitVec 19)) (ring lease : Nat)
deriving DecidableEq, Repr

/-- An engine command issued and not yet freed (R93-R95). -/
structure Cmd where
  id    : Nat
  ctx   : Nat
  cls   : Nat
  num   : Nat
  frame : Nat
  act   : Nat
  pc    : Word
  kind  : CmdKind
  lin   : Lin
  after : List Nat
  known : List Nat
  writes : List Nat
  /-- Chunks of a copy, or tiles, whose beats have been requested (R283). -/
  asked : Nat
  /-- Regions whose loss discarded writes that it has still to make (R98). -/
  lost   : List Nat
  /-- All work is over; the counter may pass it (R95). -/
  finished : Bool
deriving DecidableEq, Repr

/-- What the streamer keeps of a copy for `cpst` (R295). -/
structure CopyRec where
  ctx    : Nat
  num    : Nat
  prog   : Nat
  chunks : Nat
  bad    : Option Nat
  faddr  : Word
  fcause : Nat
  done   : Bool
deriving DecidableEq, Repr

/-- Who waits for a walk (R374): a frame's instruction; an access of an engine, a table load, or one that issues again, whose `id`
is the walk's and which a core's TLB serves or not; a prefetch with its b. -/
inductive WalkFor where
  | frame
  | unit (atCore : Bool)
  | pfch (b : Nat)
deriving DecidableEq, Repr

/-- An access that waits for a walk (R374): who waits, how many levels the walk of its page has read, and the table whose
entry it reads next; at 0 levels the walk is yet to begin. -/
structure Walk where
  for_  : WalkFor := .frame
  id    : Nat
  ring  : Nat
  owner : Nat
  va    : Word
  /-- 0 read, 1 write, 2 both (R373). -/
  acc   : Nat
  core  : Nat
  frame : Nat
  act   : Nat
  pc    : Word
  depth : Nat := 0
  tab   : Nat := 0
deriving DecidableEq, Repr

/-- The result of a walk for an access that is no frame's instruction: the page it reached, or its fault (R374). -/
structure Walked where
  id    : Nat
  page  : Nat
  xlat  : Option Xlat
  cause : Nat
deriving DecidableEq, Repr

/-- A refusal on its way back (R158, R230, R281): cause, and the issuer. -/
structure Bounce where
  ctx   : Nat
  frame : Nat
  act   : Nat
  cause : Nat
  addr  : Word
  pc    : Word
  lin   : Lin
  /-- Id of the access, which tells the handler's from those before the trap. -/
  id    : Nat
deriving DecidableEq, Repr

/-- A request held for the quantum's end (R202). -/
structure HeldReq where
  iface  : Nat
  index  : Nat
  core   : Nat
  act    : Nat
  seq    : Nat
  ctx    : Nat
  frame  : Nat
  /-- A message entry, or for an arm of a record with the owed result `seq` what its release waits for. -/
  entry  : Option QEntry
  /-- 0 held, 1 to be sent since its quantum ended, 2 sent and on its way. -/
  state  : Nat
  arm    : Option Nat
  tag    : List Nat
deriving DecidableEq, Repr

/-! ### Pool, containment, links, power (R341-R363, R391-R397) -/

/-- A pool region (R343). -/
structure Region where
  base   : Nat := 0
  size   : Nat := 0
  port   : Nat := 0
  state  : Nat := 0
  losses : Nat := 0
deriving DecidableEq, Repr

/-- A back-invalidation (R97): line and the pool's current bytes. -/
structure Inval where
  id     : Nat
  line   : Nat
  writes : List (Nat × Byte)
deriving DecidableEq, Repr

/-- A containment node (R351). -/
structure Node where
  count    : Nat := 0
  parent   : Nat := 0
  owner    : Nat := 0
  depth    : Nat := 0
  live     : Bool := false
  children : Nat := 0
  tiles    : Nat := 0
  height   : Nat := 0
deriving DecidableEq, Repr

/-- A bump (R353, R354): the nodes still to be raised, its whole chain, and the writes or event it was taken for. -/
structure Bump where
  id    : Nat
  chain : List Nat
  whole : List Nat
  cause : List Nat
deriving DecidableEq, Repr

/-- What the state area of a saved context records (R377): the context with its bank numbers counted from the first bank
saved, its frames by 4 × bank + frame, the writes settled then, the reads and requests that issue again, what the streamer
keeps of its copies, and every byte of the image, which the check value covers. -/
structure Image where
  ctx    : Ctx
  frames : NMap Frame
  logged : List Nat
  reqs   : List Req
  reads  : List Read
  copies : List CopyRec
  bytes  : List Byte
  /-- It has not been restored: its activations are away (R203). -/
  out    : Bool
  /-- Keys of the frames whose park had come to its end when they were saved (R127, R203). -/
  past   : List Nat
deriving DecidableEq, Repr

/-- A prefetch into an L1 on its way (R257, R259): its place, and whether it is for writing. -/
structure Prefetch where
  id    : Nat
  core  : Nat
  owner : Nat
  pa    : Nat
  treat : Nat
  share : Option Nat
  write : Bool
deriving DecidableEq, Repr

/-- Bring-up (R397). -/
inductive Boot where
  | recovery | up
deriving DecidableEq, Repr

/-- One entry of the schedule: how many clks pass, and the event taken. -/
structure Sched where
  advance : Nat
  ev      : Instr
deriving DecidableEq, Repr

/-- The whole machine. -/
structure State where
  /-- CLK (R15, R54). -/
  clk      : Nat := 0
  /-- Events taken next, the model's own (log 1). -/
  agenda   : List Sched := []
  /-- The word of `cur` issues in this step, the model's own. -/
  issuing  : Bool := false
  /-- The issuing logical core and frame. -/
  cur      : Nat × Nat := (0, 0)
  /-- Next identifier, the model's own. -/
  nextId   : Nat := 1
  /-- Free-value counter, the model's own (log 6). -/
  free     : Nat := 0
  /-- Last settled bytes, canonical; unlisted bytes are 0 (log 5). -/
  mem      : List Host.Cell := []
  /-- Bytes written so far within the step, committed at its end; empty between steps (model's own). -/
  wbuf     : List Host.Cell := []
  /-- Initial writes of locations that have settled writes (R73), where not 0. -/
  initMem  : List Host.Cell := []
  /-- Poisoned units: 8 local bytes or a 64-byte sector, by first location (R160, R256). -/
  poison   : List Nat := []
  /-- What the pool holds of published writes (R97). -/
  poolMem  : List Host.Cell := []
  hist     : NMap WRec := []
  /-- Settled writes, latest first (R81). -/
  log      : List Nat := []
  ctxs     : NMap Ctx := []
  reads    : List Read := []
  reqs     : List Req := []
  net      : List Msg := []
  walks    : List Walk := []
  /-- Copies of tiles that routers have still to make (R298). -/
  forks    : List Fork := []
  /-- Results of walks that their accesses have still to use (R374). -/
  walked   : List Walked := []
  refusals : List Bounce := []
  cmds     : List Cmd := []
  copies   : List CopyRec := []
  /-- Prefetches whose fill has not been made (R257). -/
  prefetches : List Prefetch := []
  /-- Windows of ended activations that an unfinished vector command still sends through: context, frame, activation,
  number, window (R137, R174, R319). -/
  orphans  : List (Nat × Nat × Nat × Nat × Window) := []
  held     : List HeldReq := []
  /-- End notices not yet sent: message and the entries they wait for (R194). -/
  notices  : List (Msg × List Nat) := []
  cores    : NMap CoreSt := []
  rings    : NMap RingSt := []
  owners   : NMap Owner := [(0, { live := true })]
  ifaces   : NMap Iface := []
  points   : NMap Point := []
  /-- Entries of the core table that are not the identity (R14). -/
  coreTable : NMap Nat := []
  /-- Physical cores without a logical core whose banks are not clean (R395). -/
  dirtySpare : List Nat := []
  /-- The table entry that WTDAT reaches, one for the module (R382). -/
  wtsel    : Word := 0
  sharingKeys : NMap Word := []
  peerBase : NMap Nat := []
  nodeBase : Nat := 0
  linkMask : BitVec 16 := 0
  /-- Levels of the matrix, vector, SRAM and fabric rails (R393). -/
  rails    : NMap Nat := []
  /-- Slots each rail had had by the clk of its last change of level, as that clk and the count (R393). -/
  slotCounts : NMap (Nat × Nat) := []
  /-- Slots each rail had had when K₀ last changed (R208). -/
  key0Slots : NMap Nat := []
  /-- Dies in thermal emergency (R394). -/
  emergency : List Nat := []
  /-- Levels held by slow-down notices, each with the clk of the last notice at it or above; clk of the last notice sent
  (R392). -/
  slowdown : NMap Nat := []
  lastNotice : Nat := 0
  /-- Slow-down notices sent, (link, level) (R392). -/
  noticesOut : List (Nat × Nat) := []
  linksLost : List Nat := []
  retries  : NMap Nat := []
  /-- Writes toward host or peer not yet acknowledged (R230). -/
  unacked  : List Nat := []
  /-- Settled pool-coherent writes not yet published (R97). -/
  unpub    : List Nat := []
  /-- Pool lines held exclusive, by line number (R345). -/
  exclusive : List Nat := []
  regions  : NMap Region := []
  portsLost : List Nat := []
  birq     : NMap (List Inval) := []
  birsp    : Nat := 0
  /-- Lines of device DRAM that the host caches, and the BISnp the host port has issued for such lines (R341, R390). -/
  hostLines : List Nat := []
  bisnp    : Nat := 0
  nodes    : NMap Node := []
  bumps    : List Bump := []
  images   : List Image := []
  msix     : List (Nat × Nat) := []
  boot     : Boot := .up
  bootFail : Bool := false
  vfEnabled : Bool := true
  lastStatic : Nat := 0
deriving DecidableEq, Repr

/-- Why the machine stops. -/
inductive Fault where
  /-- Raised by `step` where the schedule names an instruction word instead of an event: such a schedule is no run of
  the machine. Safe: it stops. -/
  | notAnEvent
deriving DecidableEq, Repr

/-- Why an instruction has no meaning. -/
inductive Refusal where
  /-- Raised by a dispatch arm that is not modelled yet. Safe: it stops. -/
  | notModelled (mnemonic : String)
deriving DecidableEq, Repr

/-- The module right after bring-up (R15, R57, R367, R383, R397): K₀ = 0, an identity core table, owner 0 live on
interface 0, every weight 0, no bank assigned, nothing in memory. -/
def State.reset : State := {}

end Sys2Proof.Machine
end

