-- ==== Sys2Proof/Machine/Ops.lean ====
section
/-! DEFINITION. The named operations over the state: maps, memory, registers, banks, draws, knowledge and the store
queue, messages, owed results, parking, the fault queue, taking a trap and returning from one, translation. -/

namespace Sys2Proof.Machine

open Sys2Proof

/-- What a step comes to. -/
abbrev Res := Host.Outcome State Fault Refusal

/-! ### Lists and maps -/

/-- The value at a key. -/
def NMap.find {α : Type} : NMap α → Nat → Option α
  | [], _ => none
  | (a, x) :: r, k => if a = k then some x else NMap.find r k

/-- The value at a key, or the default. -/
def NMap.get {α : Type} (m : NMap α) (k : Nat) (d : α) : α := (NMap.find m k).getD d

/-- The map with a key set, in rising key order. -/
def NMap.put {α : Type} : NMap α → Nat → α → NMap α
  | [], k, x => [(k, x)]
  | (a, y) :: r, k, x =>
    if k < a then (k, x) :: (a, y) :: r else if k = a then (k, x) :: r else (a, y) :: NMap.put r k x

/-- The map without a key. -/
def NMap.del {α : Type} (m : NMap α) (k : Nat) : NMap α := m.filter fun p => p.1 != k

/-- A number put into a rising list. -/
def insNat : List Nat → Nat → List Nat
  | [], k => [k]
  | a :: r, k => if k < a then k :: a :: r else if k = a then a :: r else a :: insNat r k

/-- The union of rising lists. -/
def unionNat (a b : List Nat) : List Nat := b.foldl insNat a

/-- The elements of `a` that `b` lacks. -/
def minusNat (a b : List Nat) : List Nat := a.filter fun x => !b.contains x

/-- No element of `a` is in `b`. -/
def disjointNat (a b : List Nat) : Bool := a.all fun x => !b.contains x

/-- A list without its element at an index. -/
def dropAt {α : Type} (l : List α) (i : Nat) : List α := l.take i ++ l.drop (i + 1)

/-- The numbers 0 to n − 1. -/
def upto : Nat → List Nat
  | 0 => []
  | n + 1 => upto n ++ [n]

/-- The first element of each key, in their order. -/
def firstBy {α : Type} (key : α → Nat) (l : List α) : List α :=
  (l.foldl (fun a x => if a.any fun y => key y == key x then a else x :: a) []).reverse

/-- The least element, or the default for an empty list. -/
def leastNat (d : Nat) : List Nat → Nat
  | [] => d
  | a :: r => r.foldl Nat.min a

/-! ### Memory: the canonical form (R4, R73) -/

/-- The byte at an address; an unlisted address reads as 0 (log 5). -/
def memRead : List Host.Cell → Nat → Byte
  | [], _ => 0
  | (x, y) :: r, a => if x = a then y else memRead r a

/-- A byte written, keeping addresses rising and no 0 listed. -/
def memPut : List Host.Cell → Nat → Byte → List Host.Cell
  | [], a, b => if b = 0 then [] else [(a, b)]
  | (x, y) :: r, a, b =>
    if a < x then (if b = 0 then (x, y) :: r else (a, b) :: (x, y) :: r)
    else if a = x then (if b = 0 then r else (a, b) :: r)
    else (x, y) :: memPut r a b

/-- Every listed address lies above `lo` and rises, and no listed byte is 0. -/
def memWfFrom : Option Nat → List Host.Cell → Bool
  | _, [] => true
  | lo, (x, y) :: r => (match lo with | none => true | some l => decide (l < x)) && y != 0 && memWfFrom (some x) r

/-- The canonical form of memory. -/
def Memory.wf (m : List Host.Cell) : Bool := memWfFrom none m

/-- The writes of a step in the order they were made, the latest first in the list. -/
def applyWrites (m : List Host.Cell) : List Host.Cell → List Host.Cell
  | [] => m
  | (a, b) :: r => memPut (applyWrites m r) a b

/-- The last settled byte at a location, the step's own writes included. -/
def byteAt (s : State) (a : Nat) : Byte :=
  match NMap.find s.wbuf a with
  | some b => b
  | none => memRead s.mem a

/-- Writes one byte within the step. -/
def putByte (s : State) (a : Nat) (b : Byte) : State := { s with wbuf := (a, b) :: s.wbuf }

/-- The result of a step that may have written memory: its writes are made at once. -/
def commit (s0 s : State) : Res :=
  .next { s with mem := applyWrites s0.mem s.wbuf, wbuf := [] }

/-- The little-endian value of n bytes (R4). -/
def rdNat (s : State) (a : Nat) : Nat → Nat
  | 0 => 0
  | n + 1 => (byteAt s a).toNat + 256 * rdNat s (a + 1) n

/-- The bytes from an address. -/
def rdBytes (s : State) (a : Nat) : Nat → List Byte
  | 0 => []
  | n + 1 => byteAt s a :: rdBytes s (a + 1) n

/-- The n low bytes of a number, lowest first (R4). -/
def leBytes (v : Nat) : Nat → List Byte
  | 0 => []
  | n + 1 => BitVec.ofNat 8 v :: leBytes (v / 256) n

/-- The little-endian value of a list of bytes. -/
def leValue : List Byte → Nat
  | [] => 0
  | b :: r => b.toNat + 256 * leValue r

/-- Bytes with their locations, from an address. -/
def cellsAt (a : Nat) : List Byte → List Host.Cell
  | [] => []
  | b :: r => (a, b) :: cellsAt (a + 1) r

/-- A bit of a word. -/
def bit (w : Word) (i : Nat) : Bool := w.getLsbD i

/-- The unsigned value of bits h:l (R3). -/
def bits (w : Word) (h l : Nat) : Nat := (w.toNat / 2 ^ l) % 2 ^ (h - l + 1)

/-- The word of a number. -/
def word (n : Nat) : Word := BitVec.ofNat 64 n

/-- A flag as a number. -/
def b2n (b : Bool) : Nat := if b then 1 else 0

/-! ### Components of the state -/

/-- A logical core. -/
def coreOf (s : State) (c : Nat) : CoreSt := NMap.get s.cores c {}
/-- Sets a logical core. -/
def setCore (s : State) (c : Nat) (x : CoreSt) : State := { s with cores := NMap.put s.cores c x }
/-- A frame of a core. -/
def frameOf (s : State) (c f : Nat) : Frame := NMap.get (coreOf s c).frames f {}
/-- Sets a frame of a core. -/
def setFrame (s : State) (c f : Nat) (x : Frame) : State :=
  setCore s c { coreOf s c with frames := NMap.put (coreOf s c).frames f x }
/-- The key of a context (R74). -/
def ctxKey (core owner : Nat) : Nat := core * 4096 + owner
/-- The logical core of a context. -/
def ctxCore (k : Nat) : Nat := k / 4096
/-- The owner of a context. -/
def ctxOwner (k : Nat) : Nat := k % 4096
/-- A context. -/
def ctxOf (s : State) (k : Nat) : Ctx := NMap.get s.ctxs k {}
/-- Sets a context. -/
def setCtx (s : State) (k : Nat) (x : Ctx) : State := { s with ctxs := NMap.put s.ctxs k x }
/-- An owner. -/
def ownerOf (s : State) (o : Nat) : Owner := NMap.get s.owners o {}
/-- Sets an owner. -/
def setOwner (s : State) (o : Nat) (x : Owner) : State := { s with owners := NMap.put s.owners o x }
/-- A ring. -/
def ringOf (s : State) (r : Nat) : RingSt := NMap.get s.rings r {}
/-- Sets a ring. -/
def setRing (s : State) (r : Nat) (x : RingSt) : State := { s with rings := NMap.put s.rings r x }
/-- An interface. -/
def ifaceOf (s : State) (i : Nat) : Iface := NMap.get s.ifaces i {}
/-- Sets an interface. -/
def setIface (s : State) (i : Nat) (x : Iface) : State := { s with ifaces := NMap.put s.ifaces i x }
/-- A launch record. -/
def recOf (s : State) (i n : Nat) : LRec := NMap.get (ifaceOf s i).records n {}
/-- Sets a launch record. -/
def setRec (s : State) (i n : Nat) (x : LRec) : State :=
  setIface s i { ifaceOf s i with records := NMap.put (ifaceOf s i).records n x }
/-- A write of the history. -/
def wrec (s : State) (i : Nat) : WRec :=
  NMap.get s.hist i { writer := .hardware, frame := 0, act := 0, bytes := [], known := [], tag := none, pc := 0, va := 0, pool := false, seq := 0 }

/-- A fresh identifier. -/
def fresh (s : State) : Nat × State := (s.nextId, { s with nextId := s.nextId + 1 })

/-! ### The issuing frame -/

/-- The issuing frame. -/
def curFrame (s : State) : Frame := frameOf s s.cur.1 s.cur.2
/-- Sets the issuing frame. -/
def setCur (s : State) (x : Frame) : State := setFrame s s.cur.1 s.cur.2 x
/-- The issuing core. -/
def curCore (s : State) : CoreSt := coreOf s s.cur.1
/-- The issuing frame runs the trap handler (R365). -/
def inHandler (s : State) : Bool := (curCore s).sup && (curCore s).supFrame == s.cur.2
/-- The owner the issuing frame acts as (R365). -/
def curOwner (s : State) : Nat := if inHandler s then 0 else (curFrame s).owner
/-- Its context (R74, R365). -/
def curCtx (s : State) : Nat := ctxKey s.cur.1 (curOwner s)
/-- Its PC, a local offset (R47). -/
def curPc (s : State) : Word := if inHandler s then (curCore s).hpc else (curFrame s).pc
/-- Sets its PC. -/
def setPc (s : State) (p : Word) : State :=
  if inHandler s then setCore s s.cur.1 { curCore s with hpc := p } else setCur s { curFrame s with pc := p }

/-- Reads a general register: g0 reads 0 (R50); the handler has its own file (R365). -/
def rd (s : State) (r : Reg) : Word :=
  if r = 0 then 0
  else if inHandler s then (curCore s).hregs[r.toNat]'r.isLt else (curFrame s).regs[r.toNat]'r.isLt

/-- Writes a general register: a write to g0 is discarded (R50). -/
def wr (s : State) (r : Reg) (v : Word) : State :=
  if r = 0 then s
  else if inHandler s then setCore s s.cur.1 { curCore s with hregs := (curCore s).hregs.set r.toNat v r.isLt }
  else setCur s { curFrame s with regs := (curFrame s).regs.set r.toNat v r.isLt }

/-- The next register of a pair (R4). -/
def pairReg (r : Reg) : Reg := r + 1

/-- An activation under a deterministic record (R201). -/
def detLin (s : State) (l : Lin) : Bool :=
  match l.launch with
  | some (i, n) => (recOf s i n).det
  | none => false

/-- Counts one retirement in QRET where the lineage is deterministic (R135). -/
def countRetire (s : State) : State :=
  if !inHandler s && detLin s (curFrame s).lin then
    setCtx s (curCtx s) { ctxOf s (curCtx s) with qret := ((ctxOf s (curCtx s)).qret + 1) % 2 ^ 32 }
  else s

/-- The instruction retires at PC + 4. -/
def retire4 (s : State) : State := countRetire (setPc s (curPc s + 4))

/-- Writes the destination and retires at PC + 4. -/
def finish (s : State) (d : Reg) (v : Word) : State := retire4 (wr s d v)

/-- A transfer of control: the fetch buffer is emptied (R164), the instruction retires. -/
def jumpTo (s : State) (t : Word) : State :=
  countRetire (setPc (if inHandler s then s else setCur s { curFrame s with fbuf := [] }) t)

/-- The parked instruction's wait at issue is over or was never needed: it starts afresh next time. -/
def clearWait (s : State) : State :=
  setCur s { curFrame s with granted := false, walked := [], wfault := [] }

/-! ### Banks and cores (R126, R152, R153) -/

/-- The banks an owner holds on a core, ascending. -/
def banksOf (s : State) (core owner : Nat) : List Nat :=
  ((coreOf s core).banks.filter fun p => p.2.valid && p.2.owner == owner).map Prod.fst

/-- Bytes of the owner's local memory on the core (R153). -/
def localSize (s : State) (core owner : Nat) : Nat := (banksOf s core owner).length * Config.bankBytes

/-- First location of a bank. -/
def bankLoc (core b : Nat) : Nat := 2 ^ 60 + (core * 8 + b) * 0x10000

/-- The location of a local offset, none beyond the owner's banks (R153). -/
def localLoc (s : State) (core owner off : Nat) : Option Nat :=
  match (banksOf s core owner)[off / Config.bankBytes]? with
  | some b => some (bankLoc core b + off % Config.bankBytes)
  | none => none

/-- A location is a byte of local memory. -/
def isLocal (a : Nat) : Bool := decide (2 ^ 60 ≤ a)

/-- Reads n bytes of local memory byte by byte, across banks. -/
def rdLocal (s : State) (core owner off : Nat) : Nat → List Byte
  | 0 => []
  | n + 1 => (match localLoc s core owner off with | some a => byteAt s a | none => 0) :: rdLocal s core owner (off + 1) n

/-- Locations of n local bytes. -/
def localLocs (s : State) (core owner off : Nat) : Nat → List Nat
  | 0 => []
  | n + 1 => (match localLoc s core owner off with | some a => [a] | none => []) ++ localLocs s core owner (off + 1) n

/-- The physical core of a logical core (R14). -/
def physCore (s : State) (l : Nat) : Nat := NMap.get s.coreTable l l
/-- The ring of a logical core (R13). -/
def ringOfCore (s : State) (l : Nat) : Nat := physCore s l / 16
/-- The die of a logical core (R13). -/
def dieOfCore (s : State) (l : Nat) : Nat := ringOfCore s l / 96
/-- In-die core index (R13). -/
def inDie (s : State) (l : Nat) : Nat := physCore s l % 1536

/-- The store-queue bank of the issuing frame (R76); the handler uses owner 0's first bank. -/
def curBank (s : State) : Nat :=
  if inHandler s then (banksOf s s.cur.1 0).headD 0 else s.cur.2 / 4

/-! ### The draw function (R205-R208) -/

/-- T(K, s, i, n) of R205. -/
def tombola (k : Word) (sc i n : Nat) : BitVec 32 :=
  let lo : BitVec 32 := k.extractLsb' 0 32
  let hi : BitVec 32 := k.extractLsb' 32 32
  let x := lo ^^^ (BitVec.ofNat 32 sc <<< 27) ^^^ (BitVec.ofNat 32 i <<< 16) ^^^ BitVec.ofNat 32 n
  let x := x * 0x7A3B5C2D#32
  let x := x ^^^ (x >>> 16)
  let x := x ^^^ hi
  let x := x * 0x7A3B5C2D#32
  x ^^^ (x >>> 15)

/-- K′ of R206: the epoch is added to the high half of the key. -/
def epochKey (k : Word) (e : Nat) : Word :=
  (k.extractLsb' 32 32 + BitVec.ofNat 32 e) ++ k.extractLsb' 0 32

/-- One draw of a stream (R206). -/
def drawStream (k : Word) (sc i : Nat) (t : Stream) : Nat × Stream :=
  let v := (tombola (epochKey k t.e) sc i t.n).toNat
  let n := (t.n + 1) % 2 ^ 16
  (v, { n := n, e := if n = 0 then (t.e + 1) % 2 ^ 32 else t.e })

/-- K₀ (R20). -/
def key0 (s : State) : Word := (ownerOf s 0).key

/-- One draw of an owner's own stream at codes 0x02, 0x0B, 0x0C (R207). -/
def drawOwner (s : State) (o sc i : Nat) : Nat × State :=
  let w := ownerOf s o
  let r := drawStream w.key sc i (NMap.get w.streams (sc * 2048 + i) {})
  (r.1, setOwner s o { w with streams := NMap.put w.streams (sc * 2048 + i) r.2 })

/-! ### Energy (R396) and measured delay (R221) -/

/-- Adds energy units to an owner, saturating (R55, R396). -/
def charge (s : State) (o units : Nat) : State :=
  let w := ownerOf s o
  if w.ectrSat then s
  else if w.ectr + units > 2 ^ 48 - 1 then setOwner s o { w with ectr := 2 ^ 48 - 1, ectrSat := true }
  else setOwner s o { w with ectr := w.ectr + units }

/-- Adds one to a counter of R221, saturating. -/
def bumpCounter (s : State) (o cls sel : Nat) : State :=
  let w := ownerOf s o
  let k := cls * 32 + sel
  setOwner s o { w with counters := NMap.put w.counters k (Nat.min (NMap.get w.counters k 0 + 1) (2 ^ 32 - 1)) }

/-- The bin of a wait (R221). -/
def waitBin (w : Nat) : Nat := if w = 0 then 0 else if 2 ^ 14 ≤ w then 15 else Nat.log2 w + 1

/-! ### Homes and pool regions (R229, R343) -/

/-- The pool region that holds a physical address, live or lost. -/
def regionAt (s : State) (pa : Nat) : Option (Nat × Region) :=
  s.regions.find? fun p => p.2.state != 0 && decide (p.2.base * 2 ^ 30 ≤ pa) && decide (pa < (p.2.base + p.2.size) * 2 ^ 30)

/-- The address lies in a lost region (R98). -/
def lostAt (s : State) (pa : Nat) : Bool :=
  match regionAt s pa with
  | some (_, r) => r.state == 2
  | none => false

/-- A pool address. -/
def isPool (pa : Nat) : Bool := decide (Config.poolBase ≤ pa) && decide (pa < 2 ^ 56)
/-- An address of the host or peer window (R230). -/
def isWindow (pa : Nat) : Bool := decide (Config.hostBase ≤ pa) && decide (pa < Config.poolBase)
/-- An address of device DRAM. -/
def isDram (pa : Nat) : Bool := decide (pa < Config.dramEnd)

/-- The ring of the home slice (R229); for local memory, the core's ring. -/
def homeRing (s : State) (a : Nat) : Nat :=
  if isLocal a then ringOfCore s ((a - 2 ^ 60) / 0x10000 / 8)
  else if isDram a then a / Config.ringBytes
  else
    let l := (a / 256) % 2 ^ 32
    Nat.xor (Nat.xor l (l / 2 ^ 9)) (l / 2 ^ 18) % 384

/-! ### Knowledge, write sets and candidates (R78-R81) -/

/-- Two writes have a location in common. -/
def sharesLoc (s : State) (v w : Nat) : Bool := (wrec s v).bytes.any fun p => (wrec s w).bytes.any fun q => q.1 == p.1

/-- Some writes with every write that precedes one of them at a location of theirs (R78, R79). -/
def preceders (s : State) : Nat → List Nat → List Nat → List Nat
  | 0, _, acc => acc
  | n + 1, todo, acc =>
    let new := (todo.foldl (fun a i => unionNat a ((wrec s i).known.filter fun v => sharesLoc s v i)) []).filter fun v => !acc.contains v
    if new.isEmpty then acc else preceders s n new (unionNat acc new)

/-- Writes that come with some writes (R79). -/
def withPreceders (s : State) (ids : List Nat) : List Nat :=
  let l := ids.foldl insNat []
  preceders s s.hist.length l l

/-- Context k learns writes, with everything that precedes them (R79). -/
def learn (s : State) (k : Nat) (ids : List Nat) : State :=
  if ids.isEmpty then s
  else
    let c := ctxOf s k
    setCtx s k { c with known := unionNat c.known (withPreceders s ids) }

/-- A write covers a location. -/
def covers (s : State) (w a : Nat) : Bool := (wrec s w).bytes.any fun p => p.1 == a

/-- The last settled write of a location, 0 for the initial one (R81). -/
def lastSettled (s : State) (a : Nat) : Nat := (s.log.find? fun w => covers s w a).getD 0

/-- The write set of a location (R81): settled writes that no later settled write is preceded by. -/
def writeSet (s : State) (a : Nat) : List Nat :=
  let ws := s.log.filter fun w => covers s w a
  if ws.isEmpty then [0]
  else ws.filter fun w => !(ws.any fun v => (wrec s v).known.contains w)

/-- A write is a candidate for a context (R80): no write to the location known to it has this one preceding it. -/
def candidate (s : State) (k a w : Nat) : Bool :=
  !((ctxOf s k).known.any fun v => v != w && covers s v a && (w == 0 || (wrec s v).known.contains w))

/-- The byte a write gives a location. -/
def writeByte (s : State) (w a : Nat) : Byte :=
  if w = 0 then
    (if s.log.any fun v => covers s v a then memRead s.initMem a else byteAt s a)
  else match (wrec s w).bytes.find? fun p => p.1 == a with
    | some p => p.2
    | none => 0

/-- The tag's scope holds both contexts (R86, R87), judged from the core table now. -/
def inScope (s : State) (t : Tag) (core : Nat) : Bool :=
  match t.scope with
  | .core => t.core == core
  | .ring => ringOfCore s t.core == ringOfCore s core
  | .die => dieOfCore s t.core == dieOfCore s core
  | _ => true

/-- Context k acquires the tag of a write (R86). -/
def acquireTag (s : State) (k w : Nat) : State :=
  match (wrec s w).tag with
  | some t => if inScope s t (ctxCore k) then learn s k t.writes else s
  | none => s

/-- A new write of the issuing party, with its knowledge as what precedes it (R82, Issue). -/
def newWrite (s : State) (k frame act : Nat) (bytes : List (Nat × Byte)) (tag : Option Tag) (va pc : Word) (pool : Bool) :
    Nat × State :=
  let c := ctxOf s k
  let id := s.nextId
  let r : WRec := { writer := .ctx k, frame := frame, act := act, bytes := bytes, known := c.known, tag := tag, pc := pc,
                    va := va, pool := pool, seq := id }
  (id, setCtx { s with nextId := id + 1, hist := NMap.put s.hist id r } k { c with known := insNat c.known id })

/-! ### Arbitration points and the way through the fabric (R17, R206, R207, R211, R213, R220, R393, R411) -/

/-- Level of a rail (R393). -/
def railLevel (s : State) (r : Nat) : Nat := NMap.get s.rails r 0

/-- Slots of a rail at a level below a clk (R393). -/
def slotsBelow (level clk : Nat) : Nat := clk / 8 * (8 - level) + Nat.min (clk % 8) (8 - level)

/-- Slots of a rail from reset to a clk, whatever levels it has had (R393). -/
def slotsTo (s : State) (r clk : Nat) : Nat :=
  let p := NMap.get s.slotCounts r (0, 0)
  p.2 + (slotsBelow (railLevel s r) clk - slotsBelow (railLevel s r) p.1)

/-- A stream some draws further on (R206). -/
def skipStream (t : Stream) (k : Nat) : Stream :=
  { n := (t.n + k) % 2 ^ 16, e := (t.e + (t.n + k) / 2 ^ 16) % 2 ^ 32 }

/-- Slots of a rail that have passed since `seen` of them, or since K₀ last changed (R207, R208). -/
def missedSlots (s : State) (r seen : Nat) : Nat := slotsTo s r s.clk - Nat.max seen (NMap.get s.key0Slots r 0)

/-- The key of an arbitration point: structure code and instance, and for code 0x09 the core (R17, R18). -/
def pointKey (code inst : Nat) : Nat := code * 8192 + inst

/-- An arbitration point. -/
def pointOf (s : State) (code inst : Nat) : Point := NMap.get s.points (pointKey code inst) {}
/-- Sets an arbitration point. -/
def setPoint (s : State) (code inst : Nat) (p : Point) : State := { s with points := NMap.put s.points (pointKey code inst) p }

/-- Outputs crossed along the loop of a die from in-die index a to b, shorter way round, east on a tie (R411). -/
def loopPath (die b : Nat) : Nat → Nat → List (Nat × Nat)
  | 0, _ => []
  | g + 1, a =>
    if a = b then []
    else if (b + 96 - a) % 96 ≤ 48 then (0x04, (die * 96 + a) * 4 + 1) :: loopPath die b g ((a + 1) % 96)
    else (0x04, (die * 96 + a) * 4 + 2) :: loopPath die b g ((a + 95) % 96)

/-- The router outputs between two rings. R411 names the ways and the ring-ward output, not when it is crossed: here a
way ends with the destination's ring-ward output, and within one ring none is crossed (DESIGN CHOICE, log 60). -/
def routePath (a b : Nat) : List (Nat × Nat) :=
  if a = b then []
  else
    (if a / 96 = b / 96 then [] else [(0x04, a * 4 + 3)]) ++ loopPath (b / 96) (b % 96) 49 (a % 96) ++ [(0x04, b * 4)]

/-- The rail whose slots a point's are: the SRAM rail, and every clk for DRAM, which has no rail (R393). -/
def pointRail (code : Nat) : Nat := if code = 0x05 then 9 else 3

/-- Live owners, ascending. -/
def liveOwners (s : State) : List Nat := (s.owners.filter fun p => p.2.live).map Prod.fst

/-- LEVEL of an owner at an L2 port: full at creation, with a DEPTH of 32 (R215). -/
def levelOf (p : Point) (o : Nat) : Nat := NMap.get p.levels o (32 * 256)

/-- Some refills of an L2 port, one after the other (R217). -/
def refill (s : State) (n : Nat) (p : Point) : Point :=
  if n = 0 then p
  else (liveOwners s).foldl (fun p o =>
    let full := (ownerOf s o).depth * 256
    let v := levelOf p o + n * (ownerOf s o).rate
    if full < v then { p with commons := Nat.min (p.commons + (v - full)) (64 * 256), levels := NMap.put p.levels o full }
    else { p with levels := NMap.put p.levels o v }) p

/-- A point with the slots that have passed while no request stood there: each has drawn and refilled (R207, R217); the slots
of the other points are taken as their clks pass (log 3). -/
def pointNow (s : State) (code inst : Nat) : Point :=
  let p := pointOf s code inst
  let rail := pointRail code
  let n := slotsTo s rail s.clk - p.seen
  let p := { p with draw := skipStream p.draw (missedSlots s rail p.seen), seen := Nat.max p.seen (slotsTo s rail s.clk) }
  if code = 0x03 then refill s n p else p

/-- A request joins the first point of its way, where it competes from the next slot on (R211, R213). -/
def requestAt (s : State) (owner id : Nat) (at_ : Option Place) : List (Nat × Nat) → State
  | [] => s
  | (c, i) :: r =>
    let p := pointNow s c i
    setPoint s c i { p with queue := p.queue ++ [{ owner := owner, id := id, wait := 0, since := s.clk, at_ := at_, path := r }] }

/-- Accesses made at once at home slices of device DRAM join their L2 ports, which time them alone (R17, R221; DESIGN CHOICE, log
49). -/
def requestHome (s : State) (owner id : Nat) (write : Bool) (ps : List Place) : State :=
  ps.foldl (fun s p => requestAt s owner id (some { p with write := write }) [(0x03, homeRing s p.pa)]) s

/-- A request still stands at a point of its way, or is to be copied at one: until its last grant it is not served (R17, R211;
DEDUCED, log 3). -/
def standsAt (s : State) (id : Nat) : Bool := (s.points.any fun p => p.2.queue.any fun q => q.id == id) || s.forks.any fun x => x.id == id

/-- A flit of a tile leaves a router with some outputs still to cross: the router copies it to its other subscribed outputs (R298). -/
def forkTiles (s : State) (id left : Nat) : State :=
  let hit := fun (x : Fork) => x.parent == id && x.left == left
  (s.forks.filter hit).foldl (fun s x => requestAt s x.owner x.id none x.path)
    { s with forks := s.forks.filterMap fun x =>
        if hit x then (if x.count ≤ 1 then none else some { x with count := x.count - 1 }) else some x }

/-! ### Settling (R81, R82, R160, R164, R256, R353) -/

/-- The first location of the unit that carries poison for a location. -/
def poisonUnit (a : Nat) : Nat := if isLocal a then a / 8 * 8 else a / 64 * 64

/-- Bytes of the unit. -/
def poisonSize (a : Nat) : Nat := if isLocal a then 8 else 64

/-- A location is poisoned. -/
def poisoned (s : State) (a : Nat) : Bool := s.poison.contains (poisonUnit a)

/-- A write of whole units clears their poison; a narrower one leaves it (R160, R256). -/
def clearPoison (s : State) (locs : List Nat) : State :=
  { s with poison := s.poison.filter fun u => !((upto (poisonSize u)).all fun i => locs.contains (u + i)) }

/-- Words of fetch buffers that settled bytes cover, and what follows them, are discarded (R164). -/
def discardFetch (s : State) (locs : List Nat) : State :=
  let cs := (locs.filter isLocal).foldl (fun a l => insNat a ((l - 2 ^ 60) / 0x10000 / 8)) []
  cs.foldl (fun s c =>
    let co := coreOf s c
    setCore s c { co with frames := co.frames.map fun p =>
      let f := p.2
      let hit := fun (q : Nat × BitVec 32) =>
        match localLoc s c f.owner q.1 with
        | some a => locs.any fun l => decide (a ≤ l) && decide (l < a + 4)
        | none => false
      (p.1, { f with fbuf := f.fbuf.takeWhile fun q => !hit q }) }) s

/-- The chain of a node: itself, its parent and so on (R351). -/
def nodeChain (s : State) : Nat → Nat → List Nat
  | 0, _ => []
  | g + 1, n => if n = 0 then [] else n :: nodeChain s g (NMap.get s.nodes n {}).parent

/-- Takes a bump on a chain of nodes (R353, R354). -/
def takeBump (s : State) (chain cause : List Nat) : State :=
  if chain.isEmpty then s
  else { s with nextId := s.nextId + 1, bumps := s.bumps ++ [{ id := s.nextId, chain := chain, whole := chain, cause := cause }] }

/-- The ring of the tile's entry (R352). -/
def tileRing (s : State) (t : Nat) : Nat := homeRing s (t * 4096)

/-- The entry of a tile. -/
def tileOf (s : State) (t : Nat) : Option (Nat × Nat) := NMap.find (ringOf s (tileRing s t)).tiles t

/-- A bump on a tile: TCOUNT rises and its chain is queued (R353). -/
def bumpTile (s : State) (t : Nat) (cause : List Nat) : State :=
  match tileOf s t with
  | some (n, tc) =>
    let r := ringOf s (tileRing s t)
    takeBump (setRing s (tileRing s t) { r with tiles := NMap.put r.tiles t (n, (tc + 1) % 2 ^ 32) }) (nodeChain s 16 n) cause
  | none => s

/-- Lines of device DRAM that the host caches are recalled as a write of another party to them settles: the host port issues
a BISnp for each (R341, R390). -/
def recallHost (s : State) (w : Nat) (locs : List Nat) : State :=
  if (wrec s w).writer = .host then s
  else
    let hit := fun (l : Nat) => locs.any fun a => a / 256 == l
    { s with hostLines := s.hostLines.filter fun l => !hit l, bisnp := s.bisnp + (s.hostLines.filter hit).length }

/-- The write settles: its bytes are the last settled ones, it joins the settled order, poison and fetch buffers follow
(R81, R160, R164). -/
def settleBytes (s : State) (w : Nat) : State :=
  let bs := (wrec s w).bytes
  let locs := bs.map Prod.fst
  let s := bs.foldl (fun s p =>
    let s := if s.log.any fun v => covers s v p.1 then s
      else { s with initMem := memPut s.initMem p.1 (byteAt s p.1) }
    putByte s p.1 p.2) s
  -- a write that is not pool-coherent settles in the pool itself (R345)
  let direct := if (wrec s w).pool then [] else bs.filter fun p => isPool p.1
  let s := { s with log := w :: s.log,
                    unpub := if (wrec s w).pool then insNat s.unpub w else s.unpub,
                    poolMem := direct.foldl (fun m p => memPut m p.1 p.2) s.poolMem }
  recallHost (discardFetch (clearPoison s locs) locs) w locs

/-- The way of a slice that holds a line, wherever it lies (R239). -/
def findWay (s : State) (ring line : Nat) : Option (Nat × Way) := (ringOf s ring).ways.find? fun p => p.2.line == line

/-- Sectors that a settled write covers are dirty toward memory, where they are present (R237). -/
def markDirty (s : State) (sectors : List Nat) : State :=
  sectors.foldl (fun s a =>
    let ring := homeRing s (a * 64)
    match findWay s ring (a / 4) with
    | none => s
    | some (i, w) =>
      let r := ringOf s ring
      let f := fun (x : Nat × Bool × Nat) => if x.1 = a % 4 then (x.1, true, x.2.2) else x
      setRing s ring { r with ways := NMap.put r.ways i { w with sectors := w.sectors.map f } }) s

/-- The write settles and bumps the tiles it lies in (R353). -/
def settleWrite (s : State) (w : Nat) : State :=
  let locs := (wrec s w).bytes.map Prod.fst
  let s := settleBytes s w
  let s := markDirty s (locs.foldl (fun a l => if isLocal l then a else insNat a (l / 64)) [])
  let tiles := locs.foldl (fun a l => if isLocal l then a else insNat a (l / 4096)) []
  tiles.foldl (fun s t => bumpTile s t [w]) s

/-- A write the hardware makes in its own tables, for an owner; it settles at once, and one of device DRAM joins the L2 port of its
home slice, which times it alone (R17, R237; DESIGN CHOICE, log 49). R78 orders only the writes of contexts: here every settled
write precedes it (DESIGN CHOICE, log 59). -/
def hwWrite (s : State) (owner a : Nat) (bs : List Byte) (tag : Option Tag := none) : State :=
  let id := s.nextId
  let s := if isDram a then requestHome s owner id true [{ pa := a, treat := 0, share := none }] else s
  let r : WRec := { writer := .hardware, frame := 0, act := 0, bytes := cellsAt a bs, known := s.log, tag := tag,
                    pc := 0, va := 0, pool := false, seq := id }
  settleWrite { s with nextId := id + 1, hist := NMap.put s.hist id r } id

/-- A hardware write to local memory, offset by offset. -/
def hwLocal (s : State) (core owner off : Nat) (bs : List Byte) : State :=
  match localLoc s core owner off with
  | some a => hwWrite s owner a bs
  | none => s

/-- New contents that count as initial: every write to the locations is forgotten (R73, R155). -/
def setInitial (s : State) (cells : List Host.Cell) : State :=
  let locs := cells.map Prod.fst
  let s := cells.foldl (fun s p => putByte s p.1 p.2) s
  { s with
    initMem := s.initMem.filter fun p => !locs.contains p.1
    poison := s.poison.filter fun u => !locs.contains u
    hist := s.hist.map fun p => (p.1, { p.2 with bytes := p.2.bytes.filter fun q => !locs.contains q.1 }) }

/-- Zeroes a bank (R155, R376): everything listed there goes. -/
def zeroBank (s : State) (core b : Nat) : State :=
  let lo := bankLoc core b
  let inB := fun (a : Nat) => decide (lo ≤ a) && decide (a < lo + 0x10000)
  let s := ((s.mem ++ s.wbuf).filter fun p => inB p.1).foldl (fun s p => putByte s p.1 0) s
  { s with
    initMem := s.initMem.filter fun p => !inB p.1
    poison := s.poison.filter fun u => !inB u
    hist := s.hist.map fun p => (p.1, { p.2 with bytes := p.2.bytes.filter fun q => !inB q.1 }) }

/-! ### The store queue (R76, R84, R91) -/

/-- Free entries of a bank's segment. -/
def segmentRoom (s : State) (k b : Nat) : Nat := 16 - ((ctxOf s k).queue.filter fun e => e.bank == b).length

/-- What a release issued now waits for (R84): every entry of the queue and every earlier load of the frame. -/
def releaseAfter (s : State) : List Nat × List Nat :=
  ((ctxOf s (curCtx s)).queue.map QEntry.id,
   (s.reads.filter fun r => r.ctx == curCtx s && r.frame == s.cur.2 && r.act == (curFrame s).act).map Read.id)

/-- Writes of the context to pool-coherent memory not yet published (R346): queued or settled. -/
def unpublished (s : State) (k : Nat) : List Nat :=
  (s.hist.filter fun p => p.2.pool && p.2.writer == .ctx k && (s.unpub.contains p.1 || !s.log.contains p.1)).map Prod.fst

/-- Writes of the context toward the host or peers not yet acknowledged (R230): queued or sent. -/
def unackedOf (s : State) (k : Nat) : List Nat :=
  ((ctxOf s k).queue.filterMap fun e =>
    match e.body with
    | .write w (.pa a) _ _ => if isWindow a then some w else none
    | _ => none) ++ s.unacked.filter fun w => (wrec s w).writer == .ctx k

/-- The machine no longer holds the write, which then drops out of every wait (R82, R98, R158, R281). -/
def forgotten (s : State) (w : Nat) : Bool :=
  (wrec s w).bytes.isEmpty && !(wrec s w).pool && !(s.reqs.any fun q => q.id == w)

/-- The id under which a write's publication stands at the pool port, apart from those of accesses. -/
def publishId (w : Nat) : Nat := 2 ^ 64 + w

/-- A pool-coherent write is published (R97). -/
def isPublished (s : State) (w : Nat) : Bool := (s.log.contains w && !s.unpub.contains w) || forgotten s w
/-- A write toward the host or a peer is acknowledged (R230). -/
def isAcked (s : State) (w : Nat) : Bool := (s.log.contains w && !s.unacked.contains w) || forgotten s w

/-- An ordered atomic that has arrived and is not applied, refused or in a window: the sequence numbers place it, and it holds nothing
back (R271; DEDUCED, log 66). -/
def unapplied (s : State) (w : Nat) : Bool :=
  (s.reqs.any fun q => q.id == w && (match q.kind with | .ordered _ _ _ _ state _ => state != 0 | _ => false))
    || s.rings.any fun r => r.2.groups.any fun g => g.2.window.any fun e => e.2.wid == w

/-- The release condition of an entry holds (R84, R346, R230). -/
def releasable (s : State) (k : Nat) (after reads pub acked : List Nat) : Bool :=
  ((ctxOf s k).queue.all fun e => !after.contains e.id)
    && (s.reads.all fun r => !reads.contains r.id)
    && (pub.all fun w => isPublished s w || unapplied s w)
    && (acked.all fun w => isAcked s w)

/-- A message of the issuing frame enters the queue with its release condition and tag (R91). -/
def msgEntry (s : State) (core owner : Nat) (b : Body) : QEntry :=
  { id := s.nextId, frame := s.cur.2, act := (curFrame s).act, bank := curBank s, body := .msg core owner b, share := none, weak := false, rel := true, held := false, lin := (curFrame s).lin,
    after := (releaseAfter s).1, reads := (releaseAfter s).2, pub := [], acked := [], tag := (ctxOf s (curCtx s)).known }

/-- Puts an entry at the tail of a context's queue. -/
def pushEntry (s : State) (k : Nat) (e : QEntry) : State :=
  let c := ctxOf s k
  setCtx { s with nextId := s.nextId + 1 } k { c with queue := c.queue ++ [e] }

/-- An unfinished vector command of the activation sends through the window (R319). -/
def windowTaken (s : State) (k frame act w : Nat) : Bool :=
  s.cmds.any fun c => c.ctx == k && c.frame == frame && c.act == act && !c.finished && (match c.kind with
    | .vec op _ _ a _ _ _ _ _ _ _ _ _ _ => (op == 0x12 || op == 0x13) && bits a 25 24 == w
    | _ => false)

/-- A vector command that is not done sends through a window of the frame, whichever of its activations issued it (R319). -/
def windowHeld (s : State) (k frame w : Nat) : Bool :=
  s.cmds.any fun c => c.ctx == k && c.frame == frame && (match c.kind with
    | .vec op _ _ a _ _ _ _ _ _ _ _ _ _ => (op == 0x12 || op == 0x13) && bits a 25 24 == w
    | _ => false)

/-- The close message of a window enters the queue (R174). -/
def pushClose (s : State) (k frame act w : Nat) (x : Window) (lin : Lin) : State :=
  pushEntry s k { id := s.nextId, frame := frame, act := act, bank := frame / 4,
                  body := .msg x.core (ctxOwner k) (.close x.hdr x.frame w), share := none, weak := false, rel := true, held := false, lin := lin,
                  after := (ctxOf s k).queue.map QEntry.id, reads := [], pub := [], acked := [], tag := [] }

/-- Windows of ended activations close, each after its last send, as the segment of their bank has room (R76, R174). -/
def closeOrphans (s : State) (k : Nat) : State :=
  s.orphans.foldl (fun s o =>
    if o.1 = k ∧ windowTaken s k o.2.1 o.2.2.1 o.2.2.2.1 = false ∧ 0 < segmentRoom s k (o.2.1 / 4) then
      pushClose { s with orphans := s.orphans.erase o } k o.2.1 o.2.2.1 o.2.2.2.1 o.2.2.2.2 { early := false, launch := none }
    else s) s

/-- The entry leaves the queue; a close message that waited for room takes it. -/
def dropEntry (s : State) (k id : Nat) : State :=
  let c := ctxOf s k
  closeOrphans (setCtx s k { c with queue := c.queue.filter fun e => e.id != id }) k

/-! ### Messages (R91, R202, R213) -/

/-- The core that a message crosses outputs from at once, none for one of the hardware, which crosses none (DESIGN CHOICE, log 60),
and for a free. -/
def senderCore (m : Msg) : Option Nat :=
  match m.body with
  | .tile src .. => some src
  | .free .. => none
  | _ => if ctxCore m.ctx < Config.cores then some (ctxCore m.ctx) else none

/-- Crossings that a message takes: one for every 64 bytes (R283). -/
def messageBeats (b : Body) : Nat :=
  match b with
  | .tile _ _ _ _ _ data _ _ => (data.length + 63) / 64
  | _ => 1

/-- A message goes into the fabric, where it joins the router outputs of its way (R17, R213); a free starts at the router of its
own ring, and crosses what the combined one crosses (R299). -/
def launch (s : State) (m : Msg) : State :=
  let s := { s with net := s.net ++ [m] }
  match senderCore m with
  | none => s
  | some c => (upto (messageBeats m.body)).foldl (fun s _ =>
      requestAt s m.owner m.id none (routePath (ringOfCore s c) (ringOfCore s m.core))) s

/-- A message the hardware sends at once. -/
def sendMsg (s : State) (k frame act core owner : Nat) (b : Body) (tag : List Nat) : State :=
  launch { s with nextId := s.nextId + 1 }
    { id := s.nextId, ctx := k, frame := frame, act := act, core := core, owner := owner, body := b, tag := tag }

/-- A request that R202 lists, of an activation of a deterministic lineage, is held for the quantum's end. -/
def heldKind : Body → Bool
  | .start _ => true
  | .tdec _ _ => true
  | .tinc _ _ => true
  | .barrier .. => true
  | _ => false

/-- The issuing frame sends a message: into the queue, or held under a deterministic lineage (R91, R202), where it waited for a free
entry of the queue as any message does and takes none (DESIGN CHOICE, log 102). -/
def post (s : State) (core owner : Nat) (b : Body) : State :=
  let e := msgEntry s core owner b
  match (curFrame s).lin.launch with
  | some (i, n) =>
    if heldKind b && !inHandler s && (recOf s i n).det then
      { s with nextId := s.nextId + 1,
               held := s.held ++ [{ iface := i, index := n, core := s.cur.1, act := (curFrame s).act, seq := s.nextId,
                                    ctx := curCtx s, frame := s.cur.2, entry := some e, state := 0, arm := none, tag := [] }] }
    else pushEntry s (curCtx s) e
  | none => pushEntry s (curCtx s) e

/-! ### Owed results (R133) -/

/-- Owes a register a result; d = g0 is owed too, so that an answer can be waited for. Numbers from 32 are the handler's
register file (R365). -/
def owe (s : State) (r : Reg) (id : Nat) (v : Option Word) : State :=
  setCur s { curFrame s with owed := (curFrame s).owed ++
    [{ id := id, reg := r.toNat + (if inHandler s then 32 else 0), val := v, learn := none }] }

/-- Gives an owed result its value, if the activation still runs. -/
def answer (s : State) (core frame act id : Nat) (v : Word) : State :=
  let f := frameOf s core frame
  if f.act = act ∧ f.st ≠ .free then
    setFrame s core frame { f with owed := f.owed.map fun o => if o.id = id then { o with val := some v } else o }
  else s

/-- The results of a frame that are owed to a register. -/
def owesReg (f : Frame) (r : Nat) : Bool := f.owed.any fun o => o.reg == r

/-- The issuing frame parks and executes the instruction again when the conditions hold (R127). -/
def park (s : State) (cs : List Cond) : State :=
  setCur s { curFrame s with st := .parked cs, since := s.clk }

/-- The issuing frame's instruction is complete but for an answer: PC moves on and the frame parks for it (R127). -/
def parkAnswer (s : State) (id : Nat) : State :=
  let s := setPc s (curPc s + 4)
  setCur s { curFrame s with st := .parked [.answer id], since := s.clk, granted := false, walked := [], wfault := [], retDue := true }

/-- An answer that is known now but returns later: it is owed to d, and the frame parks for it (R127, R133). -/
def parkValue (s : State) (d : Reg) (v : Word) : State :=
  parkAnswer (owe { s with nextId := s.nextId + 1 } d s.nextId (some v)) s.nextId

/-! ### Requests (R223, R263) -/

/-- Lane widths of a type (R266). -/
def amoLanes : AmoTy → List Nat
  | .i32 => [32]
  | .i64 => [64]
  | .f32 => [32]
  | .f64 => [64]
  | .bf16 => [16]
  | .p32 => [32, 32]
  | .pbf16 => [16, 16]

/-- Bytes of a type. -/
def amoBytes (t : AmoTy) : Nat := ((amoLanes t).foldl (· + ·) 0) / 8

/-- Bytes an operation accesses: 16 for `casq`, operation 8. -/
def amoSize (op : Nat) (t : AmoTy) : Nat := if op = 8 then 16 else amoBytes t

/-- Target of a request and the bytes it touches. -/
def reqTarget (q : Req) : Option (Tgt × Nat) :=
  match q.kind with
  | .amo op ty _ _ t _ _ => some (t, amoSize op ty)
  | .draw t _ => some (t, 8)
  | .lock _ pa _ _ => some (.pa pa, 8)
  | .ordered float _ pa _ _ _ => some (.pa pa, if float then 4 else 8)
  | _ => none

/-! ### Circular-buffer headers (R166-R168, R177) -/

/-- N of a header. -/
def slotsOf (h : Header) : Nat := 2 ^ h.log2n
/-- Local offset of slot j (R166). -/
def slotOff (h : Header) (j : Nat) : Nat := h.base * 64 + 64 * (j % slotsOf h)
/-- Difference of counts modulo 2^32. -/
def diff32 (a b : Nat) : Nat := (a + 2 ^ 32 - b % 2 ^ 32) % 2 ^ 32

/-- The header read from memory when it becomes live, none where it is not valid (R166, R167). -/
def readHeader (s : State) (core owner off : Nat) : Option Header :=
  let w0 := leValue (rdLocal s core owner off 8)
  let w1 := leValue (rdLocal s core owner (off + 8) 8)
  let w2 := leValue (rdLocal s core owner (off + 16) 8)
  let w3 := leValue (rdLocal s core owner (off + 24) 8)
  let base := w0 / 2 ^ 6 % 2 ^ 13
  let lg := w0 / 2 ^ 20 % 16
  let ok := decide (w0 % 2 ^ 6 = 0) && decide (w0 / 2 ^ 19 % 2 = 0) && decide (w0 / 2 ^ 24 % 2 ^ 8 = 0)
    && decide (w0 / 2 ^ 50 = 0) && decide (w1 / 2 ^ 21 % 2 ^ 11 = 0) && decide (w3 / 4 = 0)
    && decide (1 ≤ lg) && decide (lg ≤ 10) && decide (off % 32 = 0)
    && decide (off + 32 ≤ localSize s core owner)
    && decide (base * 64 + 64 * 2 ^ lg ≤ localSize s core owner)
  if ok then
    some { base := base, log2n := lg, hoff := w0 / 2 ^ 32 % 2 ^ 17, hv := w0 / 2 ^ 49 % 2 == 1, pcore := w1 % 2 ^ 13,
           pframe := w1 / 2 ^ 13 % 2 ^ 5, pwin := w1 / 2 ^ 18 % 4, pv := false, win := w1 / 2 ^ 32, head := w2 % 2 ^ 32, tail := w2 / 2 ^ 32, cb := false, pb := false,
           sparse := false, eaten := [], tags := [] }
  else none

/-- The live or readable header at an offset. -/
def headerAt (s : State) (k off : Nat) : Option Header :=
  match NMap.find (ctxOf s k).headers off with
  | some h => some h
  | none => readHeader s (ctxCore k) (ctxOwner k) off

/-- A header has a user (R167). -/
def headerLive (h : Header) : Bool := h.cb || h.pb || h.pv || h.hv

/-- No more headers may become live on the core for the owner (R167). -/
def headersFull (s : State) (k off : Nat) : Bool :=
  (NMap.find (ctxOf s k).headers off).isNone
    && decide (8 * (banksOf s (ctxCore k) (ctxOwner k)).length ≤ (ctxOf s k).headers.length)

/-- The fields of words 1 to 3 of a header (R166): first bit within the header, width, value. -/
def headerFields (h : Header) : List (Nat × Nat × Nat) :=
  [(64, 13, h.pcore), (77, 5, h.pframe), (82, 2, h.pwin), (84, 1, b2n h.pv), (96, 32, h.win), (128, 32, h.head),
   (160, 32, h.tail), (192, 1, b2n h.cb), (193, 1, b2n h.pb)]

/-- A field is written to memory: the bytes it lies in, the other bits of them kept (R167). -/
def writeField (s : State) (core owner off : Nat) (f : Nat × Nat × Nat) : State :=
  let o := off + f.1 / 8
  let n := (f.1 % 8 + f.2.1 + 7) / 8
  let old := leValue (rdLocal s core owner o n)
  let new := old % 2 ^ (f.1 % 8) + f.2.2 % 2 ^ f.2.1 * 2 ^ (f.1 % 8) + old / 2 ^ (f.1 % 8 + f.2.1) * 2 ^ (f.1 % 8 + f.2.1)
  hwLocal s core owner o (leBytes new n)

/-- A vector command that is not done has taken slots of the header: it is a user of it (R309). -/
def headerTaken (s : State) (k off : Nat) : Bool :=
  s.cmds.any fun c => c.ctx == k && (match c.kind with
    | .vec _ _ _ _ _ _ _ _ _ _ _ _ taken _ => taken.any fun x => x.2.1 == off
    | _ => false)

/-- Headers whose last user has gone stop being live (R167). -/
def reapHeaders (s : State) (k : Nat) : State :=
  setCtx s k { ctxOf s k with headers := (ctxOf s k).headers.filter fun p => headerLive p.2 || headerTaken s k p.1 }

/-- Changes a header: the live state, and in memory each field that changes; it stops being live with its last user (R167). -/
def setHeader (s : State) (k off : Nat) (h : Header) : State :=
  let c := ctxOf s k
  let old := match headerAt s k off with
    | some x => headerFields x
    | none => []
  let fs := (headerFields h).filter fun f => !old.contains f
  let s := setCtx s k { c with headers := if headerLive h || headerTaken s k off then NMap.put c.headers off h else NMap.del c.headers off }
  fs.foldl (fun s f => writeField s (ctxCore k) (ctxOwner k) off f) s

/-- The handler fields of word 0, which `mhdl` writes (R166, R176). -/
def writeHandlerField (s : State) (k off hoff : Nat) (hv : Bool) : State :=
  hwLocal s (ctxCore k) (ctxOwner k) (off + 4) (leBytes (hoff + b2n hv * 2 ^ 17) 4)

/-- A credit to the producer's window (R174). -/
def sendCredit (s : State) (k off : Nat) (h : Header) : State :=
  if h.pv then sendMsg s k 0 0 h.pcore (ctxOwner k) (.credit off h.tail h.pframe h.pwin) [] else s

/-- TAIL after the consumed slots that stand at it, with the others (R177). -/
def passEaten : Nat → Nat → List Nat → Nat × List Nat
  | 0, t, e => (t, e)
  | n + 1, t, e => if e.contains t then passEaten n ((t + 1) % 2 ^ 32) (e.filter fun x => x != t) else (t, e)

/-- Slot j is consumed: TAIL passes the longest run of consumed slots, one credit for each advance (R177). The counts of a header that
is live no more stay as they are, the slots of handlers that end then included: R167 and R177 differ there (DESIGN CHOICE, log 99). -/
def consumeSlot (s : State) (k off j : Nat) : State :=
  match NMap.find (ctxOf s k).headers off with
  | none => s
  | some h =>
    let eaten := if h.eaten.contains j then h.eaten else h.eaten ++ [j]
    let r := passEaten eaten.length h.tail eaten
    let h := { h with eaten := r.2, tail := r.1, tags := h.tags.filter fun p => decide (diff32 p.1 r.1 < 2 ^ 31) }
    let old := (NMap.get (ctxOf s k).headers off h).tail
    let s := setHeader s k off h
    if old = r.1 then s else sendCredit s k off h

/-! ### Starts (R179, R180, R136) -/

/-- A bank of the owner on the core whose run-queue segment has room (R179). -/
def runqBank (s : State) (k : Nat) : Option Nat :=
  (banksOf s (ctxCore k) (ctxOwner k)).find? fun b =>
    decide (((ctxOf s k).runq.filter fun p => p.1 == b).length < 64)

/-- Counts a wake event at a core (R381). -/
def wakeCore (s : State) (core : Nat) : State := setCore s core { coreOf s core with wakes := (coreOf s core).wakes + 1 }

/-- A ring's inbound queue has an entry free (R178). -/
def inboundRoom (s : State) (ring : Nat) : Bool := decide ((ringOf s ring).inbound.length < 256)

/-- An owner's entries that wait in the inbound queue of a ring: its inbound count there (R178). -/
def inboundCount (s : State) (ring owner : Nat) : Nat := ((ringOf s ring).inbound.filter fun e => e.1 == owner).length

/-- An item waits in the inbound queue of the core's ring (R158, R178); for a logical core that no physical core carries, the
manual names no ring, and it is the one that the number in its place would lie in (DESIGN CHOICE, log 85). -/
def holdInbound (s : State) (core owner : Nat) (h : Held) : State :=
  let r := ringOfCore s core
  setRing s r { ringOf s r with inbound := (ringOf s r).inbound ++ [(owner, h)] }

/-- The core that an item waits for. -/
def heldCore (s : State) : Held → Option Nat
  | .msg m => some m.core
  | .read id => (s.reads.find? fun r => r.id == id).bind fun r => match r.tgt with | .loc c _ => some c | _ => none
  | .write k id => ((ctxOf s k).queue.find? fun e => e.id == id).bind fun e => match e.body with
    | .write _ (.loc c _) _ _ => some c
    | _ => none
  | .req id => (s.reqs.find? fun q => q.id == id).bind fun q => match reqTarget q with
    | some (.loc c _, _) => some c
    | _ => none

/-- The start an item carries. -/
def heldStart : Held → Option Start
  | .msg m => (match m.body with | .start st => some st | _ => none)
  | _ => none

/-- The tile message an item is; a tile that waits for its landing slot holds up only its own group (R298). -/
def heldTile : Held → Option Msg
  | .msg m => (match m.body with | .tile .. => some m | _ => none)
  | _ => none

/-- Accesses and messages of an owner for a core, other than starts and tiles, that wait in the inbound queue. -/
def heldFor (s : State) (core owner : Nat) : List Held :=
  ((ringOf s (ringOfCore s core)).inbound.filter fun e =>
    e.1 == owner && heldCore s e.2 == some core && (heldStart e.2).isNone && (heldTile e.2).isNone).map Prod.snd

/-- An access or a message for an owner's local memory waits: no bank is there, or earlier ones wait still (R158). -/
def mustWait (s : State) (core owner : Nat) : Bool := (banksOf s core owner).isEmpty || !(heldFor s core owner).isEmpty

/-- One of a context waits also behind a start of the same context that waits for the core (R174). -/
def mustFollow (s : State) (core owner k : Nat) : Bool :=
  mustWait s core owner || (decide (ctxCore k < Config.cores) && (ringOf s (ringOfCore s core)).inbound.any fun e => match e.2 with
    | .msg m => m.ctx == k && m.core == core && (heldStart e.2).isSome
    | _ => false)

/-- Starts of an owner that wait in the inbound queue for a core, with their places there, in arrival order. -/
def startsWaiting (s : State) (core owner : Nat) : List (Nat × Start) :=
  ((upto (ringOf s (ringOfCore s core)).inbound.length).zip (ringOf s (ringOfCore s core)).inbound).filterMap fun e =>
    if e.2.1 = owner ∧ heldCore s e.2.2 = some core then (heldStart e.2.2).map fun st => (e.1, st) else none

/-- How entries of the inbound queue hold up later ones of an owner: any of them, and those that may not pass an early start
(R178, R181). What waits behind an early start alone holds up no non-early start, not even a later one of its own context, whose
messages R174 keeps in order (DESIGN CHOICE, log 80). -/
def heldUp (s : State) (owner : Nat) (l : List (Nat × Held)) : Bool × Bool :=
  l.foldl (fun b e =>
    if e.1 ≠ owner ∨ (heldTile e.2).isSome = true then b
    else match heldStart e.2, heldCore s e.2 with
      | some st, _ => (b.1 || !st.lin.early, b.2 || st.lin.early)
      | none, some c => (b.1 || !b.2 || (banksOf s c owner).isEmpty, b.2)
      | none, none => b) (false, false)

/-- Two tiles of one group on their way to one core (R298). -/
def sameGroup (x y : Msg) : Bool :=
  x.ctx == y.ctx && x.core == y.core && (match x.body, y.body with
    | .tile _ t _ _ _ _ _ _, .tile _ t' _ _ _ _ _ _ => t == t'
    | _, _ => false)

/-- The order of its owner lets an entry of a ring's inbound queue leave: those before it are gone, but that a non-early start
passes early ones and a tile waits for the tiles of its group alone (R178, R181, R298; DEDUCED, log 80). -/
def mayLeave (s : State) (ring i : Nat) : Bool :=
  let l := (ringOf s ring).inbound
  match l[i]? with
  | none => false
  | some (o, h) =>
    match heldTile h with
    | some m => (l.take i).all fun e => match heldTile e.2 with | some x => !sameGroup x m | none => true
    | none =>
      let b := heldUp s o (l.take i)
      match heldStart h with
      | some st => !b.1 && !(st.lin.early && b.2)
      | none => (heldCore s h).isNone || (!b.1 && !b.2)

/-- Starts of an owner for a core whose turn has come in the inbound queue (R178, R181). -/
def startsLeaving (s : State) (core owner : Nat) : List (Nat × Start) :=
  (startsWaiting s core owner).filter fun x => mayLeave s (ringOfCore s core) x.1

/-- Early activations of a bank (R181). -/
def earlyIn (s : State) (core b : Nat) : Nat :=
  ((upto 4).filter fun i => (frameOf s core (4 * b + i)).st != .free && (frameOf s core (4 * b + i)).lin.early).length

/-- The frame a start takes: the lowest free one of the owner's banks, an early one only where fewer than three early
activations are held (R126, R181). -/
def freeFrame (s : State) (core owner : Nat) (early : Bool) : Option Nat :=
  let bs := (banksOf s core owner).filter fun b => !early || decide (earlyIn s core b < 3)
  (bs.foldl (fun a b => a ++ (upto 4).map fun i => 4 * b + i) []).find? fun f => (frameOf s core f).st == .free

/-- A handler start that finds no free frame, as it would enter the run queue (R178; DESIGN CHOICE, log 84). -/
def handlerWaits (s : State) (core : Nat) (st : Start) : Bool := st.slot.isSome && (freeFrame s core st.owner st.lin.early).isNone

/-- A start may enter the run queue at once: it is no handler start that finds no free frame, which waits in the inbound queue; it has
an entry free, and nothing waits for the core that this one may not pass (R158, R174, R178, R179, R181). -/
def runqOpen (s : State) (core : Nat) (st : Start) : Bool :=
  !handlerWaits s core st && (runqBank s (ctxKey core st.owner)).isSome && (heldFor s core st.owner).isEmpty
    && !((startsWaiting s core st.owner).any fun x => !x.2.lin.early || st.lin.early)

/-- A start has an entry to go to, in the run queue or the inbound queue (R179). -/
def startRoom (s : State) (core : Nat) (st : Start) : Bool := runqOpen s core st || inboundRoom s (ringOfCore s core)

/-- The start of a message takes an entry of the run queue. -/
def pushRunq (s : State) (m : Msg) (st : Start) : State :=
  let k := ctxKey m.core st.owner
  match runqBank s k with
  | some b => setCtx s k { ctxOf s k with runq := (ctxOf s k).runq ++ [(b, st)] }
  | none => holdInbound s m.core st.owner (.msg m)

/-- A start request is put into the run queue, else the inbound queue (R178, R179). -/
def queueStart (s : State) (m : Msg) (st : Start) : State :=
  if runqOpen s m.core st then pushRunq s m st else holdInbound s m.core st.owner (.msg m)

/-- A start request reaches its core (R179, R381). -/
def arriveStart (s : State) (m : Msg) (st : Start) : State := queueStart (wakeCore s m.core) m st

/-- A start raised on the core itself is queued at once; while no entry is free for it, or an earlier one waits so, it waits in the
store queue of its context there (R178, R179). -/
def raiseStart (s : State) (core bank : Nat) (st : Start) : State :=
  let k := ctxKey core st.owner
  let behind := (s.net.any fun m => m.ctx == k && m.core == core && m.frame == 32)
    || (ctxOf s k).queue.any fun e => e.frame == 32
  let m : Msg := { id := s.nextId, ctx := k, frame := 32, act := 0, core := core, owner := st.owner, body := .start st, tag := st.tag }
  if startRoom s core st && !behind then arriveStart { s with nextId := s.nextId + 1 } m st
  else pushEntry s k { id := s.nextId, frame := 32, act := 0, bank := bank, body := .msg core st.owner (.start st), share := none,
                       weak := false, rel := true, held := false, lin := st.lin, after := [], reads := [], pub := [], acked := [],
                       tag := st.tag }

/-- A published slot of a buffer with a handler starts one activation (R177, R339). -/
def slotStart (s : State) (k off : Nat) (h : Header) (j len sender : Nat) (lin : Lin) (tag : List Nat) : State :=
  let core := ctxCore k
  let o := slotOff h j
  let data := rdLocal s core (ctxOwner k) o 8
  let regs : List (Nat × Word) :=
    if h.sparse then
      [(2, word (leValue (data.take 4))), (3, word (leValue (data.drop 4))), (4, word sender), (5, word len)]
    else [(2, word len), (3, word sender), (7, word (Config.ownWindow + o))]
  let bank := ((banksOf s core (ctxOwner k))[off / Config.bankBytes]?).getD 0
  raiseStart s core bank { owner := ctxOwner k, entry := h.hoff * 4, regs := regs, lin := lin, tag := tag, wid := 0, wfmt := 0,
                           launch := none, slot := some (off, j, h.sparse) }

/-- Publishes the slot at HEAD with its tag (R92, R173, R170). -/
def publishSlot (s : State) (k off len sender : Nat) (lin : Lin) (tag : List Nat) : State :=
  match NMap.find (ctxOf s k).headers off with
  | none => s
  | some h =>
    let j := h.head
    let h' := { h with head := (j + 1) % 2 ^ 32, tags := h.tags ++ [(j, tag)] }
    let s := setHeader s k off h'
    if h.hv then slotStart s k off h' j len sender lin tag else s

/-! ### Fault queue (R368-R370) -/

/-- Raises an MSI-X message (R390). -/
def raiseMsix (s : State) (iface vec : Nat) : State := { s with msix := s.msix ++ [(iface, vec)] }

/-- Adds one, saturating at 2^32 − 1, to a 32-bit field of a descriptor. -/
def descCount (s : State) (owner off : Nat) : State :=
  let d := (ownerOf s owner).desc
  if d = 0 then s
  else
    let v := rdNat s (d + off) 4
    if v < 2 ^ 32 - 1 then hwWrite s owner (d + off) (leBytes (v + 1) 4) else s

/-- The writes that a reader of WIDX is to know: the entry with every entry before it (R84, R370). -/
def widxTag (s : State) (d entry : Nat) : List Nat :=
  match (wrec s (lastSettled s (d + 16))).tag with
  | some t => insNat t.writes entry
  | none => [entry]

/-- One fault of an owner (R370): it takes a sequence number, and its entry is written or counted lost. The answer is
the number, none where the owner has no descriptor (R368). R6 names RO for software and no rule says that a store to such a field of
a descriptor in DRAM is dropped: the hardware goes on from what the field holds (DESIGN CHOICE, log 78). -/
def faultEntry (s : State) (owner kind cause sub core frame : Nat) (addr pc : Word) : Option Nat × State :=
  let w := ownerOf s owner
  let d := w.desc
  if d = 0 then (none, descCount s 0 44)
  else
    let base := rdNat s d 8
    let lg := rdNat s (d + 8) 8 % 32
    let widx := rdNat s (d + 16) 8
    let ridx := rdNat s (d + 24) 8
    let seq := rdNat s (d + 32) 8
    let lost := rdNat s (d + 40) 4
    let s := hwWrite s owner (d + 32) (leBytes (seq + 1) 8)
    if 4 ≤ lg ∧ lg ≤ 16 ∧ widx < ridx + 2 ^ lg then
      let w0 := cause + sub * 2 ^ 8 + owner * 2 ^ 16 + core * 2 ^ 28 + frame * 2 ^ 41 + kind * 2 ^ 48
        + b2n (lost != w.lostSeen) * 2 ^ 50
      let entry := s.nextId
      let s := hwWrite s owner (base + 32 * (widx % 2 ^ lg))
        (leBytes w0 8 ++ leBytes addr.toNat 8 ++ leBytes pc.toNat 8 ++ leBytes seq 8)
      -- WIDX is released after the entry's writes (R84, R370)
      let tag : Tag := { writes := widxTag s d entry, scope := .dev, core := core }
      let s := hwWrite s owner (d + 16) (leBytes (widx + 1) 8) (some tag)
      let s := setOwner s owner { ownerOf s owner with lostSeen := lost }
      (some seq, raiseMsix s w.iface w.vector)
    else (some seq, if lost < 2 ^ 32 - 1 then hwWrite s owner (d + 40) (leBytes (lost + 1) 4) else s)

/-- ERRORS of a lineage rises by one (R190, R194). -/
def countError (s : State) (l : Lin) : State :=
  match l.launch with
  | some (i, n) =>
    let r := recOf s i n
    setRec s i n { r with errors := Nat.min (r.errors + 1) (2 ^ 32 - 1) }
  | none => s

/-- A fault found by an engine or the memory system: KIND 1, nothing parks (R364). -/
def reportFault (s : State) (k frame cause : Nat) (addr pc : Word) : State :=
  (faultEntry s (ctxOwner k) 1 cause 0 (ctxCore k) frame addr pc).2

/-- A dropped remote access counts in RDROP (R158, R368). -/
def countDrop (s : State) (owner : Nat) : State := descCount s owner 48

/-! ### The end of an activation (R137, R174, R194, R325, R177) -/

/-- Unbinds a handle (R170, `hrel`). -/
def releaseHandle (s : State) (k : Nat) (h : Handle) : State :=
  match NMap.find (ctxOf s k).headers h.hdr with
  | none => s
  | some x => setHeader s k h.hdr (if h.producer then { x with pb := false } else { x with cb := false })

/-- The lease that an activation is a member of ends with it; the group's pending parts fail (R325, R329). -/
def failParts (s : State) (lease : Nat) : State :=
  let failed := s.cmds.filter fun c => match c.kind with | .car _ _ _ _ _ _ _ l => l == lease && !c.finished | _ => false
  let s := { s with cmds := s.cmds.map fun c =>
    match c.kind with
    | .car _ _ _ _ _ _ _ l => if l == lease then { c with finished := true } else c
    | _ => c }
  let firsts := failed.foldl (fun (a : List Cmd) c => if a.any fun x => x.ctx == c.ctx && x.frame == c.frame then a else a ++ [c]) []
  firsts.foldl (fun s c => countError (reportFault s c.ctx c.frame 0x0D 0 c.pc) c.lin) s

/-- A lease of a ring ends (R325): its members lose it, pending parts fail, accumulators and latches are gone. -/
def endLease (s : State) (ring : Nat) : State :=
  let r := ringOf s ring
  match r.lease with
  | none => s
  | some l =>
    failParts (setRing s ring { r with lease := none, freeFrom := s.clk + 1, freeSeen := slotsTo s 0 (s.clk + 1) }) l.id

/-- The last group command of a lease, its run's or `mrel`, is over once its own parts are done: the lease ends (R325). -/
def leaseOver (s : State) (ring lease : Nat) : State :=
  match (ringOf s ring).lease with
  | some l =>
    if l.id = lease ∧ l.run ≤ l.next ∧ (s.cmds.any fun c => match c.kind with
        | .car _ idx _ _ _ _ _ id => id == lease && idx == l.newest && c.finished
        | _ => false) = false then endLease s ring else s
  | none => s

/-- A lease under which no group command has started for 65,536 clk has ended (R325). -/
def expireLeases (s : State) : State :=
  s.rings.foldl (fun s p => match p.2.lease with
    | some l => if l.last + 65536 ≤ s.clk then endLease s p.1 else s
    | none => s) s

/-- Gives every member of a pending request its answer, and removes the request (R331). -/
def refuseLease (s : State) (ring id status : Nat) : State :=
  let r := ringOf s ring
  match r.pending.find? fun l => l.id == id with
  | none => s
  | some l =>
    let s := setRing s ring { r with pending := r.pending.filter fun x => x.id != id }
    l.members.foldl (fun s m =>
      let f := frameOf s m.core m.frame
      if f.act = m.act then setFrame s m.core m.frame { f with lease := some (status, m.core - l.first) } else s) s

/-- An activation's requests and lease at every carousel go with it (R325, R331). -/
def dropLeases (s : State) (core frame act : Nat) : State :=
  let mine := fun (m : Member) => m.core == core && m.frame == frame && m.act == act
  s.rings.foldl (fun s p =>
    let s := match (ringOf s p.1).lease with
      | some l => if l.members.any mine then endLease s p.1 else s
      | none => s
    ((ringOf s p.1).pending.filter fun l => l.members.any mine).foldl (fun s l => refuseLease s p.1 l.id 4) s) s

/-- Requests that are dropped leave every arbitration point, and their waits are not recorded (R220). -/
def cancelAt (s : State) (ids : List Nat) : State :=
  { s with points := s.points.map fun p => (p.1, { p.2 with queue := p.2.queue.filter fun q => !ids.contains q.id }) }

/-- Entries that requests hold at arbitration points are freed (R243, R262, R283). -/
def freeAt (s : State) (ids : List Nat) : State :=
  { s with points := s.points.map fun p => (p.1, { p.2 with busy := p.2.busy.filter fun q => !ids.contains q.id }) }

/-- The end of the activation in a frame, by `done` or by a terminating trap (R137, R194). -/
def endActivation (s : State) (core frame : Nat) : State :=
  let f := frameOf s core frame
  let k := ctxKey core f.owner
  let s := f.handles.foldl (fun s p => releaseHandle s k p.2) s
  let s := dropLeases s core frame f.act
  -- close messages follow the last send of each window (R174)
  let s := f.windows.foldl (fun s p =>
    if windowTaken s k frame f.act p.1 || segmentRoom s k (frame / 4) == 0 then
      { s with orphans := s.orphans ++ [(k, frame, f.act, p.1, p.2)] }
    else pushClose s k frame f.act p.1 p.2 f.lin) s
  let s := match f.launch with
    | some (i, n, arm) =>
      { s with nextId := s.nextId + 1,
               notices := s.notices ++ [({ id := s.nextId, ctx := k, frame := frame, act := f.act, core := core, owner := f.owner,
                                           body := .endNotice i n arm, tag := (ctxOf s k).known },
                                         (ctxOf s k).queue.map QEntry.id)] }
    | none => s
  let s := match f.slot with
    | some (h, j, sparse) => if sparse then s else consumeSlot s k h j
    | none => s
  let mine := fun (r : Read) => r.ctx == k && r.frame == frame && r.act == f.act
  let s := cancelAt { s with reads := s.reads.filter fun r => !mine r } ((s.reads.filter mine).map Read.id)
  -- a Free frame keeps its registers until its next activation (R44)
  wakeCore (setFrame s core frame { owner := f.owner, regs := f.regs, pc := f.pc, wid := f.wid, wfmt := f.wfmt, rmode := f.rmode,
                                    fflags := f.fflags, reply := f.reply }) core

/-! ### Taking a trap and returning (R364-R366, R381) -/

/-- A trap leaves the handler: the double trap of R366. -/
def doubleTrap (s : State) : State :=
  let c := curCore s
  let f := curFrame s
  let s := setCore s s.cur.1 { c with sup := false, hregs := Vector.replicate 32 0 }
  let cause := c.ecause.toNat % 256
  let s := (faultEntry s f.owner 2 cause (c.ecause.toNat / 256 % 256) s.cur.1 s.cur.2 c.eaddr c.epc).2
  let s := countError s f.lin
  descCount (endActivation s s.cur.1 s.cur.2) 0 56

/-- EPC, ECAUSE and EADDR of a trap, while the core runs no handler (R69, R365). -/
def writeTrapRegs (s : State) (cause sub : Nat) (addr pc : Word) (owner : Nat) : State :=
  let c := curCore s
  if c.sup then s
  else setCore s s.cur.1 { c with epc := pc, ecause := word (cause + sub * 2 ^ 8 + owner * 2 ^ 16), eaddr := addr }

/-- Terminating: the entry of KIND 2, ERRORS, and the end of the activation (R364). -/
def terminate (s : State) (core frame cause sub : Nat) (addr pc : Word) : State :=
  let f := frameOf s core frame
  let s := (faultEntry s f.owner 2 cause sub core frame addr pc).2
  endActivation (countError s f.lin) core frame

/-- Recoverable: an entry of KIND 0 and the frame parks; with no descriptor the activation ends (R364, R368). -/
def faultPark (s : State) (core frame cause : Nat) (addr pc : Word) (read : Option Nat) : State :=
  let f := frameOf s core frame
  match faultEntry s f.owner 0 cause 0 core frame addr pc with
  | (some seq, s) =>
    setFrame s core frame { frameOf s core frame with st := .parked [.fault seq addr cause read], since := s.clk }
  | (none, s) => endActivation (countError s f.lin) core frame

/-- Entry of the trap handler for TRAP and BRK (R365). -/
def enterHandler (s : State) (cause : Nat) : State :=
  let f := curFrame s
  let pc := f.pc
  if (banksOf s s.cur.1 0).isEmpty then
    terminate (writeTrapRegs s cause 0 0 pc f.owner) s.cur.1 s.cur.2 cause 0 0 pc
  else
    let ec := word (cause + f.owner * 2 ^ 16)
    let h : Vector Word 32 := Vector.replicate 32 0
    let h := (((h.set 2 ec).set 3 0).set 4 pc).set 5 (word (s.cur.2 + f.owner * 2 ^ 8))
    setCore s s.cur.1 { curCore s with sup := true, supFrame := s.cur.2, supFrom := s.nextId, hregs := h, hpc := word (curCore s).evec, epc := pc,
                                       ecause := ec, eaddr := 0 }

/-- A trap of the issuing frame, delivered by the outcome of its cause (R71, R364). A recoverable cause is XLAT, POOL,
and POISON for a load; `rec` says which the caller means. -/
def trap (s : State) (cause sub : Nat) (addr : Word) (recoverable : Bool := false) : State :=
  if inHandler s then doubleTrap s
  else if cause = 0x0E ∨ cause = 0x0F then enterHandler s cause
  else
    let pc := curPc s
    let s := writeTrapRegs s cause sub addr pc (curOwner s)
    if recoverable then faultPark s s.cur.1 s.cur.2 cause addr pc none
    else terminate s s.cur.1 s.cur.2 cause sub addr pc

/-- ILL for an operand value held in a register (SUB 4, R70); EADDR is the word (R57). -/
def illOperand (s : State) : State := trap s 0x01 4 ((curFrame s).word.setWidth 64)
/-- ALIGN (R71). -/
def alignTrap (s : State) (va : Word) : State := trap s 0x03 0 va
/-- PROT (R71). -/
def protTrap (s : State) (va : Word) : State := trap s 0x06 0 va
/-- ENGINE (R71). -/
def engineTrap (s : State) : State := trap s 0x0D 0 0

/-- Return from the handler (R381). -/
def trapReturn (s : State) : State :=
  let c := curCore s
  let s := setCore s s.cur.1 { c with sup := false, hregs := Vector.replicate 32 0 }
  setCur s { curFrame s with pc := c.epc, fbuf := [], owed := (curFrame s).owed.filter fun o => decide (o.reg < 32) }

/-! ### Translation (R152, R372-R374) -/

/-- What an address comes to: a physical address with its page, a local offset, a fault with its cause, or a
translation that no TLB holds. -/
inductive Where where
  | mem (pa : Nat) (x : Xlat)
  | loc (core off : Nat)
  | fault (cause : Nat)
  | miss
deriving DecidableEq, Repr

/-- A page may map this address with these attributes (R229, R230, R276, R344). -/
def attrOk (s : State) (x : Xlat) (pa : Nat) : Bool :=
  if isDram pa then x.treat != 3
  else if isWindow pa then x.treat == 2 && !x.swr && !x.shr
  else if isPool pa then (regionAt s pa).isSome && (x.treat == 2 || x.treat == 3) && !x.swr
  else false

/-- Permission for a read (0), a write (1) or both (2) (R373). -/
def permOk (x : Xlat) (acc : Nat) : Bool := (acc == 1 || x.rd) && (acc == 0 || x.wr)

/-- The entry of a TLB that maps an address. -/
def xlatHit (l : List Xlat) (owner va : Nat) : Option Xlat :=
  l.find? fun x => x.owner == owner && decide (x.page ≤ va) && decide (va < x.page + x.size)

/-- An access through a page: PROT, also where the instruction may not reach the page, POOL, or the address (R72, R98,
R373). -/
def through (s : State) (x : Xlat) (va acc : Nat) (ok : Nat → Xlat → Bool := fun _ _ => true) : Where :=
  let pa := x.pa + (va - x.page)
  if !attrOk s x pa || !permOk x acc || !ok pa x then .fault 0x06
  else if lostAt s pa then .fault 0x09
  else .mem pa x

/-- Decodes an address for an owner on a core (R152, R154, R158), with the translations at hand. -/
def whereIs (s : State) (core owner : Nat) (extra : List Xlat) (va : Word) (acc : Nat)
    (ok : Nat → Xlat → Bool := fun _ _ => true) : Where :=
  let v := va.toNat
  if 2 ^ 56 ≤ v then .fault 0x06
  else if Config.remoteWindow ≤ v then
    let c := v / 2 ^ 20 % 2 ^ 31
    let o := v % 2 ^ 20
    if 6144 ≤ c ∨ 0x60000 ≤ o then .fault 0x06 else .loc c o
  else if Config.ownWindow ≤ v then
    let o := v % 2 ^ 51
    if localSize s core owner ≤ o then .fault 0x06 else .loc core o
  else match xlatHit extra owner v with
    | some x => through s x v acc ok
    | none => match xlatHit (coreOf s core).tlb owner v with
      | some x => through s x v acc ok
      | none => match xlatHit (ringOf s (ringOfCore s core)).tlb owner v with
        | some x => through s x v acc ok
        | none => .miss

/-- The result of a walk: XLAT, PROT, or the page. -/
inductive WalkRes where
  | xlat
  | prot
  | page (x : Xlat)
deriving DecidableEq, Repr

/-- Entry fields that the 16 entries of a 64 KiB page share: all but PA (R373). -/
def entryRest (e : Nat) : Nat := e % 2 ^ 12 + e / 2 ^ 56 * 2 ^ 12

/-- A leaf at a level (R372, R373). -/
def walkLeaf (s : State) (owner va level e tab idx : Nat) : WalkRes :=
  let pa := e / 2 ^ 12 % 2 ^ 44 * 2 ^ 12
  let shr := e / 2 ^ 6 % 2 == 1
  let cont := e / 2 ^ 8 % 2 == 1
  let kidx := e / 2 ^ 56
  let mk := fun (page size pa : Nat) =>
    ({ owner := owner, page := page, size := size, pa := pa, rd := e / 4 % 2 == 1, wr := e / 8 % 2 == 1,
       treat := e / 16 % 4, shr := shr, swr := e / 2 ^ 7 % 2 == 1, kidx := kidx } : Xlat)
  if e / 2 ^ 9 % 8 ≠ 0 ∨ (kidx ≠ 0 ∧ !shr) ∨ (cont ∧ level ≠ 0) then .prot
  else if level = 2 then (if pa % 2 ^ 30 ≠ 0 then .prot else .page (mk (va / 2 ^ 30 * 2 ^ 30) (2 ^ 30) pa))
  else if level = 1 then (if pa % 2 ^ 21 ≠ 0 then .prot else .page (mk (va / 2 ^ 21 * 2 ^ 21) (2 ^ 21) pa))
  else if cont then
    let i0 := idx / 16 * 16
    let es := (upto 16).map fun j => rdNat s (tab + 8 * (i0 + j)) 8
    let b := (es.headD 0) / 2 ^ 12 % 2 ^ 44 * 2 ^ 12
    let ok := b % 2 ^ 16 == 0 && (upto 16).all fun j =>
      let x := es.getD j 0
      entryRest x == entryRest e && x / 2 ^ 12 % 2 ^ 44 * 2 ^ 12 == b + j * 4096
    if ok then .page (mk (va / 2 ^ 16 * 2 ^ 16) (2 ^ 16) b) else .prot
  else .page (mk (va / 2 ^ 12 * 2 ^ 12) (2 ^ 12) pa)

/-- One entry of a walk: its result, or the next table (R372, R373); a table that is not in device DRAM is PROT (DEDUCED,
log 82). A level is its number, the place of its index in the address, and the index width. -/
def walkEntry (s : State) (owner va tab : Nat) (l : Nat × Nat × Nat) : WalkRes ⊕ Nat :=
  let idx := va / 2 ^ l.2.1 % 2 ^ l.2.2
  let e := rdNat s (tab + 8 * idx) 8
  let leaf := e / 2 % 2 == 1
  if !isDram tab then .inl .prot
  else if e % 2 = 0 then .inl .xlat
  else if leaf then .inl (if l.1 ≥ 3 then .prot else walkLeaf s owner va l.1 e tab idx)
  else if l.1 = 0 ∨ e / 4 % 2 ^ 10 ≠ 0 ∨ e / 2 ^ 56 ≠ 0 then .inl .prot
  else .inr (e / 2 ^ 12 % 2 ^ 44 * 2 ^ 12)

/-- The levels of a shadow table, the root first (R372). -/
def walkOrder : List (Nat × Nat × Nat) := [(4, 48, 8), (3, 39, 9), (2, 30, 9), (1, 21, 9), (0, 12, 9)]

/-- One level after another of the shadow table (R372, R373). -/
def walkLevels (s : State) (owner va tab : Nat) : List (Nat × Nat × Nat) → WalkRes
  | [] => .prot
  | l :: r => match walkEntry s owner va tab l with
    | .inl x => x
    | .inr t => walkLevels s owner va t r

/-- A walk of the owner's shadow table as it stands (R372). -/
def walk (s : State) (owner va : Nat) : WalkRes := walkLevels s owner va (ownerOf s owner).root walkOrder

/-- The decision of R373 for one access. -/
def walkAccess (s : State) (owner va acc : Nat) (ok : Nat → Xlat → Bool := fun _ _ => true) : Where :=
  match walk s owner va with
  | .xlat => .fault 0x05
  | .prot => .fault 0x06
  | .page x => through s x va acc ok

/-- Where an address lies by the tables as they stand, for what reaches memory from no core's instruction, as the hardware's reads of a
stamp: they walk at once and cache nothing (R374, log 82). -/
def engineWhere (s : State) (core owner : Nat) (va : Word) (acc : Nat) (ok : Nat → Xlat → Bool := fun _ _ => true) : Where :=
  match whereIs s core owner [] va acc ok with
  | .miss => walkAccess s owner va.toNat acc ok
  | w => w

/-- Pages that walks have found for an access. -/
def walkedBy (s : State) (id : Nat) : List Xlat := (s.walked.filter fun x => x.id == id).filterMap Walked.xlat

/-- An address that no TLB translates, where a walk for the access has failed at its page: it faults (R374). -/
def walkFailed (s : State) (id : Nat) (va : Word) : Where :=
  match s.walked.find? fun x => x.id == id && x.page == va.toNat / 4096 && x.xlat.isNone with
  | some x => .fault x.cause
  | none => .miss

/-- Where an address lies for an access that reaches it from a core, with the results of the walks that it joined (R374). -/
def unitWhere (s : State) (core owner id : Nat) (va : Word) (acc : Nat) (ok : Nat → Xlat → Bool := fun _ _ => true) : Where :=
  match whereIs s core owner (walkedBy s id) va acc ok with
  | .miss => walkFailed s id va
  | w => w

/-- Translation by an engine of a ring, by the ring's TLB (R374): the local windows are those of the issuing core. -/
def ringWhere (s : State) (ring core owner id : Nat) (va : Word) (acc : Nat) : Where :=
  if Config.ownWindow ≤ va.toNat then whereIs s core owner [] va acc
  else match xlatHit (walkedBy s id ++ (ringOf s ring).tlb) owner va.toNat with
    | some x => through s x va.toNat acc
    | none => walkFailed s id va

/-- An access misses every TLB: it joins the walk of its page or waits for one, in its place by arrival (R374). -/
def missWalk (s : State) (kind : WalkFor) (ring core owner id : Nat) (va : Word) (acc : Nat) : State :=
  if s.walks.any fun w => w.id == id then s
  else { s with walks := s.walks ++ [{ for_ := kind, id := id, ring := ring, owner := owner, va := va, acc := acc, core := core, frame := 0,
                                       act := 0, pc := 0 }] }

/-- An access is over: the results of its walks go. -/
def dropWalked (s : State) (id : Nat) : State := { s with walked := s.walked.filter fun x => x.id != id }

/-- Puts a translation into a TLB of `cap` entries; a full one gives up a free choice (R374, log 22). -/
def tlbPut (l : List Xlat) (x : Xlat) (cap pick : Nat) : List Xlat :=
  let l := l.filter fun y => !(y.owner == x.owner && y.page == x.page && y.size == x.size)
  if l.length < cap then l ++ [x] else dropAt l (pick % cap) ++ [x]

/-- A walk of the issuing frame for an access begins, and the frame waits for it (R374). -/
def startWalk (s : State) (va : Word) (acc : Nat) : State :=
  let id := s.nextId
  let s := { s with nextId := id + 1,
                    walks := s.walks ++ [{ id := id, ring := ringOfCore s s.cur.1, owner := curOwner s, va := va, acc := acc,
                                           core := s.cur.1, frame := s.cur.2, act := (curFrame s).act, pc := curPc s }] }
  park s [.walk id]

/-- Where an address lies for the issuing frame: a page whose walk ended in XLAT or PROT faults (R374). -/
def whereCur (s : State) (va : Word) (acc : Nat) (ok : Nat → Xlat → Bool := fun _ _ => true) : Where :=
  match whereIs s s.cur.1 (curOwner s) (curFrame s).walked va acc ok with
  | .miss =>
    match NMap.find (curFrame s).wfault (va.toNat / 4096) with
    | some c => .fault c
    | none => .miss
  | w => w

/-- A trap for an address that does not translate or may not be accessed: XLAT and POOL park (R72, R364). -/
def whereTrap (s : State) (c : Nat) (va : Word) : State :=
  trap (setCur s { curFrame s with wfault := [] }) c 0 va (c == 0x05 || c == 0x09)

/-- Decodes an address for the issuing frame and continues: a miss walks, XLAT and POOL park, PROT ends; `ok` says which
pages the instruction may reach, else PROT, which ranks before POOL (R72, R152). -/
def withWhere (s : State) (va : Word) (acc : Nat) (k : Where → State) (ok : Nat → Xlat → Bool := fun _ _ => true) : State :=
  match whereCur s va acc ok with
  | .miss => startWalk s va acc
  | .fault c => whereTrap s c va
  | w => k w

end Sys2Proof.Machine
end

