-- ==== Sys2Proof/Machine/Operands.lean ====
section
/-! DEFINITION. The operand forms: immediates, displacements, effective addresses, and the registers a word reads and
writes (R48, R49, R60-R65). -/

namespace Sys2Proof.Machine

open Sys2Proof

/-- SEXT of a 16-bit immediate (R49). -/
def sext16 (i : BitVec 16) : Word := i.signExtend 64
/-- ZEXT of a 16-bit immediate (R49, `andi`). -/
def zext16 (i : BitVec 16) : Word := i.setWidth 64
/-- Target of a branch: PC + (SEXT(disp16) << 2) (R49). -/
def branchTarget (pc : Word) (p : BitVec 16) : Word := pc + (p.signExtend 64 <<< 2)
/-- Target of `jmp` and `jal`: PC + (SEXT(disp26) << 2) (R49). -/
def jumpTarget (pc : Word) (p : BitVec 26) : Word := pc + (p.signExtend 64 <<< 2)
/-- Effective address of a load or store: (a + SEXT(off11)) mod 2^64 (R162). -/
def effAddr (s : State) (a : Reg) (i : BitVec 11) : Word := rd s a + i.signExtend 64

/-- Registers a word reads, g0 left out (R60-R65, R127). -/
def wordReads (w : BitVec 32) : List Nat :=
  let d := (fD w).toNat
  let a := (fA w).toNat
  let b := (fB w).toNat
  let fn := (fFn w).toNat
  let m := (fOp w).toNat
  let l := match m with
    | 0x01 => if fn = 0x18 then [d, a, b] else if 0x18 < fn then [a] else [a, b]
    | 0x02 => [a, b]
    | 0x03 => [a]
    | 0x04 => [a]
    | 0x05 => [a]
    | 0x06 => [a]
    | 0x07 => [a]
    | 0x08 => [a]
    | 0x09 => [a]
    | 0x0A => [a]
    | 0x0B => [d, a]
    | 0x0E => if fn / 32 = 3 then [d, a, b] else [a, b]
    | 0x0F => if fn / 32 ≤ 2 then [a, b] else [a]
    | 0x10 => [a]
    | 0x11 => [d, a]
    | 0x12 => [d, a]
    | 0x13 => [d, a]
    | 0x14 => [d, a]
    | 0x15 => [d, a]
    | 0x16 => [d, a]
    | 0x17 => [d, a]
    | 0x18 => [d, a]
    | 0x19 => [d]
    | 0x1C => if fn = 3 then [a, b, 2, 3, 4, 5] else [a, b]
    | 0x1D => [a]
    | 0x1E => if (fImm w).toNat / 2 ^ 13 = 7 then [d, d + 1, a] else [d, a]
    | 0x20 => if fn / 64 = 8 then [d, d + 1, a, b, b + 1] else if fn / 64 = 7 then [d, a, b] else [a, b]
    | 0x21 => [d, a, b]
    | 0x23 => if fn = 0 ∨ fn = 6 then [d] else []
    | 0x24 => if fn = 1 then [a, b, 2, 3, 4, 5] else [a, b]
    | 0x27 => []
    | 0x38 => []
    | 0x0C => []
    | 0x0D => []
    | 0x1A => []
    | 0x1B => []
    | _ => [a, b]
  l.filter fun r => r != 0

/-- Registers a word writes, g0 left out (R60-R65, R127). -/
def wordWrites (w : BitVec 32) : List Nat :=
  let d := (fD w).toNat
  let fn := (fFn w).toNat
  let m := (fOp w).toNat
  let l := if 0x11 ≤ m ∧ m ≤ 0x18 then []
    else match m with
    | 0x1A => []
    | 0x1B => [1]
    | 0x1D => if (fImm w).toNat / 2 ^ 13 = 7 then [d, d + 1] else [d]
    | 0x1E => []
    | 0x20 => if fn / 64 = 8 then [d, d + 1] else [d]
    | 0x21 => []
    | 0x23 => if fn = 6 then [] else [d]
    | 0x39 => []
    | _ => [d]
  l.filter fun r => r != 0

end Sys2Proof.Machine
end

