-- ==== Sys2Proof/Machine/Scalar.lean ====
section
/-! DEFINITION. Integer, multiply and divide, immediate, shift, bit-field and constant instructions (R138-R144). -/

namespace Sys2Proof.Machine

open Sys2Proof

/-! ### Values (R138, R139) -/

/-- Shift amount b[5:0]. -/
def shamt (b : Word) : Nat := b.toNat % 64
/-- Signed reading of a word. -/
def sval (a : Word) : Int := a.toInt
/-- Count of leading zero bits, 64 for 0 (R138). -/
def clzFrom (a : Word) : Nat → Nat
  | 0 => 0
  | n + 1 => if a.getLsbD n then 0 else clzFrom a n + 1
/-- Count of trailing zero bits of the bits from i up, n of them (R138). -/
def ctzFrom (a : Word) (i : Nat) : Nat → Nat
  | 0 => 0
  | n + 1 => if a.getLsbD i then 0 else ctzFrom a (i + 1) n + 1
/-- Count of one bits below n (R138). -/
def popcBelow (a : Word) : Nat → Nat
  | 0 => 0
  | n + 1 => popcBelow a n + b2n (a.getLsbD n)
/-- Bit j to bit 63 − j (R138). -/
def brevWord (a : Word) : Word := (upto 64).foldl (fun r j => if a.getLsbD j then r ||| (1#64 <<< (63 - j)) else r) 0
/-- Byte j to byte 7 − j (R138). -/
def bswapWord (a : Word) : Word :=
  a.extractLsb' 0 8 ++ a.extractLsb' 8 8 ++ a.extractLsb' 16 8 ++ a.extractLsb' 24 8 ++ a.extractLsb' 32 8
    ++ a.extractLsb' 40 8 ++ a.extractLsb' 48 8 ++ a.extractLsb' 56 8
/-- Low word, sign-extended. -/
def sextLow (a : Word) (n : Nat) : Word := (a.setWidth n).signExtend 64
/-- Low word, zero-extended. -/
def zextLow (a : Word) (n : Nat) : Word := (a.setWidth n).setWidth 64
/-- Signed quotient (R139): all ones for b = 0; −2^63 for −2^63 ÷ −1, as the wrap of 2^63. -/
def divS (a b : Word) : Word := if b = 0 then allOnes else BitVec.ofInt 64 (a.toInt.tdiv b.toInt)
/-- Unsigned quotient (R139). -/
def divU (a b : Word) : Word := if b = 0 then allOnes else BitVec.ofNat 64 (a.toNat / b.toNat)
/-- Signed remainder, with the sign of a (R139). -/
def remS (a b : Word) : Word := if b = 0 then a else BitVec.ofInt 64 (a.toInt.tmod b.toInt)
/-- Unsigned remainder (R139). -/
def remU (a b : Word) : Word := if b = 0 then a else BitVec.ofNat 64 (a.toNat % b.toNat)
/-- Bits 127:64 of the signed product (R139). -/
def mulHi (a b : Word) : Word := BitVec.ofInt 64 ((a.toInt * b.toInt) / 2 ^ 64)
/-- Bits 127:64 of the unsigned product (R139). -/
def mulHiU (a b : Word) : Word := BitVec.ofNat 64 (a.toNat * b.toNat / 2 ^ 64)
/-- The field a[pos+len−1:pos] (R142). -/
def bfField (a : Word) (p l : BitVec 6) : Nat := a.toNat / 2 ^ p.toNat % 2 ^ (l.toNat + 1)
/-- `bfxs`: bit len − 1 copied up (R142). -/
def bfSigned (a : Word) (p l : BitVec 6) : Word :=
  let f := bfField a p l
  if f / 2 ^ l.toNat % 2 = 1 then BitVec.ofInt 64 ((f : Int) - 2 ^ (l.toNat + 1)) else word f
/-- `bfi`: bits of d replaced (R142). -/
def bfInsert (d a : Word) (p l : BitVec 6) : Word :=
  let m : Word := (BitVec.ofNat 64 (2 ^ (l.toNat + 1) - 1)) <<< p.toNat
  (d &&& ~~~m) ||| ((a <<< p.toNat) &&& m)

/-! ### Integer operations (R138) -/

/-- A two-source instruction that completes at issue. -/
def op2 (d a b : Reg) (g : Word → Word → Word) (s : State) : Res := .next (finish s d (g (rd s a) (rd s b)))
/-- A one-source instruction that completes at issue. -/
def op1 (d a : Reg) (g : Word → Word) (s : State) : Res := .next (finish s d (g (rd s a)))

/-- `add` (R138). -/
def execAdd (d a b : Reg) (s : State) : Res := op2 d a b (fun x y => x + y) s
/-- `sub` (R138). -/
def execSub (d a b : Reg) (s : State) : Res := op2 d a b (fun x y => x - y) s
/-- `and` (R138). -/
def execAnd (d a b : Reg) (s : State) : Res := op2 d a b (fun x y => x &&& y) s
/-- `or` (R138). -/
def execOr (d a b : Reg) (s : State) : Res := op2 d a b (fun x y => x ||| y) s
/-- `xor` (R138). -/
def execXor (d a b : Reg) (s : State) : Res := op2 d a b (fun x y => x ^^^ y) s
/-- `andn` (R138). -/
def execAndn (d a b : Reg) (s : State) : Res := op2 d a b (fun x y => x &&& ~~~y) s
/-- `orn` (R138). -/
def execOrn (d a b : Reg) (s : State) : Res := op2 d a b (fun x y => x ||| ~~~y) s
/-- `nor` (R138). -/
def execNor (d a b : Reg) (s : State) : Res := op2 d a b (fun x y => ~~~(x ||| y)) s
/-- `sll` (R138). -/
def execSll (d a b : Reg) (s : State) : Res := op2 d a b (fun x y => x <<< shamt y) s
/-- `srl` (R138). -/
def execSrl (d a b : Reg) (s : State) : Res := op2 d a b (fun x y => x >>> shamt y) s
/-- `sra` (R138). -/
def execSra (d a b : Reg) (s : State) : Res := op2 d a b (fun x y => x.sshiftRight (shamt y)) s
/-- `rol` (R138). -/
def execRol (d a b : Reg) (s : State) : Res := op2 d a b (fun x y => x.rotateLeft (shamt y)) s
/-- `ror` (R138). -/
def execRor (d a b : Reg) (s : State) : Res := op2 d a b (fun x y => x.rotateRight (shamt y)) s
/-- `slt` (R138). -/
def execSlt (d a b : Reg) (s : State) : Res := op2 d a b (fun x y => Word.ofBool (x.slt y)) s
/-- `sltn` (R138). -/
def execSltn (d a b : Reg) (s : State) : Res := op2 d a b (fun x y => Word.ofBool (x.ult y)) s
/-- `seq` (R138). -/
def execSeq (d a b : Reg) (s : State) : Res := op2 d a b (fun x y => Word.ofBool (x == y)) s
/-- `sne` (R138). -/
def execSne (d a b : Reg) (s : State) : Res := op2 d a b (fun x y => Word.ofBool (x != y)) s
/-- `min` (R138). -/
def execMin (d a b : Reg) (s : State) : Res := op2 d a b (fun x y => if x.slt y then x else y) s
/-- `max` (R138). -/
def execMax (d a b : Reg) (s : State) : Res := op2 d a b (fun x y => if x.slt y then y else x) s
/-- `minn` (R138). -/
def execMinn (d a b : Reg) (s : State) : Res := op2 d a b (fun x y => if x.ult y then x else y) s
/-- `maxn` (R138). -/
def execMaxn (d a b : Reg) (s : State) : Res := op2 d a b (fun x y => if x.ult y then y else x) s
/-- `adds1` (R138). -/
def execAdds1 (d a b : Reg) (s : State) : Res := op2 d a b (fun x y => x + (y <<< 1)) s
/-- `adds2` (R138). -/
def execAdds2 (d a b : Reg) (s : State) : Res := op2 d a b (fun x y => x + (y <<< 2)) s
/-- `adds3` (R138). -/
def execAdds3 (d a b : Reg) (s : State) : Res := op2 d a b (fun x y => x + (y <<< 3)) s
/-- `sel` (R138): d is read before it is written. -/
def execSel (d a b : Reg) (s : State) : Res := .next (finish s d (if rd s d ≠ 0 then rd s a else rd s b))
/-- `clz` (R138). -/
def execClz (d a : Reg) (s : State) : Res := op1 d a (fun x => word (clzFrom x 64)) s
/-- `ctz` (R138). -/
def execCtz (d a : Reg) (s : State) : Res := op1 d a (fun x => word (ctzFrom x 0 64)) s
/-- `popc` (R138). -/
def execPopc (d a : Reg) (s : State) : Res := op1 d a (fun x => word (popcBelow x 64)) s
/-- `brev` (R138). -/
def execBrev (d a : Reg) (s : State) : Res := op1 d a (fun x => brevWord x) s
/-- `bswap` (R138). -/
def execBswap (d a : Reg) (s : State) : Res := op1 d a (fun x => bswapWord x) s
/-- `sxb` (R138). -/
def execSxb (d a : Reg) (s : State) : Res := op1 d a (fun x => sextLow x 8) s
/-- `sxh` (R138). -/
def execSxh (d a : Reg) (s : State) : Res := op1 d a (fun x => sextLow x 16) s
/-- `sxw` (R138). -/
def execSxw (d a : Reg) (s : State) : Res := op1 d a (fun x => sextLow x 32) s
/-- `zxw` (R138). -/
def execZxw (d a : Reg) (s : State) : Res := op1 d a (fun x => zextLow x 32) s

/-! ### Multiply and divide (R139): the result is owed to d and RESULT_RETURN writes it -/

/-- A result that is written after the instruction's latency (R133, R134, R139). -/
def opLate (d a b : Reg) (g : Word → Word → Word) (s : State) : Res :=
  .next (retire4 (owe { s with nextId := s.nextId + 1 } d s.nextId (some (g (rd s a) (rd s b)))))

/-- `mul` (R139). -/
def execMul (d a b : Reg) (s : State) : Res := opLate d a b (fun x y => x * y) s
/-- `mulh` (R139). -/
def execMulh (d a b : Reg) (s : State) : Res := opLate d a b (fun x y => mulHi x y) s
/-- `mulhn` (R139). -/
def execMulhn (d a b : Reg) (s : State) : Res := opLate d a b (fun x y => mulHiU x y) s
/-- `mulw` (R139). -/
def execMulw (d a b : Reg) (s : State) : Res := opLate d a b (fun x y => sextLow (x * y) 32) s
/-- `div` (R139). -/
def execDiv (d a b : Reg) (s : State) : Res := opLate d a b (fun x y => divS x y) s
/-- `divn` (R139). -/
def execDivn (d a b : Reg) (s : State) : Res := opLate d a b (fun x y => divU x y) s
/-- `rem` (R139). -/
def execRem (d a b : Reg) (s : State) : Res := opLate d a b (fun x y => remS x y) s
/-- `remn` (R139). -/
def execRemn (d a b : Reg) (s : State) : Res := opLate d a b (fun x y => remU x y) s

/-! ### Immediates and shifts (R140, R141) -/

/-- `addi` (R140). -/
def execAddi (d a : Reg) (i : BitVec 16) (s : State) : Res := op1 d a (fun x => x + sext16 i) s
/-- `andi` (R140). -/
def execAndi (d a : Reg) (i : BitVec 16) (s : State) : Res := op1 d a (fun x => x &&& zext16 i) s
/-- `ori` (R140). -/
def execOri (d a : Reg) (i : BitVec 16) (s : State) : Res := op1 d a (fun x => x ||| sext16 i) s
/-- `xori` (R140). -/
def execXori (d a : Reg) (i : BitVec 16) (s : State) : Res := op1 d a (fun x => x ^^^ sext16 i) s
/-- `slti` (R140). -/
def execSlti (d a : Reg) (i : BitVec 16) (s : State) : Res := op1 d a (fun x => Word.ofBool (x.slt (sext16 i))) s
/-- `sltni` (R140). -/
def execSltni (d a : Reg) (i : BitVec 16) (s : State) : Res := op1 d a (fun x => Word.ofBool (x.ult (sext16 i))) s
/-- `slli` (R141). -/
def execSlli (d a : Reg) (k : BitVec 6) (s : State) : Res := op1 d a (fun x => x <<< k.toNat) s
/-- `srli` (R141). -/
def execSrli (d a : Reg) (k : BitVec 6) (s : State) : Res := op1 d a (fun x => x >>> k.toNat) s
/-- `srai` (R141). -/
def execSrai (d a : Reg) (k : BitVec 6) (s : State) : Res := op1 d a (fun x => x.sshiftRight k.toNat) s
/-- `roli` (R141). -/
def execRoli (d a : Reg) (k : BitVec 6) (s : State) : Res := op1 d a (fun x => x.rotateLeft k.toNat) s

/-! ### Bit fields and constants (R142-R144) -/

/-- `bfx` (R142). -/
def execBfx (d a : Reg) (p l : BitVec 6) (s : State) : Res := op1 d a (fun x => word (bfField x p l)) s
/-- `bfxs` (R142). -/
def execBfxs (d a : Reg) (p l : BitVec 6) (s : State) : Res := op1 d a (fun x => bfSigned x p l) s
/-- `bfi` (R142): d is read, then written. -/
def execBfi (d a : Reg) (p l : BitVec 6) (s : State) : Res := op2 d d a (fun x y => bfInsert x y p l) s
/-- `ldhi` (R143). -/
def execLdhi (d : Reg) (i : BitVec 21) (s : State) : Res := .next (finish s d (i.signExtend 64 <<< 16))
/-- `adpc` (R144). -/
def execAdpc (d : Reg) (i : BitVec 21) (s : State) : Res := .next (finish s d (curPc s + (i.signExtend 64 <<< 2)))

end Sys2Proof.Machine
end

