-- ==== Sys2Proof/Machine/Control.lean ====
section
/-! DEFINITION. Branches, jumps, `done`, calls and replies, the traps and the return from the handler (R137, R145-R148,
R188, R189, R365, R381). -/

namespace Sys2Proof.Machine

open Sys2Proof

/-! ### Branches (R146, R147) -/

/-- A branch: to the target where the condition holds, else to PC + 4. -/
def branchIf (c : Bool) (p : BitVec 16) (s : State) : Res :=
  .next (if c then jumpTo s (branchTarget (curPc s) p) else retire4 s)

/-- `beq` (R146). -/
def execBeq (a b : Reg) (p : BitVec 16) (s : State) : Res := branchIf (rd s a == rd s b) p s
/-- `bne` (R146). -/
def execBne (a b : Reg) (p : BitVec 16) (s : State) : Res := branchIf (rd s a != rd s b) p s
/-- `blt` (R146). -/
def execBlt (a b : Reg) (p : BitVec 16) (s : State) : Res := branchIf ((rd s a).slt (rd s b)) p s
/-- `bge` (R146). -/
def execBge (a b : Reg) (p : BitVec 16) (s : State) : Res := branchIf (!(rd s a).slt (rd s b)) p s
/-- `bltn` (R146). -/
def execBltn (a b : Reg) (p : BitVec 16) (s : State) : Res := branchIf ((rd s a).ult (rd s b)) p s
/-- `bgen` (R146). -/
def execBgen (a b : Reg) (p : BitVec 16) (s : State) : Res := branchIf (!(rd s a).ult (rd s b)) p s
/-- `bany` (R146). -/
def execBany (a b : Reg) (p : BitVec 16) (s : State) : Res := branchIf (rd s a &&& rd s b != 0) p s
/-- `bnone` (R146). -/
def execBnone (a b : Reg) (p : BitVec 16) (s : State) : Res := branchIf (rd s a &&& rd s b == 0) p s

/-- `dbnz` (R147). -/
def execDbnz (a : Reg) (p : BitVec 16) (s : State) : Res := branchIf (rd s a - 1 != 0) p (wr s a (rd s a - 1))

/-! ### Jumps (R148) -/

/-- `jmp` (R148). -/
def execJmp (p : BitVec 26) (s : State) : Res := .next (jumpTo s (jumpTarget (curPc s) p))
/-- `jal` (R148). -/
def execJal (p : BitVec 26) (s : State) : Res := .next (jumpTo (wr s 1 (curPc s + 4)) (jumpTarget (curPc s) p))
/-- `jr` (R148). -/
def execJr (a : Reg) (s : State) : Res :=
  if (rd s a).toNat % 4 ≠ 0 then commit s (alignTrap s (rd s a)) else .next (jumpTo s (rd s a))
/-- `jalr` (R148): a is read before d is written. -/
def execJalr (d a : Reg) (s : State) : Res :=
  if (rd s a).toNat % 4 ≠ 0 then commit s (alignTrap s (rd s a))
  else .next (jumpTo (wr s d (curPc s + 4)) (rd s a))

/-! ### The end of an activation (R137, R365) -/

/-- `done` (R137); in the handler it ends the trapped activation (R365). -/
def execDone (s : State) : Res :=
  let s1 := countRetire s
  let s2 := if inHandler s then setCore s1 s.cur.1 { coreOf s1 s.cur.1 with sup := false, hregs := Vector.replicate 32 0 } else s1
  commit s (endActivation s2 s.cur.1 s.cur.2)

/-! ### Calls and replies (R188, R189) -/

/-- A full store-queue segment parks the instruction (R76). -/
def needSegment (s : State) (n : Nat) (k : State → State) : State :=
  if segmentRoom s (curCtx s) (curBank s) < n then park s [.segment (curBank s)] else k s

/-- The start request of `callat`, `amsg` and `reply` (R136, R189, R175). -/
def callStart (s : State) (entry : Nat) (regs : List (Nat × Word)) : Body :=
  .start { owner := curOwner s, entry := entry, regs := regs, lin := (curFrame s).lin, tag := (ctxOf s (curCtx s)).known,
           wid := 0, wfmt := 0, launch := none, slot := none }

/-- g2 to g5 as arguments (R175, R189). -/
def args4 (s : State) : List (Nat × Word) := [(2, rd s 2), (3, rd s 3), (4, rd s 4), (5, rd s 5)]

/-- The call ticket (R188). -/
def ticket (s : State) : Word :=
  word ((curFrame s).reply * 4 + s.cur.1 * 2 ^ 19 + (ctxOf s (curCtx s)).callSeq * 2 ^ 32)

/-- `callat` (R189). -/
def execCallat (d a b : Reg) (s : State) : Res :=
  let t := rd s a
  let e := rd s b
  if 6144 ≤ t.toNat ∨ 2 ^ 19 ≤ e.toNat then commit s (illOperand s)
  else if e.toNat % 4 ≠ 0 then commit s (alignTrap s e)
  else commit s (needSegment s 1 fun s =>
    let tk := ticket s
    let b := callStart s e.toNat (args4 s ++ [(6, tk)])
    let s1 := setCtx s (curCtx s) { ctxOf s (curCtx s) with callSeq := ((ctxOf s (curCtx s)).callSeq + 1) % 2 ^ 32 }
    finish (post s1 t.toNat (curOwner s) b) d tk)

/-- `reply` (R189). -/
def execReply (a b : Reg) (s : State) : Res :=
  let t := rd s a
  let core := bits t 31 19
  if 6144 ≤ core then commit s (illOperand s)
  else if t.toNat % 4 ≠ 0 then commit s (alignTrap s t)
  else commit s (needSegment s 1 fun s =>
    retire4 (post s core (curOwner s) (callStart s (bits t 18 0) [(2, rd s b), (3, t)])))

/-! ### Traps (R365, R381) -/

/-- `trap` (R381): enters the handler with cause TRAP; in the handler it is a double trap (R366). -/
def execTrap (s : State) : Res := commit s (trap s 0x0E 0 0)
/-- `brk` (R381): enters the handler with cause BRK. -/
def execBrk (s : State) : Res := commit s (trap s 0x0F 0 0)
/-- `tret` (R381); like every instruction of the handler it counts in no QRET (log 37). -/
def execTret (s : State) : Res := commit s (if inHandler s then trapReturn s else retire4 s)

/-- `idle` (R381): parks until a wake event reaches the core; once woken it completes. -/
def execIdle (s : State) : Res :=
  if (curFrame s).granted then commit s (retire4 (setCur s { curFrame s with granted := false }))
  else commit s (park s [.wake (curCore s).wakes])

end Sys2Proof.Machine
end

