-- ==== Sys2Proof/Machine/Flags.lean ====
section
/-! DEFINITION. Floating formats, exact values, rounding and the FFLAGS each operation raises (R103-R114, R117). -/

namespace Sys2Proof.Machine

open Sys2Proof

/-- A binary format: exponent bits, fraction bits (R104). -/
structure Fmt where
  eb : Nat
  fb : Nat
deriving DecidableEq, Repr

/-- F64. -/
def fmtF64 : Fmt := { eb := 11, fb := 52 }
/-- F32. -/
def fmtF32 : Fmt := { eb := 8, fb := 23 }
/-- BF16. -/
def fmtBF16 : Fmt := { eb := 8, fb := 7 }
/-- F16. -/
def fmtF16 : Fmt := { eb := 5, fb := 10 }
/-- E8M10. -/
def fmtE8M10 : Fmt := { eb := 8, fb := 10 }

/-- The format of a format code (R61). -/
def fmtOfCode : FFmt → Fmt
  | .f64 => fmtF64
  | .f32 => fmtF32
  | .bf16 => fmtBF16
  | .f16 => fmtF16

/-- Bias of a format. -/
def bias (f : Fmt) : Int := 2 ^ (f.eb - 1) - 1
/-- Width of a format. -/
def fmtWidth (f : Fmt) : Nat := 1 + f.eb + f.fb
/-- The canonical NaN (R104). -/
def canonNaN (f : Fmt) : Nat := (2 ^ f.eb - 1) * 2 ^ f.fb + 2 ^ (f.fb - 1)
/-- An infinity. -/
def infBits (f : Fmt) (neg : Bool) : Nat := b2n neg * 2 ^ (f.eb + f.fb) + (2 ^ f.eb - 1) * 2 ^ f.fb
/-- The largest finite value. -/
def maxBits (f : Fmt) (neg : Bool) : Nat := b2n neg * 2 ^ (f.eb + f.fb) + (2 ^ f.eb - 1) * 2 ^ f.fb - 1

/-- FFLAGS bits (R55). -/
def flNV : Nat := 1
/-- DZ. -/
def flDZ : Nat := 2
/-- OF. -/
def flOF : Nat := 4
/-- UF. -/
def flUF : Nat := 8
/-- NX. -/
def flNX : Nat := 16

/-- The value of a bit pattern (R104); every E8M10 NaN is quiet. -/
def unpack (f : Fmt) (x : Nat) : FVal :=
  let fr := x % 2 ^ f.fb
  let ex := x / 2 ^ f.fb % 2 ^ f.eb
  let neg := x / 2 ^ (f.eb + f.fb) % 2 == 1
  if ex = 2 ^ f.eb - 1 then
    if fr = 0 then .inf neg else .nan (f != fmtE8M10 && fr / 2 ^ (f.fb - 1) % 2 == 0)
  else if ex = 0 then .fin neg fr (1 - bias f - f.fb)
  else .fin neg (fr + 2 ^ f.fb) (ex - bias f - f.fb)

/-- m × 2^e cut at 2^q: the quotient, the remainder and the divisor, exact (R109). -/
def cutAt (m : Nat) (e q : Int) : Nat × Nat × Nat :=
  if q ≤ e then (m * 2 ^ (e - q).toNat, 0, 1) else (m / 2 ^ (q - e).toNat, m % 2 ^ (q - e).toNat, 2 ^ (q - e).toNat)

/-- Whether the mode takes the next magnitude up (R109). -/
def roundsUp (rm : Nat) (neg : Bool) (n r d : Nat) : Bool :=
  match rm with
  | 0 => decide (d < 2 * r) || (decide (2 * r = d) && n % 2 == 1)
  | 1 => false
  | 2 => neg && decide (0 < r)
  | 3 => !neg && decide (0 < r)
  | _ => decide (d ≤ 2 * r) && decide (0 < r)

/-- A quotient rounded by the mode. -/
def roundNat (rm : Nat) (neg : Bool) (c : Nat × Nat × Nat) : Nat :=
  c.1 + b2n (roundsUp rm neg c.1 c.2.1 c.2.2)

/-- The exponent of the leading one of m × 2^e, for m > 0. -/
def leadExp (m : Nat) (e : Int) : Int := e + Nat.log2 m

/-- ROUND(fmt, v, mode) with the flags of the rounding (R109, R110): the pattern and the flags. A NaN is the canonical
NaN (R105). -/
def roundTo (f : Fmt) (rm : Nat) : FVal → Nat × Nat
  | .nan _ => (canonNaN f, 0)
  | .inf neg => (infBits f neg, 0)
  | .fin neg m e =>
    if m = 0 then (b2n neg * 2 ^ (f.eb + f.fb), 0)
    else
      let emin : Int := 1 - bias f
      let le := leadExp m e
      let c := cutAt m e ((if le < emin then emin else le) - f.fb)
      let n := roundNat rm neg c
      let q : Int := (if le < emin then emin else le) - f.fb
      let inexact := c.2.1 != 0
      if n = 0 then (b2n neg * 2 ^ (f.eb + f.fb), flUF + flNX)
      else
        let le' := leadExp n q
        if bias f < le' then
          ((if rm = 0 ∨ 4 ≤ rm ∨ (rm = 2 ∧ neg) ∨ (rm = 3 ∧ !neg) then infBits f neg else maxBits f neg), flOF + flNX)
        else
          let pat := if le' < emin then n else ((le' + bias f).toNat) * 2 ^ f.fb + (n * 2 ^ ((q - (le' - f.fb)).toNat) / 2 ^ (((le' - f.fb) - q).toNat)) % 2 ^ f.fb
          -- tiny: rounded as if the exponent were unbounded, below the smallest normal (R110)
          let c' := cutAt m e (le - f.fb)
          let tiny := decide (leadExp (roundNat rm neg c') (le - f.fb) < emin)
          (b2n neg * 2 ^ (f.eb + f.fb) + pat, (if inexact then flNX else 0) + (if inexact && tiny then flUF else 0))

/-- Flags of reading operands: NV for a signalling NaN (R105, R110). -/
def readFlags : List FVal → Nat
  | [] => 0
  | .nan true :: _ => flNV
  | _ :: r => readFlags r

/-- A NaN of either kind. -/
def isNaN : FVal → Bool
  | .nan _ => true
  | _ => false
/-- The sign of a value. -/
def signOf : FVal → Bool
  | .nan _ => false
  | .inf n => n
  | .fin n _ _ => n
/-- A zero of either sign. -/
def isZero : FVal → Bool
  | .fin _ 0 _ => true
  | _ => false
/-- The value negated. -/
def negV : FVal → FVal
  | .nan q => .nan q
  | .inf n => .inf (!n)
  | .fin n m e => .fin (!n) m e

/-- The signed mantissa at an exponent not above its own. -/
def mantAt (neg : Bool) (m : Nat) (e q : Int) : Int := (if neg then -1 else 1) * ((m * 2 ^ (e - q).toNat : Nat) : Int)

/-- x + y exactly, with NV (R119): an exact zero sum is +0, −0 in mode down; (−0) + (−0) is −0. -/
def addV (rm : Nat) : FVal → FVal → FVal × Nat
  | .nan _, _ => (.nan false, 0)
  | _, .nan _ => (.nan false, 0)
  | .inf a, .inf b => if a = b then (.inf a, 0) else (.nan false, flNV)
  | .inf a, _ => (.inf a, 0)
  | _, .inf b => (.inf b, 0)
  | .fin a m e, .fin b n g =>
    if m = 0 ∧ n = 0 then (.fin ((a && b) || rm == 2) 0 0, 0)
    else
      let q := if e ≤ g then e else g
      let v := mantAt a m e q + mantAt b n g q
      if v = 0 then (.fin (rm == 2) 0 0, 0) else (.fin (decide (v < 0)) v.natAbs q, 0)

/-- x × y exactly, with NV for 0 × ∞ (R119). -/
def mulV : FVal → FVal → FVal × Nat
  | .nan _, _ => (.nan false, 0)
  | _, .nan _ => (.nan false, 0)
  | .inf a, y => if isZero y then (.nan false, flNV) else (.inf (a != signOf y), 0)
  | x, .inf b => if isZero x then (.nan false, flNV) else (.inf (signOf x != b), 0)
  | .fin a m e, .fin b n g => (.fin (a != b) (m * n) (e + g), 0)

/-- z + x × y (R119): 0 × ∞ raises NV even beside a quiet NaN. -/
def fmaV (rm : Nat) (x y z : FVal) : FVal × Nat :=
  let p := mulV x y
  let r := addV rm p.1 z
  (r.1, Nat.lor p.2 r.2)

/-- x ÷ y: enough of the quotient, its last bit standing for a remainder (R119). -/
def divV : FVal → FVal → FVal × Nat
  | .nan _, _ => (.nan false, 0)
  | _, .nan _ => (.nan false, 0)
  | .inf _, .inf _ => (.nan false, flNV)
  | .inf a, y => (.inf (a != signOf y), 0)
  | x, .inf b => (.fin (signOf x != b) 0 0, 0)
  | .fin a m e, .fin b n g =>
    if n = 0 then (if m = 0 then (.nan false, flNV) else (.inf (a != b), flDZ))
    else
      let k := 70 + Nat.log2 n
      let q := m * 2 ^ k / n
      let r := m * 2 ^ k % n
      (.fin (a != b) (2 * q + b2n (r != 0)) (e - g - k - 1), 0)

/-- The integer square root, bit by bit from bit n − 1 down. -/
def isqrt (x : Nat) : Nat → Nat → Nat
  | 0, acc => acc
  | n + 1, acc => if (acc + 2 ^ n) * (acc + 2 ^ n) ≤ x then isqrt x n (acc + 2 ^ n) else isqrt x n acc

/-- √x (R119): its last bit stands for a remainder. -/
def sqrtV : FVal → FVal × Nat
  | .nan _ => (.nan false, 0)
  | .inf neg => if neg then (.nan false, flNV) else (.inf false, 0)
  | .fin neg m e =>
    if m = 0 then (.fin neg 0 0, 0)
    else if neg then (.nan false, flNV)
    else
      let odd := e.toNat % 2 + (-e).toNat % 2
      let m' := m * 2 ^ (odd + 130)
      let r := isqrt m' (Nat.log2 m' / 2 + 1) 0
      (.fin false (2 * r + b2n (r * r != m')) ((e - odd - 130) / 2 - 1), 0)

/-- Compares two values neither of which is a NaN: x < y; −0 equals +0. -/
def ltV : FVal → FVal → Bool
  | .nan _, _ => false
  | _, .nan _ => false
  | .inf a, .inf b => a && !b
  | .inf a, _ => a
  | _, .inf b => !b
  | .fin a m e, .fin b n g =>
    let q := if e ≤ g then e else g
    decide (mantAt a m e q < mantAt b n g q)

/-- x = y in value, neither a NaN. -/
def eqV (x y : FVal) : Bool := !isNaN x && !isNaN y && !ltV x y && !ltV y x

/-- x below y with −0 below +0 (R119, `fmin`). -/
def belowV (x y : FVal) : Bool := ltV x y || (eqV x y && signOf x && !signOf y)

/-- `fmin` or `fmax` of two patterns (R119): one NaN gives the other operand, two the canonical NaN. -/
def minMax (f : Fmt) (mx : Bool) (x y : Nat) : Nat :=
  let a := unpack f x
  let b := unpack f y
  if isNaN a && isNaN b then canonNaN f
  else if isNaN a then y
  else if isNaN b then x
  else if mx then (if belowV a b then y else x) else (if belowV b a then y else x)

/-- A value rounded to an integer by the mode: magnitude and whether it is inexact. -/
def roundInt (rm : Nat) (neg : Bool) (m : Nat) (e : Int) : Nat × Bool :=
  let c := cutAt m e 0
  (roundNat rm neg c, c.2.1 != 0)

/-- Least and greatest value of an integer type of w bits. -/
def intMin (sg : Bool) (w : Nat) : Int := if sg then -(2 ^ (w - 1) : Int) else 0
/-- Greatest value. -/
def intMax (sg : Bool) (w : Nat) : Int := if sg then 2 ^ (w - 1) - 1 else 2 ^ w - 1

/-- Conversion to an integer of w bits (R121): the value and the flags. -/
def toIntV (rm : Nat) (sg : Bool) (w : Nat) : FVal → Int × Nat
  | .nan _ => (0, flNV)
  | .inf neg => (if neg then intMin sg w else intMax sg w, flNV)
  | .fin neg m e =>
    let r := roundInt rm neg m e
    let v : Int := if neg then -(r.1 : Int) else r.1
    if v < intMin sg w then (intMin sg w, flNV)
    else if intMax sg w < v then (intMax sg w, flNV)
    else (v, if r.2 then flNX else 0)

/-- An integer as an exact value. -/
def intV (i : Int) : FVal := .fin (decide (i < 0)) i.natAbs 0

/-- The class bit of a pattern (R120). -/
def classOf (f : Fmt) (x : Nat) : Nat :=
  let ex := x / 2 ^ f.fb % 2 ^ f.eb
  match unpack f x with
  | .nan sg => if sg then 8 else 9
  | .inf neg => if neg then 0 else 7
  | .fin neg m _ => if m = 0 then (if neg then 3 else 4)
      else if ex = 0 then (if neg then 2 else 5) else (if neg then 1 else 6)

/-! ### Decode and coefficient tables (R100, R107, R111-R114, R123, R124) -/

/-- Decode entry of a code, +0 where never loaded (R100). -/
def decEntry (t : NMap (BitVec 19)) (c : Nat) : Nat := (NMap.get t c 0).toNat
/-- The value of a C8 code (R107). -/
def c8Value (t : NMap (BitVec 19)) (c : Nat) : FVal := unpack fmtE8M10 (decEntry t c)

/-- A code keeps the rule of R111 that it comes under. -/
def codeOk (t : NMap (BitVec 19)) (c : Nat) : Bool :=
  if c = 0 then decEntry t 0 == 0
  else if c < 0x80 then
    (match c8Value t c with | .fin _ _ _ => true | _ => false) && ltV (c8Value t (c - 1)) (c8Value t c)
  else decEntry t c == Nat.xor (decEntry t (c - 0x80)) (2 ^ 18)

/-- The first code that breaks R111, in its order; none for an encodable table. -/
def firstBad (t : NMap (BitVec 19)) : Option Nat := (upto 256).find? fun c => !codeOk t c

/-- CHK (R124). -/
def chkWord (t : NMap (BitVec 19)) : Word :=
  match firstBad t with
  | none => 1
  | some c => word (c * 2 ^ 8)

/-- The binary search of ENC: the largest j with E[j] ≤ m (R112). -/
def encSearch (t : NMap (BitVec 19)) (m : FVal) : Nat → Nat → Nat → Nat
  | 0, lo, _ => lo
  | g + 1, lo, hi =>
    if lo < hi then
      let mid := (lo + hi + 1) / 2
      if ltV m (c8Value t mid) then encSearch t m g lo (mid - 1) else encSearch t m g mid hi
    else lo

/-- ENC of a value (R112): code and flags. The table is encodable. -/
def encV (t : NMap (BitVec 19)) (x : FVal) : Nat × Nat :=
  match x with
  | .nan _ => (0, flNV)
  | .inf neg => (b2n neg * 2 ^ 7 + 0x7F, flOF + flNX)
  | .fin neg m e =>
    let a : FVal := .fin false m e
    let j := encSearch t a 8 0 0x7F
    let ej := c8Value t j
    let exact := eqV a ej
    let j' := if j < 0x7F ∧ !exact then
        let dl := (addV 0 a (negV ej)).1
        let dh := (addV 0 (c8Value t (j + 1)) (negV a)).1
        if ltV dh dl || (eqV dh dl && j % 2 == 1) then j + 1 else j
      else j
    (b2n neg * 2 ^ 7 + j', if eqV a (c8Value t j') then 0 else flNX)

/-- FMA in F32, nearest-even, with flags (R114). -/
def fma32 (x y z : Nat) : Nat × Nat :=
  let a := unpack fmtF32 x
  let b := unpack fmtF32 y
  let c := unpack fmtF32 z
  let r := fmaV 0 a b c
  let p := roundTo fmtF32 0 r.1
  (p.1, Nat.lor (readFlags [a, b, c]) (Nat.lor r.2 p.2))

/-- The segment of EVAL: the largest k with B[k] ≤ t, 0 below B0 (R114). -/
def segment (bs : List (BitVec 32)) (t : FVal) : Nat :=
  (upto bs.length).foldl (fun k i => if ltV t (unpack fmtF32 (bs.getD i 0).toNat) then k else i) 0

/-- EVAL (R114): result and flags. -/
def evalCoef (c : Coef) (x mode : Nat) : Nat × Nat :=
  let v := unpack fmtF32 x
  if isNaN v || c.s == 0 then (0x7FC00000, readFlags [v])
  else
    let t := if mode = 0 then x else x % 2 ^ 31
    let cs := c.coefs.getD (segment c.breaks (unpack fmtF32 t)) []
    let co := fun i => (cs.getD i 0).toNat
    let r1 := fma32 (co 3) t (co 2)
    let r2 := fma32 r1.1 t (co 1)
    let r3 := fma32 r2.1 t (co 0)
    let y := r3.1
    let y := if mode = 1 ∧ x / 2 ^ 31 % 2 = 1 ∧ !isNaN (unpack fmtF32 y) then Nat.xor y (2 ^ 31) else y
    (y, Nat.lor r1.2 (Nat.lor r2.2 r3.2))

/-- The reduction of `fred` (R123): r, k and flags. The sign of −k where k is 0 is not stated: here the opposite of q's, so −0
for q = +0 (DESIGN CHOICE, log 74). -/
def fredV (c : Coef) (x mode : Nat) : Nat × Int × Nat :=
  let a := unpack fmtF32 x
  let bad := (0x7FC00000, (0 : Int), flNV)
  match a with
  | .nan _ => bad
  | .inf _ => bad
  | .fin _ _ _ =>
    let m := (mulV a (unpack fmtF32 c.pinv.toNat)).1
    let q := roundTo fmtF32 0 m
    match unpack fmtF32 q.1 with
    | .nan _ => (0x7FC00000, 0, Nat.lor flNV q.2)
    | .inf _ => (0x7FC00000, 0, Nat.lor flNV q.2)
    | .fin neg qm qe =>
      let k := (roundInt (if mode ≤ 1 then 0 else 2) neg qm qe).1
      if 2 ^ 24 < k then (0x7FC00000, 0, Nat.lor flNV q.2)
      else
        let ki : Int := if neg then -(k : Int) else k
        let nk : FVal := .fin (!neg) k 0
        let r := fmaV 0 nk (unpack fmtF32 c.p.toNat) a
        let p := roundTo fmtF32 0 r.1
        (p.1, ki, Nat.lor q.2 (Nat.lor r.2 p.2))

end Sys2Proof.Machine
end

