-- ==== Sys2Proof/Machine/Issue.lean ====
section
/-! DEFINITION. Fetching, checking and choosing the word that issues (R68-R70, R127-R132, R145, R160, R164, R393,
R395), as `step` and ISSUE_DRAW use it. -/

namespace Sys2Proof.Machine

open Sys2Proof

/-- The location of the word at a PC of a frame, none beyond the owner's banks (R145). -/
def fetchLoc (s : State) (core owner : Nat) (pc : Word) : Option Nat := localLoc s core owner pc.toNat

/-- The word in memory at a location (R47). -/
def fetchWord (s : State) (a : Nat) : BitVec 32 := BitVec.ofNat 32 (rdNat s a 4)

/-- What issuing comes to: the step is over with a trap, or an instruction executes. -/
inductive Fetched where
  | stopped (s : State)
  | go (i : Instr) (s : State)

/-- Supervisor instructions (R67). -/
def supervisorOnly : Instr → Bool
  | .tret => true
  | .idle => true
  | .fresume _ _ _ => true
  | .tlbi _ _ => true
  | .bankctl _ _ => true
  | .ctxsave _ _ _ => true
  | .ctxload _ _ _ => true
  | .mfs _ n => decide (0x100 ≤ n.toNat)
  | .mts _ n => decide (0x100 ≤ n.toNat)
  | _ => false

/-- The first reader of a register that holds a status word acquires what the word stands for; a writer that does not
read it discards that (R96). -/
def learnRegs (s : State) (w : BitVec 32) : State :=
  let f := curFrame s
  if f.learn.isEmpty || inHandler s then s
  else
    let rs := wordReads w
    let ws := wordWrites w
    let got := (f.learn.filter fun p => rs.contains p.1).foldl (fun a p => a ++ p.2) []
    learn (setCur s { f with learn := f.learn.filter fun p => !(rs.contains p.1 || ws.contains p.1) }) (curCtx s) got

/-- Checks a word in the order of R68 and hands on its instruction; a failing word traps with no effect (R69). -/
def checkWord (s : State) (w : BitVec 32) : Fetched :=
  match decodeWord w with
  | .error e => .stopped (trap s 0x01 (rejectSub e) (w.setWidth 64))
  | .ok i =>
    if supervisorOnly i && curOwner s != 0 then .stopped (trap s 0x02 0 (w.setWidth 64))
    else .go i (learnRegs s w)

/-- Notes the word that issues; what an earlier instruction waited for is over. -/
def issueWord (s : State) (w : BitVec 32) : State :=
  setCur s { curFrame s with word := w, again := false, granted := false, walked := [], wfault := [], fenceAt := [] }

/-- Notes that the parked word executes again. -/
def reissueWord (s : State) : State := setCur s { curFrame s with again := false }

/-- The word of the issuing frame's fetch buffer at its PC (R164); the handler fetches from the bank. -/
def buffered (s : State) : Option (BitVec 32) :=
  match (curFrame s).fbuf with
  | (o, w) :: _ => if !inHandler s && o == (curPc s).toNat then some w else none
  | [] => none

/-- An instruction that issues is charged to its owner; a word that fails its checks is not (R69, R396). -/
def chargeIssued : Fetched → Fetched
  | .stopped s => .stopped s
  | .go i s => .go i (charge s (curOwner s) 1)

/-- Fetches the word at the PC and checks it: the buffer's first word, else the bank's (R164); FETCH beyond the banks
(R145), POISON for a poisoned word (R160). A word that parked has issued, and executes again as it was fetched (R127,
R164). -/
def fetchCheck (s : State) : Fetched :=
  let f := curFrame s
  if f.again then checkWord (reissueWord s) f.word
  else match fetchLoc s s.cur.1 (curOwner s) (curPc s) with
    | none => .stopped (trap s 0x04 0 (curPc s))
    | some a =>
      match buffered s with
      | some w => chargeIssued (checkWord (issueWord (setCur s { curFrame s with fbuf := f.fbuf.drop 1 }) w) w)
      | none =>
        if poisoned s a then .stopped (trap s 0x08 0 (curPc s))
        else chargeIssued (checkWord (issueWord s (fetchWord s a)) (fetchWord s a))

/-- The next word of a frame, as the core sees it before issue. -/
def nextWord (s : State) (c f : Nat) : Option (BitVec 32) :=
  let co := coreOf s c
  let fr := frameOf s c f
  if fr.again then some fr.word
  else if co.sup && co.supFrame == f then (fetchLoc s c 0 co.hpc).map (fetchWord s)
  else match fr.fbuf with
    | (o, w) :: _ => if o = fr.pc.toNat then some w else (fetchLoc s c fr.owner fr.pc).map (fetchWord s)
    | [] => (fetchLoc s c fr.owner fr.pc).map (fetchWord s)

/-- No result is owed to a register that the frame's next word reads or writes (R127, R133). -/
def owesNone (s : State) (c f : Nat) : Bool :=
  match nextWord s c f with
  | none => true
  | some w =>
    let co := coreOf s c
    let off := if co.sup && co.supFrame == f then 32 else 0
    let used := wordReads w ++ wordWrites w
    (frameOf s c f).owed.all fun o => !(used.any fun r => r + off == o.reg)

/-- QRET of a core has reached QUANTUM for the lineage of a frame (R201). -/
def quantumFull (s : State) (c : Nat) (f : Frame) : Bool :=
  match f.lin.launch with
  | some (i, n) => (recOf s i n).det && decide ((recOf s i n).quantum ≤ (ctxOf s (ctxKey c f.owner)).qret)
  | none => false

/-- A held request stands on its way, as the message it became (R202). -/
def onItsWay (s : State) (h : HeldReq) : Bool :=
  h.state == 2 && (match h.entry with | some e => s.net.any fun m => m.id == e.id | none => false)

/-- Requests of an ended quantum of a record are being served, after which issue resumes (R201, R202). -/
def quantumServed (s : State) (i n : Nat) : Bool :=
  s.held.any fun h => h.iface == i && h.index == n && (h.state == 1 || onItsWay s h)

/-- No activation of the frame's lineage issues on its core: its quantum is at its end there, or the requests of the last one are
being served (R201). The trap handler is no activation of it. -/
def quantumHeld (s : State) (c g : Nat) : Bool :=
  let co := coreOf s c
  let f := frameOf s c g
  !(co.sup && co.supFrame == g)
    && (quantumFull s c f || (match f.lin.launch with
        | some (i, n) => (recOf s i n).det && quantumServed s i n
        | none => false))

/-! ### What keeps a memory access Waiting (R127, R234, R235) -/

/-- The logical core of a physical core (R14). -/
def logicalOf (s : State) (p : Nat) : Nat :=
  match s.coreTable.find? fun q => q.2 == p with
  | some q => q.1
  | none => p

/-- The core whose L1 serves an address for an owner: its own, or the one of its ring that the fused map names (R235). -/
def l1Core (s : State) (core owner pa : Nat) : Nat :=
  match NMap.find (ringOf s (ringOfCore s core)).fused owner with
  | some f =>
    let l6 : BitVec 32 := BitVec.ofNat 32 (pa / 64)
    logicalOf s (ringOfCore s core * 16 + (l6 * f).toNat / 2 ^ 28)
  | none => core

/-- A copy still serves: a self-invalidating one until its expiry (R252). -/
def l1Live (s : State) (l : L1Line) : Bool := !(l.treat == 1 && decide (l.expiry ≤ s.clk))

/-- The L1 line of an owner that holds an address under a treatment. -/
def l1Line (s : State) (core owner pa treat : Nat) : Option L1Line :=
  (coreOf s (l1Core s core owner pa)).l1.find? fun l => l.owner == owner && l.pa == pa / 64 * 64 && l.treat == treat && l1Live s l

/-- The sectors whose L1 misses the context has outstanding (R234), with the accesses that issue again and wait for a walk, whose sectors
are not known yet. -/
def missesOf (s : State) (k : Nat) : List Nat :=
  s.reads.foldl (fun a r =>
    if r.ctx == k && r.miss && !r.parked then (match r.tgt with | .pa p => insNat a (p / 64) | .loc _ _ => a)
    else if r.ctx == k && r.mode == 0 && s.walks.any (fun w => w.id == r.id) then insNat a (2 ^ 80 + r.id)
    else a) []

/-- A weak load through a page finds no L1 copy (R234, R248). -/
def missesL1 (s : State) (k pa treat : Nat) : Bool :=
  treat % 4 != 2 && (l1Line s (ctxCore k) (ctxOwner k) pa (treat % 4)).isNone

/-- A frame holds an activation of a launch with FUSE (R235). -/
def ofFused (s : State) (f : Frame) : Bool :=
  f.st != .free && (match f.lin.launch with
    | some (i, n) => (recOf s i n).fuse
    | none => false)

/-- A launch of the owner with FUSE has activations in the ring (R235). -/
def fusedWanted (s : State) (owner ring : Nat) : Bool :=
  s.cores.any fun p => ringOfCore s p.1 == ring && p.2.frames.any fun f => f.2.owner == owner && ofFused s f.2

/-- A passage into or out of the fused state is due for an owner in a ring (R235). -/
def fusedDue (s : State) (owner ring : Nat) : Bool :=
  (ringOf s ring).leaving.contains owner || (ringOf s ring).entering.contains owner || (NMap.find (ringOf s ring).fused owner).isSome != fusedWanted s owner ring

/-- The address form of a weak load: base, displacement. -/
def weakLoad : Instr → Option (Reg × BitVec 11)
  | .ldB _ a .weak i => some (a, i)
  | .ldBn _ a .weak i => some (a, i)
  | .ldH _ a .weak i => some (a, i)
  | .ldHn _ a .weak i => some (a, i)
  | .ldW _ a .weak i => some (a, i)
  | .ldWn _ a .weak i => some (a, i)
  | .ldD _ a .weak i => some (a, i)
  | .ldQ _ a .weak i => some (a, i)
  | _ => none

/-- A word that accesses memory or maintains copies: loads, stores, atomics, ordered atomics, lock words, cache
maintenance (R58). -/
def memoryWord (w : BitVec 32) : Bool := [0x1D, 0x1E, 0x20, 0x21, 0x22, 0x26].contains (fOp w).toNat

/-- The frame's access is held back: no L1 miss entry is free for it (R234), or its owner's L1s pass into or out of the
fused state (R235). -/
def accessHeld (s : State) (c f : Nat) (w : BitVec 32) : Bool :=
  let s := { s with cur := (c, f) }
  let o := curOwner s
  let k := ctxKey c o
  (memoryWord w && fusedDue s o (ringOfCore s c))
    || (decide (16 ≤ (missesOf s k).length) && (match decodeWord w with
      | .ok i => (match weakLoad i with
        | some (a, d) => (match whereIs s c o (curFrame s).walked (effAddr s a d) 0 with
            | .mem pa x => missesL1 s k pa x.treat && !(missesOf s k).contains (pa / 64)
            | _ => false)
        | none => false)
      | .error _ => false))

/-- A target lies in a lost region, or is poisoned for a read. -/
def faultsNow (s : State) (owner : Nat) (t : Tgt) : Bool :=
  match t with
  | .pa a => lostAt s a || poisoned s a
  | .loc c o => (localLoc s c owner o).any (poisoned s)

/-- A load or a returning atomic of the frame is under way that would park it now: nothing after it issues (R406; DEDUCED, log 90). -/
def faultAhead (s : State) (c f : Nat) : Bool :=
  let co := coreOf s c
  let fr := frameOf s c f
  let mine := fun (k frame act id : Nat) =>
    ctxCore k == c && frame == f && act == fr.act && (!(co.sup && co.supFrame == f) || decide (co.supFrom ≤ id))
  (s.reads.any fun r => mine r.ctx r.frame r.act r.id && !r.parked && (faultsNow s (ctxOwner r.ctx) r.tgt
      || (match r.tgt with | .pa a => r.mode == 0 && (l1Line s c (ctxOwner r.ctx) a (r.treat % 4)).any L1Line.poison | .loc _ _ => false)))
    || s.reqs.any fun q => mine q.ctx q.frame q.act q.id && !q.parked && (match q.kind with
      | .amo _ _ ret _ (.pa a) _ _ => ret && lostAt s a
      | _ => false)

/-- Ready (R127): active, its word's registers free, its access not held back, and no fault ahead of it. -/
def frameReady (s : State) (c f : Nat) : Bool :=
  let fr := frameOf s c f
  fr.st == .active && owesNone s c f && !faultAhead s c f
    && (match nextWord s c f with | some w => !accessHeld s c f w | none => true)

/-- Clks that a gated bank has spent so since a frame of it became Ready (R132). -/
def gatedNow (s : State) (c : Nat) (f : Frame) (b : Nat) : Nat :=
  if (coreOf s c).gate.getLsbD b then s.clk + 1 - Nat.max f.since (NMap.get (coreOf s c).gatedAt b s.clk + 1) else 0

/-- Clks a frame has spent Ready and not gated since its last slot (R132): those it was Ready before it was last Waiting among them. -/
def readyWait (s : State) (c g : Nat) : Nat :=
  let f := frameOf s c g
  f.readyFor + (s.clk - f.since - f.gatedFor - gatedNow s c f (g / 4))

/-- The Ready age of a frame as a step ends (R128, R132): it starts afresh as the frame becomes Ready, and what it was is kept for
the record of R132 as the frame is Ready no more. A hold for a quantum's end takes no frame out of Ready (DESIGN CHOICE, log 69). -/
def ageFrame (old s : State) (c g : Nat) : State :=
  let f := frameOf s c g
  let was := frameReady old c g
  let is := frameReady s c g
  if is && !was then setFrame s c g { f with since := s.clk, gatedFor := 0 }
  else if was && !is && f.st == .active then setFrame s c g { f with readyFor := readyWait s c g, since := s.clk, gatedFor := 0 }
  else s

/-- Owners of which the fused state of a ring is due to change are noted (R235): the last launch with FUSE of one in it has ended, or
a launch with FUSE of another has come. -/
def noteFused (s : State) : State :=
  let s : State := { s with rings := s.rings.map fun r =>
    (r.1, { r.2 with leaving := r.2.fused.foldl (fun a p => if fusedWanted s p.1 r.1 then a else insNat a p.1) r.2.leaving }) }
  (s.cores.flatMap fun c => (c.2.frames.filter fun f => ofFused s f.2).map fun f => (ringOfCore s c.1, f.2.owner)).foldl (fun s p =>
    let r := ringOf s p.1
    if (NMap.find r.fused p.2).isSome then s else setRing s p.1 { r with entering := insNat r.entering p.2 }) s

/-- What every step brings (R128, R132, R235). -/
def stepEnd (old s : State) : State :=
  noteFused ((s.cores.flatMap fun c => c.2.frames.map fun f => (c.1, f.1)).foldl (fun s p => ageFrame old s p.1 p.2) s)

/-- The outcome of a step with what every step brings. -/
def ended (old : State) (r : Res) : Res :=
  match r with
  | .next s => .next (stepEnd old s)
  | r => r

/-- The frame's bank is gated (R130); the handler's frame is not (R365). -/
def frameGated (s : State) (c f : Nat) : Bool :=
  let co := coreOf s c
  !(co.sup && co.supFrame == f) && co.gate.getLsbD (f / 4)

/-- Frames of a core that may issue now (R128, R130, R131). -/
def eligibleFrames (s : State) (c : Nat) : List Nat :=
  let co := coreOf s c
  (co.frames.map Prod.fst).filter fun f =>
    (if co.sup then co.supFrame == f else true) && frameReady s c f && !quantumHeld s c f && !frameGated s c f

/-! ### Slots of a clk (R206, R207, R393, R395) -/

/-- The clk is a slot of the rail (R393). -/
def railSlot (s : State) (r : Nat) : Bool := decide (s.clk % 8 < 8 - railLevel s r)

/-- A core holds a bank. -/
def coreHasBank (s : State) (core : Nat) : Bool := (coreOf s core).banks.any fun p => p.2.valid

/-- The logical core that a physical core carries, none for a spare one. -/
def mappedTo (s : State) (p : Nat) : Option Nat :=
  match s.coreTable.find? fun x => x.2 == p with
  | some x => some x.1
  | none => if (NMap.find s.coreTable p).isSome then none else some p

/-- A physical core may receive the banks of a logical core (R380, R395). -/
def moveTarget (s : State) (l p : Nat) : Bool :=
  decide (p < Config.cores) && decide (p / 1536 = dieOfCore s l) && p != physCore s l
    && (match mappedTo s p with | some m => !coreHasBank s m | none => true)

/-- The die of a core has a core that its banks could move to (R395). -/
def targetExists (s : State) (l : Nat) : Bool := (upto 1536).any fun i => moveTarget s l (dieOfCore s l * 1536 + i)

/-- A hot core without a target issues on even clks only (R395). -/
def evenOnly (s : State) (c : Nat) : Bool := (coreOf s c).hot && !targetExists s c

/-- The clk is an issue slot of the core (R128, R393, R395). -/
def issueSlot (s : State) (c : Nat) : Bool := railSlot s 1 && !(decide (s.clk % 2 = 1) && evenOnly s c)

/-- Issue slots of a core that have passed with no ISSUE_DRAW: each has taken its draw (R128, log 3). -/
def missedIssue (s : State) (c : Nat) : Nat :=
  let co := coreOf s c
  if evenOnly s c then
    let lv := 8 - railLevel s 1
    let even := fun (x : Nat) => x / 8 * ((lv + 1) / 2) + (Nat.min (x % 8) lv + 1) / 2
    even s.clk - even co.lastSlot
  else missedSlots s 1 co.seen

/-- The issue stream of a logical core's physical core is brought to now, as that core may stop carrying it (R128, R228). -/
def leaveCore (s : State) (l : Nat) : State :=
  let p := pointOf s 0x09 (physCore s l)
  setPoint s 0x09 (physCore s l) { p with draw := skipStream p.draw (missedIssue s l), seen := Nat.max (coreOf s l).seen (slotsTo s 1 s.clk) }

/-- The issue stream of a core is brought to now, as what its slots are may change (R128, R207). -/
def settleIssue (s : State) (l : Nat) : State :=
  let s := leaveCore s l
  setCore s l { coreOf s l with seen := Nat.max (coreOf s l).seen (slotsTo s 1 s.clk), lastSlot := Nat.max (coreOf s l).lastSlot s.clk }

/-- A logical core goes on with the issue stream of the physical core that carries it now. -/
def joinCore (s : State) (l : Nat) : State :=
  let p := pointOf s 0x09 (physCore s l)
  let s := setPoint s 0x09 (physCore s l) { p with draw := skipStream p.draw (missedSlots s 1 p.seen), seen := Nat.max p.seen (slotsTo s 1 s.clk) }
  setCore s l { coreOf s l with seen := Nat.max p.seen (slotsTo s 1 s.clk), lastSlot := Nat.max (coreOf s l).lastSlot s.clk }

/-- The weight of an owner at a class (R22). -/
def weightOf (s : State) (o cls : Nat) : Nat := NMap.get (ownerOf s o).weights cls 0

/-- The owner whose interval holds u, owners ascending (R210). -/
def assignU (l : List (Nat × Nat)) (u : Nat) : Option Nat :=
  match l with
  | [] => none
  | (o, w) :: r => if u < w then some o else assignU r (u - w)

/-- Owners with a bank on the core, ascending (R129). -/
def residents (s : State) (c : Nat) : List Nat :=
  ((coreOf s c).banks.filter fun p => p.2.valid).foldl (fun a p => insNat a p.2.owner) []

/-- The frame of an owner that has been Ready the longest, lower number first on a tie (R128 step 4). -/
def oldestFrame (s : State) (c : Nat) (fs : List Nat) : Option Nat :=
  match fs with
  | [] => none
  | f :: r => some (r.foldl (fun b x => if (frameOf s c x).since < (frameOf s c b).since then x else b) f)

/-- Owner a frame issues for on its core. -/
def issueOwner (s : State) (c f : Nat) : Nat :=
  let co := coreOf s c
  if co.sup && co.supFrame == f then 0 else (frameOf s c f).owner

/-- A frame takes the issue slot for an owner: its wait is recorded, and its word issues in the machine's next step
(R128 step 4, R132). -/
def giveSlot (s : State) (c : Nat) (fs : List Nat) (o : Nat) (lent : Bool) : State :=
  match oldestFrame s c (fs.filter fun f => issueOwner s c f == o) with
  | none => s
  | some f =>
    let s := bumpCounter s o 0x09 (waitBin (readyWait s c f))
    let s := bumpCounter s o 0x09 (if lent then 17 else 16)
    { setFrame s c f { frameOf s c f with since := s.clk + 1, gatedFor := 0, readyFor := 0 } with cur := (c, f), issuing := true }

/-- The owner that a value of the issue stream assigns a slot of a core to (R23, R129, R210). -/
def assignIssue (s : State) (c u : Nat) : Option Nat :=
  assignU ((residents s c).map fun o =>
    (o, match (ringOf s (ringOfCore s c)).part with
        | some i => if (ownerOf s o).iface == i then weightOf s o 0x09 else 0
        | none => weightOf s o 0x09)) u

/-- The issue stream of a core with the slots that have passed (R128, log 3). -/
def issueStream (s : State) (c : Nat) : Stream := skipStream (pointOf s 0x09 (physCore s c)).draw (missedIssue s c)

/-- The owner that the issue draw of this clk assigns, whether or not the slot has been taken; none where the clk has no draw
(R128, R303). -/
def assignedNow (s : State) (c : Nat) : Option Nat :=
  if (coreOf s c).lastSlot = s.clk + 1 then (coreOf s c).assigned
  else if issueSlot s c then assignIssue s c ((drawStream (key0 s) 0x09 (inDie s c) (issueStream s c)).1 / 2 ^ 24)
  else none

/-- One issue slot of a core (R128-R132): the draw, the owner, its oldest Ready frame. While the handler runs the slot is
held by owner 0 (R131). The points of code 0x09 are kept by physical core: each core runs its own counter (R18, R228). -/
def issueSlotStep (s : State) (c : Nat) : State :=
  let stream := issueStream s c
  let s := setCore s c { coreOf s c with lastSlot := s.clk + 1, seen := slotsTo s 1 (s.clk + 1), assigned := none }
  let inst := inDie s c
  let p := pointOf s 0x09 (physCore s c)
  let p := { p with draw := stream }
  if !issueSlot s c then setPoint s 0x09 (physCore s c) p
  else
    let d := drawStream (key0 s) 0x09 inst p.draw
    let own := assignIssue s c (d.1 / 2 ^ 24)
    let s := setPoint s 0x09 (physCore s c) { p with draw := d.2 }
    let s := setCore s c { coreOf s c with assigned := own }
    let fs := eligibleFrames s c
    let os := fs.foldl (fun a f => insNat a (issueOwner s c f)) []
    if os.isEmpty then s
    else if (coreOf s c).sup then giveSlot s c fs 0 false
    else match own.filter fun o => os.contains o with
      | some o => giveSlot s c fs o false
      | none =>
        let b := drawStream (key0 s) 0x0A inst p.borrow
        let s := setPoint s 0x09 (physCore s c) { p with draw := d.2, borrow := b.2 }
        giveSlot s c fs (os.getD (b.1 / 2 ^ 24 % os.length) 0) true

/-- A core has an issue slot of this clk to take, in which a frame would issue (R128). -/
def coreDue (s : State) (c : Nat) : Bool :=
  decide ((coreOf s c).lastSlot ≤ s.clk) && issueSlot s c && !(eligibleFrames s c).isEmpty

/-- The first such core: no clk passes over its slot (R128, R400). -/
def dueCore (s : State) : Option Nat := (s.cores.find? fun p => coreDue s p.1).map Prod.fst

end Sys2Proof.Machine
end

