-- ==== Sys2Proof/Machine/Access.lean ====
section
/-! DEFINITION. What memory accesses share: locations of a target, the way through the fabric, refusals, the checks of
single-writer regions, faults of frames that do not issue (R73-R91, R152-R158, R210-R213, R264, R280, R281, R364). -/

namespace Sys2Proof.Machine

open Sys2Proof

/-! ### Locations (R73, R152, R153) -/

/-- A number that stands for a local byte no bank holds now; it is resolved when the access reaches the core (R158). -/
def unplaced (core owner off : Nat) : Nat := 2 ^ 100 + (core * 4096 + owner) * 2 ^ 20 + off

/-- First location of a target. -/
def tgtBase (s : State) (owner : Nat) : Tgt → Nat
  | .pa a => a
  | .loc c o => (localLoc s c owner o).getD (unplaced c owner o)

/-- The n locations from a base. -/
def locsFrom (a n : Nat) : List Nat := (upto n).map fun i => a + i

/-- The target of a decoded address. -/
def whereTgt : Where → Tgt
  | .mem pa _ => .pa pa
  | .loc c o => .loc c o
  | _ => .pa 0

/-- Treatment of a decoded address, 2 for local memory (R90), plus 4 on a single-writer page (R276). -/
def whereTreat : Where → Nat
  | .mem _ x => x.treat + b2n x.swr * 4
  | _ => 2

/-- The sharing key that places the line of a decoded address, none for the owner's K (R238). -/
def whereShare : Where → Option Nat
  | .mem _ x => if x.shr then some x.kidx else none
  | _ => none

/-- The write of an entry. -/
def entryWrite (e : QEntry) : Option Nat :=
  match e.body with
  | .write w _ _ _ => some w
  | _ => none

/-- The locations an entry writes. -/
def entryLocs (s : State) (owner : Nat) (e : QEntry) : List Nat :=
  match e.body with
  | .write _ t n _ => locsFrom (tgtBase s owner t) n
  | _ => []

/-- The locations of a read. -/
def readLocs (s : State) (r : Read) : List Nat := locsFrom (tgtBase s (ctxOwner r.ctx) r.tgt) r.len

/-- The location that stands for the capability state of a block (R277). -/
def capLoc (pa : Nat) : Nat := 2 ^ 90 + pa / 2 ^ 16

/-- Locations of a request; a `caccept` that waits to hold a region holds nothing back (R278). -/
def reqLocs (s : State) (q : Req) : List Nat :=
  match q.kind with
  | .cap op pa b => if op = 3 ∧ b = 1 then [] else [capLoc pa]
  | _ => match reqTarget q with
    | some (t, n) => locsFrom (tgtBase s (ctxOwner q.ctx) t) n
    | none => []

/-- Entries of a context's queue for any of the locations. -/
def entriesFor (s : State) (k : Nat) (locs : List Nat) : List Nat :=
  ((ctxOf s k).queue.filter fun e => !disjointNat (entryLocs s (ctxOwner k) e) locs).map QEntry.id

/-- The youngest queue entry of a context for one location (R82). -/
def youngest (s : State) (k a : Nat) : Option Nat :=
  ((ctxOf s k).queue.reverse.find? fun e => (entryLocs s (ctxOwner k) e).contains a).bind entryWrite

/-- Strong and acquire reads of the frame to any of the locations that are not served (R84). -/
def strongReads (s : State) (locs : List Nat) : List Nat :=
  (s.reads.filter fun r => r.ctx == curCtx s && r.frame == s.cur.2 && r.act == (curFrame s).act && decide (1 ≤ r.mode)
    && !disjointNat (readLocs s r) locs).map Read.id

/-- Back-invalidations of the port that serves an address (R97). -/
def queuedInvals (s : State) (pa : Nat) : List Nat :=
  match regionAt s pa with
  | some (_, r) => (NMap.get s.birq r.port []).map Inval.id
  | none => []

/-- A back-invalidation still stands in some queue. -/
def invalQueued (s : State) (id : Nat) : Bool := s.birq.any fun p => p.2.any fun v => v.id == id

/-! ### The way through the fabric (R17, R213, R411) -/

/-- A sector is present in its home slice (R237). -/
def sectorPresent (s : State) (pa : Nat) : Bool :=
  match findWay s (homeRing s pa) (pa / 256) with
  | some (_, w) => w.sectors.any fun x => x.1 == pa / 64 % 4
  | none => false

/-- A home slice may hold the sector: device DRAM under any treatment, live pool memory under treatment 3 (R248). -/
def sliceServes (s : State) (pa treat : Nat) : Bool :=
  isDram pa || (isPool pa && treat % 4 == 3 && (regionAt s pa).isSome && !lostAt s pa)

/-- The points an access from a ring crosses to a physical address: router outputs, the L2 port, and where the slice does
not hold the sector, or a write finds the pool line not exclusive, the pool port, or the DRAM port of another ring (R17, R342,
DEDUCED, log 61). -/
def memoryPath (s : State) (ring a treat : Nat) (write : Bool) : List (Nat × Nat) :=
  let home := homeRing s a
  let absent := !(sliceServes s a treat && sectorPresent s a)
  if isDram a then routePath ring home ++ [(0x03, home)] ++ (if absent && ring != home then [(0x05, home)] else [])
  else if isPool a then
    let asks := absent || (write && treat % 4 == 3 && !s.exclusive.contains (a / 256))
    routePath ring home ++ [(0x03, home)]
      ++ (match regionAt s a with | some (_, r) => if asks then [(0x0D, r.port)] else [] | none => [])
  else []

/-- The points an access of a core to a target crosses. -/
def accessPath (s : State) (core : Nat) (t : Tgt) (treat : Nat) (write : Bool) : List (Nat × Nat) :=
  match t with
  | .loc c _ => routePath (ringOfCore s core) (ringOfCore s c)
  | .pa a => memoryPath s (ringOfCore s core) a treat write

/-- The physical address of a target. -/
def tgtPa : Tgt → Option Nat
  | .pa a => some a
  | .loc _ _ => none

/-- What an access to a target is for, at the points it crosses. -/
def placeOf (t : Tgt) (treat : Nat) (share : Option Nat) : Option Place :=
  (tgtPa t).map fun a => { pa := a, treat := treat, share := share }

/-- An access of a context's core to a target joins the points of its way, an atomic the unit of its home slice after the others
(R211, R262). -/
def requestAccess (s : State) (core owner id : Nat) (t : Tgt) (treat : Nat) (share : Option Nat) (write atomic : Bool) : State :=
  requestAt s owner id (placeOf t treat share) (accessPath s core t treat write ++ (match t with
    | .pa a => if atomic then [(0x06, homeRing s a)] else []
    | .loc _ _ => []))

/-- An access made at once joins the points that its sectors cross from a ring; they time it alone (R17, R221; DESIGN CHOICE,
log 49). -/
def requestSectors (s : State) (ring owner id : Nat) (write : Bool) (ls : List Place) : State :=
  (firstBy (fun l => l.pa / 64) ls).foldl (fun s p =>
    requestAt s owner id (some { p with write := write }) (memoryPath s ring p.pa p.treat write)) s

/-! ### Tags (R85) -/

/-- The scope of a release's tag at a target (R85). -/
def tagScope (t : Tgt) (treat : Nat) : Scope :=
  match t with
  | .loc _ _ => .dev
  | .pa a => if isWindow a then .sys else if treat % 4 = 3 then .pool else .dev

/-- The tag a write of the issuing frame carries (R85). -/
def writeTag (s : State) (rel : Bool) (t : Tgt) (treat : Nat) : Option Tag :=
  if rel then some { writes := (ctxOf s (curCtx s)).known, scope := tagScope t treat, core := s.cur.1 }
  else (curFrame s).fence

/-! ### Refusals (R158, R281) -/

/-- A refused access: its refusal returns to the issuer. -/
def bounce (s : State) (k frame act cause : Nat) (addr pc : Word) (lin : Lin) (id : Nat) : State :=
  { s with refusals := s.refusals ++ [{ ctx := k, frame := frame, act := act, cause := cause, addr := addr, pc := pc, lin := lin, id := id }] }

/-- Capability state of the block of an address (R276, R277). -/
def capOf (s : State) (pa : Nat) : CapSt := NMap.get (ringOf s (homeRing s pa)).caps (pa / 2 ^ 16) {}
/-- Sets it. -/
def setCap (s : State) (pa : Nat) (c : CapSt) : State :=
  setRing s (homeRing s pa) { ringOf s (homeRing s pa) with caps := NMap.put (ringOf s (homeRing s pa)).caps (pa / 2 ^ 16) c }

/-- The context is a member of a reduction group of the slice (R277). -/
def isMember (s : State) (ring gid owner core : Nat) : Bool :=
  match NMap.find (ringOf s ring).groups gid with
  | some g => g.owner == owner && decide (g.first ≤ core) && decide (core < g.first + g.count)
  | none => false

/-- What an access to a single-writer region is, for the check of R280. -/
inductive Access where
  /-- A store, an engine write, `swap`, `cas`, `casq` or a lock operation. -/
  | store
  /-- `oadd`, `ofadd` or an integer `amo`. -/
  | integer
  /-- `fadd`, `fmin`, `fmax`; deterministic lineage or not. -/
  | floating (det : Bool)
deriving DecidableEq, Repr

/-- The check of R280. -/
def capAllows (s : State) (k pa : Nat) (a : Access) : Bool :=
  match (capOf s pa).holder with
  | .unheld => false
  | .context o c => ctxKey c o == k
  | .group g =>
    isMember s (homeRing s pa) g (ctxOwner k) (ctxCore k) && (match a with
      | .store => false
      | .integer => true
      | .floating det => det)

/-- The write is no longer one that the machine holds (R98, R281): it never settles. -/
def forgetWrite (s : State) (w : Nat) : State :=
  { s with hist := NMap.put s.hist w { wrec s w with bytes := [], pool := false } }

/-- A refused access at a single-writer region: DROPS rises (R281). -/
def countCapDrop (s : State) (pa : Nat) : State :=
  setCap s pa { capOf s pa with drops := Nat.min ((capOf s pa).drops + 1) (2 ^ 14 - 1) }

/-! ### Faults of frames that are not issuing (R364) -/

/-- The frame runs the handler now (R365). -/
def handlerOf (s : State) (core frame : Nat) : Bool := (coreOf s core).sup && (coreOf s core).supFrame == frame

/-- An access of a frame that runs the handler is the handler's own (R366). -/
def handlerIssued (s : State) (core frame id : Nat) : Bool := handlerOf s core frame && decide ((coreOf s core).supFrom ≤ id)

/-- An access that is not the activation's any more leaves; one whose activation the handler interrupts waits; one of the
handler is a double trap (R366); else the fault is taken. -/
def accessFault (s : State) (core frame act id : Nat) (gone fault : State → State) : State :=
  let f := frameOf s core frame
  if f.act ≠ act ∨ f.st = .free then gone s
  else if handlerIssued s core frame id then doubleTrap (gone { s with cur := (core, frame) })
  else if handlerOf s core frame then s
  else fault { s with cur := (core, frame) }

/-- A fault of an access that issues again parks its frame, with what the frame was parked on before (R71, R98, R364). -/
def parkFault (s : State) (core frame cause id : Nat) (va pc : Word) : State :=
  let f := frameOf s core frame
  let s := writeTrapRegs s cause 0 va pc f.owner
  match faultEntry s f.owner 0 cause 0 core frame va pc with
  | (some seq, s) =>
    let f := frameOf s core frame
    let old := match f.st with | .parked cs => cs | _ => []
    setFrame s core frame { f with st := .parked (old ++ [.fault seq va cause (some id)]), since := s.clk }
  | (none, s) => endActivation (countError s f.lin) core frame

/-- Faults of a parked frame, as sequence number, address and the access to issue again, none for the instruction itself. -/
def faultsIn (f : Frame) : List (Nat × Word × Option Nat) :=
  match f.st with
  | .parked cs => cs.filterMap fun c => match c with | .fault n a _ r => some (n, a, r) | _ => none
  | _ => []

/-- A frame is parked on a recoverable fault of one of its accesses. -/
def faultOn (f : Frame) (id : Nat) : Bool := (faultsIn f).any fun x => x.2.2 == some id

/-- A read leaves its way to wait on a fault. -/
def standBy (s : State) (id : Nat) : State :=
  cancelAt { s with reads := s.reads.map fun x => if x.id = id then { x with parked := true } else x } [id]

/-- The other half of a faulting `ld.q` has no effect either (R72, R364): it waits with this half, made anew where it was served
already, its value back with its register not written. -/
def parkOther (s : State) (r : Read) : State :=
  if r.pair = 0 then s
  else if s.reads.any fun x => x.id == r.pair then standBy s r.pair
  else
    let core := ctxCore r.ctx
    let f := frameOf s core r.frame
    let move := fun (n : Nat) => if r.id < r.pair then n + 8 else n - 8
    let x := { r with id := r.pair, pair := r.id, owed := r.pair, parked := true, miss := false,
                      va := if r.id < r.pair then r.va + 8 else r.va - 8,
                      tgt := match r.tgt with | .pa a => .pa (move a) | .loc c o => .loc c (move o) }
    let s := { s with reads := s.reads ++ [x] }
    setFrame s core r.frame { f with owed := f.owed.map fun o => if o.id = r.pair then { o with val := none } else o }

/-- A read consumes poison or reaches a lost region: its frame parks with the load's PC and issues the load again; a `ld.q` parks
once (R71, R72, R98, R99). -/
def parkRead (s : State) (r : Read) (cause : Nat) : State :=
  accessFault s (ctxCore r.ctx) r.frame r.act r.id (fun s => cancelAt { s with reads := s.reads.filter fun x => x.id != r.id } [r.id])
    fun s =>
      let s := standBy s r.id
      if r.pair ≠ 0 ∧ faultOn (frameOf s (ctxCore r.ctx) r.frame) r.pair = true then s
      else parkFault (parkOther s r) (ctxCore r.ctx) r.frame cause r.id r.va r.pc

/-! ### Record addresses (R186) -/

/-- A local address of either window for the issuing frame: core and offset (R152, R154, R158). -/
def localTarget (s : State) (va : Word) : Option (Nat × Nat) :=
  let v := va.toNat
  if 2 ^ 56 ≤ v then none
  else if Config.remoteWindow ≤ v then
    let c := v / 2 ^ 20 % 2 ^ 31
    let o := v % 2 ^ 20
    if 6144 ≤ c ∨ 0x60000 ≤ o then none else some (c, o)
  else if Config.ownWindow ≤ v then
    let o := v % 2 ^ 51
    if localSize s s.cur.1 (curOwner s) ≤ o then none else some (s.cur.1, o)
  else none

/-- An own-window address for the issuing frame. -/
def ownTarget (s : State) (va : Word) : Option Nat :=
  if Config.ownWindow ≤ va.toNat ∧ va.toNat < Config.remoteWindow then (localTarget s va).map Prod.snd else none

/-- Goes on once the release condition of R84 holds for the issuing frame. -/
def afterRelease (s : State) (k : State → State) : State :=
  let rel := releaseAfter s
  if (curFrame s).granted || releasable s (curCtx s) rel.1 rel.2 [] [] then k s else park s [.settled rel.1 rel.2]

/-- Messages the hardware sends for an owner come from no core's context; they arrive in any order. -/
def hwCtx (owner : Nat) : Nat := ctxKey Config.cores owner

/-- A decrement of one sent to a task record (R184, R195, R199, R272, R274). -/
def sendTdec (s : State) (owner : Nat) (rcd : Nat × Nat) (tag : List Nat) : State :=
  sendMsg s (hwCtx owner) 0 0 rcd.1 owner (.tdec rcd.2 1) tag

end Sys2Proof.Machine
end

