-- ==== Sys2Proof/Machine/Records.lean ====
section
/-! DEFINITION. The fields of tensor records (R286-R288). -/

namespace Sys2Proof.Machine

open Sys2Proof

/-! ### Tensor records (R286-R288) -/

/-- A word of a record. -/
def tWord (t : Tensor) (i : Nat) : Word := t.words.getD i 0
/-- FMT. -/
def tFmt (t : Tensor) : Nat := bits (tWord t 0) 4 0
/-- BKIND. -/
def tKind (t : Tensor) : Nat := bits (tWord t 0) 7 5
/-- Dk. -/
def tDim (t : Tensor) (k : Nat) : Nat := bits (tWord t 1) (16 * k + 15) (16 * k)
/-- The four dimensions. -/
def tDims (t : Tensor) : List Nat := (upto 4).map (tDim t)
/-- Sk. -/
def tStride (t : Tensor) (k : Nat) : Nat := bits (tWord t (2 + k / 2)) (k % 2 * 32 + 31) (k % 2 * 32)
/-- BASE. -/
def tBase (t : Tensor) : Nat := (tWord t 4).toNat
/-- SV. -/
def tScaled (t : Tensor) : Bool := bit (tWord t 5) 0
/-- Block size of BLK. -/
def tBlk (t : Tensor) : Nat := 16 * 2 ^ bits (tWord t 5) 2 1
/-- FMT that the scale record needs: N8 or F32 (R108). -/
def tScaleFmt (t : Tensor) : Nat := if bit (tWord t 5) 3 then 1 else 8
/-- SID. -/
def tScaleId (t : Tensor) : Nat := bits (tWord t 5) 15 8
/-- Element count. -/
def tCount (t : Tensor) : Nat := tDim t 0 * tDim t 1 * tDim t 2 * tDim t 3

/-- Bytes of an element type (R66). -/
def elemBytes (code : Nat) : Nat :=
  if code = 0 ∨ code = 7 ∨ code = 11 then 8
  else if code = 1 ∨ code = 6 ∨ code = 10 then 4
  else if code = 2 ∨ code = 3 ∨ code = 5 ∨ code = 9 then 2
  else 1

/-- Indices of the element at a linear place, i0 fastest (R287). -/
def tIndex (t : Tensor) (e : Nat) : Nat × Nat × Nat × Nat :=
  (e % tDim t 0, e / tDim t 0 % tDim t 1, e / (tDim t 0 * tDim t 1) % tDim t 2, e / (tDim t 0 * tDim t 1 * tDim t 2))

/-- Offset of the element at some indices (R287). -/
def tOffset (t : Tensor) (i : Nat × Nat × Nat × Nat) : Nat :=
  i.1 * tStride t 0 + i.2.1 * tStride t 1 + i.2.2.1 * tStride t 2 + i.2.2.2 * tStride t 3

/-- First address of a record: a local offset is one of the own window (R287). -/
def tStart (t : Tensor) : Nat := if tKind t = 0 then Config.ownWindow + tBase t else tBase t

/-- Address of the element at some indices. No rule says what one of 2^64 or more names, which a scatter or a masked element alone can
reach: it wraps modulo 2^64 (DESIGN CHOICE, log 109). -/
def tVa (t : Tensor) (i : Nat × Nat × Nat × Nat) : Word := word (tStart t + tOffset t i)

/-- The last byte a record addresses, from its first. -/
def tSpan (t : Tensor) : Nat :=
  tOffset t (tDim t 0 - 1, tDim t 1 - 1, tDim t 2 - 1, tDim t 3 - 1) + elemBytes (tFmt t) - 1

/-- Packed strides (R40). -/
def tPacked (t : Tensor) : Bool :=
  let b := elemBytes (tFmt t)
  tStride t 0 == b && tStride t 1 == b * tDim t 0 && tStride t 2 == b * tDim t 0 * tDim t 1
    && tStride t 3 == b * tDim t 0 * tDim t 1 * tDim t 2

end Sys2Proof.Machine
end

