-- ==== Sys2Proof/Machine/Home.lean ====
section
/-! DEFINITION. The home: which entries may settle and what settling does, and the home slices with their directory:
placement, victims, probes, eviction, the lookup of an access (R81, R82, R84, R97, R158, R174, R229, R230, R237-R255,
R280, R281, R345). -/

namespace Sys2Proof.Machine

open Sys2Proof

/-! ### The directory (R248-R250) -/

/-- Sets a way of a slice. -/
def setWay (s : State) (ring i : Nat) (w : Way) : State :=
  setRing s ring { ringOf s ring with ways := NMap.put (ringOf s ring).ways i w }

/-- The directory state of a sector: 0 I, 1 S, 2 E, 3 M. -/
def setSectorState (w : Way) (sec v : Nat) : Way :=
  { w with sectors := w.sectors.map fun x => if x.1 = sec then (x.1, x.2.1, v) else x }

/-- Exact entries of a sector. -/
def exactOf (w : Way) (sec : Nat) : List (Nat × Nat × Nat) := w.exact.filter fun x => x.1 == sec

/-- The sector has a coarse record. -/
def isCoarse (w : Way) (sec : Nat) : Bool := w.coarse.any fun x => x.1 == sec

/-- A sharer joins a sector's record: exact up to four, then coarse (R249); the only sharer holds the sector in E. -/
def withSharer (s : State) (w : Way) (sec core owner : Nat) : Way :=
  let mine := exactOf w sec
  let group := ringOfCore s core / 8
  if isCoarse w sec then
    { w with coarse := w.coarse.map fun x =>
        if x.1 = sec then (sec, insNat x.2.1 group, if x.2.2 = some owner then x.2.2 else none) else x }
  else if mine.contains (sec, core, owner) then w
  else if mine.length < 4 then
    setSectorState { w with exact := w.exact ++ [(sec, core, owner)] } sec (if mine.isEmpty then 2 else 1)
  else
    let gs := mine.foldl (fun a x => insNat a (ringOfCore s x.2.1 / 8)) [group]
    let o := if mine.all fun x => x.2.2 == owner then some owner else none
    setSectorState { w with exact := w.exact.filter (fun x => x.1 != sec), coarse := w.coarse ++ [(sec, gs, o)] } sec 1

/-- A sharer leaves a sector's exact record; with the last one the sector is in I (R249). -/
def withoutSharer (w : Way) (sec core owner : Nat) : Way :=
  let w' := { w with exact := w.exact.filter fun x => x != (sec, core, owner) }
  if w'.exact.length < w.exact.length && (exactOf w' sec).isEmpty then setSectorState w' sec 0 else w'

/-- The directory's record of an L1 line: its way and the sector, where the slice holds the line under a tracked
treatment. -/
def recordOf (s : State) (l : L1Line) : Option (Nat × Nat × Way) :=
  if l.treat = 0 ∨ l.treat = 3 then (findWay s (homeRing s l.pa) (l.pa / 256)).map fun p => (homeRing s l.pa, p) else none

/-- A dropped copy leaves its record; the manual does not say whether a dropped copy is reported (DESIGN CHOICE, log
62). -/
def unrecord (s : State) (core : Nat) (l : L1Line) : State :=
  match recordOf s l with
  | some (ring, i, w) => setWay s ring i (withoutSharer w (l.pa / 64 % 4) core l.owner)
  | none => s

/-- The context that issued a write. -/
def writerCtx (r : WRec) : Option Nat := match r.writer with | .ctx k => some k | _ => none

/-- The entry of a write in its context's queue, with its place. -/
def entryOf (s : State) (w : Nat) : Option (Nat × Nat × QEntry) :=
  match writerCtx (wrec s w) with
  | none => none
  | some k =>
    let q := (ctxOf s k).queue
    match (upto q.length).find? fun i => (q[i]?).any fun e => entryWrite e == some w with
    | some i => (q[i]?).map fun e => (k, i, e)
    | none => none

/-- The writes that a copy holds and that have still to settle (R251). -/
def liveDirty (s : State) (l : L1Line) : List Nat := l.dirty.filter fun w => (entryOf s w).isSome

/-- An entry takes a mark. -/
def mapEntry (s : State) (w : Nat) (f : QEntry → QEntry) : State :=
  match entryOf s w with
  | some (k, _, e) => setCtx s k { ctxOf s k with queue := (ctxOf s k).queue.map fun x => if x.id = e.id then f x else x }
  | none => s

/-- What a poisoned copy holds dirty as it goes stays poisoned on its way home (R256). -/
def keepPoison (s : State) (l : L1Line) : State :=
  if l.poison then l.dirty.foldl (fun s w => mapEntry s w fun e => { e with bad := true }) s else s

/-- Drops lines of one core's L1 (R82, Drop). -/
def dropL1 (s : State) (core : Nat) (p : L1Line → Bool) : State :=
  ((coreOf s core).l1.filter p).foldl (fun s l => unrecord (keepPoison s l) core l)
    (setCore s core { coreOf s core with l1 := (coreOf s core).l1.filter fun l => !p l })

/-- Replaces one line of an L1, matched by owner, address and treatment. -/
def putL1 (s : State) (core : Nat) (x : L1Line) : State :=
  setCore s core { coreOf s core with
    l1 := ((coreOf s core).l1.filter fun l => !(l.owner == x.owner && l.pa == x.pa && l.treat == x.treat)) ++ [x] }

/-- A tracked copy takes an L1 state, and its sector the directory state: a single holder has E or M (R248, R249). -/
def setMesi (s : State) (core : Nat) (l : L1Line) (v : Nat) : State :=
  let s := putL1 s core { l with mesi := v }
  match recordOf s l with
  | some (ring, i, w) => setWay s ring i (setSectorState w (l.pa / 64 % 4) v)
  | none => s

/-- The copy is the only one that the directory records for its sector (R249). -/
def soleHolder (s : State) (core : Nat) (l : L1Line) : Bool :=
  match recordOf s l with
  | some (_, _, w) => exactOf w (l.pa / 64 % 4) == [(l.pa / 64 % 4, core, l.owner)] && !isCoarse w (l.pa / 64 % 4)
  | none => false

/-! ### Settling (R81, R82, R84, R174, R280, R281, R345) -/

/-- A write still has to settle at one of the locations: it waits in a queue, or its request is not performed. Ordered atomics hold
back what follows them until they first arrive (R269), and are placed as they are applied (R271; DEDUCED, log 66). -/
def pendingAt (s : State) (v : Nat) (locs : List Nat) : Bool :=
  !s.log.contains v && !unapplied s v && (((wrec s v).bytes.any fun p => locs.contains p.1)
    || s.reqs.any fun q => q.id == v && !disjointNat (reqLocs s q) locs)

/-- Every write that precedes this one at some locations has settled (R81). -/
def precedersSettled (s : State) (known locs : List Nat) : Bool := known.all fun v => !pendingAt s v locs

/-- Some bytes from an address meet the bytes of a record. -/
def meetsRecord (va n : Nat) (t : Option Tensor) : Bool :=
  match t with
  | some t => decide (va ≤ tStart t + tSpan t) && decide (tStart t < va + n)
  | none => false

/-- The panel, with its scales, that a step part of a member reads: of the last `mlda` before it that has still to run, else
the one bound (R333). -/
def stepPanel (s : State) (k : Nat) (c : Cmd) (idx lease : Nat) (m : Member) : Option Tensor × Option Tensor :=
  (s.cmds.filter fun x => x.ctx == k && x.frame == c.frame && !x.finished).foldl (fun a x => match x.kind with
    | .car 3 i _ t sc _ _ l => if l = lease ∧ i < idx then (t, sc) else a
    | _ => a) (m.panel, m.pscale)

/-- A step part of the context with its number from `lo` up to the write of an entry has not run, and reads the panel that the entry
writes, through whichever window it writes it (R154, R337). -/
def panelMet (s : State) (k : Nat) (e : QEntry) (w lo : Nat) : Bool :=
  let va := match e.body with
    | .write _ (.loc c o) _ _ => if c = ctxCore k then Config.ownWindow + o else 0
    | _ => (wrec s w).va.toNat
  let n := match e.body with | .write _ _ n _ => n | _ => 0
  s.cmds.any fun c => c.ctx == k && !c.finished && decide (lo ≤ c.id) && decide (c.id < w) && (match c.kind with
    | .car 5 idx _ _ _ _ ring lease => (match (ringOf s ring).lease with
      | some l => l.id == lease && l.members.any fun m =>
          m.core == ctxCore k && m.frame == c.frame && m.act == c.act
            && (meetsRecord va n (stepPanel s k c idx lease m).1 || meetsRecord va n (stepPanel s k c idx lease m).2)
      | none => false)
    | _ => false)

/-- A step part that was issued before the entry and has not run still reads the panel that the entry writes (R337). -/
def panelHeld (s : State) (k : Nat) (e : QEntry) (w : Nat) : Bool := panelMet s k e w 0

/-- The entry at an index may settle: it is the oldest for its locations, its release condition holds (R84), writes that
precede it there have settled (R78, R81), it has been granted its slots (R211), no earlier part has still to read the panel it
writes (R337), earlier messages and remote stores of its context to the same core are there (R174), and a pool-coherent line is
held exclusive (R345). A remote-window store that names its own core is a store through its own window here (R154), which waits for no
message (DESIGN CHOICE, log 103). -/
def settleReady (s : State) (k idx : Nat) (e : QEntry) (w : Nat) (t : Tgt) (treat : Nat) : Bool :=
  let q := (ctxOf s k).queue
  let locs := entryLocs s (ctxOwner k) e
  let earlier := q.take idx
  !e.held && (earlier.all fun x => disjointNat (entryLocs s (ctxOwner k) x) locs)
    && releasable s k e.after e.reads e.pub e.acked
    && precedersSettled s (wrec s w).known locs && !standsAt s w
    && !panelHeld s k e w
    && (match t with
        | .pa a => !(treat % 4 == 3) || s.exclusive.contains (a / 256)
        | .loc c _ => c == ctxCore k
            || ((earlier.all fun x => match x.body with
                  | .msg c' _ _ => c' != c
                  | .write _ (.loc c' _) _ _ => c' != c
                  | _ => true)
                && (s.net.all fun m => !(m.ctx == k && m.core == c && decide (m.id < e.id)))))

/-- A refused or dropped write leaves its queue, is not held by the machine, and waits at no point (R158, R220, R281). -/
def discardEntry (s : State) (k : Nat) (e : QEntry) (w : Nat) : State := forgetWrite (cancelAt (dropEntry s k e.id) [w]) w

/-- A settled write leaves the dirty marks of its writer's copies, which hold it from then on; the poison of a copy
travels home with its bytes (R256). -/
def cleanL1 (s : State) (k pa w : Nat) : State :=
  let lc := l1Core s (ctxCore k) (ctxOwner k) pa
  match (coreOf s lc).l1.find? fun l => l.owner == ctxOwner k && l.pa == pa / 64 * 64 && l.dirty.contains w with
  | none => s
  | some l =>
    let l := { l with dirty := l.dirty.filter (fun x => x != w),
                      vals := (wrec s w).bytes.foldl (fun v p => NMap.put v p.1 w) l.vals }
    let s := if l.poison then { s with poison := insNat s.poison (poisonUnit pa) } else s
    if l.dirty.isEmpty && l.mesi == 3 then setMesi s lc l 2 else putL1 s lc l

/-- Energy of an access to a sector: of its home slice, of a beat of uncached pool memory, or of a flit to a peer; the manual names
none for the host port (R396). -/
def accessEnergy (pa treat : Nat) : Nat :=
  if isWindow pa then (if Config.peerBase ≤ pa then 40 else 0) else if isPool pa && treat % 4 == 2 then 20 else 3

/-- The write of an entry enters the write set at its home (R81, R82), or is dropped or refused there. -/
def settleEntry (s : State) (k : Nat) (e : QEntry) (w : Nat) (t : Tgt) (treat : Nat) : State :=
  let owner := ctxOwner k
  let r := wrec s w
  let vals := r.bytes.map Prod.snd
  match t with
  | .loc c o =>
    match localLoc s c owner o with
    | none => countDrop (discardEntry s k e w) owner
    | some a =>
      let s := { s with hist := NMap.put s.hist w { r with bytes := cellsAt a vals } }
      let s := if c = ctxCore k then s else wakeCore s c
      dropEntry (settleWrite s w) k e.id
  | .pa a =>
    if decide (4 ≤ treat) && !capAllows s k a .store then
      bounce (countCapDrop (discardEntry s k e w) a) k e.frame e.act 0x07 r.va r.pc e.lin e.id
    else if isWindow a then
      let lost := decide (Config.peerBase ≤ a) && s.linksLost.contains (a / 2 ^ 34 % 16)
      if lost then countDrop (discardEntry s k e w) owner
      else dropEntry (charge { s with log := w :: s.log, unacked := s.unacked ++ [w] } owner (accessEnergy a treat)) k e.id
    else
      let s := cleanL1 (settleWrite s w) k a w
      let s := if e.bad then { s with poison := insNat s.poison (poisonUnit a) } else s
      charge (dropEntry s k e.id) owner (accessEnergy a treat)

/-- A write that a copy held dirty joins the points of its way as it is recalled, which time it alone (R221, R251; DESIGN CHOICE, log
49). -/
def askRecall (s : State) (k : Nat) (e : QEntry) (w : Nat) (t : Tgt) (treat : Nat) : State :=
  if e.quiet then requestSectors s (ringOfCore s (ctxCore k)) (ctxOwner k) w true (placeOf t treat e.share).toList else s

/-- A write held dirty in an L1 is recalled (R251): its entry settles where it may, the slots of its way timing it alone; else it
stays an entry of its queue. -/
def recallWrite (s : State) (w : Nat) : State :=
  match entryOf s w with
  | some (k, i, e) => (match e.body with
    | .write _ t _ treat =>
      if settleReady s k i e w t treat then settleEntry (askRecall s k e w t treat) k e w t treat else s
    | _ => s)
  | none => s

/-- Dirty data of some L1 lines is written back to their homes, oldest first (R251, R252). -/
def writeBack (s : State) (ls : List L1Line) : State := ls.foldl (fun s l => l.dirty.foldl recallWrite s) s

/-! ### Probes (R250, R251) -/

/-- What the records of a line are probed for: sector of the record, core, and owner, none for ANY (R250). An exact record probes
its cores, a coarse one every core of every ring of its groups. -/
def probeTargets (s : State) (exact : List (Nat × Nat × Nat)) (coarse : List (Nat × List Nat × Option Nat)) :
    List (Nat × Nat × Option Nat) :=
  exact.map (fun x => (x.1, x.2.1, some x.2.2))
    ++ coarse.flatMap fun x => x.2.1.flatMap fun g => (upto 128).map fun i => (x.1, logicalOf s (g * 128 + i), x.2.2)

/-- A tracked copy of a line that a probe for an owner matches (R250). -/
def probeHits (line : Nat) (o : Option Nat) (l : L1Line) : Bool :=
  l.pa / 256 == line && l.treat != 1 && (match o with | some o => l.owner == o | none => true)

/-- Probes reach their L1s: M data is taken back and matching copies go; to each probe, which is one for an owner of a sector's
record, a ring with none of them answers absent and counts it (R250, R251). -/
def sendProbes (s : State) (line : Nat) (ts : List (Nat × Nat × Option Nat)) : State :=
  let found := fun (t : Nat × Nat × Option Nat) => (coreOf s t.2.1).l1.any (probeHits line t.2.2)
  let answers := ts.foldl (fun (a : List (Nat × Option Nat × Nat)) t =>
    let k := (t.1, t.2.2, ringOfCore s t.2.1)
    if a.contains k then a else a ++ [k]) []
  let absent := answers.filter fun k => !(ts.any fun t => (t.1, t.2.2, ringOfCore s t.2.1) == k && found t)
  let s := (ts.filter found).foldl (fun s t =>
    let s := writeBack s ((coreOf s t.2.1).l1.filter (probeHits line t.2.2))
    dropL1 s t.2.1 (probeHits line t.2.2)) s
  absent.foldl (fun s k => setRing s k.2.2 { ringOf s k.2.2 with absent := Nat.min ((ringOf s k.2.2).absent + 1) (2 ^ 32 - 1) }) s

/-- Sectors of a way that no record names are in I (R249). -/
def idleSectors (w : Way) : Way :=
  { w with sectors := w.sectors.map fun x => if (exactOf w x.1).isEmpty && !isCoarse w x.1 then (x.1, x.2.1, 0) else x }

/-- Every record of a way is probed, and its sectors are in I (R249, R250, R255). -/
def probeWay (s : State) (ring i : Nat) (w : Way) : State :=
  let s := sendProbes s w.line (probeTargets s w.exact w.coarse)
  match NMap.find (ringOf s ring).ways i with
  | none => s
  | some w => setWay s ring i { w with exact := [], coarse := [], sectors := w.sectors.map fun x => (x.1, x.2.1, 0) }

/-- Directory-tracked copies of a line are removed as an atomic's write to it settles, those that no record names with
them (R90, R264). -/
def removeTracked (s : State) (pa : Nat) : State :=
  let line := pa / 256
  let s := match findWay s (homeRing s pa) line with
    | some (i, w) => if w.exact.isEmpty && w.coarse.isEmpty then s else probeWay s (homeRing s pa) i w
    | none => s
  (s.cores.map Prod.fst).foldl (fun s c => dropL1 s c (probeHits line none)) s

/-! ### Placement and victims (R238-R242) -/

/-- The key that places a line of an owner: the sharing key of the page, else the owner's K (R238). -/
def placeKey (s : State) (owner : Nat) (share : Option Nat) : Word :=
  match share with
  | some i => NMap.get s.sharingKeys i 0
  | none => (ownerOf s owner).key

/-- The set of a line under a key (R238). -/
def setOf (key : Word) (ring pa : Nat) : Nat :=
  let m : BitVec 32 := tombola key 0x01 ring 0 ||| 1
  (BitVec.ofNat 32 (pa / 256) * m).toNat / 2 ^ 22

/-- Ways of a set in use, by way number. -/
def setWays (s : State) (ring set : Nat) : List (Nat × Way) :=
  ((ringOf s ring).ways.filter fun p => p.1 / 16 == set).map fun p => (p.1 % 16, p.2)

/-- Way quota of an owner at a slice (R240). -/
def quotaAt (s : State) (owner ring : Nat) : Nat := NMap.get (ownerOf s owner).quotas ring 0

/-- Victim choice (R241): the way taken, with the draw it took. -/
def victimWay (s : State) (owner ring set : Nat) : Option Nat × State :=
  let ws := setWays s ring set
  let held := fun o => (ws.filter fun p => p.2.holder == o).length
  match (upto 16).find? fun w => !(ws.any fun p => p.1 == w) with
  | some w => (some w, s)
  | none =>
    let q := quotaAt s owner ring
    let pick := fun (l : List (Nat × Way)) =>
      if l.isEmpty then (none, s)
      else
        let d := drawOwner s owner 0x02 ring
        ((l[d.1 / 2 ^ 28 % l.length]?).map Prod.fst, d.2)
    if held owner < q then
      pick (ws.filter fun p => decide (quotaAt s p.2.holder ring < held p.2.holder) || quotaAt s p.2.holder ring == 0)
    else if 0 < q then pick (ws.filter fun p => p.2.holder == owner)
    else (none, s)

/-! ### Eviction (R97, R255) -/

/-- A settled write is published: the pool holds its bytes (R97, R345). -/
def publishWrite (s : State) (w : Nat) : State :=
  let bs := (wrec s w).bytes
  { s with unpub := s.unpub.filter fun x => x != w,
           poolMem := bs.foldl (fun m p => memPut m p.1 p.2) s.poolMem }

/-- Unpublished settled writes that touch a line, oldest first. -/
def lineUnpub (s : State) (line : Nat) : List Nat :=
  (s.log.filter fun w => s.unpub.contains w && (wrec s w).bytes.any fun p => p.1 / 256 == line).reverse

/-- A transfer of a pool line takes a slot of its pool port (R342). -/
def portTransfer (s : State) (owner id pa : Nat) : State :=
  match regionAt s pa with
  | some (_, r) => requestAt s owner id (some { pa := pa, treat := 3, share := none, back := true }) [(0x0D, r.port)]
  | none => s

/-- A way is emptied (R255): tracked L1 copies go by probes, M data first, dirty sectors are written back, a pool line is
published and given up. -/
def evictWay (s : State) (ring i : Nat) : State :=
  match NMap.find (ringOf s ring).ways i with
  | none => s
  | some w =>
    let s := probeWay s ring i w
    let s := (lineUnpub s w.line).foldl publishWrite s
    let dirty := match NMap.find (ringOf s ring).ways i with
      | some x => (x.sectors.filter fun y => y.2.1).length
      | none => 0
    let s := charge s w.holder (if isPool (w.line * 256) then 20 * dirty else 10 * dirty)
    -- nothing waits for these transfers (DESIGN CHOICE, log 49)
    let s := (upto (if isPool (w.line * 256) then dirty else 0)).foldl (fun s _ =>
      portTransfer { s with nextId := s.nextId + 1 } w.holder s.nextId (w.line * 256)) s
    let s := { s with exclusive := s.exclusive.filter fun x => x != w.line }
    setRing s ring { ringOf s ring with ways := NMap.del (ringOf s ring).ways i }

/-! ### The lookup of an access (R237, R239, R246) -/

/-- The owner's new-epoch set of a line. -/
def newSet (s : State) (owner ring line : Nat) : Nat := setOf (ownerOf s owner).key ring (line * 256)

/-- An old-epoch line takes the new bit in its set, or moves to a way of its new set; with no way it is written back
(R246, R247). -/
def moveLine (s : State) (owner ring i : Nat) : State :=
  match NMap.find (ringOf s ring).ways i with
  | none => s
  | some w =>
    let bit := (ownerOf s owner).ebit
    let st := newSet s owner ring w.line
    if i / 16 = st then setWay s ring i { w with ebit := bit }
    else
      let v := victimWay s owner ring st
      match v.1 with
      | none => evictWay v.2 ring i
      | some j =>
        let s := evictWay v.2 ring (st * 16 + j)
        let r := ringOf s ring
        setRing s ring { r with ways := NMap.put (NMap.del r.ways i) (st * 16 + j) { w with ebit := bit } }

/-- The way holds an old-epoch line of an owner whose sweep runs. -/
def oldLine (s : State) (owner : Nat) (w : Way) : Bool :=
  (ownerOf s owner).sweep && w.holder == owner && !w.shared && w.ebit != (ownerOf s owner).ebit

/-- A sector is present from now on (R237). -/
def addSector (s : State) (ring i sec : Nat) : State :=
  match NMap.find (ringOf s ring).ways i with
  | none => s
  | some w => if w.sectors.any fun x => x.1 == sec then s else setWay s ring i { w with sectors := w.sectors ++ [(sec, false, 0)] }

/-- An access of the owner finds the sector in its home slice, under the owner's present epoch (R237, R246). -/
def sectorHit (s : State) (owner pa : Nat) : Bool :=
  match findWay s (homeRing s pa) (pa / 256) with
  | some (_, w) => !oldLine s owner w && w.sectors.any fun x => x.1 == pa / 64 % 4
  | none => false

/-- A sector is present from now on where its line has a way. -/
def fillSector (s : State) (pa : Nat) : State :=
  match findWay s (homeRing s pa) (pa / 256) with
  | some (j, _) => addSector s (homeRing s pa) j (pa / 64 % 4)
  | none => s

/-- An access of an owner finds a way for its line in the home slice through its page (R237-R241, R246, R248): an old-epoch
line moves first, and a missing line is allocated by R241 under the page's key. -/
def lookupWay (s : State) (owner pa treat : Nat) (share : Option Nat) : State :=
  if sectorHit s owner pa || !sliceServes s pa treat then s
  else
    let ring := homeRing s pa
    match findWay s ring (pa / 256) with
    | some (i, w) => if oldLine s owner w then moveLine s owner ring i else s
    | none =>
      let st := setOf (placeKey s owner share) ring pa
      let v := victimWay s owner ring st
      match v.1 with
      | none => v.2
      | some j =>
        let s := evictWay v.2 ring (st * 16 + j)
        setWay s ring (st * 16 + j) { line := pa / 256, holder := owner, shared := share.isSome, ebit := (ownerOf s owner).ebit,
                                      sectors := [], exact := [], coarse := [] }

/-- An access of an owner looks its sector up in the home slice (R237): its line has a way where R241 gives one, and a missing
sector is filled from DRAM or the pool. -/
def lookup (s : State) (owner pa treat : Nat) (share : Option Nat) : State :=
  if sectorHit s owner pa || !sliceServes s pa treat then s
  else
    let s1 := lookupWay s owner pa treat share
    fillSector (if sectorPresent s pa then s1 else charge s1 owner (if isPool pa then 20 else 10)) pa

/-! ### Engine writes (R94, R95, R280) -/

/-- A write of an engine command: a write of its context that knows what the context knew at the command's issue; it
settles at once, and no context knows it until R96 says so. R85 names the writes that a frame issues: an engine's carry no
tag (DESIGN CHOICE, log 63). `seq` is the command's place in the context's issue order (R98). -/
def engineWrite (s : State) (k frame act : Nat) (known : List Nat) (a : Nat) (bs : List Byte) (pool : Bool) (va pc : Word)
    (seq : Nat) : Nat × State :=
  let id := s.nextId
  let r : WRec := { writer := .ctx k, frame := frame, act := act, bytes := cellsAt a bs, known := known, tag := none, pc := pc,
                    va := va, pool := pool, seq := seq }
  (id, settleWrite { s with nextId := id + 1, hist := NMap.put s.hist id r } id)

end Sys2Proof.Machine
end

