-- ==== Sys2Proof/Machine/L1.lean ====
section
/-! DEFINITION. The L1s and what enters the reference machine through them: victims, fills, stores, recalls, and the issue
of write groups and reads (R75, R82-R86, R232-R236, R248-R254). -/

namespace Sys2Proof.Machine

open Sys2Proof

/-! ### Lines of an L1 (R232-R235, R252) -/

/-- Logical cores whose L1 may hold an owner's copies for a core: the core, or its whole ring when fused (R235). -/
def l1Cores (s : State) (core owner : Nat) : List Nat :=
  if (NMap.find (ringOf s (ringOfCore s core)).fused owner).isSome then
    (upto 16).map fun i => logicalOf s (ringOfCore s core * 16 + i)
  else [core]

/-- Lines of one L1 leave it, what is dirty in them written back first (R251, R252). -/
def leaveL1 (s : State) (core : Nat) (p : L1Line → Bool) : State :=
  dropL1 (writeBack s ((coreOf s core).l1.filter p)) core p

/-- Drops every treatment-1 copy of an owner on a core (R90, R252). -/
def dropSelf (s : State) (core owner : Nat) : State :=
  (l1Cores s core owner).foldl (fun s c => leaveL1 s c fun l => l.owner == owner && l.treat == 1) s

/-- The least recently used of some lines. -/
def lruOf : List L1Line → Option L1Line
  | [] => none
  | l :: r => some (r.foldl (fun b x => if x.used < b.used then x else b) l)

/-- The way a miss of an owner takes in a set, and the line it displaces (R233); none where it allocates nothing. Step 2's ways of an
owner that holds no bank are those of other owners: one with quota 0 does not take its own older line (DESIGN CHOICE, log 95). -/
def l1Victim (s : State) (core owner set : Nat) : Option (Nat × Option L1Line) :=
  let ls := (coreOf s core).l1.filter fun l => l.pa / 64 % 64 == set
  let quota := fun o => (banksOf s core o).length
  let heldBy := fun o => (ls.filter fun l => l.owner == o).length
  match (upto 8).find? fun w => !(ls.any fun l => l.way == w) with
  | some w => some (w, none)
  | none =>
    let borrow := lruOf (ls.filter fun l => l.owner != owner && (decide (quota l.owner < heldBy l.owner) || quota l.owner == 0))
    let own := lruOf (ls.filter fun l => l.owner == owner)
    if heldBy owner < quota owner ∨ quota owner = 0 then borrow.map fun l => (l.way, some l)
    else own.map fun l => (l.way, some l)

/-- A miss of an owner takes a way for a line; what it displaces is written back and dropped (R233, R251). -/
def takeL1Way (s : State) (core owner pa : Nat) : Option Nat × State :=
  match l1Victim s core owner (pa / 64 % 64) with
  | none => (none, s)
  | some (w, none) => (some w, s)
  | some (w, some l) => (some w, leaveL1 s core fun y => y.owner == l.owner && y.pa == l.pa && y.treat == l.treat)

/-- LEASE.LEN of an owner as a core sees it (R55): a write of another core holds from the next clk (R150). -/
def leaseLen (s : State) (core owner : Nat) : Nat :=
  let w := ownerOf s owner
  if w.leaseSet.1 = s.clk + 1 ∧ w.leaseSet.2.1 ≠ core then w.leaseSet.2.2 else w.lease

/-! ### Which writes a read may return together (R75, R80) -/

/-- A write comes later than another at the locations they share: it knew it, or settled after it. -/
def laterThan (s : State) (v w : Nat) : Bool :=
  (wrec s v).known.contains w || (s.log.contains w && (s.log.takeWhile fun x => x != w).contains v)

/-- A write that covers every byte of a read supplies all of them or none (R75), but for bytes that a later write covers:
else no read of them could be served (R83; DEDUCED, log 64). -/
def allOrNone (s : State) (locs ws : List Nat) : Bool :=
  ws.all fun w => !(w != 0 && locs.all fun l => covers s w l) || ws.all fun v => v == w || laterThan s v w

/-- Every write is a candidate of the context at its location (R80). -/
def allCandidates (s : State) (k : Nat) (locs ws : List Nat) : Bool :=
  (upto locs.length).all fun i => candidate s k (locs.getD i 0) (ws.getD i 0)

/-! ### Recalls (R251) -/

/-- A tracked copy in M of a line that one core's L1 holds. -/
def heldM (pa : Nat) (l : L1Line) : Bool := l.pa / 256 == pa / 256 && l.treat != 1 && l.mesi == 3

/-- M sectors of a line are recalled from the L1s of other cores before a strong or acquire read or an atomic: what may
settle settles, and a copy whose data has gone home holds no M (R251, R264). -/
def recallLine (s : State) (core owner pa : Nat) : State :=
  let mine := l1Core s core owner pa
  if isWindow pa = true then s
  else ((s.cores.map Prod.fst).filter fun c => c != mine).foldl (fun s c =>
    let s := writeBack s ((coreOf s c).l1.filter (heldM pa))
    ((coreOf s c).l1.filter fun l => heldM pa l && (liveDirty s l).isEmpty).foldl (fun s l => setMesi s c l 1) s) s

/-- Another core's L1 still holds data of the line in M that may not settle yet: who is to see it waits (R251). -/
def recallOpen (s : State) (core owner pa : Nat) : Bool :=
  let mine := l1Core s core owner pa
  !isWindow pa && s.cores.any fun c => c.1 != mine && c.2.l1.any fun l => heldM pa l && !(liveDirty s l).isEmpty

/-- A strong or acquire read or an atomic of a context reaches its home: M sectors of other L1s are recalled (R251). -/
def atHome (s : State) (k : Nat) (t : Tgt) : State :=
  match t with
  | .loc _ _ => s
  | .pa a => recallLine s (ctxCore k) (ctxOwner k) a

/-- It is served there, with every M sector recalled; else it waits (R251). -/
def onceRecalled (s : State) (k : Nat) (t : Tgt) (go : State → State) : State :=
  let u := atHome s k t
  match t with
  | .loc _ _ => go u
  | .pa a => if recallOpen u (ctxCore k) (ctxOwner k) a then u else go u

/-! ### Fills (R82, R248, R249, R252) -/

/-- Other holders of a sector give up E and M as a copy of it is made; what is dirty stays in their queues (R249). -/
def shareOthers (s : State) (core owner base : Nat) : State :=
  s.cores.foldl (fun s p =>
    ((coreOf s p.1).l1.filter fun l => l.pa == base && l.treat != 1 && decide (2 ≤ l.mesi) && !(p.1 == core && l.owner == owner)).foldl
      (fun s l => putL1 s p.1 { l with mesi := 1 }) s) s

/-- A tracked copy enters its sector's record: alone in E, else shared (R248, R249). A slice that has no way for the line
records nothing. -/
def recordCopy (s : State) (core : Nat) (l : L1Line) : State :=
  match recordOf s l with
  | none => putL1 s core l
  | some (ring, i, w) =>
    let s := setWay s ring i (withSharer s w (l.pa / 64 % 4) core l.owner)
    if soleHolder s core l then setMesi s core l (if l.mesi = 3 then 3 else 2)
    else setMesi (shareOthers s core l.owner l.pa) core l 1

/-- The treatment lets an L1 hold a copy of a line (R230, R248, R252). -/
def mayCopy (s : State) (core owner pa treat : Nat) : Bool :=
  sliceServes s pa treat && treat % 4 != 2 && !(treat % 4 == 1 && leaseLen s core owner == 0)

/-- Every copy of a line but an owner's own in one L1 goes, M data first, for a fill that is to be written (R249, R250, R257). -/
def claimLine (s : State) (core owner pa : Nat) : State :=
  let ring := homeRing s pa
  let lc := l1Core s core owner pa
  let s := recallLine s core owner pa
  match findWay s ring (pa / 256) with
  | none => s
  | some (i, w) =>
    let ex := w.exact.filter fun y => y.2 != (lc, owner)
    let s := sendProbes s (pa / 256) (probeTargets s ex w.coarse)
    match NMap.find (ringOf s ring).ways i with
    | some w => setWay s ring i (idleSectors { w with exact := w.exact.filter fun y => !ex.contains y, coarse := [] })
    | none => s

/-- An L1 copy of a 64-byte line is set from the write sets (R82, Fill) through a page's treatment: the last settled writes but for
the choices. A tracked copy is made only of a sector that the slice holds, which records it (R249); one that is to be written is the
line's only one from then on. -/
def fillL1 (s : State) (core owner pa treat : Nat) (claim : Bool) (choice : List (Nat × Nat)) : State :=
  let t := treat % 4
  let base := pa / 64 * 64
  let locs := locsFrom base 64
  let lc := l1Core s core owner pa
  if !mayCopy s core owner pa treat || (t != 1 && !sectorPresent s pa) then s
  else
    let s1 := leaveL1 s lc fun l => l.owner == owner && l.pa == base && l.treat == t && !l1Live s l
    let old := l1Line s1 core owner pa t
    let r : Option Nat × State := match old with
      | some o => (some o.way, s1)
      | none => takeL1Way s1 lc owner pa
    match r.1 with
    | none => s
    | some way =>
      let s2 := charge (if claim && t != 1 then claimLine r.2 core owner pa else r.2) owner 3
      let ws := locs.map fun l => (l, NMap.get choice l (lastSettled s2 l))
      if !(ws.all fun p => (writeSet s2 p.1).contains p.2) then s
      else
        let cur := (coreOf s2 lc).l1.find? fun l => l.owner == owner && l.pa == base && l.treat == t
        let l : L1Line := { owner := owner, pa := base, treat := t, way := way, mesi := match cur with | some o => o.mesi | none => 0,
                            expiry := s.clk + leaseLen s core owner, filled := s.clk, used := s.clk,
                            vals := ws.foldl (fun m p => NMap.put m p.1 p.2) [],
                            dirty := match cur with | some o => o.dirty | none => [],
                            poison := locs.any fun a => poisoned s2 a }
        if t = 1 then putL1 s2 lc l else recordCopy s2 lc l

/-! ### Stores (R82, R84, R85, R162, R251, R252, R254) -/

/-- A tracked copy may hold the write of an entry in M: the entry settles as soon as it is recalled, so that no reader waits for its
writer (R84, R251; DEDUCED, log 108). -/
def mayHold (s : State) (k : Nat) (e : QEntry) (w : Nat) (l : L1Line) : Bool :=
  let locs := entryLocs s (ctxOwner k) e
  let held := ((ctxOf s k).queue.filter QEntry.quiet).filterMap entryWrite
  (((ctxOf s k).queue.takeWhile fun x => x.id != e.id).all fun x => x.quiet || disjointNat (entryLocs s (ctxOwner k) x) locs)
    && releasable s k e.after e.reads e.pub e.acked
    && precedersSettled s ((wrec s w).known.filter fun v => !held.contains v) locs
    && !panelHeld s k e w
    && (l.treat != 3 || s.exclusive.contains (l.pa / 256))

/-- A store of a context marks its copy (R251, R252, R254): copies of the line under other treatments are dropped; a
copy of the same treatment holds the write as dirty, in M where it is the only copy and may hold it; a treatment-1 page allocates
one, which holds the store's bytes alone. -/
def storeL1 (s : State) (k pa treat w : Nat) (e : QEntry) : State :=
  let core := ctxCore k
  let owner := ctxOwner k
  let base := pa / 64 * 64
  let lc := l1Core s core owner pa
  let s := leaveL1 s lc fun l => l.owner == owner && l.pa == base && (l.treat != treat || !l1Live s l)
  match l1Line s core owner pa treat with
  | some l =>
    let x := { l with dirty := insNat l.dirty w, used := s.clk }
    let s := charge s owner 1
    if treat = 1 then putL1 s lc x
    else if mayHold s k e w l then (if soleHolder s lc x then setMesi s lc x 3 else putL1 s lc x)
    else if l.mesi = 3 then s
    else putL1 s lc x
  | none =>
    if treat = 1 ∧ leaseLen s core owner ≠ 0 ∧ isWindow pa = false then
      let r := takeL1Way s lc owner pa
      match r.1 with
      | none => r.2
      | some way =>
        putL1 (charge r.2 owner 1) lc
          { owner := owner, pa := base, treat := 1, way := way, mesi := 0, expiry := s.clk + leaseLen s core owner, filled := s.clk,
            used := s.clk, vals := [], dirty := [w], poison := false }
    else s

/-- The context's L1 holds a write in M or under a dirty-byte mask: it crosses nothing until it is written back (R251). -/
def heldDirty (s : State) (k : Nat) (t : Tgt) (treat w : Nat) : Bool :=
  match t with
  | .pa a => (l1Line s (ctxCore k) (ctxOwner k) a treat).any fun l => l.dirty.contains w && (l.mesi == 3 || treat == 1)
  | .loc _ _ => false

/-- The last entry of a queue, its write held dirty in an L1, joins no point until it is written back (R221, R251). -/
def quietLast (s : State) (k id : Nat) : State :=
  let c := ctxOf s k
  match c.queue.getLast? with
  | some e => if e.id = id then setCtx s k { c with queue := c.queue.dropLast ++ [{ e with quiet := true }] } else s
  | none => s

/-- One write group enters the issuing context's queue (R82, Issue). -/
def storeGroup (s : State) (w : Where) (bs : List Byte) (ord : StOrd) (va : Word) : State :=
  let k := curCtx s
  let t := whereTgt w
  let tr := whereTreat w
  let rel := ord == .rel
  let base := tgtBase s (curOwner s) t
  let tag := writeTag s rel t tr
  let after := if rel then (releaseAfter s).1 else []
  let reads := if rel then (releaseAfter s).2 else []
  let pubs := if rel && tr % 4 == 3 then unpublished s k else []
  let acked := match t with
    | .pa a => if rel && isWindow a then unackedOf s k else []
    | .loc _ _ => []
  let r := newWrite s k s.cur.2 (curFrame s).act (cellsAt base bs) tag va (curPc s) (tr % 4 == 3)
  let s := r.2
  let e : QEntry := { id := s.nextId, frame := s.cur.2, act := (curFrame s).act, bank := curBank s,
                      body := .write r.1 t bs.length tr, share := whereShare w, weak := ord == .weak, rel := rel,
                      held := false, lin := (curFrame s).lin, after := after, reads := reads, pub := pubs,
                      acked := acked, tag := [] }
  let s := pushEntry s k e
  let s := match t with
    | .pa a => storeL1 s k a (tr % 4) r.1 e
    | .loc _ _ => s
  if heldDirty s k t (tr % 4) r.1 then quietLast s k e.id
  else requestAccess s s.cur.1 (curOwner s) r.1 t tr (whereShare w) true false

/-! ### Loads (R82, R84, R162, R234) -/

/-- One read of the issuing frame enters the machine; its value is owed to `d` (R133). A weak load that the L1 does not
hold is a miss of its context (R234), and only then, or where it is served at home, has it a request in the fabric. -/
def issueRead (s : State) (w : Where) (n : Nat) (sx : Bool) (mode : Nat) (d : Reg) (va : Word) : State :=
  let k := curCtx s
  let t := whereTgt w
  let tr := whereTreat w
  let id := s.nextId
  let after := if mode = 0 then [] else entriesFor s k (locsFrom (tgtBase s (curOwner s) t) n)
  let inval := match t with
    | .pa a => if mode = 2 ∧ tr % 4 = 3 then queuedInvals s a else []
    | .loc _ _ => []
  let held := match t with
    | .pa a => mode == 0 && tr % 4 != 2 && !missesL1 s k a tr
    | .loc _ _ => false
  let miss := match t with
    | .pa a => mode == 0 && missesL1 s k a tr
    | .loc _ _ => false
  let r : Read := { id := id, ctx := k, frame := s.cur.2, act := (curFrame s).act, tgt := t, len := n, sx := sx, treat := tr,
                    share := whereShare w, mode := mode, miss := miss, after := after, inval := inval, va := va,
                    pc := curPc s, owed := id, parked := false }
  let s := owe { s with nextId := id + 1, reads := s.reads ++ [r] } d id none
  if held then s else requestAccess s s.cur.1 (curOwner s) id t tr (whereShare w) false false

end Sys2Proof.Machine
end

