-- ==== Sys2Proof/Machine/LoadStore.lean ====
section
/-! DEFINITION. Loads and stores (R161-R163): alignment, decoding, and what enters the reference machine. -/

namespace Sys2Proof.Machine

open Sys2Proof

/-- The mode of a read by its order (R84). -/
def ldMode : LdOrd → Nat
  | .weak => 0
  | .strong => 1
  | .acq => 2

/-- The load completes at issue but for its value; an acquire parks until it is served (R84). -/
def afterLoad (s : State) (o : LdOrd) (ids : List Nat) : State :=
  if o = .acq then
    let s := setPc s (curPc s + 4)
    setCur s { curFrame s with st := .parked [.settled [] ids], since := s.clk, granted := false, walked := [], wfault := [], retDue := true }
  else retire4 (clearWait s)

/-- A load of one register (R162). -/
def loadOp (n : Nat) (sx : Bool) (d a : Reg) (o : LdOrd) (i : BitVec 11) (s : State) : Res :=
  let va := effAddr s a i
  commit s (if va.toNat % n ≠ 0 then alignTrap s va
    else withWhere s va 0 fun w => afterLoad (issueRead s w n sx (ldMode o) d va) o [s.nextId])

/-- `ld.b` (R161). -/
def execLdB (d a : Reg) (o : LdOrd) (i : BitVec 11) (s : State) : Res := loadOp 1 true d a o i s
/-- `ld.bn` (R161). -/
def execLdBn (d a : Reg) (o : LdOrd) (i : BitVec 11) (s : State) : Res := loadOp 1 false d a o i s
/-- `ld.h` (R161). -/
def execLdH (d a : Reg) (o : LdOrd) (i : BitVec 11) (s : State) : Res := loadOp 2 true d a o i s
/-- `ld.hn` (R161). -/
def execLdHn (d a : Reg) (o : LdOrd) (i : BitVec 11) (s : State) : Res := loadOp 2 false d a o i s
/-- `ld.w` (R161). -/
def execLdW (d a : Reg) (o : LdOrd) (i : BitVec 11) (s : State) : Res := loadOp 4 true d a o i s
/-- `ld.wn` (R161). -/
def execLdWn (d a : Reg) (o : LdOrd) (i : BitVec 11) (s : State) : Res := loadOp 4 false d a o i s
/-- `ld.d` (R161). -/
def execLdD (d a : Reg) (o : LdOrd) (i : BitVec 11) (s : State) : Res := loadOp 8 false d a o i s

/-- The decoded address n bytes further in the same page or bank. -/
def whereAdd (w : Where) (n : Nat) : Where :=
  match w with
  | .mem pa x => .mem (pa + n) x
  | .loc c o => .loc c (o + n)
  | w => w

/-- Two reads are the halves of one `ld.q`. -/
def pairReads (s : State) (a b : Nat) : State :=
  { s with reads := s.reads.map fun r => if r.id = a then { r with pair := b } else if r.id = b then { r with pair := a } else r }

/-- `ld.q` (R161, R162): two reads of 8 bytes, the lower address first; g0 halves are discarded. -/
def execLdQ (d a : Reg) (o : LdOrd) (i : BitVec 11) (s : State) : Res :=
  let va := effAddr s a i
  commit s (if va.toNat % 16 ≠ 0 then alignTrap s va
    else withWhere s va 0 fun w =>
      let s1 := issueRead s w 8 false (ldMode o) d va
      let s2 := issueRead s1 (whereAdd w 8) 8 false (ldMode o) (pairReg d) (va + 8)
      afterLoad (pairReads s2 s.nextId s1.nextId) o [s.nextId, s1.nextId])

/-- Where a store or atomic may go on: no strong read of the frame to its bytes is outstanding (R84), and the segment
has room for its entries (R76). -/
def storeReady (s : State) (w : Where) (n entries : Nat) (k : State) : State :=
  let locs := locsFrom (tgtBase s (curOwner s) (whereTgt w)) n
  let rs := strongReads s locs
  if !rs.isEmpty then park s [.settled [] rs]
  else if segmentRoom s (curCtx s) (curBank s) < entries then park s [.segment (curBank s)]
  else k

/-- A store of the low n bytes of a register (R162). -/
def storeOp (n : Nat) (d a : Reg) (o : StOrd) (i : BitVec 11) (s : State) : Res :=
  let va := effAddr s a i
  commit s (if va.toNat % n ≠ 0 then alignTrap s va
    else withWhere s va 1 fun w =>
      storeReady s w n 1 (retire4 (clearWait (storeGroup s w (leBytes (rd s d).toNat n) o va))))

/-- `st.b` (R161). -/
def execStB (d a : Reg) (o : StOrd) (i : BitVec 11) (s : State) : Res := storeOp 1 d a o i s
/-- `st.h` (R161). -/
def execStH (d a : Reg) (o : StOrd) (i : BitVec 11) (s : State) : Res := storeOp 2 d a o i s
/-- `st.w` (R161). -/
def execStW (d a : Reg) (o : StOrd) (i : BitVec 11) (s : State) : Res := storeOp 4 d a o i s
/-- `st.d` (R161). -/
def execStD (d a : Reg) (o : StOrd) (i : BitVec 11) (s : State) : Res := storeOp 8 d a o i s

/-- `st.q` (R161, R162): two groups, d then d + 1; g0 stores zero. -/
def execStQ (d a : Reg) (o : StOrd) (i : BitVec 11) (s : State) : Res :=
  let va := effAddr s a i
  commit s (if va.toNat % 16 ≠ 0 then alignTrap s va
    else withWhere s va 1 fun w =>
      storeReady s w 16 2
        (let s1 := storeGroup s w (leBytes (rd s d).toNat 8) o va
         retire4 (clearWait (storeGroup s1 (whereAdd w 8) (leBytes (rd s (pairReg d)).toNat 8) o (va + 8)))))

end Sys2Proof.Machine
end

