-- ==== Sys2Proof/Machine/Atomic.lean ====
section
/-! DEFINITION. Atomics, ordered atomics and lock words (R262-R275), and the steps that perform them. -/

namespace Sys2Proof.Machine

open Sys2Proof

/-! ### Issue (R263-R267) -/

/-- Floating format of a type's lanes. -/
def amoFmt : AmoTy → Fmt
  | .f64 => fmtF64
  | .bf16 => fmtBF16
  | .pbf16 => fmtBF16
  | _ => fmtF32

/-- Requests that hold an entry of the atomic queue (R263). The manual does not say that a watch of `ojoin` holds one: here it holds
none (DESIGN CHOICE, log 91). -/
def inAtomicQueue (q : Req) : Bool :=
  match q.kind with
  | .amo .. => true
  | .lock .. => true
  | .ordered .. => true
  | _ => false

/-- The context's atomic queue is full (R263). -/
def atomicsFull (s : State) (k : Nat) : Bool := decide (32 ≤ (s.reqs.filter fun q => q.ctx == k && inAtomicQueue q).length)

/-- A request of the issuing frame enters the machine. Its id is that of the write it may make, which precedes every
later write of the context (R78, R82); `rel` waits for the release condition (R84, R91), `acq` for the
back-invalidations queued now where the page is pool-coherent (R97). An atomic at a home slice takes a slot of the L2 port
and then one of the atomic unit; the manual gives no order (DESIGN CHOICE, log 65). An ordered one takes the unit's slot as it is
applied (R262, R271). -/
def newReq (s : State) (kind : ReqKind) (t : Option (Tgt × Nat)) (treat : Nat) (share : Option Nat) (rel acq : Bool)
    (va : Word) : State :=
  let k := curCtx s
  let id := s.nextId
  let known := (ctxOf s k).known
  let pool := treat % 4 == 3
  let locs := match t with
    | some (t, n) => locsFrom (tgtBase s (curOwner s) t) n
    | none => []
  let tag := match t with
    | some (t, _) => writeTag s rel t treat
    | none => if rel then some { writes := known, scope := .dev, core := s.cur.1 } else (curFrame s).fence
  let inval := match t with
    | some (.pa a, _) => if acq && pool then queuedInvals s a else []
    | _ => []
  let q : Req := { id := id, ctx := k, frame := s.cur.2, act := (curFrame s).act, kind := kind, treat := treat,
                   share := share, lin := (curFrame s).lin, after := if rel then (releaseAfter s).1 else entriesFor s k locs,
                   reads := if rel then (releaseAfter s).2 else [], pub := if rel && pool then unpublished s k else [],
                   inval := inval, tag := known, rel := rel, va := va, pc := curPc s, parked := false }
  let r : WRec := { writer := .ctx k, frame := s.cur.2, act := (curFrame s).act, bytes := [], known := known, tag := tag,
                    pc := curPc s, va := va, pool := pool, seq := id }
  let s := setCtx { s with nextId := id + 1, hist := NMap.put s.hist id r, reqs := s.reqs ++ [q] } k
    { ctxOf s k with known := insNat known id }
  match t with
  | some (t, _) => requestAccess s s.cur.1 (curOwner s) id t treat share true (match kind with | .ordered .. => false | _ => true)
  | none => s

/-- The memory an atomic may reach (R230, R264). -/
def atomicAllowed (pa : Nat) (x : Xlat) : Bool := !isWindow pa && !(isPool pa && x.treat == 2)

/-- `amo` (R266, R267): operation, type, whether it returns, order, operands. -/
def amoOp (op : Nat) (d a : Reg) (t : AmoTy) (ret : Bool) (o : AmoOrd) (opnd expect : Nat) (s : State) : Res :=
  let va := rd s a
  let n := amoSize op t
  let acq := o == .acq || o == .ar
  let rel := o == .rel || o == .ar
  commit s (if va.toNat % n ≠ 0 then alignTrap s va
    else withWhere s va 2 (fun w =>
      let rs := strongReads s (locsFrom (tgtBase s (curOwner s) (whereTgt w)) n)
      if !rs.isEmpty then park s [.settled [] rs]
      else if atomicsFull s (curCtx s) then park s [.atomics]
      else
        let id := s.nextId
        let s := newReq s (.amo op t ret acq (whereTgt w) opnd expect) (some (whereTgt w, n)) (whereTreat w) (whereShare w) rel
          acq va
        let s := if ret then owe s d id none else s
        let s := if ret && op == 8 then owe { s with nextId := s.nextId + 1 } (pairReg d) s.nextId none else s
        afterLoad s (if acq then .acq else .weak) [id]) atomicAllowed)

/-- A two-operand `amo` with its operand in b. -/
def amoReg (op : Nat) (d a b : Reg) (t : AmoTy) (n : Bool) (o : AmoOrd) (s : State) : Res :=
  amoOp op d a t (!n) o (rd s b).toNat 0 s

/-- `amo.add` (R267). -/
def execAmoAdd (d a b : Reg) (t : AmoTy) (n : Bool) (o : AmoOrd) (s : State) : Res := amoReg 0 d a b t n o s
/-- `amo.and` (R267). -/
def execAmoAnd (d a b : Reg) (t : AmoTy) (n : Bool) (o : AmoOrd) (s : State) : Res := amoReg 1 d a b t n o s
/-- `amo.or` (R267). -/
def execAmoOr (d a b : Reg) (t : AmoTy) (n : Bool) (o : AmoOrd) (s : State) : Res := amoReg 2 d a b t n o s
/-- `amo.xor` (R267). -/
def execAmoXor (d a b : Reg) (t : AmoTy) (n : Bool) (o : AmoOrd) (s : State) : Res := amoReg 3 d a b t n o s
/-- `amo.min` (R267). -/
def execAmoMin (d a b : Reg) (t : AmoTy) (n : Bool) (o : AmoOrd) (s : State) : Res := amoReg 4 d a b t n o s
/-- `amo.max` (R267). -/
def execAmoMax (d a b : Reg) (t : AmoTy) (n : Bool) (o : AmoOrd) (s : State) : Res := amoReg 5 d a b t n o s
/-- `amo.swap` (R267). -/
def execAmoSwap (d a b : Reg) (t : AmoTy) (n : Bool) (o : AmoOrd) (s : State) : Res := amoReg 6 d a b t n o s
/-- `amo.cas` (R267): d is the expected value. -/
def execAmoCas (d a b : Reg) (t : AmoTy) (o : AmoOrd) (s : State) : Res :=
  amoOp 7 d a t true o (rd s b).toNat (rd s d).toNat s
/-- `amo.casq` (R267): register pairs. -/
def execAmoCasq (d a b : Reg) (o : AmoOrd) (s : State) : Res :=
  amoOp 8 d a .i64 true o ((rd s b).toNat + (rd s (pairReg b)).toNat * 2 ^ 64)
    ((rd s d).toNat + (rd s (pairReg d)).toNat * 2 ^ 64) s
/-- `amo.fadd` (R267). -/
def execAmoFadd (d a b : Reg) (t : AmoTy) (n : Bool) (o : AmoOrd) (s : State) : Res := amoReg 9 d a b t n o s
/-- `amo.fmin` (R267). -/
def execAmoFmin (d a b : Reg) (t : AmoTy) (n : Bool) (o : AmoOrd) (s : State) : Res := amoReg 10 d a b t n o s
/-- `amo.fmax` (R267). -/
def execAmoFmax (d a b : Reg) (t : AmoTy) (n : Bool) (o : AmoOrd) (s : State) : Res := amoReg 11 d a b t n o s
/-- `amo.minn` (R267). -/
def execAmoMinn (d a b : Reg) (t : AmoTy) (n : Bool) (o : AmoOrd) (s : State) : Res := amoReg 12 d a b t n o s
/-- `amo.maxn` (R267). -/
def execAmoMaxn (d a b : Reg) (t : AmoTy) (n : Bool) (o : AmoOrd) (s : State) : Res := amoReg 13 d a b t n o s

/-! ### The atomic step (R264-R269) -/

/-- The signed reading of w bits. -/
def signedOf (w x : Nat) : Int := if x % 2 ^ w < 2 ^ (w - 1) then x % 2 ^ w else (x % 2 ^ w : Int) - 2 ^ w

/-- One lane of an operation (R267). -/
def amoLane (op : Nat) (f : Fmt) (w old x : Nat) : Nat :=
  match op with
  | 0 => (old + x) % 2 ^ w
  | 1 => Nat.land old x
  | 2 => Nat.lor old x
  | 3 => Nat.xor old x
  | 4 => if signedOf w old ≤ signedOf w x then old else x
  | 5 => if signedOf w old ≤ signedOf w x then x else old
  | 9 => (roundTo f 0 (addV 0 (unpack f old) (unpack f x)).1).1
  | 10 => minMax f false old x
  | 11 => minMax f true old x
  | 12 => if old ≤ x then old else x
  | 13 => if old ≤ x then x else old
  | _ => x

/-- Every lane of an operation, from the lowest. -/
def amoAll (op : Nat) (f : Fmt) : List Nat → Nat → Nat → Nat
  | [], _, _ => 0
  | w :: r, old, x => amoLane op f w (old % 2 ^ w) (x % 2 ^ w) + 2 ^ w * amoAll op f r (old / 2 ^ w) (x / 2 ^ w)

/-- The new value, none where the location keeps its value (R267). -/
def amoNew (op : Nat) (t : AmoTy) (old opnd expect : Nat) : Option Nat :=
  let w := 8 * amoSize op t
  if op = 7 ∨ op = 8 then (if old = expect % 2 ^ w then some (opnd % 2 ^ w) else none)
  else some (amoAll op (amoFmt t) (amoLanes t) old opnd)

/-- The old value as it is written to d (R266). -/
def amoExt (t : AmoTy) (old : Nat) : Word := if t = .i32 then BitVec.ofInt 64 (signedOf 32 old) else word old

/-- What an `amo` is for the check of R280. -/
def amoAccess (op : Nat) (det : Bool) : Access :=
  if op = 6 ∨ op = 7 ∨ op = 8 then .store else if op = 9 ∨ op = 10 ∨ op = 11 then .floating det else .integer

/-- The clk is a slot of the unit that performs a request: a local bank's array, or the atomic unit of a home slice (R393). -/
def atomicSlot (s : State) (q : Req) : Bool :=
  match reqTarget q with
  | some (.loc _ _, _) => railSlot s 2
  | _ => railSlot s 3

/-- The request may be performed now: its slots are granted (R211), its release condition, its back-invalidations, and the writes that precede it at
its locations (R78, R81, R84, R97, R269); pool-coherent lines are held exclusive (R345). -/
def reqReady (s : State) (q : Req) : Bool :=
  !q.parked && !standsAt s q.id && releasable s q.ctx q.after q.reads q.pub []
    && (q.inval.all fun i => !invalQueued s i)
    && precedersSettled s (wrec s q.id).known (reqLocs s q)
    && (match reqTarget q with
        | some (.pa a, _) => !(q.treat % 4 == 3) || s.exclusive.contains (a / 256)
        | _ => true)

/-- A request leaves the machine; a write it did not make is not held. -/
def dropReq (s : State) (id : Nat) : State :=
  let s := if s.log.contains id then s else forgetWrite s id
  { s with reqs := s.reqs.filter fun q => q.id != id }

/-- A remote access reaches a core, which wakes `idle` there, served or held (R381). -/
def wakeRemote (s : State) (k core : Nat) : State := if core = ctxCore k then s else wakeCore s core

/-- A request waits in the inbound queue of its target's ring (R158). -/
def holdReq (s : State) (q : Req) (core : Nat) : State :=
  holdInbound (wakeRemote { s with reqs := s.reqs.map fun p => if p.id = q.id then { p with parked := true } else p } q.ctx core) core
    (ctxOwner q.ctx) (.req q.id)

/-- An access of a context for its owner's local memory arrives: it goes on, or is held where it must wait, or stays on its way while the
ring's inbound queue is full (R158, R178). -/
def arriveLocal (s : State) (core k : Nat) (hold go : State → State) : State :=
  if !mustFollow s core (ctxOwner k) k then go s
  else if inboundRoom s (ringOfCore s core) then hold s
  else s

/-- The last settled writes of some locations, each once. -/
def settledAt (s : State) (locs : List Nat) : List Nat := locs.foldl (fun a l => insNat a (lastSettled s l)) []

/-- A read at the home makes writes known, and an acquire takes their tags and drops self-invalidating copies (R79, R86,
R90). -/
def readAtHome (s : State) (k : Nat) (ws : List Nat) (acq : Bool) : State :=
  let s := learn s k (ws.filter fun w => w != 0)
  if acq then dropSelf (ws.foldl (fun s w => acquireTag s k w) s) (ctxCore k) (ctxOwner k) else s

/-- The write of a request settles with these bytes, at once after the writes it read (R82, Atomic). -/
def reqWrite (s : State) (q : Req) (base : Nat) (bs : List Byte) (ws : List Nat) : State :=
  let r := wrec s q.id
  let known := unionNat r.known (withPreceders s (ws.filter fun w => w != 0))
  let s := { s with hist := NMap.put s.hist q.id { r with bytes := cellsAt base bs, known := known } }
  settleWrite s q.id

/-- A write of a request to state that is no memory, such as a capability or a node record, settles: `loc` stands for
that state (R277, R356). -/
def noteWrite (s : State) (id : Nat) (locs : List Nat) : State :=
  let r := wrec s id
  let ws := (settledAt s locs).filter fun w => w != 0
  let known := unionNat r.known (withPreceders s ws)
  let s := { s with hist := NMap.put s.hist id { r with bytes := locs.map fun l => (l, 0), known := known } }
  { s with log := id :: s.log }

/-- An atomic finds poison (R265): a returning form ends its activation, a no-return form counts in ERRORS. -/
def atomicPoison (s : State) (q : Req) (ret : Bool) : State :=
  let s := dropReq s q.id
  if ret then bounce s q.ctx q.frame q.act 0x08 q.va q.pc q.lin q.id else countError s q.lin

/-- An atomic is refused with CAP (R281). -/
def atomicCap (s : State) (q : Req) (pa : Nat) : State :=
  bounce (countCapDrop (dropReq s q.id) pa) q.ctx q.frame q.act 0x07 q.va q.pc q.lin q.id

/-- A returning atomic that reaches a lost region, or that finds no translation as it issues again, parks its frame and issues
again (R98, R264, R349). -/
def parkReq (s : State) (q : Req) (cause : Nat) : State :=
  accessFault s (ctxCore q.ctx) q.frame q.act q.id (fun s => dropReq (cancelAt s [q.id]) q.id) fun s =>
    let s := cancelAt { s with reqs := s.reqs.map fun x => if x.id = q.id then { x with parked := true } else x } [q.id]
    parkFault s (ctxCore q.ctx) q.frame cause q.id q.va q.pc

/-- One `amo` is performed (R264-R268). -/
def performAmo (s : State) (q : Req) (op : Nat) (t : AmoTy) (ret acq : Bool) (tg : Tgt) (opnd expect : Nat) : State :=
  let owner := ctxOwner q.ctx
  let n := amoSize op t
  let base := tgtBase s owner tg
  let go := fun (s : State) =>
    let locs := locsFrom base n
    if locs.any fun l => poisoned s l then atomicPoison s q ret
    else
      let old := rdNat s base n
      let ws := settledAt s locs
      let new := amoNew op t old opnd expect
      let s1 := match new with
        | some v => reqWrite s q base (leBytes v n) ws
        | none => s
      let s1 := match tg, new with
        | .pa a, some _ => if q.treat % 4 = 1 then s1 else removeTracked s1 a
        | _, _ => s1
      let s1 := readAtHome s1 q.ctx ws acq
      let s1 := if op = 8 then
          answer (answer s1 (ctxCore q.ctx) q.frame q.act q.id (word old)) (ctxCore q.ctx) q.frame q.act (q.id + 1) (word (old / 2 ^ 64))
        else answer s1 (ctxCore q.ctx) q.frame q.act q.id (amoExt t old)
      dropReq (match tg with | .pa _ => charge s1 owner 3 | .loc _ _ => s1) q.id
  match tg with
  | .loc c o =>
    if localSize s c owner ≤ o then
      if ret then bounce (dropReq s q.id) q.ctx q.frame q.act 0x06 q.va q.pc q.lin q.id
      else countDrop (dropReq s q.id) owner
    else if c = ctxCore q.ctx then go s else wakeCore (go s) c
  | .pa a =>
    if lostAt s a then (if ret then parkReq s q 0x09 else dropReq s q.id)
    else if decide (4 ≤ q.treat) && !capAllows s q.ctx a (amoAccess op (detLin s q.lin)) then atomicCap s q a
    else if q.treat % 4 = 1 then go s
    else onceRecalled s q.ctx tg go

/-- `draw` at its bank (R224): the word's next value, the counter and epoch written back. -/
def performDraw (s : State) (q : Req) (tg : Tgt) (inst : Nat) : State :=
  let owner := ctxOwner q.ctx
  let base := tgtBase s owner tg
  let locs := locsFrom base 8
  if locs.any fun l => poisoned s l then atomicPoison s q true
  else
    let w := rdNat s base 8
    let r := drawStream (ownerOf s owner).key 0x1F inst { n := w % 2 ^ 16, e := w / 2 ^ 16 % 2 ^ 32 }
    let ws := settledAt s locs
    let s := reqWrite s q base (leBytes (r.2.n + r.2.e * 2 ^ 16) 8) ws
    let s := readAtHome s q.ctx ws false
    dropReq (answer s (ctxCore q.ctx) q.frame q.act q.id (word r.1)) q.id

/-! ### Ordered atomics (R270-R272) -/

/-- The group that holds the block of an address and has the context as a member (R271). -/
def groupFor (s : State) (k pa : Nat) : Option Nat :=
  match (capOf s pa).holder with
  | .group g => if isMember s (homeRing s pa) g (ctxOwner k) (ctxCore k) then some g else none
  | _ => none

/-- The address as a member of a region's group reaches it, or CAP (R271, R272). -/
def orderedAt (s : State) (va : Word) (k : State → Nat → Xlat → State) : State :=
  withWhere s va 2 (fun w =>
    match w with
    | .mem pa x =>
      if x.swr && (groupFor s (curCtx s) pa).isSome then k s pa x
      else trap (if x.swr then countCapDrop s pa else s) 0x07 0 va
    | _ => trap s 0x07 0 va) fun pa _ => !isWindow pa

/-- Goes on where the record that an instruction names beside its address is one of R186: ALIGN and the translation of the
address rank before PROT for the record, and POOL after it (R72). -/
def withTask (s : State) (va rec : Word) (ok : Nat → Xlat → Bool) (k : Nat × Nat → State) : State :=
  match localTarget s rec with
  | some t => k t
  | none => match whereCur s va 2 ok with
    | .miss => startWalk s va 2
    | .fault c => if c = 0x09 then protTrap s rec else whereTrap s c va
    | _ => protTrap s rec

/-- `oadd` and `ofadd` (R271). -/
def orderedOp (float : Bool) (d a b : Reg) (s : State) : Res :=
  let sq := (rd s d).toNat
  let va := rd s a
  let n := if float then 4 else 8
  commit s (if 2 ^ 32 ≤ sq then illOperand s
    else if va.toNat % n ≠ 0 then alignTrap s va
    else orderedAt s va fun s pa x =>
      let rs := strongReads s (locsFrom pa n)
      if !rs.isEmpty then park s [.settled [] rs]
      else if atomicsFull s (curCtx s) then park s [.atomics]
      else retire4 (clearWait (newReq s (.ordered float sq pa (rd s b) 0 0) (some (.pa pa, n)) (whereTreat (.mem pa x))
        (whereShare (.mem pa x)) true false va)))

/-- `oadd` (R271). -/
def execOadd (d a b : Reg) (s : State) : Res := orderedOp false d a b s
/-- `ofadd` (R271). -/
def execOfadd (d a b : Reg) (s : State) : Res := orderedOp true d a b s

/-- `ojoin` (R272): parks until the home slice takes the watch. -/
def execOjoin (d a b : Reg) (s : State) : Res :=
  let sq := (rd s d).toNat
  let va := rd s a
  commit s (if 2 ^ 32 ≤ sq then illOperand s
    else if (rd s b).toNat % 32 ≠ 0 then alignTrap s (rd s b)
    else withTask s va (rd s b) (fun pa _ => !isWindow pa) fun t =>
      orderedAt s va fun s pa x =>
        afterLoad (newReq s (.watch sq pa t) none (whereTreat (.mem pa x)) (whereShare (.mem pa x)) true false va) .acq [s.nextId])

/-- Watches that have come due fire and free their places (R272). -/
def fireWatches (s : State) (ring gid : Nat) : State :=
  match NMap.find (ringOf s ring).groups gid with
  | none => s
  | some g =>
    let due := fun (w : Nat × Nat × (Nat × Nat) × List Nat) => decide (diff32 g.next w.1 < 2 ^ 31)
    let r := ringOf s ring
    let s' := setRing s ring { r with groups := NMap.put r.groups gid { g with watches := g.watches.filter fun w => !due w } }
    (g.watches.filter due).foldl (fun s w => sendTdec s w.2.1 w.2.2.1 w.2.2.2) s'

/-- A write is placed after what has settled before it: none of those comes after it (R81, R271; DEDUCED, log 66). -/
def placeAfter (s : State) (w : Nat) (known : List Nat) : State :=
  { s with hist := s.hist.map fun p =>
      (p.1, if known.contains p.1 && p.1 != w then { p.2 with known := p.2.known.filter fun v => v != w } else p.2) }

/-- One entry is applied (R271): its write settles with the entry's tag; a poisoned target is left. -/
def applyEntry (s : State) (e : OEntry) : State :=
  let n := if e.float then 4 else 8
  let locs := locsFrom e.pa n
  let s := charge s (ctxOwner e.ctx) 3
  if locs.any fun l => poisoned s l then countError s e.lin
  else
    let old := rdNat s e.pa n
    let new := if e.float then amoAll 9 fmtF32 [32] old (e.val.toNat % 2 ^ 32) else (old + e.val.toNat) % 2 ^ 64
    let ws := settledAt s locs
    let r := wrec s e.wid
    let known := unionNat (r.known.filter fun v => !unapplied s v) (withPreceders s (ws.filter fun w => w != 0))
    let t : Tag := { writes := e.tag, scope := .dev, core := ctxCore e.ctx }
    let s := placeAfter s e.wid known
    let s := { s with hist := NMap.put s.hist e.wid { r with bytes := cellsAt e.pa (leBytes new n), known := known, tag := some t } }
    let s := settleWrite s e.wid
    if e.treat % 4 = 1 then s else removeTracked s e.pa

/-- The window entry at NEXT of a group. -/
def nextEntry (s : State) (ring gid : Nat) : Option OEntry :=
  (NMap.find (ringOf s ring).groups gid).bind fun g => NMap.find g.window (g.next % 64)

/-- An entry that stands at NEXT asks for a slot of the unit, which is the group's owner's (R262, R271). -/
def askApply (s : State) (ring gid : Nat) : State :=
  match nextEntry s ring gid, NMap.find (ringOf s ring).groups gid with
  | some e, some g =>
    if s.reqs.any fun q => q.kind == .apply ring gid then s
    else
      let id := s.nextId
      let q : Req := { id := id, ctx := hwCtx g.owner, frame := 0, act := 0, kind := .apply ring gid, treat := e.treat, share := e.share,
                       lin := e.lin, after := [], reads := [], pub := [], inval := [], tag := [], rel := false, va := 0, pc := 0,
                       parked := false }
      requestAt { s with nextId := id + 1, reqs := s.reqs ++ [q] } g.owner id (placeOf (.pa e.pa) e.treat e.share) [(0x06, ring)]
  | _, _ => s

/-- The entry at NEXT is applied, in the slot that its request took; NEXT moves on, the watches are tested, and the next entry asks
(R271, R272). -/
def applyNext (s : State) (ring gid : Nat) (e : OEntry) : State :=
  let s := applyEntry s e
  let r := ringOf s ring
  match NMap.find r.groups gid with
  | none => s
  | some g =>
    let ws := g.watches.map fun w => if diff32 e.seq w.1 < 2 ^ 31 then w else (w.1, w.2.1, w.2.2.1, insNat (unionNat w.2.2.2 e.tag) e.wid)
    let g' := { g with window := NMap.del g.window (g.next % 64), next := (g.next + 1) % 2 ^ 32, watches := ws }
    let s := setRing s ring { r with groups := NMap.put r.groups gid g' }
    askApply (fireWatches s ring gid) ring gid

/-- An ordered application is performed once M sectors of other L1s are recalled (R251, R264, R271). -/
def performApply (s : State) (q : Req) (ring gid : Nat) : State :=
  let done := { s with reqs := s.reqs.filter fun x => x.id != q.id }
  match nextEntry s ring gid with
  | none => done
  | some e =>
    if e.treat % 4 = 1 then applyNext done ring gid e
    else onceRecalled s e.ctx (.pa e.pa) fun s => applyNext { s with reqs := s.reqs.filter fun x => x.id != q.id } ring gid e

/-- A request for local memory, an atomic at a home or an ordered application is performed (R224, R264, R271). -/
def performReq (s : State) (q : Req) : State :=
  match q.kind with
  | .amo op t ret acq tg opnd expect => performAmo s q op t ret acq tg opnd expect
  | .draw tg inst => performDraw s q tg inst
  | .apply ring gid => performApply s q ring gid
  | _ => s

/-- ATOMIC_STEP (R264): the request at an index is performed if it may be; one for local memory arrives there first. -/
def execAtomicStep (idx : Nat) (s : State) : Res :=
  commit s (match s.reqs[idx]? with
    | none => s
    | some q =>
      if !atomicSlot s q || !reqReady s q then s
      else match reqTarget q with
        | some (.loc c _, _) => arriveLocal s c q.ctx (fun s => holdReq s q c) fun s => performReq s q
        | _ => performReq s q)

/-- ORDERED_ARRIVAL (R271): accepted, dropped as stale, or refused; an entry that then stands at NEXT asks for its application. -/
def execOrderedArrival (idx : Nat) (s : State) : Res :=
  commit s (match s.reqs[idx]? with
    | none => s
    | some q => match q.kind with
      | .ordered float sq pa val state _ =>
        if state == 1 || !atomicSlot s q || !reqReady s q then s
        else match groupFor s q.ctx pa with
          | none => atomicCap s q pa
          | some gid =>
            let ring := homeRing s pa
            let r := ringOf s ring
            match NMap.find r.groups gid with
            | none => atomicCap s q pa
            | some g =>
              let dist := diff32 sq g.next
              let held := match NMap.find g.window (sq % 64) with
                | some e => e.seq == sq
                | none => false
              if 2 ^ 31 ≤ dist ∨ held = true then
                dropReq (setRing s ring { r with groups := NMap.put r.groups gid { g with stale := Nat.min (g.stale + 1) (2 ^ 16 - 1) } }) q.id
              else if 63 < dist then
                { s with reqs := s.reqs.map fun p => if p.id = q.id then { p with kind := .ordered float sq pa val 1 s.clk } else p }
              else
                let e : OEntry := { wid := q.id, seq := sq, pa := pa, float := float, val := val, tag := q.tag, ctx := q.ctx,
                                    frame := q.frame, act := q.act, lin := q.lin, treat := q.treat, share := q.share }
                let s := setRing s ring { r with groups := NMap.put r.groups gid { g with window := NMap.put g.window (sq % 64) e } }
                askApply (dropReq s q.id) ring gid
      | _ => s)

/-- ORDERED_RESEND (R271): a refused entry is sent again, over the points of its way, 64 clk or more after its refusal. -/
def execOrderedResend (idx : Nat) (s : State) : Res :=
  commit s (match s.reqs[idx]? with
    | none => s
    | some q => match q.kind with
      | .ordered float sq pa val 1 since =>
        if since + 64 ≤ s.clk then
          requestAccess { s with reqs := s.reqs.map fun p => if p.id = q.id then { p with kind := .ordered float sq pa val 2 0 } else p }
            (ctxCore q.ctx) (ctxOwner q.ctx) q.id (.pa pa) q.treat q.share true false
        else s
      | _ => s)

/-- WATCH_ARRIVAL (R272): refused with CAP, fired at once, taken, or waiting for one of the four places. -/
def execWatchArrival (idx : Nat) (s : State) : Res :=
  commit s (match s.reqs[idx]? with
    | none => s
    | some q => match q.kind with
      | .watch sq pa task =>
        if !reqReady s q then s
        else match groupFor s q.ctx pa with
          | none => atomicCap s q pa
          | some gid =>
            let ring := homeRing s pa
            let r := ringOf s ring
            match NMap.find r.groups gid with
            | none => atomicCap s q pa
            | some g =>
              if diff32 g.next sq < 2 ^ 31 then sendTdec (dropReq s q.id) (ctxOwner q.ctx) task q.tag
              else if 4 ≤ g.watches.length then s
              else
                let g' := { g with watches := g.watches ++ [(sq, ctxOwner q.ctx, task, q.tag)] }
                dropReq (setRing s ring { r with groups := NMap.put r.groups gid g' }) q.id
      | _ => s)

/-! ### Lock words (R273-R275) -/

/-- A lock address: aligned, on a device-DRAM page of treatment 0 or 2 (R273). -/
def lockOk (pa : Nat) (x : Xlat) : Bool := isDram pa && (x.treat == 0 || x.treat == 2)

/-- Goes on at a lock's address. -/
def lockAt (s : State) (va : Word) (k : State → Nat → Xlat → State) : State :=
  if va.toNat % 8 ≠ 0 then alignTrap s va
  else withWhere s va 2 (fun w =>
    match w with
    | .mem pa x => k s pa x
    | _ => protTrap s va) lockOk

/-- A lock operation of the issuing frame: 0 `rdlk`, 1 `wrlk`, 2 `rdul`, 3 `wrul`, 4 `lkinit`. The first two park until
their status returns, as an acquire (R275); the others are releases and owe d (R274). -/
def lockOp (op : Nat) (d : Reg) (va : Word) (task : Option (Nat × Nat)) (pref : Bool) (s : State) : State :=
  lockAt s va fun s pa x =>
    let rs := strongReads s (locsFrom pa 8)
    if !rs.isEmpty then park s [.settled [] rs]
    else if atomicsFull s (curCtx s) then park s [.atomics]
    else
      let id := s.nextId
      let s := newReq s (.lock op pa task pref) (some (.pa pa, 8)) (whereTreat (.mem pa x)) (whereShare (.mem pa x))
        (decide (2 ≤ op)) (decide (op < 2)) va
      afterLoad (owe s d id none) (if op < 2 then .acq else .weak) [id]

/-- `rdlk` and `wrlk`: b is a task record, or 0 for a try (R273). -/
def lockTake (op : Nat) (d a b : Reg) (s : State) : Res :=
  let v := rd s b
  commit s (if v = 0 then lockOp op d (rd s a) none false s
    else if (rd s a).toNat % 8 ≠ 0 then alignTrap s (rd s a)
    else if v.toNat % 32 ≠ 0 then alignTrap s v
    else withTask s (rd s a) v lockOk fun t => lockOp op d (rd s a) (some t) false s)

/-- `rdlk` (R274). -/
def execRdlk (d a b : Reg) (s : State) : Res := lockTake 0 d a b s
/-- `wrlk` (R274). -/
def execWrlk (d a b : Reg) (s : State) : Res := lockTake 1 d a b s
/-- `rdul` (R274). -/
def execRdul (d a : Reg) (s : State) : Res := commit s (lockOp 2 d (rd s a) none false s)
/-- `wrul` (R274). -/
def execWrul (d a : Reg) (s : State) : Res := commit s (lockOp 3 d (rd s a) none false s)
/-- `lkinit` (R274): b[0] is WPREF, other bits ILL. -/
def execLkinit (d a b : Reg) (s : State) : Res :=
  commit s (if 2 ≤ (rd s b).toNat then illOperand s else lockOp 4 d (rd s a) none (bit (rd s b) 0) s)

/-- The fields of a lock word (R273). -/
structure LockW where
  rd : Nat
  wr : Bool
  pref : Bool

/-- The word of its fields and the queued requests. -/
def lockWord (l : LockW) (qr qw : Nat) : Nat :=
  l.rd + b2n l.wr * 2 ^ 16 + b2n l.pref * 2 ^ 17 + qr * 2 ^ 32 + qw * 2 ^ 48

/-- Queued requests of a kind at a lock. -/
def queuedAt (ws : List Waiter) (pa : Nat) (writer : Bool) : List Waiter :=
  ws.filter fun w => w.pa == pa && w.writer == writer

/-- HANDOFF (R274): the new word, the waiters left, and those granted. RD past its field is a free value (log 6). -/
def handoff (l : LockW) (ws : List Waiter) (pa free : Nat) : LockW × List Waiter × List Waiter :=
  let qr := queuedAt ws pa false
  let qw := queuedAt ws pa true
  match qw with
  | w :: _ =>
    if !l.wr && l.rd == 0 && (l.pref || qr.isEmpty) then ({ l with wr := true }, ws.erase w, [w])
    else if !l.wr && !qr.isEmpty && !l.pref then
      ({ l with rd := if l.rd + qr.length < 2 ^ 16 then l.rd + qr.length else Config.freeNat free % 2 ^ 16 },
       ws.filter fun x => !(x.pa == pa && !x.writer), qr)
    else (l, ws, [])
  | [] =>
    if !l.wr && !qr.isEmpty then
      ({ l with rd := if l.rd + qr.length < 2 ^ 16 then l.rd + qr.length else Config.freeNat free % 2 ^ 16 },
       ws.filter fun x => !(x.pa == pa && !x.writer), qr)
    else (l, ws, [])

/-- One lock operation (R274): status, new fields, waiters left, waiters granted. -/
def lockResult (op : Nat) (l : LockW) (ws : List Waiter) (pa free : Nat) (me : Option Waiter) (pref : Bool) :
    Nat × LockW × List Waiter × List Waiter :=
  let qr := (queuedAt ws pa false).length
  let qw := (queuedAt ws pa true).length
  match op with
  | 0 =>
    if !l.wr && (!l.pref || qw == 0) && decide (l.rd < 65535) then (0, { l with rd := l.rd + 1 }, ws, [])
    else match me with
      | none => (3, l, ws, [])
      | some w => if 256 ≤ ws.length ∨ qr = 65535 then (2, l, ws, []) else (1, l, ws ++ [w], [])
  | 1 =>
    if !l.wr && l.rd == 0 && qw == 0 && (l.pref || qr == 0) then (0, { l with wr := true }, ws, [])
    else match me with
      | none => (3, l, ws, [])
      | some w => if 256 ≤ ws.length ∨ qw = 65535 then (2, l, ws, []) else (1, l, ws ++ [w], [])
  | 2 => if l.rd = 0 then (1, l, ws, []) else
      let h := handoff { l with rd := l.rd - 1 } ws pa free
      (0, h.1, h.2.1, h.2.2)
  | 3 => if !l.wr then (1, l, ws, []) else
      let h := handoff { l with wr := false } ws pa free
      (0, h.1, h.2.1, h.2.2)
  | _ => if l.rd == 0 && !l.wr && qr == 0 && qw == 0 then (0, { l with pref := pref }, ws, []) else (1, l, ws, [])

/-- An unlock's tag holds what the holders before it that have unlocked the word in turn knew (R275). -/
def addLockTag (s : State) (q : Req) (pa : Nat) : State :=
  let ring := homeRing s pa
  let r := wrec s q.id
  match r.tag with
  | none => s
  | some t =>
    let ws := unionNat (NMap.get (ringOf s ring).lockTags pa []) t.writes
    let s := { s with hist := NMap.put s.hist q.id { r with tag := some { t with writes := ws } } }
    setRing s ring { ringOf s ring with lockTags := NMap.put (ringOf s ring).lockTags pa ws }

/-- One lock step of the unit (R274, R275): the word is written where it changes, grants decrement their records with the
unlock's tag, and a grant at once is an acquire. -/
def lockStep (q : Req) (op pa : Nat) (task : Option (Nat × Nat)) (pref : Bool) (s : State) : State :=
  let ring := homeRing s pa
  let locs := locsFrom pa 8
  if locs.any fun l => poisoned s l then atomicPoison s q true
  else
    let old := rdNat s pa 8
    let l : LockW := { rd := old % 2 ^ 16, wr := old / 2 ^ 16 % 2 == 1, pref := old / 2 ^ 17 % 2 == 1 }
    let me := task.map fun t => ({ pa := pa, writer := op == 1, owner := ctxOwner q.ctx, record := t, ctx := q.ctx } : Waiter)
    let r := lockResult op l (ringOf s ring).waiters pa s.free me pref
    let new := lockWord r.2.1 (queuedAt r.2.2.1 pa false).length (queuedAt r.2.2.1 pa true).length
    let ws := settledAt s locs
    let s := setRing { s with free := s.free + 1 } ring { ringOf s ring with waiters := r.2.2.1 }
    let s := if (op = 2 ∨ op = 3) ∧ r.1 = 0 then addLockTag s q pa else s
    let s := if new = old then s else removeTracked (reqWrite s q pa (leBytes new 8) ws) pa
    let s := readAtHome s q.ctx ws (decide (op < 2) && r.1 == 0)
    let s := if op < 2 ∧ r.1 = 0 then learn s q.ctx (NMap.get (ringOf s ring).lockTags pa []) else s
    let tag := match (wrec s q.id).tag with | some t => t.writes | none => []
    let s := r.2.2.2.foldl (fun s w => sendTdec s w.owner w.record tag) s
    dropReq (answer (charge s (ctxOwner q.ctx) 3) (ctxCore q.ctx) q.frame q.act q.id (word r.1)) q.id

/-- A lock operation reaches the unit of its word's home: the check of its region, M sectors recalled, then its step (R251, R280). -/
def performLock (s : State) (q : Req) (op pa : Nat) (task : Option (Nat × Nat)) (pref : Bool) : State :=
  if decide (4 ≤ q.treat) && !capAllows s q.ctx pa .store then atomicCap s q pa
  else onceRecalled s q.ctx (.pa pa) (lockStep q op pa task pref)

/-- LOCK_STEP (R274): the lock operation at an index is performed if it may be. -/
def execLockStep (idx : Nat) (s : State) : Res :=
  commit s (match s.reqs[idx]? with
    | none => s
    | some q => match q.kind with
      | .lock op pa task pref => if atomicSlot s q && reqReady s q then performLock s q op pa task pref else s
      | _ => s)

end Sys2Proof.Machine
end

