-- ==== Sys2Proof/Machine/Settle.lean ====
section
/-! DEFINITION. The steps that settle entries, serve reads, write results and return refusals (R81-R84, R127, R133,
R158, R164, R230, R281). -/

namespace Sys2Proof.Machine

open Sys2Proof

/-! ### Settling and coalescing (R82) -/

/-- An entry waits in the inbound queue of its target's ring (R158). -/
def holdEntry (s : State) (k core : Nat) (e : QEntry) : State :=
  let x := ctxOf s k
  holdInbound (wakeRemote (setCtx s k { x with queue := x.queue.map fun y => if y.id = e.id then { y with held := true } else y }) k core) core (ctxOwner k)
    (.write k e.id)

/-- The clk is a slot of the unit that serves a target: the array of a local bank, an L1 or a home slice, or a link-die port
(R393). -/
def unitSlot (s : State) (t : Tgt) : Bool :=
  match t with
  | .pa a => railSlot s (if isWindow a then 3 else 2)
  | .loc _ _ => railSlot s 2

/-- A write that an L1 holds dirty joins the points of its way to its home, which time it (R221, R251). -/
def askWriteBack (s : State) (k : Nat) (e : QEntry) (w : Nat) (t : Tgt) (treat : Nat) : State :=
  let c := ctxOf s k
  requestAccess (setCtx s k { c with queue := c.queue.map fun x => if x.id = e.id then { x with quiet := false } else x }) (ctxCore k)
    (ctxOwner k) w t treat e.share true false

/-- SETTLE (R82): the entry at an index of a context's queue settles if it may; one for local memory arrives there first, and one that
an L1 holds dirty first asks for its way. -/
def execSettle (ctx idx : Nat) (s : State) : Res :=
  commit s (match (ctxOf s ctx).queue[idx]? with
    | none => s
    | some e => match e.body with
      | .write w t _ treat =>
        if !unitSlot s t || !settleReady s ctx idx e w t treat then s
        else if e.quiet then askWriteBack s ctx e w t treat
        else match t with
          | .loc c _ => arriveLocal s c ctx (fun s => holdEntry s ctx c e) fun s => settleEntry s ctx e w t treat
          | .pa _ => settleEntry s ctx e w t treat
      | .marker => if (ctxOf s ctx).queue.head? == some e then dropEntry s ctx e.id else s
      | _ => s)

/-- COALESCE (R82): a weak store entry goes in favour of a later entry that covers it, with no release and no marker
between them, and no step that is to see the earlier one (R337). -/
def execCoalesce (ctx idx : Nat) (s : State) : Res :=
  let q := (ctxOf s ctx).queue
  commit s (match q[idx]? with
    | none => s
    | some e => match e.body with
      | .write w _ _ _ =>
        let locs := entryLocs s (ctxOwner ctx) e
        let ok := (upto q.length).any fun j => decide (idx < j) && (match q[j]? with
          | some x => locs.all (fun l => (entryLocs s (ctxOwner ctx) x).contains l)
              && (((q.take j).drop (idx + 1)).all fun y => !y.rel && y.body != .marker)
              && !((entryWrite x).any fun v => panelMet s ctx e v (w + 1))
          | none => false)
        if e.weak && !e.held && ok then discardEntry s ctx e w else s
      | _ => s)

/-! ### Serving reads (R82-R84, R86) -/

/-- The bytes of a read from their writes; what the host and peers hold is free (R230, log 23). -/
def readValue (s : State) (locs ws : List Nat) : List Byte :=
  (upto locs.length).map fun i =>
    let a := locs.getD i 0
    let w := ws.getD i 0
    if isWindow a && (w == 0 || s.log.contains w) then Config.freeByte (s.free + i) else writeByte s w a

/-- The value of a read as the register receives it (R161). -/
def extended (sx : Bool) (bs : List Byte) : Word :=
  let n := 8 * bs.length
  let v := leValue bs
  if sx && v / 2 ^ (n - 1) % 2 == 1 then BitVec.ofInt 64 ((v : Int) - 2 ^ n) else word v

/-- A read returns writes: knowledge and tags by its mode (R79, R84, R86), and its value to the owed result. -/
def returnRead (s : State) (r : Read) (locs ws : List Nat) : State :=
  let v := extended r.sx (readValue s locs ws)
  let s := cancelAt { s with free := s.free + locs.length, reads := s.reads.filter fun x => x.id != r.id } [r.id]
  let ids := (ws.foldl insNat []).filter fun w => w != 0
  let s := if 1 ≤ r.mode then readAtHome s r.ctx ids (r.mode == 2) else s
  let core := ctxCore r.ctx
  let f := frameOf s core r.frame
  let s := if f.act = r.act then setFrame s core r.frame { f with seen := unionNat f.seen ids } else s
  answer s core r.frame r.act r.owed v

/-- A read is refused (R158, R230): PROT as the refusal returns. -/
def refuseRead (s : State) (r : Read) : State :=
  bounce (cancelAt { s with reads := s.reads.filter fun x => x.id != r.id } [r.id]) r.ctx r.frame r.act 0x06 r.va r.pc
    (frameOf s (ctxCore r.ctx) r.frame).lin r.id

/-- A read waits in the inbound queue of its target's ring, and its frame parks for it (R158). Where the frame runs the trap handler
and the read is not the handler's, it parks neither then nor after `tret` (DESIGN CHOICE, log 100). -/
def holdRead (s : State) (r : Read) (core : Nat) : State :=
  let me := ctxCore r.ctx
  let f := frameOf s me r.frame
  let s := { s with reads := s.reads.map fun x => if x.id = r.id then { x with parked := true } else x }
  let s := holdInbound s core (ctxOwner r.ctx) (.read r.id)
  if f.act ≠ r.act ∨ (handlerOf s me r.frame && !handlerIssued s me r.frame r.id) = true then s
  else
    let old := match f.st with | .parked cs => cs | _ => []
    setFrame s me r.frame { f with st := .parked (old ++ [.answer r.owed]), since := s.clk }

/-- A read served at its home: lost regions, lost links and refusals, poison, or the writes, which for a strong or acquire read are
those settled once M sectors of other L1s are recalled (R82, R98, R160, R230, R251). Whether the host or a peer refuses is free (log 6). -/
def serveRead (s : State) (r : Read) (ws : State → List Nat → List Nat) : State :=
  let locs := readLocs s r
  let owner := ctxOwner r.ctx
  match r.tgt with
  | .loc c o =>
    if (localLoc s c owner o).isNone then refuseRead s r
    else if locs.any fun l => poisoned s l then parkRead s r 0x08
    else returnRead s r locs (ws s locs)
  | .pa a =>
    if lostAt s a then parkRead s r 0x09
    else if isWindow a then
      if (decide (Config.peerBase ≤ a) && s.linksLost.contains (a / 2 ^ 34 % 16)) || Config.freeBool s.free then
        refuseRead { s with free := s.free + 1 } r
      else returnRead (charge { s with free := s.free + 1 } owner (accessEnergy a r.treat)) r locs (ws s locs)
    else
      let go := fun (s : State) =>
        if locs.any fun l => poisoned s l then parkRead s r 0x08
        else returnRead (charge s owner (accessEnergy a r.treat)) r locs (ws s locs)
      if r.mode = 0 then go s else onceRecalled s r.ctx r.tgt go

/-- A read reaches its home; one of local memory arrives at the bank first (R158). -/
def homeRead (s : State) (r : Read) (ws : State → List Nat → List Nat) : State :=
  match r.tgt with
  | .loc c _ => arriveLocal s c r.ctx (fun s => holdRead s r c) fun s => serveRead s r ws
  | .pa _ => serveRead s r ws

/-- A read of the reader's own local memory, which is served at the bank (R90). -/
def ownLocal (r : Read) : Bool := match r.tgt with | .loc c _ => c == ctxCore r.ctx | .pa _ => false

/-- The read's bytes from the youngest queue entries, where each has one. -/
def queueSource (s : State) (k : Nat) (locs : List Nat) : Option (List Nat) :=
  locs.foldr (fun l o => match youngest s k l, o with
    | some w, some r => some (w :: r)
    | _, _ => none) (some [])

/-- A read's target lies in a lost region (R98). -/
def readLost (s : State) (r : Read) : Bool := match r.tgt with | .pa a => lostAt s a | .loc _ _ => false

/-- Serves a weak read from the queue (R82), but one of own local memory (R90); one of a lost region parks (R98). -/
def serveQueue (s : State) (r : Read) : State :=
  let locs := readLocs s r
  if readLost s r then parkRead s r 0x09
  else match queueSource s r.ctx locs with
  | some ws =>
    if !ownLocal r && allCandidates s r.ctx locs ws && allOrNone s locs ws then returnRead s r locs ws else s
  | none => s

/-- Serves a weak read from the L1 copy, where it holds every byte (R82, R232). -/
def serveL1 (s : State) (r : Read) : State :=
  match r.tgt with
  | .loc _ _ => s
  | .pa a =>
    match l1Line s (ctxCore r.ctx) (ctxOwner r.ctx) a (r.treat % 4) with
    | none => s
    | some l =>
      let locs := readLocs s r
      let ws := locs.map fun x => NMap.get l.vals x 0
      if !(locs.all fun x => (NMap.find l.vals x).isSome) then s
      else if l.poison then parkRead s r 0x08
      else if allCandidates s r.ctx locs ws && allOrNone s locs ws then
        let lc := l1Core s (ctxCore r.ctx) (ctxOwner r.ctx) a
        returnRead (charge (putL1 s lc { l with used := s.clk }) (ctxOwner r.ctx) 1) r locs ws
      else s

/-- The write of a byte that a weak read can return: the last settled one, or where that is no candidate the youngest entry of the
queue (R83). -/
def homeSource (s : State) (r : Read) (l : Nat) : Nat :=
  if candidate s r.ctx l (lastSettled s l) then lastSettled s l else (youngest s r.ctx l).getD (lastSettled s l)

/-- A queue entry may supply a byte of a read that the write set serves elsewhere, against its single source (R75), only where a
release waits for this read: else neither could go on (R82-R84, R90; DEDUCED, log 64). -/
def queueMay (s : State) (r : Read) (l w : Nat) : Bool :=
  youngest s r.ctx l == some w && (ctxOf s r.ctx).queue.any fun e => e.reads.contains r.id

/-- An L1 held the read at its issue, so that it has no request in the fabric (R234). -/
def unasked (r : Read) : Bool := r.mode == 0 && r.treat % 4 != 2 && !r.miss && (tgtPa r.tgt).isSome

/-- A read that its L1 serves no more becomes a miss, once an entry is free for it, and joins the points of its way (R211, R234). -/
def askRead (s : State) (r : Read) : State :=
  let ms := missesOf s r.ctx
  if 16 ≤ ms.length ∧ (tgtPa r.tgt).all (fun a => !ms.contains (a / 64)) = true then s
  else requestAccess { s with reads := s.reads.map fun x => if x.id = r.id then { x with miss := true } else x } (ctxCore r.ctx)
    (ctxOwner r.ctx) r.id r.tgt r.treat r.share false false

/-- Serves a weak read at its home, each byte from the write set or the queue, with a choice of one write for each byte, or those
that it can return. -/
def serveHome (s : State) (r : Read) (choice : List Nat) : State :=
  let locs := readLocs s r
  let ws := if choice.isEmpty then locs.map (homeSource s r) else choice
  let ok := ws.length == locs.length
    && ((upto locs.length).all fun i => (writeSet s (locs.getD i 0)).contains (ws.getD i 0) || queueMay s r (locs.getD i 0) (ws.getD i 0))
    && allCandidates s r.ctx locs ws && allOrNone s locs ws && !standsAt s r.id
  if !ok then s else if unasked r then askRead s r else homeRead s r fun _ _ => ws

/-- SERVE_WEAK (R82): the choice is 0 for the queue, 1 for the L1 copy, 2 with one write for each byte for the write set;
none stands for the queue where it holds every byte, else the last settled writes. -/
def execServeWeak (read : Nat) (choice : List Nat) (s : State) : Res :=
  commit s (match s.reads.find? fun r => r.id == read with
    | none => s
    | some r =>
      if r.mode ≠ 0 ∨ r.parked = true ∨ unitSlot s r.tgt = false then s
      else match choice with
        | 0 :: _ => serveQueue s r
        | 1 :: _ => serveL1 s r
        | _ :: ws => serveHome s r ws
        | [] => if !ownLocal r && (queueSource s r.ctx (readLocs s r)).isSome then serveQueue s r else serveHome s r [])

/-- SERVE_AT_HOME (R82, R84, R97): a strong or acquire read returns the last settled write, once the entries that stood
before it are gone, its back-invalidations applied, and earlier acquires of the frame served. -/
def execServeAtHome (read : Nat) (s : State) : Res :=
  commit s (match s.reads.find? fun r => r.id == read with
    | none => s
    | some r =>
      let ok := unitSlot s r.tgt && decide (1 ≤ r.mode) && !r.parked && !standsAt s r.id && releasable s r.ctx r.after [] [] []
        && (r.inval.all fun i => !invalQueued s i)
        && (s.reads.all fun x => !(x.ctx == r.ctx && x.frame == r.frame && x.mode == 2 && decide (x.id < r.id)))
      if ok then homeRead s r fun s locs => locs.map (lastSettled s) else s)

/-! ### Results and refusals (R127, R133, R158, R281) -/

/-- A half of a `ld.q` whose other half is on its way, which may still fault (R72). -/
def halfOpen (s : State) (id : Nat) : Bool := s.reads.any fun r => r.pair == id

/-- RESULT_RETURN (R133): an owed result whose value is there is written to its register, those of a `ld.q` once both are there. -/
def execResultReturn (core frame idx : Nat) (s : State) : Res :=
  commit s
    (let f := frameOf s core frame
     match f.owed[idx]? with
     | none => s
     | some o => match o.val with
       | none => s
       | some v =>
         if halfOpen s o.id then s else
         let f1 := { f with owed := dropAt f.owed idx }
         let r : BitVec 5 := BitVec.ofNat 5 o.reg
         if 32 ≤ o.reg then
           let s1 := setFrame s core frame f1
           if r = 0 then s1
           else setCore s1 core { coreOf s1 core with hregs := (coreOf s1 core).hregs.set r.toNat v r.isLt }
         else
           let f2 := if r = 0 then f1 else { f1 with regs := f1.regs.set r.toNat v r.isLt }
           let kept := f2.learn.filter fun p => p.1 != o.reg
           setFrame s core frame { f2 with learn := match o.learn with
             | some l => kept ++ [(o.reg, l)]
             | none => kept })

/-- REFUSAL_RETURN (R158, R230, R265, R281): the refusal terminates its activation; a CAP refusal of an ended one counts
in its lineage's ERRORS. In the handler it is a double trap; one for the activation that the handler interrupts waits. -/
def execRefusalReturn (idx : Nat) (s : State) : Res :=
  commit s (match s.refusals[idx]? with
    | none => s
    | some b =>
      let core := ctxCore b.ctx
      let f := frameOf s core b.frame
      let s1 := { s with refusals := dropAt s.refusals idx, cur := (core, b.frame) }
      if f.act ≠ b.act ∨ f.st = .free then (if b.cause = 0x07 then countError s1 b.lin else s1)
      else if handlerIssued s core b.frame b.id then doubleTrap s1
      else if handlerOf s core b.frame then s
      else terminate (writeTrapRegs s1 b.cause 0 b.addr b.pc f.owner) core b.frame b.cause 0 b.addr b.pc)

/-- FETCH_REFILL (R164): the next word in sequence enters a frame's fetch buffer. -/
def execFetchRefill (core frame : Nat) (s : State) : Res :=
  commit s
    (let f := frameOf s core frame
     let inSeq := match f.fbuf with
       | (o, _) :: _ => o == f.pc.toNat || o == f.pc.toNat + 4
       | [] => false
     let buf := if inSeq then f.fbuf else []
     let next := match buf.getLast? with
       | some (o, _) => o + 4
       | none => f.pc.toNat
     if f.st = .free ∨ 8 ≤ buf.length then s
     else match localLoc s core f.owner next with
       | none => s
       | some a =>
         if poisoned s a then s
         else setFrame s core frame { f with fbuf := buf ++ [(next, fetchWord s a)] })

/-- LINK_WRITE_ACK (R230): a write toward the host or a peer is acknowledged, or refused there, which is free (log 6): a
refused write is dropped and counted. -/
def execLinkWriteAck (write : Nat) (s : State) : Res :=
  commit s (if s.unacked.contains write then
      let s' := { s with free := s.free + 1, unacked := s.unacked.filter fun w => w != write }
      match writerCtx (wrec s write) with
      | some k => if Config.freeBool s.free then countDrop s' (ctxOwner k) else s'
      | none => s'
    else s)

end Sys2Proof.Machine
end

