-- ==== Sys2Proof/Machine/Buffers.lean ====
section
/-! DEFINITION. Circular buffers, handles, send windows, active messages and data-arrival handlers (R166-R178, R338), and
the departure and arrival of their messages (R91, R158, R174). -/

namespace Sys2Proof.Machine

open Sys2Proof

/-! ### Handles (R169-R171) -/

/-- The handle of the issuing frame. -/
def handleOf (s : State) (h : Nat) : Option Handle := NMap.find (curFrame s).handles h
/-- A vector command of the issuing frame that is not done has taken the handle, for a record or for a scale record (R95,
R309). -/
def handleTaken (s : State) (h : Nat) : Bool :=
  s.cmds.any fun c => c.ctx == curCtx s && c.frame == s.cur.2 && c.act == (curFrame s).act && (match c.kind, handleOf s h with
    | .vec _ _ _ _ _ _ _ _ _ _ _ _ taken _, some x => taken.any fun t => t.2.1 == x.hdr && (t.1 == 0 || t.1 == 3) == x.producer
    | _, _ => false)
/-- Parks while a vector command has the handle (R309). -/
def freeHandle (s : State) (h : Nat) (k : State) : State := if handleTaken s h then park s [.handle h] else k
/-- Sets a handle. -/
def setHandle (s : State) (h : Nat) (x : Handle) : State := setCur s { curFrame s with handles := NMap.put (curFrame s).handles h x }

/-- The live header of a handle. -/
def liveHeader (s : State) (k off : Nat) : Option Header := NMap.find (ctxOf s k).headers off

/-- A header that may be used at an offset: live, or valid in memory (R166, R167). -/
def usableHeader (s : State) (k off : Nat) : Option Header :=
  if off % 32 ≠ 0 then none else headerAt s k off

/-- Releases the handle of a frame (`hrel`, R170). -/
def dropHandle (s : State) (h : Nat) : State :=
  match handleOf s h with
  | none => s
  | some x =>
    let s := releaseHandle s (curCtx s) x
    setCur s { curFrame s with handles := NMap.del (curFrame s).handles h }

/-- Binds a handle and answers the status (R170). -/
def bindHandle (s : State) (h off : Nat) (producer : Bool) : State × Nat :=
  let k := curCtx s
  if 2 ^ 19 ≤ off then (s, 1)
  else match usableHeader s k off with
    | none => (s, 1)
    | some x =>
      if (if producer then x.pb || x.pv else x.cb || x.hv) then (s, 2)
      else if headersFull s k off then (s, 3)
      else
        let s := setHeader s k off (if producer then { x with pb := true } else { x with cb := true })
        (setHandle s h { hdr := off, producer := producer, cursor := if producer then x.head else x.tail }, 0)

/-- `hbind` (R170): a bound handle is released first. -/
def execHbind (d : Reg) (h : BitVec 4) (c : BitVec 6) (s : State) : Res :=
  let r := bindHandle (dropHandle s h.toNat) h.toNat (rd s d).toNat (c != 0)
  commit s (freeHandle s h.toNat (finish r.1 d (word r.2)))

/-- Slots not yet waited past: HEAD − C (R170). -/
def fullSlots (x : Header) (c : Nat) : Nat := diff32 x.head c
/-- Slots free for a producer: N − (P − TAIL) (R170). -/
def freeSlots (x : Header) (p : Nat) : Nat := slotsOf x - diff32 p x.tail

/-- A handle of the wanted side with cnt within N, else ILL (R169); then the instruction goes on with its header. -/
def withHandle (s : State) (h : Nat) (producer : Option Bool) (cnt : Nat) (k : Handle → Header → State) : State :=
  freeHandle s h <| match handleOf s h with
  | none => illOperand s
  | some x =>
    match liveHeader s (curCtx s) x.hdr with
    | none => illOperand s
    | some hd =>
      if (match producer with | some p => x.producer != p | none => false) || decide (slotsOf hd < cnt) then illOperand s
      else k x hd

/-- The context acquires the tags of slots c to c + n − 1 (R92, R170). -/
def acquireSlots (s : State) (k : Nat) (hd : Header) (c n : Nat) : State :=
  (hd.tags.filter fun p => decide (diff32 p.1 c < n)).foldl (fun s p => learn s k p.2) s

/-- `hwait` (R170). -/
def execHwait (d : Reg) (h : BitVec 4) (c : BitVec 6) (s : State) : Res :=
  commit s (withHandle s h.toNat (some false) c.toNat fun x hd =>
    if fullSlots hd x.cursor < c.toNat then park s [.full x.hdr x.cursor c.toNat]
    else finish (acquireSlots s (curCtx s) hd x.cursor c.toNat) d (word (Config.ownWindow + slotOff hd x.cursor)))

/-- `hfree` (R170). -/
def execHfree (d : Reg) (h : BitVec 4) (c : BitVec 6) (s : State) : Res :=
  commit s (withHandle s h.toNat (some true) c.toNat fun x hd =>
    if freeSlots hd x.cursor < c.toNat then park s [.room x.hdr x.cursor c.toNat]
    else finish s d (word (Config.ownWindow + slotOff hd x.cursor)))

/-- `hlda` (R170): a weak load of the current slot's doubleword. -/
def execHlda (d : Reg) (h : BitVec 4) (c : BitVec 6) (s : State) : Res :=
  commit s (withHandle s h.toNat (some false) 0 fun x hd =>
    if fullSlots hd x.cursor < 1 then park s [.full x.hdr x.cursor 1]
    else
      let o := slotOff hd x.cursor + 8 * c.toNat
      let s := acquireSlots s (curCtx s) hd x.cursor 1
      retire4 (issueRead s (.loc s.cur.1 o) 8 false 0 d (word (Config.ownWindow + o))))

/-- `hsta` (R170): a weak store of d to the current slot. -/
def execHsta (d : Reg) (h : BitVec 4) (c : BitVec 6) (s : State) : Res :=
  commit s (withHandle s h.toNat (some true) 0 fun x hd =>
    if freeSlots hd x.cursor < 1 then park s [.room x.hdr x.cursor 1]
    else
      let o := slotOff hd x.cursor + 8 * c.toNat
      let w : Where := .loc s.cur.1 o
      storeReady s w 8 1 (retire4 (clearWait (storeGroup s w (leBytes (rd s d).toNat 8) .weak (word (Config.ownWindow + o))))))

/-- Earlier reads of the issuing frame not yet served. -/
def frameReads (s : State) : List Nat := (releaseAfter s).2

/-- TAIL moves to C: the slots' tags go, the producer's window is credited (R170, R174). -/
def moveTail (s : State) (k off c : Nat) : State :=
  match liveHeader s k off with
  | none => s
  | some hd =>
    let hd := { hd with tail := c, tags := hd.tags.filter fun p => decide (diff32 p.1 c < 2 ^ 31) }
    sendCredit (setHeader s k off hd) k off hd

/-- n slots are published with a tag (R170, R92, R177). -/
def publishSlots (k off len sender : Nat) (lin : Lin) (tag : List Nat) : Nat → State → State
  | 0, s => s
  | n + 1, s => publishSlots k off len sender lin tag n (publishSlot s k off len sender lin tag)

/-- `hadv` (R170): a consumer frees slots once its loads are served; a producer publishes slots as a release. -/
def execHadv (d : Reg) (h : BitVec 4) (c : BitVec 6) (s : State) : Res :=
  commit s (withHandle s h.toNat none c.toNat fun x hd =>
    let k := curCtx s
    let n := c.toNat
    let cur := (x.cursor + n) % 2 ^ 32
    if !x.producer then
      if fullSlots hd x.cursor < n then park s [.full x.hdr x.cursor n]
      else if !(frameReads s).isEmpty then park s [.settled [] (frameReads s)]
      else finish (clearWait (moveTail (setHandle s h.toNat { x with cursor := cur }) k x.hdr cur)) d (word cur)
    else
      let rel := releaseAfter s
      let go := (curFrame s).granted || (decide (n ≤ freeSlots hd x.cursor) && releasable s k rel.1 rel.2 [] [])
      if !go then park s [.room x.hdr x.cursor n, .settled rel.1 rel.2]
      else
        let s := setHandle (clearWait s) h.toNat { x with cursor := cur }
        finish (publishSlots k x.hdr 64 s.cur.1 (curFrame s).lin (ctxOf s k).known n s) d (word cur))

/-- `hrel` (R170). -/
def execHrel (h : BitVec 4) (s : State) : Res := commit s (freeHandle s h.toNat (retire4 (dropHandle s h.toNat)))

/-! ### Send windows and messages (R172-R176, R338) -/

/-- Windows 0 to 3 of a frame that are closed, lowest first (R172). -/
def closedWindows (f : Frame) : List Nat := (upto 4).filter fun w => (NMap.find f.windows w).isNone

/-- `wopen` (R172): it parks while a command of the frame still sends through the window it would open (R319). -/
def execWopen (d a b : Reg) (s : State) : Res :=
  let x := rd s a
  let y := rd s b
  let core := bits x 12 0
  let req := bits x 31 16
  commit s (if 6144 ≤ core ∨ 1024 < req ∨ bits x 15 13 ≠ 0 ∨ 2 ^ 32 ≤ x.toNat ∨ 2 ^ 19 ≤ y.toNat then illOperand s
    else match closedWindows (curFrame s) with
    | [] => finish s d allOnes
    | w :: _ => if windowHeld s (curCtx s) s.cur.2 w then park s [.window w]
    else needSegment s 1 fun s =>
      let id := s.nextId
      let s := owe { s with nextId := id + 1 } d id none
      parkAnswer (post s core (curOwner s) (.wopen y.toNat req s.cur.2 (curFrame s).act id)) id)

/-- The bytes of own local memory as the issuing context sees them: its youngest entry, else the settled byte. -/
def ownView (s : State) (off n : Nat) : List Byte :=
  (upto n).map fun i =>
    let a := tgtBase s (curOwner s) (.loc s.cur.1 (off + i))
    match youngest s (curCtx s) a with
    | some w => writeByte s w a
    | none => byteAt s a

/-- Own local bytes that hold poison. -/
def ownPoisoned (s : State) (off n : Nat) : Bool :=
  (upto n).any fun i => poisoned s (tgtBase s (curOwner s) (.loc s.cur.1 (off + i)))

/-- `nsend` (R173). -/
def execNsend (d a b : Reg) (s : State) : Res :=
  let x := rd s a
  let off := (rd s b).toNat
  let w := bits x 1 0
  let len := bits x 22 16
  commit s (if bits x 15 2 ≠ 0 ∨ 2 ^ 23 ≤ x.toNat ∨ len = 0 ∨ 64 < len then illOperand s
    else match NMap.find (curFrame s).windows w with
      | none => illOperand s
      | some win =>
        if localSize s s.cur.1 (curOwner s) < off + len then protTrap s (rd s b)
        else if windowHeld s (curCtx s) s.cur.2 w then park s [.window w]
        else if win.win ≤ diff32 win.sent win.ack then park s [.credit w]
        else if ownPoisoned s off len then trap s 0x08 0 (rd s b)
        else needSegment s 1 fun s =>
          let data := ownView s off len ++ List.replicate (64 - len) 0
          let sent := (win.sent + 1) % 2 ^ 32
          let s := post s win.core (curOwner s) (.slot win.hdr data len (curFrame s).lin [])
          finish (setCur s { curFrame s with windows := NMap.put (curFrame s).windows w { win with sent := sent } }) d (word sent))

/-- `amsg` (R175). -/
def execAmsg (a b : Reg) (s : State) : Res :=
  let t := rd s a
  let e := rd s b
  commit s (if 6144 ≤ t.toNat ∨ 2 ^ 19 ≤ e.toNat then illOperand s
    else if e.toNat % 4 ≠ 0 then alignTrap s e
    else needSegment s 1 fun s => retire4 (post s t.toNat (curOwner s) (callStart s e.toNat (args4 s))))

/-- HV of a header goes, in its live state and in word 0 (R167, R176). -/
def clearHandler (s : State) (k off : Nat) : State :=
  let s := match liveHeader s k off with
    | some x => setHeader s k off { x with hv := false, sparse := false }
    | none => s
  if off % 32 ≠ 0 ∨ localSize s (ctxCore k) (ctxOwner k) < off + 32 then s
  else writeHandlerField s k off (leValue (rdLocal s (ctxCore k) (ctxOwner k) (off + 4) 4) % 2 ^ 17) false

/-- `mhdl` and `mspm` (R176, R338). -/
def handlerOp (sparse : Bool) (d a b : Reg) (s : State) : Res :=
  let off := (rd s a).toNat
  let v := rd s b
  let k := curCtx s
  commit s (if v = allOnes then
      finish (clearHandler s k (off % 2 ^ 19)) d 0
    else if 2 ^ 19 ≤ v.toNat then illOperand s
    else if v.toNat % 4 ≠ 0 then alignTrap s v
    else if 2 ^ 19 ≤ off then finish s d 1
    else match usableHeader s k off with
      | none => finish s d 1
      | some x =>
        if x.cb then finish s d 2
        else if headersFull s k off then finish s d 3
        else
          let x := { x with hv := true, hoff := v.toNat / 4, sparse := sparse }
          finish (writeHandlerField (setHeader s k off x) k off x.hoff true) d 0)

/-- `mhdl` (R176). -/
def execMhdl (d a b : Reg) (s : State) : Res := handlerOp false d a b s
/-- `mspm` (R338). -/
def execMspm (d a b : Reg) (s : State) : Res := handlerOp true d a b s

/-! ### Departure and arrival (R91, R158, R174, R178) -/

/-- Entries free in an owner's run queue on a core (R179). -/
def runqFree (s : State) (k : Nat) : Nat :=
  (banksOf s (ctxCore k) (ctxOwner k)).foldl (fun n b => n + (64 - ((ctxOf s k).runq.filter fun p => p.1 == b).length)) 0

/-- The start that a message is, or that the slot it brings raises (R177). -/
def startOf (s : State) (m : Msg) : Option Start :=
  match m.body with
  | .start st => some st
  | .slot off _ _ lin _ =>
    if !mustFollow s m.core m.owner m.ctx && (NMap.find (ctxOf s (ctxKey m.core m.owner)).headers off).any Header.hv then
      some { owner := m.owner, entry := 0, regs := [], lin := lin, tag := [], wid := 0, wfmt := 0, launch := none,
             slot := some (off, 0, false) }
    else none
  | _ => none

/-- Entries of their ring's inbound queue that messages would take, did they arrive now one after the other: starts, those that
slots raise among them, take the entries of their run queue first (R158, R178, R179). -/
def entriesTaken (s : State) (ms : List Msg) : Nat :=
  (ms.foldl (fun (a : Nat × NMap Nat) m => match startOf s m with
    | some st =>
      let k := ctxKey m.core st.owner
      let n := NMap.get a.2 k 0
      if runqOpen s m.core st && decide (n < runqFree s k) then (a.1, NMap.put a.2 k (n + 1)) else (a.1 + 1, a.2)
    | none => if mustFollow s m.core m.owner m.ctx then (a.1 + 1, a.2) else a) (0, [])).1

/-- The target ring can take the message, should it have to wait there, with those on their way (R178, R179). -/
def targetRoom (s : State) (m : Msg) : Bool :=
  let ring := ringOfCore s m.core
  let coming := s.net.filter fun x => ringOfCore s x.core == ring
  let before := entriesTaken s coming
  let after := entriesTaken s (coming ++ [m])
  after == before || decide ((ringOf s ring).inbound.length + after ≤ 256)

/-- MESSAGE_DEPART (R91): a message entry leaves the queue once its release condition holds. -/
def departEntry (s : State) (k idx : Nat) : State :=
  match (ctxOf s k).queue[idx]? with
  | none => s
  | some e => match e.body with
    | .msg core owner b =>
      let m : Msg := { id := e.id, ctx := k, frame := e.frame, act := e.act, core := core, owner := owner, body := b, tag := e.tag }
      if releasable s k e.after e.reads e.pub e.acked && targetRoom s m then dropEntry (launch s m) k e.id
      else s
    | _ => s

/-- An entry of a queue that goes to a core: a message, or a store through the remote window (R174). -/
def goesTo (k core : Nat) (e : QEntry) : Bool :=
  match e.body with
  | .msg c _ _ => c == core
  | .write _ (.loc c _) _ _ => c == core && c != ctxCore k
  | _ => false

/-- Messages of one context to one core arrive in issue order, after what went there before them (R174); those of the
hardware in any order, but for those of one launch record, which have a sender of their own (R193). -/
def inOrder (s : State) (m : Msg) : Bool :=
  ctxCore m.ctx == Config.cores
    || ((s.net.all fun x => !(x.ctx == m.ctx && x.core == m.core && decide (x.id < m.id)))
        && ((ctxOf s m.ctx).queue.all fun e => !(goesTo m.ctx m.core e && decide (e.id < m.id))))

/-- Messages that wake `idle` as they reach a core, but for the starts that enter its run queue, which count there (R381). -/
def wakes (m : Msg) : Bool :=
  match m.body with
  | .wopen .. => true
  | .credit .. => true
  | .close .. => true
  | .slot .. => true
  | .resume .. => true
  | .tdec .. => ctxCore m.ctx != m.core
  | .tinc .. => ctxCore m.ctx != m.core
  | .barrier .. => ctxCore m.ctx != m.core
  | _ => false

/-- Messages that a core's banks take, through their ports (R187, R173, R199, R298, R393). -/
def atBank : Body → Bool
  | .tdec .. => true
  | .tinc .. => true
  | .barrier .. => true
  | .slot .. => true
  | .tile .. => true
  | _ => false

/-- A message arrives at a core once it has its slots: in order, held where its owner has no bank or earlier ones still wait
(R158, R211), else taken; a slot that raises a start stays on its way until that has an entry to go to (R179). -/
def arrive (idx : Nat) (s : State) (p : Body → Bool) (k : State → Msg → State) : State :=
  match s.net[idx]? with
  | none => s
  | some m =>
    if !p m.body || !inOrder s m || standsAt s m.id || (atBank m.body && !railSlot s 2)
      || (startOf s m).any (fun st => !startRoom s m.core st) then s
    else
      let s' := { s with net := dropAt s.net idx }
      let s' := if wakes m then wakeCore s' m.core else s'
      if !mustFollow s m.core m.owner m.ctx then k s' m
      else if inboundRoom s (ringOfCore s m.core) then holdInbound s' m.core m.owner (.msg m)
      else s

/-- The frame that holds an activation: the one given, or the one it was restored into (R377). -/
def frameWith (s : State) (core frame act : Nat) : Nat :=
  match (coreOf s core).frames.find? fun p => p.2.st != .free && p.2.act == act with
  | some p => p.1
  | none => frame

/-- An open message at its target (R172). -/
def takeOpen (s : State) (m : Msg) : State :=
  match m.body with
  | .wopen off req frame act id =>
    let k := ctxKey m.core m.owner
    let reply := fun (s : State) (ans : Option (Nat × Nat × Nat × Nat)) =>
      sendMsg s k 0 0 (ctxCore m.ctx) m.owner (.wreply frame act id off ans) []
    match usableHeader s k off with
    | none => reply s none
    | some x =>
      if x.pb || x.pv || headersFull s k off then reply s none
      else
        let win := if req = 0 ∨ slotsOf x < req then slotsOf x else req
        let pwin := (closedWindows (frameOf s (ctxCore m.ctx) (frameWith s (ctxCore m.ctx) frame act))).headD 0
        let x := { x with pcore := ctxCore m.ctx, pframe := frame, pwin := pwin, pv := true, win := win }
        reply (setHeader s k off x) (some (pwin, win, x.head, x.tail))
  | _ => s

/-- The reply to an open (R172). The manual does not say what becomes of a reply whose opener has ended: here it is dropped and
no close is sent, so PV stays set at the target (DESIGN CHOICE, log 67). -/
def takeReply (s : State) (m : Msg) : State :=
  match m.body with
  | .wreply frame act id off ans =>
    let g := frameWith s m.core frame act
    let f := frameOf s m.core g
    if f.act ≠ act then s
    else match ans with
      | none => answer s m.core g act id allOnes
      | some (pwin, win, head, tail) =>
        let w : Window := { core := ctxCore m.ctx, hdr := off, win := win, sent := head, ack := tail, frame := frame }
        answer (setFrame s m.core g { f with windows := NMap.put f.windows pwin w }) m.core g act id
          (word (pwin + win * 2 ^ 16))
  | _ => s

/-- A sent slot at its target: the payload is written at HEAD, and the slot published (R173). The manual does not say what a slot
comes to whose header is no longer live: it is dropped, and counted as a dropped access is (DESIGN CHOICE, log 87). -/
def takeSlot (s : State) (m : Msg) : State :=
  match m.body with
  | .slot off data len lin bad =>
    let k := ctxKey m.core m.owner
    match liveHeader s k off with
    | none => countDrop s m.owner
    | some x =>
      let w := s.nextId
      let s := hwLocal s m.core m.owner (slotOff x x.head) data
      let s := match localLoc s m.core m.owner (slotOff x x.head) with
        | some a => { s with poison := bad.foldl (fun p u => insNat p (a + 8 * u)) s.poison }
        | none => s
      publishSlot s k off len (ctxCore m.ctx) lin (insNat m.tag w)
  | _ => s

/-- A credit at the producer: ACK where its window is open to that core and header, whichever frame holds it after a swap (R174). -/
def takeCredit (s : State) (m : Msg) : State :=
  match m.body with
  | .credit off tail frame win =>
    let k := ctxKey m.core m.owner
    let fits := fun (w : Window) => w.core == ctxCore m.ctx && w.hdr == off && w.frame == frame
    let ack := fun (w : Window) => if fits w then { w with ack := tail } else w
    let s := { s with orphans := s.orphans.map fun x => if x.1 = k ∧ x.2.2.2.1 = win then (x.1, x.2.1, x.2.2.1, x.2.2.2.1, ack x.2.2.2.2) else x }
    let c := coreOf s m.core
    setCore s m.core { c with frames := c.frames.map fun p =>
      (p.1, if p.2.owner = m.owner then { p.2 with windows := p.2.windows.map fun w => (w.1, if w.1 = win then ack w.2 else w.2) } else p.2) }
  | _ => s

/-- A close at the target clears PV (R174). -/
def takeClose (s : State) (m : Msg) : State :=
  match m.body with
  | .close off frame win =>
    let k := ctxKey m.core m.owner
    match liveHeader s k off with
    | some x =>
      if x.pv && x.pcore == ctxCore m.ctx && x.pframe == frame && x.pwin == win then setHeader s k off { x with pv := false }
      else s
    | none => s
  | _ => s

/-- WINDOW_OPEN_ARRIVAL (R172). -/
def execWindowOpenArrival (idx : Nat) (s : State) : Res :=
  commit s (arrive idx s (fun b => match b with | .wopen .. => true | _ => false) takeOpen)
/-- WINDOW_OPEN_REPLY (R172). -/
def execWindowOpenReply (idx : Nat) (s : State) : Res :=
  commit s (arrive idx s (fun b => match b with | .wreply .. => true | _ => false) takeReply)
/-- SLOT_ARRIVAL (R173). -/
def execSlotArrival (idx : Nat) (s : State) : Res :=
  commit s (arrive idx s (fun b => match b with | .slot .. => true | _ => false) takeSlot)
/-- CREDIT_ARRIVAL (R174). -/
def execCreditArrival (idx : Nat) (s : State) : Res :=
  commit s (arrive idx s (fun b => match b with | .credit .. => true | _ => false) takeCredit)
/-- WINDOW_CLOSE_ARRIVAL (R174). -/
def execWindowCloseArrival (idx : Nat) (s : State) : Res :=
  commit s (arrive idx s (fun b => match b with | .close .. => true | _ => false) takeClose)

end Sys2Proof.Machine
end

