-- ==== Sys2Proof/Machine/Tensor.lean ====
section
/-! DEFINITION. Tensor records and the tensor table (R286-R288), how engines reach memory (R94, R160, R256, R280, R292,
R310), engine commands and their counters (R93-R96, R284, R285, R301), and the number tables (R100-R102, R111-R114,
R124, R125). -/

namespace Sys2Proof.Machine

open Sys2Proof

/-! ### The tensor table (R286, R288) -/

/-- The code that refuses a record, 0 for none (R288). -/
def tdefCode (t : Tensor) : Nat :=
  if 12 < tFmt t then 1
  else if 2 < tKind t ∨ (tKind t = 0 ∧ 2 ^ 19 ≤ tBase t) ∨ (tKind t = 2 ∧ 2 ^ 4 ≤ tBase t) then 2
  else if (tDims t).any fun d => d == 0 then 3
  else if tScaled t = false ∧ bits (tWord t 5) 15 0 ≠ 0 then 4
  else if bits (tWord t 0) 63 8 ≠ 0 ∨ bits (tWord t 5) 7 4 ≠ 0 ∨ bits (tWord t 5) 63 16 ≠ 0 ∨ tWord t 6 ≠ 0 ∨ tWord t 7 ≠ 0 then 5
  else 0

/-- The entry of a tensor id. -/
def tensorAt (s : State) (k id : Nat) : Option Tensor := NMap.find (ctxOf s k).tensors id

/-- The own-window image of a record: 64-aligned, 64 bytes within the banks (R287). -/
def withImage (s : State) (va : Word) (k : Nat → State) : State :=
  if va.toNat % 64 ≠ 0 then alignTrap s va
  else match ownTarget s va with
    | none => protTrap s va
    | some off => if localSize s s.cur.1 (curOwner s) < off + 64 then protTrap s va else k off

/-- Words of a run of bytes. -/
def wordsOf (bs : List Byte) : Nat → List Word
  | 0 => []
  | n + 1 => word (leValue (bs.take 8)) :: wordsOf (bs.drop 8) n

/-- `tdef` (R288). -/
def execTdef (d a b : Reg) (s : State) : Res :=
  let id := (rd s a).toNat
  commit s (if 2 ^ 8 ≤ id then illOperand s
    else withImage s (rd s b) fun off =>
      if ownPoisoned s off 64 then trap s 0x08 0 (rd s b) true
      else
        let t : Tensor := { words := wordsOf (ownView s off 64) 8 }
        let code := tdefCode t
        let k := curCtx s
        let s := if code = 0 then setCtx s k { ctxOf s k with tensors := NMap.put (ctxOf s k).tensors id t } else s
        finish s d (word code))

/-- The eight weak stores of `tget`. -/
def storeWords (off : Nat) : List Word → State → State
  | [], s => s
  | w :: r, s =>
    storeWords (off + 8) r (storeGroup s (.loc s.cur.1 off) (leBytes w.toNat 8) .weak (word (Config.ownWindow + off)))

/-- `tget` (R288). -/
def execTget (d a b : Reg) (s : State) : Res :=
  let id := (rd s a).toNat
  commit s (if 2 ^ 8 ≤ id then illOperand s
    else withImage s (rd s b) fun off =>
      storeReady s (.loc s.cur.1 off) 64 8
        (let t := tensorAt s (curCtx s) id
         let ws := match t with
           | some t => (upto 8).map (tWord t)
           | none => List.replicate 8 0
         finish (clearWait (storeWords off ws s)) d (word (b2n t.isSome))))

/-- `tdrop` (R288). -/
def execTdrop (d a : Reg) (s : State) : Res :=
  let id := (rd s a).toNat
  let k := curCtx s
  commit s (if 2 ^ 8 ≤ id then illOperand s
    else
      let live := (tensorAt s k id).isSome
      finish (setCtx s k { ctxOf s k with tensors := NMap.del (ctxOf s k).tensors id }) d (word (b2n live)))

/-! ### How engines reach memory (R94, R158, R280, R310, R374) -/

/-- What reaching memory comes to: a value, a fault with its cause and address, or a wait, where that is for a walk with the address
and kind of access that miss. -/
inductive ERes (α : Type) where
  | ok (x : α)
  | fault (cause : Nat) (va : Word)
  | wait (miss : Option (Word × Nat))

/-- Goes on with a value. -/
def ERes.andThen {α β : Type} (r : ERes α) (f : α → ERes β) : ERes β :=
  match r with
  | .ok x => f x
  | .fault c v => .fault c v
  | .wait m => .wait m

/-- Every result of a list, or the first that is none. -/
def allOk {α : Type} : List (ERes α) → ERes (List α)
  | [] => .ok []
  | r :: rs => r.andThen fun x => (allOk rs).andThen fun xs => .ok (x :: xs)

/-- One byte as an engine reaches it: its location, none where a store is dropped; its page's treatment, sharing key and
single-writer mark; its virtual address. -/
structure ELoc where
  loc   : Option Nat
  treat : Nat
  share : Option Nat
  swr   : Bool
  va    : Word
deriving DecidableEq, Repr

/-- A byte of a pool-coherent page. -/
def ELoc.pool (l : ELoc) : Bool := l.treat == 3

/-- A byte of local memory, or one that a dropped store would write. -/
def plainLoc (a : Option Nat) (va : Word) : ELoc := { loc := a, treat := 2, share := none, swr := false, va := va }

/-- The walk entries of a ring as owner and page, given in arrival order: 64 to a ring and 16 of them to an owner (R374). -/
def walkEntries (s : State) (ring : Nat) : List (Nat × Nat) :=
  (s.walks.filter fun x => x.ring == ring).foldl (fun a x =>
    let p := (x.owner, x.va.toNat / 4096)
    if a.contains p || decide (64 ≤ a.length) || decide (16 ≤ (a.filter fun q => q.1 == x.owner).length) then a else a ++ [p]) []

/-- A read of a walk, made at home as its owner's request at the L2 port: a strong read, for which M sectors of L1s are recalled
(R82, R251, R374). -/
def entryRead (s : State) (ring core owner a : Nat) : State :=
  let s := charge { s with nextId := s.nextId + 1 } owner 3
  requestAt (atHome s (ctxKey core owner) (.pa a)) owner s.nextId (placeOf (.pa a) 0 none) (memoryPath s ring a 0 false)

/-- A successful walk enters the TLB of the ring, and that of a core (R374). -/
def cacheXlat (s : State) (ring : Nat) (core : Option Nat) (x : Xlat) : State :=
  let pick := Config.freeNat s.free
  let s := setRing { s with free := s.free + 1 } ring { ringOf s ring with tlb := tlbPut (ringOf s ring).tlb x 2048 pick }
  match core with
  | some c => setCore s c { coreOf s c with tlb := tlbPut (coreOf s c).tlb x 64 pick }
  | none => s

/-- What an access waits for is a walk that it has not asked for. -/
def asksWalk {α : Type} (s : State) (id : Nat) (r : ERes α) : Bool :=
  match r with
  | .wait (some _) => !(s.walks.any fun w => w.id == id)
  | _ => false

/-- It asks for it (R374). -/
def askWalk {α : Type} (s : State) (ring core owner id : Nat) (atCore : Bool) (r : ERes α) : State :=
  match r with
  | .wait (some m) => missWalk s (.unit atCore) ring core owner id m.1 m.2
  | _ => s

/-- The link of a peer address is lost (R391). -/
def peerLost (s : State) (pa : Nat) : Bool :=
  isWindow pa && decide (Config.peerBase ≤ pa) && s.linksLost.contains (pa / 2 ^ 34 % 16)

/-- A decoded byte for an engine; one that no TLB translates waits for a walk (R374), and bytes of an owner that is not resident wait
(R158). A lost peer link refuses, and whether
the host or a peer refuses a read is free (R230, log 6). -/
def engineLoc (s : State) (owner : Nat) (w : Where) (va : Word) (store : Bool) : ERes ELoc :=
  match w with
  | .fault c => .fault c va
  | .miss => .wait (some (va, b2n store))
  | .mem pa x =>
    if peerLost s pa && store then .ok (plainLoc none va)
    else if isWindow pa && !store && (peerLost s pa || Config.freeNat s.free % 2 == 1) then .fault 0x06 va
    else .ok { loc := some pa, treat := x.treat, share := whereShare (.mem pa x), swr := x.swr, va := va }
  | .loc c o =>
    if mustWait s c owner then .wait none
    else match localLoc s c owner o with
      | some a => .ok (plainLoc (some a) va)
      | none => if store then .ok (plainLoc none va) else .fault 0x06 va

/-- The byte an engine reads at a location, with its poison; host and peer bytes are free (R230, log 23). -/
def engineByte (s : State) (l : ELoc) (i : Nat) : Byte × Bool :=
  match l.loc with
  | none => (0, false)
  | some a => if isWindow a then (Config.freeByte (s.free + i), false) else (byteAt s a, poisoned s a)

/-- A byte of memory that an engine's access is for. -/
def beatPlace (l : ELoc) : Option Place :=
  (l.loc.filter fun a => !isLocal a && !isWindow a).map fun a => { pa := a, treat := l.treat, share := l.share }

/-- The sectors that some bytes lie in, each once, in the order of the bytes. -/
def sectorsOf (ls : List ELoc) : List Place := firstBy (fun p => p.pa / 64) (ls.filterMap beatPlace)

/-- Energy of the sectors that some bytes lie in (R396). -/
def sectorEnergy (ls : List ELoc) : Nat :=
  let far := firstBy (fun a => a / 64) ((ls.filterMap ELoc.loc).filter isWindow)
  (sectorsOf ls).foldl (fun n p => n + accessEnergy p.pa p.treat) 0 + far.foldl (fun n a => n + accessEnergy a 2) 0

/-- An entry goes into a map that may already hold its key, whose entry then stands. -/
def putNew {α : Type} (a : Nat) (v : α) : NMap α → NMap α
  | [] => [(a, v)]
  | (x, w) :: r => if a < x then (a, v) :: (x, w) :: r else if a = x then (x, w) :: r else (x, w) :: putNew a v r

/-- Bytes with their places, sorted, each place once: the last one given stands. -/
def placeCells (cells : List (ELoc × Byte × Bool)) : NMap (Byte × Bool × Bool × Word) :=
  cells.foldr (fun c m => match c.1.loc with
    | some a => putNew a (c.2.1, c.2.2, c.1.pool, c.1.va) m
    | none => m) []

/-- Write groups of at most 8 aligned bytes (R75): runs of consecutive locations, each with the virtual address of its
first byte. -/
def writeRuns : List (Nat × Byte × Bool × Bool × Word) → List (Nat × List Byte × Bool × Word)
  | [] => []
  | (a, b, _, p, va) :: r =>
    match writeRuns r with
    | (x, bs, q, vx) :: rest =>
      if x = a + 1 ∧ x % 8 ≠ 0 ∧ p = q then (a, b :: bs, p, va) :: rest else (a, [b], p, va) :: (x, bs, q, vx) :: rest
    | [] => [(a, [b], p, va)]

/-- Eight runs that fill an aligned sector of memory are one write group (R256). -/
def joinSectors : List (Nat × List Byte × Bool × Word) → List (Nat × List Byte × Bool × Word)
  | [] => []
  | g :: r =>
    let rest := joinSectors r
    let next := rest.take 7
    let fits := (upto 7).all fun i => (next[i]?).any fun x => x.1 == g.1 + 8 * (i + 1) && x.2.1.length == 8 && x.2.2.1 == g.2.2.1
    if g.1 % 64 = 0 ∧ isLocal g.1 = false ∧ g.2.1.length = 8 ∧ fits = true then
      (g.1, next.foldl (fun b x => b ++ x.2.1) g.2.1, g.2.2.1, g.2.2.2) :: rest.drop 7
    else g :: rest

/-- Accesses reach the homes of some sectors: M sectors of them are recalled from L1s (R94, R251). -/
def placesHome (s : State) (k : Nat) (ps : List Place) : State :=
  ps.foldl (fun s p => atHome s k (.pa (p.pa / 64 * 64))) s

/-- An engine's accesses reach their homes (R94, R251). -/
def engineHome (s : State) (k : Nat) (ls : List ELoc) : State := placesHome s k (sectorsOf ls)

/-- Accesses of a context to some sectors are made at once from its core: they join the points of their way, which time them
alone, and are charged (R17, R221, R396; DESIGN CHOICE, log 49). -/
def placesAccess (s : State) (k : Nat) (write : Bool) (ps : List Place) : State :=
  let s := requestSectors { s with nextId := s.nextId + 1 } (ringOfCore s (ctxCore k)) (ctxOwner k) s.nextId write ps
  placesHome (charge s (ctxOwner k) (ps.foldl (fun n p => n + accessEnergy p.pa p.treat) 0)) k ps

/-- An engine's accesses join the points of their ways from a ring, and are charged (R17, R94, R221, R396). -/
def engineAccess (s : State) (ring : Nat) (c : Cmd) (write : Bool) (ls : List ELoc) : State :=
  charge (requestSectors s ring (ctxOwner c.ctx) c.id write (ls.filterMap beatPlace)) (ctxOwner c.ctx) (sectorEnergy ls)

/-- Every write that precedes one of an engine at some places has settled (R81). -/
def mayWrite (s : State) (known : List Nat) (ls : List ELoc) : Bool := precedersSettled s known (ls.filterMap ELoc.loc)

/-- The lines of pool-coherent bytes are held exclusive (R345). -/
def linesHeld (s : State) (ls : List ELoc) : Bool :=
  ls.all fun l => !l.pool || (match l.loc with | some a => s.exclusive.contains (a / 256) | none => true)

/-- The first byte whose single-writer region refuses the context's store (R280), with its virtual address. -/
def refusedAt (s : State) (k : Nat) (ls : List ELoc) : Option (Nat × Word) :=
  ls.findSome? fun l => match l.loc with
    | some a => if l.swr && !capAllows s k a .store then some (a, l.va) else none
    | none => none

/-- The address of a place in a region whose loss discarded what the command had still to write there (R98). -/
def lostTo (s : State) (c : Cmd) (ls : List ELoc) : Option Word :=
  ls.findSome? fun l => match l.loc with
    | some a => (match regionAt s a with
      | some (i, _) => if isPool a && c.lost.contains i then some l.va else none
      | none => none)
    | none => none

/-- Writes whose bytes have no place: groups as they would be written (R75, R158, R230). -/
def droppedWrites (cells : List (ELoc × Byte × Bool)) : Nat :=
  let m := cells.foldr (fun c m => if c.1.loc.isNone then putNew c.1.va.toNat (c.2.1, c.2.2, false, c.1.va) m else m) []
  let far := fun (p : Nat × Byte × Bool × Bool × Word) => decide (p.1 < Config.ownWindow)
  (joinSectors (writeRuns (m.filter far))).length + (writeRuns (m.filter fun p => !far p)).length

/-- Bytes of an engine command are written (R94, R95): each group is a write of its context, which knows `known`; units
written from poison are poisoned, and units written whole in one group lose theirs (R160, R256); bytes with no place are
dropped and counted (R158). The answer lists the writes. -/
def engineStore (s : State) (c : Cmd) (known : List Nat) (cells : List (ELoc × Byte × Bool)) : State × List Nat :=
  let m := placeCells cells
  let s := (upto (droppedWrites cells)).foldl (fun s _ => countDrop s (ctxOwner c.ctx)) s
  let s := engineHome s c.ctx (cells.map Prod.fst)
  let r := (joinSectors (writeRuns m)).foldl (fun (r : State × List Nat) g =>
    if isWindow g.1 then
      let id := r.1.nextId
      let w : WRec := { writer := .ctx c.ctx, frame := c.frame, act := c.act, bytes := cellsAt g.1 g.2.1, known := known,
                        tag := none, pc := c.pc, va := g.2.2.2, pool := false, seq := c.id }
      ({ r.1 with nextId := id + 1, hist := NMap.put r.1.hist id w, log := id :: r.1.log, unacked := r.1.unacked ++ [id] },
       r.2 ++ [id])
    else
      let x := engineWrite r.1 c.ctx c.frame c.act known g.1 g.2.1 g.2.2.1 g.2.2.2 c.pc c.id
      (x.2, r.2 ++ [x.1])) (s, [])
  let bad := (m.filter fun p => p.2.2.1 && !isWindow p.1).foldl (fun a p => insNat a (poisonUnit p.1)) []
  ({ r.1 with poison := unionNat r.1.poison bad }, r.2)

/-! ### Engine commands and their counters (R93-R96, R283-R285, R301) -/

/-- The engine context of a class: 0 vector, 1 carousel, 2 streamer (R301). -/
def engOf (c : Ctx) (cls : Nat) : Eng := if cls = 0 then c.vec else if cls = 1 then c.car else c.str
/-- Sets it. -/
def setEng (c : Ctx) (cls : Nat) (e : Eng) : Ctx :=
  if cls = 0 then { c with vec := e } else if cls = 1 then { c with car := e } else { c with str := e }

/-- Commands of a class that the context has not done. -/
def openCount (s : State) (k cls : Nat) : Nat := (s.cmds.filter fun c => c.ctx == k && c.cls == cls).length

/-- A command is issued: it takes the class's next number, carries the context's knowledge, and starts once the entries
that stand in the queue are over (R93, R94). -/
def issueCmd (s : State) (cls : Nat) (kind : CmdKind) : Nat × State :=
  let k := curCtx s
  let c := ctxOf s k
  let e := engOf c cls
  let num := e.issued + 1
  let cmd : Cmd := { id := s.nextId, ctx := k, cls := cls, num := num, frame := s.cur.2, act := (curFrame s).act, pc := curPc s,
                     kind := kind, lin := (curFrame s).lin, after := c.queue.map QEntry.id, known := c.known, writes := [], asked := 0, lost := [],
                     finished := false }
  let s := setCtx { s with nextId := s.nextId + 1, cmds := s.cmds ++ [cmd] } k (setEng c cls { e with issued := num })
  let f := curFrame s
  (num, setCur s { f with lastn := NMap.put f.lastn cls num, cmds := f.cmds ++ [4 * num + cls], vec := f.vec || cls == 0 })

/-- The entries that stood before the command are over (R94). -/
def cmdFree (s : State) (c : Cmd) : Bool := (ctxOf s c.ctx).queue.all fun e => !c.after.contains e.id

/-- Replaces a command. -/
def setCmd (s : State) (c : Cmd) : State := { s with cmds := s.cmds.map fun x => if x.id = c.id then c else x }

/-- The command's writes have settled and, where pool-coherent, are published (R95). -/
def writesOver (s : State) (c : Cmd) : Bool := c.writes.all fun w => !s.unpub.contains w

/-- The counter passes the numbers that are done (R95). -/
def advanceEng : Nat → Eng → Eng
  | 0, e => e
  | n + 1, e =>
    if e.done.contains (e.counter + 1) then
      advanceEng n { e with counter := e.counter + 1, done := e.done.filter fun x => x != e.counter + 1 }
    else e

/-- What a command brings to a context that learns of it (R96): its writes and the knowledge it carried. -/
def cmdBrings (c : Cmd) : List Nat := unionNat c.known c.writes

/-- ENGINE_COMMAND_DONE (R95): the counter follows, and what the command held is freed (R283, R309, R325). -/
def execEngineCommandDone (ctx cls num : Nat) (s : State) : Res :=
  commit s (match s.cmds.find? fun c => c.ctx == ctx && c.cls == cls && c.num == num with
    | none => s
    | some c =>
      if c.finished && writesOver s c then
        let x := ctxOf s ctx
        let e := engOf x cls
        let e := { e with done := insNat e.done num, learn := e.learn ++ [(num, cmdBrings c)] }
        let s := reapHeaders (setCtx (freeAt { s with cmds := s.cmds.filter fun y => y.id != c.id } [c.id]) ctx
          (setEng x cls (advanceEng e.done.length e))) ctx
        match c.kind with
        | .car _ _ _ _ _ _ ring lease => leaseOver s ring lease
        | _ => s
      else s)

/-- `tlw` (R301). -/
def execTlw (d a b : Reg) (s : State) : Res :=
  let cls := (rd s a).toNat
  let v := (rd s b).toNat
  let k := curCtx s
  let e := engOf (ctxOf s k) cls
  commit s (if 3 ≤ cls then illOperand s
    else if (curFrame s).granted = false ∧ e.issued < v then engineTrap s
    else if e.counter < v then park s [.timeline cls v]
    else
      let got := (e.learn.filter fun p => decide (p.1 ≤ v)).foldl (fun l p => unionNat l p.2) []
      finish (learn (clearWait s) k got) d (word e.counter))

/-- `tlr` (R301). -/
def execTlr (d a : Reg) (s : State) : Res :=
  let x := (rd s a).toNat
  let cls := x % 4
  commit s (if 8 ≤ x ∨ cls = 3 then illOperand s
    else finish s d (word (if x / 4 = 0 then (engOf (ctxOf s (curCtx s)) cls).counter else NMap.get (curFrame s).lastn cls 0)))

/-! ### Number tables (R100-R102, R111-R114, R124, R125) -/

/-- Commands of the context that may still read its tables (R102). -/
def tableUsers (s : State) : List Nat :=
  (s.cmds.filter fun c => c.ctx == curCtx s && c.cls != 2 && !c.finished).map fun c => 4 * c.num + c.cls

/-- A load of a table begins: it waits for the commands that stand, and its answer is owed to d (R102). -/
def tableLoad (s : State) (d : Reg) (dec : Bool) (img num : Nat) : State :=
  let id := s.nextId
  let q : Req := { id := id, ctx := curCtx s, frame := s.cur.2, act := (curFrame s).act, kind := .table dec img num (tableUsers s),
                   treat := 2, share := none, lin := (curFrame s).lin, after := [], reads := [], pub := [], inval := [], tag := [], va := 0,
                   pc := curPc s, rel := false, parked := false }
  parkAnswer (owe { s with nextId := id + 1, reqs := s.reqs ++ [q] } d id none) id

/-- `dtld` (R125). -/
def execDtld (d a : Reg) (s : State) : Res :=
  let n := (rd s a).toNat
  commit s (if (ctxOf s (curCtx s)).decImg ≤ n then illOperand s else tableLoad s d true n 0)

/-- `cmld` (R125). -/
def execCmld (d a b : Reg) (s : State) : Res :=
  let n := (rd s a).toNat
  let t := (rd s b).toNat
  commit s (if (ctxOf s (curCtx s)).coefImg.length ≤ n ∨ 3 < t then illOperand s else tableLoad s d false n t)

/-- `dtchk` (R125). -/
def execDtchk (d : Reg) (s : State) : Res := commit s (finish s d (chkWord (ctxOf s (curCtx s)).dec))

/-- `enc` (R112, R125): DTBL where the table is not encodable. -/
def execEnc (d a : Reg) (s : State) : Res :=
  let t := (ctxOf s (curCtx s)).dec
  commit s (if (firstBad t).isSome then trap s 0x0C 0 0
    else
      let r := encV t (unpack fmtF32 (fread32 (rd s a)))
      finish (setCur s { curFrame s with fflags := Nat.lor (curFrame s).fflags r.2 }) d (word r.1))
where
  /-- The low 32 bits of a register. -/
  fread32 (x : Word) : Nat := x.toNat % 2 ^ 32

/-- `dec` (R125): the entry as F32, exact. -/
def execDec (d a : Reg) (s : State) : Res :=
  let t := (ctxOf s (curCtx s)).dec
  commit s (finish s d (word (roundTo fmtF32 0 (c8Value t ((rd s a).toNat % 256))).1))

/-- An F32 pattern is finite. -/
def finite32 (w : BitVec 32) : Bool := w.toNat / 2 ^ 23 % 256 != 255

/-- Breakpoints rise strictly. -/
def rising : List (BitVec 32) → Bool
  | a :: b :: r => ltV (unpack fmtF32 a.toNat) (unpack fmtF32 b.toNat) && rising (b :: r)
  | _ => true

/-- The table of a coefficient image, none where it breaks R113. R101 calls only fewer words than the header requires an error:
an image with more breaks R113's length here too (DESIGN CHOICE, log 71). -/
def coefImage (ws : List (BitVec 32)) : Option Coef :=
  let at' := fun i => ws.getD i (0 : BitVec 32)
  let n := (at' 0).toNat
  let bs := (upto n).map fun i => at' (4 + i)
  let cs := (upto n).map fun k => (upto 4).map fun j => at' (4 + n + 4 * k + j)
  if ws.length = 4 + 5 * n ∧ n ≤ 16 ∧ finite32 (at' 1) = true ∧ finite32 (at' 2) = true ∧ at' 3 = 0 ∧ bs.all finite32 = true
      ∧ rising bs = true ∧ (cs.all fun l => l.all fun c => !isNaN (unpack fmtF32 c.toNat)) = true then
    some { s := n, p := at' 1, pinv := at' 2, breaks := bs, coefs := cs }
  else none

/-- The place of an image within the loader's area, in words: decode images first, then the coefficient images, each
after the other (log 30). -/
def imagePlace (c : Ctx) (dec : Bool) (n : Nat) : Nat :=
  if dec then 256 * n else 256 * c.decImg + (c.coefImg.take n).foldl (· + ·) 0

/-- A parked instruction that owes an answer executes again after `fresume`: it takes no effect (R102). -/
def faultAgain (s : State) (q : Req) (cause : Nat) (addr : Word) : State :=
  let core := ctxCore q.ctx
  let gone := fun (s : State) => dropWalked { s with reqs := s.reqs.filter fun x => x.id != q.id } q.id
  accessFault s core q.frame q.act q.id gone fun s =>
    let f := frameOf s core q.frame
    let s := setFrame (gone s) core q.frame
      { f with owed := f.owed.filter (fun o => o.id != q.id), pc := q.pc, retDue := false, again := true }
    faultPark (writeTrapRegs s cause 0 addr q.pc f.owner) core q.frame cause addr q.pc none

/-- TABLE_REPLACE (R102): once its pages are translated, the image is read from memory and the table replaced in one step; XLAT leaves the table and executes the
instruction again after `fresume`, any other fault ends the activation. -/
def execTableReplace (core frame : Nat) (s : State) : Res :=
  commit s (match s.reqs.find? fun q => ctxCore q.ctx == core && q.frame == frame && (match q.kind with
      | .table .. => true
      | _ => false) with
    | none => s
    | some q => match q.kind with
      | .table dec img num cmds =>
        if s.cmds.any fun c => c.ctx == q.ctx && cmds.contains (4 * c.num + c.cls) && !c.finished then s
        else
          let c := ctxOf s q.ctx
          let owner := ctxOwner q.ctx
          let n := if dec then 256 else c.coefImg.getD img 0
          let base := c.imgBase + 4 * imagePlace c dec img
          let vas := (upto (4 * n)).map fun i => word (base + i)
          let locs := allOk (vas.map fun va => engineLoc s owner (unitWhere s core owner q.id va 0) va false)
          let gone := fun (s : State) => dropWalked { s with reqs := s.reqs.filter fun x => x.id != q.id } q.id
          let stop := fun (s : State) (cause : Nat) (va : Word) => accessFault s core frame q.act q.id gone fun s =>
            terminate (writeTrapRegs (gone s) cause 0 va q.pc owner) core frame cause 0 va q.pc
          match locs with
          | .wait _ => askWalk s (ringOfCore s core) core owner q.id true locs
          | .fault cause va => if cause = 0x05 ∨ cause = 0x09 then faultAgain s q cause va else stop s cause va
          | .ok ls =>
            let s1 := placesAccess s q.ctx false (sectorsOf ls)
            let bs := (upto ls.length).map fun i => match ls[i]? with
              | some l => engineByte { s1 with free := s.free } l i
              | none => (0, false)
            let s0 := gone { s1 with free := s1.free + ls.length }
            let c := ctxOf s0 q.ctx
            let at' := fun (i : Nat) => (BitVec.ofNat 32 (leValue (((bs.drop (4 * i)).take 4).map Prod.fst)) : BitVec 32)
            if bs.any Prod.snd then stop s1 0x08 (word base)
            else if dec then
              let t : NMap (BitVec 19) := (upto 256).map fun i => (i, (at' i).extractLsb' 0 19)
              answer (setCtx s0 q.ctx { c with dec := t }) core frame q.act q.id (chkWord t)
            else match coefImage ((upto n).map at') with
              | none => answer s0 core frame q.act q.id allOnes
              | some t => answer (setCtx s0 q.ctx { c with coef := NMap.put c.coef num t }) core frame q.act q.id (word t.s)
      | _ => s)

end Sys2Proof.Machine
end

