-- ==== Sys2Proof/Machine/Arbiter.lean ====
section
/-! DEFINITION. The tombola (R17-R27, R205-R228): arbitration points, token buckets, measured delay, the key store, and
the instructions of major 0x2C. -/

namespace Sys2Proof.Machine

open Sys2Proof

/-! ### Weights at a point (R22, R23, R210) -/

/-- The ring whose partition governs a point (R23): none for a pool port. -/
def pointRing (code inst : Nat) : Option Nat := if code = 0x0D then none else if code = 0x04 then some (inst / 4) else some inst

/-- The interface that a ring is hard-partitioned to. -/
def partOf (s : State) (ring : Option Nat) : Option Nat := ring.bind fun r => (ringOf s r).part

/-- The weight of an owner at a point (R210). -/
def pointWeight (s : State) (o code : Nat) (ring : Option Nat) : Nat :=
  match partOf s ring with
  | some i => if (ownerOf s o).iface = i then weightOf s o code else 0
  | none => weightOf s o code

/-- The owner that u assigns a slot of a point to (R210). -/
def assignAt (s : State) (code : Nat) (ring : Option Nat) (u : Nat) : Option Nat :=
  assignU ((liveOwners s).map fun o => (o, pointWeight s o code ring)) u

/-! ### Entries that granted requests hold (R243, R262, R342) -/

/-- The physical address of an access that is still under way. -/
def accessPa (s : State) (id : Nat) : Option Nat :=
  match s.reads.find? fun r => r.id == id with
  | some r => tgtPa r.tgt
  | none => match s.reqs.find? fun q => q.id == id with
    | some q => (reqTarget q).bind fun t => tgtPa t.1
    | none => match s.prefetches.find? fun p => p.id == id with
      | some p => some p.pa
      | none => (entryOf s id).bind fun e => match e.2.2.body with
        | .write _ t _ _ => tgtPa t
        | _ => none

/-- A request still holds its entry: an L2 miss until its sector is there, or has come and found no way (R243), an atomic until
it is performed (R262), a pool request that an access or a publication waits for until the pool has answered (R342). -/
def holdsEntry (s : State) (code : Nat) (b : Slot) : Bool :=
  if code = 0x03 then (b.pa.any fun a => !sectorPresent s a) && ((accessPa s b.id).isSome || standsAt s b.id)
  else if code = 0x06 then s.reqs.any fun q => q.id == b.id
  else if code = 0x0D then (accessPa s b.id).isSome || (s.unpub.any fun w => publishId w == b.id)
  else true

/-- An owner has an entry free at a point: 8 misses of an owner with a quota at the slice, and of the 64 shared by those without
one that no earlier arrival of theirs takes (R243); 16 atomics (R262); 64 pool requests (R342). -/
def entryFree (s : State) (code inst o : Nat) (p : Point) : Bool :=
  let held := fun (f : Nat → Bool) => (p.busy.filter fun b => f b.owner).length
  let shares := fun (x : Nat) => quotaAt s x inst == 0
  if code = 0x03 then
    (if 0 < quotaAt s o inst then decide (held (fun x => x == o) < 8)
     else decide (((p.queue.takeWhile fun q => q.owner != o).filter fun q => shares q.owner).length + held shares < 64))
  else if code = 0x06 then decide (held (fun x => x == o) < 16)
  else if code = 0x0D then decide (held (fun x => x == o) < 64)
  else true

/-- A granted request takes an entry at an L2 port where it misses, at an atomic unit and at a pool port. -/
def takeEntry (s : State) (code : Nat) (r : ArbReq) (p : Point) : Point :=
  if (code == 0x03 && r.at_.any fun a => !sectorPresent s a.pa) || code == 0x06 || code == 0x0D then
    { p with busy := p.busy ++ [{ owner := r.owner, id := r.id, pa := r.at_.map Place.pa }] }
  else p

/-! ### One slot (R211, R212, R218, R220) -/

/-- The request at the head of an owner's queue at a point, in the slots after the one it joined in (R211). -/
def headOf (s : State) (p : Point) (o : Nat) : Option ArbReq := (p.queue.find? fun q => q.owner == o).filter fun q => decide (q.since < s.clk)

/-- Owners with a request at a point, ascending. -/
def waitingOwners (p : Point) : List Nat := p.queue.foldl (fun a q => insNat a q.owner) []

/-- The head of an owner's queue leaves it. -/
def passHead (o : Nat) : List ArbReq → List ArbReq
  | [] => []
  | q :: r => if q.owner = o then r else q :: passHead o r

/-- The head of each owner's queue, but for one owner, has waited one slot more (R220). -/
def ageHeads (clk : Nat) (skip : Option Nat) : List Nat → List ArbReq → List ArbReq
  | _, [] => []
  | seen, q :: r =>
    if seen.contains q.owner then q :: ageHeads clk skip seen r
    else (if skip = some q.owner ∨ clk ≤ q.since then q else { q with wait := q.wait + 1 }) :: ageHeads clk skip (q.owner :: seen) r

/-- What a grant does for the line a request is for, in the order of the grants (R241, R399, R400): at the L2 port its line takes a
way, and at the last memory point of its way the sector is filled, dirty for a write made at once (R237). -/
def grantLine (s : State) (code : Nat) (r : ArbReq) : State :=
  let memory := fun (c : Nat) => c == 0x03 || c == 0x05 || c == 0x0D
  match r.at_ with
  | none => s
  | some a =>
    if !memory code || a.back then s
    else if r.path.any fun p => memory p.1 then lookupWay s r.owner a.pa a.treat a.share
    else
      let s := lookup s r.owner a.pa a.treat a.share
      if a.write then markDirty s [a.pa / 64] else s

/-- The head of an owner's queue is granted: it goes on to its next point, and the other heads have waited one slot more. -/
def grantHead (s : State) (code inst : Nat) (p : Point) (o : Nat) (lent : Bool) : State :=
  match headOf s p o with
  | none => setPoint s code inst p
  | some r =>
    let l2 := code == 0x03
    let own := decide (256 ≤ levelOf p o)
    let p := if !l2 then p
      else if own then { p with levels := NMap.put p.levels o (levelOf p o - 256) }
      else { p with commons := p.commons - 256 }
    let s := setPoint s code inst (takeEntry s code r { p with queue := passHead o (ageHeads s.clk (some o) [] p.queue) })
    let s := bumpCounter (bumpCounter s o code (waitBin r.wait)) o code (if lent then 17 else 16)
    let s := if l2 && !own then bumpCounter s o code 18 else s
    grantLine (forkTiles (requestAt s o r.id r.at_ r.path) r.id r.path.length) code r

/-- The entries that are still held at a slot. When the pool answers the beats of engines and of write-backs is free (R342, log 6). -/
def heldEntries (s : State) (code : Nat) (l : List Slot) : List Slot :=
  ((upto l.length).zip l).filterMap fun b =>
    if holdsEntry s code b.2 || (code == 0x0D && Config.freeBool (s.free + b.1)) then some b.2 else none

/-- The point for a slot: what has passed since it was last looked at, entries whose requests are through freed, and the
refill of this slot (R211 step 1). -/
def pointSlot (s : State) (code inst : Nat) : Point :=
  let p := pointNow s code inst
  let p := { p with lastSlot := s.clk + 1, seen := slotsTo s (pointRail code) (s.clk + 1),
                    busy := heldEntries s code p.busy }
  if code = 0x03 then refill s 1 p else p

/-- The slot of this clk of an arbitration point (R211): refill, draw, the assigned owner or a borrower, the token. -/
def arbitrate (s : State) (code inst : Nat) : State :=
  if !railSlot s (pointRail code) then setPoint s code inst { pointNow s code inst with lastSlot := s.clk + 1 }
  else
    let l2 := code == 0x03
    let p := pointSlot s code inst
    let s := if code = 0x0D then { s with free := s.free + (pointOf s code inst).busy.length } else s
    let d := drawStream (key0 s) code inst p.draw
    let p := { p with draw := d.2 }
    let ring := pointRing code inst
    let fits := fun (o : Nat) (guaranteed : Bool) =>
      (headOf s p o).isSome && entryFree s code inst o p
        && (!l2 || decide (256 ≤ levelOf p o) || (!guaranteed && decide (256 ≤ p.commons)))
    let own := (assignAt s code ring (d.1 / 2 ^ 24)).filter fun o => fits o true
    match own with
    | some o => grantHead s code inst p o false
    | none =>
      let cs := (waitingOwners p).filter fun o => fits o false
      if cs.isEmpty then setPoint s code inst { p with queue := ageHeads s.clk none [] p.queue }
      else
        let b := drawStream (key0 s) 0x0A inst p.borrow
        grantHead s code inst { p with borrow := b.2 } (cs.getD (b.1 / 2 ^ 24 % cs.length) 0) true

/-- Every L2 port takes the refills that have passed, as a RATE, a DEPTH or the set of live owners is about to change
(R215, R217). -/
def settlePorts (s : State) : State :=
  let port := fun (i : Nat) => (pointKey 0x03 i, pointNow s 0x03 i)
  { s with points := (s.points.filter fun p => decide (p.1 < pointKey 0x03 0)) ++ (upto Config.rings).map port
                      ++ s.points.filter fun p => decide (pointKey 0x03 Config.rings ≤ p.1) }

/-- The points that ARBITRATION_SLOT runs, with their instances (R17). -/
def pointExists (code inst : Nat) : Bool :=
  if code = 0x04 then decide (inst < 1536)
  else if code = 0x0D then decide (inst < 4)
  else (code == 0x03 || code == 0x05 || code == 0x06 || code == 0x07) && decide (inst < Config.rings)

/-! ### The key store (R20, R208, R223) -/

/-- Every stream keyed by an owner restarts from this clk on (R208); K₀ keys the slot streams of every point and vector engine. -/
def restartStreams (s : State) (o : Nat) : State :=
  let s := setOwner s o { ownerOf s o with streams := [] }
  if o ≠ 0 then s
  else { s with points := s.points.map fun p => (p.1, { p.2 with draw := {}, borrow := {} }),
                key0Slots := [0, 1, 3, 9].map fun r => (r, slotsTo s r s.clk) }

/-- A request to the key store of the issuing owner, which is answered there (R150, R223). -/
def keyRequest (s : State) (kind : ReqKind) (owed : Option Reg) : State :=
  let id := s.nextId
  let q : Req := { id := id, ctx := curCtx s, frame := s.cur.2, act := (curFrame s).act, kind := kind, treat := 2, share := none,
                   lin := (curFrame s).lin, after := [], reads := [], pub := [], inval := [], tag := [], va := 0, pc := curPc s,
                   rel := false, parked := false }
  let s := { s with nextId := id + 1, reqs := s.reqs ++ [q] }
  match owed with
  | some d => parkAnswer (owe s d id none) id
  | none => retire4 s

/-- `reseed` (R223). -/
def execReseed (d a : Reg) (s : State) : Res := commit s (keyRequest s (.key (curOwner s) (rd s a) true) (some d))

/-! ### Program draws and queries (R222, R224-R227) -/

/-- `draw` (R224): a relaxed atomic on the stream word at the own bank. -/
def execDraw (d a b : Reg) (s : State) : Res :=
  let va := rd s b
  commit s (if 2 ^ 11 ≤ (rd s a).toNat then illOperand s
    else if va.toNat % 8 ≠ 0 then alignTrap s va
    else match ownTarget s va with
      | none => protTrap s va
      | some off =>
        let t : Tgt := .loc s.cur.1 off
        let rs := strongReads s (locsFrom (tgtBase s (curOwner s) t) 8)
        if !rs.isEmpty then park s [.settled [] rs]
        else
          let id := s.nextId
          let s := newReq s (.draw t (rd s a).toNat) (some (t, 8)) 2 none false false va
          retire4 (clearWait (owe s d id none)))

/-- Classes with slots (R222). -/
def slotClass (c : Nat) : Bool := (decide (3 ≤ c) && decide (c ≤ 9)) || c == 0x0D

/-- An instance lies in the range of its class (R17, R222). -/
def instOk (c i : Nat) : Bool :=
  if c = 0x04 then decide (i < 1536) else if c = 0x0D then decide (i < 4) else if c = 0x09 then i == 0 else decide (i < Config.rings)

/-- The weight of an owner at a class and instance, as the issuing core sees it (R210). -/
def weightHere (s : State) (o c i : Nat) : Nat :=
  if c = 0x09 then (if (banksOf s s.cur.1 o).isEmpty then 0 else pointWeight s o c (some (ringOfCore s s.cur.1)))
  else pointWeight s o c (pointRing c i)

/-- The binomial coefficient. -/
def binom (d : Nat) : Nat → Nat
  | 0 => 1
  | j + 1 => binom d j * (d - j) / (j + 1)

/-- Sum over j below n of C(d, j) × w^j × (256 − w)^(d − j). -/
def tailSum (d w : Nat) : Nat → Nat
  | 0 => 0
  | j + 1 => tailSum d w j + binom d j * w ^ j * (256 - w) ^ (d - j)

/-- q of `xcq` (R225). -/
def xcqValue (w d k : Nat) : Nat :=
  if k = 0 then 0 else if w = 0 then 65536 else 65536 * tailSum d w (Nat.min (k - 1) d + 1) / 256 ^ d

/-- `xcq` (R225): the value is fixed at issue and reaches d later (R133). -/
def execXcq (d a b : Reg) (s : State) : Res :=
  let x := rd s a
  let y := rd s b
  let c := bits x 4 0
  let i := bits x 26 16
  commit s (if bits x 15 5 ≠ 0 ∨ bits x 63 27 ≠ 0 ∨ bits y 63 24 ≠ 0 ∨ slotClass c = false ∨ instOk c i = false then illOperand s
    else
      let id := s.nextId
      let v := word (xcqValue (weightHere s (curOwner s) c i) (bits y 15 0) (bits y 23 16))
      retire4 (owe { s with nextId := id + 1 } d id (some v)))

/-- `ictr` (R226). -/
def execIctr (d a b : Reg) (s : State) : Res :=
  let x := (rd s a).toNat
  let y := rd s b
  let o := curOwner s
  commit s (if slotClass x = false ∨ 18 < bits y 4 0 ∨ bits y 63 6 ≠ 0 then illOperand s
    else
      let k := x * 32 + bits y 4 0
      let w := ownerOf s o
      let s1 := if bit y 5 then setOwner s o { w with counters := NMap.put w.counters k 0 } else s
      parkValue s1 d (word (NMap.get w.counters k 0)))

/-- Sum of some numbers. -/
def sumNat (l : List Nat) : Nat := l.foldl (· + ·) 0

/-- `shq` (R227). -/
def execShq (d a : Reg) (s : State) : Res :=
  let x := rd s a
  let c := bits x 4 0
  let i := bits x 26 16
  let o := curOwner s
  let os := liveOwners s
  commit s (if bits x 15 5 ≠ 0 ∨ bits x 63 27 ≠ 0 ∨ !(slotClass c || c == 2) = true ∨ instOk c i = false then illOperand s
    else if c = 2 then
      let q := fun (o : Nat) => NMap.get (ownerOf s o).quotas i 0
      parkValue s d (word (q o + sumNat (os.map q) * 2 ^ 8))
    else
      let ring := if c = 0x09 then some (ringOfCore s s.cur.1) else pointRing c i
      let part := partOf s ring
      let l2 := c == 0x03
      let p := pointNow s c i
      let w := ownerOf s o
      parkValue s d (word (weightHere s o c i % 2 ^ 8 + sumNat (os.map fun y => weightHere s y c i) * 2 ^ 8 + b2n part.isSome * 2 ^ 17
        + b2n (part == some w.iface) * 2 ^ 18
        + (if l2 then w.rate * 2 ^ 19 + w.depth * 2 ^ 28 + levelOf p o * 2 ^ 36 + p.commons / 256 * 2 ^ 52 else 0))))

end Sys2Proof.Machine
end

