-- ==== Sys2Proof/Machine/Capability.lean ====
section
/-! DEFINITION. Single-writer regions and their capabilities (R276-R281). -/

namespace Sys2Proof.Machine

open Sys2Proof

/-- A region address of the issuing frame, on a single-writer page of device DRAM, else PROT (R277). R373 names no permission for
`cgive`, `cgrp`, `caccept` and `cq`: here they need to read (DESIGN CHOICE, log 92). -/
def regionOf (s : State) (va : Word) (k : State → Nat → Xlat → State) : State :=
  withWhere s va 0 (fun w =>
    match w with
    | .mem pa x => k s pa x
    | _ => protTrap s va) fun pa x => x.swr && isDram pa

/-- A capability request goes to the home slice, and the frame parks for its answer (R278): 0 `cgive` and 2 `cgrp` are
releases, 1 `cq` a strong read, 3 `caccept` an acquire. -/
def capRequest (op : Nat) (d : Reg) (va b : Word) (s : State) : State :=
  regionOf s va fun s pa x =>
    let id := s.nextId
    let tr := whereTreat (.mem pa x)
    let s := newReq s (.cap op pa b) none tr (whereShare (.mem pa x)) (op == 0 || op == 2) false va
    parkAnswer (owe (requestAccess s s.cur.1 (curOwner s) id (.pa pa) tr (whereShare (.mem pa x)) false false) d id none) id

/-- `cgive` (R278). -/
def execCgive (d a b : Reg) (s : State) : Res :=
  let x := rd s b
  let ok := x == allOnes || (decide (bits x 12 0 < 6144) && bits x 15 13 == 0 && bits x 63 28 == 0)
  commit s (if ok then capRequest 0 d (rd s a) x s else illOperand s)

/-- `cq` (R278, R279). -/
def execCq (d a b : Reg) (s : State) : Res :=
  commit s (if 2 ≤ (rd s b).toNat then illOperand s else capRequest 1 d (rd s a) (rd s b) s)

/-- `cgrp` (R278). -/
def execCgrp (d a b : Reg) (s : State) : Res :=
  let x := rd s b
  let n := bits x 28 16
  let ok := bits x 15 13 == 0 && bits x 63 29 == 0 && decide (1 ≤ n) && decide (bits x 12 0 + n ≤ 6144)
  commit s (if ok then capRequest 2 d (rd s a) x s else illOperand s)

/-- `caccept` (R278). -/
def execCaccept (d a : Reg) (s : State) : Res := commit s (capRequest 3 d (rd s a) 0 s)

/-! ### At the home slice (R277-R279) -/

/-- The context holds the capability, itself or as a member of the holding group. -/
def holdsCap (s : State) (k pa : Nat) : Bool :=
  match (capOf s pa).holder with
  | .unheld => false
  | .context o c => ctxKey c o == k
  | .group g => isMember s (homeRing s pa) g (ctxOwner k) (ctxCore k)

/-- The group that holds the region of an address. -/
def capGroup (s : State) (pa : Nat) : Option (Nat × Group) :=
  match (capOf s pa).holder with
  | .group g => (NMap.find (ringOf s (homeRing s pa)).groups g).map fun x => (g, x)
  | _ => none

/-- Group id a status carries. -/
def capGroupId (s : State) (pa : Nat) : Nat :=
  match capGroup s pa with
  | some (g, _) => g
  | none => 0

/-- The words of `cq` (R279). -/
def cqWord (s : State) (pa : Nat) (b : Word) : Word :=
  let c := capOf s pa
  let g := capGroup s pa
  if b = 0 then
    let h := match c.holder, g with
      | .context o n, _ => 1 + o * 2 ^ 8 + n * 2 ^ 20
      | .group _, some (i, x) => 2 + x.owner * 2 ^ 8 + x.first * 2 ^ 20 + x.count * 2 ^ 33 + i * 2 ^ 46
      | _, _ => 0
    word (h + c.drops * 2 ^ 50)
  else match g with
    | some (_, x) => word (x.next + x.stale * 2 ^ 32 + (x.window.length + x.watches.length) * 2 ^ 48)
    | none => 0

/-- The last write to the capability state. -/
def capSeen (s : State) (pa : Nat) : List Nat := [lastSettled s (capLoc pa)]

/-- The request's write to the capability state settles: an acquire that reads it takes its tag (R277). -/
def capWrite (s : State) (q : Req) (pa : Nat) (h : Holder) : State :=
  setCap (noteWrite s q.id [capLoc pa]) pa { capOf s pa with holder := h }

/-- A group is dissolved. -/
def dissolve (s : State) (pa : Nat) : State :=
  match (capOf s pa).holder with
  | .group g => setRing s (homeRing s pa) { ringOf s (homeRing s pa) with groups := NMap.del (ringOf s (homeRing s pa)).groups g }
  | _ => s

/-- The answer of a capability step. -/
def capAnswer (s : State) (q : Req) (v : Word) : State :=
  dropReq (answer s (ctxCore q.ctx) q.frame q.act q.id v) q.id

/-- `cgive` at the home slice (R278). -/
def performGive (s : State) (q : Req) (pa : Nat) (b : Word) : State :=
  let busy := match capGroup s pa with
    | some (_, g) => !g.window.isEmpty || !g.watches.isEmpty
    | none => false
  if !holdsCap s q.ctx pa then capAnswer s q 1
  else if busy then capAnswer s q 2
  else
    let target : Holder := if b = allOnes then .unheld else .context (bits b 27 16) (bits b 12 0)
    capAnswer (capWrite (dissolve s pa) q pa target) q 0

/-- `cgrp` at the home slice (R278): the lowest free group id is taken (log 35). -/
def performGroup (s : State) (q : Req) (pa : Nat) (b : Word) : State :=
  let ring := homeRing s pa
  match (capOf s pa).holder with
  | .group _ => capAnswer s q 3
  | _ =>
    if !holdsCap s q.ctx pa then capAnswer s q 1
    else match (upto 16).find? fun g => (NMap.find (ringOf s ring).groups g).isNone with
      | none => capAnswer s q 2
      | some g =>
        let x : Group := { owner := ctxOwner q.ctx, first := bits b 12 0, count := bits b 28 16, next := 0,
                           window := [], watches := [], stale := 0 }
        let s := setRing s ring { ringOf s ring with groups := NMap.put (ringOf s ring).groups g x }
        capAnswer (capWrite s q pa (.group g)) q (word (g * 2 ^ 8))

/-- A `caccept` whose context holds the capability is answered as an acquire (R277). -/
def acceptDone (s : State) (q : Req) (pa : Nat) : State :=
  capAnswer (readAtHome s q.ctx (capSeen s pa) true) q (word (capGroupId s pa * 2 ^ 8))

/-- `caccept` at the home slice (R278): it takes an unheld region once, then waits to hold it; b = 1 notes that the first
test is over. -/
def performAccept (s : State) (q : Req) (pa : Nat) (b : Word) : State :=
  let me : Holder := .context (ctxOwner q.ctx) (ctxCore q.ctx)
  if b = 0 ∧ (capOf s pa).holder = .unheld then
    let seen := capSeen s pa
    acceptDone (capWrite (readAtHome s q.ctx seen true) q pa me) q pa
  else if holdsCap s q.ctx pa then acceptDone s q pa
  else { s with reqs := s.reqs.map fun p => if p.id = q.id then { p with kind := .cap 3 pa 1 } else p }

/-- One capability operation. -/
def performCap (s : State) (q : Req) (op pa : Nat) (b : Word) : State :=
  match op with
  | 0 => performGive s q pa b
  | 1 => capAnswer (readAtHome s q.ctx (capSeen s pa) false) q (cqWord s pa b)
  | 2 => performGroup s q pa b
  | _ => performAccept s q pa b

/-- CAPABILITY_STEP (R278): the capability request at an index is performed if it may be. -/
def execCapabilityStep (idx : Nat) (s : State) : Res :=
  commit s (match s.reqs[idx]? with
    | none => s
    | some q => match q.kind with
      | .cap op pa b => if reqReady s q then performCap s q op pa b else s
      | _ => s)

end Sys2Proof.Machine
end

