-- ==== Sys2Proof/Machine/Float.lean ====
section
/-! DEFINITION. Scalar floating point (R103-R114, R119-R123): each result is rounded by the frame's RMODE and raises
its FFLAGS; all complete at issue. -/

namespace Sys2Proof.Machine

open Sys2Proof

/-- The pattern of a format in the low bits of a register (R51). -/
def fread (f : Fmt) (x : Word) : Nat := x.toNat % 2 ^ fmtWidth f

/-- Flags rise and never fall (R110). -/
def raiseFlags (s : State) (fl : Nat) : State :=
  setCur s { curFrame s with fflags := Nat.lor (curFrame s).fflags fl }

/-- A result with its flags; bits above the format are zero (R51, R119). -/
def finishF (s : State) (d : Reg) (v fl : Nat) : State := finish (raiseFlags s fl) d (word v)

/-- A rounded operation (R119): operands, the exact result with its flags, then one rounding. -/
def roundedOp (f : Fmt) (rm : Nat) (xs : List FVal) (r : FVal × Nat) : Nat × Nat :=
  let p := roundTo f rm r.1
  (p.1, Nat.lor (readFlags xs) (Nat.lor r.2 p.2))

/-- A rounded operation of two sources. -/
def arith2 (d a b : Reg) (f : FFmt) (op : Nat → FVal → FVal → FVal × Nat) (s : State) : Res :=
  let m := fmtOfCode f
  let x := unpack m (fread m (rd s a))
  let y := unpack m (fread m (rd s b))
  let rm := (curFrame s).rmode
  let r := roundedOp m rm [x, y] (op rm x y)
  .next (finishF s d r.1 r.2)

/-- `fadd` (R119). -/
def execFadd (d a b : Reg) (f : FFmt) (s : State) : Res := arith2 d a b f addV s
/-- `fsub` (R119). -/
def execFsub (d a b : Reg) (f : FFmt) (s : State) : Res := arith2 d a b f (fun rm x y => addV rm x (negV y)) s
/-- `fmul` (R119). -/
def execFmul (d a b : Reg) (f : FFmt) (s : State) : Res := arith2 d a b f (fun _ x y => mulV x y) s
/-- `fdiv` (R119). -/
def execFdiv (d a b : Reg) (f : FFmt) (s : State) : Res := arith2 d a b f (fun _ x y => divV x y) s

/-- `ffma` (R119): d + a × b with one rounding. -/
def execFfma (d a b : Reg) (f : FFmt) (s : State) : Res :=
  let m := fmtOfCode f
  let x := unpack m (fread m (rd s a))
  let y := unpack m (fread m (rd s b))
  let z := unpack m (fread m (rd s d))
  let r := roundedOp m (curFrame s).rmode [x, y, z] (fmaV (curFrame s).rmode x y z)
  .next (finishF s d r.1 r.2)

/-- `fsqrt` (R119). -/
def execFsqrt (d a : Reg) (f : FFmt) (s : State) : Res :=
  let m := fmtOfCode f
  let x := unpack m (fread m (rd s a))
  let r := roundedOp m (curFrame s).rmode [x] (sqrtV x)
  .next (finishF s d r.1 r.2)

/-- `fmin` and `fmax` (R119): no rounding. -/
def minMaxOp (d a b : Reg) (f : FFmt) (mx : Bool) (s : State) : Res :=
  let m := fmtOfCode f
  let x := fread m (rd s a)
  let y := fread m (rd s b)
  .next (finishF s d (minMax m mx x y) (readFlags [unpack m x, unpack m y]))

/-- `fmin` (R119). -/
def execFmin (d a b : Reg) (f : FFmt) (s : State) : Res := minMaxOp d a b f false s
/-- `fmax` (R119). -/
def execFmax (d a b : Reg) (f : FFmt) (s : State) : Res := minMaxOp d a b f true s

/-- The sign bit of a pattern. -/
def fsign (f : Fmt) (x : Nat) : Bool := x / 2 ^ (f.eb + f.fb) % 2 == 1
/-- The magnitude bits of a pattern under a sign (R119). -/
def withSign (f : Fmt) (x : Nat) (neg : Bool) : Nat := x % 2 ^ (f.eb + f.fb) + b2n neg * 2 ^ (f.eb + f.fb)

/-- A bit move of the sign (R119): no flags, no canonicalisation (R105). -/
def signOp (d a b : Reg) (f : FFmt) (g : Bool → Bool → Bool) (s : State) : Res :=
  let m := fmtOfCode f
  let x := fread m (rd s a)
  let y := fread m (rd s b)
  .next (finish s d (word (withSign m x (g (fsign m x) (fsign m y)))))

/-- `fsgn` (R119). -/
def execFsgn (d a b : Reg) (f : FFmt) (s : State) : Res := signOp d a b f (fun _ y => y) s
/-- `fsgnn` (R119). -/
def execFsgnn (d a b : Reg) (f : FFmt) (s : State) : Res := signOp d a b f (fun _ y => !y) s
/-- `fsgnx` (R119). -/
def execFsgnx (d a b : Reg) (f : FFmt) (s : State) : Res := signOp d a b f (fun x y => x != y) s

/-! ### Compares, classes and conversions (R120, R121) -/

/-- A compare (R120): `quiet` raises NV only for a signalling NaN, the others for any. -/
def compareOp (d a b : Reg) (f : FFmt) (quiet : Bool) (g : FVal → FVal → Bool) (s : State) : Res :=
  let m := fmtOfCode f
  let x := unpack m (fread m (rd s a))
  let y := unpack m (fread m (rd s b))
  let nan := isNaN x || isNaN y
  let fl := if !quiet && nan then flNV else readFlags [x, y]
  .next (finishF s d (b2n (!nan && g x y)) fl)

/-- `feq` (R120). -/
def execFeq (d a b : Reg) (f : FFmt) (s : State) : Res := compareOp d a b f true eqV s
/-- `flt` (R120). -/
def execFlt (d a b : Reg) (f : FFmt) (s : State) : Res := compareOp d a b f false ltV s
/-- `fle` (R120). -/
def execFle (d a b : Reg) (f : FFmt) (s : State) : Res := compareOp d a b f false (fun x y => !ltV y x) s

/-- `fclass` (R120). -/
def execFclass (d a : Reg) (f : FFmt) (s : State) : Res :=
  .next (finish s d (word (2 ^ classOf (fmtOfCode f) (fread (fmtOfCode f) (rd s a)))))

/-- Signed? of an integer type (R61). -/
def intSigned : IntTy → Bool
  | .i32 => true
  | .i64 => true
  | .n32 => false
  | .n64 => false
/-- Width of an integer type. -/
def intWidth : IntTy → Nat
  | .i32 => 32
  | .n32 => 32
  | .i64 => 64
  | .n64 => 64

/-- An integer read as a type. -/
def readInt (t : IntTy) (x : Word) : Int :=
  match t with
  | .i32 => (x.setWidth 32).toInt
  | .i64 => x.toInt
  | .n32 => ((x.setWidth 32).toNat : Int)
  | .n64 => (x.toNat : Int)

/-- `fcvti` (R121): bits above a 32-bit type are zero (R51). -/
def execFcvti (d a : Reg) (t : IntTy) (f : FFmt) (s : State) : Res :=
  let m := fmtOfCode f
  let r := toIntV (curFrame s).rmode (intSigned t) (intWidth t) (unpack m (fread m (rd s a)))
  .next (finishF s d (r.1 % 2 ^ intWidth t).toNat r.2)

/-- `fcvtf` (R121). -/
def execFcvtf (d a : Reg) (t : IntTy) (f : FFmt) (s : State) : Res :=
  let r := roundTo (fmtOfCode f) (curFrame s).rmode (intV (readInt t (rd s a)))
  .next (finishF s d r.1 r.2)

/-- `fcvtff` (R121): from format `c` to format `f`. -/
def execFcvtff (d a : Reg) (c f : FFmt) (s : State) : Res :=
  let x := unpack (fmtOfCode c) (fread (fmtOfCode c) (rd s a))
  let r := roundedOp (fmtOfCode f) (curFrame s).rmode [x] (x, 0)
  .next (finishF s d r.1 r.2)

/-! ### Special functions (R114, R122, R123) -/

/-- Coefficient table of the issuing owner on its core (R100). -/
def coefOf (s : State) (t : Nat) : Coef := NMap.get (ctxOf s (curCtx s)).coef t {}

/-- `fev` (R122). -/
def execFev (d a : Reg) (m t : BitVec 2) (s : State) : Res :=
  let r := evalCoef (coefOf s t.toNat) ((rd s a).toNat % 2 ^ 32) m.toNat
  .next (finishF s d r.1 r.2)

/-- `fred` (R123): r in modes 0 and 2, k as I64 in modes 1 and 3. -/
def execFred (d a : Reg) (m t : BitVec 2) (s : State) : Res :=
  let r := fredV (coefOf s t.toNat) ((rd s a).toNat % 2 ^ 32) m.toNat
  let s := raiseFlags s r.2.2
  .next (finish s d (if m.toNat % 2 = 0 then word r.1 else BitVec.ofInt 64 r.2.1))

end Sys2Proof.Machine
end

