-- ==== Sys2Proof/Machine/Vector.lean ====
section
/-! DEFINITION. The vector engine (R303-R321): what a command checks at issue, and its beats. -/

namespace Sys2Proof.Machine

open Sys2Proof

/-! ### Types and shapes (R304, R306, R312) -/

/-- Commands that move bits ignore scales (R308). -/
def movesBits (op : Nat) : Bool := op == 0x0A || op == 0x10 || op == 0x11 || op == 0x13 || op == 0x14

/-- Operands a command uses: destination, first and second source (R312). -/
def vUses (op : Nat) : Bool × Bool × Bool :=
  (!(op == 0x12 || op == 0x13), op != 0x0D,
   op ≤ 0x05 || op == 0x09 || op == 0x0A || op == 0x10 || op == 0x11 || op == 0x16 || op == 0x17)

/-- SUB and PARAM of a command lie within their limits (R306, R312). -/
def vFieldsOk (op sub param : Nat) : Bool :=
  let subOk := if op = 0x09 then decide (sub ≤ 5) else if op = 0x0B then decide (sub ≤ 2) else if op = 0x0C then decide (sub / 4 ≤ 2)
    else if op = 0x12 ∨ op = 0x13 ∨ 0x15 ≤ op then decide (sub < 4) else sub == 0
  let paramOk := op == 0x08 || op == 0x0F || (if op = 0x0D ∨ op = 0x0E then decide (param < 2 ^ 11) else param == 0)
  subOk && paramOk

/-- A floating type code. -/
def isFl (t : Nat) : Bool := decide (t ≤ 3)
/-- A type with a floating value: floating or C8. -/
def isVal (t : Nat) : Bool := isFl t || t == 12
/-- A signed integer type code. -/
def isSigned (t : Nat) : Bool := decide (4 ≤ t) && decide (t ≤ 7)
/-- Bits of a type. -/
def elemBits (t : Nat) : Nat := 8 * elemBytes t
/-- Floating format of a type code. -/
def fmtOfElem (t : Nat) : Fmt := if t = 0 then fmtF64 else if t = 1 then fmtF32 else if t = 2 then fmtBF16 else fmtF16

/-- FMT of the destination fits (R312). -/
def vDstFmt (op ty f : Nat) : Bool :=
  if op = 0x09 then f == 11
  else if op = 0x0B then (if ty = 12 then f == 1 else f == ty || ((ty == 2 || ty == 3) && f == 1))
  else if op = 0x15 then f == 6
  else f == ty
/-- FMT of the first source fits. -/
def vSrcFmt (op ty f : Nat) : Bool :=
  if op = 0x07 then true
  else if op = 0x0E then f == 0 || (f == 1 && (ty == 2 || ty == 3))
  else if op = 0x16 then isFl f
  else if op = 0x17 then f == 6 || f == 7
  else f == ty
/-- FMT of the second source fits. -/
def vSrc2Fmt (op ty f : Nat) : Bool :=
  if op = 0x10 ∨ op = 0x11 then f == 10 else if op = 0x16 ∨ op = 0x17 then f == 6 else f == ty

/-- Lanes per beat E (R304). -/
def vLanes (ty : Nat) : Nat := 64 / elemBytes ty
/-- Block size of SUB 1:0. -/
def vBlk (sub : Nat) : Nat := 16 * 2 ^ (sub % 4)

/-- The record whose elements the command counts (R312): the first source where the destination has another shape. -/
def vShape (op : Nat) (dst s1 : Option Tensor) : Option Tensor :=
  if op = 0x09 ∨ op = 0x0B ∨ op = 0x11 ∨ op = 0x12 ∨ op = 0x13 ∨ op = 0x15 then s1 else dst

/-- Dimensions with D0 in blocks. -/
def blockDims (t : Tensor) (blk : Nat) : List Nat := [(tDim t 0 + blk - 1) / blk, tDim t 1, tDim t 2, tDim t 3]

/-- The dimensions agree (R307, R312). -/
def vDimsOk (op ty sub : Nat) (dst s1 s2 : Option Tensor) : Bool :=
  match vShape op dst s1 with
  | none => false
  | some t =>
    let same := fun (x : Option Tensor) => match x with
      | some u => tDims u == tDims t
      | none => true
    let blocked := fun (x : Option Tensor) => match x with
      | some u => tDims u == blockDims t (vBlk sub)
      | none => true
    if op = 0x09 then same s2 && (match dst with
      | some u => tCount u == (tCount t + vLanes ty - 1) / vLanes ty
      | none => false)
    else if op = 0x0B then (match dst with
      | some u => tDims u == [1, tDim t 1, tDim t 2, tDim t 3]
      | none => false)
    else if op = 0x10 then same s2
    else if op = 0x11 then same s2
    else if op = 0x15 then blocked dst
    else if op = 0x16 ∨ op = 0x17 then same s1 && blocked s2
    else same s1 && same s2

/-- The scale record of a source exists and is large enough (R108, R307); it may be of any BKIND. -/
def scaleOk (t : Tensor) (sc : Option Tensor) : Bool :=
  match sc with
  | none => false
  | some u =>
    tFmt u == tScaleFmt t && decide ((tDim t 0 + tBlk t - 1) / tBlk t ≤ tDim u 0) && decide (tDim t 1 ≤ tDim u 1)
      && decide (tDim t 2 ≤ tDim u 2) && decide (tDim t 3 ≤ tDim u 3)

/-- Byte range of a record, none for a channel. -/
def tRange (t : Tensor) : Option (Nat × Nat) := if tKind t = 2 then none else some (tStart t, tStart t + tSpan t)

/-- Two ranges meet. -/
def rangesMeet (a b : Option Tensor) : Bool :=
  match a.bind tRange, b.bind tRange with
  | some x, some y => decide (x.1 ≤ y.2) && decide (y.1 ≤ x.2)
  | _, _ => false

/-- A record lies within the owner's banks, or names a handle bound on the wanted side (R307). -/
def vReach (s : State) (t : Tensor) (producer : Bool) : Bool :=
  if tKind t = 0 then decide (tBase t + tSpan t < localSize s s.cur.1 (curOwner s))
  else if tKind t = 2 then (match handleOf s (tBase t % 16) with
    | some h => h.producer == producer && (liveHeader s (curCtx s) h.hdr).isSome
    | none => false)
  else true

/-! ### Issue (R303, R306, R307) -/

/-- Elements of a record in one slot of a channel (R309): those of a beat where it has the command's shape. Roles are 0
destination, 1 and 2 sources, 3 to 5 their scale records, which in a channel are packed like any record's (R108; DEDUCED,
log 77). -/
def slotElems (op role n lanes : Nat) (t : Tensor) : Nat :=
  if op = 0x09 ∧ role = 0 then 1 else if role ≤ 2 ∧ tCount t = n then lanes else 64 / elemBytes (tFmt t)
/-- Slots a channel record takes. -/
def slotCount (op role n lanes : Nat) (t : Tensor) : Nat :=
  (tCount t + slotElems op role n lanes t - 1) / slotElems op role n lanes t

/-- Channel records take their handle's next slots (R309): the cursor advances at issue. -/
def takeChannels (op n lanes : Nat) : List (Nat × Option Tensor) → State → State × List (Nat × Nat × Nat)
  | [], s => (s, [])
  | (role, t) :: r, s =>
    match t with
    | none => takeChannels op n lanes r s
    | some t =>
      if tKind t ≠ 2 then takeChannels op n lanes r s
      else match handleOf s (tBase t % 16) with
        | none => takeChannels op n lanes r s
        | some h =>
          let s := setHandle s (tBase t % 16) { h with cursor := (h.cursor + slotCount op role n lanes t) % 2 ^ 32 }
          let x := takeChannels op n lanes r s
          (x.1, (role, h.hdr, h.cursor) :: x.2)

/-- A vector command at issue (R306, R307): fields, records, then DTBL; it takes its number and goes to the engine. -/
def vectorOp (op : Nat) (d a b : Reg) (e : ElemTy) (s : State) : Res :=
  let ty := (elemCode e).toNat
  let x := rd s a
  let k := curCtx s
  let sub := bits x 27 24
  let param := bits x 63 32
  let u := vUses op
  let unused := (!u.1 && bits x 7 0 != 0) || (!u.2.1 && bits x 15 8 != 0) || (!u.2.2 && bits x 23 16 != 0) || bits x 31 28 != 0
  let get := fun (use : Bool) (id : Nat) => if use then tensorAt s k id else none
  let dst := get u.1 (bits x 7 0)
  let s1 := get u.2.1 (bits x 15 8)
  let s2 := get u.2.2 (bits x 23 16)
  let recs := [dst, s1, s2]
  let scaleOf := fun (t : Option Tensor) => t.bind fun t => if tScaled t then tensorAt s k (tScaleId t) else none
  let n := ((vShape op dst s1).map tCount).getD 0
  let fmtIs := fun (t : Option Tensor) (p : Nat → Bool) => match t with
    | some t => p (tFmt t)
    | none => true
  let c8out := ty == 12 && (op == 0x07 || op == 0x16)
  let dstScale := op == 0x16 && ty == 12
  let chanScale := fun (t : Option Tensor) => ((scaleOf t).filter fun u => tKind u == 2).toList
  let srcScale := fun (t : Option Tensor) => if movesBits op then none else scaleOf t
  let checks :=
    (dst.isSome == u.1) && (s1.isSome == u.2.1) && (s2.isSome == u.2.2)
      && fmtIs dst (vDstFmt op ty) && fmtIs s1 (vSrcFmt op ty) && fmtIs s2 (vSrc2Fmt op ty)
      && vDimsOk op ty sub dst s1 s2
      && (recs.all fun t => match t with | some t => decide (tCount t < 2 ^ 32) | none => true)
      && (match dst with | some t => vReach s t true | none => true)
      && ([s1, s2].all fun t => match t with | some t => vReach s t false | none => true)
      && (!(op == 0x12 || op == 0x13) || (NMap.find (curFrame s).windows (sub % 4)).isSome)
      && (!(op == 0x0B || op == 0x10 || op == 0x11 || op == 0x15) || (!rangesMeet dst s1 && !rangesMeet dst s2))
      && ([s1, s2].all fun t => match t with | some u => !tScaled u || scaleOk u (scaleOf t) | none => true)
      && ((if movesBits op then [] else chanScale s1 ++ chanScale s2).all fun u => vReach s u false) && ((if dstScale then chanScale dst else []).all fun u => vReach s u true)
      && (!dstScale || (match dst with
          | some t => tScaled t && tScaleFmt t == 8 && tBlk t == vBlk sub && scaleOk t (scaleOf dst)
          | none => false))
  commit s (if unused || !vFieldsOk op sub param then illOperand s
    else if !checks then engineTrap s
    else if c8out && (firstBad (ctxOf s k).dec).isSome then trap s 0x0C 0 0
    else if 16 ≤ openCount s k 0 then park s [.cmdRoom 0 16]
    else
      let c := ctxOf s k
      let t := takeChannels op n (vLanes ty) [(0, dst), (1, s1), (2, s2), (3, if dstScale then scaleOf dst else none), (4, srcScale s1), (5, srcScale s2)] s
      let f := curFrame s
      let r := issueCmd t.1 0 (.vec op ty (if b = 0 then none else some (rd s b)) x recs (recs.map scaleOf) f.rmode c.lseed f.wid
        (NMap.get c.coef (sub % 4) {}) c.dec 0 t.2 [])
      finish (clearWait r.2) d (word r.1))

/-- `vadd` (R312). -/
def execVadd (d a b : Reg) (t : ElemTy) (s : State) : Res := vectorOp 0x00 d a b t s
/-- `vsub` (R312). -/
def execVsub (d a b : Reg) (t : ElemTy) (s : State) : Res := vectorOp 0x01 d a b t s
/-- `vmul` (R312). -/
def execVmul (d a b : Reg) (t : ElemTy) (s : State) : Res := vectorOp 0x02 d a b t s
/-- `vfma` (R312). -/
def execVfma (d a b : Reg) (t : ElemTy) (s : State) : Res := vectorOp 0x03 d a b t s
/-- `vmin` (R312). -/
def execVmin (d a b : Reg) (t : ElemTy) (s : State) : Res := vectorOp 0x04 d a b t s
/-- `vmax` (R312). -/
def execVmax (d a b : Reg) (t : ElemTy) (s : State) : Res := vectorOp 0x05 d a b t s
/-- `vabs` (R312). -/
def execVabs (d a b : Reg) (t : ElemTy) (s : State) : Res := vectorOp 0x06 d a b t s
/-- `vcvt` (R312, R313). -/
def execVcvt (d a b : Reg) (t : ElemTy) (s : State) : Res := vectorOp 0x07 d a b t s
/-- `vscl` (R312). -/
def execVscl (d a b : Reg) (t : ElemTy) (s : State) : Res := vectorOp 0x08 d a b t s
/-- `vcmp` (R314). -/
def execVcmp (d a b : Reg) (t : ElemTy) (s : State) : Res := vectorOp 0x09 d a b t s
/-- `vsel` (R312). -/
def execVsel (d a b : Reg) (t : ElemTy) (s : State) : Res := vectorOp 0x0A d a b t s
/-- `vred` (R315). -/
def execVred (d a b : Reg) (t : ElemTy) (s : State) : Res := vectorOp 0x0B d a b t s
/-- `vfev` (R312). -/
def execVfev (d a b : Reg) (t : ElemTy) (s : State) : Res := vectorOp 0x0C d a b t s
/-- `vrng` (R316). -/
def execVrng (d a b : Reg) (t : ElemTy) (s : State) : Res := vectorOp 0x0D d a b t s
/-- `vsr` (R317). -/
def execVsr (d a b : Reg) (t : ElemTy) (s : State) : Res := vectorOp 0x0E d a b t s
/-- `vdrop` (R317). -/
def execVdrop (d a b : Reg) (t : ElemTy) (s : State) : Res := vectorOp 0x0F d a b t s
/-- `vgath` (R318). -/
def execVgath (d a b : Reg) (t : ElemTy) (s : State) : Res := vectorOp 0x10 d a b t s
/-- `vscat` (R318). -/
def execVscat (d a b : Reg) (t : ElemTy) (s : State) : Res := vectorOp 0x11 d a b t s
/-- `vsparse` (R319). -/
def execVsparse (d a b : Reg) (t : ElemTy) (s : State) : Res := vectorOp 0x12 d a b t s
/-- `vsend` (R319). -/
def execVsend (d a b : Reg) (t : ElemTy) (s : State) : Res := vectorOp 0x13 d a b t s
/-- `vcopy` (R312). -/
def execVcopy (d a b : Reg) (t : ElemTy) (s : State) : Res := vectorOp 0x14 d a b t s
/-- `vmexp` (R320). -/
def execVmexp (d a b : Reg) (t : ElemTy) (s : State) : Res := vectorOp 0x15 d a b t s
/-- `valign` (R320). -/
def execValign (d a b : Reg) (t : ElemTy) (s : State) : Res := vectorOp 0x16 d a b t s
/-- `vnorm` (R320). -/
def execVnorm (d a b : Reg) (t : ElemTy) (s : State) : Res := vectorOp 0x17 d a b t s

/-! ### Elements (R107, R108, R309, R313) -/

/-- A source element: its value, its bits, poison, and whether a scale applies. -/
structure EVal where
  v      : FVal
  raw    : Nat
  bad    : Bool
  scaled : Bool

/-- The integer of a pattern of a type. -/
def intOfElem (t raw : Nat) : Int := if isSigned t then signedOf (elemBits t) raw else (raw % 2 ^ elemBits t : Nat)

/-- The value of a pattern of a type (R107). -/
def valueOf (dec : NMap (BitVec 19)) (t raw : Nat) : FVal :=
  if isFl t then unpack (fmtOfElem t) raw else if t = 12 then c8Value dec (raw % 256) else intV (intOfElem t raw)

/-- The value of a scale element (R108). -/
def scaleValue (t raw : Nat) : FVal :=
  if t = 1 then unpack fmtF32 raw else if raw = 255 then .nan false else .fin false 1 ((raw : Int) - 127)

/-- An exact integer, none where the value is not one. -/
def exactInt : FVal → Option Int
  | .fin neg m e =>
    let sg : Int := if neg then -1 else 1
    if 0 ≤ e then some (sg * (m * 2 ^ e.toNat : Nat)) else if m % 2 ^ (-e).toNat = 0 then some (sg * (m / 2 ^ (-e).toNat : Nat)) else none
  | _ => none

/-- A source element as an integer of its type; a scaled one that is no integer is a free value (log 31). -/
def EVal.int (x : EVal) (t free : Nat) : Int :=
  if x.scaled then (match exactInt x.v with
    | some i => i
    | none => signedOf 64 (Config.freeNat free))
  else intOfElem t x.raw

/-- The place of byte `i` of element `e` of a record: through the owner's translation, or in a channel's slot (R309). -/
def elemPlace (s : State) (k id op role n lanes : Nat) (t : Tensor) (taken : List (Nat × Nat × Nat)) (e i : Nat) (store : Bool) :
    ERes ELoc :=
  let core := ctxCore k
  let owner := ctxOwner k
  if tKind t = 2 then
    match taken.find? fun x => x.1 == role with
    | none => .wait none
    | some (_, hdr, cur) =>
      match usableHeader s k hdr with
      | none => .wait none
      | some h =>
        let es := slotElems op role n lanes t
        let o := e % es * elemBytes (tFmt t) + i
        let off := slotOff h (cur + e / es) + o
        .ok (plainLoc (if o < 64 then localLoc s core owner off else none) (word (Config.ownWindow + off)))
  else
    let va := tVa t (tIndex t e) + word i
    engineLoc s owner (unitWhere s core owner id va (b2n store)) va store

/-- The bytes of an element: its pattern and poison. Bytes past a slot's end are free values (log 32). -/
def elemRaw (s : State) (k id op role n lanes : Nat) (t : Tensor) (taken : List (Nat × Nat × Nat)) (e seed : Nat) : ERes (Nat × Bool) :=
  let size := elemBytes (tFmt t)
  (allOk ((upto size).map fun i => elemPlace s k id op role n lanes t taken e i false)).andThen fun ls =>
    let bs := (upto size).map fun i => match ls[i]? with
      | some l => if l.loc.isNone then (Config.freeByte (s.free + seed + i), false) else engineByte s l (seed + i)
      | none => (0, false)
    .ok (leValue (bs.map Prod.fst), bs.any Prod.snd)

/-- Linear place of the scale of an element in a scale record (R108). -/
def scaleIndex (t u : Tensor) (e : Nat) : Nat :=
  let i := tIndex t e
  i.1 / tBlk t + tDim u 0 * (i.2.1 + tDim u 1 * (i.2.2.1 + tDim u 2 * i.2.2.2))

/-- The scale of an element of a source, none without one (R108). -/
def elemScale (s : State) (k id op role n lanes : Nat) (t : Tensor) (sc : Option Tensor) (taken : List (Nat × Nat × Nat)) (e seed : Nat) :
    ERes (Option (FVal × Bool)) :=
  match sc with
  | none => .ok none
  | some u =>
    if !tScaled t then .ok none
    else (elemRaw s k id op (role + 3) n lanes u taken (scaleIndex t u e) seed).andThen fun r => .ok (some (scaleValue (tFmt u) r.1, r.2))

/-- A source element with its scale applied, exactly (R108, R308). -/
def elemVal (s : State) (k id op role n lanes : Nat) (dec : NMap (BitVec 19)) (t : Tensor) (sc : Option Tensor)
    (taken : List (Nat × Nat × Nat)) (e seed : Nat) : ERes EVal :=
  (elemRaw s k id op role n lanes t taken e seed).andThen fun r =>
    (elemScale s k id op role n lanes t sc taken e (seed + 8)).andThen fun x =>
      let v := valueOf dec (tFmt t) r.1
      .ok (match x with
        | none => { v := v, raw := r.1, bad := r.2, scaled := false }
        | some y => { v := (mulV v y.1).1, raw := r.1, bad := r.2 || y.2, scaled := true })

/-- An integer narrowed to a type, modulo 2^w. -/
def wrapTo (t : Nat) (i : Int) : Nat := (i % 2 ^ elemBits t).toNat

/-- The lesser or greater of two values as `fmin` and `fmax` choose (R119). -/
def pickV (mx : Bool) (x y : FVal) : FVal :=
  if isNaN x then y else if isNaN y then x
  else if mx then (if belowV x y then y else x) else (if belowV y x then y else x)

/-- The lesser or greater of two integers. -/
def pickI (mx : Bool) (x y : Int) : Int := if mx then (if x ≤ y then y else x) else (if x ≤ y then x else y)

/-- A value in the lane type: rounded, or ENC of it as F32 (R112, R313). The manual does not say which mode rounds a wider
value to F32 before ENC: here nearest-even (DESIGN CHOICE, log 73). -/
def toLane (dec : NMap (BitVec 19)) (ty rm : Nat) (v : FVal) : Nat :=
  if ty = 12 then (encV dec (unpack fmtF32 (roundTo fmtF32 0 v).1)).1 else (roundTo (fmtOfElem ty) rm v).1

/-- CONVERT (R313). -/
def convertV (dec : NMap (BitVec 19)) (sf ty rm free : Nat) (x : EVal) : Nat :=
  if isVal sf || x.scaled then
    (if isVal ty then toLane dec ty rm x.v else wrapTo ty (toIntV rm (isSigned ty) (elemBits ty) x.v).1)
  else
    let i := x.int sf free
    if isVal ty then toLane dec ty rm (intV i)
    else
      let lo := intMin (isSigned ty) (elemBits ty)
      let hi := intMax (isSigned ty) (elemBits ty)
      wrapTo ty (if i < lo then lo else if hi < i then hi else i)

/-- COND of `vcmp` (R314). -/
def condOf (sub ty free : Nat) (x y : EVal) : Bool :=
  let (lt, eq, un) :=
    if isFl ty then (ltV x.v y.v, eqV x.v y.v, isNaN x.v || isNaN y.v)
    else (decide (x.int ty free < y.int ty (free + 1)), decide (x.int ty free = y.int ty (free + 1)), false)
  match sub with
  | 0 => eq
  | 1 => un || !eq
  | 2 => lt
  | 3 => lt || eq
  | 4 => !un && !lt && !eq
  | _ => !un && !lt

/-- GEN (R316). -/
def genWord (lseed wid : Word) (salt e : Nat) : Word :=
  let k : Word := lseed ^^^ wid ^^^ word (e / 2 ^ 16 % 2 ^ 16 * 2 ^ 32)
  let c : Word := (tombola (~~~k) 0x1F salt (e % 2 ^ 16)) ++ (tombola k 0x1F salt (e % 2 ^ 16))
  let c := if c = 0 then 1 else c
  c.rotateRight 1 ^^^ (c ||| c.rotateLeft 1)

/-- Stochastic rounding of a value to a format by r (R317); beyond the largest magnitude's successor the manual states no
result: a free value (log 33). -/
def stochastic (f : Fmt) (r free : Nat) : FVal → Nat
  | .nan _ => canonNaN f
  | .inf neg => infBits f neg
  | .fin neg m e =>
    let lo := (roundTo f 1 (.fin false m e)).1
    let sg := b2n neg * 2 ^ (f.eb + f.fb)
    match unpack f lo with
    | .fin _ ml el =>
      let ef := lo / 2 ^ f.fb
      let q : Int := (if ef = 0 then 1 else ef) - bias f - f.fb
      let g := if e ≤ q then e else q
      let num := m * 2 ^ (e - g).toNat - ml * 2 ^ (el - g).toNat
      let den := 2 ^ (q - g).toNat
      if den ≤ num then sg + (if Config.freeBool free then lo else lo + 1)
      else if r < num * 2 ^ 32 / den then sg + lo + 1 else sg + lo
    | _ => sg + lo

/-- The result of an element-wise command (R312, R313, R316, R317): the destination's pattern. `z` is the old
destination, `g` the random word. -/
def elemResult (op ty sub param rm : Nat) (coef : Coef) (dec : NMap (BitVec 19)) (sf free : Nat) (g : Word) (x y z : EVal) : Nat :=
  let f := fmtOfElem ty
  let fl := fun (v : FVal) => (roundTo f rm v).1
  match op with
  | 0x00 => if isFl ty then fl (addV rm x.v y.v).1 else wrapTo ty (x.int ty free + y.int ty (free + 1))
  | 0x01 => if isFl ty then fl (addV rm x.v (negV y.v)).1 else wrapTo ty (x.int ty free - y.int ty (free + 1))
  | 0x02 => if isFl ty then fl (mulV x.v y.v).1 else wrapTo ty (x.int ty free * y.int ty (free + 1))
  | 0x03 => fl (fmaV rm x.v y.v z.v).1
  | 0x04 => if isFl ty then fl (pickV false x.v y.v) else wrapTo ty (pickI false (x.int ty free) (y.int ty (free + 1)))
  | 0x05 => if isFl ty then fl (pickV true x.v y.v) else wrapTo ty (pickI true (x.int ty free) (y.int ty (free + 1)))
  | 0x06 =>
    if !isFl ty then wrapTo ty (x.int ty free).natAbs
    else if x.scaled then fl x.v % 2 ^ (f.eb + f.fb) else x.raw % 2 ^ (f.eb + f.fb)
  | 0x07 => convertV dec sf ty rm free x
  | 0x08 => fl (mulV x.v (unpack fmtF32 param)).1
  | 0x0C => (evalCoef coef (if x.scaled then (roundTo fmtF32 0 x.v).1 else x.raw) (sub / 4)).1
  | 0x0D => g.toNat % 2 ^ elemBits ty
  | 0x0E => stochastic f (g.toNat % 2 ^ 32) free x.v
  | 0x0F => if g.toNat % 2 ^ 32 / 2 ^ 11 < param / 2 ^ 11 then (if x.scaled then fl x.v else x.raw) else 0
  | 0x16 =>
    let ev := y.int 6 (free + 2)
    if ty = 12 then
      (if ev = -2 ^ 31 then 0
       else match x.v with
         | .fin neg m e => toLane dec 12 0 (.fin neg m (e - ev))
         | v => toLane dec 12 0 v)
    else match x.v with
      | .fin neg m e =>
        if ev = -2 ^ 31 ∨ ev = 2 ^ 31 - 1 then 0
        else
          let r := (roundInt rm neg m (e + 10 - ev)).1
          let r := Nat.min r (2 ^ 11 - 1)
          wrapTo 6 (if neg then -(r : Int) else r)
      | _ => 0
  | 0x17 =>
    let ev := y.int 6 (free + 2)
    if ev = -2 ^ 31 then 0
    else if ev = 2 ^ 31 - 1 then canonNaN f
    else match x.v with
      | .fin neg m e => fl (.fin neg m (e + ev - 10))
      | v => fl v
  | _ => x.raw

/-- One level of TREE (R117). -/
def treeLevel {α : Type} (f : α → α → α) : List α → List α
  | a :: b :: r => f a b :: treeLevel f r
  | l => l
/-- TREE (R117), level by level. -/
def treeFold {α : Type} (f : α → α → α) : Nat → List α → Option α
  | 0, l => l.head?
  | n + 1, l => match l with
    | _ :: _ :: _ => treeFold f n (treeLevel f l)
    | l => l.head?

/-- The result of a reduction (R315): TREE over the enabled elements, or the identity; in the destination's type. -/
def reduceResult (sub ty df : Nat) (l : List (FVal × Nat × Bool)) : Nat :=
  if isVal ty then
    let f := if ty = 0 then fmtF64 else fmtF32
    let add := fun (a b : FVal) => unpack f (roundTo f 0 (addV 0 a b).1).1
    let op := if sub = 0 then add else pickV (sub == 2)
    let vs := l.map Prod.fst
    let v := (treeFold op vs.length vs).getD (if sub = 0 then .fin false 0 0 else .inf (sub == 2))
    (roundTo (fmtOfElem df) 0 (unpack f (roundTo f 0 v).1)).1
  else
    let w := elemBits ty
    let op : Int → Int → Int := if sub = 0 then fun a b => a + b else pickI (sub == 2)
    let is_ := l.map fun x => intOfElem ty x.2.1
    let v := (treeFold op is_.length is_).getD
      (if sub = 0 then 0 else if sub = 1 then intMax (isSigned ty) w else intMin (isSigned ty) w)
    wrapTo ty v

/-- The result of `vmexp` for one block (R320). -/
def blockExp (l : List (FVal × Nat × Bool)) : Nat :=
  let es := l.filterMap fun x => match x.1 with
    | .fin _ m e => if m = 0 then none else some (leadExp m e)
    | _ => none
  let bad := l.any fun x => match x.1 with
    | .fin _ _ _ => false
    | _ => true
  if bad then 2 ^ 31 - 1
  else match es with
    | [] => 2 ^ 31
    | a :: r => wrapTo 6 (r.foldl (pickI true) a)

/-! ### Beats (R303, R308-R310) -/

/-- What a beat does: bytes to write, messages through the window, the next element, the elements kept for a reduction,
the lanes' generators, and the elements of each channel record that are over (R309). -/
structure Beat where
  cells : List (ELoc × Byte × Bool) := []
  msgs  : List (List Byte × Nat × List Nat) := []
  next  : Nat
  acc   : List (FVal × Nat × Bool) := []
  lanes : List (Nat × Word) := []
  outs  : Nat := 0

/-- Bytes of one destination element. -/
def elemCells (s : State) (k id op role n lanes : Nat) (t : Tensor) (taken : List (Nat × Nat × Nat)) (e v : Nat) (bad : Bool) :
    ERes (List (ELoc × Byte × Bool)) :=
  let size := elemBytes (tFmt t)
  (allOk ((upto size).map fun i => elemPlace s k id op role n lanes t taken e i true)).andThen fun ls =>
    .ok ((upto size).filterMap fun i => (ls[i]?).map fun l => (l, (leBytes v size).getD i 0, bad))

/-- A vector command being run, with its fields named. -/
structure VCmd where
  k      : Nat
  id     : Nat
  op     : Nat
  ty     : Nat
  mask   : Option Word
  sub    : Nat
  param  : Nat
  recs   : List (Option Tensor)
  scales : List (Option Tensor)
  rmode  : Nat
  lseed  : Word
  wid    : Word
  coef   : Coef
  dec    : NMap (BitVec 19)
  pos    : Nat
  taken  : List (Nat × Nat × Nat)
  acc    : List (FVal × Nat × Bool)

/-- The fields of a vector command. -/
def vcmdOf (c : Cmd) : Option VCmd :=
  match c.kind with
  | .vec op ty mask a recs scales rmode lseed wid coef dec pos taken acc =>
    some { k := c.ctx, id := c.id, op := op, ty := ty, mask := mask, sub := bits a 27 24, param := bits a 63 32, recs := recs, scales := scales,
           rmode := rmode, lseed := lseed, wid := wid, coef := coef, dec := dec, pos := pos, taken := taken, acc := acc }
  | _ => none

/-- A record of the command by role, from 3 on a scale record. -/
def VCmd.tensor (v : VCmd) (role : Nat) : Option Tensor :=
  if role ≤ 2 then (v.recs[role]?).getD none else (v.scales[role - 3]?).getD none
/-- The elements the command counts. -/
def VCmd.count (v : VCmd) : Nat := ((vShape v.op (v.tensor 0) (v.tensor 1)).map tCount).getD 0
/-- Lanes per beat. -/
def VCmd.lanes (v : VCmd) : Nat := vLanes v.ty
/-- Element e is enabled (R305). -/
def VCmd.enabled (v : VCmd) (e : Nat) : Bool :=
  match v.mask with
  | none => true
  | some m => bit m (e % v.lanes * elemBytes v.ty)
/-- A source element, with a value of zero bits where the command has no such source. -/
def VCmd.read (v : VCmd) (s : State) (role e seed : Nat) : ERes EVal :=
  match v.tensor role with
  | none => .ok { v := .fin false 0 0, raw := 0, bad := false, scaled := false }
  | some t =>
    let sc := if role = 0 ∨ movesBits v.op = true then none else v.tensor (role + 3)
    elemVal s v.k v.id v.op role v.count v.lanes v.dec t sc v.taken e seed
/-- Bytes of a destination element. -/
def VCmd.write (v : VCmd) (s : State) (e val : Nat) (bad : Bool) : ERes (List (ELoc × Byte × Bool)) :=
  match v.tensor 0 with
  | none => .ok []
  | some t => elemCells s v.k v.id v.op 0 v.count v.lanes t v.taken e val bad

/-- Linear place, in a record of block exponents, of the block that an element lies in (R320). -/
def blockPlace (t u : Tensor) (blk e : Nat) : Nat :=
  let i := tIndex t e
  i.1 / blk + tDim u 0 * (i.2.1 + tDim u 1 * (i.2.2.1 + tDim u 2 * i.2.2.2))

/-- Place in a record of what the command reads or writes for element e: the block of `valign` and `vnorm` (R320), a scale (R108,
R320), else the element. -/
def VCmd.place (v : VCmd) (role e : Nat) : Nat :=
  let data := fun (r : Nat) => match v.tensor 0, v.tensor 2 with
    | some t, some u => if r = 2 ∧ (v.op = 0x16 ∨ v.op = 0x17) then blockPlace t u (vBlk v.sub) e else e
    | _, _ => e
  if role ≤ 2 then data role
  else match v.tensor (role - 3), v.tensor role with
    | some t, some u => if role = 3 then blockPlace t u (vBlk v.sub) e else scaleIndex t u (data (role - 3))
    | _, _ => e

/-- The elements of the beat that starts at the command's next element. -/
def VCmd.beatElems (v : VCmd) : List Nat :=
  let stop := Nat.min v.count ((v.pos / v.lanes + 1) * v.lanes)
  (upto (stop - v.pos)).map fun i => v.pos + i

/-- Joins the bytes of several elements. -/
def joinCells (l : List (ERes (List (ELoc × Byte × Bool)))) : ERes (List (ELoc × Byte × Bool)) :=
  (allOk l).andThen fun ls => .ok (ls.foldl (fun a b => a ++ b) [])

/-- The scale bytes that `valign` to C8 writes for an element's block (R320). -/
def scaleCells (v : VCmd) (s : State) (e : Nat) (y : EVal) : ERes (List (ELoc × Byte × Bool)) :=
  match v.tensor 0, (v.scales[0]?).getD none with
  | some t, some u =>
    let ev := y.int 6 (s.free + 128 * (e - v.pos) + 98)
    let sc : Nat := if ev = -2 ^ 31 then 127 else if -127 ≤ ev ∧ ev ≤ 127 then (ev + 127).toNat else 255
    elemCells s v.k v.id v.op 3 v.count v.lanes u v.taken (blockPlace t u (vBlk v.sub) e) sc y.bad
  | _, _ => .ok []

/-- An element-wise beat (R308, R312, R313, R316-R318, R320): enabled elements are read, then written. -/
def plainBeat (v : VCmd) (s : State) : ERes Beat :=
  let es := v.beatElems
  let one := fun (e : Nat) =>
    let seed := 128 * (e - v.pos)
    let place2 := v.place 2 e
    if v.op = 0x0A then
      (v.read s (if v.enabled e then 1 else 2) e seed).andThen fun x => v.write s e x.raw x.bad
    else if !v.enabled e then .ok []
    else if v.op = 0x10 then
      (v.read s 2 e seed).andThen fun y =>
        if ((v.tensor 1).map tCount).getD 0 ≤ y.raw then v.write s e 0 y.bad
        else (v.read s 1 y.raw (seed + 32)).andThen fun x => v.write s e x.raw (x.bad || y.bad)
    else if v.op = 0x11 then
      (v.read s 2 e seed).andThen fun y => (v.read s 1 e (seed + 32)).andThen fun x =>
        if ((v.tensor 0).map tCount).getD 0 ≤ y.raw then .ok [] else v.write s y.raw x.raw (x.bad || y.bad)
    else
      (v.read s 1 e seed).andThen fun x => (v.read s 2 place2 (seed + 32)).andThen fun y =>
        (if v.op = 0x03 then v.read s 0 e (seed + 64) else .ok y).andThen fun z =>
          let g := genWord v.lseed v.wid (v.param % 2 ^ 11) e
          let sf := ((v.tensor 1).map tFmt).getD v.ty
          let r := elemResult v.op v.ty v.sub v.param v.rmode v.coef v.dec sf (s.free + seed + 96) g x y z
          let bad := x.bad || y.bad || (v.op == 0x03 && z.bad)
          (v.write s e r bad).andThen fun cs =>
            if v.op = 0x16 ∧ v.ty = 12 then (scaleCells v s e y).andThen fun sc => .ok (cs ++ sc) else .ok cs
  (joinCells (es.map one)).andThen fun cs =>
    let rng := v.op == 0x0D || v.op == 0x0E || v.op == 0x0F
    let lanes := if rng then (es.filter v.enabled).map fun e => (e % v.lanes, genWord v.lseed v.wid (v.param % 2 ^ 11) e) else []
    .ok { cells := cs, next := v.pos + es.length, lanes := lanes, outs := v.pos + es.length }

/-- A beat of `vcmp` (R314). -/
def cmpBeat (v : VCmd) (s : State) : ERes Beat :=
  let es := v.beatElems
  let b := elemBytes v.ty
  let one := fun (e : Nat) =>
    let seed := 128 * (e - v.pos)
    if !v.enabled e then .ok (0, false)
    else (v.read s 1 e seed).andThen fun x => (v.read s 2 e (seed + 32)).andThen fun y =>
      .ok (if condOf v.sub v.ty (s.free + seed + 64) x y then ((2 ^ b - 1) * 2 ^ (e % v.lanes * b), x.bad || y.bad)
        else (0, x.bad || y.bad))
  (allOk (es.map one)).andThen fun rs =>
    let w := rs.foldl (fun a r => a + r.1) 0
    let k := v.pos / v.lanes
    (v.write s k w (rs.any Prod.snd)).andThen fun cs => .ok { cells := cs, next := v.pos + es.length, outs := k + 1 }

/-- Elements of a reduction, one after the other: the bytes of the outputs that end, and the elements kept. `ends` says
where an output ends, and which it is. -/
def reduceElems (v : VCmd) (s : State) (ends : Nat → Option Nat) (result : List (FVal × Nat × Bool) → Nat) :
    List Nat → List (FVal × Nat × Bool) → List (ELoc × Byte × Bool) → Nat →
    ERes (List (ELoc × Byte × Bool) × List (FVal × Nat × Bool) × Nat)
  | [], acc, cells, outs => .ok (cells, acc, outs)
  | e :: r, acc, cells, outs =>
    (if v.enabled e then (v.read s 1 e (128 * (e - v.pos))).andThen fun x =>
        .ok (acc ++ [(x.v, (if isVal v.ty then x.raw else wrapTo v.ty (x.int v.ty (s.free + 128 * (e - v.pos) + 64))), x.bad)])
     else .ok acc).andThen fun acc =>
      match ends e with
      | none => reduceElems v s ends result r acc cells outs
      | some o => (v.write s o (result acc) (acc.any fun x => x.2.2)).andThen fun cs =>
          reduceElems v s ends result r [] (cells ++ cs) (o + 1)

/-- A beat of `vred` or `vmexp` (R315, R320). -/
def reduceBeat (v : VCmd) (s : State) : ERes Beat :=
  let es := v.beatElems
  match v.tensor 1, v.tensor 0 with
  | some t, some u =>
    let d0 := tDim t 0
    let blk := if v.op = 0x0B then d0 else vBlk v.sub
    let per := (d0 + blk - 1) / blk
    let ends := fun (e : Nat) =>
      let i := e % d0
      if i % blk = blk - 1 ∨ i = d0 - 1 then some (e / d0 * per + i / blk) else none
    let result := if v.op = 0x0B then reduceResult v.sub v.ty (tFmt u) else blockExp
    (reduceElems v s ends result es v.acc [] ((v.pos / d0) * per + v.pos % d0 / blk)).andThen fun r =>
      .ok { cells := r.1, next := v.pos + es.length, acc := r.2.1, outs := r.2.2 }
  | _, _ => .wait none

/-- A beat of `vsend`: one slot of 64 bytes (R319). -/
def sendBeat (v : VCmd) (s : State) : ERes Beat :=
  let es := v.beatElems
  let b := elemBytes v.ty
  (allOk (es.map fun e => v.read s 1 e (128 * (e - v.pos)))).andThen fun xs =>
    let data := xs.foldl (fun a x => a ++ leBytes x.raw b) []
    let bad := (upto xs.length).foldl (fun a i => match xs[i]? with
      | some x => if x.bad then insNat a (i * b / 8) else a
      | none => a) []
    .ok { msgs := [(data ++ List.replicate (64 - data.length) 0, 64, bad)], next := v.pos + es.length }

/-- The messages of a beat of `vsparse` (R319): its enabled elements are read in full, and those not ±0 go out. -/
def sparseElems (v : VCmd) (s : State) : ERes (List (FVal × Nat × Bool)) :=
  (allOk ((v.beatElems.filter v.enabled).map fun e => (v.read s 1 e (128 * (e - v.pos))).andThen fun x => .ok (e, x))).andThen fun xs =>
    .ok ((xs.filter fun p => !isZero p.2.v).map fun p =>
      let raw32 := if v.ty = 1 ∧ p.2.scaled = false then p.2.raw else (roundTo fmtF32 0 p.2.v).1
      (p.2.v, raw32 + p.1 * 2 ^ 32, p.2.bad))

/-- A beat of `vsparse`, or the next messages of one that has been read, as many as there is credit and room for (R310,
R319). -/
def sparseBeat (v : VCmd) (s : State) (room : Nat) : ERes Beat :=
  let go := fun (l : List (FVal × Nat × Bool)) (next : Nat) =>
    ERes.ok ({ next := next, acc := l.drop room,
               msgs := (l.take room).map fun x => (leBytes x.2.1 8 ++ List.replicate 56 0, 8, if x.2.2 then [0] else []) } : Beat)
  if v.acc.isEmpty then (sparseElems v s).andThen fun l => go l (v.pos + v.beatElems.length)
  else if room = 0 then .wait none else go v.acc v.pos

/-- Credit of a window (R173). -/
def creditOf (w : Window) : Nat := w.win - diff32 w.sent w.ack

/-- The window a command sends through: its frame's, or the one kept for an ended activation. -/
def cmdWindow (s : State) (c : Cmd) (w : Nat) : Option Window :=
  let f := frameOf s (ctxCore c.ctx) c.frame
  if f.act = c.act ∧ f.st ≠ .free then NMap.find f.windows w
  else (s.orphans.find? fun x => x.1 == c.ctx && x.2.1 == c.frame && x.2.2.1 == c.act && x.2.2.2.1 == w).map fun x => x.2.2.2.2

/-- Sets it. -/
def setCmdWindow (s : State) (c : Cmd) (w : Nat) (x : Window) : State :=
  let f := frameOf s (ctxCore c.ctx) c.frame
  if f.act = c.act ∧ f.st ≠ .free then setFrame s (ctxCore c.ctx) c.frame { f with windows := NMap.put f.windows w x }
  else
    let upd := fun (y : Nat × Nat × Nat × Nat × Window) =>
      if y.1 = c.ctx ∧ y.2.1 = c.frame ∧ y.2.2.1 = c.act ∧ y.2.2.2.1 = w then (y.1, y.2.1, y.2.2.1, y.2.2.2.1, x) else y
    { s with orphans := s.orphans.map upd }

/-- Messages that the command may send now: credit of its window (R173), and room of its segment (R76). -/
def sendRoom (s : State) (c : Cmd) (w : Window) : Nat := Nat.min (creditOf w) (segmentRoom s c.ctx (c.frame / 4))

/-- The command's next beat, or why there is none. -/
def beatOf (s : State) (c : Cmd) (v : VCmd) : ERes Beat :=
  if v.op = 0x09 then cmpBeat v s
  else if v.op = 0x0B ∨ v.op = 0x15 then reduceBeat v s
  else if v.op = 0x13 then
    (match cmdWindow s c (v.sub % 4) with
     | some w => if sendRoom s c w = 0 then .wait none else sendBeat v s
     | none => .wait none)
  else if v.op = 0x12 then
    (match cmdWindow s c (v.sub % 4) with
     | some w => sparseBeat v s (sendRoom s c w)
     | none => .wait none)
  else plainBeat v s

/-- Slots of a channel record that the beat needs, and that are over after it (R309): those of a block's exponent or of a scale
are over with the last beat that reads it. -/
def channelSpan (v : VCmd) (role : Nat) (t : Tensor) (b : Beat) : Nat × Nat :=
  let total := slotCount v.op role v.count v.lanes t
  let es := slotElems v.op role v.count v.lanes t
  let last := decide (v.count ≤ b.next)
  if 3 ≤ role ∨ (role = 2 ∧ (v.op = 0x16 ∨ v.op = 0x17)) then
    (if b.next = 0 then 0 else v.place role (b.next - 1) / es + 1, if last then total else v.place role b.next / es)
  else if role = 0 ∧ (v.op = 0x0B ∨ v.op = 0x15 ∨ v.op = 0x09) then
    ((b.outs + es - 1) / es, if last then total else b.outs / es)
  else if tCount t = v.count ∧ ¬(v.op = 0x10 ∧ role = 1) ∧ ¬(v.op = 0x11 ∧ role = 0) then
    ((b.next + es - 1) / es, if last then total else b.next / es)
  else (total, if last then total else 0)

/-- The channels of the command have the slots the beat needs: published for a source, free for a destination (R309). -/
def channelsReady (s : State) (v : VCmd) (b : Beat) : Bool :=
  v.taken.all fun x => match v.tensor x.1, usableHeader s v.k x.2.1 with
    | some t, some h =>
      let need := (channelSpan v x.1 t b).1
      if x.1 = 0 ∨ x.1 = 3 then decide (diff32 (x.2.2 + need) h.tail ≤ slotsOf h) || need == 0
      else need == 0 || decide (need ≤ diff32 h.head x.2.2 ∧ diff32 h.head x.2.2 < 2 ^ 31)
    | _, _ => false

/-- Tags of the source slots that the beat reads (R92, R309). -/
def channelTags (s : State) (v : VCmd) (b : Beat) : List Nat :=
  v.taken.foldl (fun a x => match v.tensor x.1, NMap.find (ctxOf s v.k).headers x.2.1 with
    | some t, some h =>
      if x.1 = 0 ∨ x.1 = 3 then a
      else (h.tags.filter fun p => decide (diff32 p.1 x.2.2 < (channelSpan v x.1 t b).1)).foldl (fun a p => unionNat a p.2) a
    | _, _ => a) []

/-- How far the command is through the slots of a handle, from a count on: over its records there one after another, as far as each is
through (R309). -/
def channelRun (v : VCmd) (b : Beat) (hdr : Nat) (store : Bool) (start : Nat) : Nat :=
  (v.taken.foldl (fun (a : Nat × Bool) x => match v.tensor x.1 with
    | none => a
    | some t =>
      if x.2.1 ≠ hdr ∨ (x.1 == 0 || x.1 == 3) ≠ store ∨ a.2 = true then a
      else
        let past := (channelSpan v x.1 t b).2
        let upTo := (x.2.2 + past) % 2 ^ 32
        (if diff32 upTo a.1 < 2 ^ 31 then upTo else a.1, decide (past < slotCount v.op x.1 v.count v.lanes t))) (start, false)).1

/-- TAIL passes the source slots that are over, and destination slots that are full are published (R309). -/
def moveChannels (s : State) (c : Cmd) (v : VCmd) (b : Beat) (tag : List Nat) : State :=
  v.taken.foldl (fun s x => match NMap.find (ctxOf s v.k).headers x.2.1 with
    | some h =>
      if x.1 = 0 ∨ x.1 = 3 then publishSlots v.k x.2.1 64 (ctxCore v.k) c.lin tag (diff32 (channelRun v b x.2.1 true h.head) h.head) s
      else
        let upTo := channelRun v b x.2.1 false h.tail
        if upTo = h.tail then s else moveTail s v.k x.2.1 upTo
    | none => s) s

/-- Writes of the context's earlier vector commands: they precede those of this one (R311). -/
def earlierVec (s : State) (c : Cmd) : List Nat :=
  let a := (s.cmds.filter fun x => x.ctx == c.ctx && x.cls == 0 && decide (x.num < c.num)).foldl (fun l x => unionNat l x.writes) []
  ((ctxOf s c.ctx).vec.learn.filter fun p => decide (p.1 < c.num)).foldl (fun l p => unionNat l p.2) a

/-- The command is over: a window kept for it alone closes (R174, R319). -/
def finishVec (s : State) (c : Cmd) : State :=
  closeOrphans (dropWalked (setCmd s { c with finished := true }) c.id) c.ctx

/-- The oldest vector command of a context that is not over (R303, R311). -/
def vecNext (s : State) (k : Nat) : Option Cmd :=
  match s.cmds.filter fun c => c.ctx == k && c.cls == 0 && !c.finished with
  | [] => none
  | c :: r => some (r.foldl (fun b x => if x.num < b.num then x else b) c)

/-- The elements of its records that the beat reads, as role and place, in the order in which it reads them: enabled ones, but that
`vsel` and `vsend` read all (R305, R308, R312, R319). -/
def beatReads (v : VCmd) (s : State) : List (Nat × Nat) :=
  let el := fun (role e : Nat) =>
    (role, v.place role e) :: (match v.tensor role with
      | some t => if role ≠ 0 ∧ tScaled t = true ∧ movesBits v.op = false then [(role + 3, v.place (role + 3) e)] else []
      | none => [])
  v.beatElems.flatMap fun e =>
    if v.op = 0x0A then el (if v.enabled e then 1 else 2) e
    else if v.op = 0x13 then el 1 e
    else if !v.enabled e then []
    else if v.op = 0x10 then
      el 2 e ++ (match v.read s 2 e 0 with
        | .ok y => if y.raw < ((v.tensor 1).map tCount).getD 0 then [(1, y.raw)] else []
        | _ => [])
    else if v.op = 0x11 then el 2 e ++ el 1 e
    else el 1 e ++ el 2 e ++ if v.op = 0x03 then el 0 e else []

/-- The places of the bytes that the beat reads. -/
def beatPlaces (v : VCmd) (s : State) : List ELoc :=
  (beatReads v s).flatMap fun p => match v.tensor p.1 with
    | none => []
    | some t => (upto (elemBytes (tFmt t))).filterMap fun i =>
        match elemPlace s v.k v.id v.op p.1 v.count v.lanes t v.taken p.2 i false with
        | .ok l => some l
        | _ => none

/-- What the writes of a beat know: the command's knowledge and writes, those of earlier commands, and the tags of the slots it
reads (R92, R94, R311). -/
def beatKnown (s : State) (c : Cmd) (v : VCmd) (b : Beat) : List Nat :=
  unionNat (unionNat (cmdBrings c) (earlierVec s c)) (channelTags s v b)

/-- The command that an owner runs on a core, with what its next beat comes to (R303, R309, R310, R345): none where it waits for a slot,
a line, or what precedes its writes (R81). -/
def nextBeat (s : State) (core owner : Nat) : Option (Cmd × VCmd × ERes Beat) :=
  match vecNext s (ctxKey core owner) with
  | none => none
  | some c => match vcmdOf c with
    | none => none
    | some v =>
      if !cmdFree s c then none
      else match beatOf s c v with
        | .ok b =>
          let ls := b.cells.map Prod.fst
          if channelsReady s v b && linesHeld s ls && mayWrite s (beatKnown s c v b) ls then some (c, v, .ok b) else none
        | r => some (c, v, r)

/-- The beat that an owner has ready on a core, its sectors asked for and granted, or the fault that it stops on (R94, R211, R310). -/
def readyBeat (s : State) (core owner : Nat) : Option (Cmd × VCmd × ERes Beat) :=
  (nextBeat s core owner).filter fun x => match x.2.2 with
    | .ok _ => x.1.asked != 0 && !standsAt s x.1.id
    | .fault _ _ => true
    | .wait _ => false

/-- A command stops before a beat (R310): an entry of KIND 1, and ERRORS of its lineage. -/
def stopVec (s : State) (c : Cmd) (cause : Nat) (va : Word) : State :=
  finishVec (cancelAt (countError (reportFault s c.ctx c.frame cause va c.pc) c.lin) [c.id]) c

/-- A slot of a `vsend` or `vsparse` enters the queue as a message of its context (R91, R319). -/
def pushSlot (s : State) (c : Cmd) (win : Window) (tag : List Nat) (m : List Byte × Nat × List Nat) : State :=
  pushEntry s c.ctx { id := s.nextId, frame := c.frame, act := c.act, bank := c.frame / 4,
                      body := .msg win.core (ctxOwner c.ctx) (.slot win.hdr m.1 m.2.1 c.lin m.2.2), share := none, weak := false,
                      rel := true, held := false, lin := c.lin, after := (ctxOf s c.ctx).queue.map QEntry.id,
                      reads := (s.reads.filter fun r => r.ctx == c.ctx && r.frame == c.frame && r.act == c.act && decide (r.id < c.id)).map Read.id,
                      pub := [], acked := [], tag := tag }

/-- One beat of a command (R303-R320). -/
def vectorBeatStep (s : State) (c : Cmd) (v : VCmd) (r : ERes Beat) : State :=
  match r with
  | .wait _ => s
  | .fault cause va => stopVec s c cause va
  | .ok b =>
    match refusedAt s c.ctx (b.cells.map Prod.fst), lostTo s c (b.cells.map Prod.fst) with
    | some a, _ => stopVec (countCapDrop s a.1) c 0x07 a.2
    | none, some va => stopVec s c 0x09 va
    | none, none =>
      let owner := ctxOwner c.ctx
      let known := beatKnown s c v b
      let w := engineStore { s with free := s.free + 16384 } c known b.cells
      let s := charge w.1 owner 2
      let tag := unionNat known w.2
      let s := match cmdWindow s c (v.sub % 4) with
        | some win =>
          if b.msgs.isEmpty then s
          else
            let s := b.msgs.foldl (fun s m => pushSlot s c win tag m) s
            setCmdWindow s c (v.sub % 4) { win with sent := (win.sent + b.msgs.length) % 2 ^ 32 }
        | none => s
      let x := ctxOf s c.ctx
      let s := setCtx s c.ctx { x with lanes := b.lanes.foldl (fun m p => NMap.put m p.1 p.2) x.lanes }
      let s := moveChannels s c v b tag
      let c := { c with known := unionNat c.known (channelTags s v b), writes := c.writes ++ w.2, asked := 0,
                        kind := match c.kind with
                          | .vec op ty mask a recs scales rmode lseed wid coef dec _ taken _ =>
                            .vec op ty mask a recs scales rmode lseed wid coef dec b.next taken b.acc
                          | k => k }
      if v.count ≤ b.next ∧ (v.op ≠ 0x12 ∨ b.acc = []) then finishVec s c else dropWalked (setCmd s c) c.id

/-- What an owner's next beat on a core reaches in memory is asked for: the walk of a page that no TLB translates, then the sectors that
it reads and writes, which join the points of their ways (R17, R94, R374). -/
def askBeat (s : State) (core o : Nat) : State :=
  let ring := ringOfCore s core
  match nextBeat s core o with
  | some (c, v, .ok b) =>
    if c.asked ≠ 0 then s
    else engineAccess (engineAccess (setCmd s { c with asked := 1 }) ring c false (beatPlaces v s)) ring c true (b.cells.map Prod.fst)
  | some (c, _, r) => askWalk s ring core o c.id true r
  | none => s

/-- An owner's beat runs: its reads find what is held of their sectors in M recalled (R94, R251). -/
def runBeat (s : State) (core o : Nat) : State :=
  match readyBeat s core o with
  | none => s
  | some (c, v, r) =>
    let s := match r with
      | .ok _ => engineHome s c.ctx (beatPlaces v s)
      | _ => s
    match readyBeat s core o with
    | some (c, v, r) => vectorBeatStep s c v r
    | none => s

/-- Owners with a beat ready on a core, ascending (R303). -/
def beatOwners (s : State) (core : Nat) : List Nat := (residents s core).filter fun o => (readyBeat s core o).isSome

/-- One beat of a clk (R303): of the owner that the issue draw assigned, or of a borrower drawn by the engine's own stream, which
is kept as the point of code 0x0A at its physical core (R18). -/
def beatSlot (s : State) (core : Nat) : State :=
  let inst := physCore s core
  let os := beatOwners s core
  let p := { pointOf s 0x0A inst with lastSlot := s.clk + 1 }
  match (assignedNow s core).filter fun o => os.contains o with
  | some o => runBeat (setPoint s 0x0A inst p) core o
  | none =>
    let b := drawStream (key0 s) 0x0A (inDie s core) p.borrow
    runBeat (setPoint s 0x0A inst { p with borrow := b.2 }) core (os.getD (b.1 / 2 ^ 24 % os.length) 0)

end Sys2Proof.Machine
end

