-- ==== Sys2Proof/Machine/Carousel.lean ====
section
/-! DEFINITION. The carousel matrix array (R322-R337, R340): leases, group commands and their parts. -/

namespace Sys2Proof.Machine

open Sys2Proof

/-! ### Leases (R322-R325, R331, R332) -/

/-- The member of the issuing activation. -/
def isMe (s : State) (m : Member) : Bool := m.core == s.cur.1 && m.frame == s.cur.2 && m.act == (curFrame s).act

/-- The ring and lease that the issuing activation is a member of. -/
def myLease (s : State) : Option (Nat × Lease) :=
  s.rings.findSome? fun p => match p.2.lease with
    | some l => if l.members.any (isMe s) then some (p.1, l) else none
    | none => none

/-- The request that the issuing activation has joined. -/
def myRequest (s : State) : Option (Nat × Lease) :=
  s.rings.findSome? fun p => (p.2.pending.find? fun l => l.members.any (isMe s)).map fun l => (p.1, l)

/-- The issuing activation as a member. -/
def newMember (s : State) : Member :=
  { core := s.cur.1, frame := s.cur.2, act := (curFrame s).act, issued := 0, panel := none, pscale := none, mr := 0, acc := [],
    bad := [], latch := none }

/-- A request has a member on each of its cores. -/
def complete (l : Lease) : Bool := l.members.length == l.size

/-- The geometry of a complete request (R323). -/
def geometryOk (s : State) (ring : Nat) (l : Lease) : Bool :=
  let p0 := physCore s l.first % 16
  p0 % l.size == 0 && (upto l.size).all fun x => physCore s (l.first + x) == ring * 16 + p0 + x

/-- `mlease` (R331): joins the request, and parks until it is granted or refused. -/
def execMlease (d a : Reg) (s : State) : Res :=
  let s := expireLeases s
  let x := rd s a
  let first := bits x 12 0
  let code := bits x 17 16
  let size := 4 * 2 ^ code
  let run := bits x 40 32
  let owner := curOwner s
  let ring := ringOfCore s first
  let f := curFrame s
  commit s (match f.lease with
    | some (st, ix) => finish (clearWait (setCur s { f with lease := none })) d (word (st + ix * 2 ^ 8))
    | none =>
      if bits x 15 13 ≠ 0 ∨ bits x 31 18 ≠ 0 ∨ bits x 63 41 ≠ 0 ∨ code = 3 ∨ run = 0 ∨ 256 < run ∨ 6144 < first + size
          ∨ s.cur.1 < first ∨ first + size ≤ s.cur.1 then illOperand s
      else if (myLease s).isSome ∨ (myRequest s).isSome then finish s d 3
      else
        let r := ringOf s ring
        let same := fun (l : Lease) => l.owner == owner && l.first == first && l.size == size
        match r.pending.find? same with
        | some l =>
          if l.members.any fun m => m.core == s.cur.1 then finish s d 3
          else if 16 ≤ (r.pending.filter fun l => l.owner == owner).length then finish s d 5
          else if l.run ≠ run then finish s d 2
          else
            let l := { l with members := l.members ++ [newMember s] }
            let l := if complete l then { l with last := s.clk } else l
            let s := setRing s ring { r with pending := r.pending.map fun y => if same y then l else y }
            let s := park s [.lease]
            if complete l && !geometryOk s ring l then refuseLease s ring l.id 1 else s
        | none =>
          if 16 ≤ (r.pending.filter fun l => l.owner == owner).length then finish s d 5
          else
            let l : Lease := { owner := owner, first := first, size := size, run := run, members := [newMember s], id := s.nextId,
                               next := 0, last := 0, waits := 0 }
            park (setRing { s with nextId := s.nextId + 1 } ring { r with pending := r.pending ++ [l] }) [.lease])

/-- `mcfg` (R332). -/
def execMcfg (d : Reg) (s : State) : Res :=
  let s := expireLeases s
  let ring := ringOfCore s s.cur.1
  let held := myLease s
  let pend := myRequest s
  let sz := fun (l : Lease) => if l.size = 4 then 0 else if l.size = 8 then 1 else 2
  let base := fun (l : Lease) => sz l * 2 ^ 2 + (s.cur.1 - l.first) * 2 ^ 4 + l.first * 2 ^ 8
  let busy := match (ringOf s ring).lease with
    | some l => 2 ^ 32 + b2n (l.owner == curOwner s) * 2 ^ 33
    | none => 0
  commit s (parkValue s d (word (busy + match held, pend with
    | some (_, l), _ => 1 + base l + (l.run - ((l.members.find? (isMe s)).map Member.issued).getD 0) * 2 ^ 21
    | none, some (_, l) => 2 + base l
    | none, none => 0)))

/-- The oldest complete request of an owner at a ring, in the arbitrations after the clk that completed it (R211, R322). -/
def oldestRequest (s : State) (ring o : Nat) : Option Lease :=
  (ringOf s ring).pending.find? fun l => l.owner == o && complete l && decide (l.last < s.clk)

/-- A request becomes the lease: each member's `mlease` returns (R324). -/
def grantLease (s : State) (ring : Nat) (l : Lease) : State :=
  let r := ringOf s ring
  let s := setRing s ring { r with pending := r.pending.filter (fun x => x.id != l.id), lease := some { l with last := s.clk } }
  l.members.foldl (fun s m =>
    let f := frameOf s m.core m.frame
    if f.act = m.act then setFrame s m.core m.frame { f with lease := some (0, m.core - l.first) } else s) s

/-- Owners with a request that may be granted, ascending. -/
def leaseOwners (s : State) (ring : Nat) : List Nat :=
  ((ringOf s ring).pending.foldl (fun a l => insNat a l.owner) []).filter fun o => (oldestRequest s ring o).isSome

/-- An arbitration passes that grants nothing to the requests that stand oldest among their owner's, or have done so (R322). -/
def ageRequests (s : State) (ring : Nat) : State :=
  let r := ringOf s ring
  let heads := (leaseOwners s ring).filterMap fun o => (oldestRequest s ring o).map Lease.id
  let f := fun (x : Lease) => if heads.contains x.id || x.waits != 0 then { x with waits := x.waits + 1 } else x
  setRing s ring { r with pending := r.pending.map f }

/-- The lease arbitration of this clk (R324): the stream advances whatever the demand; those of earlier clks on which the array was
free and no request stood have drawn too (R213, log 3). -/
def arbitrateLease (s : State) (ring : Nat) : State :=
  let p := pointOf s 0x08 ring
  let missed := missedSlots s 0 (Nat.max p.seen (ringOf s ring).freeSeen)
  let p := { p with draw := skipStream p.draw missed, lastSlot := s.clk + 1, seen := slotsTo s 0 (s.clk + 1) }
  if !railSlot s 0 || decide (s.clk < (ringOf s ring).freeFrom) then setPoint s 0x08 ring p
  else
    let d := drawStream (key0 s) 0x08 ring p.draw
    let p := { p with draw := d.2 }
    let os := leaseOwners s ring
    let win := fun (s : State) (o : Nat) (lent : Bool) => match oldestRequest s ring o with
      | none => s
      | some l => grantLease (bumpCounter (bumpCounter (ageRequests s ring) o 0x08 (waitBin l.waits)) o 0x08 (if lent then 17 else 16)) ring l
    match (assignAt s 0x08 (some ring) (d.1 / 2 ^ 24)).filter os.contains with
    | some o => win (setPoint s 0x08 ring p) o false
    | none =>
      if os.isEmpty then setPoint s 0x08 ring p
      else
        let b := drawStream (key0 s) 0x0A ring p.borrow
        win (setPoint s 0x08 ring { p with borrow := b.2 }) (os.getD (b.1 / 2 ^ 24 % os.length) 0) true

/-- LEASE_IDLE_TIMEOUT (R325): the lease ends, as it does at the next thing that looks at it from then on. -/
def execLeaseIdleTimeout (ring : Nat) (s : State) : Res :=
  commit s (match (ringOf s ring).lease with
    | some l => if l.last + 65536 ≤ s.clk then endLease s ring else s
    | none => s)

/-! ### Issue of the engine commands (R328, R330, R333, R334) -/

/-- A source record of the array: FMT, BKIND and dimensions (R334). -/
def panelOk (t : Tensor) : Bool :=
  (tFmt t == 1 || tFmt t == 2 || tFmt t == 3 || tFmt t == 12) && tKind t == 0 && decide (tDim t 1 ≤ 8) && tDim t 2 == 1 && tDim t 3 == 1
/-- A B tile (R334). -/
def tileOk (t : Tensor) : Bool :=
  (tFmt t == 1 || tFmt t == 2 || tFmt t == 3 || tFmt t == 12) && decide (tKind t ≤ 1) && decide (tDim t 0 ≤ 64) && decide (tDim t 1 ≤ 64)
    && tDim t 2 == 1 && tDim t 3 == 1
/-- An output (R334). -/
def outputOk (t : Tensor) : Bool :=
  (tFmt t == 1 || tFmt t == 2 || tFmt t == 3) && decide (tKind t ≤ 1) && decide (tDim t 0 ≤ 64) && decide (tDim t 1 ≤ 8)
    && tDim t 2 == 1 && tDim t 3 == 1

/-- A member has an `mlda` under the lease, over or issued (R328). -/
def hasPanel (s : State) (l : Lease) (m : Member) : Bool :=
  m.panel.isSome || s.cmds.any fun c => c.ctx == curCtx s && c.frame == m.frame && (match c.kind with
    | .car 3 _ _ _ _ _ _ id => id == l.id
    | _ => false)

/-- A part of a group command is issued (R326, R328): operation 3 `mlda`, 4 `mldb`, 5 `mstep`, 6 `mrot`, 7 `mdrain`, 8
`mzero`, 1 `mrel`. -/
def carOp (op : Nat) (d a : Reg) (s : State) : Res :=
  let s := expireLeases s
  let x := rd s a
  let k := curCtx s
  let src := op == 3 || op == 4
  let sub := bits x 27 24
  let ill := (op != 7 && bits x 7 0 != 0) || (!src && bits x 15 8 != 0) || bits x 23 16 != 0 || bits x 31 28 != 0
    || (if op = 5 ∨ op = 7 then decide (1 < sub) else sub != 0) || (if op = 4 then decide (2 ^ 10 ≤ bits x 63 32) else bits x 63 32 != 0)
  let t := if src then tensorAt s k (bits x 15 8) else if op = 7 then tensorAt s k (bits x 7 0) else none
  let scale := t.bind fun t => if tScaled t then tensorAt s k (tScaleId t) else none
  let named := src || op == 7
  let recOk := !named || (match t with
    | some t => (if op = 3 then panelOk t else if op = 4 then tileOk t else outputOk t)
        && (tKind t != 0 || decide (tBase t + tSpan t < localSize s s.cur.1 (curOwner s)))
        && (!src || !tScaled t || scaleOk t scale)
    | none => false)
  commit s (if ill then illOperand s
    else match myLease s with
      | none => engineTrap s
      | some (ring, l) => match l.members.find? (isMe s) with
        | none => engineTrap s
        | some m =>
          if l.run ≤ m.issued || !recOk || (op == 5 && !hasPanel s l m) then engineTrap s
          else if 16 ≤ openCount s k 1 then park s [.cmdRoom 1 16]
          else
            let l := { l with members := l.members.map fun y => if isMe s y then { y with issued := y.issued + 1 } else y }
            let s := setRing s ring { ringOf s ring with lease := some l }
            let r := issueCmd s 1 (.car op m.issued x t scale (ctxOf s k).dec ring l.id)
            finish (clearWait r.2) d (word r.1))

/-- `mrel` (R333). -/
def execMrel (d a : Reg) (s : State) : Res := carOp 1 d a s
/-- `mlda` (R333). -/
def execMlda (d a : Reg) (s : State) : Res := carOp 3 d a s
/-- `mldb` (R333). -/
def execMldb (d a : Reg) (s : State) : Res := carOp 4 d a s
/-- `mstep` (R334). -/
def execMstep (d a : Reg) (s : State) : Res := carOp 5 d a s
/-- `mrot` (R333). -/
def execMrot (d a : Reg) (s : State) : Res := carOp 6 d a s
/-- `mdrain` (R335). -/
def execMdrain (d a : Reg) (s : State) : Res := carOp 7 d a s
/-- `mzero` (R333). -/
def execMzero (d a : Reg) (s : State) : Res := carOp 8 d a s

/-! ### Parts (R333-R335) -/

/-- A part: its command, operation, fields, record with scale, and decode table. -/
structure Part where
  cmd   : Cmd
  op    : Nat
  a     : Word
  t     : Option Tensor
  scale : Option Tensor
  dec   : NMap (BitVec 19)

/-- The part of a member in group command k of a lease (R326). -/
def partFor (s : State) (lease k : Nat) (m : Member) : Option Part :=
  s.cmds.findSome? fun c => match c.kind with
    | .car op idx a t scale dec _ id =>
      if id == lease && idx == k && !c.finished && ctxCore c.ctx == m.core && c.frame == m.frame then
        some { cmd := c, op := op, a := a, t := t, scale := scale, dec := dec }
      else none
    | _ => none

/-- Every member's part, in member order; none while one is missing. -/
def partsFor (s : State) (lease k : Nat) : List Member → Option (List (Member × Part))
  | [] => some []
  | m :: r => match partFor s lease k m, partsFor s lease k r with
    | some p, some ps => some ((m, p) :: ps)
    | _, _ => none

/-- The slot that a scale record in a channel is read from: the handle's, which takes none; the manual gives a channel no other
meaning here (DESIGN CHOICE, log 77). -/
def scaleSlot (s : State) (c : Cmd) (scale : Option Tensor) : List (Nat × Nat × Nat) :=
  match scale with
  | some u => if tKind u = 2 then
      (match NMap.find (frameOf s (ctxCore c.ctx) c.frame).handles (tBase u % 16) with
      | some h => [(4, h.hdr, h.cursor)]
      | none => [])
    else []
  | none => []

/-- Reads an element of a record at two indices, with its scale (R107, R108). -/
def matElem (s : State) (p : Part) (t : Tensor) (scale : Option Tensor) (i0 i1 seed : Nat) : ERes EVal :=
  elemVal s p.cmd.ctx p.cmd.id 0 1 0 1 p.dec t scale (scaleSlot s p.cmd scale) (i0 + tDim t 0 * i1) seed

/-- Aval for one row of a step, k from 0 to 63: value and poison (R334). -/
def rowOf (s : State) (p : Part) (t : Tensor) (scale : Option Tensor) (j m : Nat) : ERes (List (FVal × Bool)) :=
  allOk ((upto 64).map fun i =>
    if tDim t 0 ≤ 64 * j + i then .ok (.fin false 0 0, false)
    else (matElem s p t scale (64 * j + i) m (64 * (i + 64 * m))).andThen fun x => .ok (x.v, x.bad))

/-- Bval of a latch: value and poison (R334). -/
def latchAt (l : Latch) (k n : Nat) : FVal × Bool :=
  if l.d0 ≤ k ∨ l.d1 ≤ n then (.fin false 0 0, false) else (l.vals.getD (k + l.d0 * n) (.fin false 0 0), l.bad.contains (k + l.d0 * n))

/-- The exact sum of one output of a step, added to the accumulator with one rounding (R116, R334). -/
def cellStep (acc : Nat) (row : List (FVal × Bool)) (l : Latch) (n : Nat) : Nat × Bool :=
  let ps := (upto 64).map fun k =>
    let a := row.getD k (.fin false 0 0, false)
    let b := latchAt l k n
    ((mulV a.1 b.1).1, a.2 || b.2)
  let sum := ps.foldl (fun v p => (addV 0 v p.1).1) (.fin false 0 0)
  ((roundTo fmtF32 0 (addV 0 (unpack fmtF32 acc) sum).1).1, ps.any Prod.snd)

/-- One row of a member's accumulators after a step. -/
def rowStep (m : Member) (i : Nat) (row : List (FVal × Bool)) (l : Latch) : Member :=
  (upto 64).foldl (fun m n =>
    let c := i * 64 + n
    let r := cellStep (NMap.get m.acc c 0).toNat row l n
    { m with acc := NMap.put m.acc c (BitVec.ofNat 32 r.1), bad := if r.2 then insNat m.bad c else m.bad }) m

/-- STEP of one member (R334): its accumulators, or the fault it stops on. -/
def stepMember (s : State) (m : Member) (p : Part) : ERes Member :=
  match m.latch, m.panel with
  | some l, some t =>
    (upto m.mr).foldl (fun (r : ERes Member) i => r.andThen fun m =>
      (rowOf s p t m.pscale l.j i).andThen fun row => .ok (rowStep m i row l)) (.ok m)
  | _, _ => .ok m

/-- The tile that `mldb` loads (R333). -/
def loadTile (s : State) (p : Part) (t : Tensor) : ERes Latch :=
  (allOk ((upto (tCount t)).map fun e => matElem s p t p.scale (e % tDim t 0) (e / tDim t 0) (64 * e))).andThen fun xs =>
    .ok { j := bits p.a 41 32, d0 := tDim t 0, d1 := tDim t 1, vals := xs.map EVal.v,
          bad := (upto xs.length).filter fun i => match xs[i]? with
            | some x => x.bad
            | none => false }

/-- The bytes that `mdrain` writes, element by element in linear order (R335). -/
def drainElems (s : State) (m : Member) (p : Part) (t : Tensor) : List (ERes (List (ELoc × Byte × Bool))) :=
  (upto (tCount t)).map fun e =>
    let c := e / tDim t 0 * 64 + e % tDim t 0
    let v := (NMap.get m.acc c 0).toNat
    let v := if tFmt t = 1 then v else (roundTo (fmtOfElem (tFmt t)) 0 (unpack fmtF32 v)).1
    elemCells s p.cmd.ctx p.cmd.id 0 0 0 1 t [] e v (m.bad.contains c)

/-- What stops a drain: the cause and address, and the block that refused. -/
structure DrainStop where
  cause : Nat
  va    : Word
  cap   : Option Nat

/-- The bytes of a drain beat by beat, up to the first that faults or is refused (R304, R310, R335). -/
def drainBeats (s : State) (p : Cmd) (lanes : Nat) : Nat → List (ERes (List (ELoc × Byte × Bool))) → List (ELoc × Byte × Bool) →
    List (ELoc × Byte × Bool) × Option DrainStop
  | 0, _, out => (out, none)
  | n + 1, l, out =>
    if l.isEmpty then (out, none)
    else match joinCells (l.take lanes) with
      | .wait _ => (out, none)
      | .fault c va => (out, some { cause := c, va := va, cap := none })
      | .ok cs => match refusedAt s p.ctx (cs.map Prod.fst), lostTo s p (cs.map Prod.fst) with
        | some a, _ => (out, some { cause := 0x07, va := a.2, cap := some a.1 })
        | none, some va => (out, some { cause := 0x09, va := va, cap := none })
        | none, none => drainBeats s p lanes n (l.drop lanes) (out ++ cs)

/-- The beats of a part's drain. -/
def drainOf (s : State) (m : Member) (p : Part) (t : Tensor) : List (ELoc × Byte × Bool) × Option DrainStop :=
  drainBeats s p.cmd (vLanes (tFmt t)) (tCount t) (drainElems s m p t) []

/-- The places of the bytes of an element that a part reads, with those of its scale (R108). -/
def elemReads (s : State) (p : Part) (t : Tensor) (scale : Option Tensor) (e : Nat) : List ELoc :=
  let bytes := fun (role : Nat) (t : Tensor) (taken : List (Nat × Nat × Nat)) (e : Nat) =>
    (upto (elemBytes (tFmt t))).filterMap fun i => match elemPlace s p.cmd.ctx p.cmd.id 0 role 0 1 t taken e i false with
      | .ok l => some l
      | _ => none
  bytes 1 t [] e ++ (match scale with
    | some u => if tScaled t then bytes 4 u (scaleSlot s p.cmd scale) (scaleIndex t u e) else []
    | none => [])

/-- The places that a part of a member reads, in the order of its reads (R333, R334). -/
def partReads (s : State) (m : Member) (p : Part) : List ELoc :=
  match p.op, p.t with
  | 4, some t => (upto (tCount t)).flatMap (elemReads s p t p.scale)
  | 5, _ => (match m.latch, m.panel with
    | some l, some t => (upto m.mr).flatMap fun i => (upto 64).flatMap fun k =>
        if tDim t 0 ≤ 64 * l.j + k then [] else elemReads s p t m.pscale (64 * l.j + k + tDim t 0 * i)
    | _, _ => [])
  | _, _ => []

/-- The places that a part of a member writes. -/
def partWrites (s : State) (m : Member) (p : Part) : List ELoc :=
  match p.op, p.t with
  | 7, some t => (drainOf s m p t).1.map Prod.fst
  | _, _ => []

/-- What a part comes to before it runs: a wait where something that it reads or writes has to be waited for (R158, R374). -/
def partOpen (s : State) (m : Member) (p : Part) : ERes Unit :=
  let drained := fun (r : ERes (List (ELoc × Byte × Bool))) => match r with
    | .wait w => .wait w
    | _ => .ok ()
  match p.op, p.t with
  | 4, some t => (match loadTile s p t with
    | .wait w => .wait w
    | _ => .ok ())
  | 5, _ => (match stepMember s m p with
    | .wait w => .wait w
    | _ => .ok ())
  | 7, some t => (allOk ((drainElems s m p t).map drained)).andThen fun _ => .ok ()
  | _, _ => .ok ()

/-- A part may run, but for the sectors that it asks for: a drain's pool-coherent lines are held exclusive, and what precedes its writes
has settled (R81, R345). -/
def partReady (s : State) (m : Member) (p : Part) : Bool :=
  let ws := partWrites s m p
  (match partOpen s m p with
    | .ok _ => true
    | _ => false) && linesHeld s ws && mayWrite s (cmdBrings p.cmd) ws

/-- The free values of the n-th part of a group command start here. -/
def partFree (s : State) (n : Nat) : State := { s with free := s.free + 2 ^ 19 * n }

/-- What a part reaches in memory is asked for: the walk of a page that no TLB translates, then the sectors that it reads and writes,
which join the points of their ways (R17, R94, R374). -/
def askPart (s : State) (m : Member) (p : Part) : State :=
  let core := ctxCore p.cmd.ctx
  let ring := ringOfCore s core
  if p.cmd.asked ≠ 0 then s
  else if partReady s m p then
    engineAccess (engineAccess (setCmd s { p.cmd with asked := 1 }) ring p.cmd false (partReads s m p)) ring p.cmd true (partWrites s m p)
  else askWalk s ring core (ctxOwner p.cmd.ctx) p.cmd.id true (partOpen s m p)

/-- A part stops as a vector command does (R310, R335). -/
def stopPart (s : State) (p : Part) (cause : Nat) (va : Word) : State :=
  countError (reportFault s p.cmd.ctx p.cmd.frame cause va p.cmd.pc) p.cmd.lin

/-- One member's part (R333-R335): the member after it. -/
def runPart (s : State) (m : Member) (p : Part) : State × Member :=
  let s := engineHome s p.cmd.ctx (partReads s m p)
  match p.op with
  | 3 => (s, { m with panel := p.t, pscale := p.scale, mr := (p.t.map fun t => tDim t 1).getD 0 })
  | 4 => match p.t with
    | none => (s, m)
    | some t => match loadTile s p t with
      | .ok l => (s, { m with latch := some l })
      | .fault c va => (stopPart s p c va, { m with latch := none })
      | .wait _ => (s, m)
  | 5 => match stepMember s m p with
    | .ok m => (s, m)
    | .fault c va => (stopPart s p c va, m)
    | .wait _ => (s, m)
  | 7 => match p.t with
    | none => (s, m)
    | some t =>
      let w := drainOf s m p t
      let r := engineStore s p.cmd (cmdBrings p.cmd) w.1
      let s := setCmd r.1 { p.cmd with writes := p.cmd.writes ++ r.2 }
      match w.2 with
      | none => (s, if bits p.a 27 24 = 1 then { m with acc := [], bad := [] } else m)
      | some x => (stopPart (match x.cap with | some a => countCapDrop s a | none => s) p x.cause x.va, m)
  | 8 => (s, { m with acc := [], bad := [] })
  | _ => (s, m)

/-- Every latch passes to the next member (R334). -/
def rotateLatches (ms : List Member) (first size : Nat) : List Member :=
  ms.map fun m =>
    let from_ := first + (m.core - first + size - 1) % size
    { m with latch := (ms.find? fun x => x.core == from_).bind Member.latch }

/-- A group command runs on all members (R326-R329, R333, R334); after the last of the run, or `mrel`, no other starts, and the
lease ends as it completes (R325). -/
def runGroup (s : State) (ring : Nat) (l : Lease) (ps : List (Member × Part)) : State :=
  let ops := ps.map fun x => (x.2.op, if x.2.op = 5 then bits x.2.a 27 24 else 0)
  match ops with
  | [] => s
  | o :: r =>
    if r.any fun x => x != o then endLease s ring
    else
      let s := ps.foldl (fun s x => charge s (ctxOwner x.2.cmd.ctx) (if o.1 = 5 then 500 else 8)) s
      let x := ps.foldl (fun (x : State × List Member) y =>
        let z := runPart { x.1 with free := s.free + 2 ^ 19 * x.2.length } y.1 y.2
        (z.1, x.2 ++ [z.2])) (s, [])
      let ms := if (o.1 = 5 ∧ o.2 = 0) ∨ o.1 = 6 then rotateLatches x.2 l.first l.size else x.2
      let ids := ps.map fun y => y.2.cmd.id
      let s := ids.foldl dropWalked { x.1 with free := s.free + 2 ^ 19 * ps.length }
      let s := { s with cmds := s.cmds.map fun c => if ids.contains c.id then { c with finished := true } else c }
      let s := setRing s ring { ringOf s ring with lease := some { l with members := ms, next := if o.1 = 1 then l.run else l.next + 1, last := s.clk, newest := l.next } }
      s

/-- GROUP_COMMAND_START (R326): what the parts need in memory is asked for; they run once every part is issued and may read, with its
sectors granted. -/
def execGroupCommandStart (ring : Nat) (s0 : State) : Res :=
  let s := expireLeases s0
  commit s0 (match (ringOf s ring).lease with
    | none => s
    | some l => match partsFor s l.id l.next l.members with
      | none => s
      | some ps =>
        let n := fun (i : Nat) => partFree s i
        let open_ := ps.all fun x => cmdFree s x.2.cmd
        if railSlot s 0 && open_ && ((upto ps.length).all fun i => (ps[i]?).all fun x => partReady (n i) x.1 x.2)
            && (ps.all fun x => x.2.cmd.asked != 0 && !standsAt s x.2.cmd.id) then
          runGroup s ring l ps
        else if open_ then ps.foldl (fun s x => askPart s x.1 x.2) s
        else s)

end Sys2Proof.Machine
end

