-- ==== Sys2Proof/Machine/Cache.lean ====
section
/-! DEFINITION. Home slices, L1 fills and drops, the reseed sweep, cache maintenance and fences (R88, R229-R261). -/

namespace Sys2Proof.Machine

open Sys2Proof

/-! ### Fills (R82, R237, R246-R248) -/

/-- The translation of an owner's page that a TLB holds for a physical address. -/
def pageOf (s : State) (owner pa : Nat) : Option Xlat :=
  let hit := fun (l : List Xlat) => l.find? fun x => x.owner == owner && decide (x.pa ≤ pa) && decide (pa < x.pa + x.size)
  match s.cores.findSome? fun p => hit p.2.tlb with
  | some x => some x
  | none => s.rings.findSome? fun p => hit p.2.tlb

/-- Id, treatment and sharing key of the accesses of an owner to a sector that are on their way: reads, store entries,
requests (R237, R248). -/
def accessesTo (s : State) (owner pa : Nat) : List (Nat × Nat × Option Nat) :=
  let here := fun (t : Tgt) => match t with | .pa a => a / 64 == pa / 64 | .loc _ _ => false
  (s.reads.filterMap fun r => if ctxOwner r.ctx = owner ∧ here r.tgt = true then some (r.id, r.treat, r.share) else none)
    ++ (s.ctxs.flatMap fun p => if ctxOwner p.1 ≠ owner then [] else p.2.queue.filterMap fun e => match e.body with
        | .write w t _ treat => if here t then some (w, treat, e.share) else none
        | _ => none)
    ++ s.reqs.filterMap fun q => if ctxOwner q.ctx ≠ owner then none else match reqTarget q with
        | some (t, _) => if here t then some (q.id, q.treat, q.share) else none
        | none => none

/-- SECTOR_FILL (R237): the home slice fills the sector in its line's way again for an access of the owner that has crossed the points
of its way, whose grants took the way and filled the sector first (R241, R399; DESIGN CHOICE, log 56). -/
def execSectorFill (owner pa : Nat) (s : State) : Res :=
  commit s (match (accessesTo s owner pa).find? fun a => !standsAt s a.1 with
    | some (_, treat, _) =>
      if railSlot s 2 && sliceServes s pa treat && !sectorPresent s pa && (findWay s (homeRing s pa) (pa / 256)).isSome then
        fillSector (charge s owner (if isPool pa then 20 else 10)) pa
      else s
    | none => s)

/-- SWEEP_MOVE (R247). -/
def execSweepMove (owner ring set way : Nat) (s : State) : Res :=
  commit s (match NMap.find (ringOf s ring).ways (set * 16 + way) with
    | some w => if railSlot s 2 && oldLine s owner w then moveLine s owner ring (set * 16 + way) else s
    | none => s)

/-- SWEEP_END (R247): once no tag of the owner carries the old bit. -/
def execSweepEnd (owner : Nat) (s : State) : Res :=
  commit s (if (ownerOf s owner).sweep && !(s.rings.any fun p => p.2.ways.any fun w => oldLine s owner w.2) then
      setOwner s owner { ownerOf s owner with sweep := false, oldKey := 0 }
    else s)

/-- An owner's sweep is over: every old-epoch line has moved (R247). -/
def sweepOver (s : State) (owner : Nat) : State :=
  let s := s.rings.foldl (fun s r => r.2.ways.foldl (fun s w => match NMap.find (ringOf s r.1).ways w.1 with
    | some x => if oldLine s owner x then moveLine s owner r.1 w.1 else s
    | none => s) s) s
  setOwner s owner { ownerOf s owner with sweep := false, oldKey := 0 }

/-- A sweep whose 65,536 clk are up. -/
def sweepDue (s : State) (o : Nat × Owner) : Bool := o.2.sweep && decide (o.2.sweepBy ≤ s.clk)

/-! ### L1 fills, probes and drops (R82, R232-R236, R248-R254) -/

/-- An access is for the line of a core's L1 that holds an address for an owner. -/
def sameLine (s : State) (core owner pa core' a : Nat) : Bool := a / 64 == pa / 64 && l1Core s core' owner a == l1Core s core owner pa

/-- The prefetch of an owner that has crossed the points of its way to a line (R259). -/
def prefetchFor (s : State) (core owner pa : Nat) : Option Prefetch :=
  s.prefetches.find? fun p => p.owner == owner && sameLine s core owner pa p.core p.pa && !standsAt s p.id

/-- The weak load of an owner that misses a line. -/
def missFor (s : State) (core owner pa : Nat) : Option Read :=
  s.reads.find? fun r => ctxOwner r.ctx == owner && r.mode == 0 && (tgtPa r.tgt).any fun a => sameLine s core owner pa (ctxCore r.ctx) a

/-- A prefetch makes its fill, or is discarded without trace where the sector is poisoned or lost by then (R259). -/
def fillPrefetch (s : State) (p : Prefetch) (choice : List (Nat × Nat)) : State :=
  let s := { s with prefetches := s.prefetches.filter fun x => x.id != p.id }
  if ((locsFrom (p.pa / 64 * 64) 64).any fun l => poisoned s l) || lostAt s p.pa then s
  else fillL1 s p.core p.owner p.pa p.treat p.write choice

/-- FILL (R82): for a prefetch, or for a weak load of the owner on the core that misses, through its page; else a fill that no access
asks for, through a page a TLB holds. -/
def execFill (core owner pa : Nat) (choice : List (Nat × Nat)) (s : State) : Res :=
  commit s (if !railSlot s 2 then s
    else match prefetchFor s core owner pa, missFor s core owner pa, pageOf s owner pa with
    | some p, _, _ => fillPrefetch s p choice
    | none, some r, _ => fillL1 s core owner pa r.treat false choice
    | none, none, some x => fillL1 s core owner pa x.treat false choice
    | none, none, none => s)

/-- An L1 copy that no record of its home slice names, which may be dropped at any time (R82, R90). -/
def unrecorded (s : State) (core : Nat) (l : L1Line) : Bool :=
  match recordOf s l with
  | some (_, _, w) => !(exactOf w (l.pa / 64 % 4)).contains (l.pa / 64 % 4, core, l.owner) && !isCoarse w (l.pa / 64 % 4)
  | none => true

/-- PROBE (R82, R90, R250, R251): the home slice probes what its record of the line names for the owner, none for ANY, M data
first; where it records nothing for that owner, copies of it that no record names, self-invalidating ones among them, are dropped,
written back first (Drop, R252). -/
def execProbe (pa : Nat) (owner : Option Nat) (s : State) : Res :=
  let ring := homeRing s pa
  let line := pa / 256
  let named := fun (o : Option Nat) => o == owner
  commit s (if !railSlot s 2 then s else match (findWay s ring line).filter fun p =>
      (p.2.exact.any fun x => named (some x.2.2)) || p.2.coarse.any fun x => named x.2.2 with
    | some (i, w) =>
      let ex := w.exact.filter fun x => named (some x.2.2)
      let co := w.coarse.filter fun x => named x.2.2
      let s := sendProbes s line (probeTargets s ex co)
      (match NMap.find (ringOf s ring).ways i with
      | none => s
      | some w =>
        setWay s ring i (idleSectors { w with exact := w.exact.filter fun x => !ex.contains x,
                                              coarse := w.coarse.filter fun x => !co.contains x }))
    | none => (s.cores.map Prod.fst).foldl (fun s c => leaveL1 s c fun l =>
        l.pa / 256 == line && (owner.all fun o => l.owner == o) && (l.treat == 1 || unrecorded s c l)) s)

/-- LEASE_EXPIRY (R252): a self-invalidating copy past its expiry is written back and dropped; from its expiry on it serves
nothing. -/
def execLeaseExpiry (core idx : Nat) (s : State) : Res :=
  commit s (match (coreOf s core).l1[idx]? with
    | none => s
    | some l => if l1Live s l then s else leaveL1 s core fun y => y.owner == l.owner && y.pa == l.pa && y.treat == 1)

/-- FUSED_L1_TRANSITION (R235): into or out of the fused state, the owner's copies of the ring written back and dropped. -/
def execFusedL1Transition (owner ring : Nat) (s : State) : Res :=
  let cur := (NMap.find (ringOf s ring).fused owner).isSome
  commit s (if !fusedDue s owner ring then s
    else
      let cs := (s.cores.map Prod.fst).filter fun c => ringOfCore s c == ring
      let s := cs.foldl (fun s c => leaveL1 s c fun l => l.owner == owner) s
      if !cur then
        let d := drawOwner s owner 0x0B ring
        let f : BitVec 32 := BitVec.ofNat 32 d.1 ||| 1
        setRing d.2 ring { ringOf d.2 ring with fused := NMap.put (ringOf d.2 ring).fused owner f,
                                                entering := (ringOf d.2 ring).entering.filter fun o => o != owner }
      else setRing s ring { ringOf s ring with fused := NMap.del (ringOf s ring).fused owner,
                                               leaving := (ringOf s ring).leaving.filter fun o => o != owner })

/-- MEMORY_ECC_ERROR (R160, R256): a location is a local byte, a physical address, or 2^70 + core × 2^9 + set × 2^3 +
way for an L1 line; a corrected error is counted, any other poisons. -/
def execMemoryEccError (loc : Nat) (uncorrectable : Bool) (s : State) : Res :=
  commit s (if 2 ^ 70 ≤ loc then
      let core := (loc - 2 ^ 70) / 2 ^ 9
      let c := coreOf s core
      if uncorrectable then
        let f := fun (l : L1Line) => if l.pa / 64 % 64 * 8 + l.way = loc % 2 ^ 9 then { l with poison := true } else l
        setCore s core { c with l1 := c.l1.map f }
      else setCore s core { c with eccCount := c.eccCount + 1 }
    else if isLocal loc then
      let core := (loc - 2 ^ 60) / 0x10000 / 8
      if uncorrectable then { s with poison := insNat s.poison (poisonUnit loc) }
      else setCore s core { coreOf s core with eccCount := (coreOf s core).eccCount + 1 }
    else if isDram loc || isPool loc then
      let ring := homeRing s loc
      if uncorrectable then { s with poison := insNat s.poison (poisonUnit loc) }
      else setRing s ring { ringOf s ring with eccCount := (ringOf s ring).eccCount + 1 }
    else s)

/-! ### Cache maintenance (R257-R260) -/

/-- The pages of a range from an address: where each part lies, with its length. `ok` says which pages the instruction may
reach, `loc` whether local memory; else PROT. -/
def rangeParts (s : State) (acc hi : Nat) (ok : Nat → Xlat → Bool) (loc : Bool) : Nat → Nat → List (Nat × Nat × Where)
  | 0, _ => []
  | g + 1, va =>
    if hi ≤ va then []
    else
      let w := if 2 ^ 56 ≤ va then .fault 0x06 else match whereCur s (word va) acc ok with
        | .loc c o => if loc then .loc c o else .fault 0x06
        | w => w
      let next := match w with
        | .mem _ x => Nat.max (x.page + x.size) (va + 1)
        | _ => (va / 4096 + 1) * 4096
      let stop := Nat.min next hi
      (va, stop - va, w) :: rangeParts s acc hi ok loc g stop

/-- Goes on with every part of a range translated; else walks, or the first failure in the order of R72 (R258). -/
def withRange (s : State) (a len acc : Nat) (k : List (Nat × Nat × Where) → State)
    (ok : Nat → Xlat → Bool := fun _ _ => true) (loc : Bool := true) : State :=
  let ps := rangeParts s acc (a + len) ok loc (len / 4096 + 2) a
  match ps.find? fun p => p.2.2 == .miss with
  | some p => startWalk s (word p.1) acc
  | none =>
    match [0x05, 0x06, 0x09].findSome? fun c => (ps.find? fun p => p.2.2 == .fault c).map fun p => (c, p.1) with
    | some (c, va) => whereTrap s c (word va)
    | none => k ps

/-- Locations of the range's sectors: bases and lengths of its parts, widened to 64-byte sectors (R257). -/
def rangeSegs (s : State) (ps : List (Nat × Nat × Where)) : List (Nat × Nat) :=
  ps.map fun p =>
    let b := tgtBase s (curOwner s) (whereTgt p.2.2)
    (b / 64 * 64, (b + p.2.1 + 63) / 64 * 64 - b / 64 * 64)

/-- A location lies in the range. -/
def inSegs (segs : List (Nat × Nat)) (a : Nat) : Bool := segs.any fun p => decide (p.1 ≤ a) && decide (a < p.1 + p.2)

/-- What `wb` and `flush` wait for (R258): entries of the queue in the range, and publication of pool-coherent writes. -/
def rangeWaits (s : State) (segs : List (Nat × Nat)) : List Nat × List Nat :=
  let k := curCtx s
  (((ctxOf s k).queue.filter fun e => (entryLocs s (ctxOwner k) e).any (inSegs segs)).map QEntry.id,
   (unpublished s k).filter fun w => (wrec s w).bytes.any fun p => inSegs segs p.1)

/-- What is dirty in the owner's copies of the range is written back, whichever of its contexts wrote it (R258). -/
def cleanRange (s : State) (segs : List (Nat × Nat)) : State :=
  (l1Cores s s.cur.1 (curOwner s)).foldl (fun s c =>
    writeBack s ((coreOf s c).l1.filter fun l => l.owner == curOwner s && inSegs segs l.pa)) s

/-- Copies of the range go (R258), each once its writes have left it. -/
def dropRange (s : State) (segs : List (Nat × Nat)) : State :=
  (l1Cores s s.cur.1 (curOwner s)).foldl (fun s c => leaveL1 s c fun l => l.owner == curOwner s && inSegs segs l.pa) s

/-- A range instruction: its length limit, its pages, then its effect (R257, R258). -/
def rangeOp (a b : Reg) (s : State) (k : List (Nat × Nat) → State) : Res :=
  let len := (rd s b).toNat
  commit s (if len = 0 ∨ 2 ^ 24 < len then illOperand s
    else withRange s (rd s a).toNat len 0 fun ps => k (rangeSegs s ps))

/-- Waits as `wb` does, then goes on. -/
def afterWaits (s : State) (segs : List (Nat × Nat)) (k : State → State) : State :=
  let s := cleanRange s segs
  let w := rangeWaits s segs
  if (curFrame s).granted || (w.1.isEmpty && w.2.isEmpty) then k (clearWait s)
  else park s [.settled w.1 [], .published w.2 false]

/-- `wb` (R258). -/
def execWb (a b : Reg) (s : State) : Res := rangeOp a b s fun segs => afterWaits s segs retire4
/-- `inv` (R258). -/
def execInv (a b : Reg) (s : State) : Res := rangeOp a b s fun segs => retire4 (clearWait (dropRange s segs))
/-- `flush` (R258). -/
def execFlush (a b : Reg) (s : State) : Res := rangeOp a b s fun segs => afterWaits s segs fun s => retire4 (dropRange s segs)
/-- `lrenew` (R258). -/
def execLrenew (a b : Reg) (s : State) : Res := rangeOp a b s fun segs =>
  let o := curOwner s
  let f := fun (l : L1Line) =>
    if l.owner = o ∧ l.treat = 1 ∧ inSegs segs l.pa = true ∧ l1Live s l = true then { l with expiry := s.clk + leaseLen s s.cur.1 o } else l
  retire4 (clearWait ((l1Cores s s.cur.1 o).foldl (fun s c => setCore s c { coreOf s c with l1 := (coreOf s c).l1.map f }) s))

/-- The L1 would gain nothing from a prefetch: it may hold no copy, or holds it as asked (R230, R248, R257). -/
def prefetchIdle (s : State) (core owner pa treat : Nat) (write : Bool) : Bool :=
  !mayCopy s core owner pa treat || (l1Line s core owner pa (treat % 4)).any fun l => !write || treat % 4 == 1 || decide (2 ≤ l.mesi)

/-- A prefetch with its b sets out from a core, its page known: its request joins the points of its way, whose grants fill the home
slice, and FILL makes the L1's copy. A missing permission, a lost region or poison discards it (R257, R259). -/
def startPfch (s : State) (core owner id v : Nat) (w : Where) : State :=
  match w with
  | .mem pa x =>
    let share := whereShare w
    if ((locsFrom (pa / 64 * 64) 64).any fun l => poisoned s l) || (v != 2 && prefetchIdle s core owner pa x.treat (v == 1)) then s
    else
      let p : Prefetch := { id := id, core := core, owner := owner, pa := pa, treat := x.treat, share := share, write := v == 1 }
      requestAccess { s with prefetches := if v = 2 then s.prefetches else s.prefetches ++ [p] } core owner id (.pa pa) x.treat share false false
  | _ => s

/-- `pfch` (R257, R259): a fill without a wait, into the L1 shared or for writing, or into the home slice; one that no TLB translates
waits for its walk (R374), which fails without trace. The manual does not say which permission one for writing needs: here both
(DESIGN CHOICE, log 83). -/
def execPfch (a b : Reg) (s : State) : Res :=
  let v := (rd s b).toNat
  let o := curOwner s
  let core := s.cur.1
  let va := rd s a
  let id := s.nextId
  let acc := if v = 1 then 2 else 0
  commit s (if 3 ≤ v then illOperand s
    else
      let t := { s with nextId := id + 1 }
      match whereIs s core o [] va acc with
      | .miss => retire4 (missWalk t (.pfch v) (ringOfCore s core) core o id va acc)
      | w => retire4 (startPfch t core o id v w))

/-! ### Fences (R85-R89, R97, R98, R261) -/

/-- Kinds of a fence (R88). -/
inductive FKind where
  | all | ld | st | eng
deriving DecidableEq, Repr

/-- Commands of the context that are not done, as 4 × number + class (R88). -/
def openCmds (s : State) (k : Nat) : List Nat := (s.cmds.filter fun c => c.ctx == k).map fun c => 4 * c.num + c.cls

/-- What a fence waits for, as conditions (R88, R97, R230). -/
def fenceConds (s : State) (f : FKind) (sc : Scope) : List Cond :=
  let k := curCtx s
  let lds := if f = .all ∨ f = .ld then (releaseAfter s).2 else []
  let sts := if (f = .all ∨ f = .st) ∧ sc ≠ .core then (releaseAfter s).1 else []
  let wide := sc = .pool ∨ sc = .sys
  let pubs := if wide then unpublished s k else []
  let acks := if sc = .sys then unackedOf s k else []
  let invs := if (f = .all ∨ f = .ld) ∧ wide then s.birq.foldl (fun a p => a ++ p.2.map Inval.id) [] else []
  let cmds := if f = .all then (openCmds s k).filter fun c => decide (c / 4 ≤ (curFrame s).fenceAt.getD (c % 4) 0)
    else if f = .eng then (openCmds s k).filter fun c => (curFrame s).cmds.contains c else []
  (if lds.isEmpty && sts.isEmpty then [] else [.settled sts lds]) ++ (if pubs.isEmpty then [] else [.published pubs true])
    ++ (if acks.isEmpty then [] else [.acked acks]) ++ (if invs.isEmpty then [] else [.applied invs])
    ++ (if cmds.isEmpty then [] else [.cmdsDone cmds])

/-- A fence's scope holds a writer for the issuing context (R86, R87). -/
def scopeHolds (s : State) (sc : Scope) (w : Writer) : Bool :=
  match w with
  | .ctx k => (match sc with
      | .core => k == curCtx s
      | .ring => ringOfCore s (ctxCore k) == ringOfCore s s.cur.1
      | .die => dieOfCore s (ctxCore k) == dieOfCore s s.cur.1
      | _ => true)
  | .hardware => true
  | .host => sc == .sys
  | .outside => sc == .pool || sc == .sys

/-- Numbers that the context has issued to the classes vector, carousel and streamer (R93). -/
def issuedNums (s : State) (k : Nat) : List Nat :=
  [(ctxOf s k).vec.issued, (ctxOf s k).car.issued, (ctxOf s k).str.issued]

/-- What the engine commands waited for bring (R95, R96): those of the context issued before the fence, or the frame's. -/
def learnCmds (s : State) (all : Bool) : State :=
  let c := ctxOf s (curCtx s)
  let pick : Nat → Eng → List Nat := fun cls e =>
    ((e.learn.filter fun p => if all then decide (p.1 ≤ (curFrame s).fenceAt.getD cls 0)
      else (curFrame s).cmds.contains (4 * p.1 + cls)).map Prod.snd).foldl (fun a l => a ++ l) []
  learn s (curCtx s) (pick 0 c.vec ++ pick 1 c.car ++ pick 2 c.str)

/-- A fence completes (R85, R86, R88, R252). -/
def fenceDone (s : State) (f : FKind) (sc : Scope) : State :=
  let k := curCtx s
  let s := clearWait s
  let s := if f = .all ∨ f = .ld then
      let s := dropSelf s s.cur.1 (curOwner s)
      ((curFrame s).seen.filter fun w => scopeHolds s sc (wrec s w).writer).foldl (fun s w => acquireTag s k w) s
    else s
  let s := if f = .all then learnCmds s true else if f = .eng then learnCmds s false else s
  let s := if (f = .all ∨ f = .st) ∧ sc ≠ .core then
      setCur s { curFrame s with fence := some { writes := (ctxOf s k).known, scope := sc, core := s.cur.1 } }
    else s
  retire4 s

/-- The fence issues: it notes the commands before it, and at core scope places its marker, which blocks coalescing. R88
does not say when the marker enters the queue: here at the fence's issue (DESIGN CHOICE, log 70). -/
def fenceIssue (s : State) (sc : Scope) : State :=
  let s := setCur s { curFrame s with fenceAt := issuedNums s (curCtx s) }
  if sc = .core then
    pushEntry s (curCtx s) { msgEntry s 0 0 (.leave 0 0) with body := .marker, after := [], reads := [], tag := [] }
  else s

/-- A `fence` (R76, R88, R261): it issues once its marker has room, waits, and completes. -/
def fenceOp (f : FKind) (sc : Scope) (s : State) : Res :=
  let first := (curFrame s).fenceAt.isEmpty
  commit s (if first ∧ sc = .core ∧ segmentRoom s (curCtx s) (curBank s) < 1 then park s [.segment (curBank s)]
    else
      let s := if first then fenceIssue s sc else s
      let cs := fenceConds s f sc
      if (curFrame s).granted || cs.isEmpty then fenceDone s f sc else park s cs)

/-- `fence.all` (R88). -/
def execFenceAll (sc : Scope) (s : State) : Res := fenceOp .all sc s
/-- `fence.ld` (R88). -/
def execFenceLd (sc : Scope) (s : State) : Res := fenceOp .ld sc s
/-- `fence.st` (R88). -/
def execFenceSt (sc : Scope) (s : State) : Res := fenceOp .st sc s
/-- `fence.eng` (R88). -/
def execFenceEng (sc : Scope) (s : State) : Res := fenceOp .eng sc s

end Sys2Proof.Machine
end

