-- ==== Sys2Proof/Machine/Tasks.lean ====
section
/-! DEFINITION. Starts, task records, byte barriers, launch records and deterministic quanta (R136, R179-R204). -/

namespace Sys2Proof.Machine

open Sys2Proof

/-! ### Starts (R136, R179-R182) -/

/-- START_REQUEST_ARRIVAL (R179): in order, and once the request has an entry to go to. -/
def execStartRequestArrival (idx : Nat) (s : State) : Res :=
  commit s (match s.net[idx]? with
    | none => s
    | some m => match m.body with
      | .start st =>
        if inOrder s m && !standsAt s m.id && startRoom s m.core st then arriveStart { s with net := dropAt s.net idx } m st else s
      | _ => s)

/-- The request placed next: the first that has a frame, a non-early one passing early ones (R181). -/
def nextStart (s : State) (core owner : Nat) : List (Nat × Start) → Bool → Nat → Option (Nat × Start × Nat)
  | [], _, _ => none
  | (_, st) :: r, passed, i =>
    if passed && st.lin.early then nextStart s core owner r passed (i + 1)
    else match freeFrame s core owner st.lin.early with
      | some f => some (i, st, f)
      | none => if st.lin.early then nextStart s core owner r true (i + 1) else none

/-- General registers at entry (R136). -/
def entryRegs (region : Nat) (l : List (Nat × Word)) : Vector Word 32 :=
  let z : Vector Word 32 := Vector.replicate 32 0
  (l.foldl (fun (v : Vector Word 32) p => v.set (p.1 % 32) p.2 (Nat.mod_lt _ (by decide))) z).set 28 (word (Config.ownWindow + region))

/-- A request leaves the run queue, or the inbound queue where it waits behind it (R181, R182). -/
def takeStart (s : State) (core owner i : Nat) : State :=
  let k := ctxKey core owner
  let n := (ctxOf s k).runq.length
  if i < n then setCtx s k { ctxOf s k with runq := dropAt (ctxOf s k).runq i }
  else match (startsLeaving s core owner)[i - n]? with
    | some x =>
      let r := ringOfCore s core
      setRing s r { ringOf s r with inbound := dropAt (ringOf s r).inbound x.1 }
    | none => s

/-- ACTIVATION_PLACE (R136, R181, R193): one request goes into a frame, which acquires its tag (R92). Requests that wait
for an entry of the run queue stand behind those in it. -/
def execActivationPlace (core owner : Nat) (s : State) : Res :=
  let k := ctxKey core owner
  commit s (match nextStart s core owner ((ctxOf s k).runq ++ startsLeaving s core owner) false 0 with
    | none => s
    | some (i, st, f) =>
      let c := ctxOf s k
      let s := takeStart s core owner i
      let launch := st.launch.map fun p => (p.1, p.2, (recOf s p.1 p.2).arms)
      let fr : Frame := { st := .active, act := s.nextId, owner := owner, regs := entryRegs c.region st.regs,
                          pc := word st.entry, since := s.clk, wid := st.wid, wfmt := st.wfmt, lin := st.lin, launch := launch,
                          slot := st.slot }
      let s := setFrame { s with nextId := s.nextId + 1 } core f fr
      -- the bank's first activation start clears its CLEAN (R367)
      let bank := NMap.get (coreOf s core).banks (f / 4) {}
      let s := setCore s core { coreOf s core with banks := NMap.put (coreOf s core).banks (f / 4) { bank with clean := false } }
      let s := learn s k st.tag
      let s := match st.launch with
        | some (n, j) => setRec s n j { recOf s n j with started := (recOf s n j).started + 1 }
        | none => s
      match st.slot with
      | some (h, j, true) => consumeSlot s k h j
      | _ => s)

/-! ### Task records (R183-R187) -/

/-- Word i of the record or barrier at a local offset. -/
def localWord (s : State) (core owner off : Nat) : Nat := leValue (rdLocal s core owner off 8)

/-- Tags gathered by a record. -/
def recTag (s : State) (k off : Nat) : List Nat := NMap.get (ctxOf s k).recTags off []
/-- Sets them. -/
def setRecTag (s : State) (k off : Nat) (t : List Nat) : State :=
  setCtx s k { ctxOf s k with recTags := NMap.put (ctxOf s k).recTags off t }

/-- The start request of a firing record (R184): what its words say at this step, and the tags gathered. -/
def recordStart (s : State) (core owner off w0 : Nat) : Nat × Start :=
  let w1 := localWord s core owner (off + 8)
  let lin : Lin := { early := w0 / 2 ^ 35 % 2 == 1,
                     launch := if w0 / 2 ^ 46 % 2 = 1 then some ((ownerOf s owner).iface, w0 / 2 ^ 36 % 2 ^ 10) else none }
  (w1 / 2 ^ 32 % 2 ^ 13,
   { owner := owner, entry := w1 / 4 % 2 ^ 17 * 4,
     regs := [(2, word (localWord s core owner (off + 16))), (3, word (localWord s core owner (off + 24))), (4, word off)],
     lin := lin, tag := recTag s (ctxKey core owner) off, wid := 0, wfmt := 0, launch := none, slot := none })

/-- Word 0 of a record changes in one step; a firing sends its start or sets BADT (R184, R185). `send` says how the
start leaves. -/
def fireWith (s : State) (core owner off w0 : Nat) (send : State → Nat → Start → State) : State :=
  let w0 := w0 / 2 ^ 33 * 2 ^ 33 + 2 ^ 32 + w0 % 2 ^ 32
  let r := recordStart s core owner off w0
  if 6144 ≤ r.1 then hwLocal s core owner off (leBytes (w0 % 2 ^ 47 + 2 ^ 47 + w0 / 2 ^ 48 * 2 ^ 48) 8)
  else send (hwLocal s core owner off (leBytes w0 8)) r.1 r.2

/-- The run-queue message of a record that completes: an entry of the queue of its home bank's context, released as a release
store is (R91), with the tag of R184. The manual gives it no segment room to wait for (DESIGN CHOICE, log 86). -/
def sendStart (home off : Nat) (s : State) (core : Nat) (st : Start) : State :=
  pushEntry s home { id := s.nextId, frame := 0, act := 0, bank := ((banksOf s (ctxCore home) (ctxOwner home))[off / Config.bankBytes]?).getD 0,
                     body := .msg core st.owner (.start st), share := none, weak := false, rel := true, held := false, lin := st.lin,
                     after := (ctxOf s home).queue.map QEntry.id, reads := [], pub := [], acked := [], tag := st.tag }

/-- Bits of word 0. -/
def w0Set (w b : Nat) : Nat := Nat.lor w (2 ^ b)

/-- A decrement at the home bank (R187). -/
def applyTdec (s : State) (core owner off amt : Nat) (tag : List Nat) : State :=
  match localLoc s core owner off with
  | none => countDrop s owner
  | some _ =>
    let k := ctxKey core owner
    let w := localWord s core owner off
    let cnt := w % 2 ^ 32
    if w / 2 ^ 32 % 2 = 1 then hwLocal s core owner off (leBytes (w0Set w 33) 8)
    else
      let s := setRecTag s k off (unionNat (recTag s k off) tag)
      if cnt ≤ amt then
        fireWith s core owner off ((if cnt < amt then w0Set w 33 else w) / 2 ^ 32 * 2 ^ 32) (sendStart k off)
      else hwLocal s core owner off (leBytes (w - amt) 8)

/-- An increment at the home bank (R187). -/
def applyTinc (s : State) (core owner off amt : Nat) (tag : List Nat) : State :=
  match localLoc s core owner off with
  | none => countDrop s owner
  | some _ =>
    let k := ctxKey core owner
    let w := localWord s core owner off
    let s := setRecTag s k off (unionNat (recTag s k off) tag)
    let v := w % 2 ^ 32 + amt
    if 2 ^ 32 ≤ v then hwLocal s core owner off (leBytes (w0Set (w / 2 ^ 32 * 2 ^ 32 + (2 ^ 32 - 1)) 34) 8)
    else hwLocal s core owner off (leBytes (w + amt) 8)

/-- TDEC_ARRIVAL (R187). -/
def execTdecArrival (idx : Nat) (s : State) : Res :=
  commit s (arrive idx s (fun b => match b with | .tdec .. => true | _ => false) fun s m =>
    match m.body with
    | .tdec off amt => applyTdec s m.core m.owner off amt m.tag
    | _ => s)
/-- TINC_ARRIVAL (R187). -/
def execTincArrival (idx : Nat) (s : State) : Res :=
  commit s (arrive idx s (fun b => match b with | .tinc .. => true | _ => false) fun s m =>
    match m.body with
    | .tinc off amt => applyTinc s m.core m.owner off amt m.tag
    | _ => s)

/-- A record address for a message, checked in the order of R186. -/
def withLocalRecord (s : State) (va : Word) (k : Nat × Nat → State) : State :=
  if va.toNat % 32 ≠ 0 then alignTrap s va
  else match localTarget s va with
    | none => protTrap s va
    | some t => k t

/-- `tdec` and `tinc` (R186, R187). -/
def countOp (a b : Reg) (body : Nat → Nat → Body) (s : State) : Res :=
  let amt := (rd s b).toNat
  commit s (if 2 ^ 32 ≤ amt ∨ amt = 0 then illOperand s
    else withLocalRecord s (rd s a) fun t => needSegment s 1 fun s => retire4 (post s t.1 (curOwner s) (body t.2 amt)))

/-- `tdec` (R187). -/
def execTdec (a b : Reg) (s : State) : Res := countOp a b .tdec s
/-- `tinc` (R187). -/
def execTinc (a b : Reg) (s : State) : Res := countOp a b .tinc s

/-- A request performed at the own bank once the release condition holds; its answer goes to d (R187, R200). -/
def bankRequest (d : Reg) (kind : ReqKind) (va : Word) (s : State) : State :=
  let id := s.nextId
  parkAnswer (owe (newReq s kind none 2 none true false va) d id none) id

/-- `tinit` (R186, R187): own window only. -/
def execTinit (d a b : Reg) (s : State) : Res :=
  let amt := (rd s b).toNat
  commit s (if 2 ^ 32 ≤ amt then illOperand s
    else if (rd s a).toNat % 32 ≠ 0 then alignTrap s (rd s a)
    else match ownTarget s (rd s a) with
      | none => protTrap s (rd s a)
      | some off => bankRequest d (.tinit off amt) (rd s a) s)

/-- A request that a deterministic lineage holds for the quantum's end (R202). -/
def holdForQuantum (s : State) (k frame act : Nat) (lin : Lin) (e : Option QEntry) (arm : Option Nat) (tag : List Nat) : State :=
  match lin.launch with
  | none => s
  | some (i, n) =>
    { s with nextId := s.nextId + 1,
             held := s.held ++ [{ iface := i, index := n, core := ctxCore k, act := act, seq := s.nextId, ctx := k, frame := frame,
                                  entry := e, state := 0, arm := arm, tag := tag }] }

/-- TINIT_STEP (R187): word 0 is rewritten after the release condition; a count of 0 fires, at the quantum's end under a
deterministic lineage (R202). -/
def execTinitStep (idx : Nat) (s : State) : Res :=
  commit s (match s.reqs[idx]? with
    | none => s
    | some q => match q.kind with
      | .tinit off amt =>
        if !railSlot s 2 || !reqReady s q then s
        else
          let core := ctxCore q.ctx
          let owner := ctxOwner q.ctx
          let old := localWord s core owner off
          let s := setRecTag (dropReq s q.id) q.ctx off q.tag
          let s := answer s core q.frame q.act q.id (word old)
          let (lv, li) := match q.lin.launch with
            | some (_, n) => (1, n)
            | none => (0, 0)
          let w := amt + b2n q.lin.early * 2 ^ 35 + li % 2 ^ 10 * 2 ^ 36 + lv * 2 ^ 46 + old / 2 ^ 48 * 2 ^ 48
          if amt ≠ 0 then hwLocal s core owner off (leBytes w 8)
          else fireWith s core owner off w fun s c st =>
            if detLin s q.lin then
              let e : QEntry := { msgEntry s c owner (.start st) with frame := q.frame, act := q.act, after := [], reads := [], tag := st.tag }
              holdForQuantum s q.ctx q.frame q.act q.lin (some e) none []
            else sendStart q.ctx off s c st
      | _ => s)

/-! ### Byte barriers (R198-R200) -/

/-- An update of a barrier word (R199): the fields wrap; a bound word at zero decrements its record. -/
def updateBarrier (s : State) (core owner off : Nat) (sub : Bool) (arr bytes : Nat) (tag : List Nat) : State :=
  match localLoc s core owner off with
  | none => countDrop s owner
  | some _ =>
    let k := ctxKey core owner
    let w := localWord s core owner off
    let a := if sub then (w / 2 ^ 56 + 2 ^ 8 - arr % 2 ^ 8) % 2 ^ 8 else (w / 2 ^ 56 + arr) % 2 ^ 8
    let b := if sub then (w % 2 ^ 56 + 2 ^ 56 - bytes % 2 ^ 56) % 2 ^ 56 else (w % 2 ^ 56 + bytes) % 2 ^ 56
    let s := hwLocal s core owner off (leBytes (b + a * 2 ^ 56) 8)
    let c := ctxOf s k
    match c.barriers.find? fun x => x.2.1 == off with
    | none => s
    | some x =>
      let t := unionNat x.2.2.2 tag
      let zero := a == 0 && b == 0
      let put := fun (y : Nat × Nat × (Nat × Nat) × List Nat) => if y.2.1 = off then (y.1, y.2.1, y.2.2.1, if zero then [] else t) else y
      let s := setCtx s k { c with barriers := c.barriers.map put }
      if zero then sendTdec s owner x.2.2.1 t else s

/-- BARRIER_UPDATE (R199). -/
def execBarrierUpdate (idx : Nat) (s : State) : Res :=
  commit s (arrive idx s (fun b => match b with | .barrier .. => true | _ => false) fun s m =>
    match m.body with
    | .barrier off sub arr bytes => updateBarrier s m.core m.owner off sub arr bytes m.tag
    | _ => s)

/-- `bbinit` (R200): own window; b is 0 or a record address of R186. -/
def execBbinit (d a b : Reg) (s : State) : Res :=
  let va := rd s a
  commit s (if va.toNat % 8 ≠ 0 then alignTrap s va
    else if rd s b ≠ 0 ∧ (rd s b).toNat % 32 ≠ 0 then alignTrap s (rd s b)
    else match ownTarget s va with
      | none => protTrap s va
      | some off =>
        if rd s b = 0 then bankRequest d (.bbinit off none) va s
        else match localTarget s (rd s b) with
          | none => protTrap s (rd s b)
          | some t => bankRequest d (.bbinit off (some t)) va s)

/-- A bank of the owner whose barrier table has an entry free (R198). -/
def barrierBank (s : State) (k : Nat) : Option Nat :=
  (banksOf s (ctxCore k) (ctxOwner k)).find? fun b => decide (((ctxOf s k).barriers.filter fun x => x.1 == b).length < 8)

/-- BBINIT_STEP (R200). -/
def execBbinitStep (idx : Nat) (s : State) : Res :=
  commit s (match s.reqs[idx]? with
    | none => s
    | some q => match q.kind with
      | .bbinit off task =>
        if !railSlot s 2 || !reqReady s q then s
        else
          let k := q.ctx
          let c := ctxOf s k
          let s := dropReq s q.id
          let done := fun (s : State) (v : Nat) => answer s (ctxCore k) q.frame q.act q.id (word v)
          let clear := fun (s : State) => hwLocal s (ctxCore k) (ctxOwner k) off (leBytes 0 8)
          let rest := c.barriers.filter fun x => x.2.1 != off
          match task, c.barriers.find? (fun x => x.2.1 == off), barrierBank s k with
          | none, _, _ => done (setCtx s k { ctxOf s k with barriers := rest }) 2
          | some t, some x, _ => done (clear (setCtx s k { ctxOf s k with barriers := rest ++ [(x.1, off, t, [])] })) 0
          | some t, none, some b => done (clear (setCtx s k { ctxOf s k with barriers := rest ++ [(b, off, t, [])] })) 0
          | some _, none, none => done s 1
      | _ => s)

/-- `bbexp` and `bbarr` (R200). -/
def barrierOp (sub : Bool) (a b : Reg) (s : State) : Res :=
  let va := rd s a
  commit s (if 2 ^ 56 ≤ (rd s b).toNat then illOperand s
    else if va.toNat % 8 ≠ 0 then alignTrap s va
    else match localTarget s va with
      | none => protTrap s va
      | some t => needSegment s 1 fun s => retire4 (post s t.1 (curOwner s) (.barrier t.2 sub 1 (rd s b).toNat)))

/-- `bbexp` (R200). -/
def execBbexp (a b : Reg) (s : State) : Res := barrierOp false a b s
/-- `bbarr` (R200). -/
def execBbarr (a b : Reg) (s : State) : Res := barrierOp true a b s

/-- `bbq` (R200): a strong load of the barrier word at the bank. -/
def execBbq (d a : Reg) (s : State) : Res :=
  let va := rd s a
  commit s (if va.toNat % 8 ≠ 0 then alignTrap s va
    else match ownTarget s va with
      | none => protTrap s va
      | some off => retire4 (issueRead s (.loc s.cur.1 off) 8 false 1 d va))

/-! ### Launch records (R190-R197) -/

/-- Width of a level of FMT (R55). -/
def fmtWidthOf (f : Word) (j : Nat) : Nat := bits f (7 * j + 6) (7 * j)
/-- LEVELS of FMT. -/
def fmtLevels (f : Word) : Nat := bits f 44 42
/-- Count of a level. -/
def levelCount (r : LRec) (j : Nat) : Nat := (r.counts.getD j 0).toNat
/-- Product of the counted levels' counts below j (R192). -/
def countsBelow (r : LRec) : Nat → Nat
  | 0 => 1
  | n + 1 => countsBelow r n * levelCount r n
/-- P: the activations of an arm (R192). -/
def armSize (r : LRec) : Nat := countsBelow r (fmtLevels r.fmt)
/-- Sum of the widths below j. -/
def widthsBelow (f : Word) : Nat → Nat
  | 0 => 0
  | n + 1 => widthsBelow f n + fmtWidthOf f n
/-- The work identifier of the activation L (R192). -/
def widOf (r : LRec) (l : Nat) : Word :=
  (upto (fmtLevels r.fmt)).foldl (fun w j =>
    w + word (l / countsBelow r j % levelCount r j * 2 ^ widthsBelow r.fmt j)) 0

/-- The record a DONE address names (R195). -/
def doneTarget (d : Word) : Nat × Nat := (d.toNat / 2 ^ 20 % 2 ^ 31, d.toNat % 2 ^ 20)

/-- Completion (R195): Done, and a decrement of the completion record with the tags of the notices and of the arm. -/
def completeRec (s : State) (i n : Nat) : State :=
  let r := recOf s i n
  let s := setRec s i n { r with state := .done }
  if r.done = 0 then s
  else sendMsg s (hwCtx r.owner) 0 0 (doneTarget r.done).1 r.owner (.tdec (doneTarget r.done).2 1) (unionNat r.armTag r.endTag)

/-- QRET of an owner's contexts is 0: a deterministic launch begins its first quantum (R55, R201; DEDUCED, log 68). -/
def clearQret (s : State) (owner : Nat) : State :=
  { s with ctxs := s.ctxs.map fun p => if ctxOwner p.1 = owner then (p.1, { p.2 with qret := 0 }) else p }

/-- One arm of a record (R191): none stands for the LAUNCH trap, else the status. An arm of an unbuilt record traps and leaves it
Unbuilt, as R191's table has it; R71's row of LAUNCH has the record of any such trap become Faulted (DESIGN CHOICE, log 94). -/
def applyArm (s : State) (i n owner : Nat) (tag : List Nat) : State × Option Nat :=
  let r := recOf s i n
  let lv := upto (fmtLevels r.fmt)
  if r.state = .unbuilt then (s, none)
  else if r.state = .running then (s, some 1)
  else if lv.any fun j => decide (2 ^ fmtWidthOf r.fmt j < levelCount r j) then (setRec s i n { r with state := .faulted }, none)
  else if r.det && ((ifaceOf s i).records.any fun p => p.1 != n && p.2.owner == owner && p.2.det && p.2.state == .running) then
    (s, some 3)
  else
    let r := { r with started := 0, ended := 0, errors := 0, arms := (r.arms + 1) % 2 ^ 32, owner := owner, nextL := 0,
                      armTag := tag, endTag := [], quanta := 0, lastReq := s.clk }
    let s := if r.det then clearQret s owner else s
    if lv.any fun j => levelCount r j == 0 then (completeRec (setRec s i n r) i n, some 2)
    else (setRec s i n { r with state := .running }, some 0)

/-- Interface of the issuing owner. -/
def curIface (s : State) : Nat := (ownerOf s (curOwner s)).iface

/-- `larm` (R191, R197, R202): applied once the release condition holds; held under a deterministic lineage. -/
def execLarm (d a : Reg) (s : State) : Res :=
  let x := rd s a
  commit s (if 2 ^ 10 ≤ x.toNat then illOperand s
    else if detLin s (curFrame s).lin && !inHandler s then
      let id := s.nextId
      let wait : QEntry := { msgEntry s 0 0 (.leave 0 0) with body := .marker }
      let s := holdForQuantum s (curCtx s) s.cur.2 (curFrame s).act (curFrame s).lin (some wait) (some x.toNat)
        (ctxOf s (curCtx s)).known
      -- it retires as it issues (R202)
      let s := countRetire (parkAnswer (owe s d id none) id)
      setCur s { curFrame s with retDue := false }
    else
      afterRelease s fun s =>
        let r := applyArm (clearWait s) (curIface s) x.toNat (curOwner s) (ctxOf s (curCtx s)).known
        match r.2 with
        | none => trap r.1 0x0A 0 0
        | some v => parkValue r.1 d (word v))

/-- A DONE value that a record may hold (R197, R386). -/
def doneOk (v : Word) : Bool :=
  v == 0 || (v.toNat % 32 == 0 && decide (Config.remoteWindow ≤ v.toNat) && decide (v.toNat < 2 ^ 56)
    && decide (v.toNat / 2 ^ 20 % 2 ^ 31 < 6144) && decide (v.toNat % 2 ^ 20 < 0x60000))

/-- FIRST and NCORES name cores (R190). -/
def rangeOk (first ncores : Nat) : Bool := decide (1 ≤ ncores) && decide (ncores ≤ 6144) && decide (first + ncores ≤ 6144)

/-- `lpatch` (R197). -/
def execLpatch (d a b : Reg) (s : State) : Res :=
  let x := rd s a
  let v := rd s b
  let f := bits x 19 16
  let n := bits x 9 0
  let i := curIface s
  let r := recOf s i n
  commit s (if bits x 15 10 ≠ 0 ∨ 2 ^ 20 ≤ x.toNat ∨ 10 ≤ f then illOperand s
    else if r.state = .unbuilt then parkValue s d 3
    else if r.state = .running then parkValue s d 1
    else if f = 0 then parkValue (setRec s i n { r with param := v }) d 0
    else if f = 1 then (if doneOk v then parkValue (setRec s i n { r with done := v }) d 0 else parkValue s d 2)
    else if f = 8 then
      (if rangeOk v.toNat r.ncores then parkValue (setRec s i n { r with first := v.toNat }) d 0 else parkValue s d 2)
    else if f = 9 then
      (if rangeOk r.first v.toNat then parkValue (setRec s i n { r with ncores := v.toNat }) d 0 else parkValue s d 2)
    else parkValue (setRec s i n { r with counts := (upto 6).map fun j => if j + 2 = f then v else r.counts.getD j 0 }) d 0)

/-- STATE as it is read (R190). -/
def lstateCode : LState → Nat
  | .unbuilt => 0
  | .idle => 1
  | .running => 2
  | .done => 3
  | .faulted => 4

/-- A word of a launch record (R190). -/
def recWord (r : LRec) (i : Nat) : Word :=
  match i with
  | 0 => word (r.entry + r.policy * 2 ^ 19 + b2n r.det * 2 ^ 21 + b2n r.early * 2 ^ 22 + b2n r.fuse * 2 ^ 23 + lstateCode r.state * 2 ^ 24)
  | 1 => r.fmt
  | 8 => r.param
  | 9 => r.done
  | 10 => word (r.first + r.ncores * 2 ^ 16)
  | 11 => word r.quantum
  | 12 => word r.started
  | 13 => word r.ended
  | 14 => word (r.errors + r.arms * 2 ^ 32)
  | j => if 2 ≤ j ∧ j ≤ 7 then r.counts.getD (j - 2) 0 else 0

/-- `lstat` (R197). -/
def execLstat (d a b : Reg) (s : State) : Res :=
  commit s (if 2 ^ 10 ≤ (rd s a).toNat ∨ 2 ^ 5 ≤ (rd s b).toNat then illOperand s
    else parkValue s d (recWord (recOf s (curIface s) (rd s a).toNat) (rd s b).toNat))

/-- `widf` (R197). -/
def execWidf (d a : Reg) (s : State) : Res :=
  let j := (rd s a).toNat
  let f := (curFrame s).wfmt
  commit s (if 8 ≤ j then illOperand s
    else finish s d (if fmtLevels f ≤ j then 0
      else word ((curFrame s).wid.toNat / 2 ^ widthsBelow f j % 2 ^ fmtWidthOf f j)))

/-- The sender of a record's start requests: to one core they arrive in ascending L (R193). -/
def launchCtx (i n owner : Nat) : Nat := ctxKey (Config.cores + 2 + i * 1024 + n) owner

/-- A running record has a start request to send, and none of its requests finds no room (R192, R193). -/
def launchOpen (s : State) (iface index : Nat) : Bool :=
  let r := recOf s iface index
  let stalled := s.net.any fun m => m.ctx == launchCtx iface index r.owner && (match m.body with
    | .start st => !startRoom s m.core st
    | _ => false)
  r.state == .running && decide (r.nextL < armSize r) && !stalled

/-- The next activation of a record is started (R193). -/
def launchStart (s : State) (iface index : Nat) : State :=
  let r := recOf s iface index
  let l := r.nextL
  let dr := if r.policy = 2 then drawOwner s r.owner 0x0C index else (0, s)
  let s := dr.2
  let k := if r.policy = 0 then l * r.ncores / armSize r else if r.policy = 1 then l % r.ncores else dr.1 * r.ncores / 2 ^ 32
  let st : Start := { owner := r.owner, entry := r.entry, regs := [(2, r.param), (3, word index)],
                      lin := { early := r.early, launch := some (iface, index) }, tag := r.armTag, wid := widOf r l,
                      wfmt := r.fmt, launch := some (iface, index), slot := none }
  let s := setRec s iface index { r with nextL := l + 1, lastReq := s.clk + 1 }
  sendMsg s (launchCtx iface index r.owner) 0 0 (r.first + k) r.owner (.start st) r.armTag

/-- END_NOTICE_SEND (R194): the notice leaves once the entries of the queue at the end have settled. -/
def execEndNoticeSend (idx : Nat) (s : State) : Res :=
  commit s (match s.notices[idx]? with
    | none => s
    | some (m, after) =>
      if (ctxOf s m.ctx).queue.all fun e => !after.contains e.id then
        launch { s with notices := dropAt s.notices idx } m
      else s)

/-- END_NOTICE_ARRIVAL (R194, R195): ENDED rises, and the last notice completes the record. -/
def execEndNoticeArrival (idx : Nat) (s : State) : Res :=
  commit s (match s.net[idx]? with
    | none => s
    | some m => match m.body with
      | .endNotice i n arm =>
        if standsAt s m.id then s
        else
        let s := { s with net := dropAt s.net idx }
        let r := recOf s i n
        if r.state ≠ .running ∨ r.arms ≠ arm then s
        else
          let r := { r with ended := r.ended + 1, endTag := unionNat r.endTag m.tag }
          let s := setRec s i n r
          if r.ended = armSize r then completeRec s i n else s
      | _ => s)

/-! ### Deterministic quanta (R201-R204) -/

/-- `qsync` (R204): retires at issue, and parks until the quantum ends. In the trap handler it does so in the frame's lineage, though
the handler's own requests are outside it (DESIGN CHOICE, log 101). -/
def execQsync (d : Reg) (s : State) : Res :=
  commit s (match (curFrame s).lin.launch with
    | none => finish s d 0
    | some (i, n) =>
      if !(recOf s i n).det then finish s d 0
      else
        let id := s.nextId
        let s := retire4 (owe { s with nextId := id + 1 } d id none)
        setCur s { curFrame s with st := .parked [.quantum i n (recOf s i n).quanta id], since := s.clk, retDue := false })

/-- Frames of a core that hold an activation of a lineage. -/
def lineageFrames (s : State) (c i n : Nat) : List (Nat × Frame) :=
  (coreOf s c).frames.filter fun p => p.2.st != .free && p.2.lin.launch == some (i, n)

/-- The order in which held requests are sent: core, start of the activation, program order (R202). -/
def heldBefore (a b : HeldReq) : Bool :=
  decide (a.core < b.core) || (a.core == b.core && (decide (a.act < b.act) || (a.act == b.act && decide (a.seq < b.seq))))

/-- Insertion in the order of R202. -/
def heldInsert (x : HeldReq) : List HeldReq → List HeldReq
  | [] => [x]
  | y :: r => if heldBefore x y then x :: y :: r else y :: heldInsert x r

/-- The message that a held request becomes. -/
def heldMsg (h : HeldReq) (e : QEntry) : Option Msg :=
  match e.body with
  | .msg c owner b => some { id := e.id, ctx := h.ctx, frame := e.frame, act := e.act, core := c, owner := owner, body := b, tag := e.tag }
  | _ => none

/-- The next request of an ended quantum to be sent for a record: those before it in the serving order have reached their
cores, its release condition holds, and its target can take it (R91, R92, R179, R202). -/
def dueRequest (s : State) (i n : Nat) : Option HeldReq :=
  let mine := s.held.filter fun h => h.iface == i && h.index == n
  if mine.any fun h => onItsWay s h then none
  else match mine.find? fun h => h.state == 1 with
    | none => none
    | some h => match h.entry with
      | some e => if releasable s h.ctx e.after e.reads e.pub e.acked && (heldMsg h e).all (targetRoom s) then some h else none
      | none => some h

/-- One held request is sent, or the arm it stands for is applied (R202). -/
def sendHeld (s : State) (h : HeldReq) : State :=
  let core := ctxCore h.ctx
  let s := { s with held := (s.held.filter fun x => x.state != 2 || onItsWay s x).filterMap fun x =>
    if x.seq ≠ h.seq then some x else if h.arm.isSome then none else some { x with state := 2 } }
  match h.arm, h.entry with
  | none, some e => (match heldMsg h e with
    | some m => launch s m
    | none => s)
  | some n, _ =>
    let owner := ctxOwner h.ctx
    let r := applyArm s (ownerOf s owner).iface n owner h.tag
    match r.2 with
    | some v => answer r.1 core h.frame h.act h.seq (word v)
    | none =>
      let f := frameOf r.1 core h.frame
      if f.act ≠ h.act ∨ f.st = .free then countError r.1 { early := false, launch := some (h.iface, h.index) }
      else
        let s := { r.1 with cur := (core, h.frame) }
        terminate (writeTrapRegs s 0x0A 0 0 (f.pc - 4) owner) core h.frame 0x0A 0 0 (f.pc - 4)
  | none, none => s

/-- The pseudo-context under whose number MESSAGE_DEPART sends what ended quanta of a record left to send (R202). -/
def quantumCtx (iface index : Nat) : Nat := ctxKey (Config.cores + 1) 0 + iface * 1024 + index

/-- MESSAGE_DEPART (R91): a message entry leaves its queue, or the next request of an ended quantum is sent (R202). -/
def execMessageDepart (ctx idx : Nat) (s : State) : Res :=
  let q := quantumCtx 0 0
  commit s (if ctx < q then departEntry s ctx idx
    else match dueRequest s ((ctx - q) / 1024) ((ctx - q) % 1024) with
      | some h => sendHeld s h
      | none => s)

end Sys2Proof.Machine
end

