-- ==== Sys2Proof/Machine/Clock.lean ====
section
/-! DEFINITION. The passing of clks: what every clk brings whether or not an event names it, and the events that take a slot of
their clk (R128, R193, R207, R208, R211-R213, R223, R247, R252, R303, R324, R325). -/

namespace Sys2Proof.Machine

open Sys2Proof

/-! ### One clk after another -/

/-- A point has a slot of this clk to take: a request stands there (R211). -/
def slotDue (s : State) (p : Nat × Point) : Bool :=
  !p.2.queue.isEmpty && decide (p.2.lastSlot ≤ s.clk) && pointExists (p.1 / 8192) (p.1 % 8192)

/-- A ring has an arbitration of this clk to take: the array is free, and a request may be granted (R324). -/
def leaseDue (s : State) (r : Nat × RingSt) : Bool :=
  r.2.lease.isNone && (r.2.pending.any complete) && decide ((pointOf s 0x08 r.1).lastSlot ≤ s.clk)

/-- The slots of this clk that no event has taken are taken (R211, R213, R324). -/
def takeSlots (s : State) : State :=
  let s := ((s.rings.filter (leaseDue s)).map Prod.fst).foldl arbitrateLease s
  ((s.points.filter (slotDue s)).map Prod.fst).foldl (fun s k => arbitrate s (k / 8192) (k % 8192)) s

/-- Self-invalidating copies that expire are written back and dropped (R252). -/
def expireCopies (s : State) : State :=
  ((s.cores.filter fun c => c.2.l1.any fun l => !l1Live s l).map Prod.fst).foldl (fun s c => leaveL1 s c fun l => !l1Live s l) s

/-- The issue streams of hot cores, whose slots depend on whether a target exists, stand at this clk (R128, R207, R395). -/
def settleHot (s : State) : State :=
  ((s.cores.filter fun c => c.2.hot).map Prod.fst).foldl settleIssue s

/-- Sweeps whose bound is reached are over (R247). -/
def endSweeps (s : State) : State := (s.owners.filter (sweepDue s)).foldl (fun s o => sweepOver s o.1) s

/-- What a clk brings as it begins. -/
def beginClk (s : State) : State := settleHot (expireCopies (expireLeases (endSweeps s)))

/-- Nothing but the clk moves while no request stands anywhere; the next clk at which something does, or the last one. -/
def nextClk (s : State) (last : Nat) : Nat :=
  if s.points.any (slotDue s) || s.rings.any (leaseDue s) then s.clk + 1
  else
    let soonest := fun (a x : Nat) => if s.clk < x ∧ x < a then x else a
    let l := s.rings.foldl (fun a r => match r.2.lease with | some l => soonest a (l.last + 65536) | none => a) last
    let l := s.owners.foldl (fun a o => if o.2.sweep then soonest a o.2.sweepBy else a) l
    s.cores.foldl (fun a c => c.2.l1.foldl (fun a x => if x.treat = 1 then soonest a x.expiry else a) a) l

/-- Clks pass up to a clk, each with its slots and what it brings. -/
def passTo (last : Nat) : Nat → State → State
  | 0, s => s
  | n + 1, s =>
    if last ≤ s.clk then s
    else
      let s := takeSlots s
      passTo last n (beginClk { s with clk := nextClk s last })

/-- Some clks pass. -/
def pass (s : State) (n : Nat) : State := passTo (s.clk + n) n s

/-- A core has an issue slot of this clk to take in which a frame would issue: the clk does not pass before it has (R128, R400). -/
def clkHeld (s : State) : Bool := (dueCore s).isSome

/-- A frame of some core could issue, had it a slot. -/
def framesWait (s : State) : Bool := s.cores.any fun c => !(eligibleFrames s c.1).isEmpty

/-- Clks pass up to a clk, while no core has an issue slot to take. -/
def passOpen (last : Nat) : Nat → State → State
  | 0, s => s
  | n + 1, s =>
    if last ≤ s.clk || clkHeld s then s
    else
      let s := takeSlots s
      passOpen last n (beginClk { s with clk := if framesWait s then s.clk + 1 else nextClk s last })

/-- What memory receives between two steps is there. -/
def flushed (s : State) : State := { s with mem := applyWrites s.mem s.wbuf, wbuf := [] }

/-- Some clks pass between two steps, as many as no core's issue slot holds up. -/
def passed (s : State) (n : Nat) : State := flushed (passOpen (s.clk + n) n s)

/-- What takes a slot goes on in this clk, or in the next where this one's has been, once no core's issue slot holds the clk up;
latencies are not counted (DESIGN CHOICE, log 2). -/
def atSlot (s : State) (taken : Bool) (go : State → State) : State :=
  if !taken then go s else if clkHeld s then s else go (pass s 1)

/-! ### Events that take a slot -/

/-- ISSUE_DRAW (R128). -/
def execIssueDraw (core : Nat) (s : State) : Res :=
  commit s (if core < Config.cores then atSlot s ((coreOf s core).lastSlot == s.clk + 1) fun s => issueSlotStep s core else s)

/-- ARBITRATION_SLOT (R211). -/
def execArbitrationSlot (code inst : Nat) (s : State) : Res :=
  commit s (if pointExists code inst then
      atSlot s ((pointOf s code inst).lastSlot == s.clk + 1) fun s => arbitrate s code inst
    else s)

/-- LEASE_ARBITRATION (R324): while the array is free. -/
def execLeaseArbitration (ring : Nat) (s : State) : Res :=
  commit s (if ring < Config.rings then
      atSlot s ((pointOf s 0x08 ring).lastSlot == s.clk + 1) fun t =>
        let t := expireLeases t
        if (ringOf t ring).lease = none then arbitrateLease t ring else s
    else s)

/-- VECTOR_BEAT (R303): what the next beats of a core need in memory is asked for, and one beat of a clk runs. -/
def execVectorBeat (core : Nat) (s : State) : Res :=
  let u := (residents s core).foldl (fun s o => askBeat s core o) s
  commit s (if (beatOwners u core).isEmpty then u
    else atSlot u ((pointOf u 0x0A (physCore u core)).lastSlot == u.clk + 1) fun t =>
      if !railSlot t 1 || (beatOwners t core).isEmpty then u else beatSlot t core)

/-- LAUNCH_START_REQUEST (R192, R193): the next activation of a running record, one in a clk; a request that cannot be
delivered stalls the record. -/
def execLaunchStartRequest (iface index : Nat) (s : State) : Res :=
  commit s (if launchOpen s iface index then
      atSlot s (decide (s.clk < (recOf s iface index).lastReq)) fun s => launchStart s iface index
    else s)

/-! ### The key store (R20, R208, R223) -/

/-- KEY_STORE_STEP (R208, R223): a reseed or a write of KEY, refused while a sweep runs; the step ends its clk, after which the new
key holds everywhere and every stream keyed by it restarts. -/
def execKeyStoreStep (idx : Nat) (s : State) : Res :=
  commit s (match s.reqs[idx]? with
    | none => s
    | some q => match q.kind with
      | .key o k _ =>
        if clkHeld s then s
        else
        let t := pass { s with reqs := s.reqs.filter fun x => x.id != q.id } 1
        if (ownerOf s o).sweep then answer t (ctxCore q.ctx) q.frame q.act q.id 1
        else
          let w := ownerOf t o
          let t := setOwner t o { w with key := k, oldKey := w.key, ebit := !w.ebit, sweep := true, sweepBy := s.clk + 65536 }
          answer (restartStreams t o) (ctxCore q.ctx) q.frame q.act q.id 0
      | _ => s)

end Sys2Proof.Machine
end

