-- ==== Sys2Proof/Machine/Containment.lean ====
section
/-! DEFINITION. The containment tree: nodes, tiles, bumps, roll-up and the instructions of major 0x2E (R350-R363). -/

namespace Sys2Proof.Machine

open Sys2Proof

/-! ### Nodes (R350, R351) -/

/-- A node record. -/
def nodeOf (s : State) (n : Nat) : Node := NMap.get s.nodes n {}
/-- Sets a node record. -/
def setNode (s : State) (n : Nat) (x : Node) : State := { s with nodes := NMap.put s.nodes n x }

/-- A word of a node record (R351). -/
def nodeWord (x : Node) (w : Nat) : Word :=
  match w with
  | 0 => word x.count
  | 1 => word (x.parent + x.owner * 2 ^ 16 + x.depth * 2 ^ 28 + b2n x.live * 2 ^ 32)
  | _ => word (x.children + x.tiles * 2 ^ 16 + x.height * 2 ^ 48)

/-- The physical address of word w of a node record: 64 bytes each in the node store (R351). -/
def nodeLoc (s : State) (n w : Nat) : Nat := s.nodeBase + 64 * n + 8 * w

/-- The node is LIVE and the owner's (R357). -/
def ownNode (s : State) (owner n : Nat) : Bool := n != 0 && (nodeOf s n).live && (nodeOf s n).owner == owner

/-- Live nodes an owner holds. -/
def nodesHeld (s : State) (owner : Nat) : Nat := (s.nodes.filter fun p => p.2.live && p.2.owner == owner).length

/-- The lowest node number that no live node and no unfinished bump's chain holds, none past 65,535 (R350). -/
def freeNode (s : State) : Option Nat :=
  let used := fun (n : Nat) => (nodeOf s n).live || s.bumps.any fun b => b.whole.contains n
  ((upto (s.nodes.length + (s.bumps.map fun b => b.whole.length).sum + 1)).map fun i => i + 1).find? fun n =>
    !used n && decide (n < 65536)

/-- HEIGHT of a node from its live children. -/
def heightOf (s : State) (n : Nat) : Nat :=
  s.nodes.foldl (fun h p => if p.2.live ∧ p.2.parent = n then Nat.max h (p.2.height + 1) else h) 0

/-- HEIGHT is brought up to date along a chain, from its lowest node (R351). -/
def reheight (s : State) (chain : List Nat) : State :=
  chain.foldl (fun s n => setNode s n { nodeOf s n with height := heightOf s n }) s

/-- DEPTH of a node and of its descendants (R351). -/
def redepth : Nat → Nat → Nat → State → State
  | 0, _, _, s => s
  | g + 1, n, d, s =>
    let s := setNode s n { nodeOf s n with depth := d }
    (s.nodes.filter fun p => p.2.live && p.2.parent == n).foldl (fun s p => redepth g p.1 (d + 1) s) s

/-- The bytes of some words of node records, as they are now. -/
def nodeCells (s : State) (ws : List (Nat × Nat)) : List Host.Cell :=
  ws.flatMap fun p => cellsAt (nodeLoc s p.1 p.2) (leBytes (nodeWord (nodeOf s p.1) p.2).toNat 8)

/-- Words that a change of the tree has brought up to date, from the state before it. -/
def nodeChanges (old s : State) : List (Nat × Nat) :=
  s.nodes.flatMap fun p => ([1, 2].filter fun w => nodeWord (nodeOf old p.1) w != nodeWord p.2 w).map fun w => (p.1, w)

/-- A step of the issuing context at the node store (R356): a release on the records it has changed, known to its issuer.
Its writes are those of the node store alone, which bump no tile. -/
def nodeEvent (s : State) (ws : List (Nat × Nat)) : Nat × State :=
  let k := curCtx s
  let tag : Tag := { writes := (ctxOf s k).known, scope := .dev, core := s.cur.1 }
  let cells := nodeCells s ws
  let prior := ((cells.map Prod.fst).foldl (fun a l => insNat a (lastSettled s l)) []).filter fun w => w != 0
  let r := newWrite s k s.cur.2 (curFrame s).act cells (some tag) 0 (curPc s) false
  let w := wrec r.2 r.1
  let known := unionNat w.known (withPreceders r.2 prior)
  let s := settleBytes { r.2 with hist := NMap.put r.2.hist r.1 { w with bytes := cells, known := known } } r.1
  (r.1, learn s k known)

/-- A write of the node store's own, of words of node records (R354): those in device DRAM join the L2 ports of their home slices for the
node's owner, which time them alone (R17, R237; DESIGN CHOICE, log 49). -/
def nodeWrite (s : State) (ws : List (Nat × Nat)) : State :=
  let id := s.nextId
  let owner := match ws with | p :: _ => (nodeOf s p.1).owner | [] => 0
  let at_ := (firstBy (fun a => a / 64) (ws.map fun p => nodeLoc s p.1 p.2)).filter isDram
  let s := requestHome s owner id true (at_.map fun a => { pa := a, treat := 0, share := none })
  let r : WRec := { writer := .hardware, frame := 0, act := 0, bytes := nodeCells s ws, known := s.log, tag := none, pc := 0, va := 0,
                    pool := false, seq := id }
  settleBytes { s with nextId := id + 1, hist := NMap.put s.hist id r } id

/-- The status word of the four instructions that change the tree (R357). -/
def nodeStatus (st low : Nat) : Word := word (st * 2 ^ 56 + low)

/-! ### `cnode`, `cmove` and the deletion of a node (R358-R360) -/

/-- The `cnode` step (R358). -/
def createNode (s : State) (owner p : Nat) : State × Word :=
  if p ≠ 0 ∧ ownNode s owner p = false then (s, nodeStatus 3 0)
  else if p ≠ 0 ∧ (nodeOf s p).depth = 15 then (s, nodeStatus 4 0)
  else if s.nodeBase = 0 ∨ (ownerOf s owner).nodeQuota ≤ nodesHeld s owner then (s, nodeStatus 1 0)
  else match freeNode s with
    | none => (s, nodeStatus 1 0)
    | some n =>
      let s1 := setNode s n { count := 0, parent := p, owner := owner, depth := if p = 0 then 0 else (nodeOf s p).depth + 1,
                              live := true, children := 0, tiles := 0, height := 0 }
      let s1 := if p = 0 then s1 else setNode s1 p { nodeOf s1 p with children := (nodeOf s1 p).children + 1 }
      let s1 := reheight s1 (nodeChain s1 16 p)
      ((nodeEvent s1 ([(n, 0), (n, 1), (n, 2)] ++ (nodeChanges s s1).filter fun q => q.1 != n)).2, nodeStatus 0 n)

/-- `cnode` (R358). -/
def execCnode (d a : Reg) (s : State) : Res :=
  let x := rd s a
  commit s (if bits x 63 16 ≠ 0 then illOperand s
    else afterRelease s fun s =>
      let r := createNode s (curOwner s) x.toNat
      parkValue r.1 d r.2)

/-- A node is deleted (R359): status 5 while it has children or tiles. -/
def deleteNode (s : State) (n : Nat) : State × Word :=
  let x := nodeOf s n
  if x.children ≠ 0 ∨ x.tiles ≠ 0 then (s, nodeStatus 5 0)
  else
    let p := x.parent
    let s1 := setNode s n { x with live := false }
    let chain := nodeChain s1 16 p
    let s1 := if p = 0 then s1 else setNode s1 p { nodeOf s1 p with children := (nodeOf s1 p).children - 1 }
    let s1 := reheight s1 chain
    let e := nodeEvent s1 (nodeChanges s s1)
    (takeBump e.2 chain [e.1], nodeStatus 0 0)

/-- The `cmove` step (R360). -/
def moveNode (s : State) (owner n p : Nat) : State × Word :=
  let x := nodeOf s n
  let depth := if p = 0 then 0 else (nodeOf s p).depth + 1
  if ownNode s owner n = false ∨ (p ≠ 0 ∧ ownNode s owner p = false) then (s, nodeStatus 3 0)
  else if (nodeChain s 16 p).contains n then (s, nodeStatus 6 0)
  else if 15 < depth + x.height then (s, nodeStatus 4 0)
  else if p = x.parent then (s, nodeStatus 0 0)
  else
    let old := x.parent
    let chain := unionNat ((nodeChain s 16 old).foldl insNat []) (nodeChain s 16 p)
    let s1 := setNode s n { x with parent := p }
    let s1 := if old = 0 then s1 else setNode s1 old { nodeOf s1 old with children := (nodeOf s1 old).children - 1 }
    let s1 := if p = 0 then s1 else setNode s1 p { nodeOf s1 p with children := (nodeOf s1 p).children + 1 }
    let s1 := redepth 16 n depth s1
    let s1 := reheight (reheight s1 (nodeChain s1 16 old)) (nodeChain s1 16 p)
    let e := nodeEvent s1 (nodeChanges s s1)
    (takeBump e.2 chain [e.1], nodeStatus 0 0)

/-- `cmove` (R360). -/
def execCmove (d a b : Reg) (s : State) : Res :=
  let x := rd s a
  let y := rd s b
  commit s (if bits x 63 16 ≠ 0 ∨ bits y 63 16 ≠ 0 then illOperand s
    else afterRelease s fun s =>
      let r := moveNode s (curOwner s) x.toNat y.toNat
      parkValue r.1 d r.2)

/-! ### Tiles: `cenr` and `cdrop` (R352, R359) -/

/-- The state as the walk of a tile sees it: a lost region is translated as any other (R359). -/
def blindToLoss (s : State) : State :=
  { s with regions := s.regions.map fun p => (p.1, { p.2 with state := if p.2.state = 2 then 1 else p.2.state }) }

/-- Where the tile of an address lies (R359): PROT for local memory, and for `cenr` in the host and peer windows (R230). -/
def tileWhere (s : State) (va : Word) (enrol : Bool) : Where :=
  match whereCur (blindToLoss s) va 0 (fun pa _ => !(enrol && isWindow pa)) with
  | .loc _ _ => .fault 0x06
  | w => w

/-- Tile entries of a home slice. -/
def tileEntryRoom (s : State) (ring : Nat) : Bool := decide ((ringOf s ring).tiles.length < 32768)

/-- The tile may be enrolled (R352, R359): device DRAM, or treatment-3 pool of a region that is not lost. -/
def tileAllowed (s : State) (t : Nat) (x : Xlat) : Bool :=
  isDram (t * 4096) || (isPool (t * 4096) && x.treat != 2 && !lostAt s (t * 4096))

/-- One tile is enrolled, with TCOUNT 0 (R359). -/
def enrolTile (s : State) (n t : Nat) : State :=
  let s := setRing s (tileRing s t) { ringOf s (tileRing s t) with tiles := NMap.put (ringOf s (tileRing s t)).tiles t (n, 0) }
  setNode s n { nodeOf s n with tiles := (nodeOf s n).tiles + 1 }

/-- One tile is removed (R359). -/
def removeTile (s : State) (n t : Nat) : State :=
  let s := setRing s (tileRing s t) { ringOf s (tileRing s t) with tiles := NMap.del (ringOf s (tileRing s t)).tiles t }
  setNode s n { nodeOf s n with tiles := (nodeOf s n).tiles - 1 }

/-- The status a tile stops `cenr` with, 0 where it does not (R359). -/
def enrolStop (s : State) (n t : Nat) (x : Xlat) : Nat :=
  match tileOf s t with
  | some (m, _) => if m = n then 0 else 2
  | none => if !tileAllowed s t x then 4 else if !tileEntryRoom s (tileRing s t) then 1 else 0

/-- One tile of either instruction: the state, and whether the tile was newly enrolled or removed. -/
def oneTile (drop : Bool) (s : State) (n t : Nat) : State × Nat :=
  match tileOf s t with
  | some (m, _) => if drop && m == n then (removeTile s n t, 1) else (s, 0)
  | none => if drop then (s, 0) else (enrolTile s n t, 1)

/-- What a run of tiles comes to: a walk to wait for, or the state with status, tiles and the failure that ended it. -/
inductive Tiles where
  | walk (va : Word)
  | run (s : State) (status k : Nat) (stop : Option (Nat × Word))

/-- Tiles from an address, one after another in ascending order, each translated as its turn comes (R359). -/
def runTiles (drop : Bool) (n : Nat) : Nat → Word → State → Nat → Tiles
  | 0, _, s, k => .run s 0 k none
  | g + 1, va, s, k =>
    match tileWhere s va (!drop) with
    | .mem pa x =>
      let st := if drop then 0 else enrolStop s n (pa / 4096) x
      if st ≠ 0 then .run s st k none
      else
        let r := oneTile drop s n (pa / 4096)
        runTiles drop n g (va + 4096) r.1 (k + r.2)
    | .fault c => .run s 0 k (some (c, va))
    | _ => .walk va

/-- Both instructions over N tiles (R359): the tiles before a failure stay enrolled or removed, and one bump is taken
where any was; then the failure traps. -/
def tilesOp (drop : Bool) (d : Reg) (n count : Nat) (va : Word) (s : State) : State :=
  afterRelease s fun s =>
    if !ownNode s (curOwner s) n then parkValue s d (nodeStatus 3 0)
    else match runTiles drop n count va s 0 with
      | .walk v => startWalk (setCur s { curFrame s with granted := true }) v 0
      | .run s1 st k stop =>
        let s1 := if k = 0 then s1
          else
            let e := nodeEvent s1 [(n, 2)]
            takeBump e.2 (nodeChain e.2 16 n) [e.1]
        match stop with
        | some (c, v) => whereTrap s1 c v
        | none => parkValue s1 d (nodeStatus st k)

/-- `cenr` (R359). -/
def execCenr (d a b : Reg) (s : State) : Res :=
  let x := rd s a
  commit s (if bits x 31 16 ≠ 0 ∨ bits x 63 48 ≠ 0 ∨ bits x 47 32 = 0 then illOperand s
    else if (rd s b).toNat % 4096 ≠ 0 then alignTrap s (rd s b)
    else tilesOp false d (bits x 15 0) (bits x 47 32) (rd s b) s)

/-- `cdrop` (R359). -/
def execCdrop (d a b : Reg) (s : State) : Res :=
  let x := rd s a
  let n := bits x 15 0
  commit s (if bits x 31 16 ≠ 0 ∨ bits x 63 49 ≠ 0 then illOperand s
    else if bit x 48 then
      (if bits x 47 32 = 0 then illOperand s
       else if (rd s b).toNat % 4096 ≠ 0 then alignTrap s (rd s b)
       else tilesOp true d n (bits x 47 32) (rd s b) s)
    else if bits x 47 32 ≠ 0 ∨ rd s b ≠ 0 then illOperand s
    else afterRelease s fun s =>
      let r := if ownNode s (curOwner s) n then deleteNode s n else (s, nodeStatus 3 0)
      parkValue r.1 d r.2)

/-! ### `csettle` and `cread` (R361, R362) -/

/-- All invalidations that stand in some port's queue. -/
def standingInvals (s : State) : List Nat := s.birq.foldl (fun a p => a ++ p.2.map Inval.id) []

/-- Pending atomics of a context, the ordered ones that wait in a window among them. -/
def ctxReqs (s : State) (k : Nat) : List Nat :=
  (s.reqs.filter fun q => q.ctx == k).map Req.id
    ++ s.rings.flatMap fun r => r.2.groups.flatMap fun g => (g.2.window.filter fun e => e.2.ctx == k).map fun e => e.2.wid

/-- A strong read of a word of a node record: its last settled write becomes known, and nothing is acquired (R356). -/
def learnNode (s : State) (n w : Nat) : State :=
  learn s (curCtx s) (((locsFrom (nodeLoc s n w) 8).foldl (fun a l => insNat a (lastSettled s l)) []).filter fun v => v != 0)

/-- `csettle` (R361): the context's own earlier writes settle, and bumps for what it knows roll up; then COUNT is read. -/
def execCsettle (d a : Reg) (s : State) : Res :=
  let x := rd s a
  let n := x.toNat
  let k := curCtx s
  commit s (if bits x 63 16 ≠ 0 then illOperand s
    else if !ownNode s (curOwner s) n then parkValue s d allOnes
    else if (curFrame s).granted then parkValue (learnNode s n 0) d (word (nodeOf s n).count)
    else
      let inv := standingInvals s
      park s [.settled ((ctxOf s k).queue.map QEntry.id) (ctxReqs s k), .applied inv, .bumps n ((ctxOf s k).known ++ inv)])

/-- `cread` (R362): a strong read with no wait. -/
def execCread (d a b : Reg) (s : State) : Res :=
  let x := rd s a
  let w := (rd s b).toNat
  commit s (if 4 ≤ w ∨ (w < 3 ∧ bits x 63 16 ≠ 0) then illOperand s
    else if w < 3 then
      let n := x.toNat
      if !ownNode s (curOwner s) n then parkValue s d allOnes
      else parkValue (learnNode s n w) d (nodeWord (nodeOf s n) w)
    else match tileWhere s x false with
      | .mem pa _ =>
        parkValue s d (match tileOf s (pa / 4096) with
          | some (n, t) => word (t + n * 2 ^ 32 + 2 ^ 48)
          | none => 0)
      | .fault c => whereTrap s c x
      | _ => startWalk s x 0)

/-! ### Roll-up (R354) -/

/-- ROLLUP_STEP (R354): a set of pending bumps whose chains hold the node is included; a live node's COUNT rises by 1. -/
def execRollupStep (node : Nat) (bumps : List Nat) (s : State) : Res :=
  let hit := fun (b : Bump) => bumps.contains b.id && b.chain.contains node
  commit s (if s.bumps.any hit then
      let x := nodeOf s node
      let s := { s with bumps := (s.bumps.map fun b => if hit b then { b with chain := b.chain.filter fun n => n != node } else b).filter
                                   fun b => !b.chain.isEmpty }
      if x.live then nodeWrite (setNode s node { x with count := (x.count + 1) % 2 ^ 64 }) [(node, 0)] else s
    else s)

end Sys2Proof.Machine
end

