-- ==== Sys2Proof/Machine/Streamer.lean ====
section
/-! DEFINITION. Streamer copies and the maypole (R283-R285, R289-R300, R302). -/

namespace Sys2Proof.Machine

open Sys2Proof

/-! ### Copies (R289-R295) -/

/-- The barrier operand of a copy: none for 0, else a local address of either window, 8-aligned (R291). Alignment comes
before the protection of both operands (R72). -/
def barrierArg (s : State) (vb : Word) (k : Option (Nat × Nat) → State) : State :=
  if vb = 0 then k none
  else match localTarget s vb with
    | none => protTrap s vb
    | some t => k (some t)

/-- The request of a streamer command goes to its streamer as an entry of the issuer's queue, a copy's released as R91
states (R76, R283, R292; DEDUCED, log 72). -/
def pushRequest (s : State) (before : State) (cmd : Nat) (rel : Bool) : State :=
  let e := msgEntry before 0 0 (.leave 0 0)
  pushEntry s (curCtx s) { e with id := s.nextId, body := .request cmd, rel := rel, tag := [],
                                  after := if rel then e.after else [], reads := if rel then e.reads else [] }

/-- A streamer command issues: it takes its number, its request enters the queue, and d is owed the status word (R284, R292,
R298). -/
def issueStreamer (s : State) (d : Reg) (kind : Option Nat → CmdKind) (rel : Bool) : Nat × State :=
  let id := s.nextId
  let s1 := { s with nextId := id + 1 }
  let s1 := if d = 0 then s1 else owe s1 d id none
  let r := issueCmd s1 2 (kind (if d = 0 then none else some id))
  (r.1, pushRequest r.2 s s1.nextId rel)

/-- A copy is issued (R284, R291, R292): its record opens. -/
def issueCopy (s : State) (d : Reg) (src dst : Word) (len : Nat) (recs : Option (Tensor × Tensor)) (bar : Option (Nat × Nat)) : State :=
  if 64 ≤ openCount s (curCtx s) 2 then park s [.cmdRoom 2 64]
  else needSegment s 1 fun s =>
    let r := issueStreamer s d (fun ans => .copy src dst len recs bar ans 0 0 none 0 0 false) true
    let c : CopyRec := { ctx := curCtx s, num := r.1, prog := 0, chunks := (len + 65535) / 65536, bad := none, faddr := 0,
                         fcause := 0, done := false }
    retire4 (clearWait { r.2 with copies := r.2.copies ++ [c] })

/-- `cpy` (R289, R291). -/
def execCpy (d a b : Reg) (s : State) : Res :=
  let va := rd s a
  commit s (if va.toNat % 32 ≠ 0 then alignTrap s va
    else if rd s b ≠ 0 ∧ (rd s b).toNat % 8 ≠ 0 then alignTrap s (rd s b)
    else match ownTarget s va with
      | none => protTrap s va
      | some off => if localSize s s.cur.1 (curOwner s) < off + 32 then protTrap s va
        else barrierArg s (rd s b) fun bar =>
          if ownPoisoned s off 32 then trap s 0x08 0 va
          else
            let ws := wordsOf (ownView s off 32) 4
            let len := (ws.getD 2 0).toNat
            if 2 ^ 40 < len ∨ ws.getD 3 0 ≠ 0 then engineTrap s
            else issueCopy s d (ws.getD 0 0) (ws.getD 1 0) len none bar)

/-- `cpyt` (R291). -/
def execCpyt (d a b : Reg) (s : State) : Res :=
  let x := (rd s a).toNat
  let k := curCtx s
  commit s (if 2 ^ 16 ≤ x then illOperand s
    else if rd s b ≠ 0 ∧ (rd s b).toNat % 8 ≠ 0 then alignTrap s (rd s b)
    else barrierArg s (rd s b) fun bar =>
      match tensorAt s k (x % 256), tensorAt s k (x / 256) with
      | some t, some u =>
        if tKind t = 2 ∨ tKind u = 2 ∨ tFmt t ≠ tFmt u ∨ tDims t ≠ tDims u then engineTrap s
        else issueCopy s d 0 0 (tCount u * elemBytes (tFmt u)) (some (u, t)) bar
      | _, _ => engineTrap s)

/-- The address of a copy offset, at the source or at the destination (R289). -/
def copyVa (src dst : Word) (recs : Option (Tensor × Tensor)) (atSrc : Bool) (off : Nat) : Word :=
  match recs with
  | none => (if atSrc then src else dst) + word off
  | some (u, t) =>
    let x := if atSrc then u else t
    let b := elemBytes (tFmt x)
    tVa x (tIndex x (off / b)) + word (off % b)

/-- The page of an address by the TLBs of a core, or by the tables as they stand. -/
def pageFor (s : State) (core owner va : Nat) : Option Xlat :=
  match xlatHit ((coreOf s core).tlb ++ (ringOf s (ringOfCore s core)).tlb) owner va with
  | some x => some x
  | none => match walk s owner va with
    | .page x => some x
    | _ => none

/-- The streamer that a copy goes to (R283): of the home ring of its first source byte, also in a lost pool region. A first byte that
does not translate, that the copy may not read, or that lies in the host or peer window has none: its copy goes to the issuing core's
ring (DESIGN CHOICE, log 105). -/
def streamerOf (s : State) (core owner : Nat) (va : Word) : Nat :=
  match engineWhere s core owner va 0 with
  | .mem pa _ => if isWindow pa then ringOfCore s core else homeRing s pa
  | .loc c _ => ringOfCore s c
  | .fault 0x09 => (match pageFor s core owner va.toNat with
    | some x => homeRing s (x.pa + (va.toNat - x.page))
    | none => ringOfCore s core)
  | _ => ringOfCore s core

/-! ### The streamer's request entries (R283) -/

/-- The ring whose streamer holds the request of a command. -/
def streamerHolding (s : State) (c : Cmd) : Option Nat :=
  (s.points.find? fun p => p.1 / 8192 == 0x07 && p.2.busy.any fun q => q.id == c.id).map fun p => p.1 % 8192

/-- The streamer of a command: of its source's home ring, for a tile of the issuing core's ring (R283). -/
def streamerFor (s : State) (c : Cmd) : Nat :=
  match c.kind with
  | .copy src dst _ recs _ _ _ _ _ _ _ _ => streamerOf s (ctxCore c.ctx) (ctxOwner c.ctx) (copyVa src dst recs true 0)
  | _ => ringOfCore s (ctxCore c.ctx)

/-- The entry of a command at its streamer. -/
def slotOf (c : Cmd) : Slot := { owner := ctxOwner c.ctx, id := c.id, pa := none }

/-- A request leaves its issuer's queue for one of its owner's 32 entries at the streamer; with none free it waits there. -/
def arriveRequest (s : State) (c : Cmd) : State :=
  let ring := streamerFor s c
  let p := pointOf s 0x07 ring
  match (ctxOf s c.ctx).queue.find? fun e => e.body == .request c.id with
  | none => s
  | some e =>
    if releasable s c.ctx e.after e.reads [] [] && decide ((p.busy.filter fun q => q.owner == ctxOwner c.ctx).length < 32) then
      dropEntry (setPoint s 0x07 ring { p with busy := p.busy ++ [slotOf c] }) c.ctx e.id
    else s

/-- The points that a beat crosses between a ring and a byte (R213, R283). -/
def beatPath (s : State) (ring : Nat) (l : ELoc) (write : Bool) : List (Nat × Nat) :=
  match l.loc with
  | none => []
  | some a => if isLocal a then routePath ring (homeRing s a) else memoryPath s ring a l.treat write

/-- A list cut into runs of n. -/
def runsOf {α : Type} (n : Nat) : Nat → List α → List (List α)
  | 0, _ => []
  | g + 1, l => if l.isEmpty then [] else l.take n :: runsOf n g (l.drop n)

/-- The bytes of a beat by the sectors that they lie in, the first byte of each (R283). -/
def beatSectors (l : List ELoc) : List ELoc := firstBy (fun x => x.loc.elim 0 fun a => a / 64 + 1) l

/-- The beats of a chunk or a tile, 64 bytes each, draw at the streamer; each then crosses the points to its source, and for its
destination those of a request of its own, sector by sector (R283; DEDUCED, log 49). -/
def requestBeats (s : State) (ring : Nat) (c : Cmd) (src dst : List ELoc) : State :=
  let s := setCmd s { c with asked := c.asked + 1 }
  let ask := fun (s : State) (first : List (Nat × Nat)) (write : Bool) (l : ELoc) =>
    requestAt s (ctxOwner c.ctx) c.id ((beatPlace l).map fun p => { p with write := write }) (first ++ beatPath s ring l write)
  let cut := runsOf 64 ((src.length + 63) / 64)
  (((cut src).map beatSectors).zip ((cut dst).map beatSectors ++ List.replicate ((src.length + 63) / 64) [])).foldl (fun s b =>
    let s := (b.1.take 1).foldl (fun s l => ask s [(0x07, ring)] false l) s
    b.2.foldl (fun s l => ask s [] true l) ((b.1.drop 1).foldl (fun s l => ask s [] false l) s)) s

/-- Its chunk run, a command goes behind the owner's other entries (R283). -/
def rotateEntry (s : State) (ring : Nat) (c : Cmd) : State :=
  let p := pointOf s 0x07 ring
  setPoint s 0x07 ring { p with busy := p.busy.filter (fun q => q.id != c.id) ++ [slotOf c] }

/-! ### The chunks of a copy (R292-R294) -/

/-- Changes the record of a copy. -/
def setCopyRec (s : State) (k num : Nat) (f : CopyRec → CopyRec) : State :=
  { s with copies := s.copies.map fun r => if r.ctx = k ∧ r.num = num then f r else r }

/-- The barrier of a copy is updated with the command's tag and its settled writes (R199, R294). -/
def copyBarrier (s : State) (c : Cmd) (bar : Option (Nat × Nat)) (arr bytes : Nat) : State :=
  match bar with
  | none => s
  | some b =>
    let o := ctxOwner c.ctx
    sendMsg s (hwCtx o) 0 0 b.1 o (.barrier b.2 true arr bytes) (cmdBrings c)

/-- Where each byte of a chunk comes from and goes to, in copy order: source then destination (R292). -/
def chunkPlaces (s : State) (ring core owner id lo n : Nat) (src dst : Word) (recs : Option (Tensor × Tensor)) :
    List (ERes (ELoc × ELoc)) :=
  (upto n).map fun i =>
    let a := copyVa src dst recs true (lo + i)
    let b := copyVa src dst recs false (lo + i)
    (engineLoc s owner (ringWhere s ring core owner id a 0) a false).andThen fun x =>
      (engineLoc s owner (ringWhere s ring core owner id b 1) b true).andThen fun y => .ok (x, y)

/-- The bytes of the chunk that are moved. -/
def chunkCells (s : State) (ps : List (ELoc × ELoc)) : List (ELoc × Byte × Bool) :=
  (upto ps.length).filterMap fun i => (ps[i]?).map fun p => (p.2, engineByte s p.1 i)

/-- The first source byte of a copy lies in a lost region as its first chunk is translated: it writes nothing (R408). -/
def sourceLost (s : State) (ring : Nat) (c : Cmd) : Bool :=
  match c.kind with
  | .copy src dst _ recs _ _ 0 _ _ _ _ _ =>
    (match ringWhere s ring (ctxCore c.ctx) (ctxOwner c.ctx) c.id (copyVa src dst recs true 0) 0 with
     | .fault 0x09 => true
     | _ => false)
  | _ => false

/-- The bytes of the chunk that a stopped copy has written: a free choice among those that can be reached (log 20). -/
def stoppedCells (s : State) (ring : Nat) (c : Cmd) (ps : List (ERes (ELoc × ELoc))) : List (ELoc × Byte × Bool) :=
  let k := c.ctx
  if sourceLost s ring c then []
  else (upto ps.length).filterMap fun i => match (ps[i]?.getD (.wait none) : ERes (ELoc × ELoc)) with
    | .ok p =>
      if Config.freeBool (s.free + i) && linesHeld s [p.2] && mayWrite s (cmdBrings c) [p.2] && (refusedAt s k [p.2]).isNone then some (p.2, engineByte s p.1 i)
      else none
    | _ => none

/-- The places of the bytes of a copy's next chunk. -/
def nextPlaces (s : State) (ring : Nat) (c : Cmd) : List (ERes (ELoc × ELoc)) :=
  match c.kind with
  | .copy src dst len recs _ _ chunk _ _ _ _ _ =>
    chunkPlaces s ring (ctxCore c.ctx) (ctxOwner c.ctx) c.id (65536 * chunk) (Nat.min 65536 (len - 65536 * chunk)) src dst recs
  | _ => []

/-- One chunk of a copy (R292): its pages are translated and its beats draw their slots, and once they are granted it is moved; an abort
stops it before its next chunk begins (R295). -/
def copyChunkStep (s : State) (ring : Nat) (c : Cmd) : State :=
  match c.kind with
  | .copy src dst len recs bar ans chunk 0 bad faddr fcause abort =>
    let lo := 65536 * chunk
    let n := Nat.min 65536 (len - lo)
    if n = 0 then s
    else if abort && decide (c.asked ≤ chunk) then setCmd (cancelAt s [c.id]) { c with kind := .copy src dst len recs bar ans chunk 5 bad faddr fcause abort }
    else
      let owner := ctxOwner c.ctx
      let ps := nextPlaces s ring c
      let known := cmdBrings c
      let s1 := { s with free := s.free + n }
      let stop := fun (s1 : State) (status : Nat) (va : Word) (cause : Nat) =>
        let r := engineStore (cancelAt s1 [c.id]) c known (stoppedCells s ring c ps)
        let c := { c with writes := c.writes ++ r.2, kind := .copy src dst len recs bar ans chunk status bad va cause abort }
        let s := if status = 2 then setCopyRec r.1 c.ctx c.num fun x => { x with faddr := va, fcause := cause } else r.1
        setCmd (if cause = 0x05 then reportFault s c.ctx c.frame 0x05 va c.pc else s) c
      match allOk ps with
      | .wait _ => askWalk s ring (ctxCore c.ctx) owner c.id false (allOk ps)
      | .fault cause va => stop s1 (if cause = 0x09 then 3 else 2) va cause
      | .ok ls =>
        let ds := ls.map Prod.snd
        match refusedAt s c.ctx ds, lostTo s c ds with
        | some a, _ => stop (countCapDrop s1 a.1) 4 0 0
        | none, some va => stop s1 3 va 0x09
        | none, none =>
          if c.asked ≤ chunk then
            requestBeats s ring c (ls.map Prod.fst) ds
          else if !linesHeld s ds || !mayWrite s known ds || standsAt s c.id then s
          else
            let s2 := engineHome s1 c.ctx (ls.map Prod.fst)
            let cells := (chunkCells { s2 with free := s.free } ls)
            let r := engineStore s2 c known cells
            let bad' := match bad with
              | some b => some b
              | none => ((upto n).find? fun i => (cells[i]?).any fun x => x.2.2).map fun i => lo + i
            let c := { c with writes := c.writes ++ r.2, kind := .copy src dst len recs bar ans (chunk + 1) 0 bad' faddr fcause abort }
            let s := setCopyRec r.1 c.ctx c.num fun x => { x with prog := chunk + 1, bad := bad' }
            let s := charge s owner (2 * ((n + 63) / 64) + sectorEnergy (ls.map Prod.fst) + sectorEnergy ds)
            copyBarrier (rotateEntry (dropWalked (setCmd s c) c.id) ring c) c bar 0 n
  | _ => s

/-- Gives an owed result its value with what its first reader acquires (R96). -/
def answerLearn (s : State) (core frame act id : Nat) (v : Word) (l : List Nat) : State :=
  let f := frameOf s core frame
  if f.act = act ∧ f.st ≠ .free then
    setFrame s core frame { f with owed := f.owed.map fun o => if o.id = id then { o with val := some v, learn := some l } else o }
  else s

/-- A status word goes to its register (R290, R292). -/
def statusWord (s : State) (c : Cmd) (ans : Option Nat) (status bytes : Nat) : State :=
  match ans with
  | none => s
  | some id => answerLearn s (ctxCore c.ctx) c.frame c.act id (word (bytes + status * 2 ^ 56)) (cmdBrings c)

/-- The records of done copies of a context that are not among its last 32 go (R295): the last are those with the highest numbers,
where copies may finish in another order (DESIGN CHOICE, log 106). -/
def pruneCopies (s : State) (k : Nat) : State :=
  let nums := (s.copies.filter fun r => r.ctx == k && r.done).map CopyRec.num
  { s with copies := s.copies.filter fun r =>
      !(r.ctx == k && r.done && decide (32 ≤ (nums.filter fun n => decide (r.num < n)).length)) }

/-- COPY_DONE (R292, R298): a finished copy or tile writes its status word, updates its barrier, and reports done. -/
def execCopyDone (idx : Nat) (s : State) : Res :=
  commit s (match s.cmds[idx]? with
    | none => s
    | some c =>
      if c.finished || (streamerHolding s c).isNone || !writesOver s c then s
      else match c.kind with
        | .copy src dst len recs bar ans chunk status bad faddr fcause abort =>
          let bytes := Nat.min (65536 * chunk) len
          if status = 0 ∧ bytes < len then s
          else
            let st := if status ≠ 0 then status else if bad.isSome then 1 else 0
            let s := statusWord s c ans st bytes
            let s := copyBarrier s c bar 1 (if 2 ≤ st then len - bytes else 0)
            let s := pruneCopies (setCopyRec s c.ctx c.num fun x => { x with done := true }) c.ctx
            setCmd s { c with finished := true, kind := .copy src dst len recs bar ans chunk status bad faddr fcause abort }
        | .mcast t _ _ ans sent left status =>
          if sent && left.isEmpty then
            setCmd (statusWord s c ans status (tCount t * elemBytes (tFmt t))) { c with finished := true }
          else s
        | _ => s)

/-- The record of a copy of the issuing context. -/
def copyRecOf (s : State) (num : Nat) : Option CopyRec := s.copies.find? fun r => r.ctx == curCtx s && r.num == num

/-- `cpst` (R295). -/
def execCpst (d a b : Reg) (s : State) : Res :=
  let q := (rd s b).toNat
  commit s (if 4 ≤ q then illOperand s
    else match copyRecOf s (rd s a).toNat with
      | none => parkValue s d allOnes
      | some r =>
        parkValue s d (if q = 0 then word (r.prog + r.chunks * 2 ^ 32)
          else if q = 1 then (match r.bad with | some o => word (o + 2 ^ 63) | none => 0)
          else if q = 2 then r.faddr else word r.fcause))

/-- `cabort` (R295). -/
def execCabort (d a : Reg) (s : State) : Res :=
  let num := (rd s a).toNat
  let k := curCtx s
  let mark := fun (c : Cmd) =>
    if c.ctx = k ∧ c.cls = 2 ∧ c.num = num then
      (match c.kind with
       | .copy src dst len recs bar ans chunk status bad faddr fcause _ =>
         { c with kind := .copy src dst len recs bar ans chunk status bad faddr fcause true }
       | _ => c)
    else c
  commit s (match copyRecOf s num with
    | none => parkValue s d 2
    | some r => if r.done then parkValue s d 1 else parkValue { s with cmds := s.cmds.map mark } d 0)

/-! ### The match tables (R296-R300) -/

/-- A bank of the owner whose 8 match entries are not all in use (R296). -/
def matchBank (s : State) (k : Nat) : Option Nat :=
  (banksOf s (ctxCore k) (ctxOwner k)).find? fun b =>
    decide (((ctxOf s k).matchTab.filter fun e => match e with
      | .source b' .. => b' == b
      | .receiver b' .. => b' == b).length < 8)

/-- The entry is the source entry of a tag. -/
def isSource (tag16 : Nat) (e : MatchEntry) : Bool :=
  match e with
  | .source _ t .. => t == tag16
  | _ => false
/-- The entry is the receiver entry of a group. -/
def isReceiver (src tag16 : Nat) (e : MatchEntry) : Bool :=
  match e with
  | .receiver _ c t .. => c == src && t == tag16
  | _ => false

/-- The source entry of a tag. -/
def sourceOf (s : State) (k tag16 : Nat) : Option MatchEntry := (ctxOf s k).matchTab.find? (isSource tag16)
/-- The receiver entry of a group. -/
def receiverOf (s : State) (k src tag16 : Nat) : Option MatchEntry := (ctxOf s k).matchTab.find? (isReceiver src tag16)

/-- Replaces the entries that a test picks. -/
def setMatch (s : State) (k : Nat) (p : MatchEntry → Bool) (e : MatchEntry) : State :=
  setCtx s k { ctxOf s k with matchTab := (ctxOf s k).matchTab.map fun x => if p x then e else x }
/-- Adds an entry. -/
def addMatch (s : State) (k : Nat) (e : MatchEntry) : State := setCtx s k { ctxOf s k with matchTab := (ctxOf s k).matchTab ++ [e] }
/-- Removes entries. -/
def dropMatch (s : State) (k : Nat) (p : MatchEntry → Bool) : State :=
  setCtx s k { ctxOf s k with matchTab := (ctxOf s k).matchTab.filter fun x => !p x }

/-- MAILBOX rises over the tiles at the front that every subscriber has freed (R299). -/
def mailStep : MatchEntry → MatchEntry
  | .source b t sent mail subs open_ box =>
    let done := open_.takeWhile fun x => x.2.1.isEmpty
    .source b t sent ((mail + done.length) % 2 ^ 32) subs (open_.drop done.length) (done.foldl (fun a x => unionNat a x.2.2) box)
  | e => e

/-- A core frees one tile, with a tag. -/
def freeTile (core : Nat) (tag : List Nat) (tile : Nat) (l : List (Nat × List Nat × List Nat)) : List (Nat × List Nat × List Nat) :=
  l.map fun x => if x.1 = tile ∧ x.2.1.contains core = true then (x.1, x.2.1.filter (fun c => c != core), unionNat x.2.2 tag) else x

/-- Source core and tag of a group word (R296). -/
def groupWord (x : Word) : Option (Nat × Nat) :=
  if bits x 12 0 < 6144 ∧ bits x 31 13 = 0 ∧ bits x 63 48 = 0 then some (bits x 12 0, bits x 47 32) else none

/-- Slot length of a record that lands tiles (R297). -/
def landLen (t : Tensor) : Nat := (tCount t * elemBytes (tFmt t) + 63) / 64 * 64

/-! ### The maypole (R297-R300) -/

/-- The output that leads back over a hop of a die's loop. -/
def backHop (x : Nat × Nat) : Nat × Nat :=
  let r := x.2 / 4
  let at_ := fun (i : Nat) => r / 96 * 96 + i % 96
  if x.2 % 4 = 1 then (0x04, at_ (r % 96 + 1) * 4 + 2) else (0x04, at_ (r % 96 + 95) * 4 + 1)

/-- The way of a group's tiles from its source's ring to a subscriber's: back over the outputs that the join passed (R297, R298; DEDUCED,
log 107). -/
def maypolePath (a b : Nat) : List (Nat × Nat) :=
  if a = b then []
  else ((loopPath (a / 96) (a % 96) 49 (b % 96)).map backHop).reverse ++ (if a / 96 = b / 96 then [] else [(0x04, (a / 96 * 96 + b % 96) * 4 + 3)])
    ++ [(0x04, b * 4)]

/-- The bit of a router output for a group. -/
def isBranch (owner src tag dir : Nat) (b : Branch) : Bool := b.owner == owner && b.src == src && b.tag16 == tag && b.dir == dir

/-- The bit of an output of a router is set for a subscriber. -/
def setBranch (owner src tag : Nat) (r : Nat × Nat) (s : State) (x : Nat × Nat) : State :=
  let q := ringOf s (x.2 / 4)
  let mine := isBranch owner src tag (x.2 % 4)
  let bs := if q.branches.any mine then q.branches.map fun b => (if mine b then { b with users := b.users ++ [r] } else b)
    else q.branches ++ [{ owner := owner, src := src, tag16 := tag, dir := x.2 % 4, users := [r] }]
  setRing s (x.2 / 4) { q with branches := bs }

/-- The bits on a subscriber's path are set (R297). -/
def setBranches (s : State) (owner src tag : Nat) (r : Nat × Nat) : State :=
  (maypolePath (ringOfCore s src) (ringOfCore s r.1)).foldl (setBranch owner src tag r) s

/-- The bits that only this subscriber used are cleared (R300). -/
def clearBranches (s : State) (owner src tag : Nat) (r : Nat × Nat) : State :=
  let cut := fun (b : Branch) =>
    if b.owner = owner ∧ b.src = src ∧ b.tag16 = tag then
      (match b.users.filter fun u => u != r with
       | [] => none
       | us => some { b with users := us })
    else some b
  { s with rings := s.rings.map fun q => (q.1, { q.2 with branches := q.2.branches.filterMap cut }) }

/-- The outputs with their bit set for a subscriber, from the source on (R298). -/
def treeWay (s : State) (owner src tag : Nat) (r : Nat × Nat) : List (Nat × Nat) :=
  (maypolePath (ringOfCore s src) (ringOfCore s r.1)).filter fun x =>
    (ringOf s (x.2 / 4)).branches.any fun b => isBranch owner src tag (x.2 % 4) b && b.users.contains r

/-- Outputs that two ways have in common from the source on. -/
def commonWay : List (Nat × Nat) → List (Nat × Nat) → Nat
  | x :: a, y :: b => if x = y then commonWay a b + 1 else 0
  | _, _ => 0

/-- The sender of a group's tiles: they reach each subscriber in ascending k (R298). -/
def tileCtx (src tag16 owner : Nat) : Nat := ctxKey (2 ^ 24 + src * 2 ^ 16 + tag16) owner

/-- A tile goes down the maypole (R298): to each subscriber a message, whose flits cross the outputs that an earlier one's do not, from the
router where they are copied from it. -/
def sendTiles (s : State) (src tag owner : Nat) (subs : List (Nat × Nat)) (body : Nat → Body) (known : List Nat) : State :=
  let n := messageBeats (body 0)
  (subs.foldl (fun (a : State × List (Nat × List (Nat × Nat))) r =>
    let s := a.1
    let id := s.nextId
    let way := treeWay s owner src tag r
    let m : Msg := { id := id, ctx := tileCtx src tag owner, frame := 0, act := 0, core := r.1, owner := owner,
                     body := body r.2, tag := known }
    let s := { s with nextId := id + 1, net := s.net ++ [m] }
    let best := a.2.foldl (fun (b : Nat × Nat × Nat) x =>
      if b.1 < commonWay x.2 way then (commonWay x.2 way, x.1, x.2.length) else b) (0, 0, 0)
    let s := if best.1 = 0 then (upto n).foldl (fun s _ => requestAt s owner id none way) s
      else { s with forks := s.forks ++ [{ parent := best.2.1, left := best.2.2 - best.1, owner := owner, id := id,
                                           path := way.drop best.1, count := n }] }
    (s, a.2 ++ [(id, way)])) (s, [])).1

/-- Every bit is set anew from the subscriptions that stand, as a core comes to stand elsewhere. -/
def regrow (s : State) : State :=
  let bare : State := { s with rings := s.rings.map fun q => (q.1, { q.2 with branches := [] }) }
  s.ctxs.foldl (fun (s : State) c => c.2.matchTab.foldl (fun s e => match e with
    | .source _ tag _ _ subs _ _ => subs.foldl (fun s r => setBranches s (ctxOwner c.1) (ctxCore c.1) tag r) s
    | .receiver .. => s) s) bare

/-- Cores with a tile of a group still to free. -/
def tileLeft (s : State) (k tag16 tile : Nat) : List Nat :=
  match sourceOf s k tag16 with
  | some (.source _ _ _ _ _ open_ _) => (open_.find? fun x => x.1 == tile).elim [] fun x => x.2.1
  | _ => []

/-- Subscribers below a router. -/
def belowRouter (s : State) (owner src tag ring : Nat) : List (Nat × Nat) :=
  ((ringOf s ring).branches.filter fun b => b.owner == owner && b.src == src && b.tag16 == tag).flatMap Branch.users

/-- Subscribers below a router whose free of a tile has not been combined with some others'. -/
def stillBelow (s : State) (owner src tag tile ring : Nat) (froms : List (Nat × Nat)) : List (Nat × Nat) :=
  let left := tileLeft s (ctxKey src owner) tag tile
  (belowRouter s owner src tag ring).filter fun u => left.contains u.1 && !froms.contains u

/-- A free that is the same tile's at the same router. -/
def sameFree (s : State) (m x : Msg) : Bool :=
  x.id != m.id && x.core == m.core && x.owner == m.owner && !standsAt s x.id && (match m.body, x.body with
    | .freed t k _ r, .freed t' k' _ r' => t == t' && k == k' && r == r'
    | _, _ => false)

/-- The subscribers that a combined free is of. -/
def fromsOf (m : Msg) : List (Nat × Nat) := match m.body with | .freed _ _ fs _ => fs | _ => []

/-- The outputs from a router to the source of a group. -/
def upWay (s : State) (ring src : Nat) : List (Nat × Nat) :=
  let root := ringOfCore s src
  if ring = root then [(0x04, root * 4)] else routePath ring root

/-- A combined free goes on over some outputs, to the next router with others below that have still to free its tile, else to the source:
the outputs crossed, and that router. -/
def freeHops (still : Nat → Bool) : List (Nat × Nat) → List (Nat × Nat) × Nat
  | [] => ([], Config.rings)
  | [x] => ([x], Config.rings)
  | x :: y :: r =>
    if still (y.2 / 4) then ([x], y.2 / 4)
    else
      let z := freeHops still (y :: r)
      (x :: z.1, z.2)

/-- A router combines the frees of a tile that have reached it, and passes them on as one once every subscriber below it has freed the
tile (R299). -/
def passFree (s : State) (m : Msg) : State :=
  match m.body with
  | .freed tag tile froms ring =>
    let others := s.net.filter (sameFree s m)
    let all := others.foldl (fun a x => a ++ (fromsOf x).filter fun u => !a.contains u) froms
    if !(stillBelow s m.owner m.core tag tile ring all).isEmpty then s
    else
      let tags := others.foldl (fun a x => unionNat a x.tag) m.tag
      let hop := freeHops (fun r => !(stillBelow s m.owner m.core tag tile r all).isEmpty) (upWay s ring m.core)
      let x : Msg := { m with body := .freed tag tile all hop.2, tag := tags }
      let gone := others.map Msg.id
      let s := { s with net := (s.net.filter fun y => !gone.contains y.id).map fun y => if y.id = m.id then x else y }
      requestAt s m.owner m.id none hop.1
  | _ => s

/-- The tiles that a free is of: one, or the oldest that its core has still to free. -/
def freeOf (s : State) (m : Msg) (tag id n : Nat) (tile : Option Nat) : List Nat :=
  match tile with
  | some k => [k]
  | none => match sourceOf s (ctxKey m.core m.owner) tag with
    | some (.source _ _ _ _ _ open_ _) =>
      ((open_.filter fun x => x.2.1.contains (ctxCore m.ctx) && !(s.net.any fun y => y.core == m.core && y.owner == m.owner && (match y.body with
          | .freed t k fs _ => t == tag && k == x.1 && fs.contains (ctxCore m.ctx, id)
          | _ => false))).map Prod.fst).take n
    | _ => []

/-- A free sets out from the router of its subscriber's ring, as one for each of its tiles; within the source's ring it crosses none. -/
def startFree (s : State) (m : Msg) : State :=
  match m.body with
  | .free tag id n tile =>
    let here := ringOfCore s (ctxCore m.ctx)
    (freeOf s m tag id n tile).foldl (fun s k =>
      { s with nextId := s.nextId + 1,
               net := s.net ++ [{ m with id := s.nextId, ctx := hwCtx m.owner,
                                         body := .freed tag k [(ctxCore m.ctx, id)] (if here = ringOfCore s m.core then Config.rings else here) }] }) s
  | _ => s

/-- `join` (R297): the join goes to the source, whose answer is owed to d. -/
def execJoin (d a b : Reg) (s : State) : Res :=
  let y := rd s b
  let k := curCtx s
  let slots := bits y 15 8
  let off := bits y 34 16
  let bar := if bit y 35 then some off else none
  commit s (match groupWord (rd s a) with
    | none => illOperand s
    | some (src, tag) =>
      if bits y 63 36 ≠ 0 ∨ slots = 0 ∨ (bit y 35 = true ∧ off % 8 ≠ 0) then illOperand s
      else if (matchBank s k).isNone then parkValue s d 1
      else if (receiverOf s k src tag).isSome then parkValue s d 2
      else match tensorAt s k (bits y 7 0) with
        | none => parkValue s d 3
        | some t =>
          if tKind t ≠ 0 ∨ tPacked t = false ∨ localSize s s.cur.1 (curOwner s) < tBase t + slots * landLen t then parkValue s d 3
          else needSegment s 1 fun s =>
            let id := s.nextId
            let s := owe { s with nextId := id + 1 } d id none
            parkAnswer (post s src (curOwner s) (.join tag (bits y 7 0) slots bar id)) id)

/-- A join at its source (R297). -/
def takeJoin (s0 : State) (m : Msg) : State :=
  let s := s0
  match m.body with
  | .join tag landing slots bar id =>
    let ks := ctxKey m.core m.owner
    let kr := m.ctx
    let rcore := ctxCore kr
    let done := fun (s : State) (v : Nat) => answer s rcore m.frame m.act id (word v)
    match matchBank s kr, receiverOf s kr m.core tag with
    | none, _ => done s 1
    | some _, some _ => done s 2
    | some _, none =>
      let made := match sourceOf s ks tag, matchBank s ks with
        | some e, _ => some (s, e)
        | none, some sb =>
          let e : MatchEntry := .source sb tag 0 0 [] [] []
          some (addMatch s ks e, e)
        | none, none => none
      match made with
      | some (s, .source sb t sent mail subs open_ box) =>
        (match matchBank s kr with
        | none => done s0 1
        | some rb =>
          let s := setBranches s m.owner m.core tag (rcore, id)
          done (addMatch (setMatch s ks (isSource tag) (.source sb t sent mail (subs ++ [(rcore, id)]) open_ box)) kr
            (.receiver rb m.core tag id landing slots bar 0 0 0)) 0)
      | _ => done s 4
  | _ => s

/-- JOIN_ARRIVAL (R297): the source takes the subscriber and the receiver entry is made, or the join is refused. -/
def execJoinArrival (idx : Nat) (s : State) : Res :=
  commit s (arrive idx s (fun b => match b with | .join .. => true | _ => false) takeJoin)

/-- `leave` (R300): a receiver entry goes and the leave travels to the source; a source entry goes when it is idle. -/
def execLeave (d a : Reg) (s : State) : Res :=
  let k := curCtx s
  commit s (match groupWord (rd s a) with
    | none => illOperand s
    | some (src, tag) =>
      match receiverOf s k src tag, (if src = s.cur.1 then sourceOf s k tag else none) with
      | some (.receiver _ _ _ id _ _ _ _ _ _), _ =>
        needSegment s 1 fun s => parkValue (dropMatch (post s src (curOwner s) (.leave tag id)) k (isReceiver src tag)) d 0
      | _, some (.source _ _ sent mail subs _ _) =>
        if subs.isEmpty ∧ mail = sent then parkValue (dropMatch s k (isSource tag)) d 0 else parkValue s d 2
      | _, _ => parkValue s d 1)

/-- Tags of the frees of a subscriber that routers still hold, by tile. -/
def heldTags (s : State) (m : Msg) (tag id tile : Nat) : List Nat :=
  s.net.foldl (fun a x => match x.body with
    | .freed t k fs _ => if x.core = m.core ∧ x.owner = m.owner ∧ t = tag ∧ k = tile ∧ fs.contains (ctxCore m.ctx, id) = true then unionNat a x.tag else a
    | _ => a) []

/-- A leave at its source (R300): it clears its bits, and its tiles count as freed, with the tags of the frees that are on their way. -/
def takeLeave (s : State) (m : Msg) : State :=
  match m.body with
  | .leave tag id =>
    let k := ctxKey m.core m.owner
    match sourceOf s k tag with
    | some (.source b t sent mail subs open_ box) =>
      if subs.contains (ctxCore m.ctx, id) then
        let free := fun (x : Nat × List Nat × List Nat) =>
          if x.2.1.contains (ctxCore m.ctx) then (x.1, x.2.1.filter (fun c => c != ctxCore m.ctx), unionNat x.2.2 (heldTags s m tag id x.1)) else x
        let s := clearBranches s m.owner m.core tag (ctxCore m.ctx, id)
        setMatch s k (isSource tag) (mailStep (.source b t sent mail (subs.filter fun x => x != (ctxCore m.ctx, id)) (open_.map free) box))
      else s
    | _ => s
  | _ => s

/-- LEAVE_ARRIVAL (R300): the subscriber goes, and its tiles count as freed. -/
def execLeaveArrival (idx : Nat) (s : State) : Res :=
  commit s (arrive idx s (fun b => match b with | .leave .. => true | _ => false) takeLeave)

/-- `bfree` (R299). -/
def execBfree (d a b : Reg) (s : State) : Res :=
  let n := (rd s b).toNat
  let k := curCtx s
  commit s (match groupWord (rd s a) with
    | none => illOperand s
    | some (src, tag) =>
      if n = 0 ∨ 255 < n then illOperand s
      else match receiverOf s k src tag with
        | some (.receiver rb c t id landing slots bar arrived freed dropped) =>
          if diff32 arrived freed < n then parkValue s d allOnes
          else needSegment s 1 fun s =>
            let freed' := (freed + n) % 2 ^ 32
            let s := post s src (curOwner s) (.free tag id n none)
            parkValue (setMatch s k (isReceiver src tag) (.receiver rb c t id landing slots bar arrived freed' dropped)) d
              (word (diff32 arrived freed'))
        | _ => parkValue s d allOnes)

/-- A combined free at the root (R299). -/
def takeFree (s : State) (m : Msg) : State :=
  match m.body with
  | .freed tag tile froms _ =>
    let k := ctxKey m.core m.owner
    match sourceOf s k tag with
    | some (.source b t sent mail subs open_ box) =>
      let o := (froms.filter subs.contains).foldl (fun o u => freeTile u.1 m.tag tile o) open_
      setMatch s k (isSource tag) (mailStep (.source b t sent mail subs o box))
    | _ => s
  | _ => s

/-- FREE_ARRIVAL (R299): a free sets out, is combined with others of its tile at a router on its way, or reaches the root, where MAILBOX
rises. -/
def execFreeArrival (idx : Nat) (s : State) : Res :=
  commit s (match s.net[idx]? with
    | none => s
    | some m => match m.body with
      | .free .. => if inOrder s m then startFree { s with net := dropAt s.net idx } m else s
      | .freed _ _ _ ring =>
        if standsAt s m.id then s
        else if ring < Config.rings then passFree s m
        else arrive idx s (fun _ => true) takeFree
      | _ => s)

/-- `mbox` (R299): on the source entry it acquires the tags of the freed tiles. -/
def execMbox (d a b : Reg) (s : State) : Res :=
  let v := (rd s b).toNat
  let k := curCtx s
  commit s (match groupWord (rd s a) with
    | none => illOperand s
    | some (src, tag) =>
      if 2 ^ 32 ≤ v then illOperand s
      else if src = s.cur.1 then
        (match sourceOf s k tag with
         | some (.source _ _ _ mail _ _ box) =>
           if diff32 mail v < 2 ^ 31 then parkValue (learn (clearWait s) k box) d (word mail) else park s [.mailbox src tag v]
         | _ => parkValue s d allOnes)
      else
        (match receiverOf s k src tag with
         | some (.receiver _ _ _ _ _ _ _ arrived _ dropped) =>
           if diff32 arrived v < 2 ^ 31 then parkValue (clearWait s) d (word (arrived + dropped * 2 ^ 32)) else park s [.mailbox src tag v]
         | _ => parkValue s d allOnes))

/-- The mark of a tile that is not yet read among the cores still to free it. -/
def unread : Nat := 2 ^ 20

/-- `mcast` (R296-R298): the tile takes the next k, and goes to the subscribers of now; the frame parks for the match table's
answer, which is there at once. -/
def execMcast (d a : Reg) (s : State) : Res :=
  let x := rd s a
  let k := curCtx s
  let tag := bits x 47 32
  commit s (if bits x 7 0 ≠ 0 ∨ bits x 31 16 ≠ 0 ∨ bits x 63 48 ≠ 0 then illOperand s
    else match tensorAt s k (bits x 15 8) with
      | none => engineTrap s
      | some t =>
        if tKind t = 2 then engineTrap s
        else if 64 ≤ openCount s k 2 then park s [.cmdRoom 2 64]
        else needSegment s 1 fun s =>
          let made := match sourceOf s k tag, matchBank s k with
            | some e, _ => some (s, e)
            | none, some sb =>
              let e : MatchEntry := .source sb tag 0 0 [] [] []
              some (addMatch s k e, e)
            | none, none => none
          match made with
          | some (s, .source b t16 sent mail subs open_ box) =>
            let e : MatchEntry := .source b t16 ((sent + 1) % 2 ^ 32) mail subs (open_ ++ [(sent, unread :: subs.map Prod.fst, [])]) box
            let s := setMatch s k (isSource tag) e
            let s := (issueStreamer s d (fun ans => .mcast t tag sent ans false subs 0) false).2
            parkAnswer { s with nextId := s.nextId + 1 } s.nextId
          | _ => engineTrap s)

/-- The places of the bytes of a tile. -/
def tilePlaces (s : State) (ring : Nat) (c : Cmd) (t : Tensor) : List (ERes ELoc) :=
  (upto (tCount t * elemBytes (tFmt t))).map fun i =>
    let va := copyVa 0 0 (some (t, t)) true i
    engineLoc s (ctxOwner c.ctx) (ringWhere s ring (ctxCore c.ctx) (ctxOwner c.ctx) c.id va 0) va false

/-- A tile is read and sent to its subscribers, or its command stops (R298). -/
def mcastStep (s : State) (ring : Nat) (c : Cmd) : State :=
  match c.kind with
  | .mcast t tag k ans false left _ =>
    let core := ctxCore c.ctx
    let owner := ctxOwner c.ctx
    let n := tCount t * elemBytes (tFmt t)
    let free := fun (s : State) (all : Bool) =>
      match sourceOf s c.ctx tag with
      | some (.source b t16 sent mail subs open_ box) =>
        let o := open_.map fun x => if x.1 = k then (x.1, if all then [] else x.2.1.filter (fun y => y != unread), x.2.2) else x
        setMatch s c.ctx (isSource tag) (mailStep (.source b t16 sent mail subs o box))
      | _ => s
    match allOk (tilePlaces s ring c t) with
    | .wait _ => askWalk s ring core owner c.id false (allOk (tilePlaces s ring c t))
    | .fault cause va =>
      let s := if cause = 0x05 then reportFault s c.ctx c.frame 0x05 va c.pc else s
      setCmd (free { s with free := s.free + n } true) { c with kind := .mcast t tag k ans true [] (if cause = 0x09 then 3 else 2) }
    | .ok ls =>
      if c.asked = 0 then requestBeats s ring c ls []
      else if standsAt s c.id then s
      else
      let s := engineHome s c.ctx ls
      let bs := (upto n).map fun i => match ls[i]? with
        | some l => engineByte s l i
        | none => (0, false)
      let bad := (upto n).filter fun i => (bs.getD i (0, false)).2
      let s := charge { s with free := s.free + n } owner (2 * ((n + 63) / 64) + sectorEnergy ls)
      let s := sendTiles s core tag owner left (fun sub => .tile core tag sub k t.words (bs.map Prod.fst) bad c.id) (cmdBrings c)
      let status := if bad.isEmpty then 0 else 1
      setCmd (free s false) { c with kind := .mcast t tag k ans true left status }
  | _ => s

/-- A streamer command has a chunk or a tile that can run now: none of its bytes waits for a bank or a pool line, and an
earlier tile of its group has gone out (R298). -/
def chunkReady (s : State) (ring : Nat) (c : Cmd) : Bool :=
  match c.kind with
  | .copy _ _ len _ _ _ chunk 0 _ _ _ abort =>
    decide (65536 * chunk < len) && ((abort && decide (c.asked ≤ chunk)) || (match allOk (nextPlaces s ring c) with
      | .wait _ => asksWalk s c.id (allOk (nextPlaces s ring c))
      | .fault _ _ => true
      | .ok ls => (refusedAt s c.ctx (ls.map Prod.snd)).isSome || linesHeld s (ls.map Prod.snd)))
  | .mcast t tag _ _ false _ _ =>
    cmdFree s c && !(s.cmds.any fun x => x.ctx == c.ctx && decide (x.num < c.num) && (match x.kind with
        | .mcast _ tag' _ _ sent _ _ => tag' == tag && !sent
        | _ => false))
      && (match allOk (tilePlaces s ring c t) with
        | .wait _ => asksWalk s c.id (allOk (tilePlaces s ring c t))
        | _ => true)
  | _ => false

/-- The command whose chunk an owner's streamer runs next: the first of its entries that can run; one that waits for a bank
is passed over (R283; DESIGN CHOICE, log 14). -/
def nextChunk (s : State) (ring owner : Nat) : Option Nat :=
  (((pointOf s 0x07 ring).busy.filter fun q => q.owner == owner).find? fun q =>
    (s.cmds.find? fun c => c.id == q.id).any (chunkReady s ring)).map Slot.id

/-- COPY_CHUNK (R283, R292, R298): the request reaches its streamer; there its next chunk runs in its owner's turn, or its tile
is read and sent. -/
def execCopyChunk (idx : Nat) (s : State) : Res :=
  commit s (match s.cmds[idx]? with
    | none => s
    | some c => match streamerHolding s c with
      | none => arriveRequest s c
      | some ring =>
        if railSlot s 3 = false ∨ nextChunk s ring (ctxOwner c.ctx) ≠ some c.id then s
        else match c.kind with
          | .copy .. => copyChunkStep s ring c
          | .mcast .. => mcastStep s ring c
          | _ => s)

/-- A subscriber of a multicast command is through with its tile. -/
def tileOver (s : State) (cmd core : Nat) (ws : List Nat) : State :=
  { s with cmds := s.cmds.map fun c => match c.kind with
      | .mcast t tag k ans sent left status =>
        if c.id = cmd then { c with writes := c.writes ++ ws, kind := .mcast t tag k ans sent (left.filter fun x => x.1 != core) status }
        else c
      | _ => c }

/-- A tile lands at a subscriber, or is dropped (R298). -/
def landTile (s : State) (m : Msg) : State :=
  match m.body with
  | .tile src tag sub k ws data bad cmd =>
    let kr := ctxKey m.core m.owner
    match receiverOf s kr src tag with
    | some (.receiver rb c t id landing slots bar arrived freed dropped) =>
      if id ≠ sub then tileOver s cmd m.core []
      else
        let srcT : Tensor := { words := ws }
        let len := match tensorAt s kr landing with
          | some l => landLen l
          | none => landLen srcT
        let fits := match tensorAt s kr landing with
          | some l => tFmt l == tFmt srcT && tDims l == tDims srcT
          | none => false
        let arrived' := (arrived + 1) % 2 ^ 32
        let s := if fits then
            let base := match tensorAt s kr landing with
              | some l => tBase l + arrived % slots * len
              | none => 0
            let cells := (upto data.length).map fun i =>
              (plainLoc (localLoc s m.core m.owner (base + i)) (word (Config.ownWindow + base + i)), data.getD i 0, bad.contains i)
            let r := match s.cmds.find? fun c => c.id == cmd with
              | some c => engineStore s c m.tag cells
              | none => (s, [])
            let s := tileOver r.1 cmd m.core r.2
            let s := setMatch s kr (isReceiver src tag) (.receiver rb c t id landing slots bar arrived' freed dropped)
            match bar with
            | some o => updateBarrier s m.core m.owner o true 1 len (unionNat m.tag r.2)
            | none => s
          else
            let s := tileOver s cmd m.core []
            let s := setMatch s kr (isReceiver src tag)
              (.receiver rb c t id landing slots bar arrived' ((freed + 1) % 2 ^ 32) ((dropped + 1) % 2 ^ 32))
            let s := sendMsg s kr 0 0 src m.owner (.free tag id 1 (some k)) []
            match bar with
            | some o => updateBarrier s m.core m.owner o true 1 len m.tag
            | none => s
        s
    | _ => tileOver s cmd m.core []
  | _ => s

/-- A tile finds room at its subscriber and what precedes its writes there has settled, or none takes it (R81, R298). -/
def tileRoom (s : State) (m : Msg) : Bool :=
  match m.body with
  | .tile src tag sub _ _ data _ _ =>
    match receiverOf s (ctxKey m.core m.owner) src tag with
    | some (.receiver _ _ _ id landing slots _ arrived freed _) =>
      id != sub || (decide (diff32 arrived freed < slots) && (match tensorAt s (ctxKey m.core m.owner) landing with
        | some l => precedersSettled s m.tag ((upto data.length).filterMap fun i =>
            localLoc s m.core m.owner (tBase l + arrived % slots * landLen l + i))
        | none => true))
    | _ => true
  | _ => true

/-- A tile waits in the inbound queue of its ring: for a bank of its owner, behind an earlier tile of its group, or for its
landing slot (R158, R178, R298). -/
def tileWaits (s : State) (m : Msg) : Bool :=
  (banksOf s m.core m.owner).isEmpty || !tileRoom s m
    || (ringOf s (ringOfCore s m.core)).inbound.any fun e => match heldTile e.2 with
      | some x => sameGroup x m
      | none => false

/-- TILE_ARRIVAL (R298): a tile is written into the next landing slot, or waits for it in the ring's inbound queue. -/
def execTileArrival (idx : Nat) (s : State) : Res :=
  commit s (match s.net[idx]? with
    | none => s
    | some m => match m.body with
      | .tile .. =>
        if !inOrder s m || standsAt s m.id || !railSlot s 2 then s
        else
          let s' := { s with net := dropAt s.net idx }
          if !tileWaits s m then landTile s' m
          else if inboundRoom s (ringOfCore s m.core) then holdInbound s' m.core m.owner (.msg m) else s
      | _ => s)

end Sys2Proof.Machine
end

