-- ==== Sys2Proof/Machine/Pool.lean ====
section
/-! DEFINITION. The pool tier: publication, back-invalidations, exclusivity, the loss of a port or a region, and accesses
from the host and from peers (R97, R98, R230, R341-R349, R390). -/

namespace Sys2Proof.Machine

open Sys2Proof

/-! ### Publish and Apply (R97, R345-R347) -/

/-- The port that carries an address, while its region is live and the port is up. -/
def livePort (s : State) (pa : Nat) : Option Nat :=
  match regionAt s pa with
  | some (_, r) => if r.state = 1 ∧ s.portsLost.contains r.port = false then some r.port else none
  | none => none

/-- First location of a write. -/
def writeBase (s : State) (w : Nat) : Nat := ((wrec s w).bytes.map Prod.fst).headD 0

/-- No write settled earlier at a location of this one still waits for its publication (R97). -/
def publishReady (s : State) (w : Nat) : Bool :=
  (s.log.reverse.takeWhile fun v => v != w).all fun v => !(s.unpub.contains v && sharesLoc s v w)

/-- The owner of a write's context. -/
def writerOwner (r : WRec) : Nat :=
  match r.writer with
  | .ctx k => ctxOwner k
  | _ => 0

/-- PUBLISH (R97, R342): the write-back of a settled pool-coherent write asks for a slot of its pool port, and once that is granted the
pool acknowledges it. -/
def execPublish (write : Nat) (s : State) : Res :=
  commit s (match livePort s (writeBase s write) with
    | none => s
    | some port =>
      let o := writerOwner (wrec s write)
      let id := publishId write
      if !(s.unpub.contains write && s.log.contains write && publishReady s write) || standsAt s id then s
      else if (pointOf s 0x0D port).busy.any fun b => b.id == id then freeAt (charge (publishWrite s write) o 20) [id]
      else portTransfer s o id (writeBase s write))

/-- BISNP_ARRIVAL (R97): an invalidation enters its port's queue; the bytes are the pool's current ones. -/
def execBisnpArrival (port line : Nat) (writes : List (Nat × BitVec 8)) (s : State) : Res :=
  commit s (if livePort s (line * 256) = some port then
      let v : Inval := { id := s.nextId, line := line, writes := writes.filter fun p => p.1 / 256 == line }
      { s with nextId := s.nextId + 1, birq := NMap.put s.birq port (NMap.get s.birq port [] ++ [v]) }
    else s)

/-- Every copy of a line goes without a write-back, its dirty data being published or discarded: the home slice's and every
L1's (R97). -/
def removeLine (s : State) (line : Nat) : State :=
  let s := (s.cores.map Prod.fst).foldl (fun s c => dropL1 s c fun l => l.pa / 256 == line) s
  let ring := homeRing s (line * 256)
  match findWay s ring line with
  | some (i, _) => setRing s ring { ringOf s ring with ways := NMap.del (ringOf s ring).ways i }
  | none => s

/-- A write of a party outside the module settles: what has settled before it at its locations precedes it (R81, R97, R230, R390). -/
def foreignWrite (s : State) (writer : Writer) (bytes : List (Nat × Byte)) : Nat × State :=
  let id := s.nextId
  let locs := bytes.map Prod.fst
  let known := s.log.filter fun w => (wrec s w).bytes.any fun p => locs.contains p.1
  let r : WRec := { writer := writer, frame := 0, act := 0, bytes := bytes, known := known, tag := none, pc := 0, va := 0, pool := false,
                    seq := id }
  (id, settleBytes { s with nextId := id + 1, hist := NMap.put s.hist id r } id)

/-- One Apply step (R97, R353): the line's copies go, the pool's bytes enter, the tile is bumped for the invalidation and the
foreign write it brings, BIRsp answers (R347). -/
def applyInval (s : State) (v : Inval) : State :=
  let s := removeLine s v.line
  let s := { s with exclusive := s.exclusive.filter fun x => x != v.line, birsp := s.birsp + 1,
                    poolMem := v.writes.foldl (fun m p => memPut m p.1 p.2) s.poolMem }
  if v.writes.isEmpty then bumpTile s (v.line / 16) [v.id]
  else
    let r := foreignWrite s .outside v.writes
    bumpTile r.2 (v.line / 16) [v.id, r.1]

/-- APPLY (R97): the oldest invalidation of a port is applied once the line's dirty data is published (R345). -/
def execApply (port : Nat) (s : State) : Res :=
  commit s (match NMap.get s.birq port [] with
    | [] => s
    | v :: r => if (lineUnpub s v.line).isEmpty then applyInval { s with birq := NMap.put s.birq port r } v else s)

/-- POOL_EXCLUSIVE_GRANT (R345): the slice holds the line exclusive. -/
def execPoolExclusiveGrant (line : Nat) (s : State) : Res :=
  commit s (if (livePort s (line * 256)).isSome then { s with exclusive := insNat s.exclusive line } else s)

/-! ### Losing a port or a region (R98, R343, R348) -/

/-- The region that holds an address is one of these. -/
def inRegions (s : State) (rs : List Nat) (pa : Nat) : Bool :=
  match regionAt s pa with
  | some (i, _) => rs.contains i
  | none => false

/-- A returning request, which parks as a read does (R98). -/
def returnsValue (q : Req) : Bool :=
  match q.kind with
  | .amo _ _ ret _ _ _ _ => ret
  | _ => true

/-- Pool address a request is for. -/
def reqPa (q : Req) : Option Nat :=
  match reqTarget q with
  | some (.pa a, _) => some a
  | _ => none

/-- Where a pool-coherent write of a context goes: its bytes, or the target of an atomic not yet performed. -/
def poolPlace (s : State) (w : Nat) : Option Nat :=
  match s.reqs.find? fun q => q.id == w with
  | some q => if returnsValue q then none else reqPa q
  | none => ((wrec s w).bytes.map Prod.fst).head?

/-- A write that a loss discards: its context, region, and what its entry says (R98). -/
structure Discard where
  ctx    : Nat
  region : Nat
  seq    : Nat
  frame  : Nat
  va     : Word
  pc     : Word

/-- Writes that the machine holds and that are discarded as regions become lost, with their regions (R98). -/
def discarded (s : State) (rs : List Nat) : List (Nat × Nat) :=
  s.hist.filterMap fun p =>
    if p.2.pool && (s.unpub.contains p.1 || !s.log.contains p.1) then
      (poolPlace s p.1).bind fun a => match regionAt s a with
        | some (i, _) => if rs.contains i then some (p.1, i) else none
        | none => none
    else none

/-- Copy offsets of a byte run from `lo` on, one in each page of the destination. -/
def pageOffsets (dst : Word) (lo len : Nat) : List Nat :=
  let first := lo + (4096 - (dst.toNat + lo) % 4096)
  (lo :: (upto ((len - lo) / 4096 + 1)).map fun i => first + 4096 * i).filter fun o => decide (o < len)

/-- Addresses of the elements of a record from one on; a channel record has none. -/
def elemVas (t : Option Tensor) (e : Nat) : List Word :=
  match t with
  | some t => if tKind t = 2 then [] else ((upto (tCount t)).drop e).map fun e => tVa t (tIndex t e)
  | none => []

/-- Addresses of the scale bytes that `valign.c8` has still to write, a byte for each block of what it writes (R108). -/
def vecScaleVas (v : VCmd) : List Word :=
  match v.tensor 0, (v.scales[0]?).getD none with
  | some t, some u =>
    if v.op = 0x16 ∧ v.ty = 12 ∧ tKind u ≠ 2 then
      ((((upto v.count).drop v.pos).filter v.enabled).map fun e => blockPlace t u (vBlk v.sub) e).eraseDups.map fun e => tVa u (tIndex u e)
    else []
  | _, _ => []

/-- Addresses of the elements that a vector command has still to write (R98, R312): a `vscat` writes where its indices say, a
`vcmp` one element for each beat, a reduction one for each block, any other its enabled elements; beside them the scale bytes of the
blocks that a command into C8 has still to write. -/
def vecVas (s : State) (v : VCmd) : List Word :=
  let rest := (upto v.count).drop v.pos
  vecScaleVas v ++ match v.tensor 0, v.tensor 1 with
  | some t, some u =>
    if v.op = 0x11 then
      (if tKind t = 2 then []
       else (rest.filter v.enabled).filterMap fun e => match v.read s 2 e 0 with
        | .ok y => if y.raw < tCount t then some (tVa t (tIndex t y.raw)) else none
        | _ => none)
    else if v.op = 0x09 then elemVas (some t) (v.pos / v.lanes)
    else if v.op = 0x0B ∨ v.op = 0x15 then
      let blk := if v.op = 0x0B then tDim u 0 else vBlk v.sub
      elemVas (some t) (v.pos / tDim u 0 * ((tDim u 0 + blk - 1) / blk) + v.pos % tDim u 0 / blk)
    else if tKind t = 2 then []
    else (rest.filter fun e => v.op == 0x0A || v.enabled e).map fun e => tVa t (tIndex t e)
  | some t, none => if tKind t = 2 then [] else (rest.filter v.enabled).map fun e => tVa t (tIndex t e)
  | none, _ => []

/-- Addresses that a command has still to write, one in each page at least (R98). -/
def waitingVas (s : State) (c : Cmd) : List Word :=
  if c.finished then []
  else match c.kind with
    | .copy _ dst len none _ _ chunk 0 _ _ _ _ => (pageOffsets dst (65536 * chunk) len).map fun o => dst + word o
    | .copy _ _ _ (some (_, t)) _ _ chunk 0 _ _ _ _ => elemVas (some t) (65536 * chunk / elemBytes (tFmt t))
    | .vec .. => ((vcmdOf c).map (vecVas s)).getD []
    | .car 7 _ _ t _ _ _ _ => elemVas t 0
    | _ => []

/-- Pool-coherent writes in an engine queue that are discarded as regions become lost (R98). -/
def waitingDiscards (s : State) (rs : List Nat) (c : Cmd) : List Discard :=
  (waitingVas s c).filterMap fun va => match engineWhere s (ctxCore c.ctx) (ctxOwner c.ctx) va 1 with
    | .mem pa x => (match regionAt s pa with
      | some (i, _) =>
        if x.treat = 3 ∧ rs.contains i = true then
          some { ctx := c.ctx, region := i, seq := c.id, frame := c.frame, va := va, pc := c.pc }
        else none
      | none => none)
    | _ => none

/-- Into a list in issue order. -/
def insDiscard (l : List Discard) (x : Discard) : List Discard :=
  l.takeWhile (fun y => decide (y.seq ≤ x.seq)) ++ x :: l.dropWhile fun y => decide (y.seq ≤ x.seq)

/-- One POOL entry of KIND 1 for each context and region, for the first write discarded there in issue order (R98). -/
def reportDiscards (s : State) (l : List Discard) : State :=
  let firsts := (l.foldl insDiscard []).foldl (fun (a : List Discard) x =>
    if a.any fun y => y.ctx == x.ctx && y.region == x.region then a else a ++ [x]) []
  firsts.foldl (fun s x => reportFault s x.ctx x.frame 0x09 x.va x.pc) s

/-- The entries of discarded writes. -/
def discardsOf (s : State) (ds : List (Nat × Nat)) : List Discard :=
  ds.filterMap fun d => let r := wrec s d.1
    (writerCtx r).map fun k => { ctx := k, region := d.2, seq := r.seq, frame := r.frame, va := r.va, pc := r.pc }

/-- What a location of a lost region holds afterwards: the pool's byte, or that of a discarded write the pool received, a
free choice for each write (R98, log 21). -/
def lostByte (s : State) (ws : List Nat) (a : Nat) : Byte :=
  let present := (upto ws.length).filterMap fun i =>
    match ws[i]? with
    | some w => if covers s w a && Config.freeBool (s.free + i) then some (writeByte s w a) else none
    | none => none
  present.getLast?.getD (memRead s.poolMem a)

/-- The word is a fence of pool scope or wider (R88, R98). -/
def wideFence (w : BitVec 32) : Bool :=
  let wide := fun (sc : Scope) => sc == .pool || sc == .sys
  match decodeWord w with
  | .ok (.fenceAll sc) => wide sc
  | .ok (.fenceLd sc) => wide sc
  | .ok (.fenceSt sc) => wide sc
  | .ok (.fenceEng sc) => wide sc
  | _ => false

/-- A parked fence waits for a discarded write, or for an engine command that had one, by context and key (R98). -/
def fenceHit (s : State) (core frame : Nat) (ws : List Nat) (cmds : List (Nat × Nat)) : Bool :=
  match (frameOf s core frame).st with
  | .parked cs => wideFence (frameOf s core frame).word && cs.any fun x => match x with
    | .published l _ => !disjointNat l ws
    | .cmdsDone l => cmds.any fun c => c.1 == ctxKey core (issueOwner s core frame) && l.contains c.2
    | _ => false
  | _ => false

/-- Fences that wait for a discarded write raise POOL (R98): a fence of the handler is a double trap. -/
def faultFences (s : State) (ws : List Nat) (cmds : List (Nat × Nat)) : State :=
  s.cores.foldl (fun s c => c.2.frames.foldl (fun s f =>
    if !fenceHit s c.1 f.1 ws cmds then s
    else
      let s := { s with cur := (c.1, f.1) }
      if handlerOf s c.1 f.1 then doubleTrap s
      else faultPark (writeTrapRegs s 0x09 0 0 f.2.pc f.2.owner) c.1 f.1 0x09 0 f.2.pc none) s) s

/-- Returning atomics on lost regions park with POOL and issue again after `fresume` (R98, R349). -/
def faultReqs (s : State) (rs : List Nat) : State :=
  (s.reqs.filter fun q => returnsValue q && !q.parked && (match reqPa q with
    | some a => isPool a && inRegions s rs a
    | none => false)).foldl (fun s q => parkReq s q 0x09) s

/-- Copies of the regions' lines go, and what the device keeps for them; requests for them leave the points and free their
entries (R98, R342, R348). -/
def purgeRegions (s : State) (rs : List Nat) : State :=
  let gone := fun (line : Nat) => isPool (line * 256) && inRegions s rs (line * 256)
  let lost := fun (a : Nat) => isPool a && inRegions s rs a
  let ids := (s.reads.filter fun r => match r.tgt with | .pa a => lost a | .loc _ _ => false).map Read.id
    ++ (s.reqs.filter fun q => (reqPa q).any lost).map Req.id
  { s with
    points := s.points.map fun p => (p.1, { p.2 with queue := p.2.queue.filter (fun x => !(x.at_.any fun a => lost a.pa)),
                                                     busy := p.2.busy.filter fun b => !ids.contains b.id && !b.pa.any lost })
    cores := s.cores.map fun c => (c.1, { c.2 with l1 := c.2.l1.filter fun l => !gone (l.pa / 256) })
    rings := s.rings.map fun r => (r.1, { r.2 with ways := r.2.ways.filter fun w => !gone w.2.line })
    exclusive := s.exclusive.filter fun l => !gone l
    birq := s.birq.map fun p => (p.1, p.2.filter fun v => !gone v.line) }

/-- Nodes with a tile enrolled in one of the regions (R353). -/
def nodesIn (s : State) (rs : List Nat) : List Nat :=
  s.rings.foldl (fun a r => r.2.tiles.foldl (fun a t =>
    if isPool (t.1 * 4096) && inRegions s rs (t.1 * 4096) then insNat a t.2.1 else a) a) []

/-- The bumps of a loss are rolled up in the step itself, each once at each node of its chain (R353, R361, log 36). -/
def lossBumps (s : State) (rs : List Nat) : State :=
  (nodesIn s rs).foldl (fun s n => (nodeChain s 16 n).foldl (fun s m =>
    nodeWrite (setNode s m { nodeOf s m with count := ((nodeOf s m).count + 1) % 2 ^ 64 }) [(m, 0)]) s) s

/-- A command whose region is lost (R98): a copy with a discarded write ends with status 3, and what a command has still to
write there is discarded. -/
def loseCmd (ws : List Nat) (waits : List Discard) (c : Cmd) : Cmd :=
  let lost := (waits.filter fun x => x.seq == c.id).foldl (fun a x => insNat a x.region) c.lost
  let hit := !disjointNat c.writes ws && !c.finished
  { c with lost := lost, kind := match c.kind with
      | .copy src dst len recs bar ans chunk 0 bad faddr fcause abort =>
        .copy src dst len recs bar ans chunk (if hit then 3 else 0) bad faddr fcause abort
      | k => k }

/-- The device drops discarded writes: they leave their queues, their requests and the waits for them (R98). -/
def dropWrites (s : State) (ws : List Nat) : State :=
  let s := ws.foldl (fun s w => match entryOf s w with
    | some (k, _, e) => discardEntry s k e w
    | none => forgetWrite (cancelAt s [w]) w) s
  { freeAt s ws with unpub := minusNat s.unpub ws, log := minusNat s.log ws, reqs := s.reqs.filter fun q => !ws.contains q.id }

/-- Live regions become lost in one step (R98, R343, R348). -/
def loseRegions (s0 : State) (rs : List Nat) : State :=
  let rs := rs.filter fun i => (NMap.get s0.regions i {}).state == 1
  let s := rs.foldl (fun s i =>
    let r := NMap.get s.regions i {}
    { s with regions := NMap.put s.regions i { r with state := 2, losses := Nat.min (r.losses + 1) (2 ^ 32 - 1) } }) s0
  let ds := discarded s rs
  let ws := ds.map Prod.fst
  let waits := s0.cmds.flatMap (waitingDiscards s0 rs)
  let hit := (s.cmds.filter fun c => !disjointNat c.writes ws || waits.any fun x => x.seq == c.id).map fun c => (c.ctx, 4 * c.num + c.cls)
  let locs := (ws.foldl (fun a w => a ++ (wrec s w).bytes.map Prod.fst) []).foldl insNat []
  let order := s.log.reverse.filter (fun w => ws.contains w) ++ ws.filter fun w => !s.log.contains w
  let after := locs.map fun a => (a, lostByte s order a)
  let s := reportDiscards s (discardsOf s ds ++ waits)
  let s := dropWrites s ws
  let s := { s with free := s.free + ws.length, cmds := s.cmds.map (loseCmd ws waits),
                    poolMem := after.foldl (fun m p => memPut m p.1 p.2) s.poolMem }
  let s := purgeRegions s rs
  let s := if after.isEmpty then s else (foreignWrite s .outside after).2
  faultFences (faultReqs (lossBumps s rs) rs) ws hit

/-- POOL_PORT_LOSS (R348, R390). -/
def execPoolPortLoss (port : Nat) (s : State) : Res :=
  commit s (if 4 ≤ port ∨ s.portsLost.contains port = true then s
    else
      let rs := (s.regions.filter fun p => p.2.port == port).map Prod.fst
      let s := loseRegions s rs
      raiseMsix (setPoint { s with portsLost := insNat s.portsLost port } 0x0D port { pointOf s 0x0D port with queue := [], busy := [] }) 0 0)

/-- POOL_LINK_RECOVERY (R348): the port carries traffic again; lost regions stay lost. -/
def execPoolLinkRecovery (port : Nat) (s : State) : Res :=
  commit s { s with portsLost := s.portsLost.filter fun p => p != port }

/-! ### Accesses of the host and of peers (R230, R390) -/

/-- An access of a party outside reaches the home slices of its sectors at system scope: it joins their L2 ports, which time it alone
(log 49), and M data is recalled. The manual names no owner whose key places their lines: here owner 0's does (R237, R251, R390;
DESIGN CHOICE, log 43). -/
def outsideAccess (s : State) (pa bytes : Nat) (write : Bool) : State :=
  let ps : List Place := (upto ((pa % 64 + bytes + 63) / 64)).map fun i => { pa := pa / 64 * 64 + 64 * i, treat := 0, share := none }
  placesHome (requestHome { s with nextId := s.nextId + 1 } 0 s.nextId write ps) (ctxKey Config.cores 0) ps

/-- A write to device DRAM by a party outside settles at its home slice, and tiles are bumped. -/
def outsideWrite (s : State) (writer : Writer) (pa bytes v : Nat) : State :=
  let cells := cellsAt pa (leBytes v bytes)
  let s := outsideAccess s pa bytes true
  let r := foreignWrite s writer cells
  let locs := cells.map Prod.fst
  let s := markDirty r.2 (locs.foldl (fun a l => insNat a (l / 64)) [])
  (locs.foldl (fun a l => insNat a (l / 4096)) []).foldl (fun s t => bumpTile s t [r.1]) s

/-- The host reads lines at their home slices and keeps copies of them (R341, R390; DESIGN CHOICE, log 43). -/
def hostRead (s : State) (pa bytes : Nat) : State :=
  let s := outsideAccess s pa bytes false
  { s with hostLines := (upto ((pa % 256 + bytes + 255) / 256)).foldl (fun l i => insNat l (pa / 256 + i)) s.hostLines }

/-- The access lies in device DRAM. -/
def outsideOk (pa bytes : Nat) : Bool := decide (pa + bytes ≤ Config.dramEnd)

/-- PEER_ACCESS_ARRIVAL (R230): served at the home slice, in a slot of its array (R393); an address outside device DRAM is refused. -/
def execPeerAccessArrival (link pa bytes : Nat) (write : Option Nat) (s : State) : Res :=
  commit s (if decide (16 ≤ link) || s.linksLost.contains link || !outsideOk pa bytes || !railSlot s 2 then s
    else match write with
      | some v => outsideWrite s .outside pa bytes v
      | none => outsideAccess s pa bytes false)

end Sys2Proof.Machine
end

