-- ==== Sys2Proof/Machine/System.lean ====
section
/-! DEFINITION. Special registers (R53-R57, R149, R150, R367) and the supervisor tables behind WTSEL and WTDAT (R22, R208,
R215, R240, R343, R350, R368, R372, R382-R386, R392, R396). -/

namespace Sys2Proof.Machine

open Sys2Proof

/-! ### BANKMAP, CTDAT and GATE (R130, R153, R367) -/

/-- LIVE of a bank (R367). -/
def bankLive (s : State) (core b : Nat) : Bool :=
  let x := NMap.get (coreOf s core).banks b {}
  let k := ctxKey core x.owner
  let c := ctxOf s k
  let idx := (banksOf s core x.owner).idxOf b
  ((upto 4).any fun i => (frameOf s core (4 * b + i)).st != .free)
    || (s.orphans.any fun o => ctxCore o.1 == core && o.2.1 / 4 == b)
    || (x.valid && ((c.runq.any fun r => r.1 == b) || (c.queue.any fun e => e.bank == b) || (c.barriers.any fun r => r.1 == b)
          || c.headers.any fun h => h.1 / Config.bankBytes == idx))

/-- The fields of a bank as BANKMAP shows them (R367). -/
def bankWord (s : State) (core b : Nat) : Word :=
  let x := NMap.get (coreOf s core).banks b {}
  word (x.owner + b * 2 ^ 12 + b2n x.valid * 2 ^ 15 + b2n x.clean * 2 ^ 16 + b2n (bankLive s core b) * 2 ^ 17)

/-- Sets a bank. -/
def setBank (s : State) (core b : Nat) (x : Bank) : State :=
  setCore s core { coreOf s core with banks := NMap.put (coreOf s core).banks b x }

/-- An owner's tables and its code object on a core go with its last bank (R38, R100, R101, R286). R38 does not say when a core stops
holding a code object: a bank zeroed or taken away before the last leaves it there (DESIGN CHOICE, log 97); nor R296 what becomes of the
match entries of a bank released without a save: they stay in their owner's table (DESIGN CHOICE, log 104). -/
def discardTables (s : State) (core owner : Nat) : State :=
  if (banksOf s core owner).isEmpty then
    let k := ctxKey core owner
    setCtx s k { ctxOf s k with tensors := [], dec := [], coef := [], code := none, decImg := 0, coefImg := [], imgBase := 0,
                                region := 0 }
  else s

/-- BANKLIM of the interface an owner is bound to (R385). -/
def bankLimit (s : State) (owner : Nat) : Nat := (ifaceOf s (ownerOf s owner).iface).banklim

/-- A write of OWNER and VALID to bank BSEL (R367, R385), none where it is refused. -/
def assignBank (s : State) (core b owner : Nat) (valid : Bool) : Option State :=
  let x := NMap.get (coreOf s core).banks b {}
  if valid then
    if x.valid && x.owner == owner then some s
    else if !x.clean || decide (bankLimit s owner ≤ (banksOf s core owner).length) || decide (6144 ≤ physCore s core) then none
    else
      let s := setBank s core b { owner := owner, valid := true, clean := true }
      -- what the old owner's accesses left in a bank that never started an activation (R155)
      some (if x.valid then discardTables (zeroBank s core b) core x.owner else s)
  else if !x.valid then (if x.clean || x.owner == owner then some (setBank s core b { x with owner := owner }) else none)
  else if bankLive s core b || (owner != x.owner && !x.clean) then none
  else
    -- the contents stay, and the bank is zeroed before it is assigned again (R155)
    some (discardTables (setBank s core b { owner := owner, valid := false, clean := false }) core x.owner)

/-- Notes a refused supervisor write (R57). -/
def setWref (s : State) (core : Nat) : State := setCore s core { coreOf s core with wref := true }

/-- The state of a write, or WREF where it is refused. -/
def orWref (s : State) (core : Nat) : Option State → State
  | some t => t
  | none => setWref s core

/-- A write of BANKMAP (R367): RDONLY changes only BSEL. -/
def writeBankmap (s : State) (core : Nat) (v : Word) : State :=
  let b := bits v 14 12
  let s := setCore s core { coreOf s core with bsel := b }
  if bit v 18 then s else orWref s core (assignBank s core b (bits v 11 0) (bit v 15))

/-- A logical core other than `l` maps the physical core. -/
def mappedElsewhere (s : State) (l p : Nat) : Bool :=
  (s.coreTable.any fun q => q.2 == p && q.1 != l) || (decide (p < 6144) && p != l && (NMap.find s.coreTable p).isNone)

/-- Banks of a core that are not clean. -/
def coreDirty (s : State) (core : Nat) : Bool := (coreOf s core).banks.any fun p => !p.2.clean

/-- An item of an inbound queue goes back on its way to the core. -/
def unhold (s : State) : Held → State
  | .msg m => { s with net := m :: s.net }
  | .read id => { s with reads := s.reads.map fun r => if r.id = id then { r with parked := false } else r }
  | .write k id =>
    let c := ctxOf s k
    setCtx s k { c with queue := c.queue.map fun e => if e.id = id then { e with held := false } else e }
  | .req id => { s with reqs := s.reqs.map fun q => if q.id = id then { q with parked := false } else q }

/-- What waits in the inbound queue of the old ring for a core waits in that of the new one, in its order (R158, R159); what
finds no entry there waits outside it (R178). -/
def redirect (s : State) (l old new : Nat) : State :=
  if old = new then s
  else
    let mine := fun (e : Nat × Held) => heldCore s e.2 == some l
    let moved := (ringOf s old).inbound.filter mine
    let room := 256 - (ringOf s new).inbound.length
    let s := setRing s old { ringOf s old with inbound := (ringOf s old).inbound.filter fun e => !mine e }
    let s := setRing s new { ringOf s new with inbound := (ringOf s new).inbound ++ moved.take room }
    (moved.drop room).foldl (fun s e => unhold s e.2) s

/-- A logical core moves to another physical core that nobody maps: banks, copies and translations stay behind; what waits for
it follows (R158). -/
def remapCore (s : State) (l p : Nat) : State :=
  let old := physCore s l
  let ring := ringOfCore s l
  let dirty := if coreDirty s l && decide (old < 6144) then insNat s.dirtySpare old else s.dirtySpare
  let bank : Bank := { owner := 0, valid := false, clean := !dirty.contains p }
  let s := (upto 8).foldl (fun s b => zeroBank s l b) s
  let s := setCore s l { coreOf s l with banks := if bank.clean then [] else (upto 8).map fun b => (b, bank), l1 := [], tlb := [] }
  let s := joinCore { leaveCore s l with coreTable := if p = l then NMap.del s.coreTable l else NMap.put s.coreTable l p,
                                         dirtySpare := dirty.filter fun x => x != p } l
  redirect s l ring (ringOfCore s l)

/-- A write of CTDAT (R367), none where it is refused. -/
def assignCore (s : State) (l p : Nat) : Option State :=
  if 6144 ≤ l ∨ coreHasBank s l = true ∨ (p < 6144 ∧ mappedElsewhere s l p = true) then none
  else if physCore s l = p then some s
  else some (remapCore s l p)

/-- A write of CTDAT on a core. -/
def writeCtdat (s : State) (core : Nat) (v : Word) : State :=
  orWref s core (assignCore s (coreOf s core).ctsel (bits v 12 0))

/-- A read of CTDAT (R367). -/
def readCtdat (s : State) (core : Nat) : Nat :=
  let l := (coreOf s core).ctsel
  if 6144 ≤ l then 0x1FFF else physCore s l % 2 ^ 13

/-- Clks of its Ready age that a frame of a bank has spent gated, as its gate bit is cleared (R132). -/
def ungate (s : State) (core : Nat) (f : Frame) (b : Nat) : Frame :=
  { f with gatedFor := f.gatedFor + gatedNow s core f b }

/-- The gate bits of a core change (R130): the clk of each that is set is kept, and the frames of each that is cleared take
its clks off their Ready age (R132). -/
def setGate (s : State) (core : Nat) (g : BitVec 8) : State :=
  let c := coreOf s core
  let rises := (upto 8).filter fun b => g.getLsbD b && !c.gate.getLsbD b
  let frames := c.frames.map fun p =>
    (p.1, if c.gate.getLsbD (p.1 / 4) && !g.getLsbD (p.1 / 4) then ungate s core p.2 (p.1 / 4) else p.2)
  setCore s core { c with gate := g, frames := frames,
                          gatedAt := rises.foldl (fun m b => NMap.put m b s.clk) (c.gatedAt.filter fun p => g.getLsbD p.1) }

/-- A write of GATE (R130). -/
def writeGate (s : State) (core : Nat) (v : Word) : State := setGate s core (v.setWidth 8)

/-! ### The table rows (R383) -/

/-- KIND a class allows: 0 interface, 1 owner, 2 module; the number of instances; the WTDAT bits the row names. -/
def tableRow (cls : Nat) : List (Nat × Nat × Nat) :=
  match cls with
  | 0x02 => [(1, 384, 2 ^ 5 - 1)]
  | 0x0A => [(2, 16, 2 ^ 56 - 2 ^ 34)]
  | 0x0E => [(1, 1, 2 ^ 16 - 2 ^ 8 + 1)]
  | 0x0F => [(1, 1, 2 ^ 64 - 1)]
  | 0x10 => [(1, 1, 2 ^ 17 - 1)]
  | 0x11 => [(1, 1, 2 ^ 16 - 1)]
  | 0x12 => [(1, 1, 2 ^ 56 - 2 ^ 12)]
  | 0x13 => [(1, 1, 2 ^ 56 - 1)]
  | 0x14 => [(0, 1, 2 ^ 49 - 1)]
  | 0x15 => [(0, 384, 1)]
  | 0x16 => [(0, 1024, 2 ^ 56 - 2 ^ 8 + 1)]
  | 0x17 => [(2, 256, 2 ^ 64 - 1)]
  | 0x18 => [(2, 128, 2 ^ 50 - 1)]
  | 0x19 => [(2, 1, 2 ^ 56 - 2 ^ 22)]
  | 0x1A => [(2, 384, 2 ^ 32 - 1)]
  | 0x1B => [(2, 1, 2 ^ 16 - 1)]
  | 0x1C => [(2, 1, 2 ^ 12 - 1)]
  | 0x1D => [(1, 1, 2 ^ 49 - 1)]
  | c => if (3 ≤ c ∧ c ≤ 9) ∨ c = 0x0D then [(0, 1, 255), (1, 1, 255)] else []

/-- The entry exists (R382, R383). -/
def entryOk (cls kind id inst : Nat) : Bool :=
  (tableRow cls).any fun r => r.1 == kind && decide (inst < r.2.1)
    && (if kind = 0 then decide (id < 256) else if kind = 1 then decide (id < 4096) else id == 0)

/-- The value sets no bit that the row does not name. -/
def valueOk (cls v : Nat) : Bool := (tableRow cls).any fun r => Nat.land v r.2.2 == v

/-- Sum of the weights of live owners at a class, of one interface or of all, but for one owner. -/
def weightSum (s : State) (cls : Nat) (iface : Option Nat) (but : Option Nat) : Nat :=
  sumNat ((liveOwners s).map fun o =>
    if some o = but ∨ (match iface with | some i => (ownerOf s o).iface != i | none => false) = true then 0 else weightOf s o cls)

/-- A weight of an interface or an owner (R22, R383). -/
def writeWeight (s : State) (cls kind id v : Nat) : Option State :=
  if kind = 0 then
    if v < weightSum s cls (some id) none then none
    else some (setIface s id { ifaceOf s id with weights := NMap.put (ifaceOf s id).weights cls v })
  else
    let w := ownerOf s id
    let lim := NMap.get (ifaceOf s w.iface).weights cls 0
    if !w.live || decide (lim < weightSum s cls (some w.iface) (some id) + v) || decide (256 < weightSum s cls none (some id) + v) then none
    else some (setOwner s id { w with weights := NMap.put w.weights cls v })

/-- A way quota (R240). -/
def writeQuota (s : State) (owner ring v : Nat) : Option State :=
  let w := ownerOf s owner
  let others := sumNat (s.owners.map fun p => if p.1 = owner then 0 else NMap.get p.2.quotas ring 0)
  if !w.live || decide (16 < others + v) then none
  else some (setOwner s owner { w with quotas := NMap.put w.quotas ring v })

/-- The owner holds a bank on some core. -/
def ownerBanked (s : State) (o : Nat) : Bool := s.cores.any fun c => c.2.banks.any fun b => b.2.valid && b.2.owner == o

/-- An owner's buckets go at every L2 port; one that comes into being is full (R215). -/
def clearBuckets (s : State) (o : Nat) : State :=
  { s with points := s.points.map fun p => (p.1, { p.2 with levels := NMap.del p.2.levels o }) }

/-- Creation of an owner (R19, R55, R93, R188, R208, R215, R221, R286, R350, R383): its contexts begin anew on every core, and
the key is the one its class 0x0F entry holds. -/
def createOwner (s : State) (o iface : Nat) : Option State :=
  let w := ownerOf s o
  if o = 0 ∨ w.live = true then none
  else
    let s := clearBuckets (settlePorts s) o
    let s := { s with ctxs := s.ctxs.filter (fun c => ctxOwner c.1 != o), copies := s.copies.filter (fun c => ctxOwner c.ctx != o),
                      prefetches := s.prefetches.filter (fun p => p.owner != o), walks := s.walks.filter (fun w => w.owner != o),
                      rings := s.rings.map fun r => (r.1, { r.2 with branches := r.2.branches.filter fun b => b.owner != o }) }
    some (setOwner s o { live := true, iface := iface, key := w.key, root := w.root, desc := w.desc, vector := w.vector,
                         lostSeen := w.lostSeen })

/-- Nodes and tile entries of an owner are freed (R350). -/
def freeNodes (s : State) (o : Nat) : State :=
  let mine := fun (n : Nat) => (nodeOf s n).live && (nodeOf s n).owner == o
  let s1 := { s with nodes := s.nodes.map fun p => (p.1, if p.2.owner = o then { p.2 with live := false } else p.2),
                     rings := s.rings.map fun r => (r.1, { r.2 with tiles := r.2.tiles.filter fun t => !mine t.2.1 }) }
  let ws := nodeChanges s s1
  if ws.isEmpty then s1 else nodeWrite s1 ws

/-- Lines of an owner in every slice are written back and invalidated (R242). -/
def evictOwner (s : State) (o : Nat) : State :=
  s.rings.foldl (fun s r => (r.2.ways.filter fun w => w.2.holder == o).foldl (fun s w => evictWay s r.1 w.1) s) s

/-- Destruction of an owner (R383): its weights, quotas and key become 0. What it says of no other entry stands (DESIGN
CHOICE, log 79). -/
def destroyOwner (s : State) (o : Nat) : Option State :=
  let running := s.ifaces.any fun i => i.2.records.any fun r => r.2.state == .running && r.2.owner == o
  let queued := s.ctxs.any fun c => ctxOwner c.1 == o && !c.2.runq.isEmpty
  if o = 0 ∨ ownerBanked s o = true ∨ queued = true ∨ running = true then none
  else
    let s := clearBuckets (settlePorts (evictOwner (freeNodes s o) o)) o
    some (setOwner s o { ownerOf s o with live := false, iface := 0, weights := [], quotas := [], nodeQuota := 0, key := 0, ebit := false,
                                          sweep := false, oldKey := 0, streams := [] })

/-- A key by class 0x0F (R208, R383): streams restart, from the clk after the write. -/
def writeKey (s : State) (o : Nat) (v : Word) : Option State :=
  let w := ownerOf s o
  if ownerBanked s o || w.sweep then none
  else if w.live then some (restartStreams (setOwner (pass s 1) o { ownerOf (pass s 1) o with key := v }) o)
  else some (setOwner s o { w with key := v })

/-- QUANTUM, BANKLIM and NOWN (R385). -/
def writeQuantum (s : State) (i : Nat) (v : Word) : Option State :=
  let q := bits v 31 0
  let bl := bits v 35 32
  let nown := bits v 47 36
  let w := 8192 * bl
  if q = 0 ∨ bl = 0 ∨ 8 < bl ∨ (nown ≠ 0 ∧ ((ownerOf s nown).live = false ∨ (ownerOf s nown).iface ≠ i)) then none
  else some (setIface s i { ifaceOf s i with quantum := Nat.max q w, banklim := bl, nown := nown, qraised := decide (q < w) })

/-- PART of a ring (R384). -/
def writePart (s : State) (i ring : Nat) (v : Nat) : Option State :=
  let r := ringOf s ring
  match r.part with
  | some j => if j ≠ i then none else some (setRing s ring { r with part := if v = 1 then some i else none })
  | none => some (if v = 1 then setRing s ring { r with part := some i } else s)

/-- A record's image is within the limits of R190 and R40 (R386). -/
def imageOk (w : List Nat) : Bool :=
  let g := fun (i : Nat) => w.getD i 0
  let f := word (g 1)
  let l := fmtLevels f
  let ws := (upto l).map fun j => fmtWidthOf f j
  g 0 / 2 ^ 19 % 4 != 3 && decide (1 ≤ l) && decide (l ≤ 6) && (ws.all fun x => decide (x ≤ 64)) && decide (sumNat ws ≤ 64)
    && decide (1 ≤ g 11 % 2 ^ 32) && rangeOk (g 10 % 2 ^ 13) (g 10 / 2 ^ 16 % 2 ^ 13) && doneOk (word (g 9))

/-- A build of a launch record (R386). -/
def buildRecord (s : State) (i n addr : Nat) : Option State :=
  let w := (upto 32).map fun j => rdNat s (addr + 8 * j) 8
  let g := fun (j : Nat) => w.getD j 0
  if (recOf s i n).state = .running ∨ Config.dramEnd < addr + 256 ∨ imageOk w = false then none
  else
    let w0 := g 0
    some (setRec s i n
      { state := .idle, entry := w0 / 4 % 2 ^ 17 * 4, policy := w0 / 2 ^ 19 % 4, det := w0 / 2 ^ 21 % 2 == 1,
        early := w0 / 2 ^ 22 % 2 == 1, fuse := w0 / 2 ^ 23 % 2 == 1, fmt := word (g 1 % 2 ^ 45),
        counts := (upto 6).map fun j => word (g (2 + j)), param := word (g 8), done := word (g 9), first := g 10 % 2 ^ 13,
        ncores := g 10 / 2 ^ 16 % 2 ^ 13, quantum := Nat.max (g 11 % 2 ^ 32) (ifaceOf s i).quantum, image := addr / 2 ^ 8 })

/-- A build or a free through class 0x16 (R386). -/
def writeRecord (s : State) (i n : Nat) (v : Word) : Option State :=
  if bit v 0 then
    if (recOf s i n).state = .running then none else some (setRec s i n { recOf s i n with state := .unbuilt })
  else buildRecord s i n (bits v 55 8 * 2 ^ 8)

/-- No copy of a region is left in the device (R343). -/
def regionClear (s : State) (i : Nat) : Bool :=
  let inR := fun (pa : Nat) => isPool pa && inRegions s [i] pa
  !(s.cores.any fun c => c.2.l1.any fun l => inR l.pa) && !(s.rings.any fun r => r.2.ways.any fun w => inR (w.2.line * 256))
    && !(s.unpub.any fun w => inR (writeBase s w))

/-- Two ranges in GiB overlap. -/
def overlap (b1 n1 b2 n2 : Nat) : Bool := decide (b1 < b2 + n2) && decide (b2 < b1 + n1)

/-- A region entry (R343). A STATE of 3 is discarded: the entry keeps its STATE, and the write is one of that STATE. -/
def writeRegion (s : State) (i : Nat) (v : Word) : Option State :=
  let r := NMap.get s.regions i {}
  let base := bits v 29 0
  let size := bits v 45 30
  let port := bits v 47 46
  let st := if bits v 49 48 = 3 then r.state else bits v 49 48
  let moved := !(base == r.base && size == r.size && port == r.port)
  let clash := s.regions.any fun p => p.1 != i && p.2.state != 0 && overlap base size p.2.base p.2.size
  let put := some { s with regions := NMap.put s.regions i { base := base, size := size, port := port, state := st, losses := r.losses } }
  if r.state = 1 then
    if moved || st == 0 then none
    else if st = 2 then some (loseRegions s [i]) else some s
  else if st = 2 then (if r.state = 2 then some s else none)
  else if r.state = 2 ∧ regionClear s i = false then none
  else if st = 1 ∧ (base < 0x400 ∨ size = 0 ∨ clash = true) then none
  else put

/-- A fault descriptor is placed (R368): LOG2 has its reset value 4 where nothing has written it. The manual does not say when
the reset value enters memory (DESIGN CHOICE, log 78). -/
def placeDescriptor (s : State) (d : Nat) : State :=
  if d ≠ 0 ∧ rdNat s (d + 8) 8 = 0 ∧ (s.log.any fun w => covers s w (d + 8)) = false then setInitial s (cellsAt (d + 8) [4])
  else s

/-- A write of WTDAT to the selected entry, none where it is refused (R383). -/
def tableWrite (s : State) (cls kind id inst : Nat) (v : Word) : Option State :=
  let n := v.toNat
  if !entryOk cls kind id inst || !valueOk cls n then none
  else match cls with
    | 0x02 => writeQuota s id inst n
    | 0x0A => some { s with peerBase := NMap.put s.peerBase inst n }
    | 0x0E => if bit v 0 then createOwner s id (bits v 15 8) else destroyOwner s id
    | 0x0F => writeKey s id v
    | 0x10 =>
      if 256 < bits v 8 0 ∨ bits v 16 9 = 0 then none
      else some (setOwner (settlePorts s) id { ownerOf s id with rate := bits v 8 0, depth := bits v 16 9 })
    | 0x11 => some (setOwner s id { ownerOf s id with nodeQuota := n })
    | 0x12 => if Config.dramEnd ≤ n then none else some (setOwner s id { ownerOf s id with root := n })
    | 0x13 =>
      if Config.dramEnd ≤ n / 64 * 64 then none
      else
        let d := n / 64 * 64
        let t := placeDescriptor s d
        let w := ownerOf s id
        let seen := if d = w.desc then w.lostSeen else rdNat t (d + 40) 4
        some (setOwner t id { w with desc := d, vector := n % 64, lostSeen := seen })
    | 0x14 => writeQuantum s id v
    | 0x15 => writePart s id inst n
    | 0x16 => writeRecord s id inst v
    | 0x17 => some { s with sharingKeys := NMap.put s.sharingKeys inst v }
    | 0x18 => if 64 ≤ inst then none else writeRegion s inst v
    | 0x19 => if (s.nodes.any fun p => p.2.live) || decide (Config.dramEnd ≤ n) then none else some { s with nodeBase := n }
    | 0x1A => if n ≠ 0 then none else some (setRing s inst { ringOf s inst with absent := 0 })
    | 0x1B => some { s with linkMask := v.setWidth 16 }
    | 0x1C => none
    | 0x1D => if n ≠ 0 then none else some (setOwner s id { ownerOf s id with ectr := 0, ectrSat := false })
    | c => writeWeight s c kind id n

/-- A region's words (R343). -/
def regionWord (s : State) (inst : Nat) : Nat :=
  let r := NMap.get s.regions (inst % 64) {}
  if inst < 64 then r.base + r.size * 2 ^ 30 + r.port * 2 ^ 46 + r.state * 2 ^ 48 else r.losses

/-- ECTR (R55). -/
def ectrWord (w : Owner) : Word := word (w.ectr + b2n w.ectrSat * 2 ^ 48)

/-- A read of WTDAT (R382, R383). -/
def tableRead (s : State) (cls kind id inst : Nat) : Word :=
  let w := ownerOf s id
  let f := ifaceOf s id
  if !entryOk cls kind id inst then 0
  else match cls with
    | 0x02 => word (NMap.get w.quotas inst 0)
    | 0x0A => word (NMap.get s.peerBase inst 0)
    | 0x0E => word (b2n w.live + w.iface * 2 ^ 8)
    | 0x0F => w.key
    | 0x10 => word (w.rate + w.depth * 2 ^ 9)
    | 0x11 => word w.nodeQuota
    | 0x12 => word w.root
    | 0x13 => word (w.desc + w.vector)
    | 0x14 => word (f.quantum + f.banklim * 2 ^ 32 + f.nown * 2 ^ 36 + b2n f.qraised * 2 ^ 48)
    | 0x15 => word (b2n ((ringOf s inst).part == some id))
    | 0x16 => word ((recOf s id inst).image * 2 ^ 8 + lstateCode (recOf s id inst).state)
    | 0x17 => NMap.get s.sharingKeys inst 0
    | 0x18 => word (regionWord s inst)
    | 0x19 => word s.nodeBase
    | 0x1A => word (ringOf s inst).absent
    | 0x1B => s.linkMask.setWidth 64
    | 0x1C => word (railLevel s 0 + railLevel s 1 * 2 ^ 3 + railLevel s 2 * 2 ^ 6 + railLevel s 3 * 2 ^ 9)
    | 0x1D => ectrWord w
    | c => word (if kind = 0 then NMap.get f.weights c 0 else NMap.get w.weights c 0)

/-- The entry WTSEL selects (R382): CLASS, KIND, ID, INST. -/
def selected (v : Word) : Nat × Nat × Nat × Nat := (bits v 4 0, bits v 6 5, bits v 18 7, bits v 28 19)

/-! ### `mfs` and `mts` (R54-R57, R149, R150) -/

/-- The value of a special register for the issuing frame (R54-R57, R367, R382), none where no register has the number. -/
def readSpecial (s : State) (n : Nat) : Option Word :=
  let f := curFrame s
  let c := curCore s
  let w := ownerOf s (curOwner s)
  match n with
  | 0x000 => some f.wid
  | 0x001 => some f.wfmt
  | 0x002 => some (word s.cur.1)
  | 0x003 => some (word (curOwner s))
  | 0x004 => some (word s.clk)
  | 0x005 => some (word f.rmode)
  | 0x006 => some (word f.fflags)
  | 0x007 => some w.key
  | 0x008 => some (word (b2n w.ebit + b2n w.sweep * 2))
  | 0x009 => some (ctxOf s (curCtx s)).lseed
  | 0x00A => some (if !inHandler s && detLin s f.lin then word (ctxOf s (curCtx s)).qret else 0)
  | 0x00B => some (ectrWord w)
  | 0x00C => some (word s.cur.2)
  | 0x00D => some (word (f.reply * 4))
  | 0x00E => some (word (leaseLen s s.cur.1 (curOwner s)))
  | 0x100 => some (word c.evec)
  | 0x101 => some (c.epc &&& 0x7FFFC)
  | 0x102 => some c.ecause
  | 0x103 => some c.eaddr
  | 0x104 => some (word (b2n c.sup + b2n c.wref * 2))
  | 0x105 => some (bankWord s s.cur.1 c.bsel)
  | 0x106 => some (c.gate.setWidth 64)
  | 0x107 => some (word c.ctsel)
  | 0x108 => some (word (readCtdat s s.cur.1))
  | 0x109 => some s.wtsel
  | 0x10A => some (tableRead s (selected s.wtsel).1 (selected s.wtsel).2.1 (selected s.wtsel).2.2.1 (selected s.wtsel).2.2.2)
  | _ => none

/-- A write of a special register, field by field (R150); KEY is written by its own request. -/
def writeSpecial (s : State) (n : Nat) (v : Word) : State :=
  let c := curCore s
  match n with
  | 0x005 => if bits v 2 0 ≤ 4 then setCur s { curFrame s with rmode := bits v 2 0 } else s
  | 0x006 => setCur s { curFrame s with fflags := bits v 4 0 }
  | 0x009 => setCtx s (curCtx s) { ctxOf s (curCtx s) with lseed := v }
  | 0x00D => setCur s { curFrame s with reply := bits v 18 2 }
  | 0x00E =>
    let w := ownerOf s (curOwner s)
    let old := if w.leaseSet.1 = s.clk + 1 then w.leaseSet.2.2 else w.lease
    setOwner s (curOwner s) { w with lease := bits v 31 0, leaseSet := (s.clk + 1, s.cur.1, old) }
  | 0x100 => setCore s s.cur.1 { c with evec := bits v 18 2 * 4 }
  | 0x101 => setCore s s.cur.1 { c with epc := v &&& 0x7FFFC }
  | 0x104 => setCore s s.cur.1 { c with wref := c.wref && !bit v 1 }
  | 0x105 => writeBankmap s s.cur.1 v
  | 0x106 => writeGate s s.cur.1 v
  | 0x107 => setCore s s.cur.1 { c with ctsel := bits v 12 0 }
  | 0x108 => writeCtdat s s.cur.1 v
  | 0x109 => { s with wtsel := v &&& 0x1FFFFFFF }
  | 0x10A =>
    let e := selected s.wtsel
    orWref s s.cur.1 (tableWrite s e.1 e.2.1 e.2.2.1 e.2.2.2 v)
  | _ => s

/-- A word that names no special register is rejected by the decoder; here it is ILL with SUB 5 (R57). -/
def illSpecial (s : State) : State := trap s 0x01 5 ((curFrame s).word.setWidth 64)

/-- `mfs` (R149). -/
def execMfs (d : Reg) (n : BitVec 16) (s : State) : Res :=
  commit s (match readSpecial s n.toNat with
    | some v => finish s d v
    | none => illSpecial s)

/-- `mts` (R150). -/
def execMts (a : Reg) (n : BitVec 16) (s : State) : Res :=
  commit s (match readSpecial s n.toNat with
    | none => illSpecial s
    | some _ =>
      if n = 0x007 then keyRequest s (.key (curOwner s) (rd s a) false) none
      else retire4 (writeSpecial s n.toNat (rd s a)))

/-! ### Writes of the tables as steps of the part (R382-R386) -/

/-- The value of WTSEL that selects an entry (R382). -/
def selectWord (cls kind id inst : Nat) : Word := word (cls + kind * 2 ^ 5 + id * 2 ^ 7 + inst * 2 ^ 19)

/-- What the host's driver reads from WTDAT through the page of the physical function (R382). -/
def hostWtdat (s : State) : Word :=
  tableRead s (selected s.wtsel).1 (selected s.wtsel).2.1 (selected s.wtsel).2.2.1 (selected s.wtsel).2.2.2

/-- The host's driver selects an entry and writes it through the page of the physical function: an accepted write changes the
table, a refused one sets WREF. The manual gives SSTAT to cores, and names none for a write of the host: here it is core 0's (R57,
R382, R383; DESIGN CHOICE, log 98). -/
def tableStep (s : State) (cls kind id inst : Nat) (v : Word) : Res :=
  let t := { s with wtsel := selectWord cls kind id inst }
  commit s (orWref t 0 (tableWrite t cls kind id inst v))

/-- Where the page of the physical function with WTSEL and WTDAT stands for the host; the manual gives it no address (R382; DESIGN
CHOICE, log 98). -/
def pfPage : Nat := 2 ^ 56

/-- The host's driver reads or writes WTSEL or WTDAT alone (R382). -/
def hostPair (s : State) (pa : Nat) (write : Option Nat) : State :=
  match write with
  | none => s
  | some v =>
    if pa = pfPage then { s with wtsel := word v &&& 0x1FFFFFFF }
    else if pa = pfPage + 8 then
      let e := selected s.wtsel
      orWref s 0 (tableWrite s e.1 e.2.1 e.2.2.1 e.2.2.2 (word v))
    else s

/-- HOST_MEMORY_ACCESS (R382, R390): HDM-DB accesses of the host, in a slot of the home slices' arrays (R393), and those of its driver to
the pair WTSEL and WTDAT. -/
def execHostMemoryAccess (pa bytes : Nat) (write : Option Nat) (s : State) : Res :=
  commit s (if pfPage ≤ pa then hostPair s pa write
    else if !outsideOk pa bytes || !railSlot s 2 then s
    else match write with
      | some v => outsideWrite s .host pa bytes v
      | none => hostRead s pa bytes)

/-- GATE_WRITE (R130). -/
def execGateWrite (core : Nat) (value : BitVec 64) (s : State) : Res := commit s (writeGate s core value)
/-- BANKMAP_WRITE (R367). -/
def execBankmapWrite (core : Nat) (value : BitVec 64) (s : State) : Res := commit s (writeBankmap s core value)
/-- BANKMAP_SELECT (R367). -/
def execBankmapSelect (core : Nat) (value : BitVec 64) (s : State) : Res :=
  commit s (setCore s core { coreOf s core with bsel := bits value 14 12 })
/-- CTDAT_WRITE (R367). -/
def execCtdatWrite (core : Nat) (value : BitVec 64) (s : State) : Res := commit s (writeCtdat s core value)
/-- WAY_QUOTA (R240). -/
def execWayQuota (owner ring : Nat) (value : BitVec 64) (s : State) : Res := tableStep s 0x02 1 owner ring value
/-- INTERFACE_WEIGHT (R383): a structure class. -/
def execInterfaceWeight (iface cls : Nat) (value : BitVec 64) (s : State) : Res :=
  if slotClass cls then tableStep s cls 0 iface 0 value else .next s
/-- OWNER_WEIGHT (R22). -/
def execOwnerWeight (owner cls : Nat) (value : BitVec 64) (s : State) : Res :=
  if slotClass cls then tableStep s cls 1 owner 0 value else .next s
/-- PEER_WINDOW_BASE (R230). -/
def execPeerWindowBase (link : Nat) (value : BitVec 64) (s : State) : Res := tableStep s 0x0A 2 0 link value
/-- OWNER_CREATE (R383). -/
def execOwnerCreate (owner iface : Nat) (s : State) : Res := tableStep s 0x0E 1 owner 0 (word (1 + iface * 2 ^ 8))
/-- OWNER_DESTROY (R383). -/
def execOwnerDestroy (owner : Nat) (s : State) : Res := tableStep s 0x0E 1 owner 0 0
/-- OWNER_KEY (R208). -/
def execOwnerKey (owner : Nat) (value : BitVec 64) (s : State) : Res := tableStep s 0x0F 1 owner 0 value
/-- BUCKET (R215). -/
def execBucket (owner : Nat) (value : BitVec 64) (s : State) : Res := tableStep s 0x10 1 owner 0 value
/-- NODE_QUOTA (R350). -/
def execNodeQuota (owner : Nat) (value : BitVec 64) (s : State) : Res := tableStep s 0x11 1 owner 0 value
/-- SHADOW_TABLE_ROOT (R372). -/
def execShadowTableRoot (owner : Nat) (value : BitVec 64) (s : State) : Res := tableStep s 0x12 1 owner 0 value
/-- FAULT_DESCRIPTOR (R368). -/
def execFaultDescriptor (owner : Nat) (value : BitVec 64) (s : State) : Res := tableStep s 0x13 1 owner 0 value
/-- QUANTUM (R385). -/
def execQuantum (iface : Nat) (value : BitVec 64) (s : State) : Res := tableStep s 0x14 0 iface 0 value
/-- PARTITION (R384). -/
def execPartition (iface ring : Nat) (value : BitVec 64) (s : State) : Res := tableStep s 0x15 0 iface ring value
/-- RECORD_BUILD (R386): the value with OP 0. -/
def execRecordBuild (iface index : Nat) (value : BitVec 64) (s : State) : Res :=
  if bit value 0 then .next s else tableStep s 0x16 0 iface index value
/-- RECORD_FREE (R386). -/
def execRecordFree (iface index : Nat) (s : State) : Res := tableStep s 0x16 0 iface index 1
/-- SHARING_KEY (R383). -/
def execSharingKey (index : Nat) (value : BitVec 64) (s : State) : Res := tableStep s 0x17 2 0 index value
/-- REGION_WRITE (R343). -/
def execRegionWrite (index : Nat) (value : BitVec 64) (s : State) : Res := tableStep s 0x18 2 0 index value
/-- REGION_MARK_LOST (R343): a write of STATE 2 with the entry's fields. -/
def execRegionMarkLost (index : Nat) (s : State) : Res :=
  let r := NMap.get s.regions index {}
  tableStep s 0x18 2 0 index (word (r.base + r.size * 2 ^ 30 + r.port * 2 ^ 46 + 2 * 2 ^ 48))
/-- NODE_STORE_BASE (R383). -/
def execNodeStoreBase (value : BitVec 64) (s : State) : Res := tableStep s 0x19 2 0 0 value
/-- ABSENT_PROBE_CLEAR (R383). -/
def execAbsentProbeClear (ring : Nat) (value : BitVec 64) (s : State) : Res := tableStep s 0x1A 2 0 ring value
/-- SLOW_DOWN_LINK_MASK (R392). -/
def execSlowDownLinkMask (value : BitVec 64) (s : State) : Res := tableStep s 0x1B 2 0 0 value
/-- ECTR_CLEAR (R396). -/
def execEctrClear (owner : Nat) (value : BitVec 64) (s : State) : Res := tableStep s 0x1D 1 owner 0 value

end Sys2Proof.Machine
end

