-- ==== Sys2Proof/Machine/Context.lean ====
section
/-! DEFINITION. Walks, the release of parked frames, the inbound queue, and the supervisor instructions of major 0x3A with
context images (R127, R158, R178, R181, R371-R380). -/

namespace Sys2Proof.Machine

open Sys2Proof

/-! ### PARK_RELEASE (R127) -/

/-- The context a frame acts as now. -/
def frameCtx (s : State) (core frame : Nat) : Nat := ctxKey core (issueOwner s core frame)

/-- An engine command is done (R95). -/
def cmdDone (s : State) (k key : Nat) : Bool := !(s.cmds.any fun c => c.ctx == k && c.num == key / 4 && c.cls == key % 4)

/-- A read or a request is parked on a recoverable fault of its frame, a half of a `ld.q` on that of either half. -/
def faultParked (s : State) (core frame id : Nat) : Bool :=
  faultOn (frameOf s core frame) id
    || s.reads.any fun r => r.id == id && r.parked && decide (r.pair ≠ 0) && faultOn (frameOf s core frame) r.pair

/-- A request that an image records, to be issued again after the load (R187, R282, R378). -/
def recordedReq (s : State) (core : Nat) (q : Req) : Bool :=
  faultParked s core q.frame q.id || match q.kind with
    | .ordered .. => true
    | .cap op _ _ => op == 3
    | .tinit .. => true
    | _ => false

/-- A request that a save does not wait for: it is recorded, or no answer of it is owed (R282, R378). -/
def savedAway (s : State) (core : Nat) (q : Req) : Bool :=
  recordedReq s core q || match q.kind with
    | .amo _ _ ret _ _ _ _ => !ret
    | .key _ _ reseed => !reseed
    | _ => false

/-- A save does not wait for an owed result: its access is recorded, or it is the count that ends a quantum (R204). -/
def owedSaved (s : State) (core frame : Nat) (f : Frame) (o : Owed) : Bool :=
  faultParked s core frame o.id || (s.reqs.any fun q => q.id == o.id && savedAway s core q)
    || match f.st with
      | .parked cs => cs.any fun c => match c with | .quantum _ _ _ id => id == o.id | _ => false
      | _ => false

/-- The frame is parked, but on no fault, in an instruction that a save, or here a save or a move, waits for (R197, R260, R363):
`wb`, `inv`, `flush`, `lrenew`, `larm`, `lpatch` and `lstat`, and for both `cnode`, `cenr`, `cdrop`, `cmove` and `cread`. -/
def holdsDrain (swap : Bool) (f : Frame) : Bool :=
  match f.st with
  | .parked cs => !(cs.any fun c => match c with | .fault .. => true | _ => false) && (match decodeWord f.word with
    | .ok (.wb _ _) => swap
    | .ok (.inv _ _) => swap
    | .ok (.flush _ _) => swap
    | .ok (.lrenew _ _) => swap
    | .ok (.larm _ _) => swap
    | .ok (.lpatch _ _ _) => swap
    | .ok (.lstat _ _ _) => swap
    | .ok (.cread _ _ _) => true
    | .ok (.cnode _ _) => true
    | .ok (.cenr _ _ _) => true
    | .ok (.cdrop _ _ _) => true
    | .ok (.cmove _ _ _) => true
    | _ => false)
  | _ => false

/-- Frames of an owner on a core. -/
def ownerFrames (s : State) (core owner : Nat) : List (Nat × Frame) :=
  (coreOf s core).frames.filter fun p => p.2.st != .free && (banksOf s core owner).contains (p.1 / 4)

/-- The drain of a save, or of a move, is over (R99, R151, R228, R260, R282, R302, R321, R345, R363, R378): queue and windows
of ended activations, engine commands, reads, requests, refusals, owed results, and publication. -/
def drained (s : State) (core owner : Nat) (swap : Bool) : Bool :=
  let k := ctxKey core owner
  (ctxOf s k).queue.isEmpty && !(s.cmds.any fun c => c.ctx == k) && !(s.orphans.any fun o => o.1 == k)
    && (s.reads.all fun r => r.ctx != k || faultParked s core r.frame r.id)
    && (s.reqs.all fun q => q.ctx != k || savedAway s core q)
    && !(s.refusals.any fun b => b.ctx == k) && !(s.held.any fun h => h.ctx == k && h.arm.isSome)
    && !(s.unpub.any fun w => writerCtx (wrec s w) == some k)
    && ((ownerFrames s core owner).all fun p =>
      (p.2.owed.all fun o => owedSaved s core p.1 p.2 o) && !holdsDrain swap p.2)

/-- A condition of a parked frame holds (R127). -/
def condHolds (s : State) (core frame : Nat) (c : Cond) : Bool :=
  let f := frameOf s core frame
  let k := frameCtx s core frame
  let here := { s with cur := (core, frame) }
  match c with
  | .segment b => decide (1 ≤ segmentRoom s k b)
  | .atomics => !atomicsFull s k
  | .settled es rs =>
    ((ctxOf s k).queue.all fun e => !es.contains e.id) && (s.reads.all fun r => !rs.contains r.id)
      && (s.reqs.all fun q => !rs.contains q.id)
      && (s.rings.all fun r => r.2.groups.all fun g => g.2.window.all fun e => !rs.contains e.2.wid)
  | .published ids _ => ids.all (isPublished s)
  | .acked ids => ids.all (isAcked s)
  | .applied ids => ids.all fun i => !invalQueued s i
  | .cmdsDone keys => keys.all (cmdDone s k)
  | .cmdRoom cls n => decide ((s.cmds.filter fun c => c.ctx == k && c.cls == cls).length < n)
  | .timeline cls v => decide (v ≤ (engOf (ctxOf s k) cls).counter)
  | .answer id => f.owed.all fun o => o.id != id || o.val.isSome
  | .full h c n => (match liveHeader s k h with | some x => decide (n ≤ fullSlots x c) | none => true)
  | .room h c n => (match liveHeader s k h with | some x => decide (n ≤ freeSlots x c) | none => true)
  | .handle h => !handleTaken here h
  | .window w => !windowHeld s k frame w
  | .credit w => (match NMap.find f.windows w with | some x => decide (diff32 x.sent x.ack < x.win) | none => true)
  | .walk id => !(s.walks.any fun w => w.id == id)
  | .fault .. => false
  | .mailbox src tag v =>
    if src = core then
      (match sourceOf s k tag with
       | some (.source _ _ _ mail _ _ _) => decide (diff32 mail v < 2 ^ 31)
       | _ => true)
    else (match receiverOf s k src tag with
       | some (.receiver _ _ _ _ _ _ _ arrived _ _) => decide (diff32 arrived v < 2 ^ 31)
       | _ => true)
  | .lease => f.lease.isSome
  | .bumps n ids => !(s.bumps.any fun b => b.chain.contains n && !disjointNat b.cause ids)
  | .resumes id => !(s.net.any fun m => match m.body with | .resume _ _ i => i == id | _ => false)
  | .users ids =>
    (s.reads.all fun r => !ids.contains r.id || faultParked s (ctxCore r.ctx) r.frame r.id)
      && (s.reqs.all fun q => !ids.contains q.id || faultParked s (ctxCore q.ctx) q.frame q.id)
      && (s.ctxs.all fun c => c.2.queue.all fun e => !ids.contains e.id)
      && (s.rings.all fun r => r.2.groups.all fun g => g.2.window.all fun e => !ids.contains e.2.wid)
  | .quantum i n k _ => (recOf s i n).quanta != k
  | .drained o => drained s core o true
  | .wake n => decide (n < (coreOf s core).wakes)

/-- A parked frame's conditions all hold: it is Waiting (R127), its release aside. -/
def parkOver (s : State) (core frame : Nat) : Bool :=
  match (frameOf s core frame).st with
  | .parked cs => cs.all (condHolds s core frame)
  | _ => false

/-- A condition of a saved frame has come to hold: what a save waits for is over, and the rest waits for the load (R203). -/
def savedOver (s : State) (f : Frame) : Cond → Bool
  | .quantum i n k _ => (recOf s i n).quanta != k
  | .answer id => f.owed.all fun o => o.id != id || o.val.isSome
  | .segment _ => true
  | .atomics => true
  | .settled .. => true
  | .published .. => true
  | .acked _ => true
  | .applied _ => true
  | .cmdsDone _ => true
  | .cmdRoom .. => true
  | .handle _ => true
  | .window _ => true
  | .walk _ => true
  | .users _ => true
  | _ => false

/-! ### Quanta (R201-R203) -/

/-- Activations of a lineage that a saved context holds Ready or Waiting, as they were at the save or as what they wait for has come
since, its quantum not reached: the quantum waits for them, so that a swap changes no set of requests (R203). -/
def savedHolds (s : State) (i n quantum : Nat) : Bool :=
  s.images.any fun img => img.out && decide (img.ctx.qret < quantum)
    && img.frames.any fun p => p.2.lin.launch == some (i, n) && (match p.2.st with
      | .active => true
      | .parked cs => img.past.contains p.1 || cs.all (savedOver s p.2)
      | .free => false)

/-- QUANTUM_END (R201, R202): every core that hosts the lineage has retired QUANTUM instructions or holds none of it
that is Ready or Waiting, and the requests of the quantum before are sent; QRET clears, and the held requests are to be sent in
order. The manual does not say whether a frame that R201 holds counts as Ready in its age: here it does (DESIGN CHOICE, log 69). Nor does it say whether a quantum ends while no core hosts a Ready or Waiting activation of the
lineage: here it may, any number of times (DESIGN CHOICE, log 93). -/
def execQuantumEnd (iface index : Nat) (s : State) : Res :=
  let r := recOf s iface index
  let hosts := (s.cores.map Prod.fst).filter fun c => !(lineageFrames s c iface index).isEmpty
  let ended := hosts.all fun c =>
    ((lineageFrames s c iface index).all fun p => p.2.st != .active && !parkOver s c p.1)
      || (lineageFrames s c iface index).any fun p => decide (r.quantum ≤ (ctxOf s (ctxKey c p.2.owner)).qret)
  let mine := fun (h : HeldReq) => h.iface == iface && h.index == index
  let isMine := fun (h : HeldReq) => mine h && h.state == 0
  let unsent := s.held.any fun h => mine h && h.state == 1
  commit s (if r.det && r.state != .unbuilt && ended && !unsent && !savedHolds s iface index r.quantum then
      let s := hosts.foldl (fun s c => (lineageFrames s c iface index).foldl (fun s p =>
        let k := ctxKey c p.2.owner
        setCtx s k { ctxOf s k with qret := 0 }) s) s
      let s := { s with images := s.images.map fun img =>
        if img.out && img.frames.any fun p => p.2.lin.launch == some (iface, index) then { img with ctx := { img.ctx with qret := 0 } } else img }
      let s := setRec s iface index { recOf s iface index with quanta := ((recOf s iface index).quanta + 1) % 2 ^ 32 }
      let due := ((s.held.filter isMine).foldr heldInsert []).map fun h => { h with state := 1 }
      { s with held := s.held.filter (fun h => !isMine h) ++ due }
    else s)

/-- The wait was for what stood at issue: the instruction does not look again when it executes (R84, R88, R361). -/
def waitedOnce : Cond → Bool
  | .settled .. => true
  | .published .. => true
  | .acked _ => true
  | .applied _ => true
  | .cmdsDone _ => true
  | .lease => true
  | .bumps .. => true
  | .drained _ => true
  | .wake _ => true
  | _ => false

/-- The instruction was complete when it parked: nothing executes again (R127, R133, R204). -/
def completes : Cond → Bool
  | .answer _ => true
  | .quantum .. => true
  | .resumes _ => true
  | .users _ => true
  | .fault .. => true
  | _ => false

/-- The number a quantum's end gives to `qsync` (R204). -/
def quantumAnswer (s : State) (core frame : Nat) : List Cond → State
  | [] => s
  | .quantum _ _ k id :: r =>
    quantumAnswer (answer s core frame (frameOf s core frame).act id (word ((k + 1) % 2 ^ 32))) core frame r
  | _ :: r => quantumAnswer s core frame r

/-- No earlier access of the context still has to take the failure of the walk that this frame joined: those of one walk are
taken in the order of issue (R374). -/
def walkTurn (s : State) (core frame : Nat) (cs : List Cond) : Bool :=
  let f := frameOf s core frame
  let earlier := fun (g : Frame) (id : Nat) => (g.wfault.any fun w => (NMap.find f.wfault w.1).isSome) && (match g.st with
    | .parked ds => ds.any fun d => match d with | .walk j => decide (j < id) | _ => false
    | _ => false)
  cs.all fun c => match c with
    | .walk id => (coreOf s core).frames.all fun p => frameCtx s core p.1 != frameCtx s core frame || !earlier p.2 id
    | _ => true

/-- The parked instruction executes again. -/
def executesAgain (f : Frame) (cs : List Cond) : Bool := !f.retDue && cs.any fun c => !completes c

/-- PARK_RELEASE (R127): every condition of a parked frame holds; its instruction is complete, or executes again in the
machine's next step, for which it takes no other issue slot, gated or not (R132, R363), once its access is not held back (R234,
R235). A refusal that is on its way to the frame comes first. -/
def execParkRelease (core frame : Nat) (s : State) : Res :=
  let f := frameOf s core frame
  commit s (match f.st with
    | .parked cs =>
      if (s.refusals.any fun b => b.ctx == frameCtx s core frame && b.frame == frame && b.act == f.act)
          || !(cs.all (condHolds s core frame)) || !walkTurn s core frame cs
          || (executesAgain f cs && accessHeld s core frame f.word) then s
      else
        let s := quantumAnswer s core frame cs
        let f := frameOf s core frame
        let again := executesAgain f cs
        let s1 := setFrame s core frame { f with st := .active, retDue := false, again := again, since := s.clk, gatedFor := 0,
                                                 granted := f.granted || (again && cs.any waitedOnce) }
        if f.retDue then { countRetire { s1 with cur := (core, frame) } with cur := s.cur }
        else if again then { s1 with cur := (core, frame), issuing := true }
        else s1
    | _ => s)

/-! ### Resumes (R371) -/

/-- The fault record of a parked frame: that of its latest fault (R370, R407). -/
def lastFault (f : Frame) : Option (Nat × Word × Option Nat) := (faultsIn f).getLast?

/-- Entries and requests of a context that wait, through one another, for some ids. -/
def waitersFor (s : State) (k : Nat) : Nat → List Nat → List Nat
  | 0, ids => ids
  | n + 1, ids =>
    let behind := fun (w : Nat) (locs : List Nat) => ids.any fun v => (wrec s w).known.contains v && pendingAt s v locs
    let es := (ctxOf s k).queue.filter fun e => !ids.contains e.id
      && (!disjointNat e.after ids || !disjointNat e.reads ids || (match entryWrite e with
          | some w => behind w (entryLocs s (ctxOwner k) e)
          | none => false))
    let qs := s.reqs.filter fun q => q.ctx == k && !ids.contains q.id
      && (!disjointNat q.after ids || !disjointNat q.reads ids || behind q.id (reqLocs s q))
    if es.isEmpty && qs.isEmpty then ids
    else waitersFor s k n (ids ++ es.flatMap (fun e => e.id :: (entryWrite e).toList) ++ qs.map Req.id)

/-- What waits in a context for one of its accesses. -/
def waitersOf (s : State) (k id : Nat) : List Nat := waitersFor s k ((ctxOf s k).queue.length + s.reqs.length) [id]

/-- A terminating PROT of a frame that does not issue (R364, R373). -/
def protAt (s : State) (core frame owner : Nat) (va pc : Word) : State :=
  terminate (writeTrapRegs s 0x06 0 va pc owner) core frame 0x06 0 va pc

/-- A read parked on a fault issues again (R99, R349): translated afresh, by a walk where no TLB has its page (R374), it waits for the entries and back-invalidations that
stand now, but for what waits for the read itself (DEDUCED, log 81). -/
def reissueRead (s : State) (r : Read) : State :=
  let core := ctxCore r.ctx
  let owner := ctxOwner r.ctx
  let at_ := unitWhere s core owner r.id r.va 0
  if at_ = .miss then missWalk s (.unit true) (ringOfCore s core) core owner r.id r.va 0
  else
  let s := dropWalked s r.id
  match at_ with
  | .fault 0x06 =>
    accessFault s core r.frame r.act r.id (fun s => { s with reads := s.reads.filter fun x => x.id != r.id }) fun s =>
      protAt s core r.frame owner r.va r.pc
  | .fault c => parkRead s r c
  | w =>
    let t := whereTgt w
    let tr := whereTreat w
    let miss := match t with
      | .pa a => r.mode == 0 && missesL1 s r.ctx a tr
      | .loc _ _ => false
    let r := { r with
      tgt := t, treat := tr, share := whereShare w, parked := false, miss := miss
      after := if r.mode = 0 then []
        else minusNat (entriesFor s r.ctx (locsFrom (tgtBase s owner t) r.len)) (waitersOf s r.ctx r.id)
      inval := match t with
        | .pa a => if r.mode = 2 ∧ tr % 4 = 3 then queuedInvals s a else []
        | .loc _ _ => [] }
    let s := { s with reads := s.reads.map fun x => if x.id = r.id then r else x }
    if r.mode = 0 ∧ tr % 4 ≠ 2 ∧ miss = false then s else requestAccess s core owner r.id t tr (whereShare w) false false

/-- A returning atomic parked on a fault issues again (R99, R264, R349): translated and checked afresh, with the tag, release
condition and back-invalidations of its new page and time, but for what waits for the atomic itself (DEDUCED, log 81). -/
def reissueReq (s : State) (q : Req) : State :=
  let core := ctxCore q.ctx
  let owner := ctxOwner q.ctx
  match q.kind with
  | .amo op ty ret acq _ opnd expect =>
    let at_ := unitWhere s core owner q.id q.va 2 atomicAllowed
    if at_ = .miss then missWalk s (.unit true) (ringOfCore s core) core owner q.id q.va 2
    else
    let s := dropWalked s q.id
    (match at_ with
     | .fault 0x06 =>
       accessFault s core q.frame q.act q.id (fun s => dropReq s q.id) fun s => protAt (dropReq s q.id) core q.frame owner q.va q.pc
     | .fault c => parkReq s q c
     | w =>
       let t := whereTgt w
       let tr := whereTreat w
       let pool := tr % 4 == 3
       let behind := waitersOf s q.ctx q.id
       let known := (ctxOf s q.ctx).known.filter fun v => !((wrec s v).known.contains q.id || behind.contains v)
       let r := wrec s q.id
       let earlier := (s.reads.filter fun x => x.ctx == q.ctx && x.frame == q.frame && x.act == q.act && decide (x.id < q.id)).map Read.id
       let q := { q with
         kind := .amo op ty ret acq t opnd expect, treat := tr, share := whereShare w, parked := false
         after := minusNat (if q.rel then (ctxOf s q.ctx).queue.map QEntry.id
           else entriesFor s q.ctx (locsFrom (tgtBase s owner t) (amoSize op ty))) behind
         reads := if q.rel then earlier else []
         pub := if q.rel && pool then minusNat (unpublished s q.ctx) behind else []
         inval := match t with
           | .pa a => if acq && pool then queuedInvals s a else []
           | .loc _ _ => [] }
       let tag : Option Tag := if q.rel then some { writes := known, scope := tagScope t tr, core := core } else r.tag
       let s := { s with
         reqs := s.reqs.map fun x => if x.id = q.id then q else x
         hist := NMap.put s.hist q.id { r with known := unionNat r.known known, tag := tag, pool := pool } }
       requestAccess s core owner q.id t tr (whereShare w) true true)
  | _ => s

/-- The reads that issue again with a resumed access: its own, with the other half of its `ld.q` where that waited with it. -/
def readsAgain (s : State) (id : Nat) : List Read :=
  let held := fun (r : Read) => s.rings.any fun x => x.2.inbound.any fun e => e.2 == .read r.id
  s.reads.filter fun r => r.id == id || (r.pair == id && r.parked && !held r)

/-- One access of a resumed activation issues again; a half of a `ld.q` that faults keeps the other. -/
def reissue (s : State) (id : Nat) : State :=
  match s.reqs.find? fun x => x.id == id with
  | some q => reissueReq s q
  | none => ((readsAgain s id).foldl (fun a r => insNat a r.id) []).foldl (fun s i => match s.reads.find? fun r => r.id == i with
    | some r => if faultOn (frameOf s (ctxCore r.ctx) r.frame) r.pair && decide (r.pair ≠ 0) then s else reissueRead s r
    | none => s) s

/-- A resume at its core (R371): the tag is acquired, and what the frame had parked on up to the fault that the resume names issues
again in its order: the faulting instruction from its start, or the parked accesses. -/
def takeResume (s : State) (m : Msg) : State :=
  match m.body with
  | .resume frame seq _ =>
    let f := frameOf s m.core frame
    let hits := (faultsIn f).filter fun x => decide (x.1 ≤ seq)
    if !hits.any fun x => x.1 == seq then s
    else
      let cs := match f.st with | .parked cs => cs | _ => []
      let rest := cs.filter fun c => match c with | .fault n _ _ _ => decide (seq < n) | _ => true
      let f := { f with st := if rest.isEmpty then .active else .parked rest, since := s.clk, gatedFor := 0 }
      let f := if hits.any fun x => x.2.2.isNone then { f with again := false, granted := false, walked := [], wfault := [] } else f
      let s := setFrame (learn s (ctxKey m.core m.owner) m.tag) m.core frame f
      (hits.foldl (fun a x => match x.2.2 with | some id => insNat a id | none => a) []).foldl (fun s id => reissue (dropWalked s id) id) s
  | _ => s

/-- What a resume issues again finds L1 miss entries free, and no passage of its owner's L1s due (R234, R235). -/
def resumeOpen (s : State) (m : Msg) : Bool :=
  match m.body with
  | .resume frame _ _ =>
    let f := frameOf s m.core frame
    let ids := (faultsIn f).filterMap fun x => x.2.2
    let rs := ids.flatMap (readsAgain s)
    let qs := s.reqs.filter fun q => ids.contains q.id
    let k := ctxKey m.core m.owner
    (rs.isEmpty && qs.isEmpty || !fusedDue s m.owner (ringOfCore s m.core))
      && (rs.isEmpty || decide ((missesOf s k).length + rs.length ≤ 16))
  | _ => true

/-- RESUME_ARRIVAL (R371): a resume reaches its core, once what it issues again can issue. -/
def execResumeArrival (idx : Nat) (s : State) : Res :=
  commit s (if (s.net[idx]?).all (resumeOpen s) then
      arrive idx s (fun b => match b with | .resume .. => true | _ => false) takeResume
    else s)

/-! ### PAGE_WALK (R372-R374) -/

/-- The accesses that wait for the walk of one page of an owner at a ring, in arrival order: one walk translates them all
(R374). -/
def joinedWalks (s : State) (w : Walk) : List Walk :=
  s.walks.filter fun x => x.ring == w.ring && x.owner == w.owner && x.va.toNat / 4096 == w.va.toNat / 4096

/-- What a walk comes to for an access: the page, or its fault (R373). -/
def walkFor (s : State) (w : Walk) : WalkRes → Xlat ⊕ Nat
  | .xlat => .inr 0x05
  | .prot => .inr 0x06
  | .page x => if through s x w.va.toNat w.acc = .fault 0x06 then .inr 0x06 else .inl x

/-- The walk of a frame's instruction is over: the frame notes its result until the instruction is. -/
def frameWalked (s : State) (w : Walk) (r : Xlat ⊕ Nat) : State :=
  let f := frameOf s w.core w.frame
  if f.act ≠ w.act then s
  else match r with
    | .inl x => setFrame s w.core w.frame { f with walked := f.walked ++ [x] }
    | .inr c => setFrame s w.core w.frame { f with wfault := NMap.put f.wfault (w.va.toNat / 4096) c }

/-- The walk of another access is over: its result is kept for it, and one that issues again goes on (R371), unless it has met a fault. -/
def unitWalked (s : State) (w : Walk) (r : Xlat ⊕ Nat) : State :=
  let note : Walked := { id := w.id, page := w.va.toNat / 4096, xlat := match r with | .inl x => some x | .inr _ => none,
                         cause := match r with | .inl _ => 0 | .inr c => c }
  let s := { s with walked := s.walked ++ [note] }
  if s.cores.any fun c => c.2.frames.any fun f => faultOn f.2 w.id then s else reissue s w.id

/-- One access receives the result of a walk (R373, R374). -/
def walkResult (s : State) (w : Walk) (r : WalkRes) : State :=
  let v := walkFor s w r
  let s := match v with
    | .inl x => cacheXlat s w.ring (if w.for_ = .unit false then none else some w.core) x
    | .inr _ => s
  match w.for_, v with
  | .frame, _ => frameWalked s w v
  | .unit _, _ => unitWalked s w v
  | .pfch b, .inl x => startPfch s w.core w.owner w.id b (through s x w.va.toNat w.acc)
  | .pfch _, .inr _ => s

/-- The table that a walk reads next: the owner's root, as it is when the walk begins (R372). -/
def walkTab (s : State) (w : Walk) : Nat := if w.depth = 0 then (ownerOf s w.owner).root else w.tab

/-- PAGE_WALK (R374): the walk for the access at an index, if it holds a walk entry, reads its next table entry; a result is
that of every access that joined it. -/
def execPageWalk (idx : Nat) (s : State) : Res :=
  commit s (match s.walks[idx]? with
    | none => s
    | some x =>
      let joined := joinedWalks s x
      let w := joined.headD x
      let l := walkOrder.getD w.depth (0, 12, 9)
      let tab := walkTab s w
      let passes := fun (y : Walk) => y.for_ == .unit true && fusedDue s y.owner (ringOfCore s y.core)
      if !(walkEntries s w.ring).contains (w.owner, w.va.toNat / 4096) || joined.any passes then s
      else
        let s := entryRead s w.ring w.core w.owner (tab + 8 * (w.va.toNat / 2 ^ l.2.1 % 2 ^ l.2.2))
        match walkEntry s w.owner w.va.toNat tab l with
        | .inl r => joined.foldl (fun s x => walkResult s x r) { s with walks := s.walks.filter fun x => !joined.contains x }
        | .inr t => { s with walks := s.walks.map fun x => if joined.contains x then { x with depth := w.depth + 1, tab := t } else x })

/-! ### The inbound queue (R158, R178, R179, R181) -/

/-- The entry may leave for its core: its owner is resident, a start has room, a handler's a frame, a tile has a slot, what a resume
issues again may issue, and an access to the banks has a slot of the rail (R178, R234, R235, R298, R393). -/
def heldFree (s : State) (owner : Nat) (h : Held) : Bool :=
  match heldCore s h with
  | none => true
  | some core => !(banksOf s core owner).isEmpty && (match heldStart h, h with
      | some st, _ => (runqBank s (ctxKey core owner)).isSome && !handlerWaits s core st
      | none, .msg m => tileRoom s m && resumeOpen s m && (!atBank m.body || railSlot s 2)
      | none, _ => railSlot s 2)

/-- The first entry of an owner that may leave a ring's inbound queue (R178, R181, R298). -/
def nextHeld (s : State) (ring owner : Nat) : Option Nat :=
  let l := (ringOf s ring).inbound
  (upto l.length).find? fun i => match l[i]? with
    | some e => e.1 == owner && mayLeave s ring i && heldFree s owner e.2
    | none => false

/-- A held message is delivered. -/
def deliver (s : State) (m : Msg) : State :=
  match m.body with
  | .start st => pushRunq s m st
  | .tdec off amt => applyTdec s m.core m.owner off amt m.tag
  | .tinc off amt => applyTinc s m.core m.owner off amt m.tag
  | .barrier off sub arr bytes => updateBarrier s m.core m.owner off sub arr bytes m.tag
  | .slot .. => takeSlot s m
  | .wopen .. => takeOpen s m
  | .wreply .. => takeReply s m
  | .credit .. => takeCredit s m
  | .close .. => takeClose s m
  | .endNotice .. => s
  | .join .. => takeJoin s m
  | .leave .. => takeLeave s m
  | .tile .. => landTile s m
  | .free .. => s
  | .freed .. => takeFree s m
  | .resume .. => takeResume s m

/-- A held access is served: its core woke as it arrived (R381). -/
def wokenBefore (s t : State) : State :=
  { t with cores := t.cores.map fun p => (p.1, { p.2 with wakes := (coreOf s p.1).wakes }) }

/-- A held entry is served at its core. -/
def serveHeld (s : State) : Held → State
  | .msg m => deliver s m
  | .read id =>
    (match s.reads.find? fun r => r.id == id with
     | none => s
     | some r =>
       let s := { s with reads := s.reads.map fun x => if x.id = id then { x with parked := false } else x }
       let r := { r with parked := false }
       let locs := readLocs s r
       let ws := locs.map fun l => lastSettled s l
       if 1 ≤ r.mode ∨ allCandidates s r.ctx locs ws = true then serveRead s r fun _ _ => ws else s)
  | .write k id =>
    let c := ctxOf s k
    let s := setCtx s k { c with queue := c.queue.map fun e => if e.id = id then { e with held := false } else e }
    let q := (ctxOf s k).queue
    (match (upto q.length).find? fun i => (q[i]?).any fun e => e.id == id with
     | none => s
     | some i => match q[i]? with
       | some e => (match e.body with
         | .write w t _ treat => if settleReady s k i e w t treat then wokenBefore s (settleEntry s k e w t treat) else s
         | _ => s)
       | none => s)
  | .req id =>
    let ready := fun (x : Req) => if x.id = id then { x with parked := false } else x
    let s : State := { s with reqs := s.reqs.map ready }
    (match s.reqs.find? fun q => q.id == id with
     | some q => if reqReady s q then wokenBefore s (performReq s q) else s
     | none => s)

/-- INBOUND_QUEUE_RELEASE (R178): one entry of an owner leaves the inbound queue of a ring and is served. -/
def execInboundQueueRelease (ring owner : Nat) (s : State) : Res :=
  commit s (match nextHeld s ring owner with
    | none => s
    | some i => match (ringOf s ring).inbound[i]? with
      | none => s
      | some (_, h) => serveHeld (setRing s ring { ringOf s ring with inbound := dropAt (ringOf s ring).inbound i }) h)

/-! ### `fresume` and `tlbi` (R371, R375) -/

/-- The instruction is complete but for a wait: PC moves on and the frame parks. -/
def parkDone (s : State) (cs : List Cond) : State :=
  let s := clearWait (setPc s (curPc s + 4))
  setCur s { curFrame s with st := .parked cs, since := s.clk, retDue := true }

/-- Bytes of a block size code (R371). -/
def blockSize (c : Nat) : Nat := match c with | 0 => 2 ^ 12 | 1 => 2 ^ 16 | 2 => 2 ^ 21 | _ => 2 ^ 30

/-- Activations of an owner parked with KIND 0 whose fault record matches, by ascending SEQ: core and frame of each (R371,
R407). -/
def faultsOf (s : State) (owner : Nat) (p : Nat → Word → Bool) : NMap (Nat × Nat) :=
  s.cores.foldl (fun a c => c.2.frames.foldl (fun a f =>
    match lastFault f.2 with
    | some (seq, addr, _) => if f.2.owner = owner ∧ p seq addr = true then NMap.put a seq (c.1, f.1) else a
    | none => a) a) []

/-- `fresume` (R371). -/
def execFresume (d a b : Reg) (s : State) : Res :=
  let x := rd s a
  let y := rd s b
  let owner := bits x 11 0
  let sz := bits x 19 18
  commit s (if bits x 15 12 ≠ 0 ∨ bit x 17 = true ∨ bits x 63 20 ≠ 0 ∨ (bit x 16 = true ∧ sz ≠ 0) then illOperand s
    else afterRelease s fun s =>
      let blk := blockSize sz
      let hits := faultsOf s owner fun seq addr =>
        if bit x 16 then word seq == y else addr.toNat / blk == y.toNat / blk
      let id := s.nextId
      let tag := (ctxOf s (curCtx s)).known
      let s := { s with nextId := id + 1 }
      let s := hits.foldl (fun s h => sendMsg s (hwCtx 0) 0 0 h.2.1 owner (.resume h.2.2 h.1 id) tag) s
      if hits.isEmpty then finish (clearWait s) d 0
      else parkDone (owe s d id (some (word hits.length))) [.resumes id])

/-- Accesses under way that a predicate on owner and address names (R375): reads, requests, writes in queues and entries in group
windows. Vector beats, carousel parts and the chunks of copies use their translations in the step that makes them, and are never under
way. -/
def xlatUsers (s : State) (p : Nat → Word → Bool) : List Nat :=
  let hit := fun (owner : Nat) (va : Word) => decide (va.toNat < Config.ownWindow) && p owner va
  (s.reads.filter fun r => hit (ctxOwner r.ctx) r.va).map Read.id
    ++ (s.reqs.filter fun q => hit (ctxOwner q.ctx) q.va).map Req.id
    ++ (s.ctxs.flatMap fun c => (c.2.queue.filter fun e => match entryWrite e with
        | some w => hit (ctxOwner c.1) (wrec s w).va
        | none => false).map QEntry.id)
    ++ s.rings.flatMap fun r => r.2.groups.flatMap fun g =>
        (g.2.window.filter fun e => hit (ctxOwner e.2.ctx) (wrec s e.2.wid).va).map fun e => e.2.wid

/-- `tlbi` (R375). -/
def execTlbi (a b : Reg) (s : State) : Res :=
  let x := rd s a
  let y := rd s b
  let owner := bits x 11 0
  let scope := bits x 17 16
  let sz := bits x 19 18
  commit s (if bits x 15 12 ≠ 0 ∨ bits x 63 20 ≠ 0 ∨ scope = 3 ∨ (scope ≠ 0 ∧ (y ≠ 0 ∨ sz ≠ 0)) then illOperand s
    else afterRelease s fun s =>
      let blk := blockSize sz
      let lo := y.toNat / blk * blk
      let hit := fun (t : Xlat) =>
        scope == 2 || (t.owner == owner && (scope == 1 || (decide (t.page < lo + blk) && decide (lo < t.page + t.size))))
      let gone := s.cores.foldl (fun l c => l ++ c.2.tlb.filter hit ++ c.2.frames.foldl (fun l f => l ++ f.2.walked.filter hit) []) []
        ++ s.rings.foldl (fun l r => l ++ r.2.tlb.filter hit) []
      let ids := xlatUsers s fun o va =>
        scope == 2 || (o == owner && (scope == 1 || (decide (lo ≤ va.toNat) && decide (va.toNat < lo + blk))))
          || gone.any fun t => t.owner == o && decide (t.page ≤ va.toNat) && decide (va.toNat < t.page + t.size)
      let again := fun (w : Walk) =>
        scope == 2 || (w.owner == owner && (scope == 1 || w.va.toNat / 2 ^ 30 == y.toNat / 2 ^ 30))
      let s := { s with
        walks := s.walks.map fun w => if again w then { w with depth := 0 } else w
        walked := s.walked.filter fun w => !(w.xlat.any hit)
        cores := s.cores.map fun c => (c.1, { c.2 with
          tlb := c.2.tlb.filter fun t => !hit t,
          frames := c.2.frames.map fun f => (f.1, { f.2 with walked := f.2.walked.filter fun t => !hit t }) })
        rings := s.rings.map fun r => (r.1, { r.2 with tlb := r.2.tlb.filter fun t => !hit t }) }
      if ids.isEmpty then retire4 (clearWait s) else parkDone s [.users ids])

/-! ### `bankctl` (R376) -/

/-- A bank is zeroed with its frames and barrier-table entries, and is CLEAN (R376). -/
def cleanBank (s : State) (core b : Nat) : State :=
  let x := NMap.get (coreOf s core).banks b {}
  let k := ctxKey core x.owner
  let s := zeroBank s core b
  let s := setCtx s k { ctxOf s k with barriers := (ctxOf s k).barriers.filter fun r => r.1 != b }
  setCore s core { coreOf s core with frames := (coreOf s core).frames.filter fun p => p.1 / 4 != b,
                                      banks := NMap.put (coreOf s core).banks b { x with clean := true } }

/-- `bankctl` (R376). -/
def execBankctl (d a : Reg) (s : State) : Res :=
  let x := rd s a
  let b := bits x 2 0
  let core := s.cur.1
  commit s (if bits x 7 3 ≠ 0 ∨ bits x 63 9 ≠ 0 then illOperand s
    else if bit x 8 then finish (setCore s core { coreOf s core with bsel := b }) d (bankWord s core b)
    else if bankLive s core b then finish s d 1
    else finish (cleanBank s core b) d 0)

/-! ### Context images (R99, R253, R377-R379) -/

/-- The restored context and frames of an image that this module did not write, none where the check value fails: the
layout of the state area is that of the part (R377). DESIGN CHOICE: a free value for each image (log 24). -/
opaque foreignImage : List Byte → Option (Ctx × NMap Frame)

/-- The physical segments of an image of n banks, in device DRAM of treatment 0 or 2 (R377, R378). -/
def withContextImage (s : State) (va : Word) (n acc : Nat) (k : List (Place × Nat) → State) : State :=
  if va.toNat % 0x10000 ≠ 0 then alignTrap s va
  else withRange s va.toNat (0x10000 + n * Config.bankBytes) acc
    (fun ps => k (ps.map fun p => ({ pa := (whereTgt p.2.2 |> tgtPa).getD 0, treat := whereTreat p.2.2, share := whereShare p.2.2 }, p.2.1)))
    (fun pa x => isDram pa && (x.treat == 0 || x.treat == 2)) false

/-- n groups of 8 bytes written for owner 0's context; they settle at once (R378). -/
def imageGroups (k frame act : Nat) (pc : Word) (pa : Nat) : Nat → List Byte → State → State
  | 0, _, s => s
  | n + 1, bs, s =>
    let r := engineWrite s k frame act (ctxOf s k).known pa (bs.take 8) false 0 pc s.nextId
    let s := setCtx r.2 k { ctxOf r.2 k with known := insNat (ctxOf r.2 k).known r.1 }
    imageGroups k frame act pc (pa + 8) n (bs.drop 8) s

/-- The sectors of an image's segments. -/
def imagePlaces (segs : List (Place × Nat)) : List Place :=
  segs.flatMap fun p => (upto (p.2 / 64)).map fun i => { p.1 with pa := p.1.pa + 64 * i }

/-- The bytes of an image written over its segments. -/
def imageWrite (k frame act : Nat) (pc : Word) : List (Place × Nat) → List Byte → State → State
  | [], _, s => s
  | (p, n) :: r, bs, s => imageWrite k frame act pc r (bs.drop n) (imageGroups k frame act pc p.pa (n / 8) bs s)

/-- Frame `f` of a core as an image numbers it, by the banks saved in order. -/
def imageFrame (banks : List Nat) (f : Nat) : Nat := 4 * banks.idxOf (f / 4) + f % 4
/-- The frame an image's frame is restored to. -/
def restoredFrame (banks : List Nat) (f : Nat) : Nat := 4 * banks.getD (f / 4) 0 + f % 4

/-- Every bank number in a context's tables is replaced. -/
def renumber (f : Nat → Nat) (c : Ctx) : Ctx :=
  { c with
    runq := c.runq.map fun p => (f p.1, p.2)
    barriers := c.barriers.map fun p => (f p.1, p.2)
    matchTab := c.matchTab.map fun e => match e with
      | .source b t n m l o x => .source (f b) t n m l o x
      | .receiver b c t i l n r a e d => .receiver (f b) c t i l n r a e d }

/-- A frame as an image records it: in its state, without what its core had fetched and walked for it. -/
def savedFrame (f : Frame) : Frame := { f with walked := [], wfault := [], fbuf := [] }

/-- A frame after a restore or a move: a parked `csettle`, and an `mlease` that has no answer, issue again, and its Ready age
restarts (R340, R363, R379, R380). -/
def resumedFrame (s : State) (f : Frame) : Frame :=
  let f := { f with since := s.clk, gatedFor := 0 }
  match f.st with
  | .parked cs =>
    if cs.any fun c => (match c with | .bumps .. => true | .lease => f.lease.isNone | _ => false) then { f with st := .active, again := false }
    else f
  | _ => f

/-- An owner's members leave the requests that are pending at every carousel; the others' stand (R340). -/
def withdrawLeases (s : State) (core owner : Nat) : State :=
  let mine := fun (m : Member) => m.core == core && (banksOf s core owner).contains (m.frame / 4)
  { s with rings := s.rings.map fun r => (r.1, { r.2 with
    pending := (r.2.pending.map fun l => { l with members := l.members.filter fun m => !mine m }).filter fun l => !l.members.isEmpty }) }

/-- GATE for the owner's banks, its leases ended, its pending `mlease` requests withdrawn (R340, R378). -/
def prepareSave (s : State) (core owner : Nat) : State :=
  let banks := banksOf s core owner
  let s := setGate s core (banks.foldl (fun g b => g ||| (1#8 <<< b)) (coreOf s core).gate)
  let mine := fun (m : Member) => m.core == core && banks.contains (m.frame / 4)
  let s := s.rings.foldl (fun s r => match (ringOf s r.1).lease with
    | some l => if l.members.any mine then endLease s r.1 else s
    | none => s) s
  withdrawLeases s core owner

/-- Word 0 of the header (R377). -/
def imageHeader (owner banks : Nat) (neutral : Bool) : Nat :=
  0x4C47 + 1 * 2 ^ 16 + 16 * 2 ^ 24 + b2n neutral * 2 ^ 29 + banks * 2 ^ 30 + owner * 2 ^ 34

/-- The context goes into the image and leaves the core (R377, R378). The manual says nothing of poisoned bytes in a bank: the image
carries the bytes, and their poison is dropped (DESIGN CHOICE, log 88). -/
def saveContext (s : State) (segs : List (Place × Nat)) (owner : Nat) : State :=
  let core := s.cur.1
  let k := ctxKey core owner
  let c := ctxOf s k
  let banks := banksOf s core owner
  let fs := ownerFrames s core owner
  let neutral := !(fs.any fun p => p.2.vec)
  let serial := s.nextId
  let moved := fun (q : Req) => q.ctx == k && recordedReq s core q
  let bytes := leBytes (imageHeader owner banks.length neutral) 8 ++ leBytes s.clk 8 ++ leBytes core 8 ++ List.replicate 40 0
    ++ ((upto (0x10000 - 64)).map fun i => Config.stateArea serial i)
    ++ banks.foldl (fun a b => a ++ rdBytes s (bankLoc core b) Config.bankBytes) []
  let img : Image := {
    ctx := { renumber (fun b => banks.idxOf b) c with horizon := s.clk }
    frames := fs.map fun p => (imageFrame banks p.1, savedFrame p.2)
    logged := []
    reqs := (s.reqs.filter moved).map fun q => { q with frame := imageFrame banks q.frame }
    reads := (s.reads.filter fun r => r.ctx == k).map fun r => { r with frame := imageFrame banks r.frame }
    copies := s.copies.filter fun x => x.ctx == k
    bytes := bytes
    out := true
    past := (fs.filter fun p => parkOver s core p.1).map fun p => imageFrame banks p.1 }
  let me := curFrame s
  let s' := imageWrite (curCtx s) s.cur.2 me.act (curPc s) segs bytes
    (placesAccess { s with nextId := serial + 1 } (curCtx s) true (imagePlaces segs))
  let s' := cancelAt s' ((s.reqs.filter moved).map Req.id)
  let s' := { s' with
    images := s'.images ++ [{ img with logged := s'.log }]
    reqs := s'.reqs.filter fun q => !moved q
    reads := s'.reads.filter fun r => r.ctx != k
    copies := s'.copies.filter fun x => x.ctx != k
    walks := s'.walks.filter fun w => !(w.for_ == .frame && w.core == core && banks.contains (w.frame / 4)) }
  let s' := setCtx s' k { known := c.known }
  -- frames of the core become Free (R381)
  let s' := if fs.isEmpty then s' else wakeCore s' core
  banks.foldl (fun s b =>
    let s := setGate (cleanBank s core b) core ((coreOf s core).gate &&& ~~~(1#8 <<< b))
    setCore s core { coreOf s core with banks := NMap.put (coreOf s core).banks b { owner := owner, valid := false, clean := true } }) s'

/-- `ctxsave` (R378). -/
def execCtxsave (d a b : Reg) (s : State) : Res :=
  let x := rd s a
  let owner := bits x 11 0
  let core := s.cur.1
  let n := (banksOf s core owner).length
  commit s (if bits x 63 12 ≠ 0 ∨ owner = 0 then illOperand s
    else withContextImage s (rd s b) n 1 fun segs =>
      if n = 0 then finish (clearWait s) d 1
      else if (curFrame s).granted && drained s core owner true then finish (clearWait (saveContext s segs owner)) d 0
      else park (prepareSave s core owner) [.drained owner])

/-- The bytes of some segments. -/
def segBytes (s : State) : List (Place × Nat) → List Byte
  | [] => []
  | (p, n) :: r => rdBytes s p.pa n ++ segBytes s r

/-- Set bits of a bank mask, ascending. -/
def maskBanks (m : Nat) : List Nat := (upto 8).filter fun b => m / 2 ^ b % 2 == 1

/-- An owner's treatment-1 copies from before its horizon leave the L1s of a core, written back first (R251, R253). -/
def dropOld (s : State) (core owner : Nat) : State :=
  (l1Cores s core owner).foldl (fun s x => leaveL1 s x fun l =>
    l.owner == owner && l.treat == 1 && decide (l.filled < (ctxOf s (ctxKey core owner)).horizon)) s

/-- An image is restored into banks (R379). A `caccept` that issues again keeps what it waits for: R282 does not say that it makes
its first test again (DESIGN CHOICE, log 89). -/
def loadContext (s : State) (owner : Nat) (banks : List Nat) (img : Image) (lanes : Nat) : State :=
  let core := s.cur.1
  let k := ctxKey core owner
  let s := (upto banks.length).foldl (fun s j =>
    let b := banks.getD j 0
    let s := setBank s core b { owner := owner, valid := true, clean := false }
    setInitial s (cellsAt (bankLoc core b) ((img.bytes.drop (0x10000 + j * Config.bankBytes)).take Config.bankBytes))) s
  let old := (ctxOf s k).known
  let c := renumber (fun j => banks.getD j 0) img.ctx
  let c := { c with queue := [], known := unionNat (unionNat old c.known) (img.logged.foldl insNat []),
                    lanes := if lanes = 16 then c.lanes else [] }
  let s := setCtx s k c
  let s := dropOld s core owner
  let s := img.frames.foldl (fun s p => setFrame s core (restoredFrame banks p.1) (resumedFrame s p.2)) s
  let s := img.reqs.foldl (fun s q =>
    let q := { q with ctx := k, frame := restoredFrame banks q.frame, kind := match q.kind with
      | .ordered f n pa v st _ => .ordered f n pa v (if st = 0 then 0 else 2) 0
      | x => x }
    let s := { s with reqs := s.reqs ++ [q],
                      hist := NMap.put s.hist q.id { wrec s q.id with writer := .ctx k, frame := q.frame } }
    match q.kind with
    | .ordered _ _ pa _ _ _ =>
      requestAccess s core owner q.id (.pa pa) q.treat q.share true false
    | _ => s) s
  { s with
    images := s.images.map fun i => if i.bytes == img.bytes then { i with out := false } else i
    reads := s.reads ++ img.reads.map fun r => { r with ctx := k, frame := restoredFrame banks r.frame }
    copies := s.copies ++ img.copies.map fun x => { x with ctx := k } }

/-- The image whose bytes these are, or what another part's image restores to (R377). -/
def findImage (s : State) (bytes : List Byte) : Option Image :=
  match s.images.reverse.find? fun i => i.bytes == bytes with
  | some i => some i
  | none => (foreignImage bytes).map fun p =>
    { ctx := { p.1 with queue := [] }, frames := p.2, logged := [], reqs := [], reads := [], copies := [], bytes := bytes, out := false, past := [] }

/-- `ctxload` (R379). -/
def execCtxload (d a b : Reg) (s : State) : Res :=
  let x := rd s a
  let owner := bits x 11 0
  let banks := maskBanks (bits x 23 16)
  let core := s.cur.1
  commit s (if bits x 15 12 ≠ 0 ∨ bits x 63 24 ≠ 0 ∨ owner = 0 then illOperand s
    else withContextImage s (rd s b) banks.length 0 fun segs =>
        let s := placesAccess (clearWait s) (curCtx s) false (imagePlaces segs)
        let bytes := segBytes s segs
        let w0 := leValue (bytes.take 8)
        let lanes := w0 / 2 ^ 24 % 2 ^ 5
        if w0 % 2 ^ 16 ≠ 0x4C47 ∨ w0 / 2 ^ 16 % 2 ^ 8 ≠ 1 ∨ w0 / 2 ^ 34 % 2 ^ 12 ≠ owner ∨ w0 / 2 ^ 30 % 2 ^ 4 ≠ banks.length then finish s d 2
        else if banks.any fun b => (NMap.get (coreOf s core).banks b {}).valid || !(NMap.get (coreOf s core).banks b {}).clean then finish s d 3
        else if !(banksOf s core owner).isEmpty then finish s d 4
        else match findImage s bytes with
          | none => finish s d 5
          | some img =>
            if lanes ≠ 16 ∧ w0 / 2 ^ 29 % 2 = 0 then trap s 0x0B 0 0
            else finish (loadContext s owner banks img lanes) d 0)

end Sys2Proof.Machine
end

