-- ==== Sys2Proof/Machine/Power.lean ====
section
/-! DEFINITION. The host link, the peer links, rails, caravans, static energy, bring-up and the loader (R38, R380,
R387-R398). -/

namespace Sys2Proof.Machine

open Sys2Proof

/-! ### Caravans (R99, R253, R340, R380, R395) -/

/-- Owners with a bank on a core. -/
def ownersOn (s : State) (l : Nat) : List Nat := residents s l

/-- Nothing holds the move back: no handler runs, no member of a lease sits on the core, and the drain is over (R99,
R340, R380). -/
def moveReady (s : State) (l : Nat) : Bool :=
  !(coreOf s l).sup
    && (s.rings.all fun r => match r.2.lease with | some x => x.members.all fun m => m.core != l | none => true)
    && ((ownersOn s l).all fun o => drained s l o false)

/-- A context after the move (R253, R282, R340, R363, R380). -/
def moveContext (s : State) (l owner : Nat) : State :=
  let k := ctxKey l owner
  let s := (ownerFrames s l owner).foldl (fun s p => setFrame s l p.1 (resumedFrame s p.2)) (withdrawLeases s l owner)
  let c := ctxOf s k
  let s := setCtx s k { c with known := unionNat c.known (s.log.foldl insNat []), horizon := s.clk }
  let resent := fun (q : Req) => if q.ctx = k then
      { q with kind := match q.kind with | .ordered f n pa v st _ => .ordered f n pa v (if st = 0 then 0 else 2) 0 | x => x } else q
  dropOld { s with reqs := s.reqs.map resent } l owner

/-- The banks of a logical core move to a physical core, where the owners' older copies in its ring's L1s go too (R253); a logical core that was mapped there takes the old one, whose
banks are not clean (R380, R395, log 25). -/
def moveCore (s : State) (l p : Nat) : State :=
  let old := physCore s l
  let oldRing := ringOfCore s l
  let s := (ownersOn s l).foldl (fun s o => moveContext s l o) (leaveCore s l)
  let s := match mappedTo s p with | some m => leaveCore s m | none => s
  let put := fun (t : NMap Nat) (x y : Nat) => if x = y then NMap.del t x else NMap.put t x y
  -- banks that no owner holds are clean or not as the new core's are
  let there := fun (b : Nat) => match mappedTo s p with
    | some m => (NMap.get (coreOf s m).banks b {}).clean
    | none => !s.dirtySpare.contains p
  let mine := (upto 8).map fun b =>
    let x := NMap.get (coreOf s l).banks b {}
    (b, if x.valid then x else { x with clean := there b })
  let left : NMap Bank := (upto 8).map fun b => (b, { owner := 0, valid := false, clean := false })
  -- a bank that is clean at the new place holds zeros there
  let s := (mine.filter fun x => !x.2.valid && x.2.clean).foldl (fun s x => zeroBank s l x.1) s
  let s := setCore s l { coreOf s l with banks := mine, l1 := [], tlb := [], assigned := none, hot := false }
  let s := match mappedTo s p with
    | some m =>
      let s := setCore s m { coreOf s m with banks := left, l1 := [], tlb := [], assigned := none, hot := false }
      let ring := ringOfCore s m
      let s := joinCore { s with coreTable := put (put s.coreTable l p) m old } m
      redirect s m ring (ringOfCore s m)
    | none => { s with coreTable := put s.coreTable l p, dirtySpare := insNat (s.dirtySpare.filter fun x => x != p) old }
  let s := (ownersOn s l).foldl (fun s o => dropOld s l o) (joinCore s l)
  regrow (redirect s l oldRing (ringOfCore s l))

/-- A core becomes hot, or is no longer: its issue stream has taken the slots before (R207, R395). -/
def setHot (s : State) (l : Nat) (hot : Bool) : State :=
  let s := settleIssue s l
  setCore s l { coreOf s l with hot := hot }

/-- CARAVAN (R395): the banks of a hot core move to the target, which the power controller has found the coolest; where
the die has no target, the core issues on even clks only. -/
def execCaravan (lcore target : Nat) (s : State) : Res :=
  commit s (if Config.cores ≤ physCore s lcore then s
    else if moveTarget s lcore target then
      (if moveReady s lcore then moveCore s lcore target else setHot s lcore false)
    else setHot s lcore (!targetExists s lcore))

/-- HOT_CORE_COOLING (R395). -/
def execHotCoreCooling (core : Nat) (s : State) : Res := commit s (setHot s core false)

/-! ### Rails and slow-down notices (R391-R394) -/

/-- The level no rail may fall below: 4 in an emergency, and what a notice holds (R392, R394). -/
def railFloor (s : State) : Nat := s.slowdown.foldl (fun a p => Nat.max a p.1) (if s.emergency.isEmpty then 0 else 4)

/-- A rail takes a level; the slots that it has had till now are kept, and an array that becomes free on the next clk counts this one as
it now is (R207, R213, R393). -/
def setRail (s : State) (r level : Nat) : State :=
  let t := { s with rails := NMap.put s.rails r level, slotCounts := NMap.put s.slotCounts r (s.clk, slotsTo s r s.clk) }
  if r ≠ 0 then t
  else { t with rings := t.rings.map fun q =>
    (q.1, if q.2.freeFrom = s.clk + 1 then { q.2 with freeSeen := slotsTo t 0 (s.clk + 1) } else q.2) }

/-- Every rail at a level at least. -/
def raiseRails (s : State) (level : Nat) : State := (upto 4).foldl (fun s r => setRail s r (Nat.max (railLevel s r) level)) s

/-- The device's rail level, as a notice carries it. -/
def noticeLevel (s : State) : Nat := (upto 4).foldl (fun a r => Nat.max a (railLevel s r)) 0

/-- One notice on every link of the mask (R392). -/
def sendNotices (s : State) : State :=
  let links := (upto 16).filter fun k => s.linkMask.getLsbD k && !s.linksLost.contains k
  { s with lastNotice := s.clk, noticesOut := s.noticesOut ++ links.map fun k => (k, noticeLevel s) }

/-- An 8-clk boundary, where a level may change (R394). -/
def railBoundary (s : State) : Bool := s.clk % 8 == 0

/-- THERMAL_EMERGENCY (R392, R394). -/
def execThermalEmergency (die : Nat) (s : State) : Res :=
  commit s (if !railBoundary s || decide (4 ≤ die) || s.emergency.contains die then s
    else sendNotices (raiseRails { s with emergency := insNat s.emergency die } 4))

/-- THERMAL_EMERGENCY_END (R394). -/
def execThermalEmergencyEnd (die : Nat) (s : State) : Res :=
  commit s { s with emergency := s.emergency.filter fun d => d != die }

/-- RAIL_LEVEL_CHANGE (R393, R394): the power controller sets a rail's level, never below what an emergency or a notice
demands. -/
def execRailLevelChange (rail level : Nat) (s : State) : Res :=
  commit s (if railBoundary s && decide (rail < 4) && decide (level ≤ 7) && decide (railFloor s ≤ level) then
      setRail s rail level
    else s)

/-- SLOWDOWN_NOTICE_SEND (R392). -/
def execSlowdownNoticeSend (s : State) : Res :=
  commit s (if !s.emergency.isEmpty && decide (s.lastNotice + 140000 ≤ s.clk) then sendNotices s else s)

/-- SLOWDOWN_NOTICE_RECEIVE (R390, R392): rails rise at once, and the level is held. -/
def execSlowdownNoticeReceive (link level : Nat) (s : State) : Res :=
  commit s (if !railBoundary s || decide (16 ≤ link) || s.linksLost.contains link || decide (level < 1) || decide (7 < level) then s
    else
      let kept := s.slowdown.map fun p => (p.1, if p.1 ≤ level then s.clk else p.2)
      raiseMsix (raiseRails { s with slowdown := NMap.put kept level s.clk } level) 0 0)

/-- SLOWDOWN_HOLD_EXPIRY (R390, R392). -/
def execSlowdownHoldExpiry (s : State) : Res :=
  let over_ := fun (p : Nat × Nat) => decide (p.2 + 1400000 ≤ s.clk)
  commit s (if s.slowdown.any over_ then raiseMsix { s with slowdown := s.slowdown.filter fun p => !over_ p } 0 0 else s)

/-- ZASOL_LINK_LOST (R230, R390, R391): writes sent over the link and not acknowledged are dropped and counted. -/
def execZasolLinkLost (link : Nat) (s : State) : Res :=
  commit s (if 16 ≤ link ∨ s.linksLost.contains link = true then s
    else
      let onLink := fun (w : Nat) => decide (Config.peerBase ≤ writeBase s w) && isWindow (writeBase s w) && writeBase s w / 2 ^ 34 % 16 == link
      let lost := s.unacked.filter onLink
      let s := lost.foldl (fun s w => countDrop s (writerOwner (wrec s w))) s
      raiseMsix { s with linksLost := insNat s.linksLost link, unacked := s.unacked.filter fun w => !onLink w } 0 0)

/-- ZASOL_FLIT_RETRY (R391): the flit is sent again, and its order is kept. -/
def execZasolFlitRetry (link : Nat) (s : State) : Res :=
  commit s (if link < 16 then { s with retries := NMap.put s.retries link (NMap.get s.retries link 0 + 1) } else s)

/-! ### Static energy (R396) -/

/-- STATIC_ENERGY (R396): 96 units a core for 64 clk, by bank. -/
def execStaticEnergy (s : State) : Res :=
  commit s (if s.lastStatic + 64 ≤ s.clk then
      let held := s.cores.foldl (fun a c => a ++ (c.2.banks.filter fun b => b.2.valid).map fun b => b.2.owner) []
      let s := held.foldl (fun s o => charge s o 12) { s with lastStatic := s.lastStatic + 64 }
      charge s 0 (12 * (8 * Config.cores - held.length))
    else s)

/-! ### The notify page (R387-R390) -/

/-- Writes of the host that the device has received, as the arming tag holds them (R388). -/
def hostWrites (s : State) : List Nat :=
  withPreceders s ((s.hist.filter fun p => p.2.writer == .host && s.log.contains p.1).map Prod.fst)

/-- NOWN names a live owner of the interface (R385). -/
def nownOk (s : State) (i : Nat) : Bool :=
  let o := ownerOf s (ifaceOf s i).nown
  o.live && o.iface == i

/-- One notify is applied: a `larm` by owner NOWN (R387, R388). -/
def applyNotify (s : State) (i : Nat) (w0 : Word) : State :=
  let f := ifaceOf s i
  let f := { f with ncount := (f.ncount + 1) % 2 ^ 32 }
  if !nownOk s i then setIface s i { f with nfault := true }
  else
    let r := applyArm (setIface s i f) i (bits w0 9 0) f.nown (hostWrites s)
    let f := ifaceOf r.1 i
    match r.2 with
    | none => setIface r.1 i { f with nfault := true }
    | some v => setIface r.1 i { f with nfault := false, nst := v }

/-- A notify's turn comes: applied, or its stamp is awaited in fenced mode (R389). -/
def takeNotify (s : State) (i : Nat) (w0 : Word) : State :=
  let f := ifaceOf s i
  if f.fenced && nownOk s i then setIface s i { f with await := some (w0, s.clk, s.clk) } else applyNotify s i w0

/-- Notifies that waited are taken in arrival order, until one awaits its stamp (R388, R389). -/
def drainNotifies (i : Nat) : Nat → State → State
  | 0, s => s
  | n + 1, s =>
    let f := ifaceOf s i
    match f.await, f.queued with
    | none, w :: r => drainNotifies i n (takeNotify (setIface s i { f with queued := r }) i w)
    | _, _ => s

/-- The awaited notify is over; those behind it follow. -/
def endAwait (s : State) (i : Nat) : State :=
  let s := setIface s i { ifaceOf s i with await := none }
  drainNotifies i (ifaceOf s i).queued.length s

/-- The interface's notify page answers: the physical function always does, a virtual one once enabled (R397). -/
def ifaceUp (s : State) (i : Nat) : Bool := s.boot == .up && (i == 0 || (s.vfEnabled && decide (i < 256)))

/-- A word of an interface's notify page as the host reads it (R387): W0 is write only. -/
def notifyWord (s : State) (i w : Nat) : Word :=
  let f := ifaceOf s i
  match w with
  | 1 => word (f.nst + b2n f.nfault * 2 ^ 2 + f.ncount * 2 ^ 32)
  | 2 => word (b2n f.fenced + f.stoff * 2)
  | 3 => word f.ntmo
  | _ => 0

/-- NOTIFY (R387, R388): a host write of a word of the notify page. W0 is a notify, W2 holds the mode; W1 and W3 are read
only. -/
def execNotify (iface : Nat) (w : Nat) (value : BitVec 64) (s : State) : Res :=
  commit s (if !ifaceUp s iface then s
    else
      let f := ifaceOf s iface
      if w = 0 then
        drainNotifies iface (f.queued.length + 1) (setIface s iface { f with queued := f.queued ++ [value] })
      else if w = 2 then setIface s iface { f with fenced := bit value 0, stoff := bits value 16 1 }
      else s)

/-- A dropped notify (R389, R390). -/
def dropNotify (s : State) (i : Nat) : State :=
  let f := ifaceOf s i
  raiseMsix (endAwait (setIface s i { f with ntmo := Nat.min (f.ntmo + 1) (2 ^ 32 - 1) }) i) i 0

/-- What a read of a stamp comes to: its doubleword, a fault, or that it is still to be served. -/
inductive Stamp where
  | value (v : Nat)
  | fault
  | later
deriving DecidableEq, Repr

/-- A stamp at a location, which may be poisoned (R160, R256). -/
def stampAt (s : State) (a : Nat) : Stamp := if poisoned s a then .fault else .value (rdNat s a 8)

/-- The stamp's doubleword, a strong read served at its home at system scope under NOWN's shadow table (R251, R389): it joins the points of
its way, which time it alone (DESIGN CHOICE, log 49); over a lost link it faults, and whether the host or a peer refuses it is free (R230,
log 6); local memory with no bank of NOWN holds it (R158). No rule says what an address of 2^64 or more names: PARAM + 8 × STOFF wraps here
(DESIGN CHOICE, log 76). -/
def readStamp (s : State) (i : Nat) (w0 : Word) : Stamp × State :=
  let f := ifaceOf s i
  let va := (recOf s i (bits w0 9 0)).param + word (8 * f.stoff)
  if va.toNat % 8 ≠ 0 then (.fault, s)
  else match engineWhere s Config.cores f.nown va 0 with
    | .mem pa x =>
      if isWindow pa then
        if peerLost s pa || Config.freeBool s.free then (.fault, { s with free := s.free + 1 })
        else (.value (leValue ((upto 8).map fun j => Config.freeByte (s.free + 1 + j))), charge { s with free := s.free + 9 } f.nown (accessEnergy pa 2))
      else
        let p : Place := { pa := pa, treat := x.treat, share := whereShare (.mem pa x) }
        let s := atHome s (ctxKey Config.cores f.nown) (.pa pa)
        if recallOpen s Config.cores f.nown pa then (.later, s)
        else (stampAt s pa, charge (requestHome { s with nextId := s.nextId + 1 } f.nown s.nextId false [p]) f.nown (accessEnergy pa x.treat))
    | .loc c o =>
      if mustWait s c f.nown then (.later, s)
      else match localLoc s c f.nown o with
       | some a => (stampAt s a, s)
       | none => (.fault, s)
    | _ => (.fault, s)

/-- NOTIFY_STAMP_POLL (R389). -/
def execNotifyStampPoll (iface : Nat) (s : State) : Res :=
  commit s (match (ifaceOf s iface).await with
    | none => s
    | some (w0, since, due) =>
      if s.clk < due ∨ since + 1400000 ≤ s.clk then s
      else match readStamp s iface w0 with
        | (.later, s) => s
        | (.fault, s) => dropNotify s iface
        | (.value v, s) =>
          if v % 2 ^ 32 = bits w0 63 32 then endAwait (applyNotify s iface w0) iface
          else setIface s iface { ifaceOf s iface with await := some (w0, since, s.clk + 1000) })

/-- NOTIFY_TIMEOUT (R389). -/
def execNotifyTimeout (iface : Nat) (s : State) : Res :=
  commit s (match (ifaceOf s iface).await with
    | none => s
    | some (_, since, _) => if since + 1400000 ≤ s.clk then dropNotify s iface else s)

/-! ### Bring-up (R397) -/

/-- PERST_RELEASE (R397): nothing of the module outlives PERST#, and it waits for its firmware. -/
def execPerstRelease (s : State) : Res :=
  .next { State.reset with boot := .recovery, vfEnabled := false, agenda := s.agenda, free := s.free }

/-- FIRMWARE_IMAGE_WRITE (R397): a verified image brings the module up with the manual's reset values, whatever stood in its tables
before. -/
def execFirmwareImageWrite (verified : Bool) (s : State) : Res :=
  match s.boot with
  | .up => .next s
  | .recovery =>
    if verified then .next { State.reset with clk := s.clk, agenda := s.agenda, free := s.free, nextId := s.nextId }
    else .next { s with bootFail := true }

/-! ### The loader (R38, R101, R157, R398) -/

/-- The next multiple of 64. -/
def align64 (n : Nat) : Nat := (n + 63) / 64 * 64

/-- Offset of the first `.region` area, and the end of the object (R38). -/
def objectRegion (o : CodeObject) : Nat := align64 (align64 o.text.length + o.data.length)
/-- The end of an object in the local banks. -/
def objectEnd (o : CodeObject) : Nat :=
  if o.regions.isEmpty then (if o.data.isEmpty then o.text.length else align64 o.text.length + o.data.length)
  else objectRegion o + (o.regions.map align64).foldl (· + ·) 0

/-- The owner holds nothing on the core that a replacing load would disturb (R38). -/
def quiet (s : State) (core owner : Nat) : Bool :=
  let k := ctxKey core owner
  let c := ctxOf s k
  (ownerFrames s core owner).isEmpty && c.runq.isEmpty && (c.headers.all fun h => !headerLive h.2)
    && !(s.orphans.any fun o => o.1 == k)

/-- Bytes placed at local offsets count as initial (R73). -/
def placeBytes (s : State) (core owner off : Nat) (bs : List Byte) : State :=
  setInitial s ((localLocs s core owner off bs.length).zip bs)

/-- The loader accepts an object for the cores that are to run it (R38): it fits the owner's banks on each, and one that it replaces is
quiet there. Which cores those are, the load names (DEDUCED, log 96). -/
def objectFits (s : State) (cores : List Nat) (owner : Nat) (o : CodeObject) : Bool :=
  cores.all fun c => decide (objectEnd o ≤ localSize s c owner) && ((ctxOf s (ctxKey c owner)).code.isNone || quiet s c owner)

/-- The bytes of the images of an object, as its area holds them (R101; DESIGN CHOICE, log 30). -/
def imageBytes (o : CodeObject) : List (Nat × List Byte) :=
  let c : Ctx := { decImg := o.dec.length, coefImg := o.coef.map List.length }
  let bytes := fun (ws : List (BitVec 32)) => ws.flatMap fun w => leBytes w.toNat 4
  let decs := (upto o.dec.length).map fun i => (4 * imagePlace c true i, bytes (o.dec.getD i []))
  let coefs := (upto o.coef.length).map fun i => (4 * imagePlace c false i, bytes (o.coef.getD i []))
  decs ++ coefs

/-- Where a byte of an image goes: a page that the owner can read and not write, none elsewhere (R38, R101). -/
def imageSpot (s : State) (core owner va : Nat) : Option Nat :=
  match engineWhere s core owner (word va) 0 with
  | .mem pa x => if x.wr || isWindow pa then none else some pa
  | _ => none

/-- Every byte of an object's images has its place in read-only memory of the owner (R101). -/
def imagesFit (s : State) (core owner base : Nat) (l : List (Nat × List Byte)) : Bool :=
  l.all fun p => (upto p.2.length).all fun i => (imageSpot s core owner (base + p.1 + i)).isSome

/-- One byte of an image is placed; it counts as initial, and copies of its line go (R73, R101). -/
def placeImageByte (core owner : Nat) (s : State) (va : Nat) (b : Byte) : State :=
  match imageSpot s core owner va with
  | some pa =>
    let s := setInitial s [(pa, b)]
    let s := if isPool pa then { s with poolMem := memPut s.poolMem pa b } else s
    (s.cores.map Prod.fst).foldl (fun s c => dropL1 s c fun l => l.pa == pa / 64 * 64) s
  | none => s

/-- The images of an object are placed in the owner's area (R101). -/
def placeImages (s : State) (core owner base : Nat) (l : List (Nat × List Byte)) : State :=
  l.foldl (fun s p => ((upto p.2.length).zip p.2).foldl (fun s x => placeImageByte core owner s (base + p.1 + x.1) x.2) s) s

/-- The sections of an object go into the owner's banks on a core (R38), and the banks in which a byte is loaded are not clean (R367).
What a longer object before it held beyond the new one, and between the new one's sections, stays: the manual gives those bytes no
contents (DESIGN CHOICE, log 75). -/
def placeObject (owner : Nat) (o : CodeObject) (s : State) (core : Nat) : State :=
  let k := ctxKey core owner
  let s := placeBytes s core owner 0 o.text
  let s := placeBytes s core owner (align64 o.text.length) o.data
  let s := placeBytes s core owner (objectRegion o) (List.replicate ((o.regions.map align64).foldl (· + ·) 0) 0)
  let s := setCtx s k { ctxOf s k with code := some o, decImg := o.dec.length, coefImg := o.coef.map List.length, imgBase := o.imgBase,
                                       region := objectRegion o }
  let bs := banksOf s core owner
  ((upto bs.length).filter fun i => decide (i * Config.bankBytes < objectEnd o)).foldl (fun s i =>
    let b := bs.getD i 0
    setBank s core b { NMap.get (coreOf s core).banks b {} with clean := false }) s

/-- CODE_OBJECT_LOAD (R38, R101, R367, R398): a verified object goes to every core that is to run it, or to none. -/
def execCodeObjectLoad (owner : Nat) (cores : List Nat) (object : CodeObject) (verified : Bool) (s : State) : Res :=
  let first := cores.headD 0
  commit s (if cores.isEmpty || !verified || !objectFits s cores owner object || !imagesFit s first owner object.imgBase (imageBytes object) then s
    else placeImages (cores.foldl (placeObject owner object) s) first owner object.imgBase (imageBytes object))

end Sys2Proof.Machine
end

