-- ==== Sys2Proof/Machine/Auto.lean ====
section
/-! DEFINITION. The model's own choice of the next event where the schedule names none (log 1): the first event of a fixed
list that does something, else an issue slot of the core that has waited longest for one. -/

namespace Sys2Proof.Machine

open Sys2Proof

/-- An event with its operands. -/
abbrev Move := State → Res

/-- Taking the event changes the state. -/
def doesSomething (s : State) (e : Move) : Bool :=
  match e s with
  | .next t => t != s
  | _ => false

/-- The arrival that serves a message in flight. -/
def arrivalOf (i : Nat) : Body → Move
  | .start _ => execStartRequestArrival i
  | .tdec .. => execTdecArrival i
  | .tinc .. => execTincArrival i
  | .barrier .. => execBarrierUpdate i
  | .slot .. => execSlotArrival i
  | .wopen .. => execWindowOpenArrival i
  | .wreply .. => execWindowOpenReply i
  | .credit .. => execCreditArrival i
  | .close .. => execWindowCloseArrival i
  | .endNotice .. => execEndNoticeArrival i
  | .join .. => execJoinArrival i
  | .leave .. => execLeaveArrival i
  | .tile .. => execTileArrival i
  | .free .. => execFreeArrival i
  | .freed .. => execFreeArrival i
  | .resume .. => execResumeArrival i

/-- The pool line that a request is for is granted, and the step that performs it. -/
def stepOf (i : Nat) (q : Req) : List Move :=
  (match reqTarget q with
    | some (.pa a, _) => if q.treat % 4 = 3 then [execPoolExclusiveGrant (a / 256)] else []
    | _ => []) ++
  match q.kind with
  | .amo .. => [execAtomicStep i]
  | .draw .. => [execAtomicStep i]
  | .apply .. => [execAtomicStep i]
  | .lock .. => [execLockStep i]
  | .ordered _ _ _ _ st _ => if st = 1 then [execOrderedResend i] else [execOrderedArrival i]
  | .watch .. => [execWatchArrival i]
  | .cap .. => [execCapabilityStep i]
  | .tinit .. => [execTinitStep i]
  | .bbinit .. => [execBbinitStep i]
  | .key .. => [execKeyStoreStep i]
  | .table .. => [execTableReplace (ctxCore q.ctx) q.frame]

/-- What a queue entry asks for: its settling or departure, and the grant of its pool line. -/
def entrySteps (k i : Nat) (e : QEntry) : List Move :=
  match e.body with
  | .msg .. => [execMessageDepart k i]
  | .write _ (.pa a) _ treat => (if treat % 4 = 3 then [execPoolExclusiveGrant (a / 256)] else []) ++ [execSettle k i]
  | _ => [execSettle k i]

/-- Places that a command is about to write. -/
def cmdTargets (s : State) (c : Cmd) : List ELoc :=
  match c.kind with
  | .copy .. => (match streamerHolding s c with
    | some ring => (nextPlaces s ring c).filterMap fun r => match r with
      | .ok p => some p.2
      | _ => none
    | none => [])
  | .vec .. => (match vcmdOf c with
    | some v => (match beatOf s c v with
      | .ok b => b.cells.map Prod.fst
      | _ => [])
    | none => [])
  | .car _ _ _ _ _ _ ring _ => (match (ringOf s ring).lease with
    | some l => (match partsFor s l.id l.next l.members with
      | some ps => ps.flatMap fun x => (match x.2.op, x.2.t with
        | 7, some t => (drainOf s x.1 x.2 t).1.map Prod.fst
        | _, _ => [])
      | none => [])
    | none => [])
  | _ => []

/-- A pool line that a command is about to write and that is not held exclusive is granted (R345). -/
def grantFor (c : Cmd) : Move := fun s =>
  match (cmdTargets s c).find? fun l => !linesHeld s [l] with
  | some l => execPoolExclusiveGrant (l.loc.getD 0 / 256) s
  | none => .next s

/-- The step of an engine command. -/
def cmdSteps (i : Nat) (c : Cmd) : List Move :=
  if c.finished then [execCopyDone i, execEngineCommandDone c.ctx c.cls c.num]
  else match c.kind with
    | .vec .. => [execVectorBeat (ctxCore c.ctx), grantFor c]
    | .copy .. => [execCopyChunk i, execCopyDone i, grantFor c]
    | .mcast .. => [execCopyChunk i, execCopyDone i]
    | .car _ _ _ _ _ _ ring _ => [execGroupCommandStart ring, grantFor c]

/-- Indexed elements of a list. -/
def indexed {α : Type} (l : List α) : List (Nat × α) := (upto l.length).zip l

/-- Something waits for the end of a record's quantum: a held request, a `qsync`, or a core whose QRET is through. -/
def quantumWanted (s : State) (i n : Nat) : Bool :=
  (s.held.any fun h => h.iface == i && h.index == n && h.state == 0)
    || s.cores.any fun c => (lineageFrames s c.1 i n).any fun f => quantumFull s c.1 f.2 || (match f.2.st with
      | .parked cs => cs.any fun x => match x with | .quantum .. => true | _ => false
      | _ => false)

/-- Events that may have something to do, in the order they are tried. -/
def autoCandidates (s : State) : List Move :=
  (indexed s.net).map (fun p => arrivalOf p.1 p.2.body)
    ++ s.ctxs.flatMap (fun c => (indexed c.2.queue).flatMap fun p => entrySteps c.1 p.1 p.2)
    ++ s.reads.flatMap (fun r => [execServeWeak r.id [], execServeAtHome r.id])
    ++ (indexed s.reqs).flatMap (fun p => stepOf p.1 p.2)
    ++ (indexed s.walks).map (fun p => execPageWalk p.1)
    ++ (indexed s.refusals).map (fun p => execRefusalReturn p.1)
    ++ (indexed s.notices).map (fun p => execEndNoticeSend p.1)
    ++ (indexed s.cmds).flatMap (fun p => cmdSteps p.1 p.2)
    ++ s.unpub.map (fun w => execPublish w) ++ s.unacked.map (fun w => execLinkWriteAck w)
    ++ s.birq.map (fun p => execApply p.1)
    ++ s.bumps.flatMap (fun b => match b.chain with | n :: _ => [execRollupStep n [b.id]] | [] => [])
    ++ s.rings.flatMap (fun r => (r.2.inbound.map fun e => execInboundQueueRelease r.1 e.1)
        ++ (if r.2.pending.any fun l => l.members.length == l.size then [execLeaseArbitration r.1] else []) ++ (if r.2.lease.isSome then [execLeaseIdleTimeout r.1] else []))
    ++ s.rings.flatMap (fun r => (s.owners.filter fun o => fusedDue s o.1 r.1).map fun o => execFusedL1Transition o.1 r.1)
    ++ s.ctxs.flatMap (fun c => if c.2.runq.isEmpty && (startsWaiting s (ctxCore c.1) (ctxOwner c.1)).isEmpty then []
        else [execActivationPlace (ctxCore c.1) (ctxOwner c.1)])
    ++ s.owners.flatMap (fun o =>
        if o.2.sweep && decide (o.2.sweepBy ≤ s.clk + 32768) then
          (s.rings.flatMap fun r => r.2.ways.map fun w => execSweepMove o.1 r.1 (w.1 / 16) (w.1 % 16)) ++ [execSweepEnd o.1]
        else [])
    ++ s.cores.flatMap (fun c => c.2.frames.flatMap fun f =>
        ((indexed f.2.owed).map fun o => execResultReturn c.1 f.1 o.1)
          ++ (match f.2.st with | .parked _ => [execParkRelease c.1 f.1] | _ => []))
    ++ s.ifaces.flatMap (fun i => (i.2.records.flatMap fun r =>
          (if r.2.state = .running then [execLaunchStartRequest i.1 r.1] else [])
            ++ (if r.2.det then [execMessageDepart (quantumCtx i.1 r.1) 0] else [])
            ++ if r.2.det && quantumWanted s i.1 r.1 then [execQuantumEnd i.1 r.1] else [])
        ++ (if i.2.await.isSome then [execNotifyStampPoll i.1, execNotifyTimeout i.1] else []))
    ++ s.points.flatMap (fun p => if p.2.queue.isEmpty then [] else [execArbitrationSlot (p.1 / 8192) (p.1 % 8192)])
    ++ [execStaticEnergy, execSlowdownNoticeSend, execSlowdownHoldExpiry]

/-- The core with a bank whose last issue slot lies furthest back. -/
def idleCore (s : State) : Nat :=
  match (s.cores.filter fun c => c.2.banks.any fun b => b.2.valid) with
  | [] => 0
  | c :: r => (r.foldl (fun (b : Nat × CoreSt) x => if x.2.lastSlot < b.2.lastSlot then x else b) c).1

/-- The step taken when the agenda is empty. -/
def autoStep (s : State) : Res := (((autoCandidates s).find? (doesSomething s)).getD (execIssueDraw (idleCore s))) s

end Sys2Proof.Machine
end

