-- ==== Sys2Proof/Machine/Dispatch.lean ====
section
/-! DEFINITION. One arm per row of the opcode table, each one direct call of its meaning. -/

namespace Sys2Proof.Machine

open Sys2Proof

def exec (i : Instr) (s : State) : Host.Outcome State Fault Refusal :=
  match i with
  | .add d a b => Sys2Proof.Machine.execAdd d a b s
  | .sub d a b => Sys2Proof.Machine.execSub d a b s
  | .and d a b => Sys2Proof.Machine.execAnd d a b s
  | .or d a b => Sys2Proof.Machine.execOr d a b s
  | .xor d a b => Sys2Proof.Machine.execXor d a b s
  | .andn d a b => Sys2Proof.Machine.execAndn d a b s
  | .orn d a b => Sys2Proof.Machine.execOrn d a b s
  | .nor d a b => Sys2Proof.Machine.execNor d a b s
  | .sll d a b => Sys2Proof.Machine.execSll d a b s
  | .srl d a b => Sys2Proof.Machine.execSrl d a b s
  | .sra d a b => Sys2Proof.Machine.execSra d a b s
  | .rol d a b => Sys2Proof.Machine.execRol d a b s
  | .ror d a b => Sys2Proof.Machine.execRor d a b s
  | .slt d a b => Sys2Proof.Machine.execSlt d a b s
  | .sltn d a b => Sys2Proof.Machine.execSltn d a b s
  | .seq d a b => Sys2Proof.Machine.execSeq d a b s
  | .sne d a b => Sys2Proof.Machine.execSne d a b s
  | .min d a b => Sys2Proof.Machine.execMin d a b s
  | .max d a b => Sys2Proof.Machine.execMax d a b s
  | .minn d a b => Sys2Proof.Machine.execMinn d a b s
  | .maxn d a b => Sys2Proof.Machine.execMaxn d a b s
  | .adds1 d a b => Sys2Proof.Machine.execAdds1 d a b s
  | .adds2 d a b => Sys2Proof.Machine.execAdds2 d a b s
  | .adds3 d a b => Sys2Proof.Machine.execAdds3 d a b s
  | .sel d a b => Sys2Proof.Machine.execSel d a b s
  | .clz d a => Sys2Proof.Machine.execClz d a s
  | .ctz d a => Sys2Proof.Machine.execCtz d a s
  | .popc d a => Sys2Proof.Machine.execPopc d a s
  | .brev d a => Sys2Proof.Machine.execBrev d a s
  | .bswap d a => Sys2Proof.Machine.execBswap d a s
  | .sxb d a => Sys2Proof.Machine.execSxb d a s
  | .sxh d a => Sys2Proof.Machine.execSxh d a s
  | .sxw d a => Sys2Proof.Machine.execSxw d a s
  | .zxw d a => Sys2Proof.Machine.execZxw d a s
  | .mul d a b => Sys2Proof.Machine.execMul d a b s
  | .mulh d a b => Sys2Proof.Machine.execMulh d a b s
  | .mulhn d a b => Sys2Proof.Machine.execMulhn d a b s
  | .mulw d a b => Sys2Proof.Machine.execMulw d a b s
  | .div d a b => Sys2Proof.Machine.execDiv d a b s
  | .divn d a b => Sys2Proof.Machine.execDivn d a b s
  | .rem d a b => Sys2Proof.Machine.execRem d a b s
  | .remn d a b => Sys2Proof.Machine.execRemn d a b s
  | .addi d a imm => Sys2Proof.Machine.execAddi d a imm s
  | .andi d a imm => Sys2Proof.Machine.execAndi d a imm s
  | .ori d a imm => Sys2Proof.Machine.execOri d a imm s
  | .xori d a imm => Sys2Proof.Machine.execXori d a imm s
  | .slti d a imm => Sys2Proof.Machine.execSlti d a imm s
  | .sltni d a imm => Sys2Proof.Machine.execSltni d a imm s
  | .slli d a sh => Sys2Proof.Machine.execSlli d a sh s
  | .srli d a sh => Sys2Proof.Machine.execSrli d a sh s
  | .srai d a sh => Sys2Proof.Machine.execSrai d a sh s
  | .roli d a sh => Sys2Proof.Machine.execRoli d a sh s
  | .bfx d a p l => Sys2Proof.Machine.execBfx d a p l s
  | .bfxs d a p l => Sys2Proof.Machine.execBfxs d a p l s
  | .bfi d a p l => Sys2Proof.Machine.execBfi d a p l s
  | .ldhi d imm => Sys2Proof.Machine.execLdhi d imm s
  | .adpc d imm => Sys2Proof.Machine.execAdpc d imm s
  | .fadd d a b f => Sys2Proof.Machine.execFadd d a b f s
  | .fsub d a b f => Sys2Proof.Machine.execFsub d a b f s
  | .fmul d a b f => Sys2Proof.Machine.execFmul d a b f s
  | .ffma d a b f => Sys2Proof.Machine.execFfma d a b f s
  | .fdiv d a b f => Sys2Proof.Machine.execFdiv d a b f s
  | .fsqrt d a f => Sys2Proof.Machine.execFsqrt d a f s
  | .fmin d a b f => Sys2Proof.Machine.execFmin d a b f s
  | .fmax d a b f => Sys2Proof.Machine.execFmax d a b f s
  | .fsgn d a b f => Sys2Proof.Machine.execFsgn d a b f s
  | .fsgnn d a b f => Sys2Proof.Machine.execFsgnn d a b f s
  | .fsgnx d a b f => Sys2Proof.Machine.execFsgnx d a b f s
  | .feq d a b f => Sys2Proof.Machine.execFeq d a b f s
  | .flt d a b f => Sys2Proof.Machine.execFlt d a b f s
  | .fle d a b f => Sys2Proof.Machine.execFle d a b f s
  | .fclass d a f => Sys2Proof.Machine.execFclass d a f s
  | .fcvti d a t f => Sys2Proof.Machine.execFcvti d a t f s
  | .fcvtf d a t f => Sys2Proof.Machine.execFcvtf d a t f s
  | .fcvtff d a sh f => Sys2Proof.Machine.execFcvtff d a sh f s
  | .fev d a m t => Sys2Proof.Machine.execFev d a m t s
  | .fred d a m t => Sys2Proof.Machine.execFred d a m t s
  | .beq a b p => Sys2Proof.Machine.execBeq a b p s
  | .bne a b p => Sys2Proof.Machine.execBne a b p s
  | .blt a b p => Sys2Proof.Machine.execBlt a b p s
  | .bge a b p => Sys2Proof.Machine.execBge a b p s
  | .bltn a b p => Sys2Proof.Machine.execBltn a b p s
  | .bgen a b p => Sys2Proof.Machine.execBgen a b p s
  | .bany a b p => Sys2Proof.Machine.execBany a b p s
  | .bnone a b p => Sys2Proof.Machine.execBnone a b p s
  | .dbnz a p => Sys2Proof.Machine.execDbnz a p s
  | .jmp p => Sys2Proof.Machine.execJmp p s
  | .jal p => Sys2Proof.Machine.execJal p s
  | .jr a => Sys2Proof.Machine.execJr a s
  | .jalr d a => Sys2Proof.Machine.execJalr d a s
  | .done => Sys2Proof.Machine.execDone s
  | .callat d a b => Sys2Proof.Machine.execCallat d a b s
  | .reply a b => Sys2Proof.Machine.execReply a b s
  | .ldB d a o imm => Sys2Proof.Machine.execLdB d a o imm s
  | .ldBn d a o imm => Sys2Proof.Machine.execLdBn d a o imm s
  | .ldH d a o imm => Sys2Proof.Machine.execLdH d a o imm s
  | .ldHn d a o imm => Sys2Proof.Machine.execLdHn d a o imm s
  | .ldW d a o imm => Sys2Proof.Machine.execLdW d a o imm s
  | .ldWn d a o imm => Sys2Proof.Machine.execLdWn d a o imm s
  | .ldD d a o imm => Sys2Proof.Machine.execLdD d a o imm s
  | .ldQ d a o imm => Sys2Proof.Machine.execLdQ d a o imm s
  | .stB d a o imm => Sys2Proof.Machine.execStB d a o imm s
  | .stH d a o imm => Sys2Proof.Machine.execStH d a o imm s
  | .stW d a o imm => Sys2Proof.Machine.execStW d a o imm s
  | .stD d a o imm => Sys2Proof.Machine.execStD d a o imm s
  | .stQ d a o imm => Sys2Proof.Machine.execStQ d a o imm s
  | .amoAdd d a b t n o => Sys2Proof.Machine.execAmoAdd d a b t n o s
  | .amoAnd d a b t n o => Sys2Proof.Machine.execAmoAnd d a b t n o s
  | .amoOr d a b t n o => Sys2Proof.Machine.execAmoOr d a b t n o s
  | .amoXor d a b t n o => Sys2Proof.Machine.execAmoXor d a b t n o s
  | .amoMin d a b t n o => Sys2Proof.Machine.execAmoMin d a b t n o s
  | .amoMax d a b t n o => Sys2Proof.Machine.execAmoMax d a b t n o s
  | .amoSwap d a b t n o => Sys2Proof.Machine.execAmoSwap d a b t n o s
  | .amoCas d a b t o => Sys2Proof.Machine.execAmoCas d a b t o s
  | .amoCasq d a b o => Sys2Proof.Machine.execAmoCasq d a b o s
  | .amoFadd d a b t n o => Sys2Proof.Machine.execAmoFadd d a b t n o s
  | .amoFmin d a b t n o => Sys2Proof.Machine.execAmoFmin d a b t n o s
  | .amoFmax d a b t n o => Sys2Proof.Machine.execAmoFmax d a b t n o s
  | .amoMinn d a b t n o => Sys2Proof.Machine.execAmoMinn d a b t n o s
  | .amoMaxn d a b t n o => Sys2Proof.Machine.execAmoMaxn d a b t n o s
  | .oadd d a b => Sys2Proof.Machine.execOadd d a b s
  | .ofadd d a b => Sys2Proof.Machine.execOfadd d a b s
  | .ojoin d a b => Sys2Proof.Machine.execOjoin d a b s
  | .rdlk d a b => Sys2Proof.Machine.execRdlk d a b s
  | .wrlk d a b => Sys2Proof.Machine.execWrlk d a b s
  | .rdul d a => Sys2Proof.Machine.execRdul d a s
  | .wrul d a => Sys2Proof.Machine.execWrul d a s
  | .lkinit d a b => Sys2Proof.Machine.execLkinit d a b s
  | .hbind d h c => Sys2Proof.Machine.execHbind d h c s
  | .hwait d h c => Sys2Proof.Machine.execHwait d h c s
  | .hfree d h c => Sys2Proof.Machine.execHfree d h c s
  | .hadv d h c => Sys2Proof.Machine.execHadv d h c s
  | .hrel h => Sys2Proof.Machine.execHrel h s
  | .hlda d h c => Sys2Proof.Machine.execHlda d h c s
  | .hsta d h c => Sys2Proof.Machine.execHsta d h c s
  | .nsend d a b => Sys2Proof.Machine.execNsend d a b s
  | .amsg a b => Sys2Proof.Machine.execAmsg a b s
  | .wopen d a b => Sys2Proof.Machine.execWopen d a b s
  | .mhdl d a b => Sys2Proof.Machine.execMhdl d a b s
  | .tinit d a b => Sys2Proof.Machine.execTinit d a b s
  | .tdec a b => Sys2Proof.Machine.execTdec a b s
  | .tinc a b => Sys2Proof.Machine.execTinc a b s
  | .larm d a => Sys2Proof.Machine.execLarm d a s
  | .lpatch d a b => Sys2Proof.Machine.execLpatch d a b s
  | .lstat d a b => Sys2Proof.Machine.execLstat d a b s
  | .widf d a => Sys2Proof.Machine.execWidf d a s
  | .qsync d => Sys2Proof.Machine.execQsync d s
  | .wb a b => Sys2Proof.Machine.execWb a b s
  | .inv a b => Sys2Proof.Machine.execInv a b s
  | .flush a b => Sys2Proof.Machine.execFlush a b s
  | .lrenew a b => Sys2Proof.Machine.execLrenew a b s
  | .pfch a b => Sys2Proof.Machine.execPfch a b s
  | .fenceAll sh => Sys2Proof.Machine.execFenceAll sh s
  | .fenceLd sh => Sys2Proof.Machine.execFenceLd sh s
  | .fenceSt sh => Sys2Proof.Machine.execFenceSt sh s
  | .fenceEng sh => Sys2Proof.Machine.execFenceEng sh s
  | .vadd d a b t => Sys2Proof.Machine.execVadd d a b t s
  | .vsub d a b t => Sys2Proof.Machine.execVsub d a b t s
  | .vmul d a b t => Sys2Proof.Machine.execVmul d a b t s
  | .vfma d a b t => Sys2Proof.Machine.execVfma d a b t s
  | .vmin d a b t => Sys2Proof.Machine.execVmin d a b t s
  | .vmax d a b t => Sys2Proof.Machine.execVmax d a b t s
  | .vabs d a b t => Sys2Proof.Machine.execVabs d a b t s
  | .vcvt d a b t => Sys2Proof.Machine.execVcvt d a b t s
  | .vscl d a b t => Sys2Proof.Machine.execVscl d a b t s
  | .vcmp d a b t => Sys2Proof.Machine.execVcmp d a b t s
  | .vsel d a b t => Sys2Proof.Machine.execVsel d a b t s
  | .vred d a b t => Sys2Proof.Machine.execVred d a b t s
  | .vfev d a b t => Sys2Proof.Machine.execVfev d a b t s
  | .vrng d a b t => Sys2Proof.Machine.execVrng d a b t s
  | .vsr d a b t => Sys2Proof.Machine.execVsr d a b t s
  | .vdrop d a b t => Sys2Proof.Machine.execVdrop d a b t s
  | .vgath d a b t => Sys2Proof.Machine.execVgath d a b t s
  | .vscat d a b t => Sys2Proof.Machine.execVscat d a b t s
  | .vsparse d a b t => Sys2Proof.Machine.execVsparse d a b t s
  | .vsend d a b t => Sys2Proof.Machine.execVsend d a b t s
  | .vcopy d a b t => Sys2Proof.Machine.execVcopy d a b t s
  | .vmexp d a b t => Sys2Proof.Machine.execVmexp d a b t s
  | .valign d a b t => Sys2Proof.Machine.execValign d a b t s
  | .vnorm d a b t => Sys2Proof.Machine.execVnorm d a b t s
  | .mlease d a => Sys2Proof.Machine.execMlease d a s
  | .mrel d a => Sys2Proof.Machine.execMrel d a s
  | .mcfg d => Sys2Proof.Machine.execMcfg d s
  | .mlda d a => Sys2Proof.Machine.execMlda d a s
  | .mldb d a => Sys2Proof.Machine.execMldb d a s
  | .mstep d a => Sys2Proof.Machine.execMstep d a s
  | .mrot d a => Sys2Proof.Machine.execMrot d a s
  | .mdrain d a => Sys2Proof.Machine.execMdrain d a s
  | .mzero d a => Sys2Proof.Machine.execMzero d a s
  | .mspm d a b => Sys2Proof.Machine.execMspm d a b s
  | .cpy d a b => Sys2Proof.Machine.execCpy d a b s
  | .cpyt d a b => Sys2Proof.Machine.execCpyt d a b s
  | .mcast d a => Sys2Proof.Machine.execMcast d a s
  | .join d a b => Sys2Proof.Machine.execJoin d a b s
  | .leave d a => Sys2Proof.Machine.execLeave d a s
  | .bfree d a b => Sys2Proof.Machine.execBfree d a b s
  | .mbox d a b => Sys2Proof.Machine.execMbox d a b s
  | .cpst d a b => Sys2Proof.Machine.execCpst d a b s
  | .cabort d a => Sys2Proof.Machine.execCabort d a s
  | .tdef d a b => Sys2Proof.Machine.execTdef d a b s
  | .tget d a b => Sys2Proof.Machine.execTget d a b s
  | .tdrop d a => Sys2Proof.Machine.execTdrop d a s
  | .dtld d a => Sys2Proof.Machine.execDtld d a s
  | .dtchk d => Sys2Proof.Machine.execDtchk d s
  | .cmld d a b => Sys2Proof.Machine.execCmld d a b s
  | .enc d a => Sys2Proof.Machine.execEnc d a s
  | .dec d a => Sys2Proof.Machine.execDec d a s
  | .reseed d a => Sys2Proof.Machine.execReseed d a s
  | .draw d a b => Sys2Proof.Machine.execDraw d a b s
  | .xcq d a b => Sys2Proof.Machine.execXcq d a b s
  | .ictr d a b => Sys2Proof.Machine.execIctr d a b s
  | .shq d a => Sys2Proof.Machine.execShq d a s
  | .cgive d a b => Sys2Proof.Machine.execCgive d a b s
  | .cq d a b => Sys2Proof.Machine.execCq d a b s
  | .cgrp d a b => Sys2Proof.Machine.execCgrp d a b s
  | .caccept d a => Sys2Proof.Machine.execCaccept d a s
  | .cnode d a => Sys2Proof.Machine.execCnode d a s
  | .cenr d a b => Sys2Proof.Machine.execCenr d a b s
  | .cdrop d a b => Sys2Proof.Machine.execCdrop d a b s
  | .cmove d a b => Sys2Proof.Machine.execCmove d a b s
  | .csettle d a => Sys2Proof.Machine.execCsettle d a s
  | .cread d a b => Sys2Proof.Machine.execCread d a b s
  | .tlw d a b => Sys2Proof.Machine.execTlw d a b s
  | .tlr d a => Sys2Proof.Machine.execTlr d a s
  | .bbinit d a b => Sys2Proof.Machine.execBbinit d a b s
  | .bbexp a b => Sys2Proof.Machine.execBbexp a b s
  | .bbarr a b => Sys2Proof.Machine.execBbarr a b s
  | .bbq d a => Sys2Proof.Machine.execBbq d a s
  | .mfs d n => Sys2Proof.Machine.execMfs d n s
  | .mts a n => Sys2Proof.Machine.execMts a n s
  | .trap => Sys2Proof.Machine.execTrap s
  | .brk => Sys2Proof.Machine.execBrk s
  | .tret => Sys2Proof.Machine.execTret s
  | .idle => Sys2Proof.Machine.execIdle s
  | .fresume d a b => Sys2Proof.Machine.execFresume d a b s
  | .tlbi a b => Sys2Proof.Machine.execTlbi a b s
  | .bankctl d a => Sys2Proof.Machine.execBankctl d a s
  | .ctxsave d a b => Sys2Proof.Machine.execCtxsave d a b s
  | .ctxload d a b => Sys2Proof.Machine.execCtxload d a b s
  | .issueDraw core => Sys2Proof.Machine.execIssueDraw core s
  | .arbitrationSlot code inst => Sys2Proof.Machine.execArbitrationSlot code inst s
  | .vectorBeat core => Sys2Proof.Machine.execVectorBeat core s
  | .leaseArbitration ring => Sys2Proof.Machine.execLeaseArbitration ring s
  | .groupCommandStart ring => Sys2Proof.Machine.execGroupCommandStart ring s
  | .leaseIdleTimeout ring => Sys2Proof.Machine.execLeaseIdleTimeout ring s
  | .settle ctx idx => Sys2Proof.Machine.execSettle ctx idx s
  | .coalesce ctx idx => Sys2Proof.Machine.execCoalesce ctx idx s
  | .messageDepart ctx idx => Sys2Proof.Machine.execMessageDepart ctx idx s
  | .serveWeak read choice => Sys2Proof.Machine.execServeWeak read choice s
  | .serveAtHome read => Sys2Proof.Machine.execServeAtHome read s
  | .fill core owner pa choice => Sys2Proof.Machine.execFill core owner pa choice s
  | .sectorFill owner pa => Sys2Proof.Machine.execSectorFill owner pa s
  | .probe pa owner => Sys2Proof.Machine.execProbe pa owner s
  | .leaseExpiry core idx => Sys2Proof.Machine.execLeaseExpiry core idx s
  | .atomicStep idx => Sys2Proof.Machine.execAtomicStep idx s
  | .resultReturn core frame idx => Sys2Proof.Machine.execResultReturn core frame idx s
  | .refusalReturn idx => Sys2Proof.Machine.execRefusalReturn idx s
  | .parkRelease core frame => Sys2Proof.Machine.execParkRelease core frame s
  | .fetchRefill core frame => Sys2Proof.Machine.execFetchRefill core frame s
  | .tableReplace core frame => Sys2Proof.Machine.execTableReplace core frame s
  | .keyStoreStep idx => Sys2Proof.Machine.execKeyStoreStep idx s
  | .sweepMove owner ring set way => Sys2Proof.Machine.execSweepMove owner ring set way s
  | .sweepEnd owner => Sys2Proof.Machine.execSweepEnd owner s
  | .fusedL1Transition owner ring => Sys2Proof.Machine.execFusedL1Transition owner ring s
  | .publish write => Sys2Proof.Machine.execPublish write s
  | .bisnpArrival port line writes => Sys2Proof.Machine.execBisnpArrival port line writes s
  | .apply port => Sys2Proof.Machine.execApply port s
  | .linkWriteAck write => Sys2Proof.Machine.execLinkWriteAck write s
  | .startRequestArrival idx => Sys2Proof.Machine.execStartRequestArrival idx s
  | .activationPlace core owner => Sys2Proof.Machine.execActivationPlace core owner s
  | .inboundQueueRelease ring owner => Sys2Proof.Machine.execInboundQueueRelease ring owner s
  | .windowOpenArrival idx => Sys2Proof.Machine.execWindowOpenArrival idx s
  | .windowOpenReply idx => Sys2Proof.Machine.execWindowOpenReply idx s
  | .slotArrival idx => Sys2Proof.Machine.execSlotArrival idx s
  | .creditArrival idx => Sys2Proof.Machine.execCreditArrival idx s
  | .windowCloseArrival idx => Sys2Proof.Machine.execWindowCloseArrival idx s
  | .tinitStep idx => Sys2Proof.Machine.execTinitStep idx s
  | .tdecArrival idx => Sys2Proof.Machine.execTdecArrival idx s
  | .tincArrival idx => Sys2Proof.Machine.execTincArrival idx s
  | .launchStartRequest iface index => Sys2Proof.Machine.execLaunchStartRequest iface index s
  | .endNoticeSend idx => Sys2Proof.Machine.execEndNoticeSend idx s
  | .endNoticeArrival idx => Sys2Proof.Machine.execEndNoticeArrival idx s
  | .bbinitStep idx => Sys2Proof.Machine.execBbinitStep idx s
  | .barrierUpdate idx => Sys2Proof.Machine.execBarrierUpdate idx s
  | .quantumEnd iface index => Sys2Proof.Machine.execQuantumEnd iface index s
  | .orderedArrival idx => Sys2Proof.Machine.execOrderedArrival idx s
  | .orderedResend idx => Sys2Proof.Machine.execOrderedResend idx s
  | .watchArrival idx => Sys2Proof.Machine.execWatchArrival idx s
  | .lockStep idx => Sys2Proof.Machine.execLockStep idx s
  | .capabilityStep idx => Sys2Proof.Machine.execCapabilityStep idx s
  | .copyChunk idx => Sys2Proof.Machine.execCopyChunk idx s
  | .copyDone idx => Sys2Proof.Machine.execCopyDone idx s
  | .engineCommandDone ctx cls num => Sys2Proof.Machine.execEngineCommandDone ctx cls num s
  | .joinArrival idx => Sys2Proof.Machine.execJoinArrival idx s
  | .leaveArrival idx => Sys2Proof.Machine.execLeaveArrival idx s
  | .tileArrival idx => Sys2Proof.Machine.execTileArrival idx s
  | .freeArrival idx => Sys2Proof.Machine.execFreeArrival idx s
  | .pageWalk idx => Sys2Proof.Machine.execPageWalk idx s
  | .resumeArrival idx => Sys2Proof.Machine.execResumeArrival idx s
  | .poolPortLoss port => Sys2Proof.Machine.execPoolPortLoss port s
  | .rollupStep node bumps => Sys2Proof.Machine.execRollupStep node bumps s
  | .caravan lcore target => Sys2Proof.Machine.execCaravan lcore target s
  | .thermalEmergency die => Sys2Proof.Machine.execThermalEmergency die s
  | .railLevelChange rail level => Sys2Proof.Machine.execRailLevelChange rail level s
  | .slowdownNoticeSend => Sys2Proof.Machine.execSlowdownNoticeSend s
  | .slowdownNoticeReceive link level => Sys2Proof.Machine.execSlowdownNoticeReceive link level s
  | .slowdownHoldExpiry => Sys2Proof.Machine.execSlowdownHoldExpiry s
  | .zasolLinkLost link => Sys2Proof.Machine.execZasolLinkLost link s
  | .peerAccessArrival link pa bytes write => Sys2Proof.Machine.execPeerAccessArrival link pa bytes write s
  | .hostMemoryAccess pa bytes write => Sys2Proof.Machine.execHostMemoryAccess pa bytes write s
  | .notify iface w value => Sys2Proof.Machine.execNotify iface w value s
  | .notifyStampPoll iface => Sys2Proof.Machine.execNotifyStampPoll iface s
  | .notifyTimeout iface => Sys2Proof.Machine.execNotifyTimeout iface s
  | .staticEnergy => Sys2Proof.Machine.execStaticEnergy s
  | .perstRelease => Sys2Proof.Machine.execPerstRelease s
  | .firmwareImageWrite verified => Sys2Proof.Machine.execFirmwareImageWrite verified s
  | .codeObjectLoad owner cores object verified => Sys2Proof.Machine.execCodeObjectLoad owner cores object verified s
  | .gateWrite core value => Sys2Proof.Machine.execGateWrite core value s
  | .bankmapWrite core value => Sys2Proof.Machine.execBankmapWrite core value s
  | .bankmapSelect core value => Sys2Proof.Machine.execBankmapSelect core value s
  | .ctdatWrite core value => Sys2Proof.Machine.execCtdatWrite core value s
  | .wayQuota owner ring value => Sys2Proof.Machine.execWayQuota owner ring value s
  | .interfaceWeight iface cls value => Sys2Proof.Machine.execInterfaceWeight iface cls value s
  | .ownerWeight owner cls value => Sys2Proof.Machine.execOwnerWeight owner cls value s
  | .peerWindowBase link value => Sys2Proof.Machine.execPeerWindowBase link value s
  | .ownerCreate owner iface => Sys2Proof.Machine.execOwnerCreate owner iface s
  | .ownerDestroy owner => Sys2Proof.Machine.execOwnerDestroy owner s
  | .ownerKey owner value => Sys2Proof.Machine.execOwnerKey owner value s
  | .bucket owner value => Sys2Proof.Machine.execBucket owner value s
  | .nodeQuota owner value => Sys2Proof.Machine.execNodeQuota owner value s
  | .shadowTableRoot owner value => Sys2Proof.Machine.execShadowTableRoot owner value s
  | .faultDescriptor owner value => Sys2Proof.Machine.execFaultDescriptor owner value s
  | .quantum iface value => Sys2Proof.Machine.execQuantum iface value s
  | .partition iface ring value => Sys2Proof.Machine.execPartition iface ring value s
  | .recordBuild iface index value => Sys2Proof.Machine.execRecordBuild iface index value s
  | .recordFree iface index => Sys2Proof.Machine.execRecordFree iface index s
  | .sharingKey index value => Sys2Proof.Machine.execSharingKey index value s
  | .regionWrite index value => Sys2Proof.Machine.execRegionWrite index value s
  | .regionMarkLost index => Sys2Proof.Machine.execRegionMarkLost index s
  | .nodeStoreBase value => Sys2Proof.Machine.execNodeStoreBase value s
  | .absentProbeClear ring value => Sys2Proof.Machine.execAbsentProbeClear ring value s
  | .slowDownLinkMask value => Sys2Proof.Machine.execSlowDownLinkMask value s
  | .ectrClear owner value => Sys2Proof.Machine.execEctrClear owner value s
  | .memoryEccError loc uncorrectable => Sys2Proof.Machine.execMemoryEccError loc uncorrectable s
  | .poolExclusiveGrant line => Sys2Proof.Machine.execPoolExclusiveGrant line s
  | .poolLinkRecovery port => Sys2Proof.Machine.execPoolLinkRecovery port s
  | .thermalEmergencyEnd die => Sys2Proof.Machine.execThermalEmergencyEnd die s
  | .hotCoreCooling core => Sys2Proof.Machine.execHotCoreCooling core s
  | .zasolFlitRetry link => Sys2Proof.Machine.execZasolFlitRetry link s

end Sys2Proof.Machine
end

