-- ==== Sys2Proof/Machine/Step.lean ====
section
/-! DEFINITION. One step: the word of an issue slot that has been drawn, or the next event of the schedule. -/

namespace Sys2Proof.Machine

open Sys2Proof

/-- What a step takes. A drawn issue slot issues its frame's word (R68-R70); otherwise the next event of the schedule is
taken after its clks have passed, and before it the issue slots of theirs in which a frame issues; or, with none named, the model's own
choice (log 1). -/
def stepTaken (s : State) : Host.Outcome State Fault Refusal :=
  if s.issuing then
    let u := { s with issuing := false }
    match fetchCheck u with
    | .stopped t => commit u t
    | .go i t => exec i t
  else
    match s.agenda with
    | x :: r =>
      if x.ev.isWord then .fault .notAnEvent
      else
        let t := passed { s with agenda := r } x.advance
        let left := s.clk + x.advance - t.clk
        (match if left = 0 then none else dueCore t with
         | some c => execIssueDraw c { t with agenda := { x with advance := left } :: r }
         | none => exec x.ev t)
    | [] => autoStep s

/-- One step of the machine. -/
def step (s : State) : Host.Outcome State Fault Refusal := ended s (stepTaken s)

/-- The state with an instruction placed where the next step fetches it (log 4): core 0's bank 0 belongs to owner 0, its
frame 0 runs at local offset 0, has the issue slot, and the word stands there. -/
def State.withFetchWord (s : State) (nbits w : Nat) : State :=
  let c := coreOf s 0
  let c := { c with banks := NMap.put c.banks 0 { owner := 0, valid := true, clean := false },
                    frames := NMap.put c.frames 0 { frameOf s 0 0 with st := .active, owner := 0, pc := 0, fbuf := [], owed := [], again := false },
                    sup := false }
  { s with
    cores := NMap.put s.cores 0 c
    mem := applyWrites s.mem (cellsAt (bankLoc 0 0) (bytesOfWord (BitVec.ofNat 32 (w % 2 ^ nbits))))
    agenda := []
    issuing := true
    cur := (0, 0) }

end Sys2Proof.Machine
end

