-- ==== Sys2Proof/Safety.lean ====
section
/-! DEFINITION. What counts as a safe run, and what an instruction leaves alone, in the terms claims use. -/

namespace Sys2Proof.Machine

open Sys2Proof

/-- The invariant every step keeps: memory is in its canonical form, and no write of a step is left over. -/
structure Inv (s : State) : Prop where
  mem  : Memory.wf s.mem = true
  wbuf : s.wbuf = []

/-- A frame with its register file and PC set aside. -/
def bareFrame (f : Frame) : Frame := { f with regs := Vector.replicate 32 0, pc := 0 }

/-- A core with its frames and the handler's register file and PC set aside. -/
def bareCore (c : CoreSt) : CoreSt := { c with frames := [], hregs := Vector.replicate 32 0, hpc := 0 }

/-- A context with its retirement count set aside. -/
def bareCtx (c : Ctx) : Ctx := { c with qret := 0 }

/-- `t` is `u` after the issuing frame, changed by `upd` beside its registers and PC, has written at most the registers
`ds` and moved to `pc`: every other register, frame, core, context and field is as in `u`. -/
structure Moves (u t : State) (upd : Frame → Frame) (ds : List Reg) (pc : Word) : Prop where
  /-- Every field but the cores and contexts: memory, the history, queues of the fabric, tables, clocks. -/
  rest   : { t with cores := u.cores, ctxs := u.ctxs } = u
  /-- Every byte of memory reads as before. -/
  bytes  : ∀ a, byteAt t a = byteAt u a
  /-- Banks, special registers, caches and TLBs of every core. -/
  core   : ∀ c, bareCore (coreOf t c) = bareCore (coreOf u c)
  /-- Frames other than the issuing one, whole. -/
  frames : ∀ c f, (c, f) ≠ u.cur → frameOf t c f = frameOf u c f
  /-- The issuing frame but for registers and PC: FFLAGS, handles, windows, owed results and the rest. -/
  frame  : bareFrame (curFrame t) = bareFrame (upd (curFrame u))
  /-- Contexts but for the retirement count: queue, knowledge, engines, tables. -/
  ctx    : ∀ k, bareCtx (ctxOf t k) = bareCtx (ctxOf u k)
  /-- The handler's registers and PC on other cores. -/
  others : ∀ c, c ≠ u.cur.1 → (coreOf t c).hregs = (coreOf u c).hregs ∧ (coreOf t c).hpc = (coreOf u c).hpc
  /-- Of the issuing core, the register file and PC that are not in use (R365). -/
  idle   : if inHandler u then (curFrame t).regs = (curFrame u).regs ∧ (curFrame t).pc = (curFrame u).pc
           else (curCore t).hregs = (curCore u).hregs ∧ (curCore t).hpc = (curCore u).hpc
  /-- General registers but the destinations. -/
  regs   : ∀ r, r ∉ ds → rd t r = rd u r
  /-- The PC. -/
  pc     : curPc t = pc

/-- `Moves`, and the instruction retires: QRET of its context rises by one where its lineage is deterministic (R135). -/
structure Retires (u t : State) (upd : Frame → Frame) (ds : List Reg) (pc : Word) : Prop where
  moves : Moves u t upd ds pc
  qret  : ∀ k, (ctxOf t k).qret =
    if k = curCtx u ∧ inHandler u = false ∧ detLin u (curFrame u).lin = true then ((ctxOf u k).qret + 1) % 2 ^ 32
    else (ctxOf u k).qret

/-- The instruction completes at once and only writes register `d`: `v` holds of what `d` then reads. g0 reads 0 (R50). -/
def Writes (i : Instr) (s : State) (d : Reg) (v : Word → Prop) : Prop :=
  ∃ t, exec i s = .next t ∧ Retires s t id [d] (curPc s + 4) ∧ (d ≠ 0 → v (rd t d)) ∧ rd t 0 = 0

/-- The frame with FFLAGS raised. -/
def withFlags (fl : Nat) (f : Frame) : Frame := { f with fflags := Nat.lor f.fflags fl }

/-- The instruction completes at once, writes register `d` with a value and raises flags, and does nothing else (R110,
R119-R123). -/
def WritesF (i : Instr) (s : State) (d : Reg) (v fl : Nat) : Prop :=
  ∃ t, exec i s = .next t ∧ Retires s t (withFlags fl) [d] (curPc s + 4) ∧ (d ≠ 0 → rd t d = word v) ∧ rd t 0 = 0

/-- The frame with one more owed result: register numbers from 32 are the handler's (R133, R365). -/
def owing (h : Bool) (d : Reg) (id : Nat) (v : Option Word) (f : Frame) : Frame :=
  { f with owed := f.owed ++ [{ id := id, reg := d.toNat + (if h then 32 else 0), val := v, learn := none }] }

/-- The instruction completes at issue but for its result, which is owed to `d` and satisfies `v` (R133, R139). -/
def WritesLate (i : Instr) (s : State) (d : Reg) (v : Word → Prop) : Prop :=
  ∃ x, v x ∧ ∃ t, exec i s = .next t ∧
    Retires { s with nextId := s.nextId + 1 } t (owing (inHandler s) d s.nextId (some x)) [] (curPc s + 4)

/-- The fetch buffer after a transfer of control: emptied, but for the handler, which has none (R164). -/
def emptied (h : Bool) (f : Frame) : Frame := if h then f else { f with fbuf := [] }

/-- The instruction transfers control to `p` under the condition `c`, else goes on at PC + 4; it writes at most `ds`. -/
def Transfers (i : Instr) (s : State) (c : Prop) (p : Word) (ds : List Reg) : Prop :=
  ∃ t, exec i s = .next t ∧ (c → Retires s t (emptied (inHandler s)) ds p) ∧ (¬c → Retires s t id ds (curPc s + 4))

/-! ### Instructions that act on more than registers -/

/-- The state a step answers, its writes of memory made. -/
def committed (s v : State) : State := { v with mem := applyWrites s.mem v.wbuf, wbuf := [] }

/-- The frame after an instruction that could have parked: its wait is over. -/
def ready (f : Frame) : Frame := { f with granted := false, walked := [], wfault := [] }

/-- The frame parked on conditions after its instruction has moved the PC on; it retires at its release (R127, R135). -/
def waiting (cs : List Cond) (clk : Nat) (f : Frame) : Frame :=
  { f with st := .parked cs, since := clk, granted := false, walked := [], wfault := [], retDue := true }

/-- The instruction completes: `u` holds its effects beside the issuing frame's registers and PC, `upd` what it does to
the frame; it writes at most the registers `ds`, retires at PC + 4, and stores to no byte outside `st`. -/
def Completes (i : Instr) (s u : State) (upd : Frame → Frame) (ds : List Reg) (st : Nat → Prop) (P : State → Prop) : Prop :=
  ∃ t, exec i s = .next t ∧ Retires (committed s u) t upd ds (curPc s + 4)
    ∧ (Inv s → ∀ a, ¬st a → byteAt t a = byteAt s a) ∧ P t

/-- The instruction has had its effect `u`, its PC has moved on, and the frame waits for `cs` before it retires. -/
def CompletesWaiting (i : Instr) (s u : State) (cs : List Cond) (st : Nat → Prop) (P : State → Prop) : Prop :=
  ∃ t, exec i s = .next t ∧ Moves (committed s u) t (waiting cs s.clk) [] (curPc s + 4)
    ∧ (Inv s → ∀ a, ¬st a → byteAt t a = byteAt s a) ∧ P t

/-- The instruction has had its effect `u` so far: the frame parks on `cs` at the same PC and executes it again (R127). -/
def ParksAfter (i : Instr) (s u : State) (cs : List Cond) : Prop :=
  ∃ t, exec i s = .next t ∧ Moves (committed s u) t (fun f => { f with st := .parked cs, since := s.clk }) [] (curPc s)

/-- The instruction has no effect yet: the frame parks on `cs` at the same PC and executes it again (R127). -/
def Parks (i : Instr) (s : State) (cs : List Cond) : Prop := ParksAfter i s s cs

/-- The instruction traps, by the shared operation of R71 and R364. -/
def Traps (i : Instr) (s : State) (cause sub : Nat) (addr : Word) : Prop := exec i s = commit s (trap s cause sub addr)

/-- Register d then reads `v`; g0 discards it (R50). -/
def Gives (d : Reg) (v : Word) (t : State) : Prop := d ≠ 0 → rd t d = v

/-- No byte of memory. -/
def noByte (_ : Nat) : Prop := False

/-- The instruction is complete but for its answer `v`, which returns to d and for which the frame parks (R127, R133); it
changes no byte outside `st`. -/
def CompletesOwingIn (i : Instr) (s u : State) (d : Reg) (v : Word) (st : Nat → Prop) (P : State → Prop) : Prop :=
  CompletesWaiting i s (owe { u with nextId := u.nextId + 1 } d u.nextId (some v)) [.answer u.nextId] st P

/-- The same, with no byte changed. -/
def CompletesOwing (i : Instr) (s u : State) (d : Reg) (v : Word) (P : State → Prop) : Prop := CompletesOwingIn i s u d v noByte P

/-- A byte of some words of node records, in the node store (R351). -/
def nodeByte (s : State) (ws : List (Nat × Nat)) (a : Nat) : Prop := ∃ q ∈ ws, nodeLoc s q.1 q.2 ≤ a ∧ a < nodeLoc s q.1 q.2 + 8

/-- The 24 bytes that the hardware writes of a header of the issuing core (R166). -/
def headerByte (s : State) (k off : Nat) (a : Nat) : Prop :=
  ∃ l, localLoc s (ctxCore k) (ctxOwner k) (off + 8) = some l ∧ l ≤ a ∧ a < l + 24

/-- The first byte that an access through a decoded address touches (R152, R162). -/
def accessBase (s : State) (w : Where) : Nat := tgtBase s (curOwner s) (whereTgt w)

/-- No carousel holds a lease or a request for one (R322). -/
def noLease (s : State) : Prop := ∀ p ∈ s.rings, p.2.lease = none ∧ p.2.pending = []

/-- The decoded address is a place that can be accessed. -/
def reached (w : Where) : Prop := (∃ pa x, w = .mem pa x) ∨ (∃ c o, w = .loc c o)

/-- An address that the issuing frame cannot reach now: XLAT, PROT or POOL traps, and a miss walks (R72, R374). `ok` says
which pages the instruction may reach at all. -/
def Unreached (i : Instr) (s : State) (va : Word) (acc : Nat) (ok : Nat → Xlat → Bool := fun _ _ => true) : Prop :=
  (∀ c, whereCur s va acc ok = .fault c → exec i s = commit s (whereTrap s c va))
  ∧ (whereCur s va acc ok = .miss → exec i s = commit s (startWalk s va acc))

/-! ### Dirty data of the L1s (R251, R252)

A line that leaves an L1 is written back first: the store-queue entries it holds as dirty settle where they may. -/

/-- The dirty write is an older one, and its entry, where it has one, is a write to memory of the device or the pool. -/
def plainEntry (s : State) (w : Nat) : Prop :=
  w < s.nextId ∧ ∀ k i e, entryOf s w = some (k, i, e) → ∃ a n tr, e.body = .write w (.pa a) n tr ∧ isWindow a = false

/-- A byte that a write back of dirty L1 data may change. -/
def dirtyByte (s : State) (a : Nat) : Prop :=
  ∃ p ∈ s.cores, ∃ l ∈ p.2.l1, ∃ w ∈ l.dirty, covers s w a = true ∨ ¬plainEntry s w

/-- Dirty L1 data of a 256-byte line may be written back. -/
def dirtyLine (s : State) (line : Nat) : Prop :=
  ∃ p ∈ s.cores, ∃ l ∈ p.2.l1, ∃ w ∈ l.dirty, l.pa / 256 = line ∨ (∃ a, a / 256 = line ∧ covers s w a = true) ∨ ¬plainEntry s w
    ∨ ∃ k i e a n tr, entryOf s w = some (k, i, e) ∧ e.body = .write w (.pa a) n tr ∧ a / 256 = line

/-- The L1s of some cores hold no dirty data of an owner's self-invalidating copies. -/
def selfClean (s : State) (cs : List Nat) (owner : Nat) : Prop :=
  ∀ c ∈ cs, ∀ l ∈ (coreOf s c).l1, l.owner = owner → l.treat = 1 → l.dirty = []

/-- No line of the L1 set that serves an address for the issuing owner holds dirty data. -/
def setClean (s : State) (w : Where) : Prop :=
  match w with
  | .mem pa _ => ∀ l ∈ (coreOf s (l1Core s s.cur.1 (curOwner s) pa)).l1, l.pa / 64 % 64 = pa / 64 % 64 → l.dirty = []
  | _ => True

/-! ### Events of the machine's own -/

/-- The event leaves every byte of memory as it was. -/
def Quiet (s t : State) : Prop := s.wbuf = [] → ∀ a, byteAt t a = byteAt s a

/-- The event leaves every byte of memory as it was, but for dirty L1 data that it writes back. -/
def QuietBut (s t : State) : Prop := s.wbuf = [] → ∀ a, ¬dirtyByte s a → byteAt t a = byteAt s a

/-- The owed result of a frame has its value, if the activation still runs. -/
def Answered (s t : State) (core frame act id : Nat) (v : Word) : Prop :=
  (frameOf t core frame).owed = (let f := frameOf s core frame
    if f.act = act ∧ f.st ≠ .free then f.owed.map fun o => if o.id = id then { o with val := some v } else o else f.owed)

/-- The read is gone, and its value is there. -/
def Served (r : Read) (v : Word) (s t : State) : Prop :=
  t.reads = s.reads.filter (fun x => x.id != r.id) ∧ Answered s t (ctxCore r.ctx) r.frame r.act r.owed v ∧ QuietBut s t

/-- The place of a read can be served: the read has its grants and the clk is a slot of its unit, it stands in a bank where no
earlier access waits, or its region, link and bytes are sound, and no L1 holds dirty data of its lines. -/
def servable (s : State) (r : Read) : Prop :=
  (∀ l ∈ readLocs s r, poisoned s l = false) ∧ unitSlot s r.tgt = true ∧ standsAt s r.id = false
  ∧ match r.tgt with
    | .loc c o => mustFollow s c (ctxOwner r.ctx) r.ctx = false ∧ (localLoc s c (ctxOwner r.ctx) o).isSome = true
    | .pa a => lostAt s a = false ∧ isWindow a = false ∧ ∀ l ∈ readLocs s r, ¬dirtyLine s (l / 256)

/-- The message at an index of the fabric has its grants and may reach its core, where its owner is resident and nothing waits
before it. -/
def delivers (s : State) (n : Nat) (m : Msg) : Prop :=
  s.net[n]? = some m ∧ inOrder s m = true ∧ standsAt s m.id = false ∧ mustFollow s m.core m.owner m.ctx = false

/-- The request at an index has its grants and may be performed. -/
def performs (s : State) (n : Nat) (q : Req) : Prop := s.reqs[n]? = some q ∧ reqReady s q = true

/-- The request is answered and gone. -/
def Replied (q : Req) (v : Word) (s t : State) : Prop :=
  t.reqs = s.reqs.filter (fun x => x.id != q.id) ∧ Answered s t (ctxCore q.ctx) q.frame q.act q.id v ∧ QuietBut s t

end Sys2Proof.Machine
end

