-- ==== Sys2Proof/Certificates/Slice0/Obligations.lean ====
section
/-! DEFINITION. The statements for the provers: each is a claim about the machine, with the rules it formalises. -/

open Sys2Proof Sys2Proof.Machine

/-! ### Integer instructions (R138-R144) -/

/-- R138: each integer operation completes for every register choice and every value, writes the 64-bit result of the
rule's table to d (discarded for g0), sets no flag, and changes nothing else but the PC and the retirement count. -/
def Obligations.IntegerOperations : Prop := ∀ (s : State) (d a b : Reg),
  let x := rd s a
  let y := rd s b
  let k := y.toNat % 64
  Writes (.add d a b) s d (fun v => v.toNat = (x.toNat + y.toNat) % 2 ^ 64)
  ∧ Writes (.sub d a b) s d (fun v => (v.toNat + y.toNat) % 2 ^ 64 = x.toNat)
  ∧ Writes (.and d a b) s d (fun v => ∀ i < 64, v.getLsbD i = (x.getLsbD i && y.getLsbD i))
  ∧ Writes (.or d a b) s d (fun v => ∀ i < 64, v.getLsbD i = (x.getLsbD i || y.getLsbD i))
  ∧ Writes (.xor d a b) s d (fun v => ∀ i < 64, v.getLsbD i = (x.getLsbD i != y.getLsbD i))
  ∧ Writes (.andn d a b) s d (fun v => ∀ i < 64, v.getLsbD i = (x.getLsbD i && !y.getLsbD i))
  ∧ Writes (.orn d a b) s d (fun v => ∀ i < 64, v.getLsbD i = (x.getLsbD i || !y.getLsbD i))
  ∧ Writes (.nor d a b) s d (fun v => ∀ i < 64, v.getLsbD i = !(x.getLsbD i || y.getLsbD i))
  ∧ Writes (.sll d a b) s d (fun v => v.toNat = x.toNat * 2 ^ k % 2 ^ 64)
  ∧ Writes (.srl d a b) s d (fun v => v.toNat = x.toNat / 2 ^ k)
  ∧ Writes (.sra d a b) s d (fun v => v.toInt = x.toInt / 2 ^ k)
  ∧ Writes (.rol d a b) s d (fun v => ∀ i < 64, v.getLsbD ((i + k) % 64) = x.getLsbD i)
  ∧ Writes (.ror d a b) s d (fun v => ∀ i < 64, v.getLsbD i = x.getLsbD ((i + k) % 64))
  ∧ Writes (.slt d a b) s d (fun v => v.toNat = if x.toInt < y.toInt then 1 else 0)
  ∧ Writes (.sltn d a b) s d (fun v => v.toNat = if x.toNat < y.toNat then 1 else 0)
  ∧ Writes (.seq d a b) s d (fun v => v.toNat = if x = y then 1 else 0)
  ∧ Writes (.sne d a b) s d (fun v => v.toNat = if x ≠ y then 1 else 0)
  ∧ Writes (.min d a b) s d (fun v => v.toInt = min x.toInt y.toInt)
  ∧ Writes (.max d a b) s d (fun v => v.toInt = max x.toInt y.toInt)
  ∧ Writes (.minn d a b) s d (fun v => v.toNat = min x.toNat y.toNat)
  ∧ Writes (.maxn d a b) s d (fun v => v.toNat = max x.toNat y.toNat)
  ∧ Writes (.adds1 d a b) s d (fun v => v.toNat = (x.toNat + y.toNat * 2) % 2 ^ 64)
  ∧ Writes (.adds2 d a b) s d (fun v => v.toNat = (x.toNat + y.toNat * 4) % 2 ^ 64)
  ∧ Writes (.adds3 d a b) s d (fun v => v.toNat = (x.toNat + y.toNat * 8) % 2 ^ 64)
  ∧ Writes (.sel d a b) s d (fun v => v = if (rd s d).toNat ≠ 0 then x else y)
  ∧ Writes (.clz d a) s d (fun v => v.toNat ≤ 64 ∧ (∀ i < v.toNat, x.getLsbD (63 - i) = false)
      ∧ (v.toNat < 64 → x.getLsbD (63 - v.toNat) = true))
  ∧ Writes (.ctz d a) s d (fun v => v.toNat ≤ 64 ∧ (∀ i < v.toNat, x.getLsbD i = false)
      ∧ (v.toNat < 64 → x.getLsbD v.toNat = true))
  ∧ Writes (.popc d a) s d (fun v => v.toNat = ((List.range 64).filter fun i => x.getLsbD i).length)
  ∧ Writes (.brev d a) s d (fun v => ∀ j < 64, v.getLsbD (63 - j) = x.getLsbD j)
  ∧ Writes (.bswap d a) s d (fun v => ∀ j < 8, ∀ i < 8, v.getLsbD (8 * (7 - j) + i) = x.getLsbD (8 * j + i))
  ∧ Writes (.sxb d a) s d (fun v => v.toInt = (x.setWidth 8).toInt)
  ∧ Writes (.sxh d a) s d (fun v => v.toInt = (x.setWidth 16).toInt)
  ∧ Writes (.sxw d a) s d (fun v => v.toInt = (x.setWidth 32).toInt)
  ∧ Writes (.zxw d a) s d (fun v => v.toNat = x.toNat % 2 ^ 32)

/-- R139: each multiply and divide completes at issue but for its result, which is owed to d (R133), with the rule's two
fixed cases; RESULT_RETURN then writes it. -/
def Obligations.MultiplyDivide : Prop := ∀ (s : State) (d a b : Reg),
  let x := rd s a
  let y := rd s b
  WritesLate (.mul d a b) s d (fun v => v.toNat = x.toNat * y.toNat % 2 ^ 64)
  ∧ WritesLate (.mulh d a b) s d (fun v => v.toInt = x.toInt * y.toInt / 2 ^ 64)
  ∧ WritesLate (.mulhn d a b) s d (fun v => v.toNat = x.toNat * y.toNat / 2 ^ 64)
  ∧ WritesLate (.mulw d a b) s d (fun v => v.toInt = (x.setWidth 32 * y.setWidth 32 : BitVec 32).toInt)
  ∧ WritesLate (.div d a b) s d (fun v =>
      if y = 0 then v.toNat = 2 ^ 64 - 1
      else if x.toInt = -2 ^ 63 ∧ y.toInt = -1 then v.toInt = -2 ^ 63
      else v.toInt = x.toInt.tdiv y.toInt)
  ∧ WritesLate (.divn d a b) s d (fun v => if y = 0 then v.toNat = 2 ^ 64 - 1 else v.toNat = x.toNat / y.toNat)
  ∧ WritesLate (.rem d a b) s d (fun v =>
      if y = 0 then v = x
      else if x.toInt = -2 ^ 63 ∧ y.toInt = -1 then v = 0
      else v.toInt = x.toInt - x.toInt.tdiv y.toInt * y.toInt)
  ∧ WritesLate (.remn d a b) s d (fun v => if y = 0 then v = x else v.toNat = x.toNat % y.toNat)

/-- R140, R141: the immediate forms and the shifts by an immediate, with every result written out.

R142-R144: bit fields (len is the field l plus 1) and the two constants. A word whose pos and len together pass 64
is refused by the decoder with SUB 4 before any meaning runs. -/
def Obligations.ImmediatesFieldsAndConstants : Prop :=
  (∀ (s : State) (d a : Reg) (i : BitVec 16) (k : BitVec 6),
  let x := rd s a
  Writes (.addi d a i) s d (fun v => v.toInt = (x.toInt + i.toInt).bmod (2 ^ 64))
  ∧ Writes (.andi d a i) s d (fun v => v.toNat = x.toNat % 2 ^ 16 &&& i.toNat)
  ∧ Writes (.ori d a i) s d (fun v => ∀ j < 64, v.getLsbD j = (x.getLsbD j || i.getLsbD (Nat.min j 15)))
  ∧ Writes (.xori d a i) s d (fun v => ∀ j < 64, v.getLsbD j = (x.getLsbD j != i.getLsbD (Nat.min j 15)))
  ∧ Writes (.slti d a i) s d (fun v => v.toNat = if x.toInt < i.toInt then 1 else 0)
  ∧ Writes (.sltni d a i) s d (fun v => v.toNat = if x.toNat < (i.signExtend 64).toNat then 1 else 0)
  ∧ Writes (.slli d a k) s d (fun v => v.toNat = x.toNat * 2 ^ k.toNat % 2 ^ 64)
  ∧ Writes (.srli d a k) s d (fun v => v.toNat = x.toNat / 2 ^ k.toNat)
  ∧ Writes (.srai d a k) s d (fun v => v.toInt = x.toInt / 2 ^ k.toNat)
  ∧ Writes (.roli d a k) s d (fun v => ∀ j < 64, v.getLsbD ((j + k.toNat) % 64) = x.getLsbD j))
  ∧ (∀ (s : State) (d a : Reg) (p l : BitVec 6) (i : BitVec 21),
  let x := rd s a
  (p.toNat + (l.toNat + 1) ≤ 64 →
    Writes (.bfx d a p l) s d (fun v => v.toNat = x.toNat / 2 ^ p.toNat % 2 ^ (l.toNat + 1))
    ∧ Writes (.bfxs d a p l) s d (fun v => ∀ j < 64, v.getLsbD j = x.getLsbD (p.toNat + Nat.min j l.toNat))
    ∧ Writes (.bfi d a p l) s d (fun v => ∀ j < 64, v.getLsbD j =
        if p.toNat ≤ j ∧ j < p.toNat + (l.toNat + 1) then x.getLsbD (j - p.toNat) else (rd s d).getLsbD j))
  ∧ (64 < p.toNat + (l.toNat + 1) →
    decodeWord (encode (.bfx d a p l)) = .error .limit ∧ decodeWord (encode (.bfxs d a p l)) = .error .limit
    ∧ decodeWord (encode (.bfi d a p l)) = .error .limit)
  ∧ Writes (.ldhi d i) s d (fun v => v.toInt = i.toInt * 2 ^ 16)
  ∧ Writes (.adpc d i) s d (fun v => v = curPc s + BitVec.ofInt 64 (i.toInt * 4)))

/-! ### Floating point (R103-R123) -/

/-- R120-R123: compares, classes, conversions and the special functions complete for every register, format and value,
with the result and the flags of the rule; the sign that `fred` gives at k = 0 is log 74, the model's choice. -/
def Obligations.FloatComparesAndConversions : Prop :=
  ∀ (s : State) (d a b : Reg) (f c : FFmt) (n : IntTy) (mo tb : BitVec 2),
  let m := fmtOfCode f
  let rm := (curFrame s).rmode
  let x := unpack m ((rd s a).toNat % 2 ^ fmtWidth m)
  let y := unpack m ((rd s b).toNat % 2 ^ fmtWidth m)
  let nan := isNaN x || isNaN y
  let k := (fmtOfCode c)
  let xc := unpack k ((rd s a).toNat % 2 ^ fmtWidth k)
  let lo : Int := match n with | .i32 => -2 ^ 31 | .i64 => -2 ^ 63 | .n32 => 0 | .n64 => 0
  let hi : Int := match n with | .i32 => 2 ^ 31 - 1 | .i64 => 2 ^ 63 - 1 | .n32 => 2 ^ 32 - 1 | .n64 => 2 ^ 64 - 1
  let width := match n with | .i32 => 32 | .i64 => 64 | .n32 => 32 | .n64 => 64
  WritesF (.feq d a b f) s d (if nan = false ∧ ltV x y = false ∧ ltV y x = false then 1 else 0) (readFlags [x, y])
  ∧ WritesF (.flt d a b f) s d (if nan = false ∧ ltV x y = true then 1 else 0) (if nan then flNV else 0)
  ∧ WritesF (.fle d a b f) s d (if nan = false ∧ ltV y x = false then 1 else 0) (if nan then flNV else 0)
  ∧ WritesF (.fclass d a f) s d (2 ^ (match x with
      | .inf neg => if neg then 0 else 7
      | .nan sig => if sig then 8 else 9
      | .fin neg v _ => if v = 0 then (if neg then 3 else 4)
          else if v < 2 ^ m.fb then (if neg then 2 else 5) else (if neg then 1 else 6))) 0
  ∧ (match x with
     | .nan _ => WritesF (.fcvti d a n f) s d 0 flNV
     | .inf neg => WritesF (.fcvti d a n f) s d ((if neg then lo else hi) % 2 ^ width).toNat flNV
     | .fin neg v e =>
       let r : Int := (if neg then -1 else 1) * ((roundInt rm neg v e).1 : Int)
       if r < lo then WritesF (.fcvti d a n f) s d (lo % 2 ^ width).toNat flNV
       else if hi < r then WritesF (.fcvti d a n f) s d (hi % 2 ^ width).toNat flNV
       else WritesF (.fcvti d a n f) s d (r % 2 ^ width).toNat (if (roundInt rm neg v e).2 then flNX else 0))
  ∧ (let i : Int := match n with
       | .i32 => ((rd s a).setWidth 32).toInt
       | .i64 => (rd s a).toInt
       | .n32 => (((rd s a).toNat % 2 ^ 32 : Nat) : Int)
       | .n64 => ((rd s a).toNat : Int)
     let r := roundTo m rm (.fin (decide (i < 0)) i.natAbs 0)
     WritesF (.fcvtf d a n f) s d r.1 r.2)
  ∧ WritesF (.fcvtff d a c f) s d (roundTo m rm xc).1 (Nat.lor (readFlags [xc]) (roundTo m rm xc).2)
  ∧ WritesF (.fev d a mo tb) s d
      (evalCoef (NMap.get (ctxOf s (curCtx s)).coef tb.toNat {}) ((rd s a).toNat % 2 ^ 32) mo.toNat).1
      (evalCoef (NMap.get (ctxOf s (curCtx s)).coef tb.toNat {}) ((rd s a).toNat % 2 ^ 32) mo.toNat).2
  ∧ (let r := fredV (NMap.get (ctxOf s (curCtx s)).coef tb.toNat {}) ((rd s a).toNat % 2 ^ 32) mo.toNat
     WritesF (.fred d a mo tb) s d (if mo.toNat % 2 = 0 then r.1 else (r.2.1 % 2 ^ 64).toNat) r.2.2)

/-- R119: each arithmetic operation completes for every register, format and value: the exact result of its operands
(read in the format) is rounded once by the frame's RMODE, written to d with zeros above the format, and its flags rise
and none falls; the sign moves copy bits and raise none.

R109, mode 1: toward zero takes the representable magnitude nearest to zero that is not greater than the exact one.
For every format, sign and exact value v = m × 2^e, the magnitude of the result is at most m × 2^e, and, below the largest
finite magnitude, the next representable magnitude is above it. -/
def Obligations.FloatArithmetic : Prop :=
  (∀ (s : State) (d a b : Reg) (f : FFmt),
  let m := fmtOfCode f
  let rm := (curFrame s).rmode
  let w := fmtWidth m
  let p := (rd s a).toNat % 2 ^ w
  let q := (rd s b).toNat % 2 ^ w
  let x := unpack m p
  let y := unpack m q
  let z := unpack m ((rd s d).toNat % 2 ^ w)
  let one := fun (i : Instr) (xs : List FVal) (v : FVal × Nat) =>
    WritesF i s d (roundTo m rm v.1).1 (Nat.lor (readFlags xs) (Nat.lor v.2 (roundTo m rm v.1).2))
  let sign := fun (i : Instr) (g : Bool) =>
    Writes i s d (fun v => v.toNat < 2 ^ w ∧ (∀ j < w - 1, v.getLsbD j = (rd s a).getLsbD j) ∧ v.getLsbD (w - 1) = g)
  one (.fadd d a b f) [x, y] (addV rm x y)
  ∧ one (.fsub d a b f) [x, y] (addV rm x (negV y))
  ∧ one (.fmul d a b f) [x, y] (mulV x y)
  ∧ one (.ffma d a b f) [x, y, z] (fmaV rm x y z)
  ∧ one (.fdiv d a b f) [x, y] (divV x y)
  ∧ one (.fsqrt d a f) [x] (sqrtV x)
  ∧ WritesF (.fmin d a b f) s d
      (if isNaN x = true ∧ isNaN y = true then canonNaN m else if isNaN x = true then q else if isNaN y = true then p
       else if ltV y x = true ∨ (eqV x y = true ∧ signOf y = true ∧ signOf x = false) then q else p) (readFlags [x, y])
  ∧ WritesF (.fmax d a b f) s d
      (if isNaN x = true ∧ isNaN y = true then canonNaN m else if isNaN x = true then q else if isNaN y = true then p
       else if ltV x y = true ∨ (eqV x y = true ∧ signOf x = true ∧ signOf y = false) then q else p) (readFlags [x, y])
  ∧ sign (.fsgn d a b f) ((rd s b).getLsbD (w - 1))
  ∧ sign (.fsgnn d a b f) (!(rd s b).getLsbD (w - 1))
  ∧ sign (.fsgnx d a b f) ((rd s a).getLsbD (w - 1) != (rd s b).getLsbD (w - 1)))
  ∧ (∀ (f : FFmt) (neg : Bool) (m : Nat) (e : Int), m ≠ 0 →
  let k := fmtOfCode f
  let p := (roundTo k 1 (.fin neg m e)).1
  let mag := p % 2 ^ (k.eb + k.fb)
  let value := fun (x : Nat) => match unpack k x with
    | .fin _ n g => (n : Rat) * 2 ^ g
    | _ => 0
  p / 2 ^ (k.eb + k.fb) = (if neg then 1 else 0)
  ∧ mag ≤ maxBits k false
  ∧ value mag ≤ (m : Rat) * 2 ^ e
  ∧ (mag < maxBits k false → (m : Rat) * 2 ^ e < value (mag + 1)))

/-! ### Control (R146-R148) -/

/-- R146, R147: each branch completes for every operand and displacement: it goes to PC + 4 × disp exactly where its
condition holds, else to PC + 4, and changes no register; `dbnz` first takes one from a, wrapping, and g0 stays 0.

R148: the jumps complete for every target whose low two bits are 0, `jalr` reading a before it writes d; any other
target traps with ALIGN and the jump's own PC (the trap is the shared operation of R71 and R364). -/
def Obligations.BranchesAndJumps : Prop :=
  (∀ (s : State) (a b : Reg) (p : BitVec 16),
  let x := rd s a
  let y := rd s b
  let t := curPc s + BitVec.ofInt 64 (p.toInt * 4)
  Transfers (.beq a b p) s (x = y) t []
  ∧ Transfers (.bne a b p) s (x ≠ y) t []
  ∧ Transfers (.blt a b p) s (x.toInt < y.toInt) t []
  ∧ Transfers (.bge a b p) s (x.toInt ≥ y.toInt) t []
  ∧ Transfers (.bltn a b p) s (x.toNat < y.toNat) t []
  ∧ Transfers (.bgen a b p) s (x.toNat ≥ y.toNat) t []
  ∧ Transfers (.bany a b p) s (∃ j, (x.getLsbD j && y.getLsbD j) = true) t []
  ∧ Transfers (.bnone a b p) s (∀ j, (x.getLsbD j && y.getLsbD j) = false) t []
  ∧ Transfers (.dbnz a p) s (x.toNat ≠ 1) t [a]
  ∧ (∀ u, exec (.dbnz a p) s = .next u → rd u a = if a = 0 then 0 else x - 1))
  ∧ (∀ (s : State) (d a : Reg) (p : BitVec 26),
  let t := curPc s + BitVec.ofInt 64 (p.toInt * 4)
  Transfers (.jmp p) s True t []
  ∧ (∃ u, exec (.jal p) s = .next u ∧ Retires s u (emptied (inHandler s)) [1] t ∧ rd u 1 = curPc s + 4)
  ∧ ((rd s a).toNat % 4 = 0 →
      Transfers (.jr a) s True (rd s a) []
      ∧ (∃ u, exec (.jalr d a) s = .next u ∧ Retires s u (emptied (inHandler s)) [d] (rd s a)
          ∧ rd u d = if d = 0 then 0 else curPc s + 4))
  ∧ ((rd s a).toNat % 4 ≠ 0 →
      exec (.jr a) s = commit s (trap s 0x03 0 (rd s a)) ∧ exec (.jalr d a) s = commit s (trap s 0x03 0 (rd s a))))

/-! ### Traps, the handler and the end of an activation (R137, R364-R366, R381) -/

/-- R365: TRAP and BRK enter the handler of a core whose owner 0 holds a bank: EPC, ECAUSE and EADDR, the handler's
registers, its PC at EVEC, and the trapped frame's own registers and state untouched. With no bank of owner 0 they
terminate, and in the handler they are double traps (R366). -/
def Obligations.TrapAndBreakEnterTheHandler : Prop := ∀ (s : State) (i : Instr) (cause : Nat),
  (i = .trap ∧ cause = 0x0E ∨ i = .brk ∧ cause = 0x0F) →
  let c := s.cur.1
  let f := curFrame s
  let ec := word (cause + f.owner * 2 ^ 16)
  (inHandler s = false → banksOf s c 0 ≠ [] → ∃ t, exec i s = .next t
    ∧ t = { committed s s with cores := t.cores }
    ∧ (∀ j, j ≠ c → coreOf t j = coreOf s j)
    ∧ (coreOf t c).frames = (coreOf s c).frames
    ∧ (coreOf t c).epc = f.pc ∧ (coreOf t c).ecause = ec ∧ (coreOf t c).eaddr = 0
    ∧ inHandler t = true ∧ curPc t = word (coreOf s c).evec ∧ curOwner t = 0
    ∧ rd t 2 = ec ∧ rd t 3 = 0 ∧ rd t 4 = f.pc ∧ rd t 5 = word (s.cur.2 + f.owner * 2 ^ 8)
    ∧ (∀ r : Reg, r ≠ 2 → r ≠ 4 → r ≠ 5 → rd t r = 0)
    ∧ (∀ a, s.wbuf = [] → byteAt t a = byteAt s a))
  ∧ (inHandler s = false → banksOf s c 0 = [] →
      exec i s = commit s (terminate (writeTrapRegs s cause 0 0 f.pc f.owner) c s.cur.2 cause 0 0 f.pc))
  ∧ (inHandler s = true → exec i s = commit s (doubleTrap s))

/-- R69, R364: a terminating trap outside the handler, on a core that runs no handler: EPC holds the instruction's PC,
ECAUSE the cause, SUB and owner, EADDR the address; the activation ends as `done` ends it, its frame is Free with its
registers as they were, every other frame keeps registers and PC, and ERRORS of its launch rises by one.

R364, R368, R370: a recoverable fault outside the handler parks the frame on its instruction with the sequence number
of its entry, and keeps its registers and PC; an owner without a descriptor has its activation ended instead.

R366: a trap inside the handler, whatever its cause, ends the trapped activation: SUP is 0, the handler's registers
are gone, and the frame is Free. -/
def Obligations.TrapOutcomes : Prop :=
  (∀ (s : State) (cause sub : Nat) (addr : Word),
  cause ≠ 0x0E → cause ≠ 0x0F → inHandler s = false →
  let c := s.cur.1
  let f := s.cur.2
  let t := trap s cause sub addr
  (frameOf t c f).st = .free ∧ (frameOf t c f).handles = [] ∧ (frameOf t c f).windows = [] ∧ (frameOf t c f).owed = []
  ∧ (frameOf t c f).regs = (curFrame s).regs
  ∧ (∀ a b, (a, b) ≠ (c, f) → (frameOf t a b).regs = (frameOf s a b).regs ∧ (frameOf t a b).pc = (frameOf s a b).pc)
  ∧ ((coreOf s c).sup = false → (coreOf t c).epc = curPc s ∧ (coreOf t c).eaddr = addr
      ∧ (coreOf t c).ecause = word (cause + sub * 2 ^ 8 + curOwner s * 2 ^ 16))
  ∧ ((coreOf s c).sup = true → (coreOf t c).epc = (coreOf s c).epc ∧ (coreOf t c).ecause = (coreOf s c).ecause
      ∧ (coreOf t c).eaddr = (coreOf s c).eaddr)
  ∧ (∀ i n, noLease s → (curFrame s).lin.launch = some (i, n) →
      (recOf t i n).errors = min ((recOf s i n).errors + 1) (2 ^ 32 - 1)))
  ∧ (∀ (s : State) (cause : Nat) (addr : Word),
  cause ≠ 0x0E → cause ≠ 0x0F → inHandler s = false →
  let c := s.cur.1
  let f := s.cur.2
  let d := (ownerOf s (curOwner s)).desc
  let t := trap s cause 0 addr true
  (d ≠ 0 → (frameOf t c f).st = .parked [.fault (rdNat s (d + 32) 8) addr cause none]
      ∧ (frameOf t c f).regs = (curFrame s).regs ∧ (frameOf t c f).pc = (curFrame s).pc
      ∧ (frameOf t c f).handles = (curFrame s).handles ∧ (frameOf t c f).owed = (curFrame s).owed)
  ∧ (d = 0 → (frameOf t c f).st = .free)
  ∧ (∀ a b, (a, b) ≠ (c, f) → (frameOf t a b).regs = (frameOf s a b).regs ∧ (frameOf t a b).pc = (frameOf s a b).pc))
  ∧ (∀ (s : State) (cause sub : Nat) (addr : Word) (rec : Bool), inHandler s = true →
  let t := trap s cause sub addr rec
  (coreOf t s.cur.1).sup = false ∧ (coreOf t s.cur.1).hregs = Vector.replicate 32 0
  ∧ (frameOf t s.cur.1 s.cur.2).st = .free
  ∧ (∀ a b, (a, b) ≠ s.cur → (frameOf t a b).regs = (frameOf s a b).regs ∧ (frameOf t a b).pc = (frameOf s a b).pc))

/-- R381: `tret` in the handler discards the handler's registers and resumes the frame at EPC with its own registers;
outside it only advances the PC. `idle` parks until a wake event reaches the core, and completes once woken. -/
def Obligations.ReturnAndIdle : Prop := ∀ (s : State),
  (inHandler s = true → ∃ t, exec .tret s = .next t
    ∧ (coreOf t s.cur.1).sup = false ∧ (coreOf t s.cur.1).hregs = Vector.replicate 32 0
    ∧ curPc t = (coreOf s s.cur.1).epc ∧ (curFrame t).regs = (curFrame s).regs ∧ (curFrame t).handles = (curFrame s).handles
    ∧ curOwner t = (curFrame s).owner
    ∧ (∀ a b, (a, b) ≠ s.cur → frameOf t a b = frameOf s a b)
    ∧ (∀ a, s.wbuf = [] → byteAt t a = byteAt s a))
  ∧ (inHandler s = false → Completes .tret s s id [] noByte fun _ => True)
  ∧ ((curFrame s).granted = false → Parks .idle s [.wake (coreOf s s.cur.1).wakes])
  ∧ ((curFrame s).granted = true → Completes .idle s s (fun f => { f with granted := false }) [] noByte fun _ => True)

/-- R137, R365: `done` completes in every state: the frame is Free, holds no handle, window or owed result and keeps its
registers, its own unserved reads are gone, other frames keep registers and PC, and requests already issued stay. In the
handler it ends the trapped activation and the handler. Without handles, a data arrival or leases no byte changes. -/
def Obligations.EndOfActivation : Prop := ∀ (s : State),
  let c := s.cur.1
  let f := s.cur.2
  ∃ t, exec .done s = .next t
    ∧ (frameOf t c f).st = .free ∧ (frameOf t c f).handles = [] ∧ (frameOf t c f).windows = [] ∧ (frameOf t c f).owed = []
    ∧ (frameOf t c f).regs = (curFrame s).regs
    ∧ (∀ a b, (a, b) ≠ (c, f) → (frameOf t a b).regs = (frameOf s a b).regs ∧ (frameOf t a b).pc = (frameOf s a b).pc)
    ∧ t.reads = s.reads.filter (fun r => !(r.ctx == ctxKey c (curFrame s).owner && r.frame == f && r.act == (curFrame s).act))
    ∧ t.reqs = s.reqs
    ∧ (inHandler s = true → (coreOf t c).sup = false ∧ (coreOf t c).hregs = Vector.replicate 32 0)
    ∧ (Inv s → (curFrame s).handles = [] → (curFrame s).slot = none → noLease s → ∀ a, byteAt t a = byteAt s a)

/-! ### Calls and replies (R188, R189) -/

/-- The start request a call, a reply or an active message of the issuing frame carries (R136). -/
def Sys2Proof.callBody (s : State) (entry : Nat) (regs : List (Nat × Word)) : Body :=
  .start { owner := curOwner s, entry := entry, regs := regs, lin := (curFrame s).lin, tag := (ctxOf s (curCtx s)).known,
           wid := 0, wfmt := 0, launch := none, slot := none }

/-- R189, R175: `callat`, `reply` and `amsg` with operands in range and room in the segment post one message with the
entry and registers of the rule, and `callat` writes the ticket, all read before d is written; a full segment parks; an
operand out of range is ILL with SUB 4 before a misaligned entry is ALIGN.

R76, R91, R202: what posting a message does: outside a deterministic launch one entry joins the tail of the issuing
context's queue, a release that waits for every earlier entry and every earlier read of the frame, and nothing else
changes; a request that R202 lists, of a deterministic launch, is held for the quantum's end instead. -/
def Obligations.CallsAndMessages : Prop :=
  (∀ (s : State) (d a b : Reg),
  let t := rd s a
  let e := rd s b
  let k := curCtx s
  let x := ctxOf s k
  let room := 1 ≤ segmentRoom s k (curBank s)
  let args := [(2, rd s 2), (3, rd s 3), (4, rd s 4), (5, rd s 5)]
  let ticket := word ((curFrame s).reply * 4 + s.cur.1 * 2 ^ 19 + x.callSeq * 2 ^ 32)
  let fits := t.toNat < 6144 ∧ e.toNat < 2 ^ 19
  (fits → e.toNat % 4 = 0 → room →
    Completes (.callat d a b) s
      (post (setCtx s k { x with callSeq := (x.callSeq + 1) % 2 ^ 32 }) t.toNat (curOwner s)
        (callBody s e.toNat (args ++ [(6, ticket)]))) id [d] noByte (Gives d ticket)
    ∧ Completes (.amsg a b) s (post s t.toNat (curOwner s) (callBody s e.toNat args)) id [] noByte fun _ => True)
  ∧ (fits → e.toNat % 4 = 0 → ¬room →
      Parks (.callat d a b) s [.segment (curBank s)] ∧ Parks (.amsg a b) s [.segment (curBank s)])
  ∧ (¬fits → Traps (.callat d a b) s 0x01 4 ((curFrame s).word.setWidth 64)
      ∧ Traps (.amsg a b) s 0x01 4 ((curFrame s).word.setWidth 64))
  ∧ (fits → e.toNat % 4 ≠ 0 → Traps (.callat d a b) s 0x03 0 e ∧ Traps (.amsg a b) s 0x03 0 e)
  ∧ (bits t 31 19 < 6144 → t.toNat % 4 = 0 → room →
      Completes (.reply a b) s (post s (bits t 31 19) (curOwner s) (callBody s (bits t 18 0) [(2, e), (3, t)])) id []
        noByte fun _ => True)
  ∧ (bits t 31 19 < 6144 → t.toNat % 4 = 0 → ¬room → Parks (.reply a b) s [.segment (curBank s)])
  ∧ (6144 ≤ bits t 31 19 → Traps (.reply a b) s 0x01 4 ((curFrame s).word.setWidth 64))
  ∧ (bits t 31 19 < 6144 → t.toNat % 4 ≠ 0 → Traps (.reply a b) s 0x03 0 t))
  ∧ (∀ (s : State) (core owner : Nat) (b : Body),
  let k := curCtx s
  let u := post s core owner b
  let isHeld := heldKind b = true ∧ inHandler s = false ∧ detLin s (curFrame s).lin = true
  (¬isHeld → ∃ e : QEntry, (ctxOf u k).queue = (ctxOf s k).queue ++ [e] ∧ e.id = s.nextId ∧ e.body = .msg core owner b
      ∧ e.rel = true ∧ e.bank = curBank s ∧ e.after = (ctxOf s k).queue.map QEntry.id
      ∧ e.reads = ((s.reads.filter fun r => r.ctx == k && r.frame == s.cur.2 && r.act == (curFrame s).act).map Read.id)
      ∧ e.tag = (ctxOf s k).known
      ∧ u = { s with ctxs := u.ctxs, nextId := s.nextId + 1 } ∧ (∀ j, j ≠ k → ctxOf u j = ctxOf s j)
      ∧ ctxOf u k = { ctxOf s k with queue := (ctxOf u k).queue })
  ∧ (isHeld → ∃ h, u = { s with held := s.held ++ [h], nextId := s.nextId + 1 } ∧ h.core = s.cur.1 ∧ h.seq = s.nextId
      ∧ some (h.iface, h.index) = (curFrame s).lin.launch ∧ h.entry.map QEntry.body = some (.msg core owner b)))

/-! ### Loads and stores (R161-R163) -/

/-- R161, R162: every load of one register, of every order and address. Aligned and reachable, it completes at issue but
for its value: one read of the rule's size and extension at the decoded place enters the machine and is owed to d, and no
byte changes; an acquire waits for its read. Misaligned it is ALIGN; an address that is not reached faults or walks.

R161, R162: `ld.q` is two 8-byte reads, the lower address first, owed to d and to d + 1; each is noted as the other half. -/
def Obligations.LoadsAndPairs : Prop :=
  (∀ (s : State) (d a : Reg) (o : LdOrd) (i : BitVec 11) (n : Nat) (sx : Bool) (ld : Instr),
  ((n, sx, ld) = (1, true, .ldB d a o i) ∨ (n, sx, ld) = (1, false, .ldBn d a o i)
    ∨ (n, sx, ld) = (2, true, .ldH d a o i) ∨ (n, sx, ld) = (2, false, .ldHn d a o i)
    ∨ (n, sx, ld) = (4, true, .ldW d a o i) ∨ (n, sx, ld) = (4, false, .ldWn d a o i)
    ∨ (n, sx, ld) = (8, false, .ldD d a o i)) →
  let va := rd s a + i.signExtend 64
  let mode := match o with | .weak => 0 | .strong => 1 | .acq => 2
  (va.toNat % n ≠ 0 → Traps ld s 0x03 0 va)
  ∧ (va.toNat % n = 0 → Unreached ld s va 0)
  ∧ (va.toNat % n = 0 → ∀ w, whereCur s va 0 = w → reached w →
      let u := issueRead s w n sx mode d va
      (∃ r : Read, u.reads = s.reads ++ [r] ∧ r.id = s.nextId ∧ r.tgt = whereTgt w ∧ r.len = n ∧ r.sx = sx ∧ r.mode = mode
        ∧ r.va = va ∧ r.pc = curPc s ∧ r.owed = s.nextId ∧ r.ctx = curCtx s ∧ r.frame = s.cur.2)
      ∧ (curFrame u).owed = (owing (inHandler s) d s.nextId none (curFrame s)).owed
      ∧ (o ≠ .acq → Completes ld s u ready [] noByte fun _ => True)
      ∧ (o = .acq → CompletesWaiting ld s u [.settled [] [s.nextId]] noByte fun _ => True)))
  ∧ (∀ (s : State) (d a : Reg) (o : LdOrd) (i : BitVec 11),
  let va := rd s a + i.signExtend 64
  let mode := match o with | .weak => 0 | .strong => 1 | .acq => 2
  (va.toNat % 16 ≠ 0 → Traps (.ldQ d a o i) s 0x03 0 va)
  ∧ (va.toNat % 16 = 0 → Unreached (.ldQ d a o i) s va 0)
  ∧ (va.toNat % 16 = 0 → ∀ w, whereCur s va 0 = w → reached w →
      let u1 := issueRead s w 8 false mode d va
      let u := pairReads (issueRead u1 (whereAdd w 8) 8 false mode (d + 1) (va + 8)) s.nextId u1.nextId
      ((∀ x ∈ s.reads, x.id < s.nextId) → ∃ r q : Read, u.reads = s.reads ++ [r, q] ∧ r.pair = q.id ∧ q.pair = r.id ∧ r.len = 8 ∧ q.len = 8 ∧ r.va = va ∧ q.va = va + 8 ∧ r.tgt = whereTgt w
        ∧ q.tgt = whereTgt (whereAdd w 8) ∧ r.id = s.nextId ∧ q.id = u1.nextId ∧ r.owed = r.id ∧ q.owed = q.id)
      ∧ (o ≠ .acq → Completes (.ldQ d a o i) s u ready [] noByte fun _ => True)
      ∧ (o = .acq → CompletesWaiting (.ldQ d a o i) s u [.settled [] [s.nextId, u1.nextId]] noByte fun _ => True)))

/-- R84, R162: every store of one register. Aligned, reachable, with no unserved strong read of the frame to its bytes and
room in the segment, it completes: one write group of the low bytes of d, at the decoded place, joins the tail of the
context's queue, and no byte of memory changes yet but for dirty data of lines that leave the L1; the strong read or the
full segment parks it.

R162: `st.q` is two 8-byte groups, d at the lower address and then d + 1, entered together. -/
def Obligations.StoresAndPairs : Prop :=
  (∀ (s : State) (d a : Reg) (o : StOrd) (i : BitVec 11) (n : Nat) (st : Instr),
  ((n, st) = (1, .stB d a o i) ∨ (n, st) = (2, .stH d a o i) ∨ (n, st) = (4, .stW d a o i) ∨ (n, st) = (8, .stD d a o i)) →
  let va := rd s a + i.signExtend 64
  let k := curCtx s
  (va.toNat % n ≠ 0 → Traps st s 0x03 0 va)
  ∧ (va.toNat % n = 0 → Unreached st s va 1)
  ∧ (va.toNat % n = 0 → ∀ w, whereCur s va 1 = w → reached w →
      let rs := strongReads s (locsFrom (accessBase s w) n)
      (rs ≠ [] → Parks st s [.settled [] rs])
      ∧ (rs = [] → segmentRoom s k (curBank s) < 1 → Parks st s [.segment (curBank s)])
      ∧ (rs = [] → 1 ≤ segmentRoom s k (curBank s) →
          let u := storeGroup s w (leBytes (rd s d).toNat n) o va
          Completes st s u ready [] (dirtyByte s) (fun _ => True)
          ∧ (setClean s w → ∃ e : QEntry, (ctxOf u k).queue = (ctxOf s k).queue ++ [e]
            ∧ e.body = .write s.nextId (whereTgt w) n (whereTreat w) ∧ e.frame = s.cur.2 ∧ e.bank = curBank s
            ∧ (e.weak = true ↔ o = .weak) ∧ (e.rel = true ↔ o = .rel)
            ∧ (wrec u s.nextId).bytes = cellsAt (accessBase s w) (leBytes (rd s d).toNat n)
            ∧ (wrec u s.nextId).known = (ctxOf s k).known))))
  ∧ (∀ (s : State) (d a : Reg) (o : StOrd) (i : BitVec 11),
  let va := rd s a + i.signExtend 64
  let k := curCtx s
  (va.toNat % 16 ≠ 0 → Traps (.stQ d a o i) s 0x03 0 va)
  ∧ (va.toNat % 16 = 0 → Unreached (.stQ d a o i) s va 1)
  ∧ (va.toNat % 16 = 0 → ∀ w, whereCur s va 1 = w → reached w →
      let rs := strongReads s (locsFrom (accessBase s w) 16)
      (rs ≠ [] → Parks (.stQ d a o i) s [.settled [] rs])
      ∧ (rs = [] → segmentRoom s k (curBank s) < 2 → Parks (.stQ d a o i) s [.segment (curBank s)])
      ∧ (rs = [] → 2 ≤ segmentRoom s k (curBank s) →
          Completes (.stQ d a o i) s
            (storeGroup (storeGroup s w (leBytes (rd s d).toNat 8) o va) (whereAdd w 8) (leBytes (rd s (d + 1)).toNat 8) o
              (va + 8)) ready [] (dirtyByte s) fun _ => True)))

/-! ### Atomics (R262-R275) -/

/-- What an `amo` of the issuing frame is: its operation code of R63, type, returning or not, order, operand and expected
value, destination. -/
def Sys2Proof.amoForm (s : State) (d a b : Reg) (t : AmoTy) (n : Bool) (o : AmoOrd) (op : Nat) (ret : Bool) (x e : Nat) (i : Instr) : Prop :=
  let y := (rd s b).toNat
  (i = .amoAdd d a b t n o ∧ op = 0 ∨ i = .amoAnd d a b t n o ∧ op = 1 ∨ i = .amoOr d a b t n o ∧ op = 2
    ∨ i = .amoXor d a b t n o ∧ op = 3 ∨ i = .amoMin d a b t n o ∧ op = 4 ∨ i = .amoMax d a b t n o ∧ op = 5
    ∨ i = .amoSwap d a b t n o ∧ op = 6 ∨ i = .amoFadd d a b t n o ∧ op = 9 ∨ i = .amoFmin d a b t n o ∧ op = 10
    ∨ i = .amoFmax d a b t n o ∧ op = 11 ∨ i = .amoMinn d a b t n o ∧ op = 12 ∨ i = .amoMaxn d a b t n o ∧ op = 13)
    ∧ ret = !n ∧ x = y ∧ e = 0
  ∨ i = .amoCas d a b t o ∧ op = 7 ∧ ret = true ∧ x = y ∧ e = (rd s d).toNat

/-- R263, R266, R267: every `amo` but `casq`. Its address must be aligned to the size of its type, reachable, and of memory
that atomics reach; an unserved strong read of the frame to it, or a full atomic queue, parks. Otherwise one request
with the operation, type and operands enters the atomic queue, a returning form owes its old value to d, no byte changes
yet, and the instruction completes (an acquire waits for its own request). A page that atomics do not reach is PROT, which
ranks before POOL.

R266, R267: `casq` takes 16 bytes aligned to 16, its operand from b and b + 1, its expected value from d and d + 1, and
owes both registers their halves of the old value. -/
def Obligations.AtomicsAndPairs : Prop :=
  (∀ (s : State) (d a b : Reg) (t : AmoTy) (n : Bool) (o : AmoOrd) (op : Nat) (ret : Bool)
    (x e : Nat) (i : Instr), amoForm s d a b t n o op ret x e i →
  let va := rd s a
  let size := match t with | .i32 => 4 | .i64 => 8 | .f32 => 4 | .f64 => 8 | .bf16 => 2 | .p32 => 8 | .pbf16 => 4
  let acq := o == .acq || o == .ar
  let rel := o == .rel || o == .ar
  let full := 32 ≤ (s.reqs.filter fun q => q.ctx == curCtx s && inAtomicQueue q).length
  (va.toNat % size ≠ 0 → Traps i s 0x03 0 va)
  ∧ (va.toNat % size = 0 → Unreached i s va 2 atomicAllowed)
  ∧ (∀ pa y, va.toNat % size = 0 → whereCur s va 2 = .mem pa y → atomicAllowed pa y = false →
      exec i s = commit s (whereTrap s 0x06 va))
  ∧ (va.toNat % size = 0 → ∀ w, whereCur s va 2 atomicAllowed = w → reached w →
      let rs := strongReads s (locsFrom (accessBase s w) size)
      (rs ≠ [] → Parks i s [.settled [] rs])
      ∧ (rs = [] → full → Parks i s [.atomics])
      ∧ (rs = [] → ¬full →
          let u0 := newReq s (.amo op t ret acq (whereTgt w) x e) (some (whereTgt w, size)) (whereTreat w) (whereShare w) rel acq
            va
          let u := if ret then owe u0 d s.nextId none else u0
          (∃ q : Req, u.reqs = s.reqs ++ [q] ∧ q.id = s.nextId ∧ q.kind = .amo op t ret acq (whereTgt w) x e
            ∧ q.ctx = curCtx s ∧ q.frame = s.cur.2 ∧ q.va = va ∧ q.treat = whereTreat w)
          ∧ (acq = false → Completes i s u ready [] noByte fun _ => True)
          ∧ (acq = true → CompletesWaiting i s u [.settled [] [s.nextId]] noByte fun _ => True))))
  ∧ (∀ (s : State) (d a b : Reg) (o : AmoOrd),
  let va := rd s a
  let acq := o == .acq || o == .ar
  let rel := o == .rel || o == .ar
  let i : Instr := .amoCasq d a b o
  let x := (rd s b).toNat + (rd s (b + 1)).toNat * 2 ^ 64
  let e := (rd s d).toNat + (rd s (d + 1)).toNat * 2 ^ 64
  (va.toNat % 16 ≠ 0 → Traps i s 0x03 0 va)
  ∧ (va.toNat % 16 = 0 → Unreached i s va 2 atomicAllowed)
  ∧ (va.toNat % 16 = 0 → ∀ w, whereCur s va 2 atomicAllowed = w → reached w →
      strongReads s (locsFrom (accessBase s w) 16) = [] → atomicsFull s (curCtx s) = false →
      let u0 := newReq s (.amo 8 .i64 true acq (whereTgt w) x e) (some (whereTgt w, 16)) (whereTreat w) (whereShare w) rel acq va
      let u1 := owe u0 d s.nextId none
      let u := owe { u1 with nextId := u1.nextId + 1 } (d + 1) u1.nextId none
      (acq = false → Completes i s u ready [] noByte fun _ => True)
      ∧ (acq = true → CompletesWaiting i s u [.settled [] [s.nextId]] noByte fun _ => True)))

/-- R264, R267: in a slot of its unit, ATOMIC_STEP performs a ready `amo` of a returning form on its last settled bytes in one step: the old
value, read there before, is answered; the bytes then hold the new value (`cas` only where the old equals the expected
one), every other byte stays but for dirty L1 data written back, and the request is gone. The integer operations are
written out for 64-bit values; the address is in memory that is not lost or in a bank of the owner on its own core where no
earlier access waits, unpoisoned and under no capability, and no L1 holds dirty data of its line. -/
def Obligations.AtomicStep : Prop := ∀ (s : State) (n : Nat) (q : Req) (op : Nat) (acq : Bool) (tg : Tgt) (x e : Nat),
  Inv s → s.reqs[n]? = some q → q.kind = .amo op .i64 true acq tg x e → reqReady s q = true → atomicSlot s q = true →
  q.treat < 4 →
  op ≤ 7 ∨ op = 12 ∨ op = 13 → x < 2 ^ 64 → e < 2 ^ 64 →
  let owner := ctxOwner q.ctx
  let base := tgtBase s owner tg
  (match tg with
    | .pa a => lostAt s a = false ∧ a < 2 ^ 56
    | .loc c off => c = ctxCore q.ctx ∧ off < localSize s c owner ∧ off % 8 = 0 ∧ mustFollow s c owner q.ctx = false) →
  (∀ l ∈ locsFrom base 8, poisoned s l = false ∧ ¬dirtyLine s (l / 256)) →
  let old := rdNat s base 8
  let signed := fun (v : Nat) => if v < 2 ^ 63 then (v : Int) else (v : Int) - 2 ^ 64
  let new := match op with
    | 0 => (old + x) % 2 ^ 64
    | 1 => old &&& x
    | 2 => old ||| x
    | 3 => old ^^^ x
    | 4 => if signed old ≤ signed x then old else x
    | 5 => if signed old ≤ signed x then x else old
    | 7 => if old = e then x else old
    | 12 => min old x
    | 13 => max old x
    | _ => x
  ∃ t, exec (.atomicStep n) s = .next t
    ∧ rdNat t base 8 = new
    ∧ (∀ a, a ∉ locsFrom base 8 → ¬dirtyByte s a → byteAt t a = byteAt s a)
    ∧ (∀ p ∈ t.reqs, p.id ≠ q.id)
    ∧ (frameOf t (ctxCore q.ctx) q.frame).owed = (let f := frameOf s (ctxCore q.ctx) q.frame
        if f.act = q.act ∧ f.st ≠ .free then
          f.owed.map fun o => if o.id = q.id then { o with val := some (BitVec.ofNat 64 old) } else o
        else f.owed)

/-- R273, R274, R84, R275: lock operations on an 8-aligned word of device DRAM under treatment 0 or 2. One request enters the atomic
queue and its status is owed to d; the locks park for it as an acquire, whatever the status (log 18, deduced from R84 and R275), the
unlocks and `lkinit` complete at once. Any
other memory is PROT, a misaligned word ALIGN, and a bit of `lkinit`'s operand above bit 0 ILL.

R274: in a slot of its unit, LOCK_STEP performs a ready lock operation on an unpoisoned word under no capability, of whose line no L1 holds
dirty data, and answers its status. RD and WR then stand as the
rule's table gives them for the grants, the tries and the unlocks with nobody queued at the word, WPREF stays (`lkinit`
sets it), the reserved bits are zero, and every other byte stays but for dirty L1 data written back. A request with a record that
finds a writer holding the word is queued at the end of the waiter table, or refused where that is full, and QR and QW count it; an
unlock that leaves the word free hands it to the oldest queued writer, or to every queued reader, and each record is sent a
decrement. -/
def Obligations.Locks : Prop :=
  (∀ (s : State) (d a b : Reg),
  let va := rd s a
  let v := rd s b
  let ok := fun (pa : Nat) (x : Xlat) => whereCur s va 2 lockOk = .mem pa x ∧ strongReads s (locsFrom pa 8) = [] ∧ atomicsFull s (curCtx s) = false
  let req := fun (op pa : Nat) (x : Xlat) (r : Option (Nat × Nat)) (w : Bool) =>
    owe (newReq s (.lock op pa r w) (some (.pa pa, 8)) (whereTreat (.mem pa x)) (whereShare (.mem pa x)) (decide (2 ≤ op))
      (decide (op < 2)) va) d s.nextId none
  let other := ∃ pa x, whereCur s va 2 = .mem pa x ∧ (isDram pa = false ∨ x.treat = 1 ∨ 3 ≤ x.treat)
  let banks := ∃ c f, whereCur s va 2 = .loc c f
  let refused := fun (i : Instr) => (other → exec i s = commit s (whereTrap s 0x06 va)) ∧ (banks → Traps i s 0x06 0 va)
  let takes := fun (op : Nat) (i : Instr) =>
    (∀ pa x, va.toNat % 8 = 0 → ok pa x → v = 0 →
      CompletesWaiting i s (req op pa x none false) [.settled [] [s.nextId]] noByte fun _ => True)
    ∧ (∀ pa x r, va.toNat % 8 = 0 → ok pa x → v ≠ 0 → v.toNat % 32 = 0 → localTarget s v = some r →
      CompletesWaiting i s (req op pa x (some r) false) [.settled [] [s.nextId]] noByte fun _ => True)
    ∧ (va.toNat % 8 = 0 → v ≠ 0 → v.toNat % 32 ≠ 0 → Traps i s 0x03 0 v)
    ∧ (va.toNat % 8 = 0 → v = 0 → refused i)
    ∧ (va.toNat % 8 = 0 → v = 0 → Unreached i s va 2 lockOk)
    ∧ (∀ pa x, va.toNat % 8 = 0 → whereCur s va 2 lockOk = .mem pa x → v.toNat % 32 = 0 → localTarget s v = none → v ≠ 0 →
      Traps i s 0x06 0 v)
    ∧ (va.toNat % 8 ≠ 0 → Traps i s 0x03 0 va)
  let frees := fun (op : Nat) (i : Instr) (w : Bool) =>
    (∀ pa x, va.toNat % 8 = 0 → ok pa x → Completes i s (req op pa x none w) ready [] noByte fun _ => True)
    ∧ (va.toNat % 8 = 0 → refused i)
    ∧ (va.toNat % 8 = 0 → Unreached i s va 2 lockOk)
    ∧ (va.toNat % 8 ≠ 0 → Traps i s 0x03 0 va)
  takes 0 (.rdlk d a b) ∧ takes 1 (.wrlk d a b)
  ∧ frees 2 (.rdul d a) false ∧ frees 3 (.wrul d a) false
  ∧ (v.toNat < 2 → frees 4 (.lkinit d a b) (v.getLsbD 0))
  ∧ (2 ≤ v.toNat → Traps (.lkinit d a b) s 0x01 4 ((curFrame s).word.setWidth 64)))
  ∧ (∀ (s : State) (n : Nat) (q : Req) (op pa : Nat) (task : Option (Nat × Nat)) (w : Bool),
  Inv s → s.reqs[n]? = some q → q.kind = .lock op pa task w → op ≤ 4 → reqReady s q = true → atomicSlot s q = true →
  q.treat < 4 →
  (∀ l ∈ locsFrom pa 8, poisoned s l = false ∧ ¬dirtyLine s (l / 256)) →
  let old := rdNat s pa 8
  let ws := (ringOf s (homeRing s pa)).waiters
  let at_ := fun (l : List Waiter) (writer : Bool) => l.filter fun x => x.pa == pa && x.writer == writer
  let answered := fun (t : State) (v : Nat) => (frameOf t (ctxCore q.ctx) q.frame).owed = (let f := frameOf s (ctxCore q.ctx) q.frame
    if f.act = q.act ∧ f.st ≠ .free then
      f.owed.map fun o => if o.id = q.id then { o with val := some (BitVec.ofNat 64 v) } else o
    else f.owed)
  let others := fun (t : State) => ∀ a, a ∉ locsFrom pa 8 → ¬dirtyByte s a → byteAt t a = byteAt s a
  let notified := fun (t : State) (x : Waiter) => ∃ g ∈ t.net, g.core = x.record.1 ∧ g.owner = x.owner ∧ g.body = .tdec x.record.2 1
  let r := old % 2 ^ 16
  let wr := old / 2 ^ 16 % 2
  let wp := old / 2 ^ 17 % 2
  let res : Nat × Nat × Nat × Nat := match op with
    | 0 => if wr = 0 ∧ r < 65535 then (0, r + 1, wr, wp) else (3, r, wr, wp)
    | 1 => if wr = 0 ∧ r = 0 then (0, r, 1, wp) else (3, r, wr, wp)
    | 2 => if r = 0 then (1, r, wr, wp) else (0, r - 1, wr, wp)
    | 3 => if wr = 0 then (1, r, wr, wp) else (0, r, 0, wp)
    | _ => if r = 0 ∧ wr = 0 then (0, r, wr, if w then 1 else 0) else (1, r, wr, wp)
  (task = none → (∀ x ∈ ws, x.pa ≠ pa) → ∃ t, exec (.lockStep n) s = .next t
    ∧ rdNat t pa 8 = res.2.1 + res.2.2.1 * 2 ^ 16 + res.2.2.2 * 2 ^ 17 ∧ others t ∧ answered t res.1)
  ∧ (∀ rec, task = some rec → op < 2 → wr = 1 →
      let full := 256 ≤ ws.length ∨ (at_ ws (op == 1)).length = 65535
      let ws' := if full then ws else ws ++ [{ pa := pa, writer := op == 1, owner := ctxOwner q.ctx, record := rec, ctx := q.ctx }]
      ∃ t, exec (.lockStep n) s = .next t ∧ (ringOf t (homeRing s pa)).waiters = ws' ∧ others t ∧ answered t (if full then 2 else 1)
        ∧ rdNat t pa 8 % 2 ^ 32 = r + 2 ^ 16 + wp * 2 ^ 17
        ∧ rdNat t pa 8 / 2 ^ 32 % 2 ^ 16 = (at_ ws' false).length % 2 ^ 16
        ∧ ((at_ ws' false).length < 2 ^ 16 → rdNat t pa 8 / 2 ^ 48 = (at_ ws' true).length % 2 ^ 16))
  ∧ (op = 3 ∧ wr = 1 ∧ r = 0 ∨ op = 2 ∧ wr = 0 ∧ r = 1 →
      (∀ x, (at_ ws true).head? = some x → wp = 1 ∨ at_ ws false = [] →
        ∃ t, exec (.lockStep n) s = .next t ∧ (ringOf t (homeRing s pa)).waiters = ws.erase x ∧ others t ∧ answered t 0
          ∧ rdNat t pa 8 % 2 ^ 32 = 2 ^ 16 + wp * 2 ^ 17 ∧ notified t x)
      ∧ (at_ ws false ≠ [] → wp = 0 ∨ at_ ws true = [] → (at_ ws false).length < 2 ^ 16 →
        ∃ t, exec (.lockStep n) s = .next t ∧ (ringOf t (homeRing s pa)).waiters = ws.filter (fun x => x.pa != pa || x.writer)
          ∧ others t ∧ answered t 0 ∧ rdNat t pa 8 % 2 ^ 32 = (at_ ws false).length + wp * 2 ^ 17
          ∧ ∀ x ∈ at_ ws false, notified t x)))

/-! ### Handles, windows and messages (R166-R176) -/

/-- R169, R170: the handle instructions with no vector command holding the handle. `hbind` releases a bound handle and
answers the status; `hwait`, `hfree`, `hlda` and `hsta` go on where the slots are there, and park where they are not;
`hadv` moves the cursor and TAIL, or publishes the slots; `hrel` unbinds. Only the header's own bytes change. An unbound
handle, the wrong side, or a count above N is ILL with SUB 4. -/
def Obligations.Handles : Prop := ∀ (s : State) (d : Reg) (h : BitVec 4) (c : BitVec 6),
  handleTaken s h.toNat = false →
  let k := curCtx s
  let n := c.toNat
  let own := 0x00F0000000000000
  let full := fun (hd : Header) (x : Handle) => (hd.head + 2 ^ 32 - x.cursor % 2 ^ 32) % 2 ^ 32
  let free := fun (hd : Header) (x : Handle) => slotsOf hd - (x.cursor + 2 ^ 32 - hd.tail % 2 ^ 32) % 2 ^ 32
  let slot := fun (hd : Header) (x : Handle) => hd.base * 64 + 64 * (x.cursor % slotsOf hd)
  let ill := fun (i : Instr) => Traps i s 0x01 4 ((curFrame s).word.setWidth 64)
  (let s1 := dropHandle s h.toNat
   let off := (rd s d).toNat
   let held := fun (x : Header) => if c = 0 then x.cb = true ∨ x.hv = true else x.pb = true ∨ x.pv = true
   let bytes := fun (a : Nat) => headerByte s k off a ∨ ∃ y, handleOf s h.toNat = some y ∧ headerByte s k y.hdr a
   (2 ^ 19 ≤ off ∨ off % 32 ≠ 0 → Completes (.hbind d h c) s s1 id [d] bytes (Gives d 1))
   ∧ (off < 2 ^ 19 → off % 32 = 0 → headerAt s1 k off = none → Completes (.hbind d h c) s s1 id [d] bytes (Gives d 1))
   ∧ (∀ x, off < 2 ^ 19 → off % 32 = 0 → headerAt s1 k off = some x → held x → Completes (.hbind d h c) s s1 id [d] bytes (Gives d 2))
   ∧ (∀ x, off < 2 ^ 19 → off % 32 = 0 → headerAt s1 k off = some x → ¬held x → headersFull s1 k off = true →
        Completes (.hbind d h c) s s1 id [d] bytes (Gives d 3))
   ∧ (∀ x, off < 2 ^ 19 → off % 32 = 0 → headerAt s1 k off = some x → ¬held x → headersFull s1 k off = false →
        let y : Handle := { hdr := off, producer := c != 0, cursor := if c = 0 then x.tail else x.head }
        Completes (.hbind d h c) s (setHeader s1 k off (if c = 0 then { x with cb := true } else { x with pb := true }))
          (fun f => { f with handles := NMap.put f.handles h.toNat y }) [d] bytes (Gives d 0)))
  ∧ (∀ x hd, handleOf s h.toNat = some x → liveHeader s k x.hdr = some hd → n ≤ slotsOf hd →
      (x.producer = false → n ≤ full hd x → Completes (.hwait d h c) s (acquireSlots s k hd x.cursor n) id [d] noByte
        (Gives d (word (own + slot hd x))))
      ∧ (x.producer = false → full hd x < n → Parks (.hwait d h c) s [.full x.hdr x.cursor n])
      ∧ (x.producer = true → n ≤ free hd x → Completes (.hfree d h c) s s id [d] noByte (Gives d (word (own + slot hd x))))
      ∧ (x.producer = true → free hd x < n → Parks (.hfree d h c) s [.room x.hdr x.cursor n])
      ∧ (x.producer = false → n ≤ full hd x → frameReads s = [] →
          let nx := (x.cursor + n) % 2 ^ 32
          Completes (.hadv d h c) s (moveTail (setHandle s h.toNat { x with cursor := nx }) k x.hdr nx) ready [d]
            (headerByte s k x.hdr) (Gives d (word nx)))
      ∧ (x.producer = true → n ≤ free hd x → releasable s k (releaseAfter s).1 (releaseAfter s).2 [] [] = true →
          let nx := (x.cursor + n) % 2 ^ 32
          Completes (.hadv d h c) s
            (publishSlots k x.hdr 64 s.cur.1 (curFrame s).lin (ctxOf s k).known n (setHandle (clearWait s) h.toNat { x with cursor := nx }))
            id [d] (headerByte s k x.hdr) (Gives d (word nx)))
      ∧ (x.producer = true → ill (.hwait d h c)) ∧ (x.producer = false → ill (.hfree d h c)))
  ∧ (∀ x hd, handleOf s h.toNat = some x → liveHeader s k x.hdr = some hd →
      (x.producer = false → 1 ≤ full hd x → Completes (.hlda d h c) s
          (issueRead (acquireSlots s k hd x.cursor 1) (.loc s.cur.1 (slot hd x + 8 * n)) 8 false 0 d
            (word (own + (slot hd x + 8 * n)))) id [] noByte fun _ => True)
      ∧ (x.producer = false → full hd x < 1 → Parks (.hlda d h c) s [.full x.hdr x.cursor 1])
      ∧ (x.producer = true → 1 ≤ free hd x → strongReads s (locsFrom (accessBase s (.loc s.cur.1 (slot hd x + 8 * n))) 8) = [] →
          1 ≤ segmentRoom s k (curBank s) → Completes (.hsta d h c) s
          (storeGroup s (.loc s.cur.1 (slot hd x + 8 * n)) (leBytes (rd s d).toNat 8) .weak (word (own + (slot hd x + 8 * n))))
          ready [] noByte fun _ => True)
      ∧ (x.producer = true → free hd x < 1 → Parks (.hsta d h c) s [.room x.hdr x.cursor 1])
      ∧ (x.producer = true → ill (.hlda d h c)) ∧ (x.producer = false → ill (.hsta d h c)))
  ∧ (∀ x hd, handleOf s h.toNat = some x → liveHeader s k x.hdr = some hd → slotsOf hd < n →
      ill (.hwait d h c) ∧ ill (.hfree d h c) ∧ ill (.hadv d h c))
  ∧ (handleOf s h.toNat = none → ill (.hwait d h c) ∧ ill (.hfree d h c) ∧ ill (.hlda d h c) ∧ ill (.hsta d h c) ∧ ill (.hadv d h c))
  ∧ Completes (.hrel h) s (dropHandle s h.toNat) id [] (fun a => ∃ y, handleOf s h.toNat = some y ∧ headerByte s k y.hdr a)
      fun t => NMap.find (curFrame t).handles h.toNat = none

/-- R172, R173, R319: opening a window and sending a slot. `wopen` with operands in range answers all ones where the frame
has no closed window, parks while a command of the frame sends through the lowest one, else posts an open message and waits
for its reply; `nsend` through an open window with credit and room
posts the slot: the frame's own view of the payload, padded with zeros, and SENT rises. -/
def Obligations.WindowsAndSlots : Prop := ∀ (s : State) (d a b : Reg),
  let x := rd s a
  let y := rd s b
  let k := curCtx s
  let ill := fun (i : Instr) => Traps i s 0x01 4 ((curFrame s).word.setWidth 64)
  let okOpen := bits x 12 0 < 6144 ∧ bits x 31 16 ≤ 1024 ∧ bits x 15 13 = 0 ∧ x.toNat < 2 ^ 32 ∧ y.toNat < 2 ^ 19
  let w := bits x 1 0
  let len := bits x 22 16
  let okSend := bits x 15 2 = 0 ∧ x.toNat < 2 ^ 23 ∧ len ≠ 0 ∧ len ≤ 64
  (¬okOpen → ill (.wopen d a b))
  ∧ (okOpen → closedWindows (curFrame s) = [] → Completes (.wopen d a b) s s id [d] noByte (Gives d (BitVec.allOnes 64)))
  ∧ (∀ v, okOpen → (closedWindows (curFrame s)).head? = some v → windowHeld s k s.cur.2 v = true → Parks (.wopen d a b) s [.window v])
  ∧ (∀ v, okOpen → (closedWindows (curFrame s)).head? = some v → windowHeld s k s.cur.2 v = false →
      1 ≤ segmentRoom s k (curBank s) →
      let u := owe { s with nextId := s.nextId + 1 } d s.nextId none
      CompletesWaiting (.wopen d a b) s
        (post u (bits x 12 0) (curOwner s) (.wopen y.toNat (bits x 31 16) s.cur.2 (curFrame s).act s.nextId))
        [.answer s.nextId] noByte fun _ => True)
  ∧ (∀ v, okOpen → (closedWindows (curFrame s)).head? = some v → windowHeld s k s.cur.2 v = false →
      segmentRoom s k (curBank s) < 1 → Parks (.wopen d a b) s [.segment (curBank s)])
  ∧ (¬okSend → ill (.nsend d a b))
  ∧ (okSend → NMap.find (curFrame s).windows w = none → ill (.nsend d a b))
  ∧ (∀ z, okSend → NMap.find (curFrame s).windows w = some z →
      let fits := y.toNat + len ≤ localSize s s.cur.1 (curOwner s)
      let credit := (z.sent + 2 ^ 32 - z.ack % 2 ^ 32) % 2 ^ 32 < z.win
      let sent := (z.sent + 1) % 2 ^ 32
      (¬fits → Traps (.nsend d a b) s 0x06 0 y)
      ∧ (fits → windowHeld s k s.cur.2 w = true → Parks (.nsend d a b) s [.window w])
      ∧ (fits → windowHeld s k s.cur.2 w = false → ¬credit → Parks (.nsend d a b) s [.credit w])
      ∧ (fits → windowHeld s k s.cur.2 w = false → credit → ownPoisoned s y.toNat len = false →
          1 ≤ segmentRoom s k (curBank s) →
          Completes (.nsend d a b) s
            (post s z.core (curOwner s) (.slot z.hdr (ownView s y.toNat len ++ List.replicate (64 - len) 0) len (curFrame s).lin []))
            (fun f => { f with windows := NMap.put f.windows w { z with sent := sent } }) [d] noByte (Gives d (word sent))))

/-- R176, R338: `mhdl` and `mspm` register a data-arrival handler or clear HV of the header that a[18:0] names, live or not,
with the statuses of the rule; `mspm` also puts the header into sparse mode, and `mhdl` leaves it. Only the header's bytes
change. -/
def Obligations.ArrivalHandlers : Prop := ∀ (s : State) (d a b : Reg) (sparse : Bool) (i : Instr),
  (i = .mhdl d a b ∧ sparse = false ∨ i = .mspm d a b ∧ sparse = true) →
  let off := (rd s a).toNat
  let v := rd s b
  let k := curCtx s
  let set := fun (x : Header) => writeHandlerField (setHeader s k off x) k off x.hoff true
  let o := off % 2 ^ 19
  let bytes := fun (off p : Nat) => headerByte s k off p
    ∨ ∃ l, localLoc s (ctxCore k) (ctxOwner k) (off + 4) = some l ∧ l ≤ p ∧ p < l + 4
  (v = BitVec.allOnes 64 → Completes i s (clearHandler s k o) id [d] (bytes o) fun t => Gives d 0 t
      ∧ (∀ x, liveHeader t k o = some x → x.hv = false ∧ x.sparse = false)
      ∧ (∀ l, o % 32 = 0 → localLoc s (ctxCore k) (ctxOwner k) (o + 4) = some l → (byteAt t (l + 2)).getLsbD 1 = false))
  ∧ (v ≠ BitVec.allOnes 64 → 2 ^ 19 ≤ v.toNat → Traps i s 0x01 4 ((curFrame s).word.setWidth 64))
  ∧ (v.toNat < 2 ^ 19 → v.toNat % 4 ≠ 0 → Traps i s 0x03 0 v)
  ∧ (v.toNat < 2 ^ 19 → v.toNat % 4 = 0 →
      (2 ^ 19 ≤ off ∨ off % 32 ≠ 0 ∨ headerAt s k off = none → Completes i s s id [d] noByte (Gives d 1))
      ∧ (∀ x, off < 2 ^ 19 → off % 32 = 0 → headerAt s k off = some x →
          (x.cb = true → Completes i s s id [d] noByte (Gives d 2))
          ∧ (x.cb = false → headersFull s k off = true → Completes i s s id [d] noByte (Gives d 3))
          ∧ (x.cb = false → headersFull s k off = false →
              Completes i s (set { x with hv := true, hoff := v.toNat / 4, sparse := sparse }) id [d] (bytes off) (Gives d 0))))

/-! ### Task records, byte barriers and launch records (R179-R204) -/

/-- R186, R187, R200: `tdec`, `tinc`, `bbexp` and `bbarr` with operands in range post one message for the record or barrier
word their address names in either local window, and complete at once; a full segment parks, a misaligned address is
ALIGN, one of neither window PROT, an amount out of range ILL with SUB 4 before both.

R187: in a slot of its home bank's array (R393) a decrement of a record that has not fired lowers COUNT, or, at or below the amount,
sets COUNT to 0 and FIRED and puts a start with the record's entry and arguments into its home context's queue, with no wait for room in
its segment (R91; that the queue may pass 64 entries so is log 86, the model's choice; UFL too where COUNT was below the amount); a record that has fired only sets UFL. An increment raises COUNT, or sets it to all ones with OVF. Only the record's word 0 changes. -/
def Obligations.CountMessagesAndRecords : Prop :=
  (∀ (s : State) (a b : Reg) (i : Instr) (body : Nat → Nat → Body) (al : Nat) (lo hi : Nat),
  (i = .tdec a b ∧ body = Body.tdec ∧ al = 32 ∧ lo = 1 ∧ hi = 2 ^ 32 ∨ i = .tinc a b ∧ body = Body.tinc ∧ al = 32 ∧ lo = 1 ∧ hi = 2 ^ 32
    ∨ i = .bbexp a b ∧ body = (fun o n => Body.barrier o false 1 n) ∧ al = 8 ∧ lo = 0 ∧ hi = 2 ^ 56
    ∨ i = .bbarr a b ∧ body = (fun o n => Body.barrier o true 1 n) ∧ al = 8 ∧ lo = 0 ∧ hi = 2 ^ 56) →
  let va := rd s a
  let n := (rd s b).toNat
  (n < lo ∨ hi ≤ n → Traps i s 0x01 4 ((curFrame s).word.setWidth 64))
  ∧ (lo ≤ n → n < hi →
      (va.toNat % al ≠ 0 → Traps i s 0x03 0 va)
      ∧ (va.toNat % al = 0 → localTarget s va = none → Traps i s 0x06 0 va)
      ∧ (∀ t, va.toNat % al = 0 → localTarget s va = some t → 1 ≤ segmentRoom s (curCtx s) (curBank s) →
          Completes i s (post s t.1 (curOwner s) (body t.2 n)) id [] noByte fun _ => True)
      ∧ (∀ t, va.toNat % al = 0 → localTarget s va = some t → segmentRoom s (curCtx s) (curBank s) < 1 →
          Parks i s [.segment (curBank s)])))
  ∧ (∀ (s : State) (n off amt l : Nat) (m : Msg),
  Inv s → s.net[n]? = some m → inOrder s m = true → mustFollow s m.core m.owner m.ctx = false → standsAt s m.id = false →
  railSlot s 2 = true → off % 32 = 0 →
  localLoc s m.core m.owner off = some l → amt < 2 ^ 32 → 1 ≤ amt →
  let word := fun (s : State) (i : Nat) => localWord s m.core m.owner (off + 8 * i)
  let w := word s 0
  let cnt := w % 2 ^ 32
  let fired := w / 2 ^ 32 % 2 = 1
  let rest := fun (t : State) => ∀ p, p < l ∨ l + 8 ≤ p → byteAt t p = byteAt s p
  (m.body = .tdec off amt → ∃ t, exec (.tdecArrival n) s = .next t ∧ rest t
    ∧ (fired → word t 0 = w ||| 2 ^ 33)
    ∧ (¬fired → amt < cnt → word t 0 = w - amt)
    ∧ (¬fired → cnt ≤ amt → word s 1 / 2 ^ 32 % 2 ^ 13 < 6144 →
        word t 0 = (if cnt < amt then (w - cnt) ||| 2 ^ 33 else w - cnt) + 2 ^ 32
        ∧ t.net = dropAt s.net n
        ∧ ∃ x : QEntry, ∃ st : Start, (ctxOf t (ctxKey m.core m.owner)).queue = (ctxOf s (ctxKey m.core m.owner)).queue ++ [x]
          ∧ x.body = .msg (word s 1 / 2 ^ 32 % 2 ^ 13) m.owner (.start st)
          ∧ x.after = (ctxOf s (ctxKey m.core m.owner)).queue.map QEntry.id ∧ st.owner = m.owner ∧ st.entry = word s 1 / 4 % 2 ^ 17 * 4
          ∧ st.regs = [(2, BitVec.ofNat 64 (word s 2)), (3, BitVec.ofNat 64 (word s 3)), (4, BitVec.ofNat 64 off)])
    ∧ (¬fired → cnt ≤ amt → 6144 ≤ word s 1 / 2 ^ 32 % 2 ^ 13 → t.net = dropAt s.net n ∧ word t 0 / 2 ^ 47 % 2 = 1))
  ∧ (m.body = .tinc off amt → ∃ t, exec (.tincArrival n) s = .next t ∧ rest t ∧ t.net = dropAt s.net n
    ∧ (cnt + amt < 2 ^ 32 → word t 0 = w + amt)
    ∧ (2 ^ 32 ≤ cnt + amt → word t 0 = (w - cnt + (2 ^ 32 - 1)) ||| 2 ^ 34)))

/-- R187, R200: `tinit` and `bbinit` on an own-window address enter one request that waits for the release condition and
park for its answer in d; `bbq` is a strong 8-byte read of the barrier word. Alignment is ALIGN, another window PROT, and
a count of `tinit` past 32 bits ILL with SUB 4.

R187, R200: the steps of `tinit` and `bbinit` at the own bank, in a slot of its array (R393), once the release condition holds: the old word 0 is
answered and rewritten with the count, the issuer's class and lineage; a barrier is bound, rebound or unbound, with its
word cleared, and the status answered. -/
def Obligations.BankRequestsAndSteps : Prop :=
  (∀ (s : State) (d a b : Reg),
  let va := rd s a
  let v := rd s b
  let n := v.toNat
  let req := fun (kind : ReqKind) => owe (newReq s kind none 2 none true false va) d s.nextId none
  let waits := fun (i : Instr) (kind : ReqKind) => CompletesWaiting i s (req kind) [.answer s.nextId] noByte fun t =>
    ∃ q : Req, t.reqs = s.reqs ++ [q] ∧ q.kind = kind ∧ q.after = (ctxOf s (curCtx s)).queue.map QEntry.id
  (2 ^ 32 ≤ n → Traps (.tinit d a b) s 0x01 4 ((curFrame s).word.setWidth 64))
  ∧ (n < 2 ^ 32 → va.toNat % 32 ≠ 0 → Traps (.tinit d a b) s 0x03 0 va)
  ∧ (n < 2 ^ 32 → va.toNat % 32 = 0 → ownTarget s va = none → Traps (.tinit d a b) s 0x06 0 va)
  ∧ (∀ off, n < 2 ^ 32 → va.toNat % 32 = 0 → ownTarget s va = some off → waits (.tinit d a b) (.tinit off n))
  ∧ (va.toNat % 8 ≠ 0 → Traps (.bbinit d a b) s 0x03 0 va ∧ Traps (.bbq d a) s 0x03 0 va)
  ∧ (va.toNat % 8 = 0 → n % 32 ≠ 0 → Traps (.bbinit d a b) s 0x03 0 v)
  ∧ (va.toNat % 8 = 0 → n % 32 = 0 → ownTarget s va = none → Traps (.bbinit d a b) s 0x06 0 va)
  ∧ (va.toNat % 8 = 0 → ownTarget s va = none → Traps (.bbq d a) s 0x06 0 va)
  ∧ (∀ off, va.toNat % 8 = 0 → ownTarget s va = some off →
      (n = 0 → waits (.bbinit d a b) (.bbinit off none))
      ∧ (n % 32 = 0 → n ≠ 0 → localTarget s v = none → Traps (.bbinit d a b) s 0x06 0 v)
      ∧ (∀ t, n % 32 = 0 → n ≠ 0 → localTarget s v = some t → waits (.bbinit d a b) (.bbinit off (some t)))
      ∧ Completes (.bbq d a) s (issueRead s (.loc s.cur.1 off) 8 false 1 d va) id [] noByte fun _ => True))
  ∧ (∀ (s : State) (n off amt l : Nat) (q : Req) (f : Frame),
  Inv s → s.reqs[n]? = some q → reqReady s q = true → railSlot s 2 = true → off % 8 = 0 → localLoc s (ctxCore q.ctx) (ctxOwner q.ctx) off = some l →
  f = frameOf s (ctxCore q.ctx) q.frame → f.act = q.act → f.st ≠ .free →
  let w := localWord s (ctxCore q.ctx) (ctxOwner q.ctx) off
  let got := fun (t : State) (v : Nat) => (∀ p ∈ t.reqs, p.id ≠ q.id)
    ∧ (frameOf t (ctxCore q.ctx) q.frame).owed = f.owed.map fun o => if o.id = q.id then { o with val := some (BitVec.ofNat 64 v) } else o
  let rest := fun (t : State) => ∀ p, p < l ∨ l + 8 ≤ p → byteAt t p = byteAt s p
  (q.kind = .tinit off amt → 0 < amt → amt < 2 ^ 32 → ∃ t, exec (.tinitStep n) s = .next t ∧ got t w ∧ rest t
    ∧ ∃ x, localWord t (ctxCore q.ctx) (ctxOwner q.ctx) off = x
      ∧ x % 2 ^ 32 = amt ∧ x / 2 ^ 32 % 2 ^ 3 = 0 ∧ (x / 2 ^ 35 % 2 = 1 ↔ q.lin.early = true)
      ∧ (x / 2 ^ 46 % 2 = 1 ↔ q.lin.launch.isSome = true) ∧ x / 2 ^ 47 % 2 = 0)
  ∧ (∀ task, q.kind = .bbinit off task →
      let bound := (ctxOf s q.ctx).barriers.find? fun x => x.2.1 == off
      let others := (ctxOf s q.ctx).barriers.filter fun x => x.2.1 != off
      ∃ t, exec (.bbinitStep n) s = .next t ∧ rest t
      ∧ (task = none → got t 2 ∧ (ctxOf t q.ctx).barriers = others)
      ∧ (∀ r x, task = some r → bound = some x → got t 0 ∧ (ctxOf t q.ctx).barriers = others ++ [(x.1, off, r, [])]
          ∧ localWord t (ctxCore q.ctx) (ctxOwner q.ctx) off = 0)
      ∧ (∀ r b, task = some r → bound = none → barrierBank s q.ctx = some b → got t 0
          ∧ (ctxOf t q.ctx).barriers = others ++ [(b, off, r, [])] ∧ localWord t (ctxCore q.ctx) (ctxOwner q.ctx) off = 0)
      ∧ (∀ r, task = some r → bound = none → barrierBank s q.ctx = none → got t 1
          ∧ (ctxOf t q.ctx).barriers = (ctxOf s q.ctx).barriers)))

/-- R199: in a slot of the bank's array (R393), an update of a barrier word adds or takes one arrival and its bytes, each field wrapping, in one step; a bound
word that comes to 0 sends a decrement of one to its record, and no other does. -/
def Obligations.BarrierUpdates : Prop := ∀ (s : State) (n off arr bytes l : Nat) (sub : Bool) (m : Msg),
  Inv s → s.net[n]? = some m → inOrder s m = true → mustFollow s m.core m.owner m.ctx = false → standsAt s m.id = false →
  railSlot s 2 = true → off % 8 = 0 →
  localLoc s m.core m.owner off = some l → m.body = .barrier off sub arr bytes → arr < 2 ^ 8 → bytes < 2 ^ 56 →
  let w := localWord s m.core m.owner off
  let x := ctxOf s (ctxKey m.core m.owner)
  let new := if sub then (w / 2 ^ 56 + 2 ^ 8 - arr) % 2 ^ 8 * 2 ^ 56 + (w % 2 ^ 56 + 2 ^ 56 - bytes) % 2 ^ 56
    else (w / 2 ^ 56 + arr) % 2 ^ 8 * 2 ^ 56 + (w % 2 ^ 56 + bytes) % 2 ^ 56
  ∃ t, exec (.barrierUpdate n) s = .next t
    ∧ localWord t m.core m.owner off = new
    ∧ (∀ p, p < l ∨ l + 8 ≤ p → byteAt t p = byteAt s p)
    ∧ (∀ b, x.barriers.find? (fun y => y.2.1 == off) = some b → new = 0 →
        ∃ g : Msg, t.net = dropAt s.net n ++ [g] ∧ g.body = .tdec b.2.2.1.2 1 ∧ g.core = b.2.2.1.1 ∧ g.owner = m.owner)
    ∧ (new ≠ 0 ∨ x.barriers.find? (fun y => y.2.1 == off) = none → t.net = dropAt s.net n)

/-- R191, R197, R204: the launch instructions outside a deterministic lineage. `larm` follows the rows of R191's table in
their order, and leaves a record that is Unbuilt as it is (R191; R71 sends it to Faulted: log 94, the model's choice); `lpatch` writes one field of a record that is neither Unbuilt nor Running, with the statuses of R197; `lstat`
reads one word; each of them parks for its answer. `widf` reads one level of the work identifier, and `qsync` answers 0. -/
def Obligations.LaunchRecords : Prop := ∀ (s : State) (d a b : Reg),
  detLin s (curFrame s).lin = false ∨ inHandler s = true →
  let x := rd s a
  let v := rd s b
  let k := curCtx s
  let i := (ownerOf s (curOwner s)).iface
  let ill := fun (j : Instr) => Traps j s 0x01 4 ((curFrame s).word.setWidth 64)
  (2 ^ 10 ≤ x.toNat → ill (.larm d a) ∧ ill (.lstat d a b))
  ∧ (x.toNat < 2 ^ 10 →
      let n := x.toNat
      let r := recOf s i n
      let rel := (curFrame s).granted = true ∨ releasable s k (releaseAfter s).1 (releaseAfter s).2 [] [] = true
      let levels := upto (fmtLevels r.fmt)
      let tooBig := ∃ j ∈ levels, 2 ^ fmtWidthOf r.fmt j < levelCount r j
      let zero := ∃ j ∈ levels, levelCount r j = 0
      let other := r.det = true ∧ ∃ p ∈ (ifaceOf s i).records, p.1 ≠ n ∧ p.2.owner = curOwner s ∧ p.2.det = true ∧ p.2.state = .running
      let u := (applyArm (clearWait s) i n (curOwner s) (ctxOf s k).known).1
      let fresh := fun (t : State) (st : LState) => (recOf t i n).state = st ∧ (recOf t i n).started = 0 ∧ (recOf t i n).ended = 0
        ∧ (recOf t i n).errors = 0 ∧ (recOf t i n).arms = (r.arms + 1) % 2 ^ 32 ∧ (recOf t i n).owner = curOwner s
      (¬rel → Parks (.larm d a) s [.settled (releaseAfter s).1 (releaseAfter s).2])
      ∧ (rel → r.state = .unbuilt → exec (.larm d a) s = commit s (trap (clearWait s) 0x0A 0 0))
      ∧ (rel → r.state = .running → CompletesOwing (.larm d a) s u d 1 fun t => t.ifaces = s.ifaces)
      ∧ (rel → r.state ≠ .unbuilt → r.state ≠ .running → tooBig →
          exec (.larm d a) s = commit s (trap (setRec (clearWait s) i n { r with state := .faulted }) 0x0A 0 0))
      ∧ (rel → r.state ≠ .unbuilt → r.state ≠ .running → ¬tooBig → other →
          CompletesOwing (.larm d a) s u d 3 fun t => t.ifaces = s.ifaces)
      ∧ (rel → r.state ≠ .unbuilt → r.state ≠ .running → ¬tooBig → ¬other → zero →
          CompletesOwing (.larm d a) s u d 2 fun t => fresh t .done)
      ∧ (rel → r.state ≠ .unbuilt → r.state ≠ .running → ¬tooBig → ¬other → ¬zero →
          CompletesOwing (.larm d a) s u d 0 fun t => fresh t .running)
      ∧ (v.toNat < 2 ^ 5 → CompletesOwing (.lstat d a b) s s d (recWord r v.toNat) fun _ => True)
      ∧ (2 ^ 5 ≤ v.toNat → ill (.lstat d a b)))
  ∧ (let f := bits x 19 16
     let n := bits x 9 0
     let r := recOf s i n
     let ok := bits x 15 10 = 0 ∧ x.toNat < 2 ^ 20 ∧ f < 10
     let free := r.state ≠ .unbuilt ∧ r.state ≠ .running
     let writes := fun (r' : LRec) => CompletesOwing (.lpatch d a b) s (setRec s i n r') d 0 fun _ => True
     let refuses := fun (st : Word) => CompletesOwing (.lpatch d a b) s s d st fun _ => True
     (¬ok → ill (.lpatch d a b))
     ∧ (ok → r.state = .unbuilt → refuses 3) ∧ (ok → r.state = .running → refuses 1)
     ∧ (ok → free → f = 0 → writes { r with param := v })
     ∧ (ok → free → f = 1 → doneOk v = true → writes { r with done := v })
     ∧ (ok → free → f = 1 → doneOk v = false → refuses 2)
     ∧ (ok → free → 2 ≤ f → f ≤ 7 →
        writes { r with counts := (upto 6).map fun j => if j + 2 = f then v else r.counts.getD j 0 })
     ∧ (ok → free → f = 8 → rangeOk v.toNat r.ncores = true → writes { r with first := v.toNat })
     ∧ (ok → free → f = 8 → rangeOk v.toNat r.ncores = false → refuses 2)
     ∧ (ok → free → f = 9 → rangeOk r.first v.toNat = true → writes { r with ncores := v.toNat })
     ∧ (ok → free → f = 9 → rangeOk r.first v.toNat = false → refuses 2))
  ∧ (x.toNat < 8 → Completes (.widf d a) s s id [d] noByte (Gives d
      (if x.toNat < fmtLevels (curFrame s).wfmt then
        word ((curFrame s).wid.toNat / 2 ^ widthsBelow (curFrame s).wfmt x.toNat % 2 ^ fmtWidthOf (curFrame s).wfmt x.toNat)
       else 0)))
  ∧ (8 ≤ x.toNat → ill (.widf d a))
  ∧ (detLin s (curFrame s).lin = false → Completes (.qsync d) s s id [d] noByte (Gives d 0))

/-- R202, R204: in a deterministic lineage `larm` retires at once and is held for the quantum's end, with the release condition of
its issue, and its frame waits for the status; `qsync` retires at once, owes d the count and parks until the quantum counter moves
on. -/
def Obligations.DeterministicLaunch : Prop := ∀ (s : State) (d a : Reg) (i n : Nat),
  (curFrame s).lin.launch = some (i, n) → (recOf s i n).det = true →
  (inHandler s = false → (rd s a).toNat < 2 ^ 10 →
    let h : HeldReq := { iface := i, index := n, core := ctxCore (curCtx s), act := (curFrame s).act, seq := s.nextId,
                         ctx := curCtx s, frame := s.cur.2, state := 0, arm := some (rd s a).toNat,
                         entry := some { msgEntry s 0 0 (.leave 0 0) with body := .marker }, tag := (ctxOf s (curCtx s)).known }
    ∃ t, exec (.larm d a) s = .next t
      ∧ Retires (committed s (owe { s with nextId := s.nextId + 1, held := s.held ++ [h] } d s.nextId none)) t
        (fun f => { waiting [.answer s.nextId] s.clk f with retDue := false }) [] (curPc s + 4))
  ∧ ∃ t, exec (.qsync d) s = .next t
    ∧ Retires (committed s { s with nextId := s.nextId + 1 }) t (fun f =>
        { owing (inHandler s) d s.nextId none f with
          st := .parked [.quantum i n (recOf s i n).quanta s.nextId], since := s.clk, retDue := false }) [] (curPc s + 4)

/-- R179, R181, R136, R193-R195, R201, R202: the steps of starts and launches. A start request joins the run queue of a bank
with room, or waits in the inbound queue of the ring; placing it takes the frame R126 and R181 choose and sets PC, registers, WID
and WFMT as R136 says with nothing bound; a running record sends its next activation to the core its policy names, by blocks, in
turn or by the tombola; an end notice leaves once its entries have settled, raises ENDED of its own arm, and the last completes the
record; a quantum ends of a lineage that on every core has reached QUANTUM or has no activation Ready or Waiting (so also on a core that
hosts none: log 93, the model's choice), none of whose due requests is unsent; its held requests are due in the order of R202, and each
is sent in its turn. -/
def Obligations.StartAndLaunchSteps : Prop := ∀ (s : State) (n : Nat),
  (∀ m st b, s.net[n]? = some m → m.body = .start st → inOrder s m = true → standsAt s m.id = false → runqOpen s m.core st = true →
    runqBank s (ctxKey m.core st.owner) = some b →
    ∃ t, exec (.startRequestArrival n) s = .next t ∧ t.net = dropAt s.net n
      ∧ (ctxOf t (ctxKey m.core st.owner)).runq = (ctxOf s (ctxKey m.core st.owner)).runq ++ [(b, st)])
  ∧ (∀ m st, s.net[n]? = some m → m.body = .start st → inOrder s m = true → standsAt s m.id = false → runqOpen s m.core st = false →
    (ringOf s (ringOfCore s m.core)).inbound.length < 256 →
    ∃ t, exec (.startRequestArrival n) s = .next t ∧ t.net = dropAt s.net n
      ∧ (ringOf t (ringOfCore s m.core)).inbound = (ringOf s (ringOfCore s m.core)).inbound ++ [(st.owner, .msg m)])
  ∧ (∀ core owner i st f, let k := ctxKey core owner
    let q := (ctxOf s k).runq
    nextStart s core owner (q ++ startsLeaving s core owner) false 0 = some (i, st, f) →
    ∃ t, exec (.activationPlace core owner) s = .next t
      ∧ (i < q.length → (ctxOf t k).runq = dropAt q i)
      ∧ (∀ x, q.length ≤ i → (startsLeaving s core owner)[i - q.length]? = some x → (ctxOf t k).runq = q
          ∧ (ringOf t (ringOfCore s core)).inbound = dropAt (ringOf s (ringOfCore s core)).inbound x.1)
      ∧ (let fr := frameOf t core f
         fr.st = .active ∧ fr.owner = owner ∧ fr.pc = word st.entry ∧ fr.wid = st.wid ∧ fr.wfmt = st.wfmt ∧ fr.rmode = 0
         ∧ fr.fflags = 0 ∧ fr.reply = 0 ∧ fr.handles = [] ∧ fr.windows = [] ∧ fr.owed = [] ∧ fr.act = s.nextId ∧ fr.lin = st.lin
         ∧ (∀ r : Fin 32, r ≠ 28 → fr.regs[r] = (((st.regs.filter fun p => p.1 % 32 == r.val).getLast?).map Prod.snd).getD 0)
         ∧ fr.regs[28] = word (0x00F0000000000000 + (ctxOf s (ctxKey core owner)).region))
      ∧ (NMap.get (coreOf t core).banks (f / 4) {}).clean = false
      ∧ (∀ p ∈ st.tag, p ∈ (ctxOf t (ctxKey core owner)).known))
  ∧ (∀ iface index, (recOf s iface index).state = .running → (recOf s iface index).nextL < armSize (recOf s iface index) →
      (∀ m ∈ s.net, ∀ x, m.ctx = launchCtx iface index (recOf s iface index).owner → m.body = .start x → startRoom s m.core x = true) →
      -- one in a clk: the next one waits for the next clk, which comes once no core has an issue slot to take
      (s.clk < (recOf s iface index).lastReq → clkHeld s = false) →
      let u := if s.clk < (recOf s iface index).lastReq then pass s 1 else s
      let r := recOf u iface index
      let p := armSize r
      ∃ t m st, exec (.launchStartRequest iface index) s = .next t ∧ t.net = u.net ++ [m] ∧ m.body = .start st
        ∧ (r.policy = 0 → m.core = r.first + r.nextL * r.ncores / p)
        ∧ (r.policy = 1 → m.core = r.first + r.nextL % r.ncores)
        ∧ (r.policy = 2 → m.core = r.first + (drawOwner u r.owner 0x0C index).1 * r.ncores / 2 ^ 32)
        ∧ m.owner = r.owner
        ∧ st.entry = r.entry ∧ st.regs = [(2, r.param), (3, word index)] ∧ st.wid = widOf r r.nextL ∧ st.wfmt = r.fmt
        ∧ st.tag = r.armTag ∧ st.launch = some (iface, index) ∧ (recOf t iface index).nextL = r.nextL + 1)
  ∧ (∀ m after, s.notices[n]? = some (m, after) → (∀ e ∈ (ctxOf s m.ctx).queue, e.id ∉ after) →
    ∃ t, exec (.endNoticeSend n) s = .next t ∧ t.net = s.net ++ [m] ∧ t.notices = dropAt s.notices n)
  ∧ (∀ m i j arm, s.net[n]? = some m → m.body = .endNotice i j arm → standsAt s m.id = false → (recOf s i j).state = .running → (recOf s i j).arms = arm →
    ∃ t, exec (.endNoticeArrival n) s = .next t ∧ (recOf t i j).ended = (recOf s i j).ended + 1
      ∧ ((recOf s i j).ended + 1 ≠ armSize (recOf s i j) → (recOf t i j).state = .running ∧ t.net = dropAt s.net n)
      ∧ ((recOf s i j).ended + 1 = armSize (recOf s i j) → (recOf t i j).state = .done
          ∧ ((recOf s i j).done = 0 → t.net = dropAt s.net n)
          ∧ ((recOf s i j).done ≠ 0 → ∃ g : Msg, t.net = dropAt s.net n ++ [g]
              ∧ g.core = (recOf s i j).done.toNat / 2 ^ 20 % 2 ^ 31 ∧ g.body = .tdec ((recOf s i j).done.toNat % 2 ^ 20) 1)))
  ∧ (∀ iface index, let r := recOf s iface index
      r.det = true → r.state ≠ .unbuilt →
      (∀ c, (∀ p ∈ lineageFrames s c iface index, p.2.st ≠ .active ∧ parkOver s c p.1 = false)
        ∨ ∃ p ∈ lineageFrames s c iface index, r.quantum ≤ (ctxOf s (ctxKey c p.2.owner)).qret) →
      (∀ h ∈ s.held, h.iface = iface → h.index = index → h.state ≠ 1) →
      savedHolds s iface index r.quantum = false →
      let mine := fun (h : HeldReq) => h.iface == iface && h.index == index && h.state == 0
      ∃ t, exec (.quantumEnd iface index) s = .next t
        ∧ (recOf t iface index).quanta = (r.quanta + 1) % 2 ^ 32
        ∧ (∃ due, t.held = s.held.filter (fun h => !mine h) ++ due ∧ due.Pairwise (fun x y => heldBefore y x = false)
            ∧ ∀ h, h ∈ due ↔ ∃ x ∈ s.held, mine x = true ∧ h = { x with state := 1 })
        ∧ (∀ c, ∀ p ∈ lineageFrames s c iface index, (ctxOf t (ctxKey c p.2.owner)).qret = 0))
  ∧ (∀ iface index h e core owner b, index < 1024 → dueRequest s iface index = some h → h.arm = none → h.entry = some e →
      e.body = .msg core owner b → ∃ t m, exec (.messageDepart (quantumCtx iface index) n) s = .next t ∧ t.net = s.net ++ [m]
        ∧ m.id = e.id ∧ m.ctx = h.ctx ∧ m.core = core ∧ m.owner = owner ∧ m.body = b ∧ m.tag = e.tag
        ∧ ∀ x ∈ t.held, x.seq = h.seq → x.state = 2)

/-! ### Cache maintenance and fences (R85-R89, R257-R261) -/

/-- R257, R258: cache maintenance over a range whose pages all translate. `wb` and `flush` write the owner's dirty data of
the range back and wait for the entries and the unpublished pool-coherent writes of the range; `inv` and `flush` leave no
copy of the owner's in it; `lrenew` renews the leases of its self-invalidating copies that have not run out; no byte changes
but for dirty L1 data written back. A length of 0 or above 2^24 is ILL with SUB 4. That `inv` drops every copy in its own step, with no
wait, is log 39 (deduced). `pfch` never waits and takes kinds 0 to 2: it waits for a walk where no TLB has its page, else its request
joins the points of its way, and FILL makes the copy (CacheEvents); any failure discards it. That kind 1 needs both permissions is
the model's choice (log 83). -/
def Obligations.CacheMaintenance : Prop := ∀ (s : State) (a b : Reg),
  let va := (rd s a).toNat
  let len := (rd s b).toNat
  let o := curOwner s
  let cs := l1Cores s s.cur.1 o
  let ill := fun (i : Instr) => Traps i s 0x01 4 ((curFrame s).word.setWidth 64)
  (len = 0 ∨ 2 ^ 24 < len → ill (.wb a b) ∧ ill (.inv a b) ∧ ill (.flush a b) ∧ ill (.lrenew a b))
  ∧ (0 < len → len ≤ 2 ^ 24 → (∀ p ∈ rangeParts s 0 (va + len) (fun _ _ => true) true (len / 4096 + 2) va, reached p.2.2) →
      let segs := rangeSegs s (rangeParts s 0 (va + len) (fun _ _ => true) true (len / 4096 + 2) va)
      let v := cleanRange s segs
      let w := rangeWaits v segs
      let over_ := (curFrame s).granted = true ∨ (w.1 = [] ∧ w.2 = [])
      let dropped := fun (t : State) => ∀ c ∈ cs, ∀ l ∈ (coreOf t c).l1, l.owner = o → inSegs segs l.pa = false
      let renewed := fun (l : L1Line) =>
        if l.owner = o ∧ l.treat = 1 ∧ inSegs segs l.pa = true ∧ l1Live s l = true then { l with expiry := s.clk + leaseLen s s.cur.1 o } else l
      (over_ → Completes (.wb a b) s v ready [] (dirtyByte s) fun _ => True)
      ∧ (¬over_ → ParksAfter (.wb a b) s v [.settled w.1 [], .published w.2 false])
      ∧ Completes (.inv a b) s (dropRange s segs) ready [] (dirtyByte s) dropped
      ∧ (over_ → Completes (.flush a b) s (dropRange v segs) ready [] (dirtyByte s) dropped)
      ∧ (¬over_ → ParksAfter (.flush a b) s v [.settled w.1 [], .published w.2 false])
      ∧ Completes (.lrenew a b) s
          (cs.foldl (fun s c => setCore s c { coreOf s c with l1 := (coreOf s c).l1.map renewed }) s) ready [] noByte fun _ => True)
  ∧ (3 ≤ len → ill (.pfch a b))
  ∧ (len < 3 → let core := s.cur.1
      let n := s.nextId
      let t := { s with nextId := n + 1 }
      let acc := if len = 1 then 2 else 0
      let at_ := whereIs s core o [] (rd s a) acc
      let gone := Completes (.pfch a b) s t id [] noByte fun _ => True
      (at_ = .miss → Completes (.pfch a b) s (missWalk t (.pfch len) (ringOfCore s core) core o n (rd s a) acc) id [] noByte fun _ => True)
      ∧ (at_ ≠ .miss → (∀ pa x, at_ ≠ .mem pa x) → gone)
      ∧ (∀ pa x, at_ = .mem pa x →
          let bad := ∃ l ∈ locsFrom (pa / 64 * 64) 64, poisoned s l = true
          let idle := len ≠ 2 ∧ prefetchIdle s core o pa x.treat (len == 1) = true
          let p : Prefetch := { id := n, core := core, owner := o, pa := pa, treat := x.treat, share := whereShare (.mem pa x),
                                write := len == 1 }
          (bad ∨ idle → gone)
          ∧ (¬bad → ¬idle → Completes (.pfch a b) s
              (requestAccess { t with prefetches := if len = 2 then s.prefetches else s.prefetches ++ [p] } core o n (.pa pa) x.treat
                (whereShare (.mem pa x)) false false) id [] noByte fun _ => True)))

/-- R85, R86, R88, R261: a fence issues once its marker has room where it is of core scope, parks until what it names is
over, and then completes with the registers as they were, other frames but for fetch buffers as they were, and every byte
but for dirty data of the self-invalidating copies that a load fence drops. A store fence beyond core scope tags the
frame's later writes with the context's knowledge, a load fence learns from the tags of the writes that the frame has read,
and a fence of core scope puts one marker into the queue, which stands there from its issue on (the model's choice, log 70). -/
def Obligations.Fences : Prop := ∀ (s : State) (f : FKind) (sc : Scope) (i : Instr),
  (i = .fenceAll sc ∧ f = .all ∨ i = .fenceLd sc ∧ f = .ld ∨ i = .fenceSt sc ∧ f = .st ∨ i = .fenceEng sc ∧ f = .eng) →
  let k := curCtx s
  let first := (curFrame s).fenceAt = []
  let u := if first then fenceIssue s sc else s
  let cs := fenceConds u f sc
  let stores := f = .all ∨ f = .st
  let loads := f = .all ∨ f = .ld
  let marks := first ∧ sc = .core
  let full := marks ∧ segmentRoom s k (curBank s) < 1
  let l1s := l1Cores s s.cur.1 (curOwner s)
  (full → Parks i s [.segment (curBank s)])
  ∧ (¬full → cs ≠ [] → (curFrame s).granted = false → ParksAfter i s u cs)
  ∧ (marks → ∃ m : QEntry, (ctxOf u k).queue = (ctxOf s k).queue ++ [m] ∧ m.body = .marker)
  ∧ (¬full → cs = [] ∨ (curFrame s).granted = true → ∃ t, exec i s = .next t
      ∧ curPc t = curPc s + 4 ∧ (∀ r, rd t r = rd s r) ∧ QuietBut s t
      ∧ (∀ c g, (c, g) ≠ s.cur → { frameOf t c g with fbuf := (frameOf s c g).fbuf } = frameOf s c g)
      ∧ (∀ w ∈ (ctxOf s k).known, w ∈ (ctxOf t k).known)
      ∧ (¬loads ∨ selfClean s l1s (curOwner s) → Quiet s t ∧ (ctxOf t k).queue = (ctxOf u k).queue
          ∧ ∀ j, j ≠ k → ctxOf t j = ctxOf s j)
      ∧ (stores → sc ≠ .core → (curFrame t).fence = some { writes := (ctxOf t k).known, scope := sc, core := s.cur.1 })
      ∧ (loads → ∀ w ∈ (curFrame s).seen, ∀ g, scopeHolds s sc (wrec s w).writer = true → (wrec s w).tag = some g →
          inScope s g (ctxCore k) = true → ∀ v ∈ g.writes, v ∈ (ctxOf t k).known)
      ∧ (loads → ∀ c ∈ l1s, ∀ l ∈ (coreOf t c).l1, l.owner = curOwner s → l.treat ≠ 1))

/-! ### Settling, coalescing and departing (R81, R82, R91, R158, R230, R280) -/

/-- R81, R82: an entry that may settle gives its location's last settled write: its bytes stand there and no other byte
changes; it does so in a slot of its unit, and leaves the queue. One that an L1 holds dirty first joins the points of its way to its
home (R221, R251). A write toward a window
is sent and not yet acknowledged; a store that its region's capability refuses never settles and returns CAP; one for a core
where its owner's accesses wait stays in the queue, held. A weak store goes in favour of a later entry that covers it, where no step between the two is to see it (R337); a
message whose release condition holds goes to the fabric; a write toward a window is acknowledged, or dropped and counted. -/
def Obligations.SettledEntries : Prop := ∀ (s : State) (k i : Nat) (e : QEntry), Inv s → (ctxOf s k).queue[i]? = some e →
  let q := (ctxOf s k).queue
  let left := fun (t : State) => (∀ o ∈ s.orphans, o.1 ≠ k) → (ctxOf t k).queue = q.filter fun x => x.id != e.id
  (∀ w tg n tr, e.body = .write w tg n tr → settleReady s k i e w tg tr = true → unitSlot s tg = true → e.quiet = true →
    exec (.settle k i) s = commit s (requestAccess (setCtx s k { ctxOf s k with
      queue := q.map fun y => if y.id = e.id then { y with quiet := false } else y }) (ctxCore k) (ctxOwner k) w tg tr e.share true false))
  ∧ (∀ w tg n tr, e.body = .write w tg n tr → settleReady s k i e w tg tr = true → unitSlot s tg = true → e.quiet = false →
    let settles := fun (cells : List Host.Cell) => ∃ t, exec (.settle k i) s = .next t ∧ t.log = w :: s.log ∧ left t
      ∧ ∀ x, byteAt t x = (NMap.find cells x).getD (byteAt s x)
    (∀ c o l, tg = .loc c o → mustFollow s c (ctxOwner k) k = false → localLoc s c (ctxOwner k) o = some l →
      settles (cellsAt l ((wrec s w).bytes.map Prod.snd)))
    ∧ (∀ c o, tg = .loc c o → mustFollow s c (ctxOwner k) k = true → inboundRoom s (ringOfCore s c) = true →
        ∃ t, exec (.settle k i) s = .next t ∧ Quiet s t ∧ t.log = s.log
        ∧ (ctxOf t k).queue = q.map fun y => if y.id = e.id then { y with held := true } else y)
    ∧ (∀ pa bs, tg = .pa pa → isWindow pa = false → tr < 4 ∨ capAllows s k pa .store = true →
        (wrec s w).bytes = cellsAt pa bs → settles (cellsAt pa bs))
    ∧ (∀ pa, tg = .pa pa → isWindow pa = true → s.linksLost = [] → tr < 4 ∨ capAllows s k pa .store = true →
        ∃ t, exec (.settle k i) s = .next t ∧ t.log = w :: s.log ∧ t.unacked = s.unacked ++ [w] ∧ left t ∧ Quiet s t)
    ∧ (∀ pa, tg = .pa pa → 4 ≤ tr → capAllows s k pa .store = false → ∃ t b, exec (.settle k i) s = .next t
        ∧ t.refusals = s.refusals ++ [b] ∧ b.cause = 0x07 ∧ b.ctx = k ∧ b.frame = e.frame ∧ b.addr = (wrec s w).va
        ∧ t.log = s.log ∧ left t ∧ Quiet s t))
  ∧ (∀ w tg n tr j x, e.body = .write w tg n tr → e.weak = true → e.held = false → i < j → q[j]? = some x →
      (∀ l ∈ entryLocs s (ctxOwner k) e, l ∈ entryLocs s (ctxOwner k) x) →
      (∀ y ∈ (q.take j).drop (i + 1), y.rel = false ∧ y.body ≠ .marker) → (∀ v, entryWrite x = some v → panelMet s k e v (w + 1) = false) →
      ∃ t, exec (.coalesce k i) s = .next t ∧ left t ∧ t.log = s.log ∧ Quiet s t)
  ∧ (∀ core owner b, e.body = .msg core owner b → releasable s k e.after e.reads e.pub e.acked = true → k < quantumCtx 0 0 →
      let m : Msg := { id := e.id, ctx := k, frame := e.frame, act := e.act, core := core, owner := owner, body := b, tag := e.tag }
      targetRoom s m = true → ∃ t, exec (.messageDepart k i) s = .next t ∧ t.net = s.net ++ [m] ∧ left t ∧ Quiet s t)
  ∧ (∀ w, let u := { s with free := s.free + 1, unacked := s.unacked.filter fun x => x != w }
      (w ∉ s.unacked → exec (.linkWriteAck w) s = .next s)
      ∧ (w ∈ s.unacked → Config.freeBool s.free = false ∨ writerCtx (wrec s w) = none → exec (.linkWriteAck w) s = .next u)
      ∧ (∀ j, w ∈ s.unacked → Config.freeBool s.free = true → writerCtx (wrec s w) = some j →
          exec (.linkWriteAck w) s = commit s (countDrop u (ctxOwner j))))

/-- R75, R80-R84, R133, R158, R164, R251: a strong or acquire read returns the last settled writes of its bytes once what stood
before it is over, and waits while another L1 holds the line in M with data that may not settle yet; a weak read returns its queue's entries, its L1 copy or a choice from the write sets, all candidates
of its context, and one that its L1 held at issue first joins the points of its way; each is then gone, and its value owed. An owed value that is there, with that of the other half of its `ld.q`, is
written to its register alone. A
refusal ends its activation as a terminating trap does. The next word in sequence enters a fetch buffer with room. -/
def Obligations.ServedReads : Prop := ∀ (s : State),
  (∀ n r, s.reads.find? (fun x => x.id == n) = some r → r.parked = false → unitSlot s r.tgt = true →
    let locs := readLocs s r
    (1 ≤ r.mode → releasable s r.ctx r.after [] [] [] = true → (∀ v ∈ r.inval, invalQueued s v = false) →
      (∀ x ∈ s.reads, x.ctx = r.ctx → x.frame = r.frame → x.mode = 2 → r.id ≤ x.id) → servable s r →
      ∃ t, exec (.serveAtHome n) s = .next t
        ∧ Served r (extended r.sx (locs.map fun l => writeByte s (lastSettled s l) l)) s t)
    ∧ (∀ a, r.tgt = .pa a → 1 ≤ r.mode → releasable s r.ctx r.after [] [] [] = true → (∀ v ∈ r.inval, invalQueued s v = false) →
      (∀ x ∈ s.reads, x.ctx = r.ctx → x.frame = r.frame → x.mode = 2 → r.id ≤ x.id) → standsAt s r.id = false → lostAt s a = false →
      isWindow a = false → let u := atHome s r.ctx r.tgt
      recallOpen u (ctxCore r.ctx) (ctxOwner r.ctx) a = true → exec (.serveAtHome n) s = commit s u)
    ∧ (r.mode = 0 → ∀ c ws, readLost s r = false → queueSource s r.ctx locs = some ws → ownLocal r = false → allCandidates s r.ctx locs ws = true →
        allOrNone s locs ws = true →
        ∃ t, exec (.serveWeak n (0 :: c)) s = .next t ∧ Served r (extended r.sx (readValue s locs ws)) s t)
    ∧ (r.mode = 0 → ∀ c pa l, r.tgt = .pa pa → l1Line s (ctxCore r.ctx) (ctxOwner r.ctx) pa (r.treat % 4) = some l →
        l.poison = false → (∀ x ∈ locs, (NMap.find l.vals x).isSome = true) →
        let ws := locs.map fun x => NMap.get l.vals x 0
        allCandidates s r.ctx locs ws = true → allOrNone s locs ws = true →
        ∃ t, exec (.serveWeak n (1 :: c)) s = .next t ∧ Served r (extended r.sx (readValue s locs ws)) s t)
    ∧ (r.mode = 0 → ∀ ws, ws ≠ [] → ws.length = locs.length →
        (∀ j < locs.length, ws.getD j 0 ∈ writeSet s (locs.getD j 0)) → allCandidates s r.ctx locs ws = true →
        allOrNone s locs ws = true → servable s r →
        (unasked r = true → exec (.serveWeak n (2 :: ws)) s = commit s (askRead s r))
        ∧ (unasked r = false → ∃ t, exec (.serveWeak n (2 :: ws)) s = .next t ∧ Served r (extended r.sx (readValue s locs ws)) s t)))
  ∧ (∀ c g j o v, (frameOf s c g).owed[j]? = some o → o.val = some v → o.reg < 64 → halfOpen s o.id = false →
      ∃ t, exec (.resultReturn c g j) s = .next t ∧ Quiet s t
        ∧ (frameOf t c g).owed = dropAt (frameOf s c g).owed j ∧ (frameOf t c g).pc = (frameOf s c g).pc
        ∧ (∀ r : Fin 32, (frameOf t c g).regs[r] = if r.val = o.reg ∧ r ≠ 0 then v else (frameOf s c g).regs[r])
        ∧ (∀ r : Fin 32, (coreOf t c).hregs[r] = if r.val + 32 = o.reg ∧ r ≠ 0 then v else (coreOf s c).hregs[r])
        ∧ (∀ a b, (a, b) ≠ (c, g) → frameOf t a b = frameOf s a b))
  ∧ (∀ n b, s.refusals[n]? = some b →
      let c := ctxCore b.ctx
      let f := frameOf s c b.frame
      (f.act = b.act → f.st ≠ .free → handlerOf s c b.frame = false → ∃ t, exec (.refusalReturn n) s = .next t
        ∧ (frameOf t c b.frame).st = .free ∧ t.refusals = dropAt s.refusals n
        ∧ ((coreOf s c).sup = false → (coreOf t c).epc = b.pc ∧ (coreOf t c).eaddr = b.addr
            ∧ (coreOf t c).ecause = word (b.cause + f.owner * 2 ^ 16)))
      ∧ (f.act ≠ b.act ∨ f.st = .free → b.cause ≠ 0x07 → ∃ t, exec (.refusalReturn n) s = .next t
        ∧ t.refusals = dropAt s.refusals n ∧ t.cores = s.cores ∧ t.ifaces = s.ifaces ∧ Quiet s t))
  ∧ (∀ c g l, let f := frameOf s c g
      f.st ≠ .free → f.fbuf = [] → localLoc s c f.owner f.pc.toNat = some l → poisoned s l = false →
      ∃ t, exec (.fetchRefill c g) s = .next t ∧ frameOf t c g = { f with fbuf := [(f.pc.toNat, fetchWord s l)] } ∧ Quiet s t)
  ∧ (∀ c g x y l, let f := frameOf s c g
      f.st ≠ .free → f.fbuf.head? = some x → f.fbuf.getLast? = some y → x.1 = f.pc.toNat ∨ x.1 = f.pc.toNat + 4 →
      f.fbuf.length < 8 → localLoc s c f.owner (y.1 + 4) = some l → poisoned s l = false →
      ∃ t, exec (.fetchRefill c g) s = .next t ∧ frameOf t c g = { f with fbuf := f.fbuf ++ [(y.1 + 4, fetchWord s l)] } ∧ Quiet s t)

/-! ### Arrivals (R172-R174, R271, R272) -/

/-- R172-R174: what a message for a buffer does at its core, where its owner is resident. An open of a usable header that
no producer has sets its producer fields and answers with window, size, HEAD and TAIL; any other answers that there is no
window. The reply opens the window in the frame that holds the opener, and answers `wopen`. A slot is written at HEAD and published, in a
slot of the bank's array. A credit sets ACK of the window it names, in whichever frame holds it, and a close ends PV of that window. -/
def Obligations.BufferArrivals : Prop := ∀ (s : State) (n : Nat) (m : Msg), Inv s → delivers s n m →
  let k := ctxKey m.core m.owner
  let f := fun (g : Nat) => frameOf s m.core g
  (∀ off req g act id, m.body = .wopen off req g act id →
    let tells := fun (ans : Option (Nat × Nat × Nat × Nat)) (t : State) => ∃ r : Msg, t.net = dropAt s.net n ++ [r]
      ∧ r.body = .wreply g act id off ans ∧ r.core = ctxCore m.ctx ∧ r.owner = m.owner
    (usableHeader s k off = none → ∃ t, exec (.windowOpenArrival n) s = .next t ∧ tells none t ∧ Quiet s t)
    ∧ (∀ x, usableHeader s k off = some x → x.pb = true ∨ x.pv = true ∨ headersFull s k off = true →
        ∃ t, exec (.windowOpenArrival n) s = .next t ∧ tells none t ∧ Quiet s t)
    ∧ (∀ x, usableHeader s k off = some x → x.pb = false → x.pv = false → headersFull s k off = false →
        let win := if req = 0 ∨ slotsOf x < req then slotsOf x else req
        let pw := (closedWindows (frameOf s (ctxCore m.ctx) (frameWith s (ctxCore m.ctx) g act))).headD 0
        ∃ t, exec (.windowOpenArrival n) s = .next t ∧ tells (some (pw, win, x.head, x.tail)) t
          ∧ liveHeader t k off = some { x with pcore := ctxCore m.ctx, pframe := g, pwin := pw, pv := true, win := win }))
  ∧ (∀ g act id off ans, m.body = .wreply g act id off ans → let j := frameWith s m.core g act
      (f j).act = act → (f j).st ≠ .free →
      ∃ t, exec (.windowOpenReply n) s = .next t ∧ t.net = dropAt s.net n ∧ Quiet s t
      ∧ (ans = none → Answered s t m.core j act id allOnes ∧ (frameOf t m.core j).windows = (f j).windows)
      ∧ (∀ w win h l, ans = some (w, win, h, l) → Answered s t m.core j act id (word (w + win * 2 ^ 16))
          ∧ NMap.find (frameOf t m.core j).windows w
            = some { core := ctxCore m.ctx, hdr := off, win := win, sent := h, ack := l, frame := g }))
  ∧ (∀ off data len lin bad x a, m.body = .slot off data len lin bad → railSlot s 2 = true → liveHeader s k off = some x → headerLive x = true →
      localLoc s m.core m.owner (slotOff x x.head) = some a → x.hv = false →
      ∃ t y, exec (.slotArrival n) s = .next t ∧ t.net = dropAt s.net n ∧ liveHeader t k off = some y
        ∧ y.head = (x.head + 1) % 2 ^ 32 ∧ y.tail = x.tail
        ∧ (∀ i < data.length, ¬headerByte s k off (a + i) → byteAt t (a + i) = data.getD i 0)
        ∧ (∀ p, p < a ∨ a + data.length ≤ p → ¬headerByte s k off p → byteAt t p = byteAt s p))
  ∧ (∀ off tail g w, m.body = .credit off tail g w → ∃ t, exec (.creditArrival n) s = .next t ∧ t.net = dropAt s.net n ∧ Quiet s t
      ∧ ∀ j v, NMap.find (frameOf t m.core j).windows v = (NMap.find (f j).windows v).map fun x =>
          if (f j).owner = m.owner ∧ v = w ∧ x.core = ctxCore m.ctx ∧ x.hdr = off ∧ x.frame = g then { x with ack := tail } else x)
  ∧ (∀ off g w x, m.body = .close off g w → liveHeader s k off = some x → x.pv = true → x.pcore = ctxCore m.ctx → x.pframe = g →
      x.pwin = w → ∃ t, exec (.windowCloseArrival n) s = .next t ∧ t.net = dropAt s.net n
        ∧ liveHeader t k off = (if x.cb || x.pb || x.hv || headerTaken s k off then some { x with pv := false } else none))

/-- R271, R272: ordered adds and watches at a group's region. The sequence number must fit 32 bits and the address be
aligned; a member's request enters the machine, an ordered add completing at once and `ojoin` waiting for its watch, with no wait for
room in the atomic queue (log 91, the model's choice); a context that is no member, or a page that is not marked, takes CAP.

R262, R271, R272: an ordered add at its home slice. A number that is past, or that the window holds, only counts in STALE; one
64 or more ahead is refused, and sent again 64 clk later over the points of its way; any other takes its place in the window, and
one that stands at NEXT asks for a slot of the atomic unit. In that slot it is applied as one atomic step, as I64 or as F32 rounded to
nearest even, and NEXT moves on; a poisoned word is left as it is, and NEXT moves on all the same. A watch that is due decrements its
record; else it takes one of four places, or waits. -/
def Obligations.OrderedAtomicsAndArrivals : Prop :=
  (∀ (s : State) (d a b : Reg) (float : Bool) (i : Instr) (n : Nat),
  (i = .oadd d a b ∧ float = false ∧ n = 8 ∨ i = .ofadd d a b ∧ float = true ∧ n = 4) →
  let sq := (rd s d).toNat
  let va := rd s a
  let rc := rd s b
  let k := curCtx s
  (2 ^ 32 ≤ sq → Traps i s 0x01 4 ((curFrame s).word.setWidth 64) ∧ Traps (.ojoin d a b) s 0x01 4 ((curFrame s).word.setWidth 64))
  ∧ (sq < 2 ^ 32 → va.toNat % n ≠ 0 → Traps i s 0x03 0 va)
  ∧ (sq < 2 ^ 32 → rc.toNat % 32 ≠ 0 → Traps (.ojoin d a b) s 0x03 0 rc)
  ∧ (sq < 2 ^ 32 → va.toNat % n = 0 → Unreached i s va 2 (fun pa _ => !isWindow pa))
  ∧ (∀ pa x, sq < 2 ^ 32 → whereCur s va 2 (fun pa _ => !isWindow pa) = .mem pa x → x.swr = true →
      (groupFor s k pa).isSome = true →
      let rs := strongReads s (locsFrom pa n)
      (va.toNat % n = 0 → rs ≠ [] → Parks i s [.settled [] rs])
      ∧ (va.toNat % n = 0 → rs = [] → atomicsFull s k = true → Parks i s [.atomics])
      ∧ (va.toNat % n = 0 → rs = [] → atomicsFull s k = false →
          Completes i s (newReq s (.ordered float sq pa (rd s b) 0 0) (some (.pa pa, n)) (whereTreat (.mem pa x))
              (whereShare (.mem pa x)) true false va) ready [] noByte fun t => ∃ q : Req, t.reqs = s.reqs ++ [q] ∧ q.kind = .ordered float sq pa (rd s b) 0 0
            ∧ q.after = (ctxOf s k).queue.map QEntry.id)
      ∧ (∀ r, rc.toNat % 32 = 0 → localTarget s rc = some r →
          CompletesWaiting (.ojoin d a b) s (newReq s (.watch sq pa r) none (whereTreat (.mem pa x)) (whereShare (.mem pa x)) true
              false va)
            [.settled [] [s.nextId]] noByte fun t => ∃ q : Req, t.reqs = s.reqs ++ [q] ∧ q.kind = .watch sq pa r)
      ∧ (rc.toNat % 32 = 0 → localTarget s rc = none → Traps (.ojoin d a b) s 0x06 0 rc))
  ∧ (sq < 2 ^ 32 → rc.toNat % 32 = 0 → (localTarget s rc).isSome = true → Unreached (.ojoin d a b) s va 2 (fun pa _ => !isWindow pa))
  ∧ (∀ pa x, sq < 2 ^ 32 → whereCur s va 2 (fun pa _ => !isWindow pa) = .mem pa x → x.swr = false ∨ groupFor s k pa = none →
      let u := if x.swr then countCapDrop s pa else s
      (va.toNat % n = 0 → exec i s = commit s (trap u 0x07 0 va))
      ∧ (rc.toNat % 32 = 0 → (localTarget s rc).isSome = true → exec (.ojoin d a b) s = commit s (trap u 0x07 0 va))))
  ∧ (∀ (s : State), Inv s →
  (∀ (n : Nat) (q : Req) (pa gid sq : Nat) (g : Group), performs s n q → groupFor s q.ctx pa = some gid →
  NMap.find (ringOf s (homeRing s pa)).groups gid = some g →
  let gone := fun (t : State) => t.reqs = s.reqs.filter fun p => p.id != q.id
  let group := fun (t : State) => NMap.find (ringOf t (homeRing s pa)).groups gid
  (∀ float val st x, q.kind = .ordered float sq pa val st x → st ≠ 1 → atomicSlot s q = true →
    let dist := diff32 sq g.next
    let held := ∃ e, NMap.find g.window (sq % 64) = some e ∧ e.seq = sq
    (2 ^ 31 ≤ dist ∨ held → ∃ t, exec (.orderedArrival n) s = .next t ∧ gone t ∧ Quiet s t
        ∧ group t = some { g with stale := min (g.stale + 1) (2 ^ 16 - 1) })
    ∧ (dist < 2 ^ 31 → ¬held → 63 < dist → ∃ t, exec (.orderedArrival n) s = .next t ∧ Quiet s t ∧ t.rings = s.rings
        ∧ t.reqs = s.reqs.map fun p => if p.id = q.id then { p with kind := .ordered float sq pa val 1 s.clk } else p)
    ∧ (dist ≤ 63 → ¬held → ∃ t e, exec (.orderedArrival n) s = .next t
        ∧ Quiet s t ∧ group t = some { g with window := NMap.put g.window (sq % 64) e }
        ∧ e.seq = sq ∧ e.pa = pa ∧ e.val = val ∧ e.float = float ∧ e.tag = q.tag
        ∧ (NMap.find (NMap.put g.window (sq % 64) e) (g.next % 64) = none → gone t)
        ∧ (∀ z, NMap.find (NMap.put g.window (sq % 64) e) (g.next % 64) = some z →
            ∃ p ∈ t.reqs, p.kind = .apply (homeRing s pa) gid)))
  ∧ (∀ task, q.kind = .watch sq pa task →
    (diff32 g.next sq < 2 ^ 31 → ∃ t m, exec (.watchArrival n) s = .next t ∧ gone t ∧ Quiet s t ∧ t.net = s.net ++ [m]
        ∧ m.body = .tdec task.2 1 ∧ m.core = task.1 ∧ m.owner = ctxOwner q.ctx)
    ∧ (2 ^ 31 ≤ diff32 g.next sq → g.watches.length < 4 → ∃ t, exec (.watchArrival n) s = .next t ∧ gone t ∧ Quiet s t
        ∧ t.net = s.net ∧ group t = some { g with watches := g.watches ++ [(sq, ctxOwner q.ctx, task, q.tag)] })
    ∧ (2 ^ 31 ≤ diff32 g.next sq → 4 ≤ g.watches.length → exec (.watchArrival n) s = .next s)))
  ∧ (∀ j p pa float x val since, s.reqs[j]? = some p → p.kind = .ordered float x pa val 1 since →
      (since + 64 ≤ s.clk → exec (.orderedResend j) s = commit s (requestAccess { s with reqs := s.reqs.map fun r =>
          if r.id = p.id then { r with kind := .ordered float x pa val 2 0 } else r } (ctxCore p.ctx) (ctxOwner p.ctx) p.id (.pa pa)
          p.treat p.share true false))
      ∧ (s.clk < since + 64 → exec (.orderedResend j) s = .next s))
  ∧ (∀ n q ring gid g e, performs s n q → q.kind = .apply ring gid → atomicSlot s q = true →
      NMap.find (ringOf s ring).groups gid = some g → NMap.find g.window (g.next % 64) = some e →
      let len := if e.float then 4 else 8
      let old := rdNat s e.pa len
      let sum := if e.float then (roundTo fmtF32 0 (addV 0 (unpack fmtF32 old) (unpack fmtF32 (e.val.toNat % 2 ^ 32))).1).1
        else (old + e.val.toNat) % 2 ^ 64
      (∀ l ∈ locsFrom e.pa len, ¬dirtyLine s (l / 256)) → ∃ t y, exec (.atomicStep n) s = .next t
        ∧ NMap.find (ringOf t ring).groups gid = some y ∧ y.next = (g.next + 1) % 2 ^ 32 ∧ y.window = NMap.del g.window (g.next % 64)
        ∧ ((∀ l ∈ locsFrom e.pa len, poisoned s l = false) → rdNat t e.pa len = sum % 2 ^ (8 * len))
        ∧ ((∃ l ∈ locsFrom e.pa len, poisoned s l = true) → rdNat t e.pa len = old)
        ∧ (∀ a, a ∉ locsFrom e.pa len → ¬dirtyByte s a → byteAt t a = byteAt s a)
        ∧ (NMap.find y.window (y.next % 64) = none → t.reqs = s.reqs.filter fun p => p.id != q.id)))

/-! ### Capabilities (R276-R281) -/

/-- R277, R278: the capability instructions on a single-writer page of device DRAM send one request and wait for its
answer; on any other place they are PROT; an operand out of range is ILL with SUB 4. That they need the page's read permission alone
is the model's choice (log 92).

R278, R279: the capability request at the home slice. `cgive` by the holder hands the region on, or sets it free, and
answers 0, by another 1, and while a group has entries 2; `cq` reads its word; `cgrp` by the holder makes a group of
the lowest free id (log 35); `caccept` takes an unheld region, answers a holder, and else waits. -/
def Obligations.Capabilities : Prop :=
  (∀ (s : State) (d a b : Reg) (op : Nat) (x : Word) (i : Instr),
  (i = .cgive d a b ∧ op = 0 ∧ x = rd s b ∨ i = .cq d a b ∧ op = 1 ∧ x = rd s b ∨ i = .cgrp d a b ∧ op = 2 ∧ x = rd s b
    ∨ i = .caccept d a ∧ op = 3 ∧ x = 0) →
  let va := rd s a
  let n := bits x 28 16
  let fits := match op with
    | 0 => x = allOnes ∨ (bits x 12 0 < 6144 ∧ bits x 15 13 = 0 ∧ bits x 63 28 = 0)
    | 1 => x.toNat < 2
    | 2 => bits x 15 13 = 0 ∧ bits x 63 29 = 0 ∧ 1 ≤ n ∧ bits x 12 0 + n ≤ 6144
    | _ => True
  let ok := fun (pa : Nat) (y : Xlat) => y.swr && isDram pa
  (¬fits → Traps i s 0x01 4 ((curFrame s).word.setWidth 64))
  ∧ (fits → Unreached i s va 0 ok)
  ∧ (∀ c f, fits → whereCur s va 0 = .loc c f → Traps i s 0x06 0 va)
  ∧ (∀ pa y, fits → whereCur s va 0 = .mem pa y → ok pa y = false → exec i s = commit s (whereTrap s 0x06 va))
  ∧ (∀ pa y, fits → whereCur s va 0 ok = .mem pa y →
      let tr := whereTreat (.mem pa y)
      let u := newReq s (.cap op pa x) none tr (whereShare (.mem pa y)) (op == 0 || op == 2) false va
      CompletesWaiting i s (owe (requestAccess u s.cur.1 (curOwner s) s.nextId (.pa pa) tr (whereShare (.mem pa y)) false false) d s.nextId none)
        [.answer s.nextId] noByte fun t => ∃ q : Req, t.reqs = s.reqs ++ [q] ∧ q.id = s.nextId ∧ q.kind = .cap op pa x))
  ∧ (∀ (s : State) (n : Nat) (q : Req) (op pa : Nat) (b : Word),
  performs s n q → q.kind = .cap op pa b →
  let h := (capOf s pa).holder
  let mine := holdsCap s q.ctx pa
  let tells := fun (v : Word) (h' : Holder) => ∃ t, exec (.capabilityStep n) s = .next t ∧ Replied q v s t ∧ (capOf t pa).holder = h'
  (op = 0 → mine = false → tells 1 h)
  ∧ (∀ i g, op = 0 → mine = true → capGroup s pa = some (i, g) → g.window ≠ [] ∨ g.watches ≠ [] → tells 2 h)
  ∧ (op = 0 → mine = true → (∀ i g, capGroup s pa = some (i, g) → g.window = [] ∧ g.watches = []) →
      tells 0 (if b = allOnes then .unheld else .context (bits b 27 16) (bits b 12 0)))
  ∧ (op = 1 → tells (cqWord s pa b) h)
  ∧ (∀ i, op = 2 → h = .group i → tells 3 h)
  ∧ (op = 2 → (∀ i, h ≠ .group i) → mine = false → tells 1 h)
  ∧ (∀ i, op = 2 → (∀ j, h ≠ .group j) → mine = true → i < 16 → NMap.find (ringOf s (homeRing s pa)).groups i = none →
      (∀ j < i, NMap.find (ringOf s (homeRing s pa)).groups j ≠ none) →
      ∃ t g, exec (.capabilityStep n) s = .next t ∧ Replied q (word (i * 2 ^ 8)) s t ∧ (capOf t pa).holder = .group i
        ∧ NMap.find (ringOf t (homeRing s pa)).groups i = some g ∧ g.owner = ctxOwner q.ctx ∧ g.first = bits b 12 0
        ∧ g.count = bits b 28 16 ∧ g.next = 0 ∧ g.window = [] ∧ g.watches = [])
  ∧ (op = 2 → (∀ j, h ≠ .group j) → mine = true → (∀ j < 16, NMap.find (ringOf s (homeRing s pa)).groups j ≠ none) → tells 2 h)
  ∧ (op = 3 → b = 0 → h = .unheld → tells 0 (.context (ctxOwner q.ctx) (ctxCore q.ctx)))
  ∧ (op = 3 → h ≠ .unheld → mine = true → tells (word (capGroupId s pa * 2 ^ 8)) h)
  ∧ (op = 3 → b ≠ 0 ∨ h ≠ .unheld → mine = false → ∃ t, exec (.capabilityStep n) s = .next t ∧ Quiet s t ∧ t.rings = s.rings
      ∧ t.reqs = s.reqs.map fun p => if p.id = q.id then { p with kind := .cap 3 pa 1 } else p))

/-! ### Caches (R82, R160, R235-R252, R256) -/

/-- R82, R235-R252, R256: fills of an L1 and of a home slice, probes (with the drop of self-invalidating copies), lease expiry, the moves and the end of a reseed sweep,
the fused state, and memory errors, those of the arrays in a slot of theirs (R393). A FILL sets the copy from the write sets for a
prefetch that has crossed the points of its way, else through the page of the weak load that misses, else through a page of a TLB; a
home slice fills a sector again for an access on its way to it alone, in the way that the grants of its request took (log 56). -/
def Obligations.CacheEvents : Prop := ∀ (s : State),
  (∀ core owner pa choice, railSlot s 2 = true →
    (∀ p, prefetchFor s core owner pa = some p → exec (.fill core owner pa choice) s = commit s (fillPrefetch s p choice))
    ∧ (prefetchFor s core owner pa = none → ∀ r, missFor s core owner pa = some r →
        exec (.fill core owner pa choice) s = commit s (fillL1 s core owner pa r.treat false choice))
    ∧ (prefetchFor s core owner pa = none → missFor s core owner pa = none → ∀ x, pageOf s owner pa = some x →
        exec (.fill core owner pa choice) s = commit s (fillL1 s core owner pa x.treat false choice)))
  ∧ (∀ core owner pa choice treat, mayCopy s core owner pa treat = true → treat % 4 = 1 ∨ sectorPresent s pa = true →
    (∀ l ∈ (coreOf s (l1Core s core owner pa)).l1, l.pa / 64 % 64 = pa / 64 % 64 → l.dirty = [] ∧ l1Live s l = true) →
    (∀ l ∈ locsFrom (pa / 64 * 64) 64, NMap.get choice l (lastSettled s l) ∈ writeSet s l) →
    (l1Line s core owner pa (treat % 4)).isSome = true ∨ (l1Victim s (l1Core s core owner pa) owner (pa / 64 % 64)).isSome = true →
    let t := fillL1 s core owner pa treat false choice
    ∃ l, Quiet s t ∧ t.log = s.log
      ∧ l1Line t core owner pa (treat % 4) = some l ∧ l.filled = s.clk ∧ l.expiry = s.clk + leaseLen s core owner
      ∧ (l.poison = true ↔ ∃ a ∈ locsFrom (pa / 64 * 64) 64, poisoned s a = true))
  ∧ (∀ owner pa, (∀ a ∈ accessesTo s owner pa, standsAt s a.1 = true) ∨ sectorPresent s pa = true
      ∨ findWay s (homeRing s pa) (pa / 256) = none → exec (.sectorFill owner pa) s = commit s s)
  ∧ (∀ owner pa a i w, (accessesTo s owner pa).find? (fun a => !standsAt s a.1) = some a → isDram pa = true → railSlot s 2 = true →
      findWay s (homeRing s pa) (pa / 256) = some (i, w) → sectorPresent s pa = false →
      NMap.find (ringOf s (homeRing s pa)).ways i = some w →
      ∃ t, exec (.sectorFill owner pa) s = .next t ∧ Quiet s t
        ∧ NMap.find (ringOf t (homeRing s pa)).ways i = some { w with sectors := w.sectors ++ [(pa / 64 % 4, false, 0)] })
  ∧ (∀ pa o i w, findWay s (homeRing s pa) (pa / 256) = some (i, w) → (∃ x ∈ w.exact, x.2.2 = o) → railSlot s 2 = true →
      ∃ t, exec (.probe pa (some o)) s = .next t ∧ QuietBut s t
        ∧ (∀ x ∈ w.exact, x.2.2 = o → ∀ l ∈ (coreOf t x.2.1).l1, probeHits (pa / 256) (some o) l = false)
        ∧ ((∀ p ∈ s.cores, ∀ l ∈ p.2.l1, l.pa / 256 = pa / 256 → l.dirty = []) →
            ∀ v, NMap.find (ringOf t (homeRing s pa)).ways i = some v → ∀ x ∈ v.exact, x.2.2 ≠ o))
  ∧ (∀ pa o, railSlot s 2 = true → findWay s (homeRing s pa) (pa / 256) = none → ∃ t, exec (.probe pa o) s = .next t ∧ QuietBut s t
        ∧ ∀ p ∈ s.cores, ∀ l ∈ (coreOf t p.1).l1, probeHits (pa / 256) o l = false)
  ∧ (∀ pa o, railSlot s 2 = true → (∀ i w, findWay s (homeRing s pa) (pa / 256) = some (i, w) →
        (∀ x ∈ w.exact, o ≠ some x.2.2) ∧ ∀ x ∈ w.coarse, x.2.2 ≠ o) →
      ∃ t, exec (.probe pa o) s = .next t ∧ QuietBut s t
        ∧ ∀ p ∈ s.cores, ∀ l ∈ (coreOf t p.1).l1, l.pa / 256 = pa / 256 → (∀ v, o = some v → l.owner = v) → l.treat ≠ 1)
  ∧ (∀ core i, (coreOf s core).l1[i]? = none → exec (.leaseExpiry core i) s = commit s s)
  ∧ (∀ core i l, (coreOf s core).l1[i]? = some l → l1Live s l = true → exec (.leaseExpiry core i) s = commit s s)
  ∧ (∀ core i l, (coreOf s core).l1[i]? = some l → l1Live s l = false → ∃ t, exec (.leaseExpiry core i) s = .next t ∧ QuietBut s t
      ∧ ∀ y ∈ (coreOf t core).l1, ¬(y.owner = l.owner ∧ y.pa = l.pa ∧ y.treat = 1))
  ∧ (∀ owner ring set way w, NMap.find (ringOf s ring).ways (set * 16 + way) = some w → way < 16 → oldLine s owner w = true →
      newSet s owner ring w.line = set → railSlot s 2 = true →
      ∃ t, exec (.sweepMove owner ring set way) s = .next t ∧ Quiet s t
        ∧ NMap.find (ringOf t ring).ways (set * 16 + way) = some { w with ebit := (ownerOf s owner).ebit })
  ∧ (∀ owner, (ownerOf s owner).sweep = true → (∀ p ∈ s.rings, ∀ w ∈ p.2.ways, oldLine s owner w.2 = false) →
      ∃ t, exec (.sweepEnd owner) s = .next t ∧ Quiet s t ∧ ownerOf t owner = { ownerOf s owner with sweep := false, oldKey := 0 })
  ∧ (∀ owner p w, (ownerOf s owner).sweep = true → p ∈ s.rings → w ∈ p.2.ways → oldLine s owner w.2 = true →
      exec (.sweepEnd owner) s = commit s s)
  ∧ (∀ owner ring, let was := (NMap.find (ringOf s ring).fused owner).isSome
      (fusedDue s owner ring = false → exec (.fusedL1Transition owner ring) s = commit s s)
      ∧ (fusedDue s owner ring = true → ∃ t, exec (.fusedL1Transition owner ring) s = .next t ∧ QuietBut s t
        ∧ (NMap.find (ringOf t ring).fused owner).isSome = !was ∧ (was = true → owner ∉ (ringOf t ring).leaving)
        ∧ (was = false → owner ∉ (ringOf t ring).entering)
        ∧ ∀ c ∈ s.cores, ringOfCore s c.1 = ring → ∀ l ∈ (coreOf t c.1).l1, l.owner ≠ owner))
  ∧ (∀ loc, loc < 2 ^ 70 → isLocal loc = true → ∃ t, exec (.memoryEccError loc true) s = .next t ∧ poisoned t loc = true ∧ Quiet s t)
  ∧ (∀ loc, loc < 2 ^ 70 → isLocal loc = true →
      let c := (loc - 2 ^ 60) / 0x10000 / 8
      ∃ t, exec (.memoryEccError loc false) s = .next t ∧ Quiet s t ∧ t.poison = s.poison
        ∧ coreOf t c = { coreOf s c with eccCount := (coreOf s c).eccCount + 1 })
  ∧ (∀ loc, isDram loc = true ∨ isPool loc = true → ∃ t, exec (.memoryEccError loc true) s = .next t ∧ poisoned t loc = true ∧ Quiet s t)

/-! ### Engine commands (R93-R96, R283-R285, R301-R321) -/

/-- A vector instruction: its operation code (R312). -/
def Sys2Proof.vectorForm (d a b : Reg) (e : ElemTy) (op : Nat) (i : Instr) : Prop :=
  i = .vadd d a b e ∧ op = 0x00 ∨ i = .vsub d a b e ∧ op = 0x01 ∨ i = .vmul d a b e ∧ op = 0x02 ∨ i = .vfma d a b e ∧ op = 0x03
  ∨ i = .vmin d a b e ∧ op = 0x04 ∨ i = .vmax d a b e ∧ op = 0x05 ∨ i = .vabs d a b e ∧ op = 0x06 ∨ i = .vcvt d a b e ∧ op = 0x07
  ∨ i = .vscl d a b e ∧ op = 0x08 ∨ i = .vcmp d a b e ∧ op = 0x09 ∨ i = .vsel d a b e ∧ op = 0x0A ∨ i = .vred d a b e ∧ op = 0x0B
  ∨ i = .vfev d a b e ∧ op = 0x0C ∨ i = .vrng d a b e ∧ op = 0x0D ∨ i = .vsr d a b e ∧ op = 0x0E ∨ i = .vdrop d a b e ∧ op = 0x0F
  ∨ i = .vgath d a b e ∧ op = 0x10 ∨ i = .vscat d a b e ∧ op = 0x11 ∨ i = .vsparse d a b e ∧ op = 0x12
  ∨ i = .vsend d a b e ∧ op = 0x13 ∨ i = .vcopy d a b e ∧ op = 0x14 ∨ i = .vmexp d a b e ∧ op = 0x15
  ∨ i = .valign d a b e ∧ op = 0x16 ∨ i = .vnorm d a b e ∧ op = 0x17

/-- R303, R306, R307: every vector command at issue. A field it does not use, or SUB or PARAM out of range, is ILL with SUB
4; a record it names that is missing, of another FMT or shape, out of reach, or overlapping where it may not, is ENGINE; a
C8 result under a table that is not encodable is DTBL. Otherwise it takes the next number of the vector class, writes it
to d, takes the slots of its channel records (those of a scale record in a channel too, which the model lets run: log 77; none of
a scale that the command ignores, R308), and goes to the engine with RMODE, LSEED, WID and the tables of now, to start
after the entries that stand in the queue (R94); with 16 commands of the context not done it parks.

R94, R303, R308-R310, R364, R369, R370: the next beats of a core first ask for their walks and sectors, and a beat of the owner that
the issue draw of this clk assigns runs once its own are granted, at the state `u` in which what it reads has been recalled. The bytes
it writes stand at their places and no others change but dirty L1 data that the recalls write back, where it has no channel record;
the command goes on at the next element, or is over after the last. A beat that cannot reach an element stops the command, with one
more of ERRORS and, where the owner's fault queue has room, an entry of KIND 1 with the cause, the address and the command's PC. With
no beat ready, off the rail's slots, or where the next clk waits for a core's issue slot, no beat runs. -/
def Obligations.VectorCommands : Prop :=
  (∀ (s : State) (d a b : Reg) (e : ElemTy) (op : Nat) (i : Instr), vectorForm d a b e op i →
  let ty := (elemCode e).toNat
  let x := rd s a
  let k := curCtx s
  let c := ctxOf s k
  let sub := bits x 27 24
  let use := vUses op
  let fields := (use.1 = false → bits x 7 0 = 0) ∧ (use.2.1 = false → bits x 15 8 = 0) ∧ (use.2.2 = false → bits x 23 16 = 0)
    ∧ bits x 31 28 = 0 ∧ vFieldsOk op sub (bits x 63 32) = true
  let rec_ := fun (used : Bool) (id : Nat) => if used then tensorAt s k id else none
  let dst := rec_ use.1 (bits x 7 0)
  let s1 := rec_ use.2.1 (bits x 15 8)
  let s2 := rec_ use.2.2 (bits x 23 16)
  let scaleOf := fun (t : Option Tensor) => t.bind fun t => if tScaled t then tensorAt s k (tScaleId t) else none
  let moves := op = 0x0A ∨ op = 0x10 ∨ op = 0x11 ∨ op = 0x13 ∨ op = 0x14
  let scaleIn := fun (t : Option Tensor) => if moves then none else scaleOf t
  let records := (dst.isSome = use.1 ∧ s1.isSome = use.2.1 ∧ s2.isSome = use.2.2)
    ∧ (∀ t, dst = some t → vDstFmt op ty (tFmt t) = true ∧ vReach s t true = true)
    ∧ (∀ t, s1 = some t → vSrcFmt op ty (tFmt t) = true) ∧ (∀ t, s2 = some t → vSrc2Fmt op ty (tFmt t) = true)
    ∧ (∀ t, s1 = some t ∨ s2 = some t → vReach s t false = true ∧ (tScaled t = true → scaleOk t (scaleOf (some t)) = true))
    ∧ vDimsOk op ty sub dst s1 s2 = true ∧ (∀ t, dst = some t ∨ s1 = some t ∨ s2 = some t → tCount t < 2 ^ 32)
    ∧ (op = 0x12 ∨ op = 0x13 → (NMap.find (curFrame s).windows (sub % 4)).isSome = true)
    ∧ (op = 0x0B ∨ op = 0x10 ∨ op = 0x11 ∨ op = 0x15 → rangesMeet dst s1 = false ∧ rangesMeet dst s2 = false)
    ∧ (op = 0x16 → ty = 12 → ∃ t, dst = some t ∧ tScaled t = true ∧ tScaleFmt t = 8 ∧ tBlk t = vBlk sub ∧ scaleOk t (scaleOf dst) = true)
    ∧ (¬moves → ∀ u, scaleOf s1 = some u ∨ scaleOf s2 = some u → tKind u = 2 → vReach s u false = true)
    ∧ (op = 0x16 → ty = 12 → ∀ u, scaleOf dst = some u → tKind u = 2 → vReach s u true = true)
  let coded := ty = 12 → op = 0x07 ∨ op = 0x16 → firstBad c.dec = none
  let n := ((vShape op dst s1).map tCount).getD 0
  let tk := takeChannels op n (vLanes ty) [(0, dst), (1, s1), (2, s2), (3, if op = 0x16 ∧ ty = 12 then scaleOf dst else none),
    (4, scaleIn s1), (5, scaleIn s2)] s
  let kind : CmdKind := .vec op ty (if b = 0 then none else some (rd s b)) x [dst, s1, s2] ([dst, s1, s2].map scaleOf)
    (curFrame s).rmode c.lseed (curFrame s).wid (NMap.get c.coef (sub % 4) {}) c.dec 0 tk.2 []
  (¬fields → Traps i s 0x01 4 ((curFrame s).word.setWidth 64))
  ∧ (fields → ¬records → Traps i s 0x0D 0 0)
  ∧ (fields → records → ¬coded → Traps i s 0x0C 0 0)
  ∧ (fields → records → coded → 16 ≤ openCount s k 0 → Parks i s [.cmdRoom 0 16])
  ∧ (fields → records → coded → openCount s k 0 < 16 →
      Completes i s (issueCmd tk.1 0 kind).2 ready [d] noByte fun t => Gives d (word (c.vec.issued + 1)) t
        ∧ ∃ q : Cmd, t.cmds = s.cmds ++ [q] ∧ q.kind = kind ∧ q.cls = 0 ∧ q.num = c.vec.issued + 1 ∧ q.ctx = k
          ∧ q.frame = s.cur.2 ∧ q.known = c.known ∧ q.pc = curPc s ∧ q.finished = false ∧ q.writes = []
          ∧ q.after = (ctxOf s k).queue.map QEntry.id))
  ∧ (∀ (s0 : State) (core : Nat), Inv s0 →
  let s := (residents s0 core).foldl (fun s o => askBeat s core o) s0
  let taken := (pointOf s 0x0A (physCore s core)).lastSlot = s.clk + 1
  ((∀ o ∈ residents s0 core, readyBeat s core o = none) → exec (.vectorBeat core) s0 = commit s0 s)
  ∧ (¬taken → railSlot s 1 = false → exec (.vectorBeat core) s0 = commit s0 s)
  ∧ (taken → clkHeld s = true → exec (.vectorBeat core) s0 = commit s0 s)
  ∧ ∀ o c v r, ¬taken → railSlot s 1 = true → o ∈ residents s core → assignedNow s core = some o → readyBeat s core o = some (c, v, r) →
      let inst := physCore s core
      let s1 := setPoint s 0x0A inst { pointOf s 0x0A inst with lastSlot := s.clk + 1 }
      let u := match r with
        | .ok _ => engineHome s1 c.ctx (beatPlaces v s1)
        | _ => s1
      (∀ b, readyBeat u core o = some (c, v, .ok b) → v.taken = [] → (∀ x ∈ b.cells, x.1.loc.isSome = true) →
        refusedAt u c.ctx (b.cells.map Prod.fst) = none → lostTo u c (b.cells.map Prod.fst) = none →
        ∃ t q, exec (.vectorBeat core) s0 = .next t ∧ q ∈ t.cmds ∧ q.id = c.id ∧ (vcmdOf q).map VCmd.pos = some b.next
          ∧ (q.finished = true ↔ v.count ≤ b.next ∧ (v.op = 0x12 → b.acc = []))
          ∧ ∀ a, isWindow a = false → match NMap.find (placeCells b.cells) a with
            | some x => byteAt t a = x.1
            | none => ¬dirtyByte s0 a → byteAt t a = byteAt s0 a)
      ∧ (∀ cause va, readyBeat u core o = some (c, v, .fault cause va) →
        ∃ t, exec (.vectorBeat core) s0 = .next t ∧ (∀ q ∈ t.cmds, q.id = c.id → q.finished = true)
          ∧ (∀ i n, c.lin.launch = some (i, n) → (recOf t i n).errors = min ((recOf u i n).errors + 1) (2 ^ 32 - 1))
          ∧ (let d := (ownerOf u (ctxOwner c.ctx)).desc
             let lg := rdNat u (d + 8) 8 % 32
             let w := rdNat u (d + 16) 8
             let e := rdNat u d 8 + 32 * (w % 2 ^ lg)
             d ≠ 0 → 4 ≤ lg → lg ≤ 16 → w < rdNat u (d + 24) 8 + 2 ^ lg → e + 32 ≤ d ∨ d + 48 ≤ e →
               rdNat t (d + 16) 8 = (w + 1) % 2 ^ 64 ∧ rdNat t (e + 8) 8 = va.toNat ∧ rdNat t (e + 16) 8 = c.pc.toNat
               ∧ rdNat t e 8 % 2 ^ 50 = (cause + ctxOwner c.ctx * 2 ^ 16 + ctxCore c.ctx * 2 ^ 28 + c.frame * 2 ^ 41 + 2 ^ 48) % 2 ^ 50)))

/-! ### The carousel (R322-R335) -/

/-- A part of a group command: its operation (R326). -/
def Sys2Proof.partForm (d a : Reg) (op : Nat) (i : Instr) : Prop :=
  i = .mrel d a ∧ op = 1 ∨ i = .mlda d a ∧ op = 3 ∨ i = .mldb d a ∧ op = 4 ∨ i = .mstep d a ∧ op = 5 ∨ i = .mrot d a ∧ op = 6
  ∨ i = .mdrain d a ∧ op = 7 ∨ i = .mzero d a ∧ op = 8

/-- R328, R330, R332-R334: parts of group commands. A field that the operation does not use is ILL with SUB 4; outside a
lease, past its run, without the record the operation needs or, for `mstep`, before any `mlda`, the part is ENGINE. Else it
counts in the member's run, takes the next number of the class, which it writes to d, and goes to the array; with 16
commands of the class not done it parks. `mcfg` asks for the state of the ring and the activation's lease or request,
and its frame parks for the answer. Leases that have run out have ended first (R325). -/
def Obligations.CarouselParts : Prop := ∀ (s0 : State) (d a : Reg),
  let s := expireLeases s0
  let traps := fun (i : Instr) (cause sub : Nat) (addr : Word) => exec i s0 = commit s (trap s cause sub addr)
  let x := rd s a
  let k := curCtx s
  (∀ op i, partForm d a op i →
    let src := op = 3 ∨ op = 4
    let sub := bits x 27 24
    let fields := (op ≠ 7 → bits x 7 0 = 0) ∧ (¬src → bits x 15 8 = 0) ∧ bits x 23 16 = 0 ∧ bits x 31 28 = 0
      ∧ (if op = 5 ∨ op = 7 then sub ≤ 1 else sub = 0) ∧ (if op = 4 then bits x 63 32 < 2 ^ 10 else bits x 63 32 = 0)
    let t := if src then tensorAt s k (bits x 15 8) else if op = 7 then tensorAt s k (bits x 7 0) else none
    let scale := t.bind fun t => if tScaled t then tensorAt s k (tScaleId t) else none
    let record := src ∨ op = 7 → ∃ y, t = some y
      ∧ (if op = 3 then panelOk y else if op = 4 then tileOk y else outputOk y) = true
      ∧ (tKind y = 0 → tBase y + tSpan y < localSize s s.cur.1 (curOwner s)) ∧ (src → tScaled y = true → scaleOk y scale = true)
    (¬fields → traps i 0x01 4 ((curFrame s).word.setWidth 64))
    ∧ (fields → myLease s = none → traps i 0x0D 0 0)
    ∧ (∀ ring l m, fields → myLease s = some (ring, l) → l.members.find? (isMe s) = some m →
        let goes := m.issued < l.run ∧ record ∧ (op = 5 → hasPanel s l m = true)
        (¬goes → traps i 0x0D 0 0)
        ∧ (goes → 16 ≤ openCount s k 1 → ParksAfter i s0 s [.cmdRoom 1 16])
        ∧ (goes → openCount s k 1 < 16 →
            let kind : CmdKind := .car op m.issued x t scale (ctxOf s k).dec ring l.id
            let l' := { l with members := l.members.map fun y => if isMe s y then { y with issued := y.issued + 1 } else y }
            Completes i s0 (issueCmd (setRing s ring { ringOf s ring with lease := some l' }) 1 kind).2 ready [d] noByte fun t =>
              Gives d (word ((ctxOf s k).car.issued + 1)) t
              ∧ ∃ q : Cmd, t.cmds = s.cmds ++ [q] ∧ q.kind = kind ∧ q.cls = 1 ∧ q.num = (ctxOf s k).car.issued + 1 ∧ q.ctx = k)))
  ∧ (let size := fun (l : Lease) => if l.size = 4 then 0 else if l.size = 8 then 1 else 2
     let part := fun (l : Lease) => size l * 2 ^ 2 + (s.cur.1 - l.first) * 2 ^ 4 + l.first * 2 ^ 8
     let busy := match (ringOf s (ringOfCore s s.cur.1)).lease with
       | some l => 2 ^ 32 + (if l.owner = curOwner s then 2 ^ 33 else 0)
       | none => 0
     (∀ r l m, myLease s = some (r, l) → l.members.find? (isMe s) = some m →
       CompletesOwing (.mcfg d) s0 s d (word (busy + (1 + part l + (l.run - m.issued) * 2 ^ 21))) fun _ => True)
     ∧ (∀ r l, myLease s = none → myRequest s = some (r, l) →
       CompletesOwing (.mcfg d) s0 s d (word (busy + (2 + part l))) fun _ => True)
     ∧ (myLease s = none → myRequest s = none → CompletesOwing (.mcfg d) s0 s d (word (busy + 0)) fun _ => True))

/-- R322-R325, R331: `mlease` with an answer there takes it; with fields out of range it is ILL with SUB 4; a member of a
lease or a request gets status 3; otherwise the first of its group makes a request and parks. A free array with one
request, complete since an earlier clk, takes it as the lease on a slot of its rail and gives every member status 0 and its index; a
lease that
has started nothing for 65,536 clk has ended at whatever looks at it from then on, with every part of it.

R325-R329, R333-R335: a group command with every part issued and free to start asks for what its parts need in memory (R94), and once
they can read and their sectors are granted it starts on a slot of its rail. Parts of different operations break the lease. `mzero` clears every accumulator, `mrot` hands each latch to the next
member, `mlda` sets the panel; the parts are over and NEXT rises, to RUN with `mrel`. `mldb`, `mstep` and `mdrain` run their parts in
member order, and `mstep` with SUB 0 rotates the latches after them: `mldb` sets the latch from the tile, none where it cannot be
read; `mstep` adds the exact sum of each output to its accumulator with one rounding; `mdrain` writes its bytes, and with SUB 1 clears
the accumulators. The lease ends when the parts of the last command of its run, its own or
`mrel`'s, are done. -/
def Obligations.LeasesAndGroups : Prop :=
  (∀ (s0 : State) (d a : Reg),
  let s := expireLeases s0
  let x := rd s a
  let first := bits x 12 0
  let size := 4 * 2 ^ bits x 17 16
  let run := bits x 40 32
  let ring := ringOfCore s first
  let fits := bits x 15 13 = 0 ∧ bits x 31 18 = 0 ∧ bits x 63 41 = 0 ∧ bits x 17 16 ≠ 3 ∧ 1 ≤ run ∧ run ≤ 256 ∧ first + size ≤ 6144
    ∧ first ≤ s.cur.1 ∧ s.cur.1 < first + size
  let own := (ringOf s ring).pending.filter fun l => l.owner == curOwner s
  (∀ st ix, (curFrame s).lease = some (st, ix) →
    Completes (.mlease d a) s0 s (fun f => ready { f with lease := none }) [d] noByte (Gives d (word (st + ix * 2 ^ 8))))
  ∧ ((curFrame s).lease = none → ¬fits → exec (.mlease d a) s0 = commit s (trap s 0x01 4 ((curFrame s).word.setWidth 64)))
  ∧ ((curFrame s).lease = none → fits → (myLease s).isSome = true ∨ (myRequest s).isSome = true →
      Completes (.mlease d a) s0 s id [d] noByte (Gives d 3))
  ∧ ((curFrame s).lease = none → fits → myLease s = none → myRequest s = none →
      (∀ l ∈ own, ¬(l.first = first ∧ l.size = size)) → 16 ≤ own.length → Completes (.mlease d a) s0 s id [d] noByte (Gives d 5))
  ∧ ((curFrame s).lease = none → fits → myLease s = none → myRequest s = none →
      (∀ l ∈ own, ¬(l.first = first ∧ l.size = size)) → own.length < 16 → ∃ t l, exec (.mlease d a) s0 = .next t
        ∧ (ringOf t ring).pending = (ringOf s ring).pending ++ [l] ∧ l.owner = curOwner s ∧ l.first = first ∧ l.size = size ∧ l.run = run
        ∧ l.members.map (fun m => (m.core, m.frame, m.act)) = [(s.cur.1, s.cur.2, (curFrame s).act)]
        ∧ (curFrame t).st = .parked [.lease] ∧ curPc t = curPc s ∧ Quiet s0 t)
  ∧ (∀ r l, r < 384 → (ringOf s r).lease = none → (ringOf s r).pending = [l] → complete l = true → l.last < s.clk →
      railSlot s 0 = true → (pointOf s0 0x08 r).lastSlot ≠ s0.clk + 1 → (ringOf s r).freeFrom ≤ s.clk → ∃ t n, exec (.leaseArbitration r) s0 = .next t
        ∧ Quiet s0 t ∧ (ringOf t r).lease = some { l with last := s.clk, waits := n } ∧ (ringOf t r).pending = []
        ∧ ∀ m ∈ l.members, (frameOf s m.core m.frame).act = m.act →
            (frameOf t m.core m.frame).lease = some (0, m.core - l.first))
  ∧ (∀ r l, (pointOf s0 0x08 r).lastSlot ≠ s0.clk + 1 → (ringOf s r).lease = some l → exec (.leaseArbitration r) s0 = commit s0 s0)
  ∧ (∀ r l, (ringOf s0 r).lease = some l → l.last + 65536 ≤ s0.clk → ∃ t, exec (.leaseIdleTimeout r) s0 = .next t
      ∧ (ringOf t r).lease = none
      ∧ ∀ c ∈ t.cmds, ∀ op idx y z sc dec r', c.kind = .car op idx y z sc dec r' l.id → c.finished = true)
  ∧ (∀ r l, (ringOf s0 r).lease = some l → s0.clk < l.last + 65536 → exec (.leaseIdleTimeout r) s0 = commit s0 s0))
  ∧ (∀ (s0 : State) (ring : Nat) (l : Lease), Inv s0 →
  let s := expireLeases s0
  (ringOf s ring).lease = some l →
  (∀ ps, partsFor s l.id l.next l.members = some ps → (∀ x ∈ ps, cmdFree s x.2.cmd = true) →
    railSlot s 0 = false ∨ (∃ i x, ps[i]? = some x ∧ partReady (partFree s i) x.1 x.2 = false)
      ∨ (∃ x ∈ ps, x.2.cmd.asked = 0 ∨ standsAt s x.2.cmd.id = true) →
    exec (.groupCommandStart ring) s0 = commit s0 (ps.foldl (fun s x => askPart s x.1 x.2) s))
  ∧ (∀ ps, partsFor s l.id l.next l.members = some ps → railSlot s 0 = true →
    (∀ i x, ps[i]? = some x → cmdFree s x.2.cmd = true ∧ partReady (partFree s i) x.1 x.2 = true) →
    (∀ x ∈ ps, x.2.cmd.asked ≠ 0 ∧ standsAt s x.2.cmd.id = false) →
    let same := fun (op : Nat) => ps ≠ [] ∧ ∀ x ∈ ps, x.2.op = op
    let goes := fun (ms : List Member) (next : Nat) => ∃ t, exec (.groupCommandStart ring) s0 = .next t ∧ Quiet s0 t
      ∧ (ringOf t ring).lease = some { l with members := ms, next := next, last := s.clk, newest := l.next }
      ∧ ∀ c ∈ t.cmds, (∃ x ∈ ps, x.2.cmd.id = c.id) → c.finished = true
    (∀ x y, x ∈ ps → y ∈ ps → x.2.op ≠ y.2.op → ∃ t, exec (.groupCommandStart ring) s0 = .next t ∧ (ringOf t ring).lease = none)
    ∧ (same 8 → goes (ps.map fun x => { x.1 with acc := [], bad := [] }) (l.next + 1))
    ∧ (same 6 → goes (rotateLatches (ps.map Prod.fst) l.first l.size) (l.next + 1))
    ∧ (same 3 → goes (ps.map fun x => { x.1 with panel := x.2.t, pscale := x.2.scale, mr := (x.2.t.map fun t => tDim t 1).getD 0 })
        (l.next + 1))
    ∧ (same 1 → goes (ps.map Prod.fst) l.run)
    ∧ (∀ op sub, op = 4 ∧ sub = 0 ∨ op = 5 ∨ op = 7 ∧ sub = 0 → same op → (op = 5 → ∀ x ∈ ps, bits x.2.a 27 24 = sub) →
        let u := ps.foldl (fun s x => charge s (ctxOwner x.2.cmd.ctx) (if op = 5 then 500 else 8)) s
        let x := ps.foldl (fun (x : State × List Member) y =>
          let z := runPart { x.1 with free := s.free + 2 ^ 19 * x.2.length } y.1 y.2
          (z.1, x.2 ++ [z.2])) (u, [])
        let ms := if op = 5 ∧ sub = 0 then rotateLatches x.2 l.first l.size else x.2
        ∃ t, exec (.groupCommandStart ring) s0 = .next t ∧ (∀ a, byteAt t a = byteAt x.1 a)
          ∧ (ringOf t ring).lease = some { l with members := ms, next := l.next + 1, last := s.clk, newest := l.next }
          ∧ ∀ c ∈ t.cmds, (∃ x ∈ ps, x.2.cmd.id = c.id) → c.finished = true))
  ∧ (∀ (u : State) (m : Member) (p : Part),
      let v := engineHome u p.cmd.ctx (partReads u m p)
      let m' := (runPart u m p).2
      (∀ y, p.op = 4 → p.t = some y →
        (∀ c va, loadTile v p y = .fault c va → m' = { m with latch := none })
        ∧ (∀ w, loadTile v p y = .ok w → m' = { m with latch := some w } ∧ w.j = bits p.a 41 32 ∧ w.d0 = tDim y 0 ∧ w.d1 = tDim y 1
            ∧ ∀ e < tCount y, ∀ z, matElem v p y p.scale (e % tDim y 0) (e / tDim y 0) (64 * e) = .ok z → w.vals[e]? = some z.v))
      ∧ (∀ w y n, p.op = 5 → m.latch = some w → m.panel = some y → stepMember v m p = .ok n → m' = n ∧ n.latch = m.latch
          ∧ ∀ i < m.mr, ∀ row, rowOf v p y m.pscale w.j i = .ok row → ∀ k < 64,
              NMap.get n.acc (i * 64 + k) 0 = BitVec.ofNat 32 (cellStep (NMap.get m.acc (i * 64 + k) 0).toNat row w k).1)
      ∧ (∀ y, p.op = 7 → p.t = some y → u.wbuf = [] → (drainOf v m p y).2 = none →
          (∀ x ∈ (drainOf v m p y).1, x.1.loc.isSome = true) →
          m' = (if bits p.a 27 24 = 1 then { m with acc := [], bad := [] } else m)
          ∧ ∀ a, isWindow a = false → match NMap.find (placeCells (drainOf v m p y).1) a with
            | some x => byteAt (runPart u m p).1 a = x.1
            | none => ¬dirtyByte u a → byteAt (runPart u m p).1 a = byteAt u a))
  ∧ ∀ k cls num c op idx x t sc dec, (s0.cmds.find? fun y => y.ctx == k && y.cls == cls && y.num == num) = some c →
      c.kind = .car op idx x t sc dec ring l.id → c.finished = true → writesOver s0 c = true →
      (ringOf s0 ring).lease = some l → l.run ≤ l.next →
      (∀ y ∈ s0.cmds, y.id ≠ c.id → ∀ op idx x t sc dec r, y.kind = .car op idx x t sc dec r l.id → idx = l.newest → y.finished = false) →
      ∃ t, exec (.engineCommandDone k cls num) s0 = .next t ∧ (ringOf t ring).lease = none ∧ Quiet s0 t ∧ ∀ y ∈ t.cmds, y.id ≠ c.id)

/-! ### The streamer and the maypole (R283-R302) -/

/-- A streamer command issues (R76, R284, R292): it takes the next number of its class, its request enters the issuer's
queue, d, unless it is g0, is owed the status word, and `upd` is what issue does beside. With `parks` the frame parks for the
answer of its match table (R296), without it the frame goes on. -/
def Sys2Proof.streamIssues (i : Instr) (s0 s : State) (d : Reg) (kind : Option Nat → CmdKind) (rel parks : Bool) (upd : State → State)
    (P : State → Prop) : Prop :=
  let k := curCtx s
  let num := (ctxOf s k).str.issued + 1
  (segmentRoom s k (curBank s) < 1 → Parks i s0 [.segment (curBank s)])
  ∧ let u := upd (issueStreamer s d kind rel).2
    (1 ≤ segmentRoom s k (curBank s) → (fun R : State → Prop => if parks
        then CompletesWaiting i s0 { u with nextId := u.nextId + 1 } [.answer u.nextId] noByte R
        else Completes i s0 u ready [] noByte R) fun t => P t
      ∧ (d ≠ 0 → (curFrame t).owed = (owing (inHandler s) d s.nextId none (curFrame s)).owed)
      ∧ ∃ (q : Cmd) (e : QEntry), t.cmds = s.cmds ++ [q] ∧ q.kind = kind (if d = 0 then none else some s.nextId) ∧ q.cls = 2
        ∧ q.num = num ∧ q.ctx = k ∧ q.known = (ctxOf s k).known ∧ q.finished = false
        ∧ (ctxOf t k).queue = (ctxOf s k).queue ++ [e] ∧ e.body = .request q.id ∧ e.rel = rel
        ∧ (rel = true → e.after = (releaseAfter s).1 ∧ e.reads = (releaseAfter s).2))

/-- R284, R289-R292, R295: copies. `cpy` reads its descriptor from own memory as the frame sees it, `cpyt` names two
records of one FMT and shape; the copy takes the next number of its class, opens its record and its request enters the
queue, or it parks at 64 commands or for room in the segment. A misaligned operand is ALIGN, one outside the windows PROT,
a poisoned descriptor POISON, which ends the activation (log 17, the model's reading), a bad descriptor or record ENGINE. `cpst` asks for the record, `cabort` marks a copy that is
under way; both park for the answer. -/
def Obligations.Copies : Prop := ∀ (s : State) (d a b : Reg),
  let va := rd s a
  let vb := rd s b
  let k := curCtx s
  let opens := fun (len : Nat) (t : State) => { t with copies := t.copies ++
    [{ ctx := k, num := (ctxOf s k).str.issued + 1, prog := 0, chunks := (len + 65535) / 65536, bad := none, faddr := 0, fcause := 0,
       done := false }] }
  let issues := fun (i : Instr) (src dst : Word) (len : Nat) (recs : Option (Tensor × Tensor)) (bar : Option (Nat × Nat)) =>
    (64 ≤ openCount s k 2 → Parks i s [.cmdRoom 2 64])
    ∧ (openCount s k 2 < 64 → streamIssues i s s d (fun ans => .copy src dst len recs bar ans 0 0 none 0 0 false) true false (opens len)
        fun _ => True)
  let lost := vb ≠ 0 ∧ vb.toNat % 8 = 0 ∧ localTarget s vb = none
  let barrier := fun (bar : Option (Nat × Nat)) => (vb = 0 ∧ bar = none) ∨ (vb ≠ 0 ∧ vb.toNat % 8 = 0 ∧ bar.isSome = true ∧ localTarget s vb = bar)
  (va.toNat % 32 ≠ 0 → Traps (.cpy d a b) s 0x03 0 va)
  ∧ (va.toNat % 32 = 0 → vb.toNat % 8 ≠ 0 → Traps (.cpy d a b) s 0x03 0 vb)
  ∧ (va.toNat % 32 = 0 → vb.toNat % 8 = 0 → ownTarget s va = none → Traps (.cpy d a b) s 0x06 0 va)
  ∧ (∀ off, va.toNat % 32 = 0 → vb.toNat % 8 = 0 → ownTarget s va = some off →
      (localSize s s.cur.1 (curOwner s) < off + 32 → Traps (.cpy d a b) s 0x06 0 va)
      ∧ (off + 32 ≤ localSize s s.cur.1 (curOwner s) → lost → Traps (.cpy d a b) s 0x06 0 vb)
      ∧ (off + 32 ≤ localSize s s.cur.1 (curOwner s) → ¬lost → ownPoisoned s off 32 = true → Traps (.cpy d a b) s 0x08 0 va))
  ∧ (∀ off bar, va.toNat % 32 = 0 → ownTarget s va = some off → off + 32 ≤ localSize s s.cur.1 (curOwner s) → barrier bar →
      ownPoisoned s off 32 = false →
      let ws := wordsOf (ownView s off 32) 4
      let len := (ws.getD 2 0).toNat
      (2 ^ 40 < len ∨ ws.getD 3 0 ≠ 0 → Traps (.cpy d a b) s 0x0D 0 0)
      ∧ (len ≤ 2 ^ 40 → ws.getD 3 0 = 0 → issues (.cpy d a b) (ws.getD 0 0) (ws.getD 1 0) len none bar))
  ∧ (2 ^ 16 ≤ va.toNat → Traps (.cpyt d a b) s 0x01 4 ((curFrame s).word.setWidth 64))
  ∧ (va.toNat < 2 ^ 16 → vb.toNat % 8 ≠ 0 → Traps (.cpyt d a b) s 0x03 0 vb)
  ∧ (va.toNat < 2 ^ 16 → lost → Traps (.cpyt d a b) s 0x06 0 vb)
  ∧ (va.toNat < 2 ^ 16 → vb.toNat % 8 = 0 → ¬lost → tensorAt s k (va.toNat % 256) = none ∨ tensorAt s k (va.toNat / 256) = none →
      Traps (.cpyt d a b) s 0x0D 0 0)
  ∧ (∀ bar t v, va.toNat < 2 ^ 16 → barrier bar → tensorAt s k (va.toNat % 256) = some t → tensorAt s k (va.toNat / 256) = some v →
      let fits := tKind t ≠ 2 ∧ tKind v ≠ 2 ∧ tFmt t = tFmt v ∧ tDims t = tDims v
      (¬fits → Traps (.cpyt d a b) s 0x0D 0 0)
      ∧ (fits → issues (.cpyt d a b) 0 0 (tCount v * elemBytes (tFmt v)) (some (v, t)) bar))
  ∧ (4 ≤ vb.toNat → Traps (.cpst d a b) s 0x01 4 ((curFrame s).word.setWidth 64))
  ∧ (vb.toNat < 4 → copyRecOf s va.toNat = none → CompletesOwing (.cpst d a b) s s d allOnes fun _ => True)
  ∧ (∀ r, vb.toNat < 4 → copyRecOf s va.toNat = some r → CompletesOwing (.cpst d a b) s s d
      (match vb.toNat with
       | 0 => word (r.prog + r.chunks * 2 ^ 32)
       | 1 => (match r.bad with | some o => word (o + 2 ^ 63) | none => 0)
       | 2 => r.faddr
       | _ => word r.fcause) fun _ => True)
  ∧ (copyRecOf s va.toNat = none → CompletesOwing (.cabort d a) s s d 2 fun _ => True)
  ∧ (∀ r, copyRecOf s va.toNat = some r → r.done = true → CompletesOwing (.cabort d a) s s d 1 fun _ => True)
  ∧ (∀ r, copyRecOf s va.toNat = some r → r.done = false → ∃ cs : List Cmd,
      CompletesOwing (.cabort d a) s { s with cmds := cs } d 0 (fun _ => True) ∧ cs.map Cmd.id = s.cmds.map Cmd.id
      ∧ (∀ c ∈ cs, c ∈ s.cmds ∨ (c.ctx = k ∧ c.cls = 2 ∧ c.num = va.toNat))
      ∧ ∀ c ∈ cs, c.ctx = k → c.cls = 2 → c.num = va.toNat →
        ∀ src dst len recs bar ans ch st bad fa fc ab, c.kind = .copy src dst len recs bar ans ch st bad fa fc ab → ab = true)

/-- R296-R300: the maypole's instructions. `join` and `leave` send to the source and give their statuses, `bfree` frees
tiles that have arrived, `mcast` takes the next number of its group for the subscribers of now, and `mbox` answers with
MAILBOX or ARRIVED once it has passed the value, and parks before. Each parks for its answer. That an operand of `join` with
a misaligned barrier offset is ILL with SUB 4 is the model's reading of R297 (log 16), and that `join` and `leave` go through the
store queue, and so park on a full segment, is its reading of R91 and R299 (log 8). -/
def Obligations.Maypole : Prop := ∀ (s : State) (d a b : Reg),
  let x := rd s a
  let y := rd s b
  let v := y.toNat
  let k := curCtx s
  let room := 1 ≤ segmentRoom s k (curBank s)
  let ill := fun (i : Instr) => Traps i s 0x01 4 ((curFrame s).word.setWidth 64)
  let gives := fun (i : Instr) (w : Word) => CompletesOwing i s s d w fun _ => True
  (groupWord x = none → ill (.join d a b) ∧ ill (.leave d a) ∧ ill (.bfree d a b) ∧ ill (.mbox d a b))
  ∧ (∀ src tag, groupWord x = some (src, tag) →
      let slots := bits y 15 8
      let off := bits y 34 16
      let form := bits y 63 36 = 0 ∧ slots ≠ 0 ∧ (bit y 35 = true → off % 8 = 0)
      let lands := ∃ t, tensorAt s k (bits y 7 0) = some t ∧ tKind t = 0 ∧ tPacked t = true
        ∧ tBase t + slots * landLen t ≤ localSize s s.cur.1 (curOwner s)
      let fresh := (matchBank s k).isSome = true ∧ receiverOf s k src tag = none
      (¬form → ill (.join d a b))
      ∧ (form → matchBank s k = none → gives (.join d a b) 1)
      ∧ (form → (matchBank s k).isSome = true → (receiverOf s k src tag).isSome = true → gives (.join d a b) 2)
      ∧ (form → fresh → ¬lands → gives (.join d a b) 3)
      ∧ (form → fresh → lands → room → CompletesWaiting (.join d a b) s
          (post (owe { s with nextId := s.nextId + 1 } d s.nextId none) src (curOwner s)
            (.join tag (bits y 7 0) slots (if bit y 35 then some off else none) s.nextId)) [.answer s.nextId] noByte fun _ => True)
      ∧ (form → fresh → lands → ¬room → Parks (.join d a b) s [.segment (curBank s)])
      ∧ (∀ rb c t id_ l n bar ar fr dr, receiverOf s k src tag = some (.receiver rb c t id_ l n bar ar fr dr) →
          (room → CompletesOwing (.leave d a) s (dropMatch (post s src (curOwner s) (.leave tag id_)) k (isReceiver src tag)) d 0
            fun t => receiverOf t k src tag = none)
          ∧ (¬room → Parks (.leave d a) s [.segment (curBank s)])
          ∧ (v = 0 ∨ 255 < v → ill (.bfree d a b))
          ∧ (0 < v → v ≤ 255 → diff32 ar fr < v → gives (.bfree d a b) allOnes)
          ∧ (0 < v → v ≤ 255 → v ≤ diff32 ar fr → room → CompletesOwing (.bfree d a b) s
              (setMatch (post s src (curOwner s) (.free tag id_ v none)) k (isReceiver src tag)
                (.receiver rb c t id_ l n bar ar ((fr + v) % 2 ^ 32) dr)) d
              (word (diff32 ar ((fr + v) % 2 ^ 32))) fun _ => True)
          ∧ (v < 2 ^ 32 → src ≠ s.cur.1 → diff32 ar v < 2 ^ 31 →
              CompletesOwing (.mbox d a b) s s d (word (ar + dr * 2 ^ 32)) fun _ => True)
          ∧ (v < 2 ^ 32 → src ≠ s.cur.1 → 2 ^ 31 ≤ diff32 ar v → Parks (.mbox d a b) s [.mailbox src tag v]))
      ∧ (receiverOf s k src tag = none → (src ≠ s.cur.1 ∨ sourceOf s k tag = none) → gives (.leave d a) 1)
      ∧ ((if src = s.cur.1 then sourceOf s k tag else receiverOf s k src tag) = none → v < 2 ^ 32 → gives (.mbox d a b) allOnes)
      ∧ (receiverOf s k src tag = none → 0 < v → v ≤ 255 → gives (.bfree d a b) allOnes)
      ∧ (2 ^ 32 ≤ v → ill (.mbox d a b))
      ∧ (∀ sb t sent mail subs op box, src = s.cur.1 → sourceOf s k tag = some (.source sb t sent mail subs op box) →
          (receiverOf s k src tag = none → subs = [] → mail = sent →
            CompletesOwing (.leave d a) s (dropMatch s k (isSource tag)) d 0 fun _ => True)
          ∧ (receiverOf s k src tag = none → subs ≠ [] ∨ mail ≠ sent → gives (.leave d a) 2)
          ∧ (v < 2 ^ 32 → diff32 mail v < 2 ^ 31 → CompletesOwing (.mbox d a b) s (learn s k box) d (word mail) fun _ => True)
          ∧ (v < 2 ^ 32 → 2 ^ 31 ≤ diff32 mail v → Parks (.mbox d a b) s [.mailbox src tag v])))
  ∧ (let tag := bits x 47 32
     let form := bits x 7 0 = 0 ∧ bits x 31 16 = 0 ∧ bits x 63 48 = 0
     (¬form → ill (.mcast d a))
     ∧ (form → (∀ t, tensorAt s k (bits x 15 8) = some t → tKind t = 2) → Traps (.mcast d a) s 0x0D 0 0)
     ∧ (∀ t, form → tensorAt s k (bits x 15 8) = some t → tKind t ≠ 2 → 64 ≤ openCount s k 2 → Parks (.mcast d a) s [.cmdRoom 2 64])
     ∧ (∀ t, form → tensorAt s k (bits x 15 8) = some t → tKind t ≠ 2 → openCount s k 2 < 64 →
          let sends := fun (s1 : State) (sb sent mail : Nat) (subs : List (Nat × Nat)) (op : List (Nat × List Nat × List Nat))
              (box : List Nat) =>
            let e : MatchEntry := .source sb tag ((sent + 1) % 2 ^ 32) mail subs (op ++ [(sent, unread :: subs.map Prod.fst, [])]) box
            streamIssues (.mcast d a) s (setMatch s1 k (isSource tag) e) d (fun ans => .mcast t tag sent ans false subs 0) false true id
              fun u => sourceOf u k tag = some e
          (∀ sb g sent mail subs op box, sourceOf s k tag = some (.source sb g sent mail subs op box) → sends s sb sent mail subs op box)
          ∧ (∀ sb, sourceOf s k tag = none → matchBank s k = some sb →
              sends (addMatch s k (.source sb tag 0 0 [] [] [])) sb 0 0 [] [] [])
          ∧ (sourceOf s k tag = none → matchBank s k = none → room → Traps (.mcast d a) s 0x0D 0 0)))

/-- R95, R283, R292, R294, R298-R300: the steps of the streamer. A released request takes one of its owner's 32 entries at
its streamer, or waits in the queue. A chunk whose turn it is, on a slot of its rail, that reaches every byte with no refusal,
first asks for its beats' slots, and once they are granted and its lines held moves its bytes and nothing else, but for dirty
L1 data that its lookups write back, and counts in the copy (the two steps are the model's, log 49). A copy whose first source
byte is lost writes no byte and stops with status 3 (R408). A copy whose
chunks are over writes its status word and is finished, and a finished command whose writes are over counts in the counter
of its class. A join makes the subscriber and the receiver, and a leave changes what the source waits for. A free sets out as
one message for each of its tiles; a router holds those of a tile until all subscribers below it have freed it, and passes them on
as one; the source's entry takes it. A tile lands in its slot, is dropped where its subscriber has gone, or waits in the ring's inbound queue. -/
def Obligations.StreamerSteps : Prop := ∀ (s : State), Inv s →
  (∀ n c e, s.cmds[n]? = some c → streamerHolding s c = none → (ctxOf s c.ctx).queue.find? (fun e => e.body == .request c.id) = some e →
    let ring := streamerFor s c
    let mine := (pointOf s 0x07 ring).busy.filter fun q => q.owner == ctxOwner c.ctx
    let goes := releasable s c.ctx e.after e.reads [] [] = true ∧ mine.length < 32
    (goes → ∃ t, exec (.copyChunk n) s = .next t ∧ Quiet s t
      ∧ (pointOf t 0x07 ring).busy = (pointOf s 0x07 ring).busy ++ [slotOf c]
      ∧ ∀ x ∈ (ctxOf t c.ctx).queue, x.body = .request c.id → x.id ≠ e.id)
    ∧ (¬goes → exec (.copyChunk n) s = .next s))
  ∧ (∀ n c src dst len recs bar ans ch bad fa fc ls ring, s.cmds[n]? = some c → streamerHolding s c = some ring →
    railSlot s 3 = true → nextChunk s ring (ctxOwner c.ctx) = some c.id →
    c.kind = .copy src dst len recs bar ans ch 0 bad fa fc false → 65536 * ch < len → allOk (nextPlaces s ring c) = .ok ls →
    let ds := ls.map Prod.snd
    refusedAt s c.ctx ds = none → lostTo s c ds = none →
    (c.asked ≤ ch → ∃ t q, exec (.copyChunk n) s = .next t ∧ QuietBut s t
      ∧ q ∈ t.cmds ∧ q.id = c.id ∧ q.kind = c.kind ∧ q.asked = c.asked + 1)
    ∧ (ch < c.asked → standsAt s c.id = true → exec (.copyChunk n) s = .next s)
    ∧ (ch < c.asked → standsAt s c.id = false → linesHeld s ds = true → mayWrite s (cmdBrings c) ds = true →
      (∀ p ∈ ls, p.2.loc.isSome = true) →
      let u := engineHome { s with free := s.free + min 65536 (len - 65536 * ch) } c.ctx (ls.map Prod.fst)
      ∃ t q, exec (.copyChunk n) s = .next t ∧ q ∈ t.cmds ∧ q.id = c.id ∧ q.finished = c.finished
        ∧ (∃ bad', q.kind = .copy src dst len recs bar ans (ch + 1) 0 bad' fa fc false)
        ∧ ∀ a, isWindow a = false → match NMap.find (placeCells (chunkCells { u with free := s.free } ls)) a with
          | some x => byteAt t a = x.1
          | none => ¬dirtyByte s a → byteAt t a = byteAt s a))
  ∧ (∀ n c src dst len recs bar ans bad fa fc ring va, s.cmds[n]? = some c → streamerHolding s c = some ring →
    railSlot s 3 = true → nextChunk s ring (ctxOwner c.ctx) = some c.id →
    c.kind = .copy src dst len recs bar ans 0 0 bad fa fc false → 0 < len → sourceLost s ring c = true →
    allOk (nextPlaces s ring c) = .fault 0x09 va →
    ∃ t q, exec (.copyChunk n) s = .next t ∧ QuietBut s t
      ∧ q ∈ t.cmds ∧ q.id = c.id ∧ q.kind = .copy src dst len recs bar ans 0 3 bad va 0x09 false)
  ∧ (∀ n c src dst len recs id_ ch fa fc, s.cmds[n]? = some c → (streamerHolding s c).isSome = true →
    c.kind = .copy src dst len recs none (some id_) ch 0 none fa fc false → c.finished = false →
    writesOver s c = true → len ≤ 65536 * ch →
    ∃ t, exec (.copyDone n) s = .next t ∧ (∀ q ∈ t.cmds, q.id = c.id → q.finished = true) ∧ t.net = s.net ∧ Quiet s t
      ∧ (let f := frameOf s (ctxCore c.ctx) c.frame
         f.act = c.act → f.st ≠ .free → (frameOf t (ctxCore c.ctx) c.frame).owed =
           f.owed.map fun o => if o.id = id_ then { o with val := some (word (len + 0 * 2 ^ 56)), learn := some (cmdBrings c) } else o))
  ∧ (∀ k cls num c, s.cmds.find? (fun c => c.ctx == k && c.cls == cls && c.num == num) = some c → c.finished = true →
    writesOver s c = true → (engOf (ctxOf s k) cls).done = [] →
    let e := engOf (ctxOf s k) cls
    ∃ t, exec (.engineCommandDone k cls num) s = .next t ∧ Quiet s t
      ∧ t.cmds.map Cmd.id = (s.cmds.filter (fun q => q.id != c.id)).map Cmd.id
      ∧ (engOf (ctxOf t k) cls).learn = e.learn ++ [(num, cmdBrings c)]
      ∧ (num = e.counter + 1 → (engOf (ctxOf t k) cls).counter = num ∧ (engOf (ctxOf t k) cls).done = [])
      ∧ (num ≠ e.counter + 1 → (engOf (ctxOf t k) cls).counter = e.counter ∧ (engOf (ctxOf t k) cls).done = [num]))
  ∧ (∀ n m, delivers s n m →
    let k := ctxKey m.core m.owner
    (∀ tag land slots bar id_ rb sb g sent mail subs op box, m.body = .join tag land slots bar id_ → matchBank s m.ctx = some rb →
      receiverOf s m.ctx m.core tag = none → sourceOf s k tag = some (.source sb g sent mail subs op box) →
      ∃ t, exec (.joinArrival n) s = .next t ∧ Quiet s t ∧ t.net = dropAt s.net n ∧ Answered s t (ctxCore m.ctx) m.frame m.act id_ 0
        ∧ sourceOf t k tag = some (.source sb g sent mail (subs ++ [(ctxCore m.ctx, id_)]) op box)
        ∧ receiverOf t m.ctx m.core tag = some (.receiver rb m.core tag id_ land slots bar 0 0 0))
    ∧ (∀ tag id_ sb g sent mail subs op box, m.body = .leave tag id_ → sourceOf s k tag = some (.source sb g sent mail subs op box) →
        (ctxCore m.ctx, id_) ∈ subs → ∃ t, exec (.leaveArrival n) s = .next t ∧ Quiet s t ∧ t.net = dropAt s.net n
          ∧ sourceOf t k tag = some (mailStep (.source sb g sent mail (subs.filter fun x => x != (ctxCore m.ctx, id_))
              (op.map fun x => if x.2.1.contains (ctxCore m.ctx) then
                (x.1, x.2.1.filter (fun c => c != ctxCore m.ctx), unionNat x.2.2 (heldTags s m tag id_ x.1)) else x) box)))
    ∧ (∀ tag tile froms ring sb g sent mail subs op box, m.body = .freed tag tile froms ring → Config.rings ≤ ring →
        sourceOf s k tag = some (.source sb g sent mail subs op box) →
        ∃ t, exec (.freeArrival n) s = .next t ∧ Quiet s t ∧ t.net = dropAt s.net n
          ∧ sourceOf t k tag = some (mailStep (.source sb g sent mail subs
              ((froms.filter subs.contains).foldl (fun o u => freeTile u.1 m.tag tile o) op) box))))
  ∧ (∀ n m tag id_ cnt tile, s.net[n]? = some m → m.body = .free tag id_ cnt tile →
      (inOrder s m = false → exec (.freeArrival n) s = .next s)
      ∧ (inOrder s m = true → ∃ t, exec (.freeArrival n) s = .next t ∧ Quiet s t
        ∧ t.net.map Msg.body = (dropAt s.net n).map Msg.body ++ ((freeOf s m tag id_ cnt tile).map fun q => .freed tag q [(ctxCore m.ctx, id_)]
            (if ringOfCore s (ctxCore m.ctx) = ringOfCore s m.core then Config.rings else ringOfCore s (ctxCore m.ctx)))
        ∧ ∀ x ∈ t.net, x ∈ dropAt s.net n ∨ x.core = m.core ∧ x.owner = m.owner ∧ x.tag = m.tag))
  ∧ (∀ n m tag tile froms ring, s.net[n]? = some m → m.body = .freed tag tile froms ring → ring < Config.rings → standsAt s m.id = false →
      let others := s.net.filter (sameFree s m)
      let all := others.foldl (fun a x => a ++ (fromsOf x).filter fun u => !a.contains u) froms
      let below := fun (r : Nat) => !(stillBelow s m.owner m.core tag tile r all).isEmpty
      (below ring = true → exec (.freeArrival n) s = .next s)
      ∧ (below ring = false → ∃ t x, exec (.freeArrival n) s = .next t ∧ Quiet s t ∧ x ∈ t.net ∧ x.id = m.id ∧ x.core = m.core
        ∧ x.body = .freed tag tile all (freeHops below (upWay s ring m.core)).2
        ∧ (∀ w, w ∈ x.tag ↔ w ∈ m.tag ∨ ∃ o ∈ others, w ∈ o.tag) ∧ ∀ o ∈ others, o.id ∉ t.net.map Msg.id))
  ∧ (∀ n m src tag sub kk ws data bad cmd, s.net[n]? = some m → standsAt s m.id = false → railSlot s 2 = true → inOrder s m = true → m.body = .tile src tag sub kk ws data bad cmd →
    let k := ctxKey m.core m.owner
    let r := ringOfCore s m.core
    (tileWaits s m = true → inboundRoom s r = true → ∃ t, exec (.tileArrival n) s = .next t ∧ Quiet s t ∧ t.net = dropAt s.net n
      ∧ (ringOf t r).inbound = (ringOf s r).inbound ++ [(m.owner, .msg m)])
    ∧ (tileWaits s m = false → receiverOf s k src tag = none →
        ∃ t, exec (.tileArrival n) s = .next t ∧ Quiet s t ∧ t.net = dropAt s.net n ∧ t.ctxs = s.ctxs
          ∧ ∀ q ∈ t.cmds, q.id = cmd → ∀ y tg k' ans st left z, q.kind = .mcast y tg k' ans st left z → m.core ∉ left.map Prod.fst)
    ∧ (∀ rb c g land slots ar fr dr y, tileWaits s m = false →
        receiverOf s k src tag = some (.receiver rb c g sub land slots none ar fr dr) → (∃ q ∈ s.cmds, q.id = cmd) →
        tensorAt s k land = some y → tFmt y = tFmt { words := ws } → tDims y = tDims { words := ws } →
        let base := tBase y + ar % slots * landLen y
        base + data.length ≤ localSize s m.core m.owner → (banksOf s m.core m.owner).Nodup →
        ∃ t, exec (.tileArrival n) s = .next t ∧ t.net = dropAt s.net n
          ∧ receiverOf t k src tag = some (.receiver rb c g sub land slots none ((ar + 1) % 2 ^ 32) fr dr)
          ∧ ∀ i < data.length, ∀ l, localLoc s m.core m.owner (base + i) = some l → byteAt t l = data.getD i 0))

/-! ### Tensor records, timelines and number tables (R100-R102, R111-R113, R124, R125, R286-R288, R301) -/

/-- R286-R288: tensor records. An id out of range is ILL, an image that is misaligned ALIGN, one outside the own window
PROT. `tdef` takes a sound image into the table, and d gets the code; `tget` stores the record's words, or zeros, and d
says whether it is live; `tdrop` removes it. R301: `tlw` completes once the counter has reached the value, with what those
commands bring, and traps for a number not issued; `tlr` reads the counter or the frame's last number. -/
def Obligations.TensorRecords : Prop := ∀ (s : State) (d a b : Reg),
  let x := (rd s a).toNat
  let va := rd s b
  let v := va.toNat
  let k := curCtx s
  let ill := fun (i : Instr) => Traps i s 0x01 4 ((curFrame s).word.setWidth 64)
  (2 ^ 8 ≤ x → ill (.tdef d a b) ∧ ill (.tget d a b) ∧ ill (.tdrop d a))
  ∧ (x < 2 ^ 8 → v % 64 ≠ 0 → Traps (.tdef d a b) s 0x03 0 va ∧ Traps (.tget d a b) s 0x03 0 va)
  ∧ (x < 2 ^ 8 → v % 64 = 0 → ownTarget s va = none → Traps (.tdef d a b) s 0x06 0 va ∧ Traps (.tget d a b) s 0x06 0 va)
  ∧ (∀ off, x < 2 ^ 8 → v % 64 = 0 → ownTarget s va = some off → off + 64 ≤ localSize s s.cur.1 (curOwner s) →
      let t : Tensor := { words := wordsOf (ownView s off 64) 8 }
      let rs := strongReads s (locsFrom (accessBase s (.loc s.cur.1 off)) 64)
      let ws := match tensorAt s k x with
        | some t => (upto 8).map (tWord t)
        | none => List.replicate 8 0
      (ownPoisoned s off 64 = true → exec (.tdef d a b) s = commit s (trap s 0x08 0 va true))
      ∧ (ownPoisoned s off 64 = false → tdefCode t = 0 → Completes (.tdef d a b) s
          (setCtx s k { ctxOf s k with tensors := NMap.put (ctxOf s k).tensors x t }) id [d] noByte fun u => Gives d 0 u ∧ tensorAt u k x = some t)
      ∧ (ownPoisoned s off 64 = false → tdefCode t ≠ 0 → Completes (.tdef d a b) s s id [d] noByte (Gives d (word (tdefCode t))))
      ∧ (rs ≠ [] → Parks (.tget d a b) s [.settled [] rs])
      ∧ (rs = [] → segmentRoom s k (curBank s) < 8 → Parks (.tget d a b) s [.segment (curBank s)])
      ∧ (rs = [] → 8 ≤ segmentRoom s k (curBank s) → Completes (.tget d a b) s (storeWords off ws s) ready [d] noByte
          (Gives d (if (tensorAt s k x).isSome then 1 else 0))))
  ∧ (x < 2 ^ 8 → Completes (.tdrop d a) s (setCtx s k { ctxOf s k with tensors := NMap.del (ctxOf s k).tensors x }) id [d] noByte
      fun u => Gives d (if (tensorAt s k x).isSome then 1 else 0) u ∧ tensorAt u k x = none)
  ∧ (let e := engOf (ctxOf s k) x
     (3 ≤ x → ill (.tlw d a b))
     ∧ (x < 3 → (curFrame s).granted = false → e.issued < v → Traps (.tlw d a b) s 0x0D 0 0)
     ∧ (x < 3 → v ≤ e.issued ∨ (curFrame s).granted = true → e.counter < v → Parks (.tlw d a b) s [.timeline x v])
     ∧ (x < 3 → v ≤ e.issued ∨ (curFrame s).granted = true → v ≤ e.counter → Completes (.tlw d a b) s
         (learn s k ((e.learn.filter fun p => decide (p.1 ≤ v)).foldl (fun l p => unionNat l p.2) [])) ready [d] noByte
         (Gives d (word e.counter))))
  ∧ (8 ≤ x ∨ x % 4 = 3 → ill (.tlr d a))
  ∧ (x < 4 → x ≠ 3 → Completes (.tlr d a) s s id [d] noByte (Gives d (word (engOf (ctxOf s k) x).counter)))
  ∧ (4 ≤ x → x < 7 → Completes (.tlr d a) s s id [d] noByte (Gives d (word (NMap.get (curFrame s).lastn (x - 4) 0))))

/-- R100-R102, R112, R113, R124, R125: the number tables. `dtld` and `cmld` of an image the code object has send a request
and wait for its answer; the step that replaces a table by the image's words in memory, with its bytes reached and
unpoisoned and no command still reading the old table, answers the check word, the segment count, or all ones for an image that breaks R113.
The bytes stand at IMGBASE, one table after the other (log 30, the model's layout), and an image that no table can
hold breaks R113 (log 71). `dtchk` reads the check word, `enc` encodes under an encodable table and is DTBL under any other, `dec` decodes. -/
def Obligations.NumberTables : Prop := ∀ (s : State) (d a b : Reg),
  let x := rd s a
  let k := curCtx s
  let c := ctxOf s k
  let ill := fun (i : Instr) => Traps i s 0x01 4 ((curFrame s).word.setWidth 64)
  let loads := fun (i : Instr) (dec : Bool) (num : Nat) => ∃ q : Req, q.id = s.nextId ∧ q.kind = .table dec x.toNat num (tableUsers s)
    ∧ q.ctx = k ∧ q.frame = s.cur.2 ∧ CompletesWaiting i s (owe { s with nextId := s.nextId + 1, reqs := s.reqs ++ [q] } d s.nextId none)
        [.answer s.nextId] noByte fun _ => True
  (c.decImg ≤ x.toNat → ill (.dtld d a))
  ∧ (x.toNat < c.decImg → loads (.dtld d a) true 0)
  ∧ (c.coefImg.length ≤ x.toNat ∨ 3 < (rd s b).toNat → ill (.cmld d a b))
  ∧ (x.toNat < c.coefImg.length → (rd s b).toNat ≤ 3 → loads (.cmld d a b) false (rd s b).toNat)
  ∧ Completes (.dtchk d) s s id [d] noByte (Gives d (chkWord c.dec))
  ∧ ((firstBad c.dec).isSome = true → Traps (.enc d a) s 0x0C 0 0)
  ∧ (let r := encV c.dec (unpack fmtF32 (x.toNat % 2 ^ 32))
     firstBad c.dec = none → Completes (.enc d a) s s (withFlags r.2) [d] noByte (Gives d (word r.1)))
  ∧ Completes (.dec d a) s s id [d] noByte (Gives d (word (roundTo fmtF32 0 (c8Value c.dec (x.toNat % 256))).1))
  ∧ (∀ core g q dec img num cmds (ls : List ELoc),
      s.reqs.find? (fun q => ctxCore q.ctx == core && q.frame == g && (match q.kind with | .table .. => true | _ => false)) = some q →
      q.kind = .table dec img num cmds →
      (∀ y ∈ s.cmds, y.ctx = q.ctx → (4 * y.num + y.cls) ∈ cmds → y.finished = true) →
      let z := ctxOf s q.ctx
      let o := ctxOwner q.ctx
      let n := if dec then 256 else z.coefImg.getD img 0
      let base := z.imgBase + 4 * imagePlace z dec img
      let vas := (upto (4 * n)).map fun i => word (base + i)
      let places := vas.map fun va => engineLoc s o (unitWhere s core o q.id va 0) va false
      (∀ w, allOk places = .wait w → ∃ t, exec (.tableReplace core g) s = .next t ∧ Quiet s t ∧ t.reqs = s.reqs ∧ t.ctxs = s.ctxs)
      ∧ (allOk places = .ok ls →
      let v := placesAccess s q.ctx false (sectorsOf ls)
      let byte := fun (i : Nat) => engineByte { v with free := s.free } (ls.getD i (plainLoc none 0)) i
      (∀ i < ls.length, (byte i).2 = false) →
      let at' := fun (i : Nat) => (BitVec.ofNat 32 (leValue ((upto 4).map fun j => (byte (4 * i + j)).1)) : BitVec 32)
      let ws := (upto n).map at'
      ∃ t, exec (.tableReplace core g) s = .next t ∧ QuietBut s t ∧ t.reqs = v.reqs.filter (fun y => y.id != q.id)
        ∧ (dec = true →
            let tb : NMap (BitVec 19) := (upto 256).map fun i => (i, (at' i).extractLsb' 0 19)
            (ctxOf t q.ctx).dec = tb ∧ Answered v t core g q.act q.id (chkWord tb))
        ∧ (dec = false → coefImage ws = none → Answered v t core g q.act q.id allOnes ∧ (ctxOf t q.ctx).coef = (ctxOf v q.ctx).coef)
        ∧ (∀ tb, dec = false → coefImage ws = some tb → Answered v t core g q.act q.id (word tb.s)
            ∧ (ctxOf t q.ctx).coef = NMap.put (ctxOf v q.ctx).coef num tb)))

/-! ### The tombola (R17-R27, R128-R132, R205-R228) -/

/-- R210, R222-R227: the instructions of the tombola. `reseed` sends its key to the key store and waits; `draw` sends a
relaxed atomic on an aligned stream word of the own bank; `xcq` owes its value to d; `ictr` asks for a counter, and clears
it where bit 5 says so; `shq` asks for the shares; the last two park for the answer. An operand out of range is ILL with SUB 4.

R128-R132, R207, R208, R211, R223, R243, R262, R342: the steps of the tombola. Every issue slot takes one draw, those that
passed without a step too. A slot with one frame that may issue gives it the slot, whoever the draw assigned; with none,
nothing issues. A slot of a fabric point with one request, which joined it in an earlier clk, grants it where its owner has an
entry free and, at an L2 port, the commons a token: it goes on to the next point of its way. A step whose slot has been taken
takes the next clk's, and no clk passes while a core has an issue slot to take in which a frame would issue. The key store takes a new key, flips EBIT and starts a sweep, answering 0, or refuses with 1 while a
sweep runs; its step ends its clk (log 2, the model's choice). -/
def Obligations.Tombola : Prop :=
  (∀ (s : State) (d a b : Reg),
  let x := rd s a
  let y := rd s b
  let o := curOwner s
  let cls := bits x 4 0
  let inst := bits x 26 16
  let ill := fun (i : Instr) => Traps i s 0x01 4 ((curFrame s).word.setWidth 64)
  (∃ q : Req, q.id = s.nextId ∧ q.kind = .key o x true ∧ q.ctx = curCtx s ∧ q.frame = s.cur.2 ∧
    CompletesWaiting (.reseed d a) s (owe { s with nextId := s.nextId + 1, reqs := s.reqs ++ [q] } d s.nextId none)
      [.answer s.nextId] noByte fun _ => True)
  ∧ (2 ^ 11 ≤ x.toNat → ill (.draw d a b))
  ∧ (x.toNat < 2 ^ 11 → y.toNat % 8 ≠ 0 → Traps (.draw d a b) s 0x03 0 y)
  ∧ (x.toNat < 2 ^ 11 → y.toNat % 8 = 0 → ownTarget s y = none → Traps (.draw d a b) s 0x06 0 y)
  ∧ (∀ off, x.toNat < 2 ^ 11 → y.toNat % 8 = 0 → ownTarget s y = some off →
      let t : Tgt := .loc s.cur.1 off
      let rs := strongReads s (locsFrom (tgtBase s o t) 8)
      (rs ≠ [] → Parks (.draw d a b) s [.settled [] rs])
      ∧ (rs = [] → Completes (.draw d a b) s (owe (newReq s (.draw t x.toNat) (some (t, 8)) 2 none false false y) d s.nextId none) ready []
          noByte fun u => ∃ q : Req, u.reqs = s.reqs ++ [q] ∧ q.id = s.nextId ∧ q.kind = .draw t x.toNat))
  ∧ (let fits := bits x 15 5 = 0 ∧ bits x 63 27 = 0 ∧ bits y 63 24 = 0 ∧ slotClass cls = true ∧ instOk cls inst = true
     (¬fits → ill (.xcq d a b))
     ∧ (fits → Completes (.xcq d a b) s (owe { s with nextId := s.nextId + 1 } d s.nextId
          (some (word (xcqValue (weightHere s o cls inst) (bits y 15 0) (bits y 23 16))))) id [] noByte fun _ => True))
  ∧ (let k := x.toNat * 32 + bits y 4 0
     let w := ownerOf s o
     let fits := slotClass x.toNat = true ∧ bits y 4 0 ≤ 18 ∧ bits y 63 6 = 0
     (¬fits → ill (.ictr d a b))
     ∧ (fits → bit y 5 = false → CompletesOwing (.ictr d a b) s s d (word (NMap.get w.counters k 0)) fun _ => True)
     ∧ (fits → bit y 5 = true → CompletesOwing (.ictr d a b) s (setOwner s o { w with counters := NMap.put w.counters k 0 }) d
          (word (NMap.get w.counters k 0)) fun _ => True))
  ∧ (let fits := bits x 15 5 = 0 ∧ bits x 63 27 = 0 ∧ (slotClass cls = true ∨ cls = 2) ∧ instOk cls inst = true
     let os := liveOwners s
     let w := ownerOf s o
     let ring := if cls = 0x09 then some (ringOfCore s s.cur.1) else pointRing cls inst
     let quota := fun (p : Nat) => NMap.get (ownerOf s p).quotas inst 0
     (¬fits → ill (.shq d a))
     ∧ (fits → cls = 2 → CompletesOwing (.shq d a) s s d (word (quota o + sumNat (os.map quota) * 2 ^ 8)) fun _ => True)
     ∧ (fits → cls ≠ 2 → CompletesOwing (.shq d a) s s d (word (weightHere s o cls inst % 2 ^ 8
          + sumNat (os.map fun y => weightHere s y cls inst) * 2 ^ 8 + b2n (partOf s ring).isSome * 2 ^ 17
          + b2n (partOf s ring == some w.iface) * 2 ^ 18
          + (if cls = 0x03 then w.rate * 2 ^ 19 + w.depth * 2 ^ 28 + levelOf (pointNow s cls inst) o * 2 ^ 36
              + (pointNow s cls inst).commons / 256 * 2 ^ 52 else 0))) fun _ => True)))
  ∧ (∀ (s : State),
  (∀ c, c < 6144 → (coreOf s c).lastSlot ≠ s.clk + 1 →
    let passed := issueStream s c
    let draws := fun (t : State) => (pointOf t 0x09 (physCore s c)).draw = (drawStream (key0 s) 0x09 (inDie s c) passed).2
    (∀ f, issueSlot s c = true → eligibleFrames s c = [f] →
      ∃ t, exec (.issueDraw c) s = .next t ∧ Quiet s t ∧ t.cur = (c, f) ∧ t.issuing = true ∧ t.clk = s.clk ∧ draws t
        ∧ (frameOf t c f).regs = (frameOf s c f).regs ∧ (frameOf t c f).pc = (frameOf s c f).pc ∧ (coreOf t c).lastSlot = s.clk + 1)
    ∧ (issueSlot s c = true → eligibleFrames s c = [] →
      ∃ t, exec (.issueDraw c) s = .next t ∧ Quiet s t ∧ t.cur = s.cur ∧ t.issuing = s.issuing ∧ draws t
        ∧ ∀ g, frameOf t c g = frameOf s c g)
    ∧ (issueSlot s c = false →
      ∃ t, exec (.issueDraw c) s = .next t ∧ Quiet s t ∧ t.issuing = s.issuing ∧ (pointOf t 0x09 (physCore s c)).draw = passed
        ∧ ∀ g, frameOf t c g = frameOf s c g))
  ∧ (∀ c, c < 6144 → (coreOf s c).lastSlot = s.clk + 1 →
      (clkHeld s = true → exec (.issueDraw c) s = commit s s)
      ∧ (clkHeld s = false → exec (.issueDraw c) s = commit s (issueSlotStep (pass s 1) c)))
  ∧ (∀ code inst r, pointExists code inst = true → railSlot s (pointRail code) = true →
      (pointOf s code inst).lastSlot ≠ s.clk + 1 → (pointOf s code inst).queue = [r] → r.since < s.clk → r.path = [] →
      entryFree s code inst r.owner (pointSlot s code inst) = true → (code = 0x03 → 256 ≤ (pointSlot s code inst).commons) →
      ∃ t, exec (.arbitrationSlot code inst) s = .next t ∧ QuietBut s t ∧ (pointOf t code inst).lastSlot = s.clk + 1 ∧ t.clk = s.clk
        ∧ (∀ q ∈ (pointOf t code inst).queue, q.since = s.clk)
        ∧ (r.at_ = none → (∀ k ∈ s.forks, k.parent ≠ r.id) → (pointOf t code inst).queue = []))
  ∧ (∀ code inst r, pointExists code inst = true → (pointOf s code inst).lastSlot ≠ s.clk + 1 →
      (pointOf s code inst).queue = [r] → railSlot s (pointRail code) = false ∨ s.clk ≤ r.since →
      ∃ t, exec (.arbitrationSlot code inst) s = .next t ∧ Quiet s t ∧ (pointOf t code inst).queue = [r])
  ∧ (∀ n q o k re, s.reqs[n]? = some q → q.kind = .key o k re → clkHeld s = true → exec (.keyStoreStep n) s = commit s s)
  ∧ (∀ n q o k re, s.reqs[n]? = some q → q.kind = .key o k re → clkHeld s = false →
      let u := flushed (pass { s with reqs := s.reqs.filter fun x => x.id != q.id } 1)
      ∃ t, exec (.keyStoreStep n) s = .next t ∧ t.clk = u.clk ∧ t.reqs = u.reqs ∧ t.mem = u.mem
      ∧ ((ownerOf s o).sweep = true → t.owners = u.owners ∧ Answered u t (ctxCore q.ctx) q.frame q.act q.id 1)
      ∧ ((ownerOf s o).sweep = false → Answered u t (ctxCore q.ctx) q.frame q.act q.id 0
          ∧ (ownerOf t o).key = k ∧ (ownerOf t o).oldKey = (ownerOf u o).key ∧ (ownerOf t o).ebit = !(ownerOf u o).ebit
          ∧ (ownerOf t o).sweep = true ∧ (ownerOf t o).streams = [] ∧ (ownerOf t o).sweepBy = s.clk + 65536)))

/-! ### The containment tree (R350-R363) -/

/-- R350-R363: the instructions of the tree. The five that change it wait as releases, and each parks for its answer. `cnode`
makes the lowest free node under its parent, whose record stands in the node store, or gives the status of R358; `cmove`
moves a node by the rules of R360; `cdrop` of a node deletes one that has neither child nor tile; `cenr` and `cdrop` act on
tiles one after the other and take one bump; `csettle` parks until what the context knows has rolled up, then asks for
COUNT; `cread` asks for a word of a live node or a tile's entry. No byte changes but those of records that change.

R354: a roll-up step takes a node out of the chains of the bumps it includes and raises a live node's COUNT by one,
however many they are, in its record too; a chain that is over goes; without any such bump nothing happens. -/
def Obligations.Containment : Prop :=
  (∀ (s : State) (d a b : Reg),
  let x := rd s a
  let y := rd s b
  let k := curCtx s
  let o := curOwner s
  let go := (curFrame s).granted = true ∨ releasable s k (releaseAfter s).1 (releaseAfter s).2 [] [] = true
  let waits := fun (i : Instr) => ¬go → Parks i s [.settled (releaseAfter s).1 (releaseAfter s).2]
  let ill := fun (i : Instr) => Traps i s 0x01 4 ((curFrame s).word.setWidth 64)
  let st := fun (c low : Nat) => word (c * 2 ^ 56 + low)
  let gives := fun (i : Instr) (w : Word) => CompletesOwing i s s d w fun _ => True
  (2 ^ 16 ≤ x.toNat → ill (.cnode d a) ∧ ill (.cmove d a b) ∧ ill (.csettle d a))
  ∧ (x.toNat < 2 ^ 16 → waits (.cnode d a))
  ∧ (let p := x.toNat
     let pn := nodeOf s p
     let lives := p = 0 ∨ ownNode s o p = true
     let full := s.nodeBase = 0 ∨ (ownerOf s o).nodeQuota ≤ nodesHeld s o ∨ freeNode s = none
     (p < 2 ^ 16 → go → ¬lives → gives (.cnode d a) (st 3 0))
     ∧ (p < 2 ^ 16 → go → lives → p ≠ 0 → pn.depth = 15 → gives (.cnode d a) (st 4 0))
     ∧ (p < 2 ^ 16 → go → lives → p = 0 ∨ pn.depth ≠ 15 → full → gives (.cnode d a) (st 1 0))
     ∧ (∀ n, p < 2 ^ 16 → go → lives → p = 0 ∨ pn.depth ≠ 15 → s.nodeBase ≠ 0 → nodesHeld s o < (ownerOf s o).nodeQuota →
          freeNode s = some n →
          let u := (createNode s o p).1
          CompletesOwingIn (.cnode d a) s u d (st 0 n) (nodeByte s ([(n, 0), (n, 1), (n, 2)] ++ nodeChanges s u)) fun t =>
            (nodeOf t n).live = true ∧ (nodeOf t n).owner = o ∧ (nodeOf t n).parent = p ∧ (nodeOf t n).count = 0
            ∧ (nodeOf t n).depth = (if p = 0 then 0 else pn.depth + 1) ∧ (nodeOf t n).children = 0 ∧ (nodeOf t n).tiles = 0
            ∧ (Inv s → ∀ w < 3, rdNat t (nodeLoc s n w) 8 = (nodeWord (nodeOf t n) w).toNat)))
  ∧ (x.toNat < 2 ^ 16 → 2 ^ 16 ≤ y.toNat → ill (.cmove d a b))
  ∧ (x.toNat < 2 ^ 16 → y.toNat < 2 ^ 16 → waits (.cmove d a b))
  ∧ (let n := x.toNat
     let p := y.toNat
     let nd := nodeOf s n
     let depth := if p = 0 then 0 else (nodeOf s p).depth + 1
     let lives := ownNode s o n = true ∧ (p = 0 ∨ ownNode s o p = true)
     n < 2 ^ 16 → p < 2 ^ 16 → go →
       (¬lives → gives (.cmove d a b) (st 3 0))
       ∧ (lives → n ∈ nodeChain s 16 p → gives (.cmove d a b) (st 6 0))
       ∧ (lives → n ∉ nodeChain s 16 p → 15 < depth + nd.height → gives (.cmove d a b) (st 4 0))
       ∧ (lives → n ∉ nodeChain s 16 p → depth + nd.height ≤ 15 → p = nd.parent → gives (.cmove d a b) (st 0 0))
       ∧ (lives → n ∉ nodeChain s 16 p → depth + nd.height ≤ 15 → p ≠ nd.parent →
            let u := (moveNode s o n p).1
            CompletesOwingIn (.cmove d a b) s u d (st 0 0) (nodeByte s (nodeChanges s u)) fun t => (nodeOf t n).parent = p))
  ∧ (let n := bits x 15 0
     let count := bits x 47 32
     let form := bits x 31 16 = 0 ∧ bits x 63 48 = 0 ∧ count ≠ 0
     let node := bits x 31 16 = 0 ∧ bits x 63 32 = 0 ∧ y = 0
     let nd := nodeOf s n
     let tiles := fun (drop : Bool) (i : Instr) =>
       (y.toNat % 4096 ≠ 0 → Traps i s 0x03 0 y)
       ∧ (y.toNat % 4096 = 0 → waits i)
       ∧ (y.toNat % 4096 = 0 → go → ownNode s o n = false → gives i (st 3 0))
       ∧ (∀ v, y.toNat % 4096 = 0 → go → ownNode s o n = true → runTiles drop n count y s 0 = .walk v →
            exec i s = commit s (startWalk (setCur s { curFrame s with granted := true }) v 0))
       ∧ (∀ v stat kk stop, y.toNat % 4096 = 0 → go → ownNode s o n = true → runTiles drop n count y s 0 = .run v stat kk stop →
            let e := nodeEvent v [(n, 2)]
            let u := if kk = 0 then v else takeBump e.2 (nodeChain e.2 16 n) [e.1]
            (∀ c va, stop = some (c, va) → exec i s = commit s (whereTrap u c va))
            ∧ (stop = none → CompletesOwingIn i s u d (st stat kk) (nodeByte s (if kk = 0 then [] else [(n, 2)])) fun _ => True))
     (¬form → ill (.cenr d a b)) ∧ (form → tiles false (.cenr d a b))
     ∧ (∀ pa z, form → y.toNat % 4096 = 0 → go → ownNode s o n = true → count = 1 → tileWhere s y true = .mem pa z →
          let t := pa / 4096
          let adds := tileAllowed s t z = true ∧ tileEntryRoom s (tileRing s t) = true
          (∀ m c, tileOf s t = some (m, c) → m ≠ n → gives (.cenr d a b) (st 2 0))
          ∧ (∀ c, tileOf s t = some (n, c) → gives (.cenr d a b) (st 0 0))
          ∧ (tileOf s t = none → tileAllowed s t z = false → gives (.cenr d a b) (st 4 0))
          ∧ (tileOf s t = none → tileAllowed s t z = true → tileEntryRoom s (tileRing s t) = false → gives (.cenr d a b) (st 1 0))
          ∧ (tileOf s t = none → adds → ∃ u, CompletesOwingIn (.cenr d a b) s u d (st 0 1) (nodeByte s [(n, 2)]) fun v =>
              tileOf v t = some (n, 0) ∧ (nodeOf v n).tiles = nd.tiles + 1))
     ∧ (bits x 31 16 = 0 → bits x 63 48 = 1 → count ≠ 0 → tiles true (.cdrop d a b))
     ∧ (bits x 31 16 ≠ 0 ∨ 1 < bits x 63 48 ∨ (bits x 63 48 = 1 ∧ count = 0) → ill (.cdrop d a b))
     ∧ (node → waits (.cdrop d a b))
     ∧ (node → go → ownNode s o n = false → gives (.cdrop d a b) (st 3 0))
     ∧ (node → go → ownNode s o n = true → nd.children ≠ 0 ∨ nd.tiles ≠ 0 → gives (.cdrop d a b) (st 5 0))
     ∧ (node → go → ownNode s o n = true → nd.children = 0 → nd.tiles = 0 →
          let u := (deleteNode s n).1
          CompletesOwingIn (.cdrop d a b) s u d (st 0 0) (nodeByte s (nodeChanges s u)) fun t =>
            (nodeOf t n).live = false))
  ∧ (let n := x.toNat
     let inv := standingInvals s
     (n < 2 ^ 16 → ownNode s o n = false → gives (.csettle d a) allOnes)
     ∧ (n < 2 ^ 16 → ownNode s o n = true → (curFrame s).granted = false → Parks (.csettle d a) s
          [.settled ((ctxOf s k).queue.map QEntry.id) (ctxReqs s k), .applied inv, .bumps n ((ctxOf s k).known ++ inv)])
     ∧ (n < 2 ^ 16 → ownNode s o n = true → (curFrame s).granted = true →
          CompletesOwing (.csettle d a) s (learnNode s n 0) d (word (nodeOf s n).count) fun _ => True)
     ∧ (4 ≤ y.toNat ∨ (y.toNat < 3 ∧ 2 ^ 16 ≤ n) → ill (.cread d a b))
     ∧ (y.toNat < 3 → n < 2 ^ 16 → ownNode s o n = false → gives (.cread d a b) allOnes)
     ∧ (y.toNat < 3 → n < 2 ^ 16 → ownNode s o n = true → CompletesOwing (.cread d a b) s (learnNode s n y.toNat) d
          (let z := nodeOf s n
           match y.toNat with
           | 0 => word z.count
           | 1 => word (z.parent + z.owner * 2 ^ 16 + z.depth * 2 ^ 28 + b2n z.live * 2 ^ 32)
           | _ => word (z.children + z.tiles * 2 ^ 16 + z.height * 2 ^ 48)) fun _ => True)
     ∧ (∀ pa z, y.toNat = 3 → tileWhere s x false = .mem pa z → gives (.cread d a b) (match tileOf s (pa / 4096) with
          | some (n, t) => word (t + n * 2 ^ 32 + 2 ^ 48)
          | none => 0))))
  ∧ (∀ (s : State) (n : Nat) (ids : List Nat),
  let hit := fun (b : Bump) => b.id ∈ ids ∧ n ∈ b.chain
  ((∀ b ∈ s.bumps, ¬hit b) → exec (.rollupStep n ids) s = commit s s)
  ∧ (∀ b, b ∈ s.bumps → hit b → ∃ t, exec (.rollupStep n ids) s = .next t
      ∧ (Inv s → ∀ a, ¬nodeByte s [(n, 0)] a → byteAt t a = byteAt s a)
      ∧ (∀ c ∈ t.bumps, c.chain ≠ [] ∧ ¬hit c)
      ∧ ((nodeOf s n).live = true → nodeOf t n = { nodeOf s n with count := ((nodeOf s n).count + 1) % 2 ^ 64 }
          ∧ (Inv s → rdNat t (nodeLoc s n 0) 8 = ((nodeOf s n).count + 1) % 2 ^ 64))
      ∧ ((nodeOf s n).live = false → t.nodes = s.nodes ∧ Quiet s t)))

/-! ### Special registers (R53-R57, R149, R150, R367) -/

/-- R54-R57, R149, R150: `mfs` gives every special register, and `mts` writes the fields that its row lets be written and no
other; a number without a register is ILL with SUB 5. A write of KEY is a request to the key store. A write of CTDAT that is
refused sets WREF, one that is taken maps the core (R367); a write of WTDAT is the table write that WTSEL selects (R382), whose
rows `OwnerTables` states, or sets WREF where its row refuses it (R383). -/
def Obligations.SpecialRegisters : Prop := ∀ (s : State) (d a : Reg),
  let v := rd s a
  let f := curFrame s
  let c := curCore s
  let k := curCtx s
  let o := curOwner s
  let w := ownerOf s o
  let reads := fun (n : BitVec 16) (x : Word) => Completes (.mfs d n) s s id [d] noByte (Gives d x)
  let writes := fun (n : BitVec 16) (u : State) (upd : Frame → Frame) => Completes (.mts a n) s u upd [] noByte fun _ => True
  let changes := fun (n : BitVec 16) (u : State) => ∃ t, exec (.mts a n) s = .next t ∧ Retires (committed s u) t id [] (curPc u + 4)
  let core := fun (x : CoreSt) => setCore s s.cur.1 x
  (reads 0x000 f.wid ∧ reads 0x001 f.wfmt ∧ reads 0x002 (word s.cur.1) ∧ reads 0x003 (word o) ∧ reads 0x004 (word s.clk)
    ∧ reads 0x005 (word f.rmode) ∧ reads 0x006 (word f.fflags) ∧ reads 0x007 w.key
    ∧ reads 0x008 (word (b2n w.ebit + b2n w.sweep * 2)) ∧ reads 0x009 (ctxOf s k).lseed ∧ reads 0x00A (if inHandler s = false ∧ detLin s f.lin = true then word (ctxOf s k).qret else 0)
    ∧ reads 0x00B (word (w.ectr + b2n w.ectrSat * 2 ^ 48)) ∧ reads 0x00C (word s.cur.2) ∧ reads 0x00D (word (f.reply * 4))
    ∧ reads 0x00E (word (leaseLen s s.cur.1 o)) ∧ reads 0x100 (word c.evec) ∧ reads 0x101 (c.epc &&& 0x7FFFC) ∧ reads 0x102 c.ecause
    ∧ reads 0x103 c.eaddr ∧ reads 0x104 (word (b2n c.sup + b2n c.wref * 2)) ∧ reads 0x105 (bankWord s s.cur.1 c.bsel)
    ∧ reads 0x106 (c.gate.setWidth 64) ∧ reads 0x107 (word c.ctsel)
    ∧ reads 0x108 (word (if 6144 ≤ c.ctsel then 0x1FFF else physCore s c.ctsel % 2 ^ 13)) ∧ reads 0x109 s.wtsel
    ∧ reads 0x10A (tableRead s (bits s.wtsel 4 0) (bits s.wtsel 6 5) (bits s.wtsel 18 7) (bits s.wtsel 28 19)))
  ∧ (∀ n : BitVec 16, 0x00F ≤ n.toNat → n.toNat < 0x100 ∨ 0x10A < n.toNat →
      Traps (.mfs d n) s 0x01 5 (f.word.setWidth 64) ∧ Traps (.mts a n) s 0x01 5 (f.word.setWidth 64))
  ∧ (bits v 2 0 ≤ 4 → writes 0x005 s fun g => { g with rmode := bits v 2 0 })
  ∧ (4 < bits v 2 0 → writes 0x005 s id)
  ∧ writes 0x006 s (fun g => { g with fflags := bits v 4 0 })
  ∧ writes 0x009 (setCtx s k { ctxOf s k with lseed := v }) id
  ∧ writes 0x00D s (fun g => { g with reply := bits v 18 2 })
  ∧ (∃ x, writes 0x00E (setOwner s o { w with lease := bits v 31 0, leaseSet := (s.clk + 1, s.cur.1, x) }) id)
  ∧ writes 0x100 (core { c with evec := bits v 18 2 * 4 }) id
  ∧ writes 0x101 (core { c with epc := v &&& 0x7FFFC }) id
  ∧ writes 0x104 (core { c with wref := c.wref && !bit v 1 }) id
  ∧ writes 0x105 (writeBankmap s s.cur.1 v) id
  ∧ writes 0x106 (writeGate s s.cur.1 v) id ∧ (coreOf (writeGate s s.cur.1 v) s.cur.1).gate = v.setWidth 8
  ∧ writes 0x107 (core { c with ctsel := bits v 12 0 }) id
  ∧ writes 0x109 { s with wtsel := v &&& 0x1FFFFFFF } id
  ∧ (let refused := core { c with wref := true }
     let p := bits v 12 0
     let ill := 6144 ≤ c.ctsel ∨ coreHasBank s c.ctsel = true ∨ (p < 6144 ∧ mappedElsewhere s c.ctsel p = true)
     (ill → writes 0x108 refused id)
     ∧ (¬ill → physCore s c.ctsel = p → writes 0x108 s id)
     ∧ (¬ill → physCore s c.ctsel ≠ p → changes 0x108 (remapCore s c.ctsel p))
     ∧ (∀ e, e = selected s.wtsel → tableWrite s e.1 e.2.1 e.2.2.1 e.2.2.2 v = none → writes 0x10A refused id)
     ∧ (∀ e u, e = selected s.wtsel → tableWrite s e.1 e.2.1 e.2.2.1 e.2.2.2 v = some u → changes 0x10A u))
  ∧ (∀ n ∈ ([0x000, 0x001, 0x002, 0x003, 0x004, 0x008, 0x00A, 0x00B, 0x00C, 0x102, 0x103] : List (BitVec 16)), writes n s id)
  ∧ ∃ q : Req, q.id = s.nextId ∧ q.kind = .key o v false ∧ q.ctx = k
      ∧ writes 0x007 { s with nextId := s.nextId + 1, reqs := s.reqs ++ [q] } id

/-! ### Supervisor instructions, walks and releases (R127, R158, R178, R371-R380) -/

/-- R371, R375, R376: `fresume` sends a resume for each fault that matches, and waits until they are there; `tlbi` drops the
translations that match, everywhere, begins anew the walks that
match, and waits for the accesses under way that used one; both wait first as releases. `bankctl` with
bit 8 selects a bank and reads it; otherwise it zeroes a bank that is not live, with its frames and barrier entries, and
gives 1 for a live one. Reserved bits are ILL with SUB 4. -/
def Obligations.SupervisorInstructions : Prop := ∀ (s : State) (d a b : Reg),
  let x := rd s a
  let y := rd s b
  let k := curCtx s
  let core := s.cur.1
  let owner := bits x 11 0
  let sz := bits x 19 18
  let go := (curFrame s).granted = true ∨ releasable s k (releaseAfter s).1 (releaseAfter s).2 [] [] = true
  let waits := fun (i : Instr) => ¬go → Parks i s [.settled (releaseAfter s).1 (releaseAfter s).2]
  let ill := fun (i : Instr) => Traps i s 0x01 4 ((curFrame s).word.setWidth 64)
  (let form := bits x 15 12 = 0 ∧ bit x 17 = false ∧ bits x 63 20 = 0 ∧ (bit x 16 = true → sz = 0)
   let hits := faultsOf s owner fun seq addr =>
     if bit x 16 then word seq == y else addr.toNat / blockSize sz == y.toNat / blockSize sz
   let sent := hits.foldl (fun u h => sendMsg u (hwCtx 0) 0 0 h.2.1 owner (.resume h.2.2 h.1 s.nextId) (ctxOf s k).known)
     { s with nextId := s.nextId + 1 }
   (¬form → ill (.fresume d a b)) ∧ (form → waits (.fresume d a b))
   ∧ (form → go → hits = [] → Completes (.fresume d a b) s { s with nextId := s.nextId + 1 } ready [d] noByte (Gives d 0))
   ∧ (form → go → hits ≠ [] → CompletesWaiting (.fresume d a b) s (owe sent d s.nextId (some (word hits.length)))
        [.resumes s.nextId] noByte fun t => t.net.length = s.net.length + hits.length))
  ∧ (let scope := bits x 17 16
     let form := bits x 15 12 = 0 ∧ bits x 63 20 = 0 ∧ scope ≠ 3 ∧ (scope ≠ 0 → y = 0 ∧ sz = 0)
     let lo := y.toNat / blockSize sz * blockSize sz
     let hit := fun (t : Xlat) =>
       scope == 2 || (t.owner == owner && (scope == 1 || (decide (t.page < lo + blockSize sz) && decide (lo < t.page + t.size))))
     let gone := s.cores.foldl (fun l c => l ++ c.2.tlb.filter hit ++ c.2.frames.foldl (fun l f => l ++ f.2.walked.filter hit) []) []
       ++ s.rings.foldl (fun l r => l ++ r.2.tlb.filter hit) []
     let ids := xlatUsers s fun o va =>
       scope == 2 || (o == owner && (scope == 1 || (decide (lo ≤ va.toNat) && decide (va.toNat < lo + blockSize sz))))
         || gone.any fun t => t.owner == o && decide (t.page ≤ va.toNat) && decide (va.toNat < t.page + t.size)
     let again := fun (w : Walk) => scope == 2 || (w.owner == owner && (scope == 1 || w.va.toNat / 2 ^ 30 == y.toNat / 2 ^ 30))
     let u : State := { s with
       walks := s.walks.map fun w => if again w then { w with depth := 0 } else w
       walked := s.walked.filter fun w => !(w.xlat.any hit)
       cores := s.cores.map fun c => (c.1, { c.2 with
         tlb := c.2.tlb.filter fun t => !hit t,
         frames := c.2.frames.map fun f => (f.1, { f.2 with walked := f.2.walked.filter fun t => !hit t }) })
       rings := s.rings.map fun r => (r.1, { r.2 with tlb := r.2.tlb.filter fun t => !hit t }) }
     let clean := fun (t : State) => (∀ c, ∀ e ∈ (coreOf t c).tlb, hit e = false) ∧ (∀ r, ∀ e ∈ (ringOf t r).tlb, hit e = false)
     (¬form → ill (.tlbi a b)) ∧ (form → waits (.tlbi a b))
     ∧ (form → go → ids = [] → Completes (.tlbi a b) s u ready [] noByte clean)
     ∧ (form → go → ids ≠ [] → CompletesWaiting (.tlbi a b) s u [.users ids] noByte clean))
  ∧ (let n := bits x 2 0
     let form := bits x 7 3 = 0 ∧ bits x 63 9 = 0
     let inside := fun (p : Nat) => bankLoc core n ≤ p ∧ p < bankLoc core n + 0x10000
     (¬form → ill (.bankctl d a))
     ∧ (form → bit x 8 = true → Completes (.bankctl d a) s (setCore s core { coreOf s core with bsel := n }) id [d] noByte
          (Gives d (bankWord s core n)))
     ∧ (form → bit x 8 = false → bankLive s core n = true → Completes (.bankctl d a) s s id [d] noByte (Gives d 1))
     ∧ (form → bit x 8 = false → bankLive s core n = false → (curFrame s).st ≠ .free →
          Completes (.bankctl d a) s (cleanBank s core n) id [d] inside fun t => Gives d 0 t
            ∧ (NMap.get (coreOf t core).banks n {}).clean = true ∧ (Inv s → ∀ p, inside p → byteAt t p = 0)
            ∧ ∀ g, g / 4 = n → (frameOf t core g).st = .free))

/-- R377-R379: `ctxsave` of an owner with banks here, whose image's pages translate to device DRAM of treatment 0 or 2, parks
until the context is drained, then gives 0 with the context's banks free and clean; with no bank it gives 1. `ctxload`
gives 2 for a header that does not fit, 3 for a bank that is in use or not clean, 4 for an owner that has banks here, and
0 for a saved image, whose owner then holds the banks. Owner 0 is ILL, before a misaligned image address, which is ALIGN (the
order of R72, as log 47 reads it); an image of engines of another width is GEOM unless it is neutral. -/
def Obligations.ContextImages : Prop := ∀ (s : State) (d a b : Reg),
  let x := rd s a
  let va := rd s b
  let core := s.cur.1
  let owner := bits x 11 0
  let ill := fun (i : Instr) => Traps i s 0x01 4 ((curFrame s).word.setWidth 64)
  let pages := fun (n acc : Nat) => rangeParts s acc (va.toNat + (0x10000 + n * Config.bankBytes))
    (fun pa z => isDram pa && (z.treat == 0 || z.treat == 2)) false ((0x10000 + n * Config.bankBytes) / 4096 + 2) va.toNat
  let sound := fun (n acc : Nat) => va.toNat % 0x10000 = 0 ∧ ∀ p ∈ pages n acc, ∃ pa z, p.2.2 = .mem pa z
  let segs := fun (n acc : Nat) => (pages n acc).map fun p =>
    (({ pa := (whereTgt p.2.2 |> tgtPa).getD 0, treat := whereTreat p.2.2, share := whereShare p.2.2 } : Place), p.2.1)
  (bits x 63 12 ≠ 0 ∨ owner = 0 → ill (.ctxsave d a b))
  ∧ (bits x 63 12 = 0 → owner ≠ 0 → va.toNat % 0x10000 ≠ 0 → Traps (.ctxsave d a b) s 0x03 0 va)
  ∧ (let held := banksOf s core owner
     bits x 63 12 = 0 → sound held.length 1 →
       (owner ≠ 0 → held = [] → Completes (.ctxsave d a b) s s ready [d] noByte (Gives d 1))
       ∧ (owner ≠ 0 → held ≠ [] → (curFrame s).granted = false ∨ drained s core owner true = false →
            ∃ t, exec (.ctxsave d a b) s = .next t ∧ (curFrame t).st = .parked [.drained owner]
              ∧ ∀ n ∈ held, n < 8 → (coreOf t core).gate.getLsbD n = true)
       ∧ (owner ≠ 0 → held ≠ [] → (curFrame s).granted = true → drained s core owner true = true → s.cur.2 / 4 ∉ held →
            ((coreOf s core).banks.map Prod.fst).Pairwise (· < ·) → ∃ t,
            exec (.ctxsave d a b) s = .next t ∧ curPc t = curPc s + 4 ∧ Gives d 0 t ∧ banksOf t core owner = []
              ∧ (∀ n ∈ held, (NMap.get (coreOf t core).banks n {}).clean = true ∧ ∀ g, g / 4 = n → (frameOf t core g).st = .free)))
  ∧ (bits x 15 12 ≠ 0 ∨ bits x 63 24 ≠ 0 ∨ owner = 0 → ill (.ctxload d a b))
  ∧ (bits x 15 12 = 0 → bits x 63 24 = 0 → owner ≠ 0 → va.toNat % 0x10000 ≠ 0 → Traps (.ctxload d a b) s 0x03 0 va)
  ∧ (let banks := maskBanks (bits x 23 16)
     let u := placesAccess (clearWait s) (curCtx s) false (imagePlaces (segs banks.length 0))
     let bytes := segBytes u (segs banks.length 0)
     let w0 := leValue (bytes.take 8)
     let fits := w0 % 2 ^ 16 = 0x4C47 ∧ w0 / 2 ^ 16 % 2 ^ 8 = 1 ∧ w0 / 2 ^ 34 % 2 ^ 12 = owner ∧ w0 / 2 ^ 30 % 2 ^ 4 = banks.length
     let free := ∀ n ∈ banks, (NMap.get (coreOf u core).banks n {}).valid = false ∧ (NMap.get (coreOf u core).banks n {}).clean = true
     let gives := fun (v : Word) => Completes (.ctxload d a b) s u id [d] (dirtyByte s) (Gives d v)
     bits x 15 12 = 0 → bits x 63 24 = 0 → sound banks.length 0 →
       (owner ≠ 0 → ¬fits → gives 2)
       ∧ (owner ≠ 0 → fits → ¬free → gives 3)
       ∧ (owner ≠ 0 → fits → free → banksOf u core owner ≠ [] → gives 4)
       ∧ (owner ≠ 0 → fits → free → banksOf u core owner = [] → findImage u bytes = none → gives 5)
       ∧ (∀ img, owner ≠ 0 → fits → free → banksOf u core owner = [] → findImage u bytes = some img → w0 / 2 ^ 24 % 2 ^ 5 ≠ 16 →
            w0 / 2 ^ 29 % 2 = 0 → exec (.ctxload d a b) s = commit s (trap u 0x0B 0 0))
       ∧ (∀ img, owner ≠ 0 → fits → free → banksOf u core owner = [] → findImage u bytes = some img → w0 / 2 ^ 24 % 2 ^ 5 = 16 →
            (∀ p ∈ img.frames, restoredFrame banks p.1 ≠ u.cur.2) → ∃ t,
            exec (.ctxload d a b) s = .next t ∧ curPc t = curPc s + 4 ∧ Gives d 0 t
              ∧ (∀ n ∈ banks, NMap.get (coreOf t core).banks n {} = { owner := owner, valid := true, clean := false })
              ∧ (ctxOf t (ctxKey core owner)).queue = []))

/-- R127, R178, R371-R374: a parked frame whose conditions all hold is active again, its registers and PC as they were, and its
instruction is complete or executes again in the next step; while one does not, nothing happens. A walk that holds one of its
ring's 64 entries, 16 of them to an owner, reads its next table entry at home; it ends for every access that joined it, of a frame or of
an engine: a failing one notes XLAT or PROT for each, a page enters the TLBs; without an entry it waits, and while what would issue
again finds a passage of its L1s due. A release waits for an earlier access
of the context that has the same walk's failure to take, and for a free miss entry or passage (R234, R235). A resume ends the
faults up to its own: the instruction starts again, or the read that faulted issues again. The inbound queue gives a start to a
run queue with room. -/
def Obligations.ReleasesAndWalks : Prop := ∀ (s : State),
  (∀ c g cs, let f := frameOf s c g
    f.st = .parked cs → (∀ b ∈ s.refusals, ¬(b.ctx = frameCtx s c g ∧ b.frame = g ∧ b.act = f.act)) →
    let held := executesAgain f cs = true ∧ accessHeld s c g f.word = true
    ((∀ x ∈ cs, condHolds s c g x = true) → walkTurn s c g cs = true → ¬held → ∃ t, exec (.parkRelease c g) s = .next t ∧ Quiet s t
        ∧ (frameOf t c g).st = .active ∧ (frameOf t c g).regs = f.regs ∧ (frameOf t c g).pc = f.pc ∧ (frameOf t c g).retDue = false
        ∧ ((frameOf t c g).again = true ↔ f.retDue = false ∧ ∃ x ∈ cs, completes x = false)
        ∧ ((frameOf t c g).again = true → t.cur = (c, g) ∧ t.issuing = true)
        ∧ ((frameOf t c g).again = false → t.cur = s.cur ∧ t.issuing = s.issuing) ∧ ∀ e h, (e, h) ≠ (c, g) → frameOf t e h = frameOf s e h)
    ∧ ((∃ x ∈ cs, condHolds s c g x = false) ∨ walkTurn s c g cs = false ∨ held → exec (.parkRelease c g) s = commit s s))
  ∧ (∀ n x, s.walks[n]? = some x → let w := (joinedWalks s x).headD x
      let passes := ∃ y ∈ joinedWalks s x, y.for_ = .unit true ∧ fusedDue s y.owner (ringOfCore s y.core) = true
      let frames := ∀ y ∈ joinedWalks s x, y.for_ = .frame
      let engines := ∀ y ∈ joinedWalks s x, (∃ b, y.for_ = .unit b) ∧ (∀ r ∈ s.reads, r.id ≠ y.id ∧ r.pair ≠ y.id) ∧ ∀ q ∈ s.reqs, q.id ≠ y.id
      let l := walkOrder.getD w.depth (0, 12, 9)
      let tab := walkTab s w
      let u := entryRead s w.ring w.core w.owner (tab + 8 * (w.va.toNat / 2 ^ l.2.1 % 2 ^ l.2.2))
      let e := walkEntry u w.owner w.va.toNat tab l
      ((w.owner, w.va.toNat / 4096) ∉ walkEntries s w.ring ∨ passes → exec (.pageWalk n) s = commit s s)
      ∧ ((w.owner, w.va.toNat / 4096) ∈ walkEntries s w.ring → ¬passes → ∃ t, exec (.pageWalk n) s = .next t ∧ QuietBut s t
          ∧ ∀ y ∈ joinedWalks s x, let page := y.va.toNat / 4096
            let was := frameOf u y.core y.frame
            let f := frameOf t y.core y.frame
            (∀ tb, e = .inr tb → { y with depth := w.depth + 1, tab := tb } ∈ t.walks)
            ∧ (∀ r, e = .inl r → y ∉ t.walks)
            ∧ (frames → was.act = y.act → e = .inl .xlat → NMap.find f.wfault page = some 0x05)
            ∧ (frames → was.act = y.act → e = .inl .prot → NMap.find f.wfault page = some 0x06)
            ∧ (∀ z, frames → e = .inl (.page z) → through u z y.va.toNat y.acc ≠ .fault 0x06 →
                z ∈ (coreOf t y.core).tlb ∧ z ∈ (ringOf t y.ring).tlb ∧ (was.act = y.act → z ∈ f.walked))
            ∧ (engines → e = .inl .xlat → { id := y.id, page := page, xlat := none, cause := 0x05 } ∈ t.walked)
            ∧ (engines → e = .inl .prot → { id := y.id, page := page, xlat := none, cause := 0x06 } ∈ t.walked)
            ∧ (∀ z, engines → e = .inl (.page z) → through u z y.va.toNat y.acc ≠ .fault 0x06 →
                z ∈ (ringOf t y.ring).tlb ∧ { id := y.id, page := page, xlat := some z, cause := 0 } ∈ t.walked)))
  ∧ (∀ n m g seq id_, delivers s n m → m.body = .resume g seq id_ → let f := frameOf s m.core g
      let hits := (faultsIn f).filter fun x => decide (x.1 ≤ seq)
      let now := fun (cs : List Cond) =>
        let rest := cs.filter fun c => match c with | .fault j _ _ _ => decide (seq < j) | _ => true
        if rest.isEmpty then FSt.active else FSt.parked rest
      (resumeOpen s m = false → exec (.resumeArrival n) s = commit s s)
      ∧ (resumeOpen s m = true → (∀ x ∈ hits, x.1 ≠ seq) → ∃ t, exec (.resumeArrival n) s = .next t ∧ Quiet s t ∧ t.net = dropAt s.net n
          ∧ frameOf t m.core g = f)
      ∧ (∀ cs, resumeOpen s m = true → f.st = .parked cs → (∃ x ∈ hits, x.1 = seq) → (∀ x ∈ hits, x.2.2 = none) →
          ∃ t, exec (.resumeArrival n) s = .next t ∧ Quiet s t ∧ t.net = dropAt s.net n
          ∧ (frameOf t m.core g).st = now cs ∧ (frameOf t m.core g).regs = f.regs ∧ (frameOf t m.core g).pc = f.pc
          ∧ (frameOf t m.core g).again = false ∧ ∀ w ∈ m.tag, w ∈ (ctxOf t (ctxKey m.core m.owner)).known)
      ∧ (∀ cs i va r pa z, resumeOpen s m = true → f.st = .parked cs → hits = [(seq, va, some i)] →
          (∀ q ∈ s.reqs, q.id ≠ i) → s.reads.filter (fun q => q.id == i) = [r] → r.pair = 0 → (∀ q ∈ s.reads, q.pair ≠ i) →
          unitWhere (dropWalked s i) (ctxCore r.ctx) (ctxOwner r.ctx) i r.va 0 = .mem pa z → ∃ t, exec (.resumeArrival n) s = .next t ∧ Quiet s t
          ∧ t.net = dropAt s.net n ∧ (frameOf t m.core g).st = now cs
          ∧ ∃ y : Read, y.id = r.id ∧ y.tgt = .pa pa ∧ y.treat = whereTreat (.mem pa z) ∧ y.parked = false ∧ y.mode = r.mode
              ∧ y.owed = r.owed ∧ t.reads = s.reads.map fun q => if q.id = r.id then y else q)
      ∧ (∀ cs i va r, resumeOpen s m = true → f.st = .parked cs → hits = [(seq, va, some i)] →
          (∀ q ∈ s.reqs, q.id ≠ i) → s.reads.filter (fun q => q.id == i) = [r] → r.pair = 0 → (∀ q ∈ s.reads, q.pair ≠ i) →
          unitWhere (dropWalked s i) (ctxCore r.ctx) (ctxOwner r.ctx) i r.va 0 = .miss → ∃ t, exec (.resumeArrival n) s = .next t ∧ Quiet s t
          ∧ t.net = dropAt s.net n ∧ (frameOf t m.core g).st = now cs ∧ t.reads = s.reads ∧ ∃ w ∈ t.walks, w.id = i))
  ∧ (∀ ring owner i m st o b, nextHeld s ring owner = some i →
      (ringOf s ring).inbound[i]? = some (o, .msg m) → m.body = .start st → runqBank s (ctxKey m.core st.owner) = some b →
      ∃ t, exec (.inboundQueueRelease ring owner) s = .next t ∧ Quiet s t
        ∧ (ringOf t ring).inbound = dropAt (ringOf s ring).inbound i
        ∧ (ctxOf t (ctxKey m.core st.owner)).runq = (ctxOf s (ctxKey m.core st.owner)).runq ++ [(b, st)])
  ∧ (∀ ring owner, nextHeld s ring owner = none → exec (.inboundQueueRelease ring owner) s = commit s s)

/-! ### The pool and the world outside (R97, R98, R230, R341-R349, R390) -/

/-- R97, R98, R342-R348: the write-back of a settled pool-coherent write asks for a slot of its port, and once granted the write is
published by giving the pool its bytes; a back-invalidation queues, and its apply, once the line's own data is published, drops every copy and settles the bytes it carries; a
line is granted exclusive through a live port. The loss of a port loses its live regions, and reports; its recovery
brings only the port back. Accesses from the host and from peers to device DRAM settle there, on a slot of its rail; a read changes no
byte, but for dirty L1 data that it recalls, and one of the host's leaves its lines cached there (log 43, the model's choice). The host
selects and writes the tables through the page of the physical function, whose place and whose WREF are the model's (log 98). A write
of a region entry that its row refuses, also a move to LOST of one that is not mapped and any of a lost one with copies left, changes
nothing but WREF, which is core 0's (log 98). -/
def Obligations.PoolEvents : Prop := ∀ (s : State), Inv s →
  (∀ w port, s.unpub.contains w = true → s.log.contains w = true → livePort s (writeBase s w) = some port → publishReady s w = true →
    let granted := (pointOf s 0x0D port).busy.any fun b => b.id == publishId w
    (standsAt s (publishId w) = true → exec (.publish w) s = .next s)
    ∧ (standsAt s (publishId w) = false → granted = false → ∃ t, exec (.publish w) s = .next t ∧ Quiet s t ∧ t.unpub = s.unpub
        ∧ t.poolMem = s.poolMem)
    ∧ (standsAt s (publishId w) = false → granted = true → ∃ t, exec (.publish w) s = .next t ∧ Quiet s t
        ∧ t.unpub = s.unpub.filter (fun x => x != w)
        ∧ t.poolMem = (wrec s w).bytes.foldl (fun m p => memPut m p.1 p.2) s.poolMem))
  ∧ (∀ w, s.unpub.contains w = false → exec (.publish w) s = .next s)
  ∧ (∀ port line writes, livePort s (line * 256) = some port → ∃ t v, exec (.bisnpArrival port line writes) s = .next t ∧ Quiet s t
      ∧ NMap.get t.birq port [] = NMap.get s.birq port [] ++ [v] ∧ v.line = line
      ∧ v.writes = writes.filter fun p => p.1 / 256 == line)
  ∧ (∀ port v r a bs, NMap.get s.birq port [] = v :: r → lineUnpub s v.line = [] → v.writes = cellsAt a bs →
      ∃ t, exec (.apply port) s = .next t ∧ NMap.get t.birq port [] = r ∧ t.birsp = s.birsp + 1
        ∧ (∀ c ∈ s.cores, ∀ l ∈ (coreOf t c.1).l1, l.pa / 256 ≠ v.line) ∧ t.exclusive.contains v.line = false
        ∧ ∀ x, byteAt t x = (NMap.find (cellsAt a bs) x).getD (byteAt s x))
  ∧ (∀ port v r, NMap.get s.birq port [] = v :: r → lineUnpub s v.line ≠ [] → exec (.apply port) s = .next s)
  ∧ (∀ line, (livePort s (line * 256)).isSome = true → ∃ t, exec (.poolExclusiveGrant line) s = .next t
      ∧ t = { s with exclusive := insNat s.exclusive line })
  ∧ (∀ line, livePort s (line * 256) = none → exec (.poolExclusiveGrant line) s = .next s)
  ∧ (∀ port, port < 4 → s.portsLost.contains port = false → (s.regions.map Prod.fst).Nodup → ∃ t,
      exec (.poolPortLoss port) s = .next t ∧ t.portsLost.contains port = true ∧ t.msix.getLast? = some (0, 0)
      ∧ ∀ i r, (i, r) ∈ s.regions → NMap.get t.regions i {} =
          if r.port = port ∧ r.state = 1 then { r with state := 2, losses := min (r.losses + 1) (2 ^ 32 - 1) } else r)
  ∧ (∀ port, exec (.poolLinkRecovery port) s = .next { s with portsLost := s.portsLost.filter fun p => p != port })
  ∧ (∀ link pa n v i, (i = .peerAccessArrival link pa n (some v) ∧ link < 16 ∧ s.linksLost.contains link = false
        ∨ i = .hostMemoryAccess pa n (some v)) → pa + n ≤ Config.dramEnd → railSlot s 2 = true →
      ∃ t, exec i s = .next t ∧ ∀ x, ¬dirtyByte s x → byteAt t x = (NMap.find (cellsAt pa (leBytes v n)) x).getD (byteAt s x))
  ∧ (∀ link pa n, pa + n ≤ Config.dramEnd → ∃ t, exec (.peerAccessArrival link pa n none) s = .next t ∧ QuietBut s t)
  ∧ (∀ link pa n v, pa + n ≤ Config.dramEnd → railSlot s 2 = false →
      exec (.peerAccessArrival link pa n v) s = .next s ∧ exec (.hostMemoryAccess pa n v) s = .next s)
  ∧ (∀ pa n, pa + n ≤ Config.dramEnd → railSlot s 2 = true → ∃ t, exec (.hostMemoryAccess pa n none) s = .next t ∧ QuietBut s t
      ∧ (∀ l ∈ s.hostLines, l ∈ t.hostLines) ∧ ∀ x, pa ≤ x → x < pa + n → x / 256 ∈ t.hostLines)
  ∧ (∀ link pa n v, Config.dramEnd < pa + n →
      exec (.peerAccessArrival link pa n v) s = .next s ∧ (pa < pfPage → exec (.hostMemoryAccess pa n v) s = .next s))
  ∧ (∀ n v, exec (.hostMemoryAccess pfPage n (some v)) s = commit s { s with wtsel := word v &&& 0x1FFFFFFF })
  ∧ (∀ n v e, e = selected s.wtsel → tableWrite s e.1 e.2.1 e.2.2.1 e.2.2.2 (word v) = none →
      exec (.hostMemoryAccess (pfPage + 8) n (some v)) s = commit s (setWref s 0))
  ∧ (∀ n v e u, e = selected s.wtsel → tableWrite s e.1 e.2.1 e.2.2.1 e.2.2.2 (word v) = some u →
      exec (.hostMemoryAccess (pfPage + 8) n (some v)) s = commit s u)
  ∧ (∀ i (v : BitVec 64), i < 64 → bits v 63 50 = 0 →
      let r := NMap.get s.regions i {}
      let base := bits v 29 0
      let size := bits v 45 30
      let refuses := fun (j : Instr) => exec j s = commit s (setWref { s with wtsel := selectWord 0x18 2 0 i } 0)
      let clash := ∃ p ∈ s.regions, p.1 ≠ i ∧ p.2.state ≠ 0 ∧ base < p.2.base + p.2.size ∧ p.2.base < base + size
      (bits v 49 48 = 1 → r.state = 0 → 0x400 ≤ base → size ≠ 0 → ¬clash → ∃ t, exec (.regionWrite i v) s = .next t ∧ Quiet s t
        ∧ NMap.get t.regions i {} = { base := base, size := size, port := bits v 47 46, state := 1, losses := r.losses })
      ∧ (bits v 49 48 = 1 → r.state = 0 ∨ r.state = 2 → base < 0x400 ∨ size = 0 ∨ clash → refuses (.regionWrite i v))
      ∧ (bits v 49 48 = 2 → r.state = 0 → refuses (.regionWrite i v))
      ∧ (2 ≤ bits v 49 48 → r.state = 2 → exec (.regionWrite i v) s = commit s { s with wtsel := selectWord 0x18 2 0 i })
      ∧ (bits v 49 48 ≤ 1 → r.state = 2 → regionClear s i = false → refuses (.regionWrite i v))
      ∧ (bits v 49 48 ≤ 1 → r.state = 2 → regionClear s i = true → bits v 49 48 = 0 ∨ (0x400 ≤ base ∧ size ≠ 0 ∧ ¬clash) →
          ∃ t, exec (.regionWrite i v) s = .next t ∧ Quiet s t ∧ NMap.get t.regions i {} =
            { base := base, size := size, port := bits v 47 46, state := bits v 49 48, losses := r.losses })
      ∧ (r.state = 1 → bits v 49 48 = 0 ∨ base ≠ r.base ∨ size ≠ r.size ∨ bits v 47 46 ≠ r.port → refuses (.regionWrite i v)))
  ∧ (∀ i, let r := NMap.get s.regions i {}
      i < 64 → r.base < 2 ^ 30 → r.size < 2 ^ 16 → r.port < 4 → r.state = 1 → ∃ t, exec (.regionMarkLost i) s = .next t
        ∧ NMap.get t.regions i {} = { r with state := 2, losses := min (r.losses + 1) (2 ^ 32 - 1) })

/-! ### The supervisor's tables (R22, R130, R208, R215, R240, R343, R350, R367, R368, R372, R382-R386, R396) -/

/-- R22, R208, R215, R240, R350, R368, R372, R382-R386, R392, R396: the tables behind WTSEL and WTDAT, as steps of the part.
A value within its row is taken where the rule of its row lets it; any other write changes nothing but WREF. An event selects its
entry in WTSEL, as the host does, and a refused one sets core 0's WREF (log 98, the model's choice). What a creation keeps is log
79, the LOG2 of a placed descriptor log 78, and the clk that a live owner's key write ends log 2: all three are the model's. -/
def Obligations.OwnerTables : Prop := ∀ (s : State) (o i r : Nat) (v : BitVec 64), o < 4096 → i < 256 → r < 384 →
  let n := v.toNat
  let w := ownerOf s o
  let f := ifaceOf s i
  let takes := fun (j : Instr) (cls kind id inst : Nat) (u : State → State) => exec j s = commit s (u { s with wtsel := selectWord cls kind id inst })
  let keeps := fun (j : Instr) (cls kind id inst : Nat) => takes j cls kind id inst fun z => setWref z 0
  (let others := sumNat (s.owners.map fun p => if p.1 = o then 0 else NMap.get p.2.quotas r 0)
   (n < 32 → w.live = true → others + n ≤ 16 → takes (.wayQuota o r v) 0x02 1 o r fun s => setOwner s o { w with quotas := NMap.put w.quotas r n })
   ∧ (32 ≤ n ∨ w.live = false ∨ 16 < others + n → keeps (.wayQuota o r v) 0x02 1 o r))
  ∧ (∀ c, slotClass c = true →
      let lim := NMap.get (ifaceOf s w.iface).weights c 0
      let mine := weightSum s c (some w.iface) (some o) + n
      let all := weightSum s c none (some o) + n
      (n < 256 → weightSum s c (some i) none ≤ n → takes (.interfaceWeight i c v) c 0 i 0 fun s => setIface s i { f with weights := NMap.put f.weights c n })
      ∧ (256 ≤ n ∨ n < weightSum s c (some i) none → keeps (.interfaceWeight i c v) c 0 i 0)
      ∧ (n < 256 → w.live = true → mine ≤ lim → all ≤ 256 → takes (.ownerWeight o c v) c 1 o 0 fun s => setOwner s o { w with weights := NMap.put w.weights c n })
      ∧ (256 ≤ n ∨ w.live = false ∨ lim < mine ∨ 256 < all → keeps (.ownerWeight o c v) c 1 o 0))
  ∧ (∀ k, k < 16 → (n % 2 ^ 34 = 0 → n < 2 ^ 56 → takes (.peerWindowBase k v) 0x0A 2 0 k fun s => { s with peerBase := NMap.put s.peerBase k n })
      ∧ (n % 2 ^ 34 ≠ 0 ∨ 2 ^ 56 ≤ n → keeps (.peerWindowBase k v) 0x0A 2 0 k))
  ∧ (o ≠ 0 → w.live = false → ∃ t, exec (.ownerCreate o i) s = .next t ∧ Quiet s t ∧ (∀ k, ctxOwner k = o → ctxOf t k = {})
      ∧ (let u := ownerOf t o
         u.live = true ∧ u.iface = i ∧ u.key = w.key ∧ u.root = w.root ∧ u.desc = w.desc ∧ u.weights = [] ∧ u.quotas = [] ∧ u.ectr = 0
         ∧ u.rate = 256 ∧ u.depth = 32 ∧ u.nodeQuota = 256 ∧ u.streams = [] ∧ u.counters = []))
  ∧ (o = 0 ∨ w.live = true → keeps (.ownerCreate o i) 0x0E 1 o 0)
  ∧ (let running := ∃ p ∈ s.ifaces, ∃ q ∈ p.2.records, q.2.state = .running ∧ q.2.owner = o
     let queued := ∃ c ∈ s.ctxs, ctxOwner c.1 = o ∧ c.2.runq ≠ []
     (o = 0 ∨ ownerBanked s o = true ∨ queued ∨ running → keeps (.ownerDestroy o) 0x0E 1 o 0)
     ∧ (o ≠ 0 → ownerBanked s o = false → ¬queued → ¬running → ∃ t, exec (.ownerDestroy o) s = .next t
          ∧ (let u := ownerOf t o
             u.live = false ∧ u.iface = 0 ∧ u.key = 0 ∧ u.weights = [] ∧ u.quotas = [] ∧ u.nodeQuota = 0 ∧ u.streams = [])
          ∧ ∀ n, (nodeOf t n).owner = o → (nodeOf t n).live = false))
  ∧ (ownerBanked s o = true ∨ w.sweep = true → keeps (.ownerKey o v) 0x0F 1 o 0)
  ∧ (ownerBanked s o = false → w.sweep = false →
      let z := flushed (pass { s with wtsel := selectWord 0x0F 1 o 0 } 1)
      ∃ t, exec (.ownerKey o v) s = .next t ∧ (ownerOf t o).key = v ∧ (w.live = false → Quiet s t ∧ t.clk = s.clk)
      ∧ (w.live = true → (ownerOf t o).streams = [] ∧ t.clk = z.clk ∧ t.mem = z.mem))
  ∧ (n < 2 ^ 17 → bits v 8 0 ≤ 256 → bits v 16 9 ≠ 0 → takes (.bucket o v) 0x10 1 o 0 fun s => setOwner (settlePorts s) o { w with rate := bits v 8 0, depth := bits v 16 9 })
  ∧ (256 < bits v 8 0 ∨ bits v 16 9 = 0 ∨ 2 ^ 17 ≤ n → keeps (.bucket o v) 0x10 1 o 0)
  ∧ (n < 2 ^ 16 → takes (.nodeQuota o v) 0x11 1 o 0 fun s => setOwner s o { w with nodeQuota := n }) ∧ (2 ^ 16 ≤ n → keeps (.nodeQuota o v) 0x11 1 o 0)
  ∧ (n % 4096 = 0 → n < Config.dramEnd → takes (.shadowTableRoot o v) 0x12 1 o 0 fun s => setOwner s o { w with root := n })
  ∧ (n % 4096 ≠ 0 ∨ Config.dramEnd ≤ n → keeps (.shadowTableRoot o v) 0x12 1 o 0)
  ∧ (n / 64 * 64 < Config.dramEnd → takes (.faultDescriptor o v) 0x13 1 o 0 fun s =>
      let t := placeDescriptor s (n / 64 * 64)
      setOwner t o { w with desc := n / 64 * 64, vector := n % 64,
                            lostSeen := if n / 64 * 64 = w.desc then w.lostSeen else rdNat t (n / 64 * 64 + 40) 4 })
  ∧ (Config.dramEnd ≤ n / 64 * 64 → keeps (.faultDescriptor o v) 0x13 1 o 0)
  ∧ (let q := bits v 31 0
     let bl := bits v 35 32
     let own := bits v 47 36
     let ok := bits v 63 49 = 0 ∧ q ≠ 0 ∧ 1 ≤ bl ∧ bl ≤ 8 ∧ (own ≠ 0 → (ownerOf s own).live = true ∧ (ownerOf s own).iface = i)
     (ok → takes (.quantum i v) 0x14 0 i 0 fun s =>
        setIface s i { f with quantum := max q (8192 * bl), banklim := bl, nown := own, qraised := decide (q < 8192 * bl) })
     ∧ (¬ok → keeps (.quantum i v) 0x14 0 i 0))
  ∧ (let x := ringOf s r
     (v = 1 → x.part = none → takes (.partition i r v) 0x15 0 i r fun s => setRing s r { x with part := some i })
     ∧ (v = 0 → x.part = some i → takes (.partition i r v) 0x15 0 i r fun s => setRing s r { x with part := none })
     ∧ (∀ j, x.part = some j → j ≠ i → keeps (.partition i r v) 0x15 0 i r))
  ∧ (∀ k, k < 256 → takes (.sharingKey k v) 0x17 2 0 k fun s => { s with sharingKeys := NMap.put s.sharingKeys k v })
  ∧ ((∀ p ∈ s.nodes, p.2.live = false) → n % 2 ^ 22 = 0 → n < Config.dramEnd → takes (.nodeStoreBase v) 0x19 2 0 0 fun s => { s with nodeBase := n })
  ∧ ((∃ p ∈ s.nodes, p.2.live = true) ∨ n % 2 ^ 22 ≠ 0 ∨ Config.dramEnd ≤ n → keeps (.nodeStoreBase v) 0x19 2 0 0)
  ∧ (v = 0 → takes (.absentProbeClear r v) 0x1A 2 0 r fun s => setRing s r { ringOf s r with absent := 0 }) ∧ (v ≠ 0 → keeps (.absentProbeClear r v) 0x1A 2 0 r)
  ∧ (n < 2 ^ 16 → takes (.slowDownLinkMask v) 0x1B 2 0 0 fun s => { s with linkMask := v.setWidth 16 }) ∧ (2 ^ 16 ≤ n → keeps (.slowDownLinkMask v) 0x1B 2 0 0)
  ∧ (v = 0 → takes (.ectrClear o v) 0x1D 1 o 0 fun s => setOwner s o { w with ectr := 0, ectrSat := false }) ∧ (v ≠ 0 → keeps (.ectrClear o v) 0x1D 1 o 0)

/-- R130, R367: GATE, BANKMAP and CTDAT. A bank that is clean goes to an owner below its limit, from another too, and is then zeroed; a bank that is
not live can be given back, and is then not clean; a bank that is live, or not clean, changes nothing but WREF. A core without banks
moves to a physical core that no other maps.

R386: a build of a launch record from 256 bytes of device DRAM that lie within the limits of R190, and a free. A record
that runs refuses both, and WREF is set, which is core 0's (log 98, the model's choice). An image's reserved bits are not looked at (log 48, the model's reading). -/
def Obligations.BankAndRecordTables : Prop :=
  (∀ (s : State) (core : Nat) (v : BitVec 64),
  let b := bits v 14 12
  let o := bits v 11 0
  let x := NMap.get (coreOf s core).banks b {}
  let sel := setCore s core { coreOf s core with bsel := b }
  let wrote := fun (i : Instr) (u : State) => exec i s = commit s u
  (∃ t, exec (.gateWrite core v) s = .next t ∧ Quiet s t ∧ (coreOf t core).gate = v.setWidth 8
    ∧ (∀ g, { frameOf t core g with gatedFor := 0 } = { frameOf s core g with gatedFor := 0 })
    ∧ ∀ c, c ≠ core → coreOf t c = coreOf s c)
  ∧ wrote (.bankmapSelect core v) sel
  ∧ (bit v 18 = true → wrote (.bankmapWrite core v) sel)
  ∧ (bit v 18 = false → bit v 15 = true → x.valid = false ∨ x.owner ≠ o → x.clean = true → (banksOf s core o).length < bankLimit s o →
      physCore s core < 6144 → ∃ t, exec (.bankmapWrite core v) s = .next t ∧ (x.valid = false → Quiet s t)
        ∧ (s.wbuf = [] → ∀ a, a < bankLoc core b ∨ bankLoc core b + 0x10000 ≤ a → byteAt t a = byteAt s a)
        ∧ (x.valid = true → Inv s → ∀ a, bankLoc core b ≤ a → a < bankLoc core b + 0x10000 → byteAt t a = 0)
        ∧ NMap.get (coreOf t core).banks b {} = { owner := o, valid := true, clean := true }
        ∧ ∀ e, e ≠ b → NMap.get (coreOf t core).banks e {} = NMap.get (coreOf s core).banks e {})
  ∧ (bit v 18 = false → bit v 15 = true → x.clean = false → x.valid = false → wrote (.bankmapWrite core v)
      (setCore sel core { coreOf sel core with wref := true }))
  ∧ (bit v 18 = false → bit v 15 = false → x.valid = true → bankLive sel core b = false → o = x.owner →
      ∃ t, exec (.bankmapWrite core v) s = .next t ∧ Quiet s t
        ∧ NMap.get (coreOf t core).banks b {} = { owner := o, valid := false, clean := false })
  ∧ (bit v 18 = false → bit v 15 = false → x.valid = true → bankLive sel core b = true → wrote (.bankmapWrite core v)
      (setCore sel core { coreOf sel core with wref := true }))
  ∧ (let l := (coreOf s core).ctsel
     let p := bits v 12 0
     (6144 ≤ l ∨ coreHasBank s l = true ∨ (p < 6144 ∧ mappedElsewhere s l p = true) →
       wrote (.ctdatWrite core v) (setCore s core { coreOf s core with wref := true }))
     ∧ (l < 6144 → coreHasBank s l = false → p < 6144 → mappedElsewhere s l p = false → ∃ t, exec (.ctdatWrite core v) s = .next t
         ∧ physCore t l = p)))
  ∧ (∀ (s : State) (i k : Nat) (v : BitVec 64), i < 256 → k < 1024 →
  let at_ := bits v 55 8 * 2 ^ 8
  let g := fun (j : Nat) => rdNat s (at_ + 8 * j) 8
  let r := recOf s i k
  let refuses := fun (j : Instr) => exec j s = commit s (setWref { s with wtsel := selectWord 0x16 0 i k } 0)
  let sound := imageOk ((upto 32).map g) = true ∧ at_ + 256 ≤ Config.dramEnd
  (bits v 63 56 = 0 → bits v 7 0 = 0 → r.state ≠ .running → sound → ∃ t q, exec (.recordBuild i k v) s = .next t ∧ Quiet s t
      ∧ recOf t i k = q ∧ q.state = .idle ∧ q.entry = g 0 / 4 % 2 ^ 17 * 4 ∧ q.policy = g 0 / 2 ^ 19 % 4
      ∧ q.det = (g 0 / 2 ^ 21 % 2 == 1) ∧ q.early = (g 0 / 2 ^ 22 % 2 == 1) ∧ q.fuse = (g 0 / 2 ^ 23 % 2 == 1)
      ∧ q.fmt = word (g 1 % 2 ^ 45) ∧ q.counts = [word (g 2), word (g 3), word (g 4), word (g 5), word (g 6), word (g 7)]
      ∧ q.param = word (g 8) ∧ q.done = word (g 9) ∧ q.first = g 10 % 2 ^ 13 ∧ q.ncores = g 10 / 2 ^ 16 % 2 ^ 13
      ∧ q.quantum = max (g 11 % 2 ^ 32) (ifaceOf s i).quantum)
  ∧ (bits v 63 56 = 0 → bits v 7 0 = 0 → r.state = .running ∨ ¬sound → refuses (.recordBuild i k v))
  ∧ (r.state ≠ .running → ∃ t, exec (.recordFree i k) s = .next t ∧ Quiet s t ∧ recOf t i k = { r with state := .unbuilt })
  ∧ (r.state = .running → refuses (.recordFree i k)))

/-! ### The platform (R38, R380, R387-R398) -/

/-- R380, R391-R396: caravans, rails, notices, links and static energy. A core whose context is drained moves its banks to
the target; a core of a die without a target issues on even clks. An emergency raises every rail to 4 at least, at an 8-clk
boundary, and a rail is never set below what an emergency or a notice demands. -/
def Obligations.PlatformEvents : Prop := ∀ (s : State),
  (∀ l p, physCore s l < 6144 → moveTarget s l p = true → moveReady s l = true → mappedTo s p ≠ some l →
    ∃ t, exec (.caravan l p) s = .next t ∧ physCore t l = p
      ∧ (s.wbuf = [] → ∀ a, ¬dirtyByte s a → (∀ b < 8, (NMap.get (coreOf s l).banks b {}).valid = false →
          a < bankLoc l b ∨ bankLoc l b + 0x10000 ≤ a) → byteAt t a = byteAt s a)
      ∧ ∀ b < 8, (NMap.get (coreOf s l).banks b {}).valid = true → NMap.get (coreOf t l).banks b {} = NMap.get (coreOf s l).banks b {})
  ∧ (∀ l p, physCore s l < 6144 → moveTarget s l p = true → moveReady s l = false →
      exec (.caravan l p) s = commit s (setHot s l false))
  ∧ (∀ l p, physCore s l < 6144 → (∀ q, moveTarget s l q = false) →
      exec (.caravan l p) s = commit s (setHot s l true)
      ∧ ∀ n, issueSlot { setHot s l true with clk := n } l = (railSlot { s with clk := n } 1 && n % 2 == 0))
  ∧ (∀ c, exec (.hotCoreCooling c) s = commit s (setHot s c false))
  ∧ (∀ d, s.clk % 8 = 0 → d < 4 → s.emergency.contains d = false → ∃ t, exec (.thermalEmergency d) s = .next t ∧ Quiet s t
      ∧ t.emergency.contains d = true ∧ t.lastNotice = s.clk ∧ ∀ q < 4, railLevel t q = max (railLevel s q) 4)
  ∧ (∀ d, exec (.thermalEmergencyEnd d) s = commit s { s with emergency := s.emergency.filter fun x => x != d })
  ∧ (∀ q lv, s.clk % 8 = 0 → q < 4 → lv ≤ 7 → railFloor s ≤ lv → ∃ t, exec (.railLevelChange q lv) s = .next t ∧ Quiet s t
      ∧ railLevel t q = lv ∧ (∀ r, r ≠ q → railLevel t r = railLevel s r) ∧ ∀ r, slotsTo t r s.clk = slotsTo s r s.clk)
  ∧ (∀ q lv, lv < railFloor s → exec (.railLevelChange q lv) s = commit s s)
  ∧ (s.emergency ≠ [] → s.lastNotice + 140000 ≤ s.clk → ∃ t, exec .slowdownNoticeSend s = .next t ∧ Quiet s t ∧ t.lastNotice = s.clk
      ∧ t.noticesOut = s.noticesOut ++ ((upto 16).filter fun k => s.linkMask.getLsbD k && !s.linksLost.contains k).map fun k =>
          (k, noticeLevel s))
  ∧ (s.emergency = [] ∨ s.clk < s.lastNotice + 140000 → exec .slowdownNoticeSend s = commit s s)
  ∧ (∀ k lv, s.clk % 8 = 0 → k < 16 → s.linksLost.contains k = false → 1 ≤ lv → lv ≤ 7 →
      ∃ t, exec (.slowdownNoticeReceive k lv) s = .next t ∧ Quiet s t ∧ t.msix = s.msix ++ [(0, 0)]
        ∧ NMap.find t.slowdown lv = some s.clk ∧ ∀ q < 4, railLevel t q = max (railLevel s q) lv)
  ∧ (∀ p, p ∈ s.slowdown → p.2 + 1400000 ≤ s.clk → ∃ t, exec .slowdownHoldExpiry s = .next t ∧ Quiet s t
      ∧ t.msix = s.msix ++ [(0, 0)] ∧ t.slowdown = s.slowdown.filter fun q => !decide (q.2 + 1400000 ≤ s.clk))
  ∧ ((∀ p ∈ s.slowdown, s.clk < p.2 + 1400000) → exec .slowdownHoldExpiry s = commit s s)
  ∧ (∀ k, k < 16 → s.linksLost.contains k = false → ∃ t, exec (.zasolLinkLost k) s = .next t ∧ t.linksLost = insNat s.linksLost k
      ∧ t.msix.getLast? = some (0, 0)
      ∧ ∀ w ∈ t.unacked, w ∈ s.unacked ∧ ¬(Config.peerBase ≤ writeBase s w ∧ isWindow (writeBase s w) = true ∧ writeBase s w / 2 ^ 34 % 16 = k))
  ∧ (∀ k, k < 16 → exec (.zasolFlitRetry k) s = commit s { s with retries := NMap.put s.retries k (NMap.get s.retries k 0 + 1) })
  ∧ (s.lastStatic + 64 ≤ s.clk → ∃ t, exec .staticEnergy s = .next t ∧ Quiet s t ∧ t.lastStatic = s.lastStatic + 64
      ∧ ((∀ c ∈ s.cores, ∀ b ∈ c.2.banks, b.2.valid = false) → (ownerOf s 0).ectrSat = false → (ownerOf s 0).ectr + 589824 < 2 ^ 48 →
          (ownerOf t 0).ectr = (ownerOf s 0).ectr + 589824))
  ∧ (s.clk < s.lastStatic + 64 → exec .staticEnergy s = commit s s)

/-- R38, R101, R387-R390, R397, R398: the notify page, bring-up and the loader. A notify is a `larm` by owner NOWN: it counts
in NCOUNT, and sets NST or NFAULT; in fenced mode it waits for its stamp, is applied when the stamp is there, and dropped
with NTMO at the timeout or where its read faults; one whose NOWN is not valid is applied at once (log 52, the model's reading). PERST# leaves the reset
state, with empty memory (log 54, the model's reading), waiting for firmware, and a verified image brings the module up with the
reset values. A verified code object that fits every core that is to run it, its images in read-only memory, is placed at the start of the owner's
banks on each. That the load names those cores is log 96, that an image area which the owner may write or that does not translate is
refused log 30, and that a stamp's address wraps log 76: all three are the model's. -/
def Obligations.HostAndLoader : Prop := ∀ (s : State),
  (∀ i (v : BitVec 64), ifaceUp s i = true → let f := ifaceOf s i
    (∃ t, exec (.notify i 2 v) s = .next t ∧ Quiet s t ∧ ifaceOf t i = { f with fenced := bit v 0, stoff := bits v 16 1 })
    ∧ (exec (.notify i 1 v) s = commit s s ∧ exec (.notify i 3 v) s = commit s s)
    ∧ (f.await = none → f.queued = [] → f.fenced = false ∨ nownOk s i = false → ∃ t, exec (.notify i 0 v) s = .next t
        ∧ (ifaceOf t i).ncount = (f.ncount + 1) % 2 ^ 32 ∧ (ifaceOf t i).await = none ∧ (ifaceOf t i).queued = []
        ∧ (nownOk s i = false → (ifaceOf t i).nfault = true ∧ (ifaceOf t i).records = f.records)
        ∧ (nownOk s i = true → (recOf s i (bits v 9 0)).state = .unbuilt → (ifaceOf t i).nfault = true)
        ∧ (nownOk s i = true → (recOf s i (bits v 9 0)).state = .running → (ifaceOf t i).nfault = false ∧ (ifaceOf t i).nst = 1))
    ∧ (f.await = none → f.queued = [] → f.fenced = true → nownOk s i = true → ∃ t, exec (.notify i 0 v) s = .next t ∧ Quiet s t
        ∧ ifaceOf t i = { f with await := some (v, s.clk, s.clk) }))
  ∧ (∀ i v, ifaceUp s i = false → ∀ w, exec (.notify i w v) s = commit s s)
  ∧ (∀ i w0 since due pa z, let f := ifaceOf s i
      let va := (recOf s i (bits w0 9 0)).param + word (8 * f.stoff)
      f.await = some (w0, since, due) → due ≤ s.clk → s.clk < since + 1400000 → va.toNat % 8 = 0 →
      engineWhere s 6144 f.nown va 0 = .mem pa z → isWindow pa = false →
      let u := atHome s (ctxKey 6144 f.nown) (.pa pa)
      let fails := ∃ t, exec (.notifyStampPoll i) s = .next t ∧ (f.queued = [] → (ifaceOf t i).await = none
        ∧ (ifaceOf t i).ntmo = min (f.ntmo + 1) (2 ^ 32 - 1) ∧ t.msix = s.msix ++ [(i, 0)])
      (recallOpen u 6144 f.nown pa = true → ∃ t, exec (.notifyStampPoll i) s = .next t ∧ QuietBut s t ∧ ifaceOf t i = f)
      ∧ (recallOpen u 6144 f.nown pa = false → poisoned u pa = true → fails)
      ∧ (recallOpen u 6144 f.nown pa = false → poisoned u pa = false →
      (rdNat u pa 8 % 2 ^ 32 ≠ bits w0 63 32 → ∃ t, exec (.notifyStampPoll i) s = .next t ∧ QuietBut s t
        ∧ ifaceOf t i = { f with await := some (w0, since, s.clk + 1000) })
      ∧ (rdNat u pa 8 % 2 ^ 32 = bits w0 63 32 → f.queued = [] → ∃ t, exec (.notifyStampPoll i) s = .next t
        ∧ (ifaceOf t i).await = none ∧ (ifaceOf t i).ncount = (f.ncount + 1) % 2 ^ 32)))
  ∧ (∀ i w0 since due pa z, let f := ifaceOf s i
      let va := (recOf s i (bits w0 9 0)).param + word (8 * f.stoff)
      f.await = some (w0, since, due) → due ≤ s.clk → s.clk < since + 1400000 → f.queued = [] →
      va.toNat % 8 ≠ 0 ∨ (engineWhere s 6144 f.nown va 0 = .mem pa z ∧ isWindow pa = true ∧ peerLost s pa = true) →
      ∃ t, exec (.notifyStampPoll i) s = .next t ∧ (ifaceOf t i).await = none ∧ (ifaceOf t i).ntmo = min (f.ntmo + 1) (2 ^ 32 - 1)
        ∧ (ifaceOf t i).records = f.records ∧ t.msix = s.msix ++ [(i, 0)])
  ∧ (∀ i w0 since due, let f := ifaceOf s i
      f.await = some (w0, since, due) →
      (since + 1400000 ≤ s.clk → f.queued = [] → ∃ t, exec (.notifyTimeout i) s = .next t ∧ (ifaceOf t i).await = none
        ∧ (ifaceOf t i).ntmo = min (f.ntmo + 1) (2 ^ 32 - 1) ∧ (ifaceOf t i).records = f.records ∧ t.msix = s.msix ++ [(i, 0)])
      ∧ (s.clk < since + 1400000 → exec (.notifyTimeout i) s = commit s s))
  ∧ (∃ t, exec .perstRelease s = .next t ∧ t.boot = .recovery ∧ t.vfEnabled = false ∧ t.mem = [] ∧ t.cores = State.reset.cores
      ∧ t.owners = State.reset.owners ∧ t.clk = State.reset.clk)
  ∧ (s.boot = .recovery → exec (.firmwareImageWrite true) s =
      .next { State.reset with clk := s.clk, agenda := s.agenda, free := s.free, nextId := s.nextId })
  ∧ (s.boot = .recovery → exec (.firmwareImageWrite false) s = .next { s with bootFail := true })
  ∧ (∀ owner cores o, (∃ t, exec (.codeObjectLoad owner cores o false) s = .next t ∧ t = committed s s)
      ∧ ∀ core ∈ cores, localSize s core owner < objectEnd o → exec (.codeObjectLoad owner cores o true) s = commit s s)
  ∧ (∀ owner cores o,
      (∀ v, cores = [] ∨ (∃ core ∈ cores, (ctxOf s (ctxKey core owner)).code.isSome = true ∧ quiet s core owner = false)
          ∨ imagesFit s (cores.headD 0) owner o.imgBase (imageBytes o) = false →
        exec (.codeObjectLoad owner cores o v) s = commit s s)
      ∧ (Inv s → cores ≠ [] → (∀ core ∈ cores, objectEnd o ≤ localSize s core owner
            ∧ ((ctxOf s (ctxKey core owner)).code = none ∨ quiet s core owner = true)) →
          imagesFit s (cores.headD 0) owner o.imgBase (imageBytes o) = true → ∃ t,
          exec (.codeObjectLoad owner cores o true) s = .next t
          ∧ ∀ core ∈ cores, let k := ctxKey core owner
          (o.data = [] → o.regions = [] → o.dec = [] → o.coef = [] → (banksOf s core owner).Nodup →
              (∀ c ∈ cores, c < 6144 ∧ ∀ b ∈ banksOf s c owner, b < 8) → ∀ j < o.text.length, ∀ l, localLoc s core owner j = some l → byteAt t l = o.text.getD j 0)
          ∧ (ctxOf t k).code = some o ∧ (ctxOf t k).decImg = o.dec.length ∧ (ctxOf t k).coefImg = o.coef.map List.length
          ∧ (ctxOf t k).imgBase = o.imgBase ∧ (ctxOf t k).region = objectRegion o
          ∧ ∀ j b, (banksOf s core owner)[j]? = some b → j * Config.bankBytes < objectEnd o →
              (NMap.get (coreOf t core).banks b {}).clean = false))

/-! ### The whole machine (R15, R47, R57-R69, R127, R145, R160, R164, R367, R383, R397) -/

/-- R47, R58-R66: no bit of an encoding is dropped. Every well-formed instruction, at every value of its operands, is what
its own word decodes to. -/
def Obligations.DecodeOfEncode : Prop := ∀ i : Instr, i.wellFormed = true → decodeWord (encode i) = .ok i

/-- R58, R59, R69: every word means one thing. A word that is accepted is the word of the instruction it decodes to, which is
well-formed: no two words share an instruction, and no accepted word has a bit that its instruction does not account for. -/
def Obligations.EncodeOfDecode : Prop := ∀ (w : BitVec 32) (i : Instr), decodeWord w = .ok i → i.wellFormed = true ∧ encode i = w

/-- R4, R73: whatever the machine does, from every state, memory stays in its one canonical form and no write of a step is
left over. Memory's form is the model's own. -/
def Obligations.StepKeepsInvariant : Prop := ∀ s t : State, Inv s → step s = .next t → Inv t

/-- R68, R69: every step goes on. No instruction word, fetched from any state, and no event stops the machine: traps,
parks and refused requests are next states. Only a schedule that names an instruction word in place of an event has no
step (log 1). -/
def Obligations.EveryStepGoesOn : Prop := ∀ s : State,
  (s.issuing = false → ∀ x ∈ s.agenda.head?, x.ev.isWord = false) → ∃ t, step s = .next t

/-- R15, R55, R57, R367, R383, R397: right after bring-up CLK is 0, the core table is the identity, owner 0 alone lives, on
interface 0 with key 0, every weight is 0, every bank is clean and unassigned, every supervisor register is 0, and the
machine meets its invariant. The rest of the state that the spec gives no value is the model's (log 7). -/
def Obligations.ResetState : Prop :=
  let s := State.reset
  Inv s ∧ s.clk = 0 ∧ s.boot = .up
  ∧ (∀ l, physCore s l = l)
  ∧ (∀ o, (ownerOf s o).live = decide (o = 0)) ∧ (∀ o, (ownerOf s o).iface = 0 ∧ (ownerOf s o).key = 0)
  ∧ (∀ o c, weightOf s o c = 0 ∧ NMap.get (ifaceOf s o).weights c 0 = 0 ∧ NMap.get (ownerOf s o).quotas c 0 = 0)
  ∧ (∀ c b, NMap.get (coreOf s c).banks b {} = { owner := 0, valid := false, clean := true } ∧ bankLive s c b = false)
  ∧ (∀ c, let x := coreOf s c
      x.sup = false ∧ x.wref = false ∧ x.ecause = 0 ∧ x.evec = 0 ∧ x.epc = 0 ∧ x.eaddr = 0 ∧ x.gate = 0 ∧ x.bsel = 0 ∧ x.ctsel = 0) ∧ s.wtsel = 0
  ∧ (∀ c f, (frameOf s c f).st = .free)
  ∧ (∀ p : Nat, s.portsLost.contains p = false ∧ s.linksLost.contains p = false ∧ (NMap.get s.regions p {}).state = 0)

/-- R47, R67-R69, R127, R145, R160, R164, R396: a step that has an issue slot runs the instruction at the PC: the first word of
the fetch buffer, else the word in the bank. It executes on a state that differs from the one before in what issuing itself
changes only. A word that is refused costs its owner nothing; a parked word executes again as it was. Beyond the banks FETCH, a
poisoned word POISON, a word that is no instruction ILL with the SUB of R68, a supervisor instruction of another owner PRIV: none
of these executes. Without an issue slot the step is the next event of the schedule, after the clks it waits for (log 1), or in one of
them the issue slot of a core in which a frame issues, which no clk passes over. At its end a step changes nothing but the Ready age of
frames that have become Ready, or are so no more, and which owners are to enter or leave the fused state. -/
def Obligations.StepRunsDecoded : Prop := ∀ s0 : State,
  let s : State := { s0 with issuing := false }
  let f := curFrame s
  let taken := match buffered s with
    | some _ => setCur s { f with fbuf := f.fbuf.drop 1 }
    | none => s
  let does := fun (r : Host.Outcome State Fault Refusal) => step s0 = ended s0 r
  (∀ t : State, ended s0 (.next t) = .next (stepEnd s0 t)
    ∧ { stepEnd s0 t with cores := t.cores, rings := t.rings } = t
    ∧ (∀ c, { coreOf (stepEnd s0 t) c with frames := (coreOf t c).frames } = coreOf t c)
    ∧ (∀ r, { ringOf (stepEnd s0 t) r with leaving := (ringOf t r).leaving, entering := (ringOf t r).entering } = ringOf t r)
    ∧ (∀ c g, let y := frameOf t c g
        let z := frameOf (stepEnd s0 t) c g
        { z with since := 0, gatedFor := 0, readyFor := 0 } = { y with since := 0, gatedFor := 0, readyFor := 0 }
        ∧ (frameReady t c g = frameReady s0 c g → z = y)
        ∧ (frameReady t c g = true → frameReady s0 c g = false → z = { y with since := t.clk, gatedFor := 0 })
        ∧ (frameReady t c g = false → frameReady s0 c g = true → y.st = .active →
            z = { y with readyFor := readyWait t c g, since := t.clk, gatedFor := 0 })))
  ∧ (s0.issuing = true → f.again = false →
    (fetchLoc s s.cur.1 (curOwner s) (curPc s) = none → does (commit s (trap s 0x04 0 (curPc s))))
    ∧ (∀ a, fetchLoc s s.cur.1 (curOwner s) (curPc s) = some a →
      (buffered s = none → poisoned s a = true → does (commit s (trap s 0x08 0 (curPc s))))
      ∧ (∀ w, buffered s = some w ∨ (buffered s = none ∧ poisoned s a = false ∧ w = fetchWord s a) →
        let u := issueWord taken w
        (∀ e, decodeWord w = .error e → does (commit s (trap u 0x01 (rejectSub e) (w.setWidth 64))))
        ∧ (∀ i, decodeWord w = .ok i →
          (supervisorOnly i = true → curOwner s ≠ 0 → does (commit s (trap u 0x02 0 (w.setWidth 64))))
          ∧ (supervisorOnly i = false ∨ curOwner s = 0 →
            let v := charge (learnRegs u w) (curOwner s) 1
            does (exec i v) ∧ (curFrame v).word = w ∧ curPc v = curPc s ∧ curOwner v = curOwner s ∧ v.cur = s.cur
              ∧ v.issuing = false ∧ v.mem = s.mem ∧ v.wbuf = s.wbuf ∧ v.clk = s.clk ∧ v.net = s.net ∧ v.log = s.log
              ∧ (∀ r, rd v r = rd s r) ∧ (∀ c g, (c, g) ≠ s.cur → frameOf v c g = frameOf s c g)
              ∧ ∀ k, (ctxOf v k).queue = (ctxOf s k).queue)))))
  ∧ (s0.issuing = true → f.again = true → ∀ i, decodeWord f.word = .ok i → supervisorOnly i = false ∨ curOwner s = 0 →
      does (exec i (learnRegs (reissueWord s) f.word)) ∧ curPc (learnRegs (reissueWord s) f.word) = curPc s)
  ∧ (s0.issuing = false → ∀ x r, s0.agenda = x :: r → x.ev.isWord = false →
      let t := passed { s0 with agenda := r } x.advance
      let left := s0.clk + x.advance - t.clk
      (left = 0 ∨ dueCore t = none → does (exec x.ev t))
      ∧ ∀ c, left ≠ 0 → dueCore t = some c → does (exec (.issueDraw c) { t with agenda := { x with advance := left } :: r }))
  ∧ (s0.wbuf = [] → passed s0 0 = s0)
  ∧ (s0.issuing = false → s0.agenda = [] → ∃ t, step s0 = .next t)

/-- R82, R237-R252, R256, R350-R363: the tree's instructions and the events of the caches complete in plain states. With its
release over, `cnode` under the root makes a live node; `cmove` gives a node its new parent; `cdrop` deletes a node without
child or tile; `cenr` and `cdrop` of one tile enrol and remove it; `csettle`, once it has waited, and `cread` owe the node's
words. A fill makes the copy, a sector fill the sector; a probe and an expiry leave no copy; a sweep moves a line and ends;
the fused state follows what is wanted; an error poisons; a roll-up step counts. R130, R367, R382-R386: a table, bank map,
gate or core table that takes a value reads back as that value; a record is built whatever its image's reserved bits hold (log 48, the model's reading). -/
def Obligations.TreeCachesAndTablesComplete : Prop := ∀ (s : State) (d a b : Reg) (o i r : Nat) (v : BitVec 64),
  o < 4096 → i < 256 → r < 384 →
  let x := rd s a
  let y := rd s b
  let me := curOwner s
  let n := x.toNat
  let go := (curFrame s).granted = true ∨ releasable s (curCtx s) (releaseAfter s).1 (releaseAfter s).2 [] [] = true
  let owes := fun (j : Instr) (w : Word) => ∃ t, exec j s = .next t ∧ ∃ z ∈ (curFrame t).owed, z.val = some w
  (∀ m, go → n = 0 → s.nodeBase ≠ 0 → nodesHeld s me < (ownerOf s me).nodeQuota → freeNode s = some m →
    ∃ t, exec (.cnode d a) s = .next t ∧ (nodeOf t m).live = true ∧ (nodeOf t m).owner = me)
  ∧ (go → n < 2 ^ 16 → y = 0 → ownNode s me n = true → (nodeOf s n).parent ≠ 0 → (nodeOf s n).height ≤ 15 →
    ∃ t, exec (.cmove d a b) s = .next t ∧ (nodeOf t n).parent = 0)
  ∧ (go → n < 2 ^ 16 → y = 0 → ownNode s me n = true → (nodeOf s n).children = 0 → (nodeOf s n).tiles = 0 →
    ∃ t, exec (.cdrop d a b) s = .next t ∧ (nodeOf t n).live = false)
  ∧ (∀ pa z, let m := bits x 15 0
    let t0 := pa / 4096
    go → ownNode s me m = true → bits x 47 32 = 1 → bits x 31 16 = 0 → bits x 63 49 = 0 → y.toNat % 4096 = 0 →
    (bit x 48 = false → tileWhere s y true = .mem pa z → tileOf s t0 = none → tileAllowed s t0 z = true →
      tileEntryRoom s (tileRing s t0) = true → ∃ t, exec (.cenr d a b) s = .next t ∧ tileOf t t0 = some (m, 0))
    ∧ (∀ c, bit x 48 = true → tileWhere s y false = .mem pa z → tileOf s t0 = some (m, c) →
      ∃ t, exec (.cdrop d a b) s = .next t ∧ tileOf t t0 = none))
  ∧ (n < 2 ^ 16 → ownNode s me n = true →
    ((curFrame s).granted = true → owes (.csettle d a) (word (nodeOf s n).count))
    ∧ (y.toNat < 3 → owes (.cread d a b) (nodeWord (nodeOf s n) y.toNat)))
  ∧ (∀ m ids, (∃ z ∈ s.bumps, z.id ∈ ids ∧ m ∈ z.chain) → (nodeOf s m).live = true →
    ∃ t, exec (.rollupStep m ids) s = .next t ∧ (nodeOf t m).count = ((nodeOf s m).count + 1) % 2 ^ 64)
  ∧ (∀ core pa z, railSlot s 2 = true → (∀ q ∈ s.reads, ctxOwner q.ctx ≠ o) → (∀ q ∈ s.prefetches, q.owner ≠ o) → pageOf s o pa = some z → mayCopy s core o pa z.treat = true →
    (z.treat % 4 ≠ 1 → sectorPresent s pa = true) →
    (∀ l ∈ (coreOf s (l1Core s core o pa)).l1, l.pa / 64 % 64 ≠ pa / 64 % 64) →
    (l1Victim s (l1Core s core o pa) o (pa / 64 % 64)).isSome = true → (∀ l ∈ locsFrom (pa / 64 * 64) 64, lastSettled s l ∈ writeSet s l) →
    ∃ t, exec (.fill core o pa []) s = .next t ∧ (l1Line t core o pa (z.treat % 4)).isSome = true)
  ∧ (∀ pa q j w, q ∈ accessesTo s o pa → standsAt s q.1 = false → isDram pa = true → railSlot s 2 = true →
    findWay s (homeRing s pa) (pa / 256) = some (j, w) → NMap.find (ringOf s (homeRing s pa)).ways j = some w →
    ∃ t v, exec (.sectorFill o pa) s = .next t ∧ NMap.find (ringOf t (homeRing s pa)).ways j = some v ∧ v.line = w.line
      ∧ ∃ x ∈ v.sectors, x.1 = pa / 64 % 4)
  ∧ (∀ pa, railSlot s 2 = true → findWay s (homeRing s pa) (pa / 256) = none → ∃ t, exec (.probe pa (some o)) s = .next t
    ∧ ∀ p ∈ s.cores, ∀ l ∈ (coreOf t p.1).l1, probeHits (pa / 256) (some o) l = false)
  ∧ (∀ core k l, (coreOf s core).l1[k]? = some l → l1Live s l = false → ∃ t, exec (.leaseExpiry core k) s = .next t
    ∧ ∀ z ∈ (coreOf t core).l1, ¬(z.owner = l.owner ∧ z.pa = l.pa ∧ z.treat = 1))
  ∧ (∀ set way w, NMap.find (ringOf s r).ways (set * 16 + way) = some w → way < 16 → oldLine s o w = true → newSet s o r w.line = set → railSlot s 2 = true →
    ∃ t, exec (.sweepMove o r set way) s = .next t
      ∧ NMap.find (ringOf t r).ways (set * 16 + way) = some { w with ebit := (ownerOf s o).ebit })
  ∧ ((ownerOf s o).sweep = true → (∀ p ∈ s.rings, ∀ w ∈ p.2.ways, oldLine s o w.2 = false) →
    ∃ t, exec (.sweepEnd o) s = .next t ∧ (ownerOf t o).sweep = false)
  ∧ ((ringOf s r).leaving.contains o = false → (ringOf s r).entering.contains o = false → ∃ t, exec (.fusedL1Transition o r) s = .next t ∧ (NMap.find (ringOf t r).fused o).isSome = fusedWanted s o r)
  ∧ (∀ loc, isDram loc = true → ∃ t, exec (.memoryEccError loc true) s = .next t ∧ poisoned t loc = true)
  ∧ (let m := v.toNat
     let w := ownerOf s o
     let reads := fun (j : Instr) (cls kind id inst : Nat) (z : Word) => ∃ t, exec j s = .next t ∧ tableRead t cls kind id inst = z
     let others := sumNat (s.owners.map fun p => if p.1 = o then 0 else NMap.get p.2.quotas r 0)
     (m < 32 → w.live = true → others + m ≤ 16 → reads (.wayQuota o r v) 0x02 1 o r v)
     ∧ (∀ c, slotClass c = true → m < 256 →
         (weightSum s c (some i) none ≤ m → reads (.interfaceWeight i c v) c 0 i 0 v)
         ∧ (w.live = true → weightSum s c (some w.iface) (some o) + m ≤ NMap.get (ifaceOf s w.iface).weights c 0 →
             weightSum s c none (some o) + m ≤ 256 → reads (.ownerWeight o c v) c 1 o 0 v))
     ∧ (r < 16 → m % 2 ^ 34 = 0 → m < 2 ^ 56 → reads (.peerWindowBase r v) 0x0A 2 0 r v)
     ∧ (o ≠ 0 → w.live = false → reads (.ownerCreate o i) 0x0E 1 o 0 (word (1 + i * 2 ^ 8)))
     ∧ (o ≠ 0 → ownerBanked s o = false → (∀ c ∈ s.ctxs, ctxOwner c.1 = o → c.2.runq = []) →
         (∀ p ∈ s.ifaces, ∀ q ∈ p.2.records, q.2.state = .running → q.2.owner ≠ o) → reads (.ownerDestroy o) 0x0E 1 o 0 0)
     ∧ (ownerBanked s o = false → w.sweep = false → reads (.ownerKey o v) 0x0F 1 o 0 v)
     ∧ (m < 2 ^ 17 → bits v 8 0 ≤ 256 → bits v 16 9 ≠ 0 → reads (.bucket o v) 0x10 1 o 0 v)
     ∧ (m < 2 ^ 16 → reads (.nodeQuota o v) 0x11 1 o 0 v)
     ∧ (m % 4096 = 0 → m < Config.dramEnd → reads (.shadowTableRoot o v) 0x12 1 o 0 v)
     ∧ (m / 64 * 64 < Config.dramEnd → reads (.faultDescriptor o v) 0x13 1 o 0 v)
     ∧ (bits v 63 36 = 0 → 1 ≤ bits v 35 32 → bits v 35 32 ≤ 8 → 8192 * bits v 35 32 ≤ bits v 31 0 → reads (.quantum i v) 0x14 0 i 0 v)
     ∧ ((ringOf s r).part = none → reads (.partition i r 1) 0x15 0 i r 1)
     ∧ (∀ k, k < 1024 → (recOf s i k).state ≠ .running →
         reads (.recordFree i k) 0x16 0 i k (word ((recOf s i k).image * 2 ^ 8))
         ∧ (bits v 63 56 = 0 → bits v 7 0 = 0 → bits v 55 8 * 2 ^ 8 + 256 ≤ Config.dramEnd →
             imageOk ((upto 32).map fun j => rdNat s (bits v 55 8 * 2 ^ 8 + 8 * j) 8) = true → reads (.recordBuild i k v) 0x16 0 i k (v + 1)))
     ∧ reads (.sharingKey i v) 0x17 2 0 i v
     ∧ ((∀ p ∈ s.nodes, p.2.live = false) → m % 2 ^ 22 = 0 → m < Config.dramEnd → reads (.nodeStoreBase v) 0x19 2 0 0 v)
     ∧ reads (.absentProbeClear r 0) 0x1A 2 0 r 0
     ∧ (m < 2 ^ 16 → reads (.slowDownLinkMask v) 0x1B 2 0 0 v)
     ∧ reads (.ectrClear o 0) 0x1D 1 o 0 0)
  ∧ (∀ core, let e := bits v 14 12
     let z := NMap.get (coreOf s core).banks e {}
     (∃ t, exec (.gateWrite core v) s = .next t ∧ (coreOf t core).gate = v.setWidth 8)
     ∧ (∃ t, exec (.bankmapSelect core v) s = .next t ∧ (coreOf t core).bsel = e)
     ∧ (bit v 18 = false → bit v 15 = true → z.valid = false → z.clean = true → (banksOf s core (bits v 11 0)).length < bankLimit s (bits v 11 0) →
         physCore s core < 6144 → ∃ t, exec (.bankmapWrite core v) s = .next t ∧ bits (bankWord t core e) 16 0 = bits v 15 0 + 2 ^ 16)
     ∧ ((coreOf s core).ctsel < 6144 → coreHasBank s (coreOf s core).ctsel = false → bits v 12 0 < 6144 →
         mappedElsewhere s (coreOf s core).ctsel (bits v 12 0) = false →
         ∃ t, exec (.ctdatWrite core v) s = .next t ∧ readCtdat t core = bits v 12 0))

/-- R47-R49, R58-R66: words of every form, field by field from the spec's tables: A, I with its splits, B, J, U, M, H and C.
Each decodes to the instruction it stands for; the word of zeros, a word of an unassigned major, and words with an
unassigned selector, a reserved field, an operand beyond its limit or an undefined special register are refused with the
SUB of R68. -/
def Obligations.SampleWords : Prop :=
  decodeWord (0b000001#6 ++ 0b00011#5 ++ 0b00100#5 ++ 0b00101#5 ++ 0b00000000001#11) = .ok (.sub 3 4 5)
  ∧ decodeWord (0b000010#6 ++ 0b11111#5 ++ 0b00001#5 ++ 0b00010#5 ++ 0b00000000110#11) = .ok (.rem 31 1 2)
  ∧ decodeWord (0b000011#6 ++ 0b00001#5 ++ 0b00010#5 ++ 0b1111111111111111#16) = .ok (.addi 1 2 (-1))
  ∧ decodeWord (0b001001#6 ++ 0b00001#5 ++ 0b00010#5 ++ 0b00000010#8 ++ 0b00#2 ++ 0b111111#6) = .ok (.srai 1 2 63)
  ∧ decodeWord (0b001010#6 ++ 0b00111#5 ++ 0b01000#5 ++ 0b000#3 ++ 0b1#1 ++ 0b001000#6 ++ 0b000111#6) = .ok (.bfxs 7 8 8 7)
  ∧ decodeWord (0b001100#6 ++ 0b01001#5 ++ 0b100000000000000000001#21) = .ok (.ldhi 9 0x100001)
  ∧ decodeWord (0b001110#6 ++ 0b00001#5 ++ 0b00010#5 ++ 0b00011#5 ++ 0b000011#6 ++ 0b00010#5) = .ok (.ffma 1 2 3 .bf16)
  ∧ decodeWord (0b001111#6 ++ 0b00001#5 ++ 0b00010#5 ++ 0b00011#5 ++ 0b000100#6 ++ 0b00001#5) = .ok (.fcvti 1 2 .n64 .f32)
  ∧ decodeWord (0b010011#6 ++ 0b00110#5 ++ 0b00111#5 ++ 0b1111111111111110#16) = .ok (.blt 6 7 (-2))
  ∧ decodeWord (0b011011#6 ++ 0b11111111111111111111111111#26) = .ok (.jal (-1))
  ∧ decodeWord (0b011100#6 ++ 0b00000#5 ++ 0b00000#5 ++ 0b00000#5 ++ 0b00000000010#11) = .ok .done
  ∧ decodeWord (0b011101#6 ++ 0b00100#5 ++ 0b00101#5 ++ 0b111#3 ++ 0b10#2 ++ 0b11111111000#11) = .ok (.ldQ 4 5 .acq (-8))
  ∧ decodeWord (0b011110#6 ++ 0b00100#5 ++ 0b00101#5 ++ 0b010#3 ++ 0b01#2 ++ 0b00000000010#11) = .ok (.stH 4 5 .strong 2)
  ∧ decodeWord (0b100000#6 ++ 0b00000#5 ++ 0b00101#5 ++ 0b00110#5 ++ 0b00110#5 ++ 0b101#3 ++ 0b1#1 ++ 0b10#2)
      = .ok (.amoSwap 0 5 6 .p32 true .rel)
  ∧ decodeWord (0b100011#6 ++ 0b00011#5 ++ 0b1010#4 ++ 0b100001#6 ++ 0b00000000001#11) = .ok (.hwait 3 10 33)
  ∧ decodeWord (0b100111#6 ++ 0b00000#5 ++ 0b00000#5 ++ 0b00000#5 ++ 0b010#3 ++ 0b00000#5 ++ 0b101#3) = .ok (.fenceSt .sys)
  ∧ decodeWord (0b101000#6 ++ 0b00001#5 ++ 0b00010#5 ++ 0b00011#5 ++ 0b001010#6 ++ 0b01000#5) = .ok (.vsel 1 2 3 .n8)
  ∧ decodeWord (0b101010#6 ++ 0b00001#5 ++ 0b00010#5 ++ 0b00011#5 ++ 0b00000000111#11) = .ok (.cpst 1 2 3)
  ∧ decodeWord (0b101100#6 ++ 0b00001#5 ++ 0b00010#5 ++ 0b00011#5 ++ 0b00000000011#11) = .ok (.ictr 1 2 3)
  ∧ decodeWord (0b111001#6 ++ 0b00000#5 ++ 0b00100#5 ++ 0b0000000100001010#16) = .ok (.mts 4 0x10A)
  ∧ decodeWord (0b111010#6 ++ 0b00001#5 ++ 0b00010#5 ++ 0b00011#5 ++ 0b00000000111#11) = .ok (.ctxsave 1 2 3)
  ∧ (∃ e, decodeWord 0#32 = .error e ∧ rejectSub e = 1)
  ∧ (∃ e, decodeWord (0b111111#6 ++ 0#26) = .error e ∧ rejectSub e = 1)
  ∧ (∃ e, decodeWord (0b000001#6 ++ 0#15 ++ 0b00000100010#11) = .error e ∧ rejectSub e = 2)
  ∧ (∃ e, decodeWord (0b000001#6 ++ 0#5 ++ 0#5 ++ 0b00001#5 ++ 0b00000011001#11) = .error e ∧ rejectSub e = 3)
  ∧ (∃ e, decodeWord (0b001010#6 ++ 0#10 ++ 0b0000#4 ++ 0b111111#6 ++ 0b000001#6) = .error e ∧ rejectSub e = 4)
  ∧ (∃ e, decodeWord (0b111000#6 ++ 0#10 ++ 0b0000000000001111#16) = .error e ∧ rejectSub e = 5)
end

