-- ==== Sys2Proof/Laws/Maps.lean ====
section
/-! SUPPORT. Finite maps: reading a key after it, or another, has been set. -/

namespace Sys2Proof.Machine

open Sys2Proof

@[simp] theorem find_put_same {α : Type} (m : NMap α) (k : Nat) (x : α) : NMap.find (NMap.put m k x) k = some x := by
  induction m with
  | nil => simp [NMap.put, NMap.find]
  | cons p r ih =>
    obtain ⟨a, y⟩ := p
    simp only [NMap.put]
    split
    · simp [NMap.find]
    · split
      · simp [NMap.find]
      · next h => simpa [NMap.find, Ne.symm h] using ih

theorem find_put_other {α : Type} (m : NMap α) (k j : Nat) (x : α) (h : j ≠ k) :
    NMap.find (NMap.put m k x) j = NMap.find m j := by
  induction m with
  | nil => simp [NMap.put, NMap.find, h.symm]
  | cons p r ih =>
    obtain ⟨a, y⟩ := p
    simp only [NMap.put]
    split
    · simp [NMap.find, h.symm]
    · split
      · next e => subst e; simp [NMap.find, h.symm]
      · simp [NMap.find, ih]

@[simp] theorem get_put_same {α : Type} (m : NMap α) (k : Nat) (x d : α) : NMap.get (NMap.put m k x) k d = x := by
  simp [NMap.get]

theorem get_put_other {α : Type} (m : NMap α) (k j : Nat) (x d : α) (h : j ≠ k) :
    NMap.get (NMap.put m k x) j d = NMap.get m j d := by
  simp [NMap.get, find_put_other m k j x h]

/-- Reading any key after one has been set. -/
theorem get_put {α : Type} (m : NMap α) (k j : Nat) (x d : α) :
    NMap.get (NMap.put m k x) j d = if j = k then x else NMap.get m j d := by
  by_cases h : j = k
  · subst h; simp
  · simp [h, get_put_other m k j x d h]

end Sys2Proof.Machine
end

