-- ==== Sys2Proof/Laws/Memory.lean ====
section
/-! SUPPORT. Memory: every operation keeps the canonical form, a byte written is the byte read, and other bytes stay. -/

namespace Sys2Proof.Machine

open Sys2Proof

/-- What the canonical form says of a listed byte and the rest. -/
theorem memWfFrom_cons (lo : Option Nat) (x : Nat) (y : Byte) (r : List Host.Cell) :
    memWfFrom lo ((x, y) :: r) = true ↔ (∀ l, lo = some l → l < x) ∧ y ≠ 0 ∧ memWfFrom (some x) r = true := by
  cases lo <;> simp [memWfFrom, and_assoc]

/-- A form that starts above a bound starts above every lower one. -/
theorem memWfFrom_weaken {lo : Option Nat} {l : Nat} {m : List Host.Cell} (h : memWfFrom (some l) m = true)
    (hl : ∀ x, lo = some x → x ≤ l) : memWfFrom lo m = true := by
  cases m with
  | nil => rfl
  | cons p r =>
    obtain ⟨x, y⟩ := p
    rw [memWfFrom_cons] at h ⊢
    exact ⟨fun z hz => lt_of_le_of_lt (hl z hz) (h.1 l rfl), h.2⟩

/-- A byte put above the bound keeps the form. -/
theorem memPut_wfFrom (m : List Host.Cell) (lo : Option Nat) (a : Nat) (b : Byte) (h : memWfFrom lo m = true)
    (ha : ∀ x, lo = some x → x < a) : memWfFrom lo (memPut m a b) = true := by
  induction m generalizing lo with
  | nil =>
    simp only [memPut]; split
    · rfl
    · next hb => exact (memWfFrom_cons ..).2 ⟨ha, hb, rfl⟩
  | cons p r ih =>
    obtain ⟨x, y⟩ := p
    have h' := (memWfFrom_cons ..).1 h
    simp only [memPut]
    split
    · next hx =>
      split
      · exact h
      · next hb =>
        exact (memWfFrom_cons ..).2 ⟨ha, hb, (memWfFrom_cons ..).2 ⟨fun l hl => by cases hl; exact hx, h'.2⟩⟩
    · next hx =>
      split
      · next e =>
        subst e
        split
        · exact memWfFrom_weaken h'.2.2 fun z hz => (ha z hz).le
        · next hb => exact (memWfFrom_cons ..).2 ⟨ha, hb, h'.2.2⟩
      · next e =>
        exact (memWfFrom_cons ..).2 ⟨h'.1, h'.2.1, ih (some x) h'.2.2 fun z hz => by cases hz; omega⟩

/-- A write keeps the canonical form. -/
theorem memPut_wf (m : List Host.Cell) (a : Nat) (b : Byte) (h : Memory.wf m = true) : Memory.wf (memPut m a b) = true :=
  memPut_wfFrom m none a b h fun _ hx => by cases hx

/-- The writes of a step keep the canonical form. -/
theorem applyWrites_wf (m w : List Host.Cell) (h : Memory.wf m = true) : Memory.wf (applyWrites m w) = true := by
  induction w with
  | nil => exact h
  | cons p r ih => obtain ⟨a, b⟩ := p; exact memPut_wf _ a b ih

@[simp] theorem applyWrites_nil (m : List Host.Cell) : applyWrites m [] = m := rfl

/-- An address below every listed one reads 0. -/
theorem memRead_below (m : List Host.Cell) (l a : Nat) (h : memWfFrom (some l) m = true) (ha : a ≤ l) : memRead m a = 0 := by
  induction m generalizing l with
  | nil => rfl
  | cons p r ih =>
    obtain ⟨x, y⟩ := p
    rw [memWfFrom_cons] at h
    have := h.1 l rfl
    simp only [memRead, show x ≠ a by omega, if_false]
    exact ih x h.2.2 (by omega)

/-- The byte written is read back. -/
theorem memRead_memPut_same (m : List Host.Cell) (lo : Option Nat) (a : Nat) (b : Byte) (h : memWfFrom lo m = true) :
    memRead (memPut m a b) a = b := by
  induction m generalizing lo with
  | nil => simp only [memPut]; split <;> simp_all [memRead]
  | cons p r ih =>
    obtain ⟨x, y⟩ := p
    rw [memWfFrom_cons] at h
    simp only [memPut]
    split
    · next hx =>
      split
      · next hb =>
        simp only [memRead, show x ≠ a by omega, if_false]
        rw [memRead_below r x a h.2.2 (by omega), hb]
      · simp [memRead]
    · split
      · next e =>
        subst e
        split
        · next hb => rw [memRead_below r a a h.2.2 (le_refl _), hb]
        · simp [memRead]
      · next e => simpa [memRead, Ne.symm e] using ih (some x) h.2.2

/-- Other bytes stay. -/
theorem memRead_memPut_other (m : List Host.Cell) (a c : Nat) (b : Byte) (h : c ≠ a) :
    memRead (memPut m a b) c = memRead m c := by
  induction m with
  | nil => simp only [memPut]; split <;> simp [memRead, h.symm]
  | cons p r ih =>
    obtain ⟨x, y⟩ := p
    simp only [memPut]
    split
    · split <;> simp [memRead, h.symm]
    · split
      · next e => subst e; split <;> simp [memRead, h.symm]
      · simp [memRead, ih]

/-- Memory after a step's writes reads as `byteAt` did within the step. -/
theorem memRead_applyWrites (m w : List Host.Cell) (h : Memory.wf m = true) (a : Nat) :
    memRead (applyWrites m w) a = (NMap.find w a).getD (memRead m a) := by
  induction w with
  | nil => rfl
  | cons p r ih =>
    obtain ⟨x, b⟩ := p
    by_cases e : x = a
    · subst e; simp [applyWrites, NMap.find, memRead_memPut_same _ none _ _ (applyWrites_wf m r h)]
    · simp [applyWrites, NMap.find, e, memRead_memPut_other _ x a b (Ne.symm e), ih]

/-- Reset memory is canonical. -/
theorem reset_mem_wf : Memory.wf State.reset.mem = true := rfl

end Sys2Proof.Machine
end

