-- ==== Sys2Proof/Laws/State.lean ====
section
/-! SUPPORT. What each setter of a component of the state leaves alone, field by field. -/

namespace Sys2Proof.Machine

open Sys2Proof

/-! ### `setCore` -/

@[simp] theorem setCore_clk (s : State) (c : Nat) (x : CoreSt) : (setCore s c x).clk = s.clk := rfl
@[simp] theorem setCore_agenda (s : State) (c : Nat) (x : CoreSt) : (setCore s c x).agenda = s.agenda := rfl
@[simp] theorem setCore_issuing (s : State) (c : Nat) (x : CoreSt) : (setCore s c x).issuing = s.issuing := rfl
@[simp] theorem setCore_cur (s : State) (c : Nat) (x : CoreSt) : (setCore s c x).cur = s.cur := rfl
@[simp] theorem setCore_nextId (s : State) (c : Nat) (x : CoreSt) : (setCore s c x).nextId = s.nextId := rfl
@[simp] theorem setCore_free (s : State) (c : Nat) (x : CoreSt) : (setCore s c x).free = s.free := rfl
@[simp] theorem setCore_mem (s : State) (c : Nat) (x : CoreSt) : (setCore s c x).mem = s.mem := rfl
@[simp] theorem setCore_wbuf (s : State) (c : Nat) (x : CoreSt) : (setCore s c x).wbuf = s.wbuf := rfl
@[simp] theorem setCore_initMem (s : State) (c : Nat) (x : CoreSt) : (setCore s c x).initMem = s.initMem := rfl
@[simp] theorem setCore_poison (s : State) (c : Nat) (x : CoreSt) : (setCore s c x).poison = s.poison := rfl
@[simp] theorem setCore_poolMem (s : State) (c : Nat) (x : CoreSt) : (setCore s c x).poolMem = s.poolMem := rfl
@[simp] theorem setCore_hist (s : State) (c : Nat) (x : CoreSt) : (setCore s c x).hist = s.hist := rfl
@[simp] theorem setCore_log (s : State) (c : Nat) (x : CoreSt) : (setCore s c x).log = s.log := rfl
@[simp] theorem setCore_ctxs (s : State) (c : Nat) (x : CoreSt) : (setCore s c x).ctxs = s.ctxs := rfl
@[simp] theorem setCore_reads (s : State) (c : Nat) (x : CoreSt) : (setCore s c x).reads = s.reads := rfl
@[simp] theorem setCore_reqs (s : State) (c : Nat) (x : CoreSt) : (setCore s c x).reqs = s.reqs := rfl
@[simp] theorem setCore_net (s : State) (c : Nat) (x : CoreSt) : (setCore s c x).net = s.net := rfl
@[simp] theorem setCore_walks (s : State) (c : Nat) (x : CoreSt) : (setCore s c x).walks = s.walks := rfl
@[simp] theorem setCore_forks (s : State) (c : Nat) (x : CoreSt) : (setCore s c x).forks = s.forks := rfl
@[simp] theorem setCore_walked (s : State) (c : Nat) (x : CoreSt) : (setCore s c x).walked = s.walked := rfl
@[simp] theorem setCore_refusals (s : State) (c : Nat) (x : CoreSt) : (setCore s c x).refusals = s.refusals := rfl
@[simp] theorem setCore_cmds (s : State) (c : Nat) (x : CoreSt) : (setCore s c x).cmds = s.cmds := rfl
@[simp] theorem setCore_copies (s : State) (c : Nat) (x : CoreSt) : (setCore s c x).copies = s.copies := rfl
@[simp] theorem setCore_prefetches (s : State) (c : Nat) (x : CoreSt) : (setCore s c x).prefetches = s.prefetches := rfl
@[simp] theorem setCore_orphans (s : State) (c : Nat) (x : CoreSt) : (setCore s c x).orphans = s.orphans := rfl
@[simp] theorem setCore_held (s : State) (c : Nat) (x : CoreSt) : (setCore s c x).held = s.held := rfl
@[simp] theorem setCore_notices (s : State) (c : Nat) (x : CoreSt) : (setCore s c x).notices = s.notices := rfl
@[simp] theorem setCore_rings (s : State) (c : Nat) (x : CoreSt) : (setCore s c x).rings = s.rings := rfl
@[simp] theorem setCore_owners (s : State) (c : Nat) (x : CoreSt) : (setCore s c x).owners = s.owners := rfl
@[simp] theorem setCore_ifaces (s : State) (c : Nat) (x : CoreSt) : (setCore s c x).ifaces = s.ifaces := rfl
@[simp] theorem setCore_points (s : State) (c : Nat) (x : CoreSt) : (setCore s c x).points = s.points := rfl
@[simp] theorem setCore_coreTable (s : State) (c : Nat) (x : CoreSt) : (setCore s c x).coreTable = s.coreTable := rfl
@[simp] theorem setCore_dirtySpare (s : State) (c : Nat) (x : CoreSt) : (setCore s c x).dirtySpare = s.dirtySpare := rfl
@[simp] theorem setCore_wtsel (s : State) (c : Nat) (x : CoreSt) : (setCore s c x).wtsel = s.wtsel := rfl
@[simp] theorem setCore_sharingKeys (s : State) (c : Nat) (x : CoreSt) : (setCore s c x).sharingKeys = s.sharingKeys := rfl
@[simp] theorem setCore_peerBase (s : State) (c : Nat) (x : CoreSt) : (setCore s c x).peerBase = s.peerBase := rfl
@[simp] theorem setCore_nodeBase (s : State) (c : Nat) (x : CoreSt) : (setCore s c x).nodeBase = s.nodeBase := rfl
@[simp] theorem setCore_linkMask (s : State) (c : Nat) (x : CoreSt) : (setCore s c x).linkMask = s.linkMask := rfl
@[simp] theorem setCore_rails (s : State) (c : Nat) (x : CoreSt) : (setCore s c x).rails = s.rails := rfl
@[simp] theorem setCore_slotCounts (s : State) (c : Nat) (x : CoreSt) : (setCore s c x).slotCounts = s.slotCounts := rfl
@[simp] theorem setCore_key0Slots (s : State) (c : Nat) (x : CoreSt) : (setCore s c x).key0Slots = s.key0Slots := rfl
@[simp] theorem setCore_emergency (s : State) (c : Nat) (x : CoreSt) : (setCore s c x).emergency = s.emergency := rfl
@[simp] theorem setCore_slowdown (s : State) (c : Nat) (x : CoreSt) : (setCore s c x).slowdown = s.slowdown := rfl
@[simp] theorem setCore_lastNotice (s : State) (c : Nat) (x : CoreSt) : (setCore s c x).lastNotice = s.lastNotice := rfl
@[simp] theorem setCore_noticesOut (s : State) (c : Nat) (x : CoreSt) : (setCore s c x).noticesOut = s.noticesOut := rfl
@[simp] theorem setCore_linksLost (s : State) (c : Nat) (x : CoreSt) : (setCore s c x).linksLost = s.linksLost := rfl
@[simp] theorem setCore_retries (s : State) (c : Nat) (x : CoreSt) : (setCore s c x).retries = s.retries := rfl
@[simp] theorem setCore_unacked (s : State) (c : Nat) (x : CoreSt) : (setCore s c x).unacked = s.unacked := rfl
@[simp] theorem setCore_unpub (s : State) (c : Nat) (x : CoreSt) : (setCore s c x).unpub = s.unpub := rfl
@[simp] theorem setCore_exclusive (s : State) (c : Nat) (x : CoreSt) : (setCore s c x).exclusive = s.exclusive := rfl
@[simp] theorem setCore_regions (s : State) (c : Nat) (x : CoreSt) : (setCore s c x).regions = s.regions := rfl
@[simp] theorem setCore_portsLost (s : State) (c : Nat) (x : CoreSt) : (setCore s c x).portsLost = s.portsLost := rfl
@[simp] theorem setCore_birq (s : State) (c : Nat) (x : CoreSt) : (setCore s c x).birq = s.birq := rfl
@[simp] theorem setCore_birsp (s : State) (c : Nat) (x : CoreSt) : (setCore s c x).birsp = s.birsp := rfl
@[simp] theorem setCore_hostLines (s : State) (c : Nat) (x : CoreSt) : (setCore s c x).hostLines = s.hostLines := rfl
@[simp] theorem setCore_bisnp (s : State) (c : Nat) (x : CoreSt) : (setCore s c x).bisnp = s.bisnp := rfl
@[simp] theorem setCore_nodes (s : State) (c : Nat) (x : CoreSt) : (setCore s c x).nodes = s.nodes := rfl
@[simp] theorem setCore_bumps (s : State) (c : Nat) (x : CoreSt) : (setCore s c x).bumps = s.bumps := rfl
@[simp] theorem setCore_images (s : State) (c : Nat) (x : CoreSt) : (setCore s c x).images = s.images := rfl
@[simp] theorem setCore_msix (s : State) (c : Nat) (x : CoreSt) : (setCore s c x).msix = s.msix := rfl
@[simp] theorem setCore_boot (s : State) (c : Nat) (x : CoreSt) : (setCore s c x).boot = s.boot := rfl
@[simp] theorem setCore_bootFail (s : State) (c : Nat) (x : CoreSt) : (setCore s c x).bootFail = s.bootFail := rfl
@[simp] theorem setCore_vfEnabled (s : State) (c : Nat) (x : CoreSt) : (setCore s c x).vfEnabled = s.vfEnabled := rfl
@[simp] theorem setCore_lastStatic (s : State) (c : Nat) (x : CoreSt) : (setCore s c x).lastStatic = s.lastStatic := rfl

/-! ### `setFrame` -/

@[simp] theorem setFrame_clk (s : State) (c f : Nat) (x : Frame) : (setFrame s c f x).clk = s.clk := rfl
@[simp] theorem setFrame_agenda (s : State) (c f : Nat) (x : Frame) : (setFrame s c f x).agenda = s.agenda := rfl
@[simp] theorem setFrame_issuing (s : State) (c f : Nat) (x : Frame) : (setFrame s c f x).issuing = s.issuing := rfl
@[simp] theorem setFrame_cur (s : State) (c f : Nat) (x : Frame) : (setFrame s c f x).cur = s.cur := rfl
@[simp] theorem setFrame_nextId (s : State) (c f : Nat) (x : Frame) : (setFrame s c f x).nextId = s.nextId := rfl
@[simp] theorem setFrame_free (s : State) (c f : Nat) (x : Frame) : (setFrame s c f x).free = s.free := rfl
@[simp] theorem setFrame_mem (s : State) (c f : Nat) (x : Frame) : (setFrame s c f x).mem = s.mem := rfl
@[simp] theorem setFrame_wbuf (s : State) (c f : Nat) (x : Frame) : (setFrame s c f x).wbuf = s.wbuf := rfl
@[simp] theorem setFrame_initMem (s : State) (c f : Nat) (x : Frame) : (setFrame s c f x).initMem = s.initMem := rfl
@[simp] theorem setFrame_poison (s : State) (c f : Nat) (x : Frame) : (setFrame s c f x).poison = s.poison := rfl
@[simp] theorem setFrame_poolMem (s : State) (c f : Nat) (x : Frame) : (setFrame s c f x).poolMem = s.poolMem := rfl
@[simp] theorem setFrame_hist (s : State) (c f : Nat) (x : Frame) : (setFrame s c f x).hist = s.hist := rfl
@[simp] theorem setFrame_log (s : State) (c f : Nat) (x : Frame) : (setFrame s c f x).log = s.log := rfl
@[simp] theorem setFrame_ctxs (s : State) (c f : Nat) (x : Frame) : (setFrame s c f x).ctxs = s.ctxs := rfl
@[simp] theorem setFrame_reads (s : State) (c f : Nat) (x : Frame) : (setFrame s c f x).reads = s.reads := rfl
@[simp] theorem setFrame_reqs (s : State) (c f : Nat) (x : Frame) : (setFrame s c f x).reqs = s.reqs := rfl
@[simp] theorem setFrame_net (s : State) (c f : Nat) (x : Frame) : (setFrame s c f x).net = s.net := rfl
@[simp] theorem setFrame_walks (s : State) (c f : Nat) (x : Frame) : (setFrame s c f x).walks = s.walks := rfl
@[simp] theorem setFrame_forks (s : State) (c f : Nat) (x : Frame) : (setFrame s c f x).forks = s.forks := rfl
@[simp] theorem setFrame_walked (s : State) (c f : Nat) (x : Frame) : (setFrame s c f x).walked = s.walked := rfl
@[simp] theorem setFrame_refusals (s : State) (c f : Nat) (x : Frame) : (setFrame s c f x).refusals = s.refusals := rfl
@[simp] theorem setFrame_cmds (s : State) (c f : Nat) (x : Frame) : (setFrame s c f x).cmds = s.cmds := rfl
@[simp] theorem setFrame_copies (s : State) (c f : Nat) (x : Frame) : (setFrame s c f x).copies = s.copies := rfl
@[simp] theorem setFrame_prefetches (s : State) (c f : Nat) (x : Frame) : (setFrame s c f x).prefetches = s.prefetches := rfl
@[simp] theorem setFrame_orphans (s : State) (c f : Nat) (x : Frame) : (setFrame s c f x).orphans = s.orphans := rfl
@[simp] theorem setFrame_held (s : State) (c f : Nat) (x : Frame) : (setFrame s c f x).held = s.held := rfl
@[simp] theorem setFrame_notices (s : State) (c f : Nat) (x : Frame) : (setFrame s c f x).notices = s.notices := rfl
@[simp] theorem setFrame_rings (s : State) (c f : Nat) (x : Frame) : (setFrame s c f x).rings = s.rings := rfl
@[simp] theorem setFrame_owners (s : State) (c f : Nat) (x : Frame) : (setFrame s c f x).owners = s.owners := rfl
@[simp] theorem setFrame_ifaces (s : State) (c f : Nat) (x : Frame) : (setFrame s c f x).ifaces = s.ifaces := rfl
@[simp] theorem setFrame_points (s : State) (c f : Nat) (x : Frame) : (setFrame s c f x).points = s.points := rfl
@[simp] theorem setFrame_coreTable (s : State) (c f : Nat) (x : Frame) : (setFrame s c f x).coreTable = s.coreTable := rfl
@[simp] theorem setFrame_dirtySpare (s : State) (c f : Nat) (x : Frame) : (setFrame s c f x).dirtySpare = s.dirtySpare := rfl
@[simp] theorem setFrame_wtsel (s : State) (c f : Nat) (x : Frame) : (setFrame s c f x).wtsel = s.wtsel := rfl
@[simp] theorem setFrame_sharingKeys (s : State) (c f : Nat) (x : Frame) : (setFrame s c f x).sharingKeys = s.sharingKeys := rfl
@[simp] theorem setFrame_peerBase (s : State) (c f : Nat) (x : Frame) : (setFrame s c f x).peerBase = s.peerBase := rfl
@[simp] theorem setFrame_nodeBase (s : State) (c f : Nat) (x : Frame) : (setFrame s c f x).nodeBase = s.nodeBase := rfl
@[simp] theorem setFrame_linkMask (s : State) (c f : Nat) (x : Frame) : (setFrame s c f x).linkMask = s.linkMask := rfl
@[simp] theorem setFrame_rails (s : State) (c f : Nat) (x : Frame) : (setFrame s c f x).rails = s.rails := rfl
@[simp] theorem setFrame_slotCounts (s : State) (c f : Nat) (x : Frame) : (setFrame s c f x).slotCounts = s.slotCounts := rfl
@[simp] theorem setFrame_key0Slots (s : State) (c f : Nat) (x : Frame) : (setFrame s c f x).key0Slots = s.key0Slots := rfl
@[simp] theorem setFrame_emergency (s : State) (c f : Nat) (x : Frame) : (setFrame s c f x).emergency = s.emergency := rfl
@[simp] theorem setFrame_slowdown (s : State) (c f : Nat) (x : Frame) : (setFrame s c f x).slowdown = s.slowdown := rfl
@[simp] theorem setFrame_lastNotice (s : State) (c f : Nat) (x : Frame) : (setFrame s c f x).lastNotice = s.lastNotice := rfl
@[simp] theorem setFrame_noticesOut (s : State) (c f : Nat) (x : Frame) : (setFrame s c f x).noticesOut = s.noticesOut := rfl
@[simp] theorem setFrame_linksLost (s : State) (c f : Nat) (x : Frame) : (setFrame s c f x).linksLost = s.linksLost := rfl
@[simp] theorem setFrame_retries (s : State) (c f : Nat) (x : Frame) : (setFrame s c f x).retries = s.retries := rfl
@[simp] theorem setFrame_unacked (s : State) (c f : Nat) (x : Frame) : (setFrame s c f x).unacked = s.unacked := rfl
@[simp] theorem setFrame_unpub (s : State) (c f : Nat) (x : Frame) : (setFrame s c f x).unpub = s.unpub := rfl
@[simp] theorem setFrame_exclusive (s : State) (c f : Nat) (x : Frame) : (setFrame s c f x).exclusive = s.exclusive := rfl
@[simp] theorem setFrame_regions (s : State) (c f : Nat) (x : Frame) : (setFrame s c f x).regions = s.regions := rfl
@[simp] theorem setFrame_portsLost (s : State) (c f : Nat) (x : Frame) : (setFrame s c f x).portsLost = s.portsLost := rfl
@[simp] theorem setFrame_birq (s : State) (c f : Nat) (x : Frame) : (setFrame s c f x).birq = s.birq := rfl
@[simp] theorem setFrame_birsp (s : State) (c f : Nat) (x : Frame) : (setFrame s c f x).birsp = s.birsp := rfl
@[simp] theorem setFrame_hostLines (s : State) (c f : Nat) (x : Frame) : (setFrame s c f x).hostLines = s.hostLines := rfl
@[simp] theorem setFrame_bisnp (s : State) (c f : Nat) (x : Frame) : (setFrame s c f x).bisnp = s.bisnp := rfl
@[simp] theorem setFrame_nodes (s : State) (c f : Nat) (x : Frame) : (setFrame s c f x).nodes = s.nodes := rfl
@[simp] theorem setFrame_bumps (s : State) (c f : Nat) (x : Frame) : (setFrame s c f x).bumps = s.bumps := rfl
@[simp] theorem setFrame_images (s : State) (c f : Nat) (x : Frame) : (setFrame s c f x).images = s.images := rfl
@[simp] theorem setFrame_msix (s : State) (c f : Nat) (x : Frame) : (setFrame s c f x).msix = s.msix := rfl
@[simp] theorem setFrame_boot (s : State) (c f : Nat) (x : Frame) : (setFrame s c f x).boot = s.boot := rfl
@[simp] theorem setFrame_bootFail (s : State) (c f : Nat) (x : Frame) : (setFrame s c f x).bootFail = s.bootFail := rfl
@[simp] theorem setFrame_vfEnabled (s : State) (c f : Nat) (x : Frame) : (setFrame s c f x).vfEnabled = s.vfEnabled := rfl
@[simp] theorem setFrame_lastStatic (s : State) (c f : Nat) (x : Frame) : (setFrame s c f x).lastStatic = s.lastStatic := rfl

/-! ### `setCtx` -/

@[simp] theorem setCtx_clk (s : State) (k : Nat) (x : Ctx) : (setCtx s k x).clk = s.clk := rfl
@[simp] theorem setCtx_agenda (s : State) (k : Nat) (x : Ctx) : (setCtx s k x).agenda = s.agenda := rfl
@[simp] theorem setCtx_issuing (s : State) (k : Nat) (x : Ctx) : (setCtx s k x).issuing = s.issuing := rfl
@[simp] theorem setCtx_cur (s : State) (k : Nat) (x : Ctx) : (setCtx s k x).cur = s.cur := rfl
@[simp] theorem setCtx_nextId (s : State) (k : Nat) (x : Ctx) : (setCtx s k x).nextId = s.nextId := rfl
@[simp] theorem setCtx_free (s : State) (k : Nat) (x : Ctx) : (setCtx s k x).free = s.free := rfl
@[simp] theorem setCtx_mem (s : State) (k : Nat) (x : Ctx) : (setCtx s k x).mem = s.mem := rfl
@[simp] theorem setCtx_wbuf (s : State) (k : Nat) (x : Ctx) : (setCtx s k x).wbuf = s.wbuf := rfl
@[simp] theorem setCtx_initMem (s : State) (k : Nat) (x : Ctx) : (setCtx s k x).initMem = s.initMem := rfl
@[simp] theorem setCtx_poison (s : State) (k : Nat) (x : Ctx) : (setCtx s k x).poison = s.poison := rfl
@[simp] theorem setCtx_poolMem (s : State) (k : Nat) (x : Ctx) : (setCtx s k x).poolMem = s.poolMem := rfl
@[simp] theorem setCtx_hist (s : State) (k : Nat) (x : Ctx) : (setCtx s k x).hist = s.hist := rfl
@[simp] theorem setCtx_log (s : State) (k : Nat) (x : Ctx) : (setCtx s k x).log = s.log := rfl
@[simp] theorem setCtx_reads (s : State) (k : Nat) (x : Ctx) : (setCtx s k x).reads = s.reads := rfl
@[simp] theorem setCtx_reqs (s : State) (k : Nat) (x : Ctx) : (setCtx s k x).reqs = s.reqs := rfl
@[simp] theorem setCtx_net (s : State) (k : Nat) (x : Ctx) : (setCtx s k x).net = s.net := rfl
@[simp] theorem setCtx_walks (s : State) (k : Nat) (x : Ctx) : (setCtx s k x).walks = s.walks := rfl
@[simp] theorem setCtx_forks (s : State) (k : Nat) (x : Ctx) : (setCtx s k x).forks = s.forks := rfl
@[simp] theorem setCtx_walked (s : State) (k : Nat) (x : Ctx) : (setCtx s k x).walked = s.walked := rfl
@[simp] theorem setCtx_refusals (s : State) (k : Nat) (x : Ctx) : (setCtx s k x).refusals = s.refusals := rfl
@[simp] theorem setCtx_cmds (s : State) (k : Nat) (x : Ctx) : (setCtx s k x).cmds = s.cmds := rfl
@[simp] theorem setCtx_copies (s : State) (k : Nat) (x : Ctx) : (setCtx s k x).copies = s.copies := rfl
@[simp] theorem setCtx_prefetches (s : State) (k : Nat) (x : Ctx) : (setCtx s k x).prefetches = s.prefetches := rfl
@[simp] theorem setCtx_orphans (s : State) (k : Nat) (x : Ctx) : (setCtx s k x).orphans = s.orphans := rfl
@[simp] theorem setCtx_held (s : State) (k : Nat) (x : Ctx) : (setCtx s k x).held = s.held := rfl
@[simp] theorem setCtx_notices (s : State) (k : Nat) (x : Ctx) : (setCtx s k x).notices = s.notices := rfl
@[simp] theorem setCtx_cores (s : State) (k : Nat) (x : Ctx) : (setCtx s k x).cores = s.cores := rfl
@[simp] theorem setCtx_rings (s : State) (k : Nat) (x : Ctx) : (setCtx s k x).rings = s.rings := rfl
@[simp] theorem setCtx_owners (s : State) (k : Nat) (x : Ctx) : (setCtx s k x).owners = s.owners := rfl
@[simp] theorem setCtx_ifaces (s : State) (k : Nat) (x : Ctx) : (setCtx s k x).ifaces = s.ifaces := rfl
@[simp] theorem setCtx_points (s : State) (k : Nat) (x : Ctx) : (setCtx s k x).points = s.points := rfl
@[simp] theorem setCtx_coreTable (s : State) (k : Nat) (x : Ctx) : (setCtx s k x).coreTable = s.coreTable := rfl
@[simp] theorem setCtx_dirtySpare (s : State) (k : Nat) (x : Ctx) : (setCtx s k x).dirtySpare = s.dirtySpare := rfl
@[simp] theorem setCtx_wtsel (s : State) (k : Nat) (x : Ctx) : (setCtx s k x).wtsel = s.wtsel := rfl
@[simp] theorem setCtx_sharingKeys (s : State) (k : Nat) (x : Ctx) : (setCtx s k x).sharingKeys = s.sharingKeys := rfl
@[simp] theorem setCtx_peerBase (s : State) (k : Nat) (x : Ctx) : (setCtx s k x).peerBase = s.peerBase := rfl
@[simp] theorem setCtx_nodeBase (s : State) (k : Nat) (x : Ctx) : (setCtx s k x).nodeBase = s.nodeBase := rfl
@[simp] theorem setCtx_linkMask (s : State) (k : Nat) (x : Ctx) : (setCtx s k x).linkMask = s.linkMask := rfl
@[simp] theorem setCtx_rails (s : State) (k : Nat) (x : Ctx) : (setCtx s k x).rails = s.rails := rfl
@[simp] theorem setCtx_slotCounts (s : State) (k : Nat) (x : Ctx) : (setCtx s k x).slotCounts = s.slotCounts := rfl
@[simp] theorem setCtx_key0Slots (s : State) (k : Nat) (x : Ctx) : (setCtx s k x).key0Slots = s.key0Slots := rfl
@[simp] theorem setCtx_emergency (s : State) (k : Nat) (x : Ctx) : (setCtx s k x).emergency = s.emergency := rfl
@[simp] theorem setCtx_slowdown (s : State) (k : Nat) (x : Ctx) : (setCtx s k x).slowdown = s.slowdown := rfl
@[simp] theorem setCtx_lastNotice (s : State) (k : Nat) (x : Ctx) : (setCtx s k x).lastNotice = s.lastNotice := rfl
@[simp] theorem setCtx_noticesOut (s : State) (k : Nat) (x : Ctx) : (setCtx s k x).noticesOut = s.noticesOut := rfl
@[simp] theorem setCtx_linksLost (s : State) (k : Nat) (x : Ctx) : (setCtx s k x).linksLost = s.linksLost := rfl
@[simp] theorem setCtx_retries (s : State) (k : Nat) (x : Ctx) : (setCtx s k x).retries = s.retries := rfl
@[simp] theorem setCtx_unacked (s : State) (k : Nat) (x : Ctx) : (setCtx s k x).unacked = s.unacked := rfl
@[simp] theorem setCtx_unpub (s : State) (k : Nat) (x : Ctx) : (setCtx s k x).unpub = s.unpub := rfl
@[simp] theorem setCtx_exclusive (s : State) (k : Nat) (x : Ctx) : (setCtx s k x).exclusive = s.exclusive := rfl
@[simp] theorem setCtx_regions (s : State) (k : Nat) (x : Ctx) : (setCtx s k x).regions = s.regions := rfl
@[simp] theorem setCtx_portsLost (s : State) (k : Nat) (x : Ctx) : (setCtx s k x).portsLost = s.portsLost := rfl
@[simp] theorem setCtx_birq (s : State) (k : Nat) (x : Ctx) : (setCtx s k x).birq = s.birq := rfl
@[simp] theorem setCtx_birsp (s : State) (k : Nat) (x : Ctx) : (setCtx s k x).birsp = s.birsp := rfl
@[simp] theorem setCtx_hostLines (s : State) (k : Nat) (x : Ctx) : (setCtx s k x).hostLines = s.hostLines := rfl
@[simp] theorem setCtx_bisnp (s : State) (k : Nat) (x : Ctx) : (setCtx s k x).bisnp = s.bisnp := rfl
@[simp] theorem setCtx_nodes (s : State) (k : Nat) (x : Ctx) : (setCtx s k x).nodes = s.nodes := rfl
@[simp] theorem setCtx_bumps (s : State) (k : Nat) (x : Ctx) : (setCtx s k x).bumps = s.bumps := rfl
@[simp] theorem setCtx_images (s : State) (k : Nat) (x : Ctx) : (setCtx s k x).images = s.images := rfl
@[simp] theorem setCtx_msix (s : State) (k : Nat) (x : Ctx) : (setCtx s k x).msix = s.msix := rfl
@[simp] theorem setCtx_boot (s : State) (k : Nat) (x : Ctx) : (setCtx s k x).boot = s.boot := rfl
@[simp] theorem setCtx_bootFail (s : State) (k : Nat) (x : Ctx) : (setCtx s k x).bootFail = s.bootFail := rfl
@[simp] theorem setCtx_vfEnabled (s : State) (k : Nat) (x : Ctx) : (setCtx s k x).vfEnabled = s.vfEnabled := rfl
@[simp] theorem setCtx_lastStatic (s : State) (k : Nat) (x : Ctx) : (setCtx s k x).lastStatic = s.lastStatic := rfl

/-! ### `setOwner` -/

@[simp] theorem setOwner_clk (s : State) (o : Nat) (x : Owner) : (setOwner s o x).clk = s.clk := rfl
@[simp] theorem setOwner_agenda (s : State) (o : Nat) (x : Owner) : (setOwner s o x).agenda = s.agenda := rfl
@[simp] theorem setOwner_issuing (s : State) (o : Nat) (x : Owner) : (setOwner s o x).issuing = s.issuing := rfl
@[simp] theorem setOwner_cur (s : State) (o : Nat) (x : Owner) : (setOwner s o x).cur = s.cur := rfl
@[simp] theorem setOwner_nextId (s : State) (o : Nat) (x : Owner) : (setOwner s o x).nextId = s.nextId := rfl
@[simp] theorem setOwner_free (s : State) (o : Nat) (x : Owner) : (setOwner s o x).free = s.free := rfl
@[simp] theorem setOwner_mem (s : State) (o : Nat) (x : Owner) : (setOwner s o x).mem = s.mem := rfl
@[simp] theorem setOwner_wbuf (s : State) (o : Nat) (x : Owner) : (setOwner s o x).wbuf = s.wbuf := rfl
@[simp] theorem setOwner_initMem (s : State) (o : Nat) (x : Owner) : (setOwner s o x).initMem = s.initMem := rfl
@[simp] theorem setOwner_poison (s : State) (o : Nat) (x : Owner) : (setOwner s o x).poison = s.poison := rfl
@[simp] theorem setOwner_poolMem (s : State) (o : Nat) (x : Owner) : (setOwner s o x).poolMem = s.poolMem := rfl
@[simp] theorem setOwner_hist (s : State) (o : Nat) (x : Owner) : (setOwner s o x).hist = s.hist := rfl
@[simp] theorem setOwner_log (s : State) (o : Nat) (x : Owner) : (setOwner s o x).log = s.log := rfl
@[simp] theorem setOwner_ctxs (s : State) (o : Nat) (x : Owner) : (setOwner s o x).ctxs = s.ctxs := rfl
@[simp] theorem setOwner_reads (s : State) (o : Nat) (x : Owner) : (setOwner s o x).reads = s.reads := rfl
@[simp] theorem setOwner_reqs (s : State) (o : Nat) (x : Owner) : (setOwner s o x).reqs = s.reqs := rfl
@[simp] theorem setOwner_net (s : State) (o : Nat) (x : Owner) : (setOwner s o x).net = s.net := rfl
@[simp] theorem setOwner_walks (s : State) (o : Nat) (x : Owner) : (setOwner s o x).walks = s.walks := rfl
@[simp] theorem setOwner_forks (s : State) (o : Nat) (x : Owner) : (setOwner s o x).forks = s.forks := rfl
@[simp] theorem setOwner_walked (s : State) (o : Nat) (x : Owner) : (setOwner s o x).walked = s.walked := rfl
@[simp] theorem setOwner_refusals (s : State) (o : Nat) (x : Owner) : (setOwner s o x).refusals = s.refusals := rfl
@[simp] theorem setOwner_cmds (s : State) (o : Nat) (x : Owner) : (setOwner s o x).cmds = s.cmds := rfl
@[simp] theorem setOwner_copies (s : State) (o : Nat) (x : Owner) : (setOwner s o x).copies = s.copies := rfl
@[simp] theorem setOwner_prefetches (s : State) (o : Nat) (x : Owner) : (setOwner s o x).prefetches = s.prefetches := rfl
@[simp] theorem setOwner_orphans (s : State) (o : Nat) (x : Owner) : (setOwner s o x).orphans = s.orphans := rfl
@[simp] theorem setOwner_held (s : State) (o : Nat) (x : Owner) : (setOwner s o x).held = s.held := rfl
@[simp] theorem setOwner_notices (s : State) (o : Nat) (x : Owner) : (setOwner s o x).notices = s.notices := rfl
@[simp] theorem setOwner_cores (s : State) (o : Nat) (x : Owner) : (setOwner s o x).cores = s.cores := rfl
@[simp] theorem setOwner_rings (s : State) (o : Nat) (x : Owner) : (setOwner s o x).rings = s.rings := rfl
@[simp] theorem setOwner_ifaces (s : State) (o : Nat) (x : Owner) : (setOwner s o x).ifaces = s.ifaces := rfl
@[simp] theorem setOwner_points (s : State) (o : Nat) (x : Owner) : (setOwner s o x).points = s.points := rfl
@[simp] theorem setOwner_coreTable (s : State) (o : Nat) (x : Owner) : (setOwner s o x).coreTable = s.coreTable := rfl
@[simp] theorem setOwner_dirtySpare (s : State) (o : Nat) (x : Owner) : (setOwner s o x).dirtySpare = s.dirtySpare := rfl
@[simp] theorem setOwner_wtsel (s : State) (o : Nat) (x : Owner) : (setOwner s o x).wtsel = s.wtsel := rfl
@[simp] theorem setOwner_sharingKeys (s : State) (o : Nat) (x : Owner) : (setOwner s o x).sharingKeys = s.sharingKeys := rfl
@[simp] theorem setOwner_peerBase (s : State) (o : Nat) (x : Owner) : (setOwner s o x).peerBase = s.peerBase := rfl
@[simp] theorem setOwner_nodeBase (s : State) (o : Nat) (x : Owner) : (setOwner s o x).nodeBase = s.nodeBase := rfl
@[simp] theorem setOwner_linkMask (s : State) (o : Nat) (x : Owner) : (setOwner s o x).linkMask = s.linkMask := rfl
@[simp] theorem setOwner_rails (s : State) (o : Nat) (x : Owner) : (setOwner s o x).rails = s.rails := rfl
@[simp] theorem setOwner_slotCounts (s : State) (o : Nat) (x : Owner) : (setOwner s o x).slotCounts = s.slotCounts := rfl
@[simp] theorem setOwner_key0Slots (s : State) (o : Nat) (x : Owner) : (setOwner s o x).key0Slots = s.key0Slots := rfl
@[simp] theorem setOwner_emergency (s : State) (o : Nat) (x : Owner) : (setOwner s o x).emergency = s.emergency := rfl
@[simp] theorem setOwner_slowdown (s : State) (o : Nat) (x : Owner) : (setOwner s o x).slowdown = s.slowdown := rfl
@[simp] theorem setOwner_lastNotice (s : State) (o : Nat) (x : Owner) : (setOwner s o x).lastNotice = s.lastNotice := rfl
@[simp] theorem setOwner_noticesOut (s : State) (o : Nat) (x : Owner) : (setOwner s o x).noticesOut = s.noticesOut := rfl
@[simp] theorem setOwner_linksLost (s : State) (o : Nat) (x : Owner) : (setOwner s o x).linksLost = s.linksLost := rfl
@[simp] theorem setOwner_retries (s : State) (o : Nat) (x : Owner) : (setOwner s o x).retries = s.retries := rfl
@[simp] theorem setOwner_unacked (s : State) (o : Nat) (x : Owner) : (setOwner s o x).unacked = s.unacked := rfl
@[simp] theorem setOwner_unpub (s : State) (o : Nat) (x : Owner) : (setOwner s o x).unpub = s.unpub := rfl
@[simp] theorem setOwner_exclusive (s : State) (o : Nat) (x : Owner) : (setOwner s o x).exclusive = s.exclusive := rfl
@[simp] theorem setOwner_regions (s : State) (o : Nat) (x : Owner) : (setOwner s o x).regions = s.regions := rfl
@[simp] theorem setOwner_portsLost (s : State) (o : Nat) (x : Owner) : (setOwner s o x).portsLost = s.portsLost := rfl
@[simp] theorem setOwner_birq (s : State) (o : Nat) (x : Owner) : (setOwner s o x).birq = s.birq := rfl
@[simp] theorem setOwner_birsp (s : State) (o : Nat) (x : Owner) : (setOwner s o x).birsp = s.birsp := rfl
@[simp] theorem setOwner_hostLines (s : State) (o : Nat) (x : Owner) : (setOwner s o x).hostLines = s.hostLines := rfl
@[simp] theorem setOwner_bisnp (s : State) (o : Nat) (x : Owner) : (setOwner s o x).bisnp = s.bisnp := rfl
@[simp] theorem setOwner_nodes (s : State) (o : Nat) (x : Owner) : (setOwner s o x).nodes = s.nodes := rfl
@[simp] theorem setOwner_bumps (s : State) (o : Nat) (x : Owner) : (setOwner s o x).bumps = s.bumps := rfl
@[simp] theorem setOwner_images (s : State) (o : Nat) (x : Owner) : (setOwner s o x).images = s.images := rfl
@[simp] theorem setOwner_msix (s : State) (o : Nat) (x : Owner) : (setOwner s o x).msix = s.msix := rfl
@[simp] theorem setOwner_boot (s : State) (o : Nat) (x : Owner) : (setOwner s o x).boot = s.boot := rfl
@[simp] theorem setOwner_bootFail (s : State) (o : Nat) (x : Owner) : (setOwner s o x).bootFail = s.bootFail := rfl
@[simp] theorem setOwner_vfEnabled (s : State) (o : Nat) (x : Owner) : (setOwner s o x).vfEnabled = s.vfEnabled := rfl
@[simp] theorem setOwner_lastStatic (s : State) (o : Nat) (x : Owner) : (setOwner s o x).lastStatic = s.lastStatic := rfl

/-! ### `setRing` -/

@[simp] theorem setRing_clk (s : State) (r : Nat) (x : RingSt) : (setRing s r x).clk = s.clk := rfl
@[simp] theorem setRing_agenda (s : State) (r : Nat) (x : RingSt) : (setRing s r x).agenda = s.agenda := rfl
@[simp] theorem setRing_issuing (s : State) (r : Nat) (x : RingSt) : (setRing s r x).issuing = s.issuing := rfl
@[simp] theorem setRing_cur (s : State) (r : Nat) (x : RingSt) : (setRing s r x).cur = s.cur := rfl
@[simp] theorem setRing_nextId (s : State) (r : Nat) (x : RingSt) : (setRing s r x).nextId = s.nextId := rfl
@[simp] theorem setRing_free (s : State) (r : Nat) (x : RingSt) : (setRing s r x).free = s.free := rfl
@[simp] theorem setRing_mem (s : State) (r : Nat) (x : RingSt) : (setRing s r x).mem = s.mem := rfl
@[simp] theorem setRing_wbuf (s : State) (r : Nat) (x : RingSt) : (setRing s r x).wbuf = s.wbuf := rfl
@[simp] theorem setRing_initMem (s : State) (r : Nat) (x : RingSt) : (setRing s r x).initMem = s.initMem := rfl
@[simp] theorem setRing_poison (s : State) (r : Nat) (x : RingSt) : (setRing s r x).poison = s.poison := rfl
@[simp] theorem setRing_poolMem (s : State) (r : Nat) (x : RingSt) : (setRing s r x).poolMem = s.poolMem := rfl
@[simp] theorem setRing_hist (s : State) (r : Nat) (x : RingSt) : (setRing s r x).hist = s.hist := rfl
@[simp] theorem setRing_log (s : State) (r : Nat) (x : RingSt) : (setRing s r x).log = s.log := rfl
@[simp] theorem setRing_ctxs (s : State) (r : Nat) (x : RingSt) : (setRing s r x).ctxs = s.ctxs := rfl
@[simp] theorem setRing_reads (s : State) (r : Nat) (x : RingSt) : (setRing s r x).reads = s.reads := rfl
@[simp] theorem setRing_reqs (s : State) (r : Nat) (x : RingSt) : (setRing s r x).reqs = s.reqs := rfl
@[simp] theorem setRing_net (s : State) (r : Nat) (x : RingSt) : (setRing s r x).net = s.net := rfl
@[simp] theorem setRing_walks (s : State) (r : Nat) (x : RingSt) : (setRing s r x).walks = s.walks := rfl
@[simp] theorem setRing_forks (s : State) (r : Nat) (x : RingSt) : (setRing s r x).forks = s.forks := rfl
@[simp] theorem setRing_walked (s : State) (r : Nat) (x : RingSt) : (setRing s r x).walked = s.walked := rfl
@[simp] theorem setRing_refusals (s : State) (r : Nat) (x : RingSt) : (setRing s r x).refusals = s.refusals := rfl
@[simp] theorem setRing_cmds (s : State) (r : Nat) (x : RingSt) : (setRing s r x).cmds = s.cmds := rfl
@[simp] theorem setRing_copies (s : State) (r : Nat) (x : RingSt) : (setRing s r x).copies = s.copies := rfl
@[simp] theorem setRing_prefetches (s : State) (r : Nat) (x : RingSt) : (setRing s r x).prefetches = s.prefetches := rfl
@[simp] theorem setRing_orphans (s : State) (r : Nat) (x : RingSt) : (setRing s r x).orphans = s.orphans := rfl
@[simp] theorem setRing_held (s : State) (r : Nat) (x : RingSt) : (setRing s r x).held = s.held := rfl
@[simp] theorem setRing_notices (s : State) (r : Nat) (x : RingSt) : (setRing s r x).notices = s.notices := rfl
@[simp] theorem setRing_cores (s : State) (r : Nat) (x : RingSt) : (setRing s r x).cores = s.cores := rfl
@[simp] theorem setRing_owners (s : State) (r : Nat) (x : RingSt) : (setRing s r x).owners = s.owners := rfl
@[simp] theorem setRing_ifaces (s : State) (r : Nat) (x : RingSt) : (setRing s r x).ifaces = s.ifaces := rfl
@[simp] theorem setRing_points (s : State) (r : Nat) (x : RingSt) : (setRing s r x).points = s.points := rfl
@[simp] theorem setRing_coreTable (s : State) (r : Nat) (x : RingSt) : (setRing s r x).coreTable = s.coreTable := rfl
@[simp] theorem setRing_dirtySpare (s : State) (r : Nat) (x : RingSt) : (setRing s r x).dirtySpare = s.dirtySpare := rfl
@[simp] theorem setRing_wtsel (s : State) (r : Nat) (x : RingSt) : (setRing s r x).wtsel = s.wtsel := rfl
@[simp] theorem setRing_sharingKeys (s : State) (r : Nat) (x : RingSt) : (setRing s r x).sharingKeys = s.sharingKeys := rfl
@[simp] theorem setRing_peerBase (s : State) (r : Nat) (x : RingSt) : (setRing s r x).peerBase = s.peerBase := rfl
@[simp] theorem setRing_nodeBase (s : State) (r : Nat) (x : RingSt) : (setRing s r x).nodeBase = s.nodeBase := rfl
@[simp] theorem setRing_linkMask (s : State) (r : Nat) (x : RingSt) : (setRing s r x).linkMask = s.linkMask := rfl
@[simp] theorem setRing_rails (s : State) (r : Nat) (x : RingSt) : (setRing s r x).rails = s.rails := rfl
@[simp] theorem setRing_slotCounts (s : State) (r : Nat) (x : RingSt) : (setRing s r x).slotCounts = s.slotCounts := rfl
@[simp] theorem setRing_key0Slots (s : State) (r : Nat) (x : RingSt) : (setRing s r x).key0Slots = s.key0Slots := rfl
@[simp] theorem setRing_emergency (s : State) (r : Nat) (x : RingSt) : (setRing s r x).emergency = s.emergency := rfl
@[simp] theorem setRing_slowdown (s : State) (r : Nat) (x : RingSt) : (setRing s r x).slowdown = s.slowdown := rfl
@[simp] theorem setRing_lastNotice (s : State) (r : Nat) (x : RingSt) : (setRing s r x).lastNotice = s.lastNotice := rfl
@[simp] theorem setRing_noticesOut (s : State) (r : Nat) (x : RingSt) : (setRing s r x).noticesOut = s.noticesOut := rfl
@[simp] theorem setRing_linksLost (s : State) (r : Nat) (x : RingSt) : (setRing s r x).linksLost = s.linksLost := rfl
@[simp] theorem setRing_retries (s : State) (r : Nat) (x : RingSt) : (setRing s r x).retries = s.retries := rfl
@[simp] theorem setRing_unacked (s : State) (r : Nat) (x : RingSt) : (setRing s r x).unacked = s.unacked := rfl
@[simp] theorem setRing_unpub (s : State) (r : Nat) (x : RingSt) : (setRing s r x).unpub = s.unpub := rfl
@[simp] theorem setRing_exclusive (s : State) (r : Nat) (x : RingSt) : (setRing s r x).exclusive = s.exclusive := rfl
@[simp] theorem setRing_regions (s : State) (r : Nat) (x : RingSt) : (setRing s r x).regions = s.regions := rfl
@[simp] theorem setRing_portsLost (s : State) (r : Nat) (x : RingSt) : (setRing s r x).portsLost = s.portsLost := rfl
@[simp] theorem setRing_birq (s : State) (r : Nat) (x : RingSt) : (setRing s r x).birq = s.birq := rfl
@[simp] theorem setRing_birsp (s : State) (r : Nat) (x : RingSt) : (setRing s r x).birsp = s.birsp := rfl
@[simp] theorem setRing_hostLines (s : State) (r : Nat) (x : RingSt) : (setRing s r x).hostLines = s.hostLines := rfl
@[simp] theorem setRing_bisnp (s : State) (r : Nat) (x : RingSt) : (setRing s r x).bisnp = s.bisnp := rfl
@[simp] theorem setRing_nodes (s : State) (r : Nat) (x : RingSt) : (setRing s r x).nodes = s.nodes := rfl
@[simp] theorem setRing_bumps (s : State) (r : Nat) (x : RingSt) : (setRing s r x).bumps = s.bumps := rfl
@[simp] theorem setRing_images (s : State) (r : Nat) (x : RingSt) : (setRing s r x).images = s.images := rfl
@[simp] theorem setRing_msix (s : State) (r : Nat) (x : RingSt) : (setRing s r x).msix = s.msix := rfl
@[simp] theorem setRing_boot (s : State) (r : Nat) (x : RingSt) : (setRing s r x).boot = s.boot := rfl
@[simp] theorem setRing_bootFail (s : State) (r : Nat) (x : RingSt) : (setRing s r x).bootFail = s.bootFail := rfl
@[simp] theorem setRing_vfEnabled (s : State) (r : Nat) (x : RingSt) : (setRing s r x).vfEnabled = s.vfEnabled := rfl
@[simp] theorem setRing_lastStatic (s : State) (r : Nat) (x : RingSt) : (setRing s r x).lastStatic = s.lastStatic := rfl

/-! ### `setIface` -/

@[simp] theorem setIface_clk (s : State) (i : Nat) (x : Iface) : (setIface s i x).clk = s.clk := rfl
@[simp] theorem setIface_agenda (s : State) (i : Nat) (x : Iface) : (setIface s i x).agenda = s.agenda := rfl
@[simp] theorem setIface_issuing (s : State) (i : Nat) (x : Iface) : (setIface s i x).issuing = s.issuing := rfl
@[simp] theorem setIface_cur (s : State) (i : Nat) (x : Iface) : (setIface s i x).cur = s.cur := rfl
@[simp] theorem setIface_nextId (s : State) (i : Nat) (x : Iface) : (setIface s i x).nextId = s.nextId := rfl
@[simp] theorem setIface_free (s : State) (i : Nat) (x : Iface) : (setIface s i x).free = s.free := rfl
@[simp] theorem setIface_mem (s : State) (i : Nat) (x : Iface) : (setIface s i x).mem = s.mem := rfl
@[simp] theorem setIface_wbuf (s : State) (i : Nat) (x : Iface) : (setIface s i x).wbuf = s.wbuf := rfl
@[simp] theorem setIface_initMem (s : State) (i : Nat) (x : Iface) : (setIface s i x).initMem = s.initMem := rfl
@[simp] theorem setIface_poison (s : State) (i : Nat) (x : Iface) : (setIface s i x).poison = s.poison := rfl
@[simp] theorem setIface_poolMem (s : State) (i : Nat) (x : Iface) : (setIface s i x).poolMem = s.poolMem := rfl
@[simp] theorem setIface_hist (s : State) (i : Nat) (x : Iface) : (setIface s i x).hist = s.hist := rfl
@[simp] theorem setIface_log (s : State) (i : Nat) (x : Iface) : (setIface s i x).log = s.log := rfl
@[simp] theorem setIface_ctxs (s : State) (i : Nat) (x : Iface) : (setIface s i x).ctxs = s.ctxs := rfl
@[simp] theorem setIface_reads (s : State) (i : Nat) (x : Iface) : (setIface s i x).reads = s.reads := rfl
@[simp] theorem setIface_reqs (s : State) (i : Nat) (x : Iface) : (setIface s i x).reqs = s.reqs := rfl
@[simp] theorem setIface_net (s : State) (i : Nat) (x : Iface) : (setIface s i x).net = s.net := rfl
@[simp] theorem setIface_walks (s : State) (i : Nat) (x : Iface) : (setIface s i x).walks = s.walks := rfl
@[simp] theorem setIface_forks (s : State) (i : Nat) (x : Iface) : (setIface s i x).forks = s.forks := rfl
@[simp] theorem setIface_walked (s : State) (i : Nat) (x : Iface) : (setIface s i x).walked = s.walked := rfl
@[simp] theorem setIface_refusals (s : State) (i : Nat) (x : Iface) : (setIface s i x).refusals = s.refusals := rfl
@[simp] theorem setIface_cmds (s : State) (i : Nat) (x : Iface) : (setIface s i x).cmds = s.cmds := rfl
@[simp] theorem setIface_copies (s : State) (i : Nat) (x : Iface) : (setIface s i x).copies = s.copies := rfl
@[simp] theorem setIface_prefetches (s : State) (i : Nat) (x : Iface) : (setIface s i x).prefetches = s.prefetches := rfl
@[simp] theorem setIface_orphans (s : State) (i : Nat) (x : Iface) : (setIface s i x).orphans = s.orphans := rfl
@[simp] theorem setIface_held (s : State) (i : Nat) (x : Iface) : (setIface s i x).held = s.held := rfl
@[simp] theorem setIface_notices (s : State) (i : Nat) (x : Iface) : (setIface s i x).notices = s.notices := rfl
@[simp] theorem setIface_cores (s : State) (i : Nat) (x : Iface) : (setIface s i x).cores = s.cores := rfl
@[simp] theorem setIface_rings (s : State) (i : Nat) (x : Iface) : (setIface s i x).rings = s.rings := rfl
@[simp] theorem setIface_owners (s : State) (i : Nat) (x : Iface) : (setIface s i x).owners = s.owners := rfl
@[simp] theorem setIface_points (s : State) (i : Nat) (x : Iface) : (setIface s i x).points = s.points := rfl
@[simp] theorem setIface_coreTable (s : State) (i : Nat) (x : Iface) : (setIface s i x).coreTable = s.coreTable := rfl
@[simp] theorem setIface_dirtySpare (s : State) (i : Nat) (x : Iface) : (setIface s i x).dirtySpare = s.dirtySpare := rfl
@[simp] theorem setIface_wtsel (s : State) (i : Nat) (x : Iface) : (setIface s i x).wtsel = s.wtsel := rfl
@[simp] theorem setIface_sharingKeys (s : State) (i : Nat) (x : Iface) : (setIface s i x).sharingKeys = s.sharingKeys := rfl
@[simp] theorem setIface_peerBase (s : State) (i : Nat) (x : Iface) : (setIface s i x).peerBase = s.peerBase := rfl
@[simp] theorem setIface_nodeBase (s : State) (i : Nat) (x : Iface) : (setIface s i x).nodeBase = s.nodeBase := rfl
@[simp] theorem setIface_linkMask (s : State) (i : Nat) (x : Iface) : (setIface s i x).linkMask = s.linkMask := rfl
@[simp] theorem setIface_rails (s : State) (i : Nat) (x : Iface) : (setIface s i x).rails = s.rails := rfl
@[simp] theorem setIface_slotCounts (s : State) (i : Nat) (x : Iface) : (setIface s i x).slotCounts = s.slotCounts := rfl
@[simp] theorem setIface_key0Slots (s : State) (i : Nat) (x : Iface) : (setIface s i x).key0Slots = s.key0Slots := rfl
@[simp] theorem setIface_emergency (s : State) (i : Nat) (x : Iface) : (setIface s i x).emergency = s.emergency := rfl
@[simp] theorem setIface_slowdown (s : State) (i : Nat) (x : Iface) : (setIface s i x).slowdown = s.slowdown := rfl
@[simp] theorem setIface_lastNotice (s : State) (i : Nat) (x : Iface) : (setIface s i x).lastNotice = s.lastNotice := rfl
@[simp] theorem setIface_noticesOut (s : State) (i : Nat) (x : Iface) : (setIface s i x).noticesOut = s.noticesOut := rfl
@[simp] theorem setIface_linksLost (s : State) (i : Nat) (x : Iface) : (setIface s i x).linksLost = s.linksLost := rfl
@[simp] theorem setIface_retries (s : State) (i : Nat) (x : Iface) : (setIface s i x).retries = s.retries := rfl
@[simp] theorem setIface_unacked (s : State) (i : Nat) (x : Iface) : (setIface s i x).unacked = s.unacked := rfl
@[simp] theorem setIface_unpub (s : State) (i : Nat) (x : Iface) : (setIface s i x).unpub = s.unpub := rfl
@[simp] theorem setIface_exclusive (s : State) (i : Nat) (x : Iface) : (setIface s i x).exclusive = s.exclusive := rfl
@[simp] theorem setIface_regions (s : State) (i : Nat) (x : Iface) : (setIface s i x).regions = s.regions := rfl
@[simp] theorem setIface_portsLost (s : State) (i : Nat) (x : Iface) : (setIface s i x).portsLost = s.portsLost := rfl
@[simp] theorem setIface_birq (s : State) (i : Nat) (x : Iface) : (setIface s i x).birq = s.birq := rfl
@[simp] theorem setIface_birsp (s : State) (i : Nat) (x : Iface) : (setIface s i x).birsp = s.birsp := rfl
@[simp] theorem setIface_hostLines (s : State) (i : Nat) (x : Iface) : (setIface s i x).hostLines = s.hostLines := rfl
@[simp] theorem setIface_bisnp (s : State) (i : Nat) (x : Iface) : (setIface s i x).bisnp = s.bisnp := rfl
@[simp] theorem setIface_nodes (s : State) (i : Nat) (x : Iface) : (setIface s i x).nodes = s.nodes := rfl
@[simp] theorem setIface_bumps (s : State) (i : Nat) (x : Iface) : (setIface s i x).bumps = s.bumps := rfl
@[simp] theorem setIface_images (s : State) (i : Nat) (x : Iface) : (setIface s i x).images = s.images := rfl
@[simp] theorem setIface_msix (s : State) (i : Nat) (x : Iface) : (setIface s i x).msix = s.msix := rfl
@[simp] theorem setIface_boot (s : State) (i : Nat) (x : Iface) : (setIface s i x).boot = s.boot := rfl
@[simp] theorem setIface_bootFail (s : State) (i : Nat) (x : Iface) : (setIface s i x).bootFail = s.bootFail := rfl
@[simp] theorem setIface_vfEnabled (s : State) (i : Nat) (x : Iface) : (setIface s i x).vfEnabled = s.vfEnabled := rfl
@[simp] theorem setIface_lastStatic (s : State) (i : Nat) (x : Iface) : (setIface s i x).lastStatic = s.lastStatic := rfl

/-! ### `setRec` -/

@[simp] theorem setRec_clk (s : State) (i n : Nat) (x : LRec) : (setRec s i n x).clk = s.clk := rfl
@[simp] theorem setRec_agenda (s : State) (i n : Nat) (x : LRec) : (setRec s i n x).agenda = s.agenda := rfl
@[simp] theorem setRec_issuing (s : State) (i n : Nat) (x : LRec) : (setRec s i n x).issuing = s.issuing := rfl
@[simp] theorem setRec_cur (s : State) (i n : Nat) (x : LRec) : (setRec s i n x).cur = s.cur := rfl
@[simp] theorem setRec_nextId (s : State) (i n : Nat) (x : LRec) : (setRec s i n x).nextId = s.nextId := rfl
@[simp] theorem setRec_free (s : State) (i n : Nat) (x : LRec) : (setRec s i n x).free = s.free := rfl
@[simp] theorem setRec_mem (s : State) (i n : Nat) (x : LRec) : (setRec s i n x).mem = s.mem := rfl
@[simp] theorem setRec_wbuf (s : State) (i n : Nat) (x : LRec) : (setRec s i n x).wbuf = s.wbuf := rfl
@[simp] theorem setRec_initMem (s : State) (i n : Nat) (x : LRec) : (setRec s i n x).initMem = s.initMem := rfl
@[simp] theorem setRec_poison (s : State) (i n : Nat) (x : LRec) : (setRec s i n x).poison = s.poison := rfl
@[simp] theorem setRec_poolMem (s : State) (i n : Nat) (x : LRec) : (setRec s i n x).poolMem = s.poolMem := rfl
@[simp] theorem setRec_hist (s : State) (i n : Nat) (x : LRec) : (setRec s i n x).hist = s.hist := rfl
@[simp] theorem setRec_log (s : State) (i n : Nat) (x : LRec) : (setRec s i n x).log = s.log := rfl
@[simp] theorem setRec_ctxs (s : State) (i n : Nat) (x : LRec) : (setRec s i n x).ctxs = s.ctxs := rfl
@[simp] theorem setRec_reads (s : State) (i n : Nat) (x : LRec) : (setRec s i n x).reads = s.reads := rfl
@[simp] theorem setRec_reqs (s : State) (i n : Nat) (x : LRec) : (setRec s i n x).reqs = s.reqs := rfl
@[simp] theorem setRec_net (s : State) (i n : Nat) (x : LRec) : (setRec s i n x).net = s.net := rfl
@[simp] theorem setRec_walks (s : State) (i n : Nat) (x : LRec) : (setRec s i n x).walks = s.walks := rfl
@[simp] theorem setRec_forks (s : State) (i n : Nat) (x : LRec) : (setRec s i n x).forks = s.forks := rfl
@[simp] theorem setRec_walked (s : State) (i n : Nat) (x : LRec) : (setRec s i n x).walked = s.walked := rfl
@[simp] theorem setRec_refusals (s : State) (i n : Nat) (x : LRec) : (setRec s i n x).refusals = s.refusals := rfl
@[simp] theorem setRec_cmds (s : State) (i n : Nat) (x : LRec) : (setRec s i n x).cmds = s.cmds := rfl
@[simp] theorem setRec_copies (s : State) (i n : Nat) (x : LRec) : (setRec s i n x).copies = s.copies := rfl
@[simp] theorem setRec_prefetches (s : State) (i n : Nat) (x : LRec) : (setRec s i n x).prefetches = s.prefetches := rfl
@[simp] theorem setRec_orphans (s : State) (i n : Nat) (x : LRec) : (setRec s i n x).orphans = s.orphans := rfl
@[simp] theorem setRec_held (s : State) (i n : Nat) (x : LRec) : (setRec s i n x).held = s.held := rfl
@[simp] theorem setRec_notices (s : State) (i n : Nat) (x : LRec) : (setRec s i n x).notices = s.notices := rfl
@[simp] theorem setRec_cores (s : State) (i n : Nat) (x : LRec) : (setRec s i n x).cores = s.cores := rfl
@[simp] theorem setRec_rings (s : State) (i n : Nat) (x : LRec) : (setRec s i n x).rings = s.rings := rfl
@[simp] theorem setRec_owners (s : State) (i n : Nat) (x : LRec) : (setRec s i n x).owners = s.owners := rfl
@[simp] theorem setRec_points (s : State) (i n : Nat) (x : LRec) : (setRec s i n x).points = s.points := rfl
@[simp] theorem setRec_coreTable (s : State) (i n : Nat) (x : LRec) : (setRec s i n x).coreTable = s.coreTable := rfl
@[simp] theorem setRec_dirtySpare (s : State) (i n : Nat) (x : LRec) : (setRec s i n x).dirtySpare = s.dirtySpare := rfl
@[simp] theorem setRec_wtsel (s : State) (i n : Nat) (x : LRec) : (setRec s i n x).wtsel = s.wtsel := rfl
@[simp] theorem setRec_sharingKeys (s : State) (i n : Nat) (x : LRec) : (setRec s i n x).sharingKeys = s.sharingKeys := rfl
@[simp] theorem setRec_peerBase (s : State) (i n : Nat) (x : LRec) : (setRec s i n x).peerBase = s.peerBase := rfl
@[simp] theorem setRec_nodeBase (s : State) (i n : Nat) (x : LRec) : (setRec s i n x).nodeBase = s.nodeBase := rfl
@[simp] theorem setRec_linkMask (s : State) (i n : Nat) (x : LRec) : (setRec s i n x).linkMask = s.linkMask := rfl
@[simp] theorem setRec_rails (s : State) (i n : Nat) (x : LRec) : (setRec s i n x).rails = s.rails := rfl
@[simp] theorem setRec_slotCounts (s : State) (i n : Nat) (x : LRec) : (setRec s i n x).slotCounts = s.slotCounts := rfl
@[simp] theorem setRec_key0Slots (s : State) (i n : Nat) (x : LRec) : (setRec s i n x).key0Slots = s.key0Slots := rfl
@[simp] theorem setRec_emergency (s : State) (i n : Nat) (x : LRec) : (setRec s i n x).emergency = s.emergency := rfl
@[simp] theorem setRec_slowdown (s : State) (i n : Nat) (x : LRec) : (setRec s i n x).slowdown = s.slowdown := rfl
@[simp] theorem setRec_lastNotice (s : State) (i n : Nat) (x : LRec) : (setRec s i n x).lastNotice = s.lastNotice := rfl
@[simp] theorem setRec_noticesOut (s : State) (i n : Nat) (x : LRec) : (setRec s i n x).noticesOut = s.noticesOut := rfl
@[simp] theorem setRec_linksLost (s : State) (i n : Nat) (x : LRec) : (setRec s i n x).linksLost = s.linksLost := rfl
@[simp] theorem setRec_retries (s : State) (i n : Nat) (x : LRec) : (setRec s i n x).retries = s.retries := rfl
@[simp] theorem setRec_unacked (s : State) (i n : Nat) (x : LRec) : (setRec s i n x).unacked = s.unacked := rfl
@[simp] theorem setRec_unpub (s : State) (i n : Nat) (x : LRec) : (setRec s i n x).unpub = s.unpub := rfl
@[simp] theorem setRec_exclusive (s : State) (i n : Nat) (x : LRec) : (setRec s i n x).exclusive = s.exclusive := rfl
@[simp] theorem setRec_regions (s : State) (i n : Nat) (x : LRec) : (setRec s i n x).regions = s.regions := rfl
@[simp] theorem setRec_portsLost (s : State) (i n : Nat) (x : LRec) : (setRec s i n x).portsLost = s.portsLost := rfl
@[simp] theorem setRec_birq (s : State) (i n : Nat) (x : LRec) : (setRec s i n x).birq = s.birq := rfl
@[simp] theorem setRec_birsp (s : State) (i n : Nat) (x : LRec) : (setRec s i n x).birsp = s.birsp := rfl
@[simp] theorem setRec_hostLines (s : State) (i n : Nat) (x : LRec) : (setRec s i n x).hostLines = s.hostLines := rfl
@[simp] theorem setRec_bisnp (s : State) (i n : Nat) (x : LRec) : (setRec s i n x).bisnp = s.bisnp := rfl
@[simp] theorem setRec_nodes (s : State) (i n : Nat) (x : LRec) : (setRec s i n x).nodes = s.nodes := rfl
@[simp] theorem setRec_bumps (s : State) (i n : Nat) (x : LRec) : (setRec s i n x).bumps = s.bumps := rfl
@[simp] theorem setRec_images (s : State) (i n : Nat) (x : LRec) : (setRec s i n x).images = s.images := rfl
@[simp] theorem setRec_msix (s : State) (i n : Nat) (x : LRec) : (setRec s i n x).msix = s.msix := rfl
@[simp] theorem setRec_boot (s : State) (i n : Nat) (x : LRec) : (setRec s i n x).boot = s.boot := rfl
@[simp] theorem setRec_bootFail (s : State) (i n : Nat) (x : LRec) : (setRec s i n x).bootFail = s.bootFail := rfl
@[simp] theorem setRec_vfEnabled (s : State) (i n : Nat) (x : LRec) : (setRec s i n x).vfEnabled = s.vfEnabled := rfl
@[simp] theorem setRec_lastStatic (s : State) (i n : Nat) (x : LRec) : (setRec s i n x).lastStatic = s.lastStatic := rfl

/-! ### `setPoint` -/

@[simp] theorem setPoint_clk (s : State) (c i : Nat) (x : Point) : (setPoint s c i x).clk = s.clk := rfl
@[simp] theorem setPoint_agenda (s : State) (c i : Nat) (x : Point) : (setPoint s c i x).agenda = s.agenda := rfl
@[simp] theorem setPoint_issuing (s : State) (c i : Nat) (x : Point) : (setPoint s c i x).issuing = s.issuing := rfl
@[simp] theorem setPoint_cur (s : State) (c i : Nat) (x : Point) : (setPoint s c i x).cur = s.cur := rfl
@[simp] theorem setPoint_nextId (s : State) (c i : Nat) (x : Point) : (setPoint s c i x).nextId = s.nextId := rfl
@[simp] theorem setPoint_free (s : State) (c i : Nat) (x : Point) : (setPoint s c i x).free = s.free := rfl
@[simp] theorem setPoint_mem (s : State) (c i : Nat) (x : Point) : (setPoint s c i x).mem = s.mem := rfl
@[simp] theorem setPoint_wbuf (s : State) (c i : Nat) (x : Point) : (setPoint s c i x).wbuf = s.wbuf := rfl
@[simp] theorem setPoint_initMem (s : State) (c i : Nat) (x : Point) : (setPoint s c i x).initMem = s.initMem := rfl
@[simp] theorem setPoint_poison (s : State) (c i : Nat) (x : Point) : (setPoint s c i x).poison = s.poison := rfl
@[simp] theorem setPoint_poolMem (s : State) (c i : Nat) (x : Point) : (setPoint s c i x).poolMem = s.poolMem := rfl
@[simp] theorem setPoint_hist (s : State) (c i : Nat) (x : Point) : (setPoint s c i x).hist = s.hist := rfl
@[simp] theorem setPoint_log (s : State) (c i : Nat) (x : Point) : (setPoint s c i x).log = s.log := rfl
@[simp] theorem setPoint_ctxs (s : State) (c i : Nat) (x : Point) : (setPoint s c i x).ctxs = s.ctxs := rfl
@[simp] theorem setPoint_reads (s : State) (c i : Nat) (x : Point) : (setPoint s c i x).reads = s.reads := rfl
@[simp] theorem setPoint_reqs (s : State) (c i : Nat) (x : Point) : (setPoint s c i x).reqs = s.reqs := rfl
@[simp] theorem setPoint_net (s : State) (c i : Nat) (x : Point) : (setPoint s c i x).net = s.net := rfl
@[simp] theorem setPoint_walks (s : State) (c i : Nat) (x : Point) : (setPoint s c i x).walks = s.walks := rfl
@[simp] theorem setPoint_forks (s : State) (c i : Nat) (x : Point) : (setPoint s c i x).forks = s.forks := rfl
@[simp] theorem setPoint_walked (s : State) (c i : Nat) (x : Point) : (setPoint s c i x).walked = s.walked := rfl
@[simp] theorem setPoint_refusals (s : State) (c i : Nat) (x : Point) : (setPoint s c i x).refusals = s.refusals := rfl
@[simp] theorem setPoint_cmds (s : State) (c i : Nat) (x : Point) : (setPoint s c i x).cmds = s.cmds := rfl
@[simp] theorem setPoint_copies (s : State) (c i : Nat) (x : Point) : (setPoint s c i x).copies = s.copies := rfl
@[simp] theorem setPoint_prefetches (s : State) (c i : Nat) (x : Point) : (setPoint s c i x).prefetches = s.prefetches := rfl
@[simp] theorem setPoint_orphans (s : State) (c i : Nat) (x : Point) : (setPoint s c i x).orphans = s.orphans := rfl
@[simp] theorem setPoint_held (s : State) (c i : Nat) (x : Point) : (setPoint s c i x).held = s.held := rfl
@[simp] theorem setPoint_notices (s : State) (c i : Nat) (x : Point) : (setPoint s c i x).notices = s.notices := rfl
@[simp] theorem setPoint_cores (s : State) (c i : Nat) (x : Point) : (setPoint s c i x).cores = s.cores := rfl
@[simp] theorem setPoint_rings (s : State) (c i : Nat) (x : Point) : (setPoint s c i x).rings = s.rings := rfl
@[simp] theorem setPoint_owners (s : State) (c i : Nat) (x : Point) : (setPoint s c i x).owners = s.owners := rfl
@[simp] theorem setPoint_ifaces (s : State) (c i : Nat) (x : Point) : (setPoint s c i x).ifaces = s.ifaces := rfl
@[simp] theorem setPoint_coreTable (s : State) (c i : Nat) (x : Point) : (setPoint s c i x).coreTable = s.coreTable := rfl
@[simp] theorem setPoint_dirtySpare (s : State) (c i : Nat) (x : Point) : (setPoint s c i x).dirtySpare = s.dirtySpare := rfl
@[simp] theorem setPoint_wtsel (s : State) (c i : Nat) (x : Point) : (setPoint s c i x).wtsel = s.wtsel := rfl
@[simp] theorem setPoint_sharingKeys (s : State) (c i : Nat) (x : Point) : (setPoint s c i x).sharingKeys = s.sharingKeys := rfl
@[simp] theorem setPoint_peerBase (s : State) (c i : Nat) (x : Point) : (setPoint s c i x).peerBase = s.peerBase := rfl
@[simp] theorem setPoint_nodeBase (s : State) (c i : Nat) (x : Point) : (setPoint s c i x).nodeBase = s.nodeBase := rfl
@[simp] theorem setPoint_linkMask (s : State) (c i : Nat) (x : Point) : (setPoint s c i x).linkMask = s.linkMask := rfl
@[simp] theorem setPoint_rails (s : State) (c i : Nat) (x : Point) : (setPoint s c i x).rails = s.rails := rfl
@[simp] theorem setPoint_slotCounts (s : State) (c i : Nat) (x : Point) : (setPoint s c i x).slotCounts = s.slotCounts := rfl
@[simp] theorem setPoint_key0Slots (s : State) (c i : Nat) (x : Point) : (setPoint s c i x).key0Slots = s.key0Slots := rfl
@[simp] theorem setPoint_emergency (s : State) (c i : Nat) (x : Point) : (setPoint s c i x).emergency = s.emergency := rfl
@[simp] theorem setPoint_slowdown (s : State) (c i : Nat) (x : Point) : (setPoint s c i x).slowdown = s.slowdown := rfl
@[simp] theorem setPoint_lastNotice (s : State) (c i : Nat) (x : Point) : (setPoint s c i x).lastNotice = s.lastNotice := rfl
@[simp] theorem setPoint_noticesOut (s : State) (c i : Nat) (x : Point) : (setPoint s c i x).noticesOut = s.noticesOut := rfl
@[simp] theorem setPoint_linksLost (s : State) (c i : Nat) (x : Point) : (setPoint s c i x).linksLost = s.linksLost := rfl
@[simp] theorem setPoint_retries (s : State) (c i : Nat) (x : Point) : (setPoint s c i x).retries = s.retries := rfl
@[simp] theorem setPoint_unacked (s : State) (c i : Nat) (x : Point) : (setPoint s c i x).unacked = s.unacked := rfl
@[simp] theorem setPoint_unpub (s : State) (c i : Nat) (x : Point) : (setPoint s c i x).unpub = s.unpub := rfl
@[simp] theorem setPoint_exclusive (s : State) (c i : Nat) (x : Point) : (setPoint s c i x).exclusive = s.exclusive := rfl
@[simp] theorem setPoint_regions (s : State) (c i : Nat) (x : Point) : (setPoint s c i x).regions = s.regions := rfl
@[simp] theorem setPoint_portsLost (s : State) (c i : Nat) (x : Point) : (setPoint s c i x).portsLost = s.portsLost := rfl
@[simp] theorem setPoint_birq (s : State) (c i : Nat) (x : Point) : (setPoint s c i x).birq = s.birq := rfl
@[simp] theorem setPoint_birsp (s : State) (c i : Nat) (x : Point) : (setPoint s c i x).birsp = s.birsp := rfl
@[simp] theorem setPoint_hostLines (s : State) (c i : Nat) (x : Point) : (setPoint s c i x).hostLines = s.hostLines := rfl
@[simp] theorem setPoint_bisnp (s : State) (c i : Nat) (x : Point) : (setPoint s c i x).bisnp = s.bisnp := rfl
@[simp] theorem setPoint_nodes (s : State) (c i : Nat) (x : Point) : (setPoint s c i x).nodes = s.nodes := rfl
@[simp] theorem setPoint_bumps (s : State) (c i : Nat) (x : Point) : (setPoint s c i x).bumps = s.bumps := rfl
@[simp] theorem setPoint_images (s : State) (c i : Nat) (x : Point) : (setPoint s c i x).images = s.images := rfl
@[simp] theorem setPoint_msix (s : State) (c i : Nat) (x : Point) : (setPoint s c i x).msix = s.msix := rfl
@[simp] theorem setPoint_boot (s : State) (c i : Nat) (x : Point) : (setPoint s c i x).boot = s.boot := rfl
@[simp] theorem setPoint_bootFail (s : State) (c i : Nat) (x : Point) : (setPoint s c i x).bootFail = s.bootFail := rfl
@[simp] theorem setPoint_vfEnabled (s : State) (c i : Nat) (x : Point) : (setPoint s c i x).vfEnabled = s.vfEnabled := rfl
@[simp] theorem setPoint_lastStatic (s : State) (c i : Nat) (x : Point) : (setPoint s c i x).lastStatic = s.lastStatic := rfl

/-! ### `setCur` -/

@[simp] theorem setCur_clk (s : State) (x : Frame) : (setCur s x).clk = s.clk := rfl
@[simp] theorem setCur_agenda (s : State) (x : Frame) : (setCur s x).agenda = s.agenda := rfl
@[simp] theorem setCur_issuing (s : State) (x : Frame) : (setCur s x).issuing = s.issuing := rfl
@[simp] theorem setCur_cur (s : State) (x : Frame) : (setCur s x).cur = s.cur := rfl
@[simp] theorem setCur_nextId (s : State) (x : Frame) : (setCur s x).nextId = s.nextId := rfl
@[simp] theorem setCur_free (s : State) (x : Frame) : (setCur s x).free = s.free := rfl
@[simp] theorem setCur_mem (s : State) (x : Frame) : (setCur s x).mem = s.mem := rfl
@[simp] theorem setCur_wbuf (s : State) (x : Frame) : (setCur s x).wbuf = s.wbuf := rfl
@[simp] theorem setCur_initMem (s : State) (x : Frame) : (setCur s x).initMem = s.initMem := rfl
@[simp] theorem setCur_poison (s : State) (x : Frame) : (setCur s x).poison = s.poison := rfl
@[simp] theorem setCur_poolMem (s : State) (x : Frame) : (setCur s x).poolMem = s.poolMem := rfl
@[simp] theorem setCur_hist (s : State) (x : Frame) : (setCur s x).hist = s.hist := rfl
@[simp] theorem setCur_log (s : State) (x : Frame) : (setCur s x).log = s.log := rfl
@[simp] theorem setCur_ctxs (s : State) (x : Frame) : (setCur s x).ctxs = s.ctxs := rfl
@[simp] theorem setCur_reads (s : State) (x : Frame) : (setCur s x).reads = s.reads := rfl
@[simp] theorem setCur_reqs (s : State) (x : Frame) : (setCur s x).reqs = s.reqs := rfl
@[simp] theorem setCur_net (s : State) (x : Frame) : (setCur s x).net = s.net := rfl
@[simp] theorem setCur_walks (s : State) (x : Frame) : (setCur s x).walks = s.walks := rfl
@[simp] theorem setCur_forks (s : State) (x : Frame) : (setCur s x).forks = s.forks := rfl
@[simp] theorem setCur_walked (s : State) (x : Frame) : (setCur s x).walked = s.walked := rfl
@[simp] theorem setCur_refusals (s : State) (x : Frame) : (setCur s x).refusals = s.refusals := rfl
@[simp] theorem setCur_cmds (s : State) (x : Frame) : (setCur s x).cmds = s.cmds := rfl
@[simp] theorem setCur_copies (s : State) (x : Frame) : (setCur s x).copies = s.copies := rfl
@[simp] theorem setCur_prefetches (s : State) (x : Frame) : (setCur s x).prefetches = s.prefetches := rfl
@[simp] theorem setCur_orphans (s : State) (x : Frame) : (setCur s x).orphans = s.orphans := rfl
@[simp] theorem setCur_held (s : State) (x : Frame) : (setCur s x).held = s.held := rfl
@[simp] theorem setCur_notices (s : State) (x : Frame) : (setCur s x).notices = s.notices := rfl
@[simp] theorem setCur_rings (s : State) (x : Frame) : (setCur s x).rings = s.rings := rfl
@[simp] theorem setCur_owners (s : State) (x : Frame) : (setCur s x).owners = s.owners := rfl
@[simp] theorem setCur_ifaces (s : State) (x : Frame) : (setCur s x).ifaces = s.ifaces := rfl
@[simp] theorem setCur_points (s : State) (x : Frame) : (setCur s x).points = s.points := rfl
@[simp] theorem setCur_coreTable (s : State) (x : Frame) : (setCur s x).coreTable = s.coreTable := rfl
@[simp] theorem setCur_dirtySpare (s : State) (x : Frame) : (setCur s x).dirtySpare = s.dirtySpare := rfl
@[simp] theorem setCur_wtsel (s : State) (x : Frame) : (setCur s x).wtsel = s.wtsel := rfl
@[simp] theorem setCur_sharingKeys (s : State) (x : Frame) : (setCur s x).sharingKeys = s.sharingKeys := rfl
@[simp] theorem setCur_peerBase (s : State) (x : Frame) : (setCur s x).peerBase = s.peerBase := rfl
@[simp] theorem setCur_nodeBase (s : State) (x : Frame) : (setCur s x).nodeBase = s.nodeBase := rfl
@[simp] theorem setCur_linkMask (s : State) (x : Frame) : (setCur s x).linkMask = s.linkMask := rfl
@[simp] theorem setCur_rails (s : State) (x : Frame) : (setCur s x).rails = s.rails := rfl
@[simp] theorem setCur_slotCounts (s : State) (x : Frame) : (setCur s x).slotCounts = s.slotCounts := rfl
@[simp] theorem setCur_key0Slots (s : State) (x : Frame) : (setCur s x).key0Slots = s.key0Slots := rfl
@[simp] theorem setCur_emergency (s : State) (x : Frame) : (setCur s x).emergency = s.emergency := rfl
@[simp] theorem setCur_slowdown (s : State) (x : Frame) : (setCur s x).slowdown = s.slowdown := rfl
@[simp] theorem setCur_lastNotice (s : State) (x : Frame) : (setCur s x).lastNotice = s.lastNotice := rfl
@[simp] theorem setCur_noticesOut (s : State) (x : Frame) : (setCur s x).noticesOut = s.noticesOut := rfl
@[simp] theorem setCur_linksLost (s : State) (x : Frame) : (setCur s x).linksLost = s.linksLost := rfl
@[simp] theorem setCur_retries (s : State) (x : Frame) : (setCur s x).retries = s.retries := rfl
@[simp] theorem setCur_unacked (s : State) (x : Frame) : (setCur s x).unacked = s.unacked := rfl
@[simp] theorem setCur_unpub (s : State) (x : Frame) : (setCur s x).unpub = s.unpub := rfl
@[simp] theorem setCur_exclusive (s : State) (x : Frame) : (setCur s x).exclusive = s.exclusive := rfl
@[simp] theorem setCur_regions (s : State) (x : Frame) : (setCur s x).regions = s.regions := rfl
@[simp] theorem setCur_portsLost (s : State) (x : Frame) : (setCur s x).portsLost = s.portsLost := rfl
@[simp] theorem setCur_birq (s : State) (x : Frame) : (setCur s x).birq = s.birq := rfl
@[simp] theorem setCur_birsp (s : State) (x : Frame) : (setCur s x).birsp = s.birsp := rfl
@[simp] theorem setCur_hostLines (s : State) (x : Frame) : (setCur s x).hostLines = s.hostLines := rfl
@[simp] theorem setCur_bisnp (s : State) (x : Frame) : (setCur s x).bisnp = s.bisnp := rfl
@[simp] theorem setCur_nodes (s : State) (x : Frame) : (setCur s x).nodes = s.nodes := rfl
@[simp] theorem setCur_bumps (s : State) (x : Frame) : (setCur s x).bumps = s.bumps := rfl
@[simp] theorem setCur_images (s : State) (x : Frame) : (setCur s x).images = s.images := rfl
@[simp] theorem setCur_msix (s : State) (x : Frame) : (setCur s x).msix = s.msix := rfl
@[simp] theorem setCur_boot (s : State) (x : Frame) : (setCur s x).boot = s.boot := rfl
@[simp] theorem setCur_bootFail (s : State) (x : Frame) : (setCur s x).bootFail = s.bootFail := rfl
@[simp] theorem setCur_vfEnabled (s : State) (x : Frame) : (setCur s x).vfEnabled = s.vfEnabled := rfl
@[simp] theorem setCur_lastStatic (s : State) (x : Frame) : (setCur s x).lastStatic = s.lastStatic := rfl

/-! ### `putByte` -/

@[simp] theorem putByte_clk (s : State) (a : Nat) (b : Byte) : (putByte s a b).clk = s.clk := rfl
@[simp] theorem putByte_agenda (s : State) (a : Nat) (b : Byte) : (putByte s a b).agenda = s.agenda := rfl
@[simp] theorem putByte_issuing (s : State) (a : Nat) (b : Byte) : (putByte s a b).issuing = s.issuing := rfl
@[simp] theorem putByte_cur (s : State) (a : Nat) (b : Byte) : (putByte s a b).cur = s.cur := rfl
@[simp] theorem putByte_nextId (s : State) (a : Nat) (b : Byte) : (putByte s a b).nextId = s.nextId := rfl
@[simp] theorem putByte_free (s : State) (a : Nat) (b : Byte) : (putByte s a b).free = s.free := rfl
@[simp] theorem putByte_mem (s : State) (a : Nat) (b : Byte) : (putByte s a b).mem = s.mem := rfl
@[simp] theorem putByte_initMem (s : State) (a : Nat) (b : Byte) : (putByte s a b).initMem = s.initMem := rfl
@[simp] theorem putByte_poison (s : State) (a : Nat) (b : Byte) : (putByte s a b).poison = s.poison := rfl
@[simp] theorem putByte_poolMem (s : State) (a : Nat) (b : Byte) : (putByte s a b).poolMem = s.poolMem := rfl
@[simp] theorem putByte_hist (s : State) (a : Nat) (b : Byte) : (putByte s a b).hist = s.hist := rfl
@[simp] theorem putByte_log (s : State) (a : Nat) (b : Byte) : (putByte s a b).log = s.log := rfl
@[simp] theorem putByte_ctxs (s : State) (a : Nat) (b : Byte) : (putByte s a b).ctxs = s.ctxs := rfl
@[simp] theorem putByte_reads (s : State) (a : Nat) (b : Byte) : (putByte s a b).reads = s.reads := rfl
@[simp] theorem putByte_reqs (s : State) (a : Nat) (b : Byte) : (putByte s a b).reqs = s.reqs := rfl
@[simp] theorem putByte_net (s : State) (a : Nat) (b : Byte) : (putByte s a b).net = s.net := rfl
@[simp] theorem putByte_walks (s : State) (a : Nat) (b : Byte) : (putByte s a b).walks = s.walks := rfl
@[simp] theorem putByte_forks (s : State) (a : Nat) (b : Byte) : (putByte s a b).forks = s.forks := rfl
@[simp] theorem putByte_walked (s : State) (a : Nat) (b : Byte) : (putByte s a b).walked = s.walked := rfl
@[simp] theorem putByte_refusals (s : State) (a : Nat) (b : Byte) : (putByte s a b).refusals = s.refusals := rfl
@[simp] theorem putByte_cmds (s : State) (a : Nat) (b : Byte) : (putByte s a b).cmds = s.cmds := rfl
@[simp] theorem putByte_copies (s : State) (a : Nat) (b : Byte) : (putByte s a b).copies = s.copies := rfl
@[simp] theorem putByte_prefetches (s : State) (a : Nat) (b : Byte) : (putByte s a b).prefetches = s.prefetches := rfl
@[simp] theorem putByte_orphans (s : State) (a : Nat) (b : Byte) : (putByte s a b).orphans = s.orphans := rfl
@[simp] theorem putByte_held (s : State) (a : Nat) (b : Byte) : (putByte s a b).held = s.held := rfl
@[simp] theorem putByte_notices (s : State) (a : Nat) (b : Byte) : (putByte s a b).notices = s.notices := rfl
@[simp] theorem putByte_cores (s : State) (a : Nat) (b : Byte) : (putByte s a b).cores = s.cores := rfl
@[simp] theorem putByte_rings (s : State) (a : Nat) (b : Byte) : (putByte s a b).rings = s.rings := rfl
@[simp] theorem putByte_owners (s : State) (a : Nat) (b : Byte) : (putByte s a b).owners = s.owners := rfl
@[simp] theorem putByte_ifaces (s : State) (a : Nat) (b : Byte) : (putByte s a b).ifaces = s.ifaces := rfl
@[simp] theorem putByte_points (s : State) (a : Nat) (b : Byte) : (putByte s a b).points = s.points := rfl
@[simp] theorem putByte_coreTable (s : State) (a : Nat) (b : Byte) : (putByte s a b).coreTable = s.coreTable := rfl
@[simp] theorem putByte_dirtySpare (s : State) (a : Nat) (b : Byte) : (putByte s a b).dirtySpare = s.dirtySpare := rfl
@[simp] theorem putByte_wtsel (s : State) (a : Nat) (b : Byte) : (putByte s a b).wtsel = s.wtsel := rfl
@[simp] theorem putByte_sharingKeys (s : State) (a : Nat) (b : Byte) : (putByte s a b).sharingKeys = s.sharingKeys := rfl
@[simp] theorem putByte_peerBase (s : State) (a : Nat) (b : Byte) : (putByte s a b).peerBase = s.peerBase := rfl
@[simp] theorem putByte_nodeBase (s : State) (a : Nat) (b : Byte) : (putByte s a b).nodeBase = s.nodeBase := rfl
@[simp] theorem putByte_linkMask (s : State) (a : Nat) (b : Byte) : (putByte s a b).linkMask = s.linkMask := rfl
@[simp] theorem putByte_rails (s : State) (a : Nat) (b : Byte) : (putByte s a b).rails = s.rails := rfl
@[simp] theorem putByte_slotCounts (s : State) (a : Nat) (b : Byte) : (putByte s a b).slotCounts = s.slotCounts := rfl
@[simp] theorem putByte_key0Slots (s : State) (a : Nat) (b : Byte) : (putByte s a b).key0Slots = s.key0Slots := rfl
@[simp] theorem putByte_emergency (s : State) (a : Nat) (b : Byte) : (putByte s a b).emergency = s.emergency := rfl
@[simp] theorem putByte_slowdown (s : State) (a : Nat) (b : Byte) : (putByte s a b).slowdown = s.slowdown := rfl
@[simp] theorem putByte_lastNotice (s : State) (a : Nat) (b : Byte) : (putByte s a b).lastNotice = s.lastNotice := rfl
@[simp] theorem putByte_noticesOut (s : State) (a : Nat) (b : Byte) : (putByte s a b).noticesOut = s.noticesOut := rfl
@[simp] theorem putByte_linksLost (s : State) (a : Nat) (b : Byte) : (putByte s a b).linksLost = s.linksLost := rfl
@[simp] theorem putByte_retries (s : State) (a : Nat) (b : Byte) : (putByte s a b).retries = s.retries := rfl
@[simp] theorem putByte_unacked (s : State) (a : Nat) (b : Byte) : (putByte s a b).unacked = s.unacked := rfl
@[simp] theorem putByte_unpub (s : State) (a : Nat) (b : Byte) : (putByte s a b).unpub = s.unpub := rfl
@[simp] theorem putByte_exclusive (s : State) (a : Nat) (b : Byte) : (putByte s a b).exclusive = s.exclusive := rfl
@[simp] theorem putByte_regions (s : State) (a : Nat) (b : Byte) : (putByte s a b).regions = s.regions := rfl
@[simp] theorem putByte_portsLost (s : State) (a : Nat) (b : Byte) : (putByte s a b).portsLost = s.portsLost := rfl
@[simp] theorem putByte_birq (s : State) (a : Nat) (b : Byte) : (putByte s a b).birq = s.birq := rfl
@[simp] theorem putByte_birsp (s : State) (a : Nat) (b : Byte) : (putByte s a b).birsp = s.birsp := rfl
@[simp] theorem putByte_hostLines (s : State) (a : Nat) (b : Byte) : (putByte s a b).hostLines = s.hostLines := rfl
@[simp] theorem putByte_bisnp (s : State) (a : Nat) (b : Byte) : (putByte s a b).bisnp = s.bisnp := rfl
@[simp] theorem putByte_nodes (s : State) (a : Nat) (b : Byte) : (putByte s a b).nodes = s.nodes := rfl
@[simp] theorem putByte_bumps (s : State) (a : Nat) (b : Byte) : (putByte s a b).bumps = s.bumps := rfl
@[simp] theorem putByte_images (s : State) (a : Nat) (b : Byte) : (putByte s a b).images = s.images := rfl
@[simp] theorem putByte_msix (s : State) (a : Nat) (b : Byte) : (putByte s a b).msix = s.msix := rfl
@[simp] theorem putByte_boot (s : State) (a : Nat) (b : Byte) : (putByte s a b).boot = s.boot := rfl
@[simp] theorem putByte_bootFail (s : State) (a : Nat) (b : Byte) : (putByte s a b).bootFail = s.bootFail := rfl
@[simp] theorem putByte_vfEnabled (s : State) (a : Nat) (b : Byte) : (putByte s a b).vfEnabled = s.vfEnabled := rfl
@[simp] theorem putByte_lastStatic (s : State) (a : Nat) (b : Byte) : (putByte s a b).lastStatic = s.lastStatic := rfl

end Sys2Proof.Machine
end

