-- ==== Sys2Proof/Laws/Registers.lean ====
section
/-! SUPPORT. Components read after they are set, and what writing a register, setting the PC and retiring do: one lemma
per shared operation, in the terms of `Moves` and `Retires`. -/

namespace Sys2Proof.Machine

open Sys2Proof

/-! ### Components -/

theorem coreOf_setCore (s : State) (c j : Nat) (x : CoreSt) : coreOf (setCore s c x) j = if j = c then x else coreOf s j := by
  simp [coreOf, setCore, get_put]

@[simp] theorem coreOf_setCore_same (s : State) (c : Nat) (x : CoreSt) : coreOf (setCore s c x) c = x := by
  simp [coreOf_setCore]

theorem ctxOf_setCtx (s : State) (k j : Nat) (x : Ctx) : ctxOf (setCtx s k x) j = if j = k then x else ctxOf s j := by
  simp [ctxOf, setCtx, get_put]

@[simp] theorem ctxOf_setCtx_same (s : State) (k : Nat) (x : Ctx) : ctxOf (setCtx s k x) k = x := by simp [ctxOf_setCtx]

theorem ownerOf_setOwner (s : State) (o j : Nat) (x : Owner) :
    ownerOf (setOwner s o x) j = if j = o then x else ownerOf s j := by simp [ownerOf, setOwner, get_put]

@[simp] theorem ownerOf_setOwner_same (s : State) (o : Nat) (x : Owner) : ownerOf (setOwner s o x) o = x := by
  simp [ownerOf_setOwner]

theorem ringOf_setRing (s : State) (r j : Nat) (x : RingSt) : ringOf (setRing s r x) j = if j = r then x else ringOf s j := by
  simp [ringOf, setRing, get_put]

@[simp] theorem ringOf_setRing_same (s : State) (r : Nat) (x : RingSt) : ringOf (setRing s r x) r = x := by
  simp [ringOf_setRing]

theorem ifaceOf_setIface (s : State) (i j : Nat) (x : Iface) :
    ifaceOf (setIface s i x) j = if j = i then x else ifaceOf s j := by simp [ifaceOf, setIface, get_put]

@[simp] theorem ifaceOf_setIface_same (s : State) (i : Nat) (x : Iface) : ifaceOf (setIface s i x) i = x := by
  simp [ifaceOf_setIface]

@[simp] theorem recOf_setRec_same (s : State) (i n : Nat) (x : LRec) : recOf (setRec s i n x) i n = x := by
  simp [recOf, setRec]

theorem frameOf_setFrame (s : State) (c f a b : Nat) (x : Frame) :
    frameOf (setFrame s c f x) a b = if a = c ∧ b = f then x else frameOf s a b := by
  by_cases h : a = c
  · subst h; by_cases e : b = f <;> simp [frameOf, setFrame, get_put, e]
  · simp [frameOf, setFrame, coreOf_setCore, h]

@[simp] theorem frameOf_setFrame_same (s : State) (c f : Nat) (x : Frame) : frameOf (setFrame s c f x) c f = x := by
  simp [frameOf_setFrame]

theorem bareCore_setFrame (s : State) (c f : Nat) (x : Frame) (a : Nat) :
    bareCore (coreOf (setFrame s c f x) a) = bareCore (coreOf s a) := by
  by_cases h : a = c
  · subst h; simp [setFrame, bareCore]
  · simp [setFrame, coreOf_setCore, h]

@[simp] theorem coreOf_setFrame_sup (s : State) (c f : Nat) (x : Frame) (a : Nat) :
    (coreOf (setFrame s c f x) a).sup = (coreOf s a).sup := by
  have h := congrArg CoreSt.sup (bareCore_setFrame s c f x a); exact h

@[simp] theorem coreOf_setFrame_supFrame (s : State) (c f : Nat) (x : Frame) (a : Nat) :
    (coreOf (setFrame s c f x) a).supFrame = (coreOf s a).supFrame := by
  have h := congrArg CoreSt.supFrame (bareCore_setFrame s c f x a); exact h

@[simp] theorem coreOf_setFrame_hregs (s : State) (c f : Nat) (x : Frame) (a : Nat) :
    (coreOf (setFrame s c f x) a).hregs = (coreOf s a).hregs := by
  by_cases h : a = c
  · subst h; simp [setFrame]
  · simp [setFrame, coreOf_setCore, h]

@[simp] theorem coreOf_setFrame_hpc (s : State) (c f : Nat) (x : Frame) (a : Nat) :
    (coreOf (setFrame s c f x) a).hpc = (coreOf s a).hpc := by
  by_cases h : a = c
  · subst h; simp [setFrame]
  · simp [setFrame, coreOf_setCore, h]

@[simp] theorem coreOf_setCtx (s : State) (k : Nat) (x : Ctx) (c : Nat) : coreOf (setCtx s k x) c = coreOf s c := rfl
@[simp] theorem frameOf_setCtx (s : State) (k : Nat) (x : Ctx) (c f : Nat) : frameOf (setCtx s k x) c f = frameOf s c f := rfl
@[simp] theorem ctxOf_setCore (s : State) (c : Nat) (x : CoreSt) (k : Nat) : ctxOf (setCore s c x) k = ctxOf s k := rfl
@[simp] theorem ctxOf_setFrame (s : State) (c f : Nat) (x : Frame) (k : Nat) : ctxOf (setFrame s c f x) k = ctxOf s k := rfl
@[simp] theorem ctxOf_setCur (s : State) (x : Frame) (k : Nat) : ctxOf (setCur s x) k = ctxOf s k := rfl

/-! ### The issuing frame -/

@[simp] theorem curFrame_setCur (s : State) (x : Frame) : curFrame (setCur s x) = x := by simp [curFrame, setCur]
@[simp] theorem inHandler_setCur (s : State) (x : Frame) : inHandler (setCur s x) = inHandler s := by
  simp [inHandler, curCore, setCur]
@[simp] theorem curCore_setCur_hregs (s : State) (x : Frame) : (curCore (setCur s x)).hregs = (curCore s).hregs := by
  simp [curCore, setCur]
@[simp] theorem curCore_setCur_hpc (s : State) (x : Frame) : (curCore (setCur s x)).hpc = (curCore s).hpc := by
  simp [curCore, setCur]

/-- g0 reads 0 (R50). -/
theorem rd_zero (s : State) : rd s 0 = 0 := by unfold rd; rw [if_pos rfl]

@[simp] theorem rd_zero_lit (s : State) : rd s 0#5 = 0 := rd_zero s

/-- A move keeps who runs: the handler or the frame. -/
theorem Moves.handler {u t : State} {g : Frame → Frame} {ds : List Reg} {pc : Word} (h : Moves u t g ds pc) :
    t.cur = u.cur ∧ inHandler t = inHandler u := by
  have hc : t.cur = u.cur := by have e := congrArg State.cur h.rest; exact e
  have hb := h.core u.cur.1
  refine ⟨hc, ?_⟩
  have h1 : (coreOf t u.cur.1).sup = (coreOf u u.cur.1).sup := by have e := congrArg CoreSt.sup hb; exact e
  have h2 : (coreOf t u.cur.1).supFrame = (coreOf u u.cur.1).supFrame := by have e := congrArg CoreSt.supFrame hb; exact e
  simp [inHandler, curCore, hc, h1, h2]

/-- Nothing at all. -/
theorem moves_refl (s : State) : Moves s s id [] (curPc s) where
  rest := rfl
  bytes := fun _ => rfl
  core := fun _ => rfl
  frames := fun _ _ _ => rfl
  frame := rfl
  ctx := fun _ => rfl
  others := fun _ _ => ⟨rfl, rfl⟩
  idle := by split <;> exact ⟨rfl, rfl⟩
  regs := fun _ _ => rfl
  pc := rfl

/-- Setting a frame that keeps its registers and PC moves nothing else. -/
theorem moves_setCur (s : State) (g : Frame → Frame) (hr : (g (curFrame s)).regs = (curFrame s).regs)
    (hp : (g (curFrame s)).pc = (curFrame s).pc) : Moves s (setCur s (g (curFrame s))) g [] (curPc s) where
  rest := rfl
  bytes := fun _ => rfl
  core := fun a => bareCore_setFrame ..
  frames := fun c f h => by
    have : ¬(c = s.cur.1 ∧ f = s.cur.2) := fun e => h (by rw [e.1, e.2])
    simp [setCur, frameOf_setFrame, this]
  frame := by simp
  ctx := fun _ => rfl
  others := fun c _ => by simp [setCur]
  idle := by split <;> simp [hr, hp]
  regs := fun r _ => by simp [rd, hr]
  pc := by simp [curPc, hp]

/-- Setting the PC. -/
theorem moves_setPc (s : State) (p : Word) : Moves s (setPc s p) id [] p := by
  by_cases h : inHandler s = true
  · have hs : setPc s p = setCore s s.cur.1 { curCore s with hpc := p } := by simp [setPc, h]
    have hh : inHandler (setPc s p) = true := by rw [hs]; simpa [inHandler, curCore] using h
    refine ⟨by rw [hs]; rfl, fun _ => by rw [hs]; rfl, fun a => ?_, fun c f _ => ?_, ?_, fun _ => by rw [hs]; rfl, fun c hc => ?_,
      ?_, fun r _ => ?_, ?_⟩
    · rw [hs]; by_cases e : a = s.cur.1
      · subst e; simp [bareCore, curCore]
      · simp [coreOf_setCore, e]
    · rw [hs]; by_cases e : c = s.cur.1
      · subst e; simp [frameOf, curCore]
      · simp [frameOf, coreOf_setCore, e]
    · rw [hs]; simp [curFrame, frameOf, curCore]
    · rw [hs]; simp [coreOf_setCore, hc]
    · rw [if_pos h, hs]; simp [curFrame, frameOf, curCore]
    · by_cases e : r = 0
      · subst e; simp
      · simp only [rd, e, if_false, hh, h, if_true]; simp [hs, curCore]
    · simp only [curPc, hh, if_true]; simp [hs, curCore]
  · have hs : setPc s p = setCur s { curFrame s with pc := p } := by simp [setPc, h]
    have hf : inHandler s = false := by simpa using h
    rw [hs]
    refine ⟨rfl, fun _ => rfl, fun a => bareCore_setFrame .., fun c f hc => ?_, by simp [bareFrame], fun _ => rfl,
      fun c _ => by simp [setCur], by simp [hf], fun r _ => by simp [rd, hf], by simp [curPc, hf]⟩
    have : ¬(c = s.cur.1 ∧ f = s.cur.2) := fun e => hc (by rw [e.1, e.2])
    simp [setCur, frameOf_setFrame, this]

/-- Writing a register. -/
theorem moves_wr (s : State) (d : Reg) (v : Word) : Moves s (wr s d v) id [d] (curPc s) := by
  by_cases hd : d = 0
  · have h : wr s d v = s := by simp [wr, hd]
    rw [h]; exact { moves_refl s with regs := fun _ _ => rfl }
  by_cases h : inHandler s = true
  · have hs : wr s d v = setCore s s.cur.1 { curCore s with hregs := (curCore s).hregs.set d.toNat v d.isLt } := by
      unfold wr; rw [if_neg hd, if_pos h]
    have hh : inHandler (wr s d v) = true := by rw [hs]; simpa [inHandler, curCore] using h
    refine ⟨by rw [hs]; rfl, fun _ => by rw [hs]; rfl, fun a => ?_, fun c f _ => ?_, ?_, fun _ => by rw [hs]; rfl, fun c hc => ?_,
      ?_, fun r hr => ?_, ?_⟩
    · rw [hs]; by_cases e : a = s.cur.1
      · subst e; simp [bareCore, curCore]
      · simp [coreOf_setCore, e]
    · rw [hs]; by_cases e : c = s.cur.1
      · subst e; simp [frameOf, curCore]
      · simp [frameOf, coreOf_setCore, e]
    · rw [hs]; simp [curFrame, frameOf, curCore]
    · rw [hs]; simp [coreOf_setCore, hc]
    · rw [if_pos h, hs]; simp [curFrame, frameOf, curCore]
    · by_cases e : r = 0
      · subst e; simp
      · have hne : d.toNat ≠ r.toNat := fun e => hr (by simp [BitVec.eq_of_toNat_eq e])
        simp only [rd, e, if_false, hh, h, if_true]
        simp [hs, curCore, hne]
    · simp only [curPc, hh, h, if_true]; simp [hs, curCore]
  · have hf : inHandler s = false := by simpa using h
    have hs : wr s d v = setCur s { curFrame s with regs := (curFrame s).regs.set d.toNat v d.isLt } := by
      unfold wr; rw [if_neg hd, if_neg h]
    rw [hs]
    refine ⟨rfl, fun _ => rfl, fun a => bareCore_setFrame .., fun c f hc => ?_, by simp [bareFrame], fun _ => rfl,
      fun c _ => by simp [setCur], by simp [hf], fun r hr => ?_, by simp [curPc, hf]⟩
    · have : ¬(c = s.cur.1 ∧ f = s.cur.2) := fun e => hc (by rw [e.1, e.2])
      simp [setCur, frameOf_setFrame, this]
    · by_cases e : r = 0
      · subst e; simp
      · have hne : d.toNat ≠ r.toNat := fun e => hr (by simp [BitVec.eq_of_toNat_eq e])
        simp [rd, hf, hne]

/-- The register just written (R50: g0 keeps reading 0). -/
theorem rd_wr_same (s : State) (d : Reg) (v : Word) (hd : d ≠ 0) : rd (wr s d v) d = v := by
  by_cases h : inHandler s = true
  · have hs : wr s d v = setCore s s.cur.1 { curCore s with hregs := (curCore s).hregs.set d.toNat v d.isLt } := by
      unfold wr; rw [if_neg hd, if_pos h]
    have hh : inHandler (wr s d v) = true := by rw [hs]; simpa [inHandler, curCore] using h
    simp only [rd, hd, if_false, hh, if_true]; simp [hs, curCore]
  · have hs : wr s d v = setCur s { curFrame s with regs := (curFrame s).regs.set d.toNat v d.isLt } := by
      unfold wr; rw [if_neg hd, if_neg h]
    unfold rd; rw [if_neg hd, hs]; simp [h]

/-- One move after another; the second looks at nothing of the frame but what the first left. -/
theorem Moves.trans {u t v : State} {g k : Frame → Frame} {ds es : List Reg} {p q : Word} (a : Moves u t g ds p)
    (b : Moves t v k es q) (hk : ∀ x y, bareFrame x = bareFrame y → bareFrame (k x) = bareFrame (k y)) :
    Moves u v (k ∘ g) (ds ++ es) q where
  rest := by
    have h1 := a.rest
    have h2 := b.rest
    calc { v with cores := u.cores, ctxs := u.ctxs }
        = { { v with cores := t.cores, ctxs := t.ctxs } with cores := u.cores, ctxs := u.ctxs } := rfl
      _ = { t with cores := u.cores, ctxs := u.ctxs } := by rw [h2]
      _ = u := h1
  bytes := fun x => (b.bytes x).trans (a.bytes x)
  core := fun c => (b.core c).trans (a.core c)
  frames := fun c f h => (b.frames c f (by rw [a.handler.1]; exact h)).trans (a.frames c f h)
  frame := b.frame.trans (hk _ _ a.frame)
  ctx := fun j => (b.ctx j).trans (a.ctx j)
  others := fun c h =>
    ⟨((b.others c (by rw [a.handler.1]; exact h)).1).trans (a.others c h).1,
     ((b.others c (by rw [a.handler.1]; exact h)).2).trans (a.others c h).2⟩
  idle := by
    have h1 := a.idle
    have h2 := b.idle
    rw [a.handler.2] at h2
    split at h1 <;> simp_all
  regs := fun r h => by
    rw [b.regs r (fun e => h (List.mem_append_right _ e)), a.regs r (fun e => h (List.mem_append_left _ e))]
  pc := b.pc

/-- Fewer promises about registers. -/
theorem Moves.widen {u t : State} {g : Frame → Frame} {ds es : List Reg} {p : Word} (a : Moves u t g ds p)
    (h : ∀ r ∈ ds, r ∈ es) : Moves u t g es p :=
  { a with regs := fun r hr => a.regs r fun e => hr (h r e) }

/-! ### Retiring -/

@[simp] theorem coreOf_countRetire (s : State) (c : Nat) : coreOf (countRetire s) c = coreOf s c := by
  unfold countRetire; split <;> rfl
@[simp] theorem cur_countRetire (s : State) : (countRetire s).cur = s.cur := by unfold countRetire; split <;> rfl

/-- Counting a retirement changes QRET of the issuing context, of a deterministic lineage, and nothing else (R135). -/
theorem retires_countRetire (s : State) : Retires s (countRetire s) id [] (curPc s) := by
  have hc : (countRetire s).cores = s.cores := by unfold countRetire; split <;> rfl
  have hx : ∀ k, ctxOf (countRetire s) k =
      if k = curCtx s ∧ inHandler s = false ∧ detLin s (curFrame s).lin = true then
        { ctxOf s k with qret := ((ctxOf s k).qret + 1) % 2 ^ 32 } else ctxOf s k := by
    intro k; unfold countRetire
    by_cases h : (!inHandler s && detLin s (curFrame s).lin) = true
    · have h' := h; simp only [Bool.and_eq_true, Bool.not_eq_true'] at h'
      rw [if_pos h, ctxOf_setCtx]
      by_cases e : k = curCtx s
      · subst e; simp [h']
      · simp [e]
    · have h' : ¬(inHandler s = false ∧ detLin s (curFrame s).lin = true) := by simpa using h
      rw [if_neg h, if_neg fun e => h' e.2]
  have hsame : { countRetire s with ctxs := s.ctxs } = s := by unfold countRetire; split <;> rfl
  have hread : ∀ {α : Type} (p : State → α), (∀ c, p { s with ctxs := c } = p s) → p (countRetire s) = p s := by
    intro α p hp
    have : countRetire s = { s with ctxs := (countRetire s).ctxs } := by unfold countRetire; split <;> rfl
    rw [this]; exact hp _
  refine ⟨⟨?_, fun a => hread (byteAt · a) fun _ => rfl, fun c => by simp, fun c f _ => by simp [frameOf],
    by simp [curFrame, frameOf], fun k => ?_, fun c _ => by simp, ?_, fun r _ => hread (rd · r) fun _ => rfl,
    hread curPc fun _ => rfl⟩, fun k => ?_⟩
  · rw [← hc]; exact hsame
  · rw [hx]; split <;> rfl
  · split <;> simp [curFrame, frameOf, curCore]
  · rw [hx]; split <;> rfl

/-- A move, then retiring: QRET counts as if nothing had moved. -/
theorem Moves.retire {u t : State} {g : Frame → Frame} {ds : List Reg} {p : Word} (a : Moves u t g ds p)
    (hl : ∀ x, (g x).lin = x.lin) (ho : ∀ x, (g x).owner = x.owner) (hq : t.ctxs = u.ctxs) :
    Retires u (countRetire t) g ds p := by
  have r := retires_countRetire t
  have h1 : (curFrame t).lin = (curFrame u).lin := by have e := congrArg Frame.lin a.frame; exact Eq.trans e (hl _)
  have h2 : (curFrame t).owner = (curFrame u).owner := by have e := congrArg Frame.owner a.frame; exact Eq.trans e (ho _)
  have hi : t.ifaces = u.ifaces := by have e := congrArg State.ifaces a.rest; exact e
  have hk : curCtx t = curCtx u := by simp [curCtx, curOwner, a.handler.1, a.handler.2, h2]
  have hd : detLin t (curFrame t).lin = detLin u (curFrame u).lin := by
    simp [detLin, recOf, ifaceOf, hi, h1]
  refine ⟨{ (a.trans r.moves fun _ _ h => h) with pc := r.moves.pc.trans a.pc, regs := ?_ }, fun k => ?_⟩
  · intro x hx; rw [r.moves.regs x (by simp), a.regs x hx]
  · have := r.qret k
    rw [hk, hd, a.handler.2] at this
    simpa [ctxOf, hq] using this

/-- `retire4`: the PC moves by four and the instruction retires. -/
theorem retires_retire4 (s : State) : Retires s (retire4 s) id [] (curPc s + 4) :=
  (moves_setPc s _).retire (fun _ => rfl) (fun _ => rfl) (by unfold setPc; split <;> rfl)

/-- `finish`: register d and the PC are written, and the instruction retires. -/
theorem retires_finish (s : State) (d : Reg) (v : Word) : Retires s (finish s d v) id [d] (curPc s + 4) := by
  have a := moves_wr s d v
  have b := a.trans (moves_setPc (wr s d v) (curPc (wr s d v) + 4)) fun _ _ h => h
  rw [a.pc] at b
  have e : finish s d v = countRetire (setPc (wr s d v) (curPc s + 4)) := by simp [finish, retire4, a.pc]
  rw [e]
  refine (b.widen (es := [d]) (by simp)).retire (fun _ => rfl) (fun _ => rfl) ?_
  have h1 : ∀ x p, (setPc x p).ctxs = x.ctxs := by intro x p; unfold setPc; split <;> rfl
  rw [h1]; unfold wr; split
  · rfl
  · split <;> rfl

/-- The register that `finish` writes. -/
theorem rd_finish (s : State) (d : Reg) (v : Word) (hd : d ≠ 0) : rd (finish s d v) d = v := by
  unfold finish
  rw [(retires_retire4 (wr s d v)).moves.regs d (by simp), rd_wr_same s d v hd]

/-- An instruction whose meaning is `finish` writes its destination and nothing else. -/
theorem writes_of_finish {i : Instr} {s : State} {d : Reg} {v : Word} {P : Word → Prop}
    (h : exec i s = .next (finish s d v)) (hP : P v) : Writes i s d P :=
  ⟨_, h, retires_finish s d v, fun hd => by rw [rd_finish s d v hd]; exact hP, by simp⟩

/-- A transfer of control: the fetch buffer is emptied outside the handler (R164), the PC is the target, it retires. -/
theorem retires_jumpTo (s : State) (p : Word) :
    Retires s (jumpTo s p) (fun f => if inHandler s then f else { f with fbuf := [] }) [] p := by
  have e : jumpTo s p = countRetire (setPc (if inHandler s then s else setCur s { curFrame s with fbuf := [] }) p) := rfl
  rw [e]
  by_cases h : inHandler s = true
  · simp only [h, if_true]
    exact (moves_setPc s p).retire (fun _ => rfl) (fun _ => rfl) (by unfold setPc; split <;> rfl)
  · simp only [h, if_false, Bool.false_eq_true]
    have a := moves_setCur s (fun f => { f with fbuf := [] }) rfl rfl
    have b := a.trans (moves_setPc _ p) fun _ _ h => h
    exact b.retire (fun _ => rfl) (fun _ => rfl) (by unfold setPc; split <;> rfl)

/-! ### The end of a step -/

/-- A step that wrote nothing in memory is its state. -/
theorem commit_clean (s t : State) (hm : t.mem = s.mem) (hw : t.wbuf = []) : commit s t = .next t := by
  cases t; simp_all [commit]

end Sys2Proof.Machine
end

