-- ==== Sys2Proof/Tests/Slice0.lean ====
section
/-! SUPPORT. Tests: ill-formed instructions refused, words written out from the encoding tables of the spec, one step of
an instruction on a small state, and states and operands that meet the hypotheses of the statements, boundary values among
them. -/

namespace Sys2Proof.Tests

open Sys2Proof Sys2Proof.Machine

set_option Elab.async false

/-! ### Small states -/

/-- A bank of an owner. -/
def tBank (o : Nat) : Bank := { owner := o, valid := true, clean := false }

/-- A 4 KiB page of owner 1 that reads and writes. -/
def tPage (va pa treat : Nat) (swr : Bool) : Xlat :=
  { owner := 1, page := va, size := 4096, pa := pa, rd := true, wr := true, treat := treat, shr := false, swr := swr, kidx := 0 }

/-- The activation of owner 1 in frame 0, with the tables' pages in the TLB of its core: plain, self-invalidating,
uncached and single-writer DRAM, and a page of the host window. -/
def tCore : CoreSt :=
  { frames := [(0, { st := .active, act := 7, owner := 1, pc := 0x40 })]
    banks  := [(0, tBank 1), (1, tBank 0)]
    tlb    := [tPage 0x10000 0x20000 0 false, tPage 0x11000 0x21000 1 false, tPage 0x12000 0x22000 2 false,
               tPage 0x13000 0x23000 0 true, tPage 0x14000 Config.hostBase 2 false] }

/-- Core 0 with owner 1 in bank 0 and owner 0 in bank 1. -/
def tS : State :=
  { State.reset with cores := [(0, tCore)], owners := [(0, { live := true }), (1, { live := true, iface := 2 })], nextId := 100 }

/-- `tS` with registers of the issuing frame set. -/
def tR (l : List (Reg × Word)) : State := l.foldl (fun s p => wr s p.1 p.2) tS

/-- `tS` with its frame changed. -/
def tF (u : Frame → Frame) : State := setCur tS (u (curFrame tS))

/-- `tS` with the context of owner 1 changed. -/
def tC (u : Ctx → Ctx) : State := setCtx tS 1 (u (ctxOf tS 1))

/-- The handler runs on the core of `tS`. -/
def tH : State := setCore tS 0 { tCore with sup := true, supFrame := 0, hpc := 0x80 }

/-- A message of core 1 for owner 1 on core 0. -/
def tMsg (b : Body) : Msg := { id := 50, ctx := 4097, frame := 0, act := 3, core := 0, owner := 1, body := b, tag := [] }

/-- `tS` with one message in the fabric. -/
def tNet (b : Body) : State := { tS with net := [tMsg b] }

/-- No lineage. -/
def tLin : Lin := { early := false, launch := none }

/-- A request of the issuing frame. -/
def tReq (k : ReqKind) : Req :=
  { id := 60, ctx := 1, frame := 0, act := 7, kind := k, treat := 2, share := none, lin := tLin, after := [], reads := [], pub := [],
    inval := [], tag := [], rel := false, va := 0, pc := 0x40, parked := false }

/-- `tS` with one request that the frame is owed an answer for. -/
def tQ (k : ReqKind) : State :=
  { tF (fun f => { f with owed := [{ id := 60, reg := 3, val := none, learn := none }] }) with reqs := [tReq k] }

/-- A queue entry of the issuing frame. -/
def tEntry (i : Nat) (b : QBody) : QEntry :=
  { id := i, frame := 0, act := 7, share := none, bank := 0, body := b, weak := true, rel := false, held := false, lin := tLin, after := [],
    reads := [], pub := [], acked := [], tag := [] }

/-- A read of the issuing frame. -/
def tRead (m : Nat) (t : Tgt) : Read :=
  { id := 70, ctx := 1, frame := 0, act := 7, tgt := t, len := 8, sx := false, treat := 0, share := none, mode := m, miss := false, after := [], inval := [],
    va := 0, pc := 0x40, owed := 70, parked := false }

/-- The state of a step that goes on. -/
def tNext : Res → State
  | .next t => t
  | _ => State.reset

/-! ### Ill-formed words (R60-R66) -/

theorem smoke_event : (Instr.issueDraw 0).wellFormed = false := by decide
theorem smoke_field_past_64 : (Instr.bfx 1 2 1 63).wellFormed = false ∧ (Instr.bfx 1 2 0 63).wellFormed = true := by decide
theorem smoke_odd_load_pair : (Instr.ldQ 3 1 .weak 0).wellFormed = false ∧ (Instr.ldQ 2 1 .weak 0).wellFormed = true := by decide
theorem smoke_odd_store_pair : (Instr.stQ 31 1 .weak 0).wellFormed = false := by decide
theorem smoke_no_return_with_d : (Instr.amoAdd 1 2 3 .i64 true .rlx).wellFormed = false
    ∧ (Instr.amoAdd 0 2 3 .i64 true .rlx).wellFormed = true := by decide
theorem smoke_float_type_of_integer_amo : (Instr.amoXor 1 2 3 .f32 false .rlx).wellFormed = false := by decide
theorem smoke_swap_type : (Instr.amoSwap 1 2 3 .bf16 false .rlx).wellFormed = false := by decide
theorem smoke_integer_type_of_float_amo : (Instr.amoFadd 1 2 3 .i32 false .rlx).wellFormed = false := by decide
theorem smoke_cas_type : (Instr.amoCas 1 2 3 .p32 .rlx).wellFormed = false := by decide
theorem smoke_odd_casq : (Instr.amoCasq 2 1 3 .rlx).wellFormed = false ∧ (Instr.amoCasq 2 1 4 .ar).wellFormed = true := by decide
theorem smoke_special_number : (Instr.mfs 1 0x00F).wellFormed = false ∧ (Instr.mts 1 0x10B).wellFormed = false := by decide
theorem smoke_handle_counts : (Instr.hwait 1 0 0).wellFormed = false ∧ (Instr.hlda 1 0 8).wellFormed = false := by decide
theorem smoke_vector_types : (Instr.vadd 1 2 3 .c8).wellFormed = false ∧ (Instr.vrng 1 2 3 .i8).wellFormed = false
    ∧ (Instr.vabs 1 2 3 .n8).wellFormed = false ∧ (Instr.vmexp 1 2 3 .i8).wellFormed = false := by decide

/-! ### Words from the spec's encoding (R47-R66) -/

/-- A word of the A or C form from its fields. -/
def wordA (op : BitVec 6) (d a b : BitVec 5) (fn : BitVec 11) : BitVec 32 := op ++ d ++ a ++ b ++ fn

theorem decode_zero_word : decodeWord 0#32 = .error .major := by decide
theorem decode_done : decodeWord 0x70000002#32 = .ok .done := by decide
theorem decode_integer : decodeWord (wordA 0x01 1 2 3 0x00C) = .ok (.ror 1 2 3) := by decide
theorem decode_integer_last : decodeWord (wordA 0x01 1 2 0 0x021) = .ok (.zxw 1 2) := by decide
theorem decode_divide : decodeWord (wordA 0x02 4 5 6 0x007) = .ok (.remn 4 5 6) := by decide
theorem decode_immediates : decodeWord (0x04#6 ++ 1#5 ++ 2#5 ++ 0xFFFF#16) = .ok (.andi 1 2 0xFFFF)
    ∧ decodeWord (0x08#6 ++ 1#5 ++ 2#5 ++ 0x8000#16) = .ok (.sltni 1 2 0x8000) := by decide
theorem decode_shift_kind_4 : decodeWord (0x09#6 ++ 1#5 ++ 2#5 ++ 0x0400#16) = .error .sub := by decide
theorem decode_shift_reserved : decodeWord (0x09#6 ++ 1#5 ++ 2#5 ++ 0x0040#16) = .error .reserved := by decide
theorem decode_insert : decodeWord (0x0B#6 ++ 1#5 ++ 2#5 ++ 0#4 ++ 8#6 ++ 3#6) = .ok (.bfi 1 2 8 3) := by decide
theorem decode_adpc : decodeWord (0x0D#6 ++ 1#5 ++ 0x1FFFFF#21) = .ok (.adpc 1 (-1)) := by decide
theorem decode_float : decodeWord (wordA 0x0E 1 2 3 (0x0A#6 ++ 3#5)) = .ok (.fsgnx 1 2 3 .f16)
    ∧ decodeWord (wordA 0x0E 1 2 1 (0x05#6 ++ 0#5)) = .error .reserved := by decide
theorem decode_convert : decodeWord (wordA 0x0F 1 2 2 (0x06#6 ++ 1#5)) = .ok (.fcvtff 1 2 .bf16 .f32) := by decide
theorem decode_special_functions : decodeWord (0x10#6 ++ 1#5 ++ 2#5 ++ 0x8102#16) = .ok (.fred 1 2 1 2) := by decide
theorem decode_branches : decodeWord (0x18#6 ++ 1#5 ++ 2#5 ++ 0x0004#16) = .ok (.bnone 1 2 4)
    ∧ decodeWord (0x19#6 ++ 1#5 ++ 0#5 ++ 0xFFFF#16) = .ok (.dbnz 1 (-1)) := by decide
theorem decode_jumps : decodeWord (0x1A#6 ++ 0x2000000#26) = .ok (.jmp 0x2000000)
    ∧ decodeWord (wordA 0x1C 1 2 0 1) = .ok (.jalr 1 2) := by decide
theorem decode_store_odd_size : decodeWord (0x1E#6 ++ 1#5 ++ 2#5 ++ 1#3 ++ 0#2 ++ 0#11) = .error .sub := by decide
theorem decode_load_order_3 : decodeWord (0x1D#6 ++ 1#5 ++ 2#5 ++ 0#3 ++ 3#2 ++ 0#11) = .error .sub := by decide
theorem decode_cas : decodeWord (wordA 0x20 1 2 3 (0x07#5 ++ 0#3 ++ 0#1 ++ 3#2)) = .ok (.amoCas 1 2 3 .i32 .ar) := by decide
theorem decode_ordered : decodeWord (wordA 0x21 1 2 3 0x01E) = .ok (.ojoin 1 2 3) := by decide
theorem decode_lock : decodeWord (wordA 0x22 1 2 0 0x003) = .ok (.wrul 1 2) := by decide
theorem decode_handle : decodeWord (0x23#6 ++ 0#5 ++ 15#4 ++ 0#6 ++ 4#11) = .ok (.hrel 15) := by decide
theorem decode_send : decodeWord (wordA 0x24 1 2 3 2) = .ok (.wopen 1 2 3) := by decide
theorem decode_task : decodeWord (wordA 0x25 1 0 0 7) = .ok (.qsync 1) := by decide
theorem decode_cache : decodeWord (wordA 0x26 0 2 3 4) = .ok (.pfch 2 3) := by decide
theorem decode_fence : decodeWord (wordA 0x27 0 0 0 (3#3 ++ 0#5 ++ 4#3)) = .ok (.fenceEng .pool) := by decide
theorem decode_vector : decodeWord (wordA 0x28 1 2 3 (0x16#6 ++ 12#5)) = .ok (.valign 1 2 3 .c8)
    ∧ decodeWord (wordA 0x28 1 2 3 (0x00#6 ++ 13#5)) = .error .sub := by decide
theorem decode_carousel : decodeWord (wordA 0x29 1 2 3 9) = .ok (.mspm 1 2 3) := by decide
theorem decode_streamer : decodeWord (wordA 0x2A 1 2 0 8) = .ok (.cabort 1 2) := by decide
theorem decode_tables : decodeWord (wordA 0x2B 1 2 0 7) = .ok (.dec 1 2) := by decide
theorem decode_tombola : decodeWord (wordA 0x2C 1 2 0 4) = .ok (.shq 1 2) := by decide
theorem decode_capability : decodeWord (wordA 0x2D 1 2 0 3) = .ok (.caccept 1 2) := by decide
theorem decode_containment : decodeWord (wordA 0x2E 1 2 3 5) = .ok (.cread 1 2 3) := by decide
theorem decode_lines : decodeWord (wordA 0x2F 0 2 3 4) = .ok (.bbarr 2 3) := by decide
theorem decode_special : decodeWord (0x38#6 ++ 1#5 ++ 0#5 ++ 0x00E#16) = .ok (.mfs 1 0x00E)
    ∧ decodeWord (0x38#6 ++ 1#5 ++ 0#5 ++ 0x0FF#16) = .error .spr := by decide
theorem decode_system : decodeWord (wordA 0x3A 0 0 0 2) = .ok .tret ∧ decodeWord (wordA 0x3A 1 0 0 2) = .error .reserved := by decide
theorem decode_bytes_little_endian : decode [0x02, 0x00, 0x00, 0x70] = .ok (.done, []) := by decide

/-! ### One step of single instructions -/

/-- The value of register 3 after an instruction. -/
def g3 (i : Instr) (l : List (Reg × Word)) : Word := rd (tNext (exec i (tR l))) 3

theorem test_add_wraps : g3 (.add 3 1 2) [(1, allOnes), (2, 2)] = 1 := by decide +kernel
theorem test_sra_sign : g3 (.sra 3 1 2) [(1, 0x8000000000000000), (2, 67)] = 0xF000000000000000 := by decide +kernel
theorem test_rol : g3 (.rol 3 1 2) [(1, 0x8000000000000001), (2, 1)] = 3 := by decide +kernel
theorem test_slt_signed : g3 (.slt 3 1 2) [(1, allOnes), (2, 0)] = 1 ∧ g3 (.sltn 3 1 2) [(1, allOnes), (2, 0)] = 0 := by
  decide +kernel
theorem test_sel_reads_d : g3 (.sel 3 1 2) [(1, 5), (2, 6), (3, 0)] = 6 ∧ g3 (.sel 3 1 2) [(1, 5), (2, 6), (3, 9)] = 5 := by
  decide +kernel
theorem test_clz_zero : g3 (.clz 3 1) [] = 64 ∧ g3 (.ctz 3 1) [(1, 8)] = 3 := by decide +kernel
theorem test_bswap : g3 (.bswap 3 1) [(1, 0x0102030405060708)] = 0x0807060504030201 := by decide +kernel
theorem test_div_corners : (curFrame (tNext (exec (.div 3 1 2) (tR [(1, 7)])))).owed.map Owed.val = [some allOnes]
    ∧ (curFrame (tNext (exec (.div 3 1 2) (tR [(1, 0x8000000000000000), (2, allOnes)])))).owed.map Owed.val
        = [some 0x8000000000000000] := by decide +kernel
theorem test_rem_sign : (curFrame (tNext (exec (.rem 3 1 2) (tR [(1, -7), (2, 2)])))).owed.map Owed.val = [some (-1)] := by
  decide +kernel
theorem test_mulh : (curFrame (tNext (exec (.mulh 3 1 2) (tR [(1, -1), (2, 1)])))).owed.map Owed.val = [some allOnes] := by
  decide +kernel
theorem test_andi_zero_extends : g3 (.andi 3 1 0xFFFF) [(1, allOnes)] = 0xFFFF := by decide +kernel
theorem test_bfxs : g3 (.bfxs 3 1 4 3) [(1, 0x80)] = 0xFFFFFFFFFFFFFFF8 := by decide +kernel
theorem test_bfi : g3 (.bfi 3 1 8 7) [(1, 0xAB), (3, allOnes)] = 0xFFFFFFFFFFFFABFF := by decide +kernel
theorem test_ldhi_sign : g3 (.ldhi 3 0x100000) [] = 0xFFFFFFF000000000 := by decide +kernel
theorem test_adpc : g3 (.adpc 3 (-1)) [] = 0x3C := by decide +kernel
theorem test_g0_discards : rd (tNext (exec (.addi 0 0 5) tS)) 0 = 0 ∧ curPc (tNext (exec (.addi 0 0 5) tS)) = 0x44 := by
  decide +kernel
theorem test_fadd_f32 : g3 (.fadd 3 1 2 .f32) [(1, 0x3F800000), (2, 0x40000000)] = 0x40400000 := by decide +kernel
theorem test_fdiv_by_zero : g3 (.fdiv 3 1 2 .f64) [(1, 0x3FF0000000000000)] = 0x7FF0000000000000
    ∧ (curFrame (tNext (exec (.fdiv 3 1 2 .f64) (tR [(1, 0x3FF0000000000000)])))).fflags = 2 := by decide +kernel
theorem test_fcvti_saturates : g3 (.fcvti 3 1 .n32 .f32) [(1, 0xBF800000)] = 0 := by decide +kernel
theorem test_fclass_subnormal : g3 (.fclass 3 1 .f16) [(1, 0x0001)] = 32 := by decide +kernel
theorem test_dbnz : curPc (tNext (exec (.dbnz 1 (-1)) (tR [(1, 2)]))) = 0x3C
    ∧ curPc (tNext (exec (.dbnz 1 (-1)) (tR [(1, 1)]))) = 0x44 := by decide +kernel
theorem test_jalr_same_register : let t := tNext (exec (.jalr 1 1) (tR [(1, 0x80)])); rd t 1 = 0x44 ∧ curPc t = 0x80 := by
  decide +kernel
theorem test_done_frees : (curFrame (tNext (exec .done tS))).st = .free := by decide +kernel
theorem test_trap_enters_handler : let t := tNext (exec .trap tS)
    inHandler t = true ∧ (coreOf t 0).epc = 0x40 ∧ (coreOf t 0).ecause = 0x1000E := by decide +kernel
theorem test_misaligned_load_ends : (curFrame (tNext (exec (.ldW 3 1 .weak 0) (tR [(1, 0x00F0000000000001)])))).st = .free
    ∧ (coreOf (tNext (exec (.ldW 3 1 .weak 0) (tR [(1, 0x00F0000000000001)]))) 0).ecause = 0x10003 := by decide +kernel
theorem test_store_then_settle : let t := tNext (exec (.stH 3 1 .weak 0) (tR [(1, 0x00F0000000000010), (3, 0x1234)]))
    let u := tNext (exec (.settle 1 0) t)
    (ctxOf t 1).queue.length = 1 ∧ (ctxOf u 1).queue = [] ∧ byteAt u (2 ^ 60 + 16) = 0x34 ∧ byteAt u (2 ^ 60 + 17) = 0x12 := by
  decide +kernel
theorem test_mts_rmode_discarded : (curFrame (tNext (exec (.mts 1 0x005) (tR [(1, 5)])))).rmode = 0
    ∧ (curFrame (tNext (exec (.mts 1 0x005) (tR [(1, 4)])))).rmode = 4 := by decide +kernel
theorem test_widf : g3 (.widf 3 1) [] = 0 := by decide +kernel
theorem test_reset_first_word : let t := tNext (step (State.reset.withFetchWord 32 0x0C200005))
    rd t 1 = 5 ∧ curPc t = 4 := by decide +kernel
theorem test_reset_idles : (tNext (step State.reset)).issuing = false := by decide +kernel
theorem test_tdec_fires : let t := tNext (exec (.tdecArrival 0) { tNet (.tdec 0x20 1) with mem := [(2 ^ 60 + 0x20, 1)] })
    (ctxOf t 1).queue.length = 1 ∧ byteAt t (2 ^ 60 + 0x20) = 0 ∧ byteAt t (2 ^ 60 + 0x24) = 1 := by decide +kernel
theorem test_static_energy : (ownerOf (tNext (exec .staticEnergy { State.reset with clk := 64 })) 0).ectr = 589824 := by
  decide +kernel
theorem test_rail_floor : (tNext (exec (.thermalEmergency 2) tS)).rails = [(0, 4), (1, 4), (2, 4), (3, 4)] := by decide +kernel
theorem test_owner_create : (ownerOf (tNext (exec (.ownerCreate 5 9) tS)) 5).live = true
    ∧ (ownerOf (tNext (exec (.ownerCreate 5 9) tS)) 5).iface = 9 := by decide +kernel
theorem test_bank_assigned : NMap.get (coreOf (tNext (exec (.bankmapWrite 0 (0x8000 + 0x2000 + 1)) tS)) 0).banks 2 {}
    = { owner := 1, valid := true, clean := true } := by decide +kernel
theorem test_cabort_unknown : (curFrame (tNext (exec (.cabort 3 1) (tR [(1, 9)])))).owed.map Owed.val = [some 2] := by decide +kernel
theorem test_tdrop_empty : g3 (.tdrop 3 1) [(1, 255)] = 0 := by decide +kernel
theorem test_amo_add : let s : State := { tQ (.amo 0 .i64 true false (.pa 0x20000) 2 0) with mem := [(0x20000, 5)] }
    let t := tNext (exec (.atomicStep 0) s)
    byteAt t 0x20000 = 7 ∧ (curFrame t).owed.map Owed.val = [some 5] := by decide +kernel
theorem test_write_lock_held : let s : State := { tQ (.lock 1 0x20000 none false) with mem := [(0x20000, 1)] }
    (curFrame (tNext (exec (.lockStep 0) s))).owed.map Owed.val = [some 3] := by decide +kernel
theorem test_fence_tags_stores : ((curFrame (tNext (exec (.fenceSt .dev) tS))).fence).map Tag.scope = some .dev := by decide +kernel

/-! ### The hypotheses of the statements are met, clause by clause -/

/-- Registers of a load or store at an offset of the own window. -/
def tOwn (off : Nat) : State := tR [(1, word (0x00F0000000000000 + off))]

/-- The queue of the issuing context is full. -/
def tFull : State := tC fun c => { c with queue := (upto 16).map fun i => tEntry (i + 1) .marker }

/-- An unserved strong read of the issuing frame to the own bank's start, with the address in register 1. -/
def tStrong : State := { tOwn 0 with reads := [tRead 1 (.loc 0 0)] }

theorem witness_fields_fit : (0#6).toNat + ((63#6).toNat + 1) ≤ 64 ∧ 64 < (1#6).toNat + ((63#6).toNat + 1) := by decide
theorem witness_round_toward_zero : (roundTo (fmtOfCode .f16) 1 (.fin false 3 0)).1 < maxBits (fmtOfCode .f16) false
    ∧ (roundTo (fmtOfCode .f16) 1 (.fin true 1 40)).1 % 2 ^ 15 = maxBits (fmtOfCode .f16) false := by decide +kernel
theorem witness_jump_targets : (rd (tR [(1, 0x7FFFC)]) 1).toNat % 4 = 0 ∧ (rd (tR [(1, 0x7FFFD)]) 1).toNat % 4 ≠ 0 := by
  decide +kernel
theorem witness_trap_and_break : (inHandler tS = false ∧ banksOf tS 0 0 ≠ [])
    ∧ (let s := setCore tS 0 { tCore with banks := [(0, tBank 1)] }; inHandler s = false ∧ banksOf s 0 0 = [])
    ∧ inHandler tH = true := by decide +kernel
theorem witness_trap_outcomes : (inHandler tS = false ∧ (coreOf tS 0).sup = false)
    ∧ (let s := setCore tS 0 { tCore with sup := true, supFrame := 1 }; inHandler s = false ∧ (coreOf s 0).sup = true)
    ∧ noLease tS ∧ (ownerOf tS (curOwner tS)).desc = 0
    ∧ (ownerOf (setOwner tS 1 { ownerOf tS 1 with desc := 64 }) 1).desc ≠ 0
    ∧ (curFrame (tF fun f => { f with lin := { early := false, launch := some (2, 0) } })).lin.launch = some (2, 0) := by
  refine ⟨by decide +kernel, by decide +kernel, ?_, by decide +kernel, by decide +kernel, by decide +kernel⟩
  intro p h; cases h
theorem witness_return_and_idle : inHandler tH = true ∧ inHandler tS = false ∧ (curFrame tS).granted = false
    ∧ (curFrame (tF fun f => { f with granted := true })).granted = true := by decide +kernel
theorem witness_end_of_activation : Inv tS ∧ (curFrame tS).handles = [] ∧ (curFrame tS).slot = none ∧ noLease tS := by
  refine ⟨⟨by decide +kernel, by decide +kernel⟩, by decide +kernel, by decide +kernel, ?_⟩
  intro p h; cases h
theorem witness_calls : (let s := tR [(1, 6143), (2, 0x7FFFC)]
      (rd s 1).toNat < 6144 ∧ (rd s 2).toNat < 2 ^ 19 ∧ (rd s 2).toNat % 4 = 0 ∧ 1 ≤ segmentRoom s (curCtx s) (curBank s))
    ∧ segmentRoom tFull (curCtx tFull) (curBank tFull) = 0
    ∧ ¬(rd (tR [(1, 6144)]) 1).toNat < 6144 ∧ ¬(rd (tR [(2, 0x80000)]) 2).toNat < 2 ^ 19
    ∧ (rd (tR [(2, 0x7FFFD)]) 2).toNat % 4 ≠ 0
    ∧ (bits (word (6143 * 2 ^ 19)) 31 19 < 6144 ∧ (word (6143 * 2 ^ 19)).toNat % 4 = 0)
    ∧ 6144 ≤ bits (word (6144 * 2 ^ 19)) 31 19 ∧ (word 2).toNat % 4 ≠ 0 := by decide +kernel
/-- The issuing activation is of a deterministic launch that runs. -/
def tDet : State :=
  setIface (tF fun f => { f with lin := { early := false, launch := some (2, 0) } }) 2 { records := [(0, { state := .running, det := true })] }

theorem witness_held_message : let s := tDet
    heldKind (.tdec 0 1) = true ∧ inHandler s = false ∧ detLin s (curFrame s).lin = true := by decide +kernel
theorem witness_loads : (whereCur (tOwn 0) (rd (tOwn 0) 1) 0 = .loc 0 0 ∧ (rd (tOwn 0) 1).toNat % 8 = 0)
    ∧ whereCur tS 0x10FF8 0 = .mem 0x20FF8 (tPage 0x10000 0x20000 0 false)
    ∧ (rd (tOwn 1) 1).toNat % 2 ≠ 0 ∧ (rd (tOwn 8) 1).toNat % 16 ≠ 0
    ∧ whereCur tS (word (2 ^ 56)) 0 = .fault 0x06 ∧ whereCur tS 0x20000 0 = .miss := by decide +kernel
theorem witness_stores : (strongReads (tOwn 0) (locsFrom (accessBase (tOwn 0) (.loc 0 0)) 16) = []
      ∧ 2 ≤ segmentRoom (tOwn 0) (curCtx (tOwn 0)) (curBank (tOwn 0)))
    ∧ (whereCur tStrong (rd tStrong 1) 1 = .loc 0 0 ∧ strongReads tStrong (locsFrom (accessBase tStrong (.loc 0 0)) 8) ≠ [])
    ∧ segmentRoom tFull (curCtx tFull) (curBank tFull) < 1 := by decide +kernel
theorem witness_atomics : (whereCur tS 0x10000 2 = .mem 0x20000 (tPage 0x10000 0x20000 0 false)
      ∧ atomicAllowed 0x20000 (tPage 0x10000 0x20000 0 false) = true ∧ atomicsFull tS (curCtx tS) = false
      ∧ strongReads tS (locsFrom (accessBase tS (.mem 0x20000 (tPage 0x10000 0x20000 0 false))) 16) = [])
    ∧ (whereCur tS 0x14000 2 = .mem Config.hostBase (tPage 0x14000 Config.hostBase 2 false)
      ∧ atomicAllowed Config.hostBase (tPage 0x14000 Config.hostBase 2 false) = false
      ∧ whereCur tS 0x14000 2 atomicAllowed = .fault 0x06)
    ∧ (let s : State := { tS with reqs := (upto 32).map fun i => { tReq (.amo 0 .i64 true false (.pa (0x20000 + 8 * i)) 1 0) with id := i } }
       32 ≤ (s.reqs.filter fun q => q.ctx == curCtx s && inAtomicQueue q).length ∧ atomicsFull s (curCtx s) = true)
    ∧ amoForm tS 3 1 2 .i64 false .rlx 7 true 0 0 (.amoCas 3 1 2 .i64 .rlx) := by
  refine ⟨by decide +kernel, by decide +kernel, by decide +kernel, ?_⟩
  exact .inr ⟨rfl, rfl, rfl, by decide +kernel, by decide +kernel⟩
theorem witness_atomic_step : let s := tQ (.amo 7 .i64 true false (.pa 0x20000) (2 ^ 64 - 1) (2 ^ 64 - 1))
    Memory.wf s.mem = true ∧ s.wbuf = [] ∧ (s.reqs[0]?).map (reqReady s) = some true
      ∧ ∀ l ∈ locsFrom (tgtBase s 1 (.pa 0x20000)) 8, poisoned s l = false := by decide +kernel
theorem witness_atomic_step_local : let s := tQ (.amo 13 .i64 true false (.loc 0 0xBFF8) 1 0)
    (s.reqs[0]?).map (reqReady s) = some true ∧ 0xBFF8 < localSize s 0 1 := by decide +kernel
theorem witness_locks : (whereCur tS 0x12000 2 = .mem 0x22000 (tPage 0x12000 0x22000 2 false) ∧ isDram 0x22000 = true)
    ∧ localTarget tS 0x00F0000000000020 = some (0, 0x20) ∧ (0x00F0000000000020 : Word).toNat % 32 = 0
    ∧ whereCur tS 0x11000 2 = .mem 0x21000 (tPage 0x11000 0x21000 1 false) ∧ whereCur (tOwn 0) (rd (tOwn 0) 1) 2 = .loc 0 0
    ∧ (1 : Word).toNat < 2 ∧ 2 ≤ (2 : Word).toNat
    ∧ (let s := tQ (.lock 0 0x20000 none false)
       (s.reqs[0]?).map (reqReady s) = some true ∧ ∀ x ∈ (ringOf s (homeRing s 0x20000)).waiters, x.pa ≠ 0x20000) := by
  decide +kernel

/-- A live header of 4 slots at slot base 16 of the own window. -/
def tHdr : Header :=
  { base := 16, log2n := 2, hoff := 0, hv := false, pcore := 0, pframe := 0, pwin := 0, pv := false, win := 4, head := 3, tail := 1,
    cb := true, pb := true, sparse := false, eaten := [], tags := [] }

/-- The header at offset 0x20, live, with handle 1 its consumer and handle 2 its producer. -/
def tBuf : State :=
  setCur (tC fun c => { c with headers := [(0x20, tHdr)] })
    { curFrame tS with handles := [(1, { hdr := 0x20, producer := false, cursor := 1 }), (2, { hdr := 0x20, producer := true, cursor := 3 })] }

/-- The header image of 4 slots in memory at offset 0x40, which nothing uses. -/
def tHdrMem : State := { tS with mem := [(2 ^ 60 + 0x41, 0x04), (2 ^ 60 + 0x42, 0x20)] }

theorem witness_handles : handleTaken tBuf 1 = false ∧ handleOf tBuf 1 = some { hdr := 0x20, producer := false, cursor := 1 }
    ∧ handleOf tBuf 2 = some { hdr := 0x20, producer := true, cursor := 3 } ∧ handleOf tBuf 3 = none
    ∧ liveHeader tBuf 1 0x20 = some tHdr ∧ slotsOf tHdr = 4
    -- two slots are full, two are free: counts 2 and 3 fall on either side, and 5 is above N
    ∧ (tHdr.head + 2 ^ 32 - 1 % 2 ^ 32) % 2 ^ 32 = 2 ∧ slotsOf tHdr - (3 + 2 ^ 32 - tHdr.tail % 2 ^ 32) % 2 ^ 32 = 2
    ∧ frameReads tBuf = [] ∧ releasable tBuf 1 (releaseAfter tBuf).1 (releaseAfter tBuf).2 [] [] = true
    ∧ strongReads tBuf (locsFrom (accessBase tBuf (.loc 0 (16 * 64 + 64 * 3))) 8) = [] := by decide +kernel
theorem witness_bind_states : (headerAt tBuf 1 0x20 = some tHdr ∧ tHdr.cb = true ∧ tHdr.pb = true)
    ∧ (headerAt tHdrMem 1 0x40).isSome = true ∧ (headerAt tHdrMem 1 0x40).map Header.cb = some false
    ∧ headersFull tHdrMem 1 0x40 = false
    ∧ headersFull (tC fun c => { c with headers := (upto 64).map fun i => (0x20 * (i + 4), tHdr) }) 1 0x40 = true := by decide +kernel
theorem witness_windows : closedWindows (curFrame tS) ≠ []
    ∧ closedWindows (curFrame (tF fun f => { f with windows := (upto 4).map fun i => (i, ⟨1, 0x20, 4, 0, 0, 0⟩) })) = []
    ∧ (let x : Word := word (6143 + 1024 * 2 ^ 16)
       bits x 12 0 < 6144 ∧ bits x 31 16 ≤ 1024 ∧ bits x 15 13 = 0 ∧ x.toNat < 2 ^ 32) ∧ (0x7FFFF : Word).toNat < 2 ^ 19
    ∧ ¬bits (word (1025 * 2 ^ 16)) 31 16 ≤ 1024 := by decide +kernel
theorem witness_sends : let s := tF fun f => { f with windows := [(3, ⟨1, 0x20, 4, 2 ^ 32 - 1, 2 ^ 32 - 4, 0⟩)] }
    let x : Word := word (3 + 64 * 2 ^ 16)
    (bits x 15 2 = 0 ∧ x.toNat < 2 ^ 23 ∧ bits x 22 16 ≠ 0 ∧ bits x 22 16 ≤ 64)
    ∧ NMap.find (curFrame s).windows 3 = some ⟨1, 0x20, 4, 2 ^ 32 - 1, 2 ^ 32 - 4, 0⟩ ∧ NMap.find (curFrame s).windows 0 = none
    ∧ windowTaken s 1 0 7 3 = false ∧ ownPoisoned s (0xC000 - 64) 64 = false ∧ 0xC000 - 64 + 64 ≤ localSize s 0 1
    ∧ (2 ^ 32 - 1 + 2 ^ 32 - (2 ^ 32 - 4) % 2 ^ 32) % 2 ^ 32 < 4 ∧ ¬(0 + 2 ^ 32 - (2 ^ 32 - 4) % 2 ^ 32) % 2 ^ 32 < 4 := by
  decide +kernel
theorem witness_arrival_handlers : liveHeader tS 1 0x20 = none ∧ liveHeader tBuf 1 0x20 = some tHdr ∧ tHdr.cb = true
    ∧ (headerAt tHdrMem 1 0x40).map Header.cb = some false ∧ headersFull tHdrMem 1 0x40 = false
    ∧ (0x7FFFC : Word).toNat < 2 ^ 19 ∧ (0x7FFFC : Word).toNat % 4 = 0 ∧ 2 ^ 19 ≤ (0x80000 : Word).toNat := by decide +kernel
theorem witness_count_messages : localTarget tS 0x00F000000000BFE0 = some (0, 0xBFE0) ∧ localTarget tS 0x10000 = none
    ∧ 1 ≤ segmentRoom tS (curCtx tS) (curBank tS) ∧ segmentRoom tFull (curCtx tFull) (curBank tFull) < 1
    ∧ localTarget tS 0x00F800017FF5FFE0 = some (6143, 0x5FFE0) := by decide +kernel
theorem witness_record_updates : let s : State := { tNet (.tdec 0x20 5) with mem := [(2 ^ 60 + 0x20, 5)] }
    Memory.wf s.mem = true ∧ inOrder s (tMsg (.tdec 0x20 5)) = true ∧ banksOf s 0 1 ≠ [] ∧ localLoc s 0 1 0x20 = some (2 ^ 60 + 0x20)
    ∧ localWord s 0 1 0x20 = 5 ∧ localWord s 0 1 0x28 / 2 ^ 32 % 2 ^ 13 < 6144
    ∧ localWord { s with mem := [(2 ^ 60 + 0x24, 1)] } 0 1 0x20 / 2 ^ 32 % 2 = 1
    ∧ 6144 ≤ localWord { s with mem := [(2 ^ 60 + 0x2D, 0x18)] } 0 1 0x28 / 2 ^ 32 % 2 ^ 13 := by decide +kernel
theorem witness_bank_requests : ownTarget tS 0x00F0000000000020 = some 0x20 ∧ ownTarget tS 0x10000 = none
    ∧ localTarget tS 0x00F0000000000020 = some (0, 0x20) := by decide +kernel
theorem witness_bank_request_steps : let s := tQ (.tinit 0x20 1)
    (s.reqs[0]?).map (reqReady s) = some true ∧ localLoc s 0 1 0x20 = some (2 ^ 60 + 0x20) ∧ (frameOf s 0 0).act = 7
    ∧ (frameOf s 0 0).st ≠ .free ∧ barrierBank s 1 = some 0
    ∧ barrierBank (setCtx s 1 { ctxOf s 1 with barriers := (upto 8).map fun i => (0, 8 * i, (0, 0x20), []) }) 1 = none
    ∧ (let x := tQ (.bbinit 0x28 (some (0, 0x20))); (x.reqs[0]?).map (reqReady x) = some true) := by decide +kernel
theorem witness_barrier_updates : let s : State := { tNet (.barrier 0x28 true 1 (2 ^ 56 - 1)) with mem := cellsAt (2 ^ 60 + 0x28) (leBytes (2 ^ 57 - 1) 8) }
    let u := setCtx s 1 { ctxOf s 1 with barriers := [(0, 0x28, (0, 0x20), [])] }
    Memory.wf s.mem = true ∧ localLoc s 0 1 0x28 = some (2 ^ 60 + 0x28) ∧ localWord s 0 1 0x28 = 2 ^ 57 - 1
    ∧ (ctxOf u 1).barriers.find? (fun y => y.2.1 == 0x28) = some (0, 0x28, (0, 0x20), []) := by decide +kernel

/-- A launch record of one level of width 2. -/
def tRec : LRec := { state := .idle, fmt := word (2 + 2 ^ 42), counts := [4, 0, 0, 0, 0, 0], ncores := 1, quantum := 4096 }

/-- `tS` with a launch record of the owner's interface. -/
def tLaunch (r : LRec) : State := setRec tS 2 0 r

theorem witness_launch_records : detLin tS (curFrame tS).lin = false
    ∧ releasable tS 1 (releaseAfter tS).1 (releaseAfter tS).2 [] [] = true
    ∧ releasable tFull 1 (releaseAfter tFull).1 (releaseAfter tFull).2 [] [] = false
    ∧ (recOf tS 2 0).state = .unbuilt ∧ (recOf (tLaunch { tRec with state := .running }) 2 0).state = .running
    ∧ fmtLevels tRec.fmt = 1 ∧ levelCount tRec 0 = 2 ^ fmtWidthOf tRec.fmt 0
    ∧ (2 ^ fmtWidthOf tRec.fmt 0 < levelCount { tRec with counts := [5, 0, 0, 0, 0, 0] } 0)
    ∧ levelCount { tRec with counts := [0, 0, 0, 0, 0, 0] } 0 = 0
    ∧ doneOk 0 = true ∧ doneOk 1 = false ∧ rangeOk 6143 1 = true ∧ rangeOk 6143 2 = false := by decide +kernel
theorem witness_deterministic : (curFrame tDet).lin.launch = some (2, 0) ∧ (recOf tDet 2 0).det = true ∧ inHandler tDet = false := by
  decide +kernel
/-- A start request of owner 1. -/
def tStart : Start :=
  { owner := 1, entry := 0x100, regs := [(2, 5)], lin := tLin, tag := [], wid := 0, wfmt := 0, launch := none, slot := none }
theorem witness_starts : runqBank tS 1 = some 0
    ∧ nextStart tS 0 1 [(0, tStart)] false 0 = some (0, tStart, 1)
    ∧ (let r := { tRec with state := .running, ncores := 2, armTag := [] }; r.nextL < armSize r ∧ r.policy ≤ 1)
    ∧ armSize { tRec with ended := 3 } = 4
    ∧ (let s := tLaunch { tRec with state := .running, det := true }
       (∀ p ∈ lineageFrames s 0 2 0, p.2.st ≠ .active) ∧ s.held = []) := by decide +kernel

theorem witness_cache_maintenance : (let ps := rangeParts tS 0 (0x10FFF + 2) (fun _ _ => true) true (2 / 4096 + 2) 0x10FFF
      ps.map (fun p => p.2.1) = [1, 1] ∧ ps.all (fun p => match p.2.2 with | .mem _ _ => true | _ => false) = true)
    ∧ rangeWaits tS [] = ([], []) ∧ engineWhere tS 0 1 0x10000 0 = .mem 0x20000 (tPage 0x10000 0x20000 0 false)
    ∧ engineWhere tS 0 1 (word (2 ^ 56)) 0 = .fault 0x06 := by decide +kernel
theorem witness_cache_waits : let s := { tC fun c => { c with queue := [tEntry 1 (.write 1 (.pa 0x20000) 8 0)] } with
      hist := [(1, { writer := .ctx 1, frame := 0, act := 7, bytes := cellsAt 0x20000 (leBytes 5 8), known := [], tag := none, pc := 0, va := 0, pool := false, seq := 0 })] }
    (rangeWaits s (rangeSegs s (rangeParts s 0 0x10040 (fun _ _ => true) true 2 0x10000))).1 = [1] := by decide +kernel
theorem witness_fences : fenceConds tS .all .dev = [] ∧ fenceConds tFull .st .dev ≠ [] ∧ (curFrame tS).granted = false
    ∧ segmentRoom tFull (curCtx tFull) (curBank tFull) < 1
    ∧ (let t : Tag := { writes := [4], scope := .dev, core := 3 }
       scopeHolds tS .dev (.ctx 4097) = true ∧ inScope tS t 0 = true) := by decide +kernel

/-- A write of the issuing context, in its queue. -/
def tWrite (t : Tgt) (tr : Nat) (cells : List Host.Cell) : State :=
  { tC fun c => { c with queue := [tEntry 5 (.write 9 t 2 tr)] } with
    hist := [(9, { writer := .ctx 1, frame := 0, act := 7, bytes := cells, known := [], tag := none, pc := 0x40, va := 0x10000, pool := false, seq := 0 })] }

theorem witness_settles : (let s := tWrite (.loc 0 16) 2 [(2 ^ 60 + 16, 1), (2 ^ 60 + 17, 2)]
      settleReady s 1 0 (tEntry 5 (.write 9 (.loc 0 16) 2 2)) 9 (.loc 0 16) 2 = true ∧ localLoc s 0 1 16 = some (2 ^ 60 + 16))
    ∧ (let s := tWrite (.loc 9 16) 2 []; settleReady s 1 0 (tEntry 5 (.write 9 (.loc 9 16) 2 2)) 9 (.loc 9 16) 2 = true
        ∧ banksOf s 9 1 = [])
    ∧ (let s := tWrite (.pa 0x20000) 0 [(0x20000, 1), (0x20001, 2)]
       settleReady s 1 0 (tEntry 5 (.write 9 (.pa 0x20000) 2 0)) 9 (.pa 0x20000) 0 = true ∧ isWindow 0x20000 = false
        ∧ (wrec s 9).bytes = cellsAt 0x20000 [1, 2])
    ∧ (let s := tWrite (.pa Config.hostBase) 2 [(Config.hostBase, 1), (Config.hostBase + 1, 2)]
       settleReady s 1 0 (tEntry 5 (.write 9 (.pa Config.hostBase) 2 2)) 9 (.pa Config.hostBase) 2 = true
        ∧ isWindow Config.hostBase = true ∧ s.linksLost = [])
    ∧ (let s := tWrite (.pa 0x23000) 4 [(0x23000, 1), (0x23001, 2)]
       settleReady s 1 0 (tEntry 5 (.write 9 (.pa 0x23000) 2 4)) 9 (.pa 0x23000) 4 = true ∧ capAllows s 1 0x23000 .store = false
        ∧ capAllows (setCap s 0x23000 { holder := .context 1 0 }) 1 0x23000 .store = true) := by decide +kernel
theorem witness_coalesces : let s := tWrite (.loc 0 16) 2 [(2 ^ 60 + 16, 1), (2 ^ 60 + 17, 2)]
    let e := tEntry 5 (.write 9 (.loc 0 16) 2 2)
    (∀ l ∈ entryLocs s 1 e, l ∈ entryLocs s 1 (tEntry 6 (.write 9 (.loc 0 16) 2 2))) ∧ e.weak = true ∧ e.held = false := by
  decide +kernel
theorem witness_departs : releasable tS 1 [] [] [] [] = true ∧ targetRoom tS { tMsg (.tdec 0x20 1) with core := 3 } = true := by decide +kernel
theorem witness_home_read : let s : State := { tS with reads := [tRead 1 (.loc 0 0)] }
    releasable s 1 [] [] [] [] = true ∧ readLocs s (tRead 1 (.loc 0 0)) = locsFrom (2 ^ 60) 8
      ∧ ∀ l ∈ readLocs s (tRead 1 (.loc 0 0)), poisoned s l = false ∧ isWindow l = false := by decide +kernel
theorem witness_queue_read : let r : Read := { tRead 0 (.pa 0x20000) with len := 2 }
    let s : State := { tWrite (.pa 0x20000) 0 (cellsAt 0x20000 [7, 0]) with reads := [r] }
    queueSource s 1 (readLocs s r) = some [9, 9] ∧ allCandidates s 1 (readLocs s r) [9, 9] = true := by decide +kernel
theorem witness_set_read : let s : State := { tS with reads := [tRead 0 (.pa 0x20000)] }
    let locs := readLocs s (tRead 0 (.pa 0x20000))
    (∀ j < 8, (List.replicate 8 0).getD j 1 ∈ writeSet s (locs.getD j 0)) ∧ allCandidates s 1 locs (List.replicate 8 0) = true
      ∧ allOrNone s locs (List.replicate 8 0) = true := by decide +kernel
/-- A line of the L1 that holds the initial bytes. -/
def tLine (tr : Nat) : L1Line :=
  { owner := 1, pa := 0x20000, treat := tr, way := 0, mesi := 1, expiry := 10, filled := 0, used := 0, vals := [], dirty := [], poison := false }
theorem witness_l1_read : let s := setCore tS 0 { tCore with l1 := [tLine 0] }
    l1Line s 0 1 0x20000 0 = some (tLine 0) ∧ allCandidates s 1 (locsFrom 0x20000 8) (List.replicate 8 0) = true := by decide +kernel
theorem witness_result_return : let s := tF fun f => { f with owed := [{ id := 1, reg := 31, val := some 5, learn := none },
      { id := 2, reg := 63, val := some 6, learn := none }] }
    ((frameOf s 0 0).owed.map fun o => (decide (o.reg < 64), o.val.isSome)) = [(true, true), (true, true)] := by decide +kernel
theorem witness_refusals : handlerOf tS 0 0 = false ∧ (frameOf tS 0 0).act = 7 ∧ (frameOf tS 0 0).st ≠ .free
    ∧ (frameOf tS 0 1).st = .free := by decide +kernel
theorem witness_refill : localLoc tS 0 1 0x40 = some (2 ^ 60 + 0x40) ∧ poisoned tS (2 ^ 60 + 0x40) = false ∧ (frameOf tS 0 0).fbuf = []
    ∧ (let f := frameOf (tF fun f => { f with fbuf := [(0x44, 5)] }) 0 0; f.fbuf.head? = some (0x44, 5) ∧ f.fbuf.getLast? = some (0x44, 5)
        ∧ f.fbuf.length < 8) := by decide +kernel
theorem witness_arrivals : inOrder (tNet (.wopen 0x40 0 0 3 1)) (tMsg (.wopen 0x40 0 0 3 1)) = true ∧ banksOf tS 0 1 ≠ []
    ∧ usableHeader tS 1 0x40 = none ∧ (usableHeader tBuf 1 0x20).map Header.pb = some true
    ∧ ((usableHeader tHdrMem 1 0x40).map fun x => (x.pb, x.pv)) = some (false, false)
    ∧ headerLive tHdr = true ∧ localLoc tBuf 0 1 (slotOff tHdr tHdr.head) = some (2 ^ 60 + 16 * 64 + 3 * 64)
    ∧ NMap.find (frameOf (tF fun f => { f with windows := [(3, ⟨1, 0x20, 4, 5, 2, 0⟩)] }) 0 0).windows 3 = some ⟨1, 0x20, 4, 5, 2, 0⟩ := by
  decide +kernel
/-- A reduction group of owner 1 on core 0 that holds a region. -/
def tGroup : Group := { owner := 1, first := 0, count := 1, next := 2, window := [], watches := [], stale := 0 }

/-- `tS` with a region that `tGroup` holds. -/
def tHeld : State :=
  let s := setCap tS 0x23000 { holder := .group 0 }
  setRing s (homeRing s 0x23000) { ringOf s (homeRing s 0x23000) with groups := [(0, tGroup)] }
theorem witness_ordered : let s := tHeld
    groupFor s 1 0x23000 = some 0 ∧ groupFor tS 1 0x23000 = none ∧ isWindow 0x23000 = false ∧ atomicsFull s 1 = false
      ∧ whereCur s 0x13000 2 = .mem 0x23000 (tPage 0x13000 0x23000 0 true) ∧ localTarget s (word Config.ownWindow) = some (0, 0)
      ∧ performs { s with reqs := [tReq (.ordered false 2 0x23000 5 0 0)] } 0 (tReq (.ordered false 2 0x23000 5 0 0))
      ∧ (diff32 2 tGroup.next, diff32 65 tGroup.next, diff32 66 tGroup.next, diff32 1 tGroup.next, diff32 (2 + 2 ^ 31) tGroup.next)
          = (0, 63, 64, 2 ^ 32 - 1, 2 ^ 31)
      ∧ (∀ l ∈ locsFrom 0x23000 8, poisoned s l = false) := by unfold performs; decide +kernel
theorem witness_watches : (diff32 tGroup.next 2 < 2 ^ 31 ∧ 2 ^ 31 ≤ diff32 tGroup.next 3) ∧ tGroup.watches.length < 4
    ∧ (let w := (3, 1, ((0, 0) : Nat × Nat), ([] : List Nat)); 4 ≤ (List.replicate 4 w).length) := by decide +kernel
theorem witness_resend : let s : State := { tS with reqs := [tReq (.ordered false 66 0x23000 5 1 0)], clk := 64 }
    (s.reqs[0]?.map Req.kind) = some (.ordered false 66 0x23000 5 1 0) ∧ 0 + 64 ≤ s.clk := by decide +kernel
theorem witness_capability_operands :
    (bits (allOnes : Word) 12 0 = 0x1FFF) ∧ (let x : Word := 6143; bits x 12 0 < 6144 ∧ bits x 15 13 = 0 ∧ bits x 63 28 = 0)
    ∧ (let x : Word := 6144; ¬bits x 12 0 < 6144) ∧ (let x : Word := 1; x.toNat < 2) ∧ (let x : Word := 2; ¬x.toNat < 2)
    ∧ (let x := word (6143 + 2 ^ 16); bits x 15 13 = 0 ∧ bits x 63 29 = 0 ∧ 1 ≤ bits x 28 16 ∧ bits x 12 0 + bits x 28 16 ≤ 6144)
    ∧ whereCur tS 0x13000 0 = .mem 0x23000 (tPage 0x13000 0x23000 0 true) ∧ isDram 0x23000 = true
    ∧ whereCur tS 0x10000 0 = .mem 0x20000 (tPage 0x10000 0x20000 0 false) := by decide +kernel
theorem witness_capability_steps : let s : State := { tS with reqs := [tReq (.cap 3 0x23000 0)] }
    let t := setCap s 0x23000 { holder := .context 1 0 }
    performs s 0 (tReq (.cap 3 0x23000 0)) ∧ (capOf s 0x23000).holder = .unheld ∧ holdsCap s 1 0x23000 = false
      ∧ holdsCap t 1 0x23000 = true ∧ capGroup t 0x23000 = none ∧ NMap.find (ringOf t (homeRing t 0x23000)).groups 0 = none
      ∧ (let u := setCap s 0x23000 { holder := .group 0 }
         let v := setRing u (homeRing u 0x23000) { ringOf u (homeRing u 0x23000) with groups := [(0, { tGroup with watches := [(3, 1, (0, 0), [])] })] }
         (capGroup v 0x23000).isSome = true ∧ holdsCap v 1 0x23000 = true)
      ∧ (let gs : NMap Group := (upto 16).map fun i => (i, tGroup); ∀ j < 16, NMap.find gs j ≠ none) := by unfold performs; decide +kernel
/-- A way of a home slice that holds line 0x200 for owner 1. -/
def tWay : Way := { line := 0x200, holder := 1, shared := false, ebit := false, sectors := [(0, false, 0)], exact := [(1, 0, 1)], coarse := [] }
/-- `tS` with that way in the first set, owner 1 under a sweep. -/
def tSlice (bit : Bool) (set : Nat) : State :=
  setOwner (setRing tS 0 { ringOf tS 0 with ways := [(set * 16, tWay)] }) 1 { live := true, iface := 2, sweep := true, ebit := bit }
theorem witness_fill_looks : (let s : State := { tS with reads := [tRead 0 (.pa 0x20000)] }
      prefetchFor s 0 1 0x20000 = none ∧ missFor s 0 1 0x20000 = some (tRead 0 (.pa 0x20000)) ∧ railSlot s 2 = true)
    ∧ (let p : Prefetch := { id := 71, core := 0, owner := 1, pa := 0x20000, treat := 0, share := none, write := true }
       prefetchFor { tS with prefetches := [p] } 0 1 0x20000 = some p ∧ missFor tS 0 1 0x20000 = none)
    ∧ mayCopy tS 0 1 0x20040 0 = true ∧ mayCopy tS 0 1 0x20000 0 = true ∧ sectorPresent (tSlice false 0) 0x20000 = true ∧ (∀ q ∈ tS.reads, ctxOwner q.ctx ≠ 1)
    ∧ (∀ l ∈ (coreOf tS (l1Core tS 0 1 0x20040)).l1, l.pa / 64 % 64 ≠ 0x20040 / 64 % 64) := by decide +kernel
theorem witness_fill : pageOf tS 1 0x20040 = some (tPage 0x10000 0x20000 0 false) ∧ isWindow 0x20040 = false ∧ lostAt tS 0x20040 = false
    ∧ (l1Victim tS (l1Core tS 0 1 0x20040) 1 (0x20040 / 64 % 64)).isSome = true
    ∧ (∀ l ∈ locsFrom 0x20040 64, NMap.get [] l (lastSettled tS l) ∈ writeSet tS l)
    ∧ pageOf tS 1 0x21000 = some (tPage 0x11000 0x21000 1 false) ∧ leaseLen (setOwner tS 1 { ownerOf tS 1 with lease := 3 }) 0 1 ≠ 0
    ∧ (ringOf tS 0).leaving.contains 1 = false ∧ fusedDue tS 1 0 = false := by
  decide +kernel
theorem witness_slices : let s := tSlice false 0
    homeRing s 0x20000 = 0 ∧ findWay s 0 (0x20000 / 256) = some (0, tWay) ∧ sectorHit s 1 0x20000 = true ∧ sectorHit s 1 0x20040 = false
      ∧ oldLine s 1 tWay = false ∧ isDram 0x20040 = true ∧ (∃ x ∈ tWay.exact, x.2.2 = 1)
      ∧ (let q : State := { s with reads := [tRead 0 (.pa 0x20040)] }; accessesTo q 1 0x20040 = [(70, 0, none)] ∧ standsAt q 70 = false ∧ sectorPresent q 0x20040 = false ∧ sectorHit q 1 0x20040 = false)
      ∧ accessesTo s 1 0x20040 = [] := by decide +kernel
theorem witness_sector_fills : let s : State := { tSlice false 0 with reads := [tRead 0 (.pa 0x20040)] }
    (70, 0, none) ∈ accessesTo s 1 0x20040 ∧ standsAt s 70 = false ∧ isDram 0x20040 = true ∧ railSlot s 2 = true
      ∧ findWay s (homeRing s 0x20040) (0x20040 / 256) = some (0, tWay) ∧ NMap.find (ringOf s (homeRing s 0x20040)).ways 0 = some tWay
      ∧ (ringOf s 0).entering.contains 1 = false := by
  decide +kernel
theorem witness_sweeps : (let s := tSlice true (newSet tS 1 0 0x200)
      oldLine s 1 tWay = true ∧ newSet s 1 0 0x200 = newSet tS 1 0 0x200 ∧ (NMap.find (ringOf s 0).ways (newSet s 1 0 0x200 * 16 + 0)) = some tWay)
    ∧ (let s := tSlice false 0; (ownerOf s 1).sweep = true ∧ ∀ p ∈ s.rings, ∀ w ∈ p.2.ways, oldLine s 1 w.2 = false) := by decide +kernel
theorem witness_lease_and_ecc : (let s := setCore tS 0 { tCore with l1 := [tLine 1] }
      (coreOf s 0).l1[0]? = some (tLine 1) ∧ l1Live s (tLine 1) = true ∧ l1Live { s with clk := 10 } (tLine 1) = false)
    ∧ isLocal (2 ^ 60) = true ∧ 2 ^ 60 < 2 ^ 70 ∧ isDram 0 = true ∧ isDram (Config.dramEnd - 1) = true ∧ isDram Config.dramEnd = false
    ∧ (let s := setRing tS 0 { ringOf tS 0 with fused := [(1, 0)] }
       (NMap.find (ringOf s 0).fused 1).isSome = true ∧ fusedWanted s 1 0 = false) := by decide +kernel

/-- A packed F32 record of n elements in local memory. -/
def tRec32 (n base : Nat) : Tensor :=
  { words := [1, word (n + 2 ^ 16 + 2 ^ 32 + 2 ^ 48), word (4 + 4 * n * 2 ^ 32), word (4 * n + 4 * n * 2 ^ 32), word base, 0, 0, 0] }
/-- `tS` with records 1 and 2. -/
def tRecs : State := tC fun c => { c with tensors := [(1, tRec32 8 0), (2, tRec32 8 64)] }
theorem witness_records : tdefCode (tRec32 8 0) = 0 ∧ tdefCode { words := [13] } = 1 ∧ tFmt (tRec32 8 0) = 1 ∧ tPacked (tRec32 8 0) = true
    ∧ tCount (tRec32 8 0) = 8 ∧ tKind (tRec32 8 0) = 0 := by decide +kernel
theorem witness_vector_issue : let s := tRecs
    tensorAt s 1 1 = some (tRec32 8 0) ∧ vUses 0x06 = (true, true, false) ∧ vFieldsOk 0x06 0 0 = true ∧ vDstFmt 0x06 1 1 = true
      ∧ vReach s (tRec32 8 0) true = true ∧ vReach s (tRec32 8 64) false = true ∧ vSrcFmt 0x06 1 1 = true
      ∧ vDimsOk 0x06 1 0 (some (tRec32 8 0)) (some (tRec32 8 64)) none = true ∧ openCount s 1 0 = 0 ∧ (firstBad []).isSome = true
      ∧ rangesMeet (some (tRec32 8 0)) (some (tRec32 8 64)) = false := by decide +kernel
/-- A command of the issuing context. -/
def tCmd (cls : Nat) (k : CmdKind) : Cmd :=
  { id := 80, ctx := 1, cls := cls, num := 1, frame := 0, act := 7, pc := 0x40, kind := k, lin := tLin, after := [], known := [],
    writes := [], lost := [], finished := false, asked := 0 }
/-- `vabs` from record 2 to record 1. -/
def tVec (dst : Tensor) : CmdKind :=
  .vec 0x06 1 none 0x0201 [some dst, some (tRec32 8 64), none] [none, none, none] 0 0 0 {} [] 0 [] []
/-- `tRecs` with that command, its owner assigned. -/
def tBeat (dst : Tensor) : State :=
  let s : State := { setCore tRecs 0 { tCore with assigned := some 1, lastSlot := 1 } with cmds := [tCmd 0 (tVec dst)] }
  setCtx s 1 { ctxOf s 1 with vec := { issued := 1 } }
/-- A state once its owners' next beats have asked for what they reach. -/
def tAskedBeats (s : State) : State := (residents s 0).foldl (fun s o => askBeat s 0 o) s
theorem witness_vector_beats : let s := tAskedBeats (tBeat (tRec32 8 0))
    railSlot s 1 = true ∧ residents s 0 = [0, 1] ∧ assignedNow s 0 = some 1
      ∧ (match readyBeat s 0 1 with
         | some (c, v, .ok b) => c.id == 80 && v.taken.isEmpty && b.cells.all (fun x => x.1.loc.isSome)
             && (refusedAt s c.ctx (b.cells.map Prod.fst)).isNone
         | _ => false) = true
      ∧ readyBeat tRecs 0 1 = none := by decide +kernel
theorem witness_vector_stop : let s := tBeat (tRec32 8 (2 ^ 19 - 4))
    (match readyBeat s 0 1 with
     | some (_, _, .fault _ _) => true
     | _ => false) = true := by decide +kernel
/-- A member of a lease on a core. -/
def tMember (c : Nat) : Member :=
  { core := c, frame := 0, act := 7, issued := 0, panel := none, pscale := none, mr := 0, acc := [], bad := [], latch := none }
/-- A lease of owner 1 from core 0 on. -/
def tLease (run : Nat) (n : Nat) : Lease :=
  { owner := 1, first := 0, size := 4, run := run, members := (upto n).map tMember, id := 90, next := 0, last := 0, waits := 0 }
/-- Ring 0 with a lease. -/
def tCar (run : Nat) : State := setRing tRecs 0 { ringOf tRecs 0 with lease := some (tLease run 4) }
theorem witness_carousel_parts : (myLease tS).isSome = false ∧ myLease (tCar 2) = some (0, tLease 2 4)
    ∧ (tLease 2 4).members.find? (isMe (tCar 2)) = some (tMember 0) ∧ (tMember 0).issued < (tLease 2 4).run
    ∧ panelOk (tRec32 8 0) = true ∧ tileOk (tRec32 8 0) = true ∧ outputOk (tRec32 8 0) = true ∧ hasPanel (tCar 2) (tLease 2 4) (tMember 0) = false
    ∧ tBase (tRec32 8 0) + tSpan (tRec32 8 0) < localSize (tCar 2) 0 1 ∧ openCount (tCar 2) 1 1 = 0
    ∧ (let x : Word := 0x1000000; bits x 27 24 = 1) ∧ bits (word ((2 ^ 10 - 1) * 2 ^ 32)) 63 32 < 2 ^ 10 := by decide +kernel
theorem witness_lease_requests : let s := setRing tS 0 { ringOf tS 0 with pending := [tLease 1 4] }
    (ringOf s 0).lease = none ∧ (ringOf s 0).pending = [tLease 1 4] ∧ complete (tLease 1 4) = true ∧ complete (tLease 1 3) = false
      ∧ railSlot s 0 = true ∧ (pointOf s 0x08 0).lastSlot ≠ s.clk + 1 ∧ (myRequest s).isSome = true
      ∧ (let x := word (3 * 2 ^ 16); bits x 17 16 = 3) ∧ (let x := word (256 * 2 ^ 32); bits x 40 32 = 256 ∧ bits x 63 41 = 0)
      ∧ (curFrame s).lease = none ∧ (tLease 1 4).last + 65536 ≤ { s with clk := 65536 }.clk := by decide +kernel
/-- The members' parts of one operation. -/
def tParts (op : Nat) (run : Nat) : State :=
  { tCar run with cmds := (upto 4).map fun c => { tCmd 1 (.car op 0 0 none none [] 0 90) with id := 80 + c, ctx := c * 4096 + 1 } }
theorem witness_group_commands : (match partsFor (tParts 8 2) 90 0 (tLease 2 4).members with
      | some ps => ps.length == 4 && ps.all (fun x => x.2.op == 8 && cmdFree (tParts 8 2) x.2.cmd && partReady (tParts 8 2) x.1 x.2)
      | none => false) = true
    ∧ (tLease 2 4).next + 1 < (tLease 2 4).run ∧ (tLease 1 4).run ≤ (tLease 1 4).next + 1 ∧ railSlot (tParts 8 2) 0 = true := by decide +kernel
theorem witness_copies : let s := { tRecs with mem := [] }
    ownTarget s (word Config.ownWindow) = some 0 ∧ ownTarget s 0x10000 = none ∧ 0 + 32 ≤ localSize s 0 1 ∧ ownPoisoned s 0 32 = false
      ∧ ((wordsOf (ownView s 0 32) 4).getD 3 0 = 0 ∧ ((wordsOf (ownView s 0 32) 4).getD 2 0).toNat ≤ 2 ^ 40)
      ∧ openCount s 1 2 < 64 ∧ localTarget s (word Config.ownWindow) = some (0, 0) ∧ copyRecOf s 1 = none
      ∧ tensorAt s 1 (0x0102 % 256) = some (tRec32 8 64) ∧ tensorAt s 1 (0x0102 / 256) = some (tRec32 8 0)
      ∧ tDims (tRec32 8 0) = tDims (tRec32 8 64) := by decide +kernel
/-- An open copy record. -/
def tCopyRec (d : Bool) : State :=
  { tS with copies := [{ ctx := 1, num := 1, prog := 0, chunks := 1, bad := none, faddr := 0, fcause := 0, done := d }] }
theorem witness_copy_records : (copyRecOf (tCopyRec false) 1).map (fun r => r.done) = some false
    ∧ (copyRecOf (tCopyRec true) 1).map (fun r => r.done) = some true := by decide +kernel
/-- `tRecs` with a source and a receiver. -/
def tMail (sent mail : Nat) (subs : List (Nat × Nat)) : State :=
  setCtx tRecs 1 { ctxOf tRecs 1 with matchTab := [.source 0 5 sent mail subs [] [], .receiver 0 1 6 2 1 4 none 3 1 0] }
theorem witness_maypole : let s := tMail 2 2 []
    groupWord 6144 = none ∧ groupWord (word (5 * 2 ^ 32)) = some (0, 5) ∧ matchBank s 1 = some 0 ∧ receiverOf s 1 0 5 = none
      ∧ sourceOf s 1 5 = some (.source 0 5 2 2 [] [] []) ∧ receiverOf s 1 1 6 = some (.receiver 0 1 6 2 1 4 none 3 1 0)
      ∧ 1 ≤ segmentRoom s 1 (curBank s) ∧ diff32 3 1 = 2 ∧ diff32 3 3 < 2 ^ 31 ∧ 2 ^ 31 ≤ diff32 3 4
      ∧ (let y := word (1 + 4 * 2 ^ 8); bits y 63 36 = 0 ∧ bits y 15 8 ≠ 0 ∧ bit y 35 = false)
      ∧ (let y := word (1 + 4 * 2 ^ 8 + 9 * 2 ^ 16 + 2 ^ 35); bit y 35 = true ∧ bits y 34 16 % 8 ≠ 0)
      ∧ tBase (tRec32 8 0) + 4 * landLen (tRec32 8 0) ≤ localSize s 0 1 ∧ openCount s 1 2 < 64
      ∧ (let x := word (1 * 2 ^ 8 + 5 * 2 ^ 32); bits x 7 0 = 0 ∧ bits x 31 16 = 0 ∧ bits x 63 48 = 0 ∧ tensorAt s 1 (bits x 15 8) ≠ none) := by
  decide +kernel

/-- A copy of 64 bytes from local memory to local memory. -/
def tCopyCmd (ch : Nat) (fin : Bool) : Cmd :=
  { tCmd 2 (.copy (word Config.ownWindow) (word (Config.ownWindow + 0x400)) 64 none none (some 60) ch 0 none 0 0 false) with finished := fin }
/-- `tRecs` with that copy, its request held by the streamer of ring 0. -/
def tCopy (ch : Nat) (fin : Bool) : State :=
  setPoint { tRecs with cmds := [tCopyCmd ch fin] } 0x07 0 { (pointOf tRecs 0x07 0) with busy := [slotOf (tCopyCmd ch fin)] }
/-- `tRecs` with that copy, its request still in the queue. -/
def tCopyQueued : State :=
  let s : State := { tRecs with cmds := [tCopyCmd 0 false] }
  setCtx s 1 { ctxOf s 1 with queue := [tEntry 81 (.request 80)] }
theorem witness_streamer_arrival : let s := tCopyQueued
    s.cmds[0]? = some (tCopyCmd 0 false) ∧ streamerHolding s (tCopyCmd 0 false) = none
      ∧ (ctxOf s 1).queue.find? (fun e => e.body == .request 80) = some (tEntry 81 (.request 80)) ∧ releasable s 1 [] [] [] [] = true
      ∧ ((pointOf s 0x07 (streamerFor s (tCopyCmd 0 false))).busy.filter fun q => q.owner == 1).length < 32 := by decide +kernel
theorem witness_streamer : (let s := tCopy 0 false
      let c := tCopyCmd 0 false
      s.cmds[0]? = some c ∧ streamerHolding s c = some 0 ∧ nextChunk s 0 1 = some 80 ∧ 65536 * 0 < 64
        ∧ (match allOk (chunkPlaces s 0 0 1 80 (65536 * 0) (min 65536 64) (word Config.ownWindow) (word (Config.ownWindow + 0x400)) none) with
          | .ok ls => ls.all (fun p => p.2.loc.isSome) && (refusedAt s 1 (ls.map Prod.snd)).isNone && linesHeld s (ls.map Prod.snd)
              && (lostTo s c (ls.map Prod.snd)).isNone
          | _ => false) = true)
    ∧ (let s := tCopy 1 false
       let c := tCopyCmd 1 false
       s.cmds[0]? = some c ∧ (streamerHolding s c).isSome = true ∧ c.finished = false ∧ writesOver s c = true ∧ 64 ≤ 65536 * 1)
    ∧ (let s := tCopy 1 true; (s.cmds.find? fun c => c.ctx == 1 && c.cls == 2 && c.num == 1).isSome = true
        ∧ (engOf (ctxOf s 1) 2).done = [] ∧ 1 = (engOf (ctxOf s 1) 2).counter + 1 ∧ 2 ≠ (engOf (ctxOf s 1) 2).counter + 1) := by
  decide +kernel
/-- A tile for the receiver of `tMail` on core 0, from the source on core 1. -/
def tTile : Msg := tMsg (.tile 1 6 2 3 (tRec32 8 0).words (List.replicate 32 7) [] 80)
theorem witness_tiles_land : (let s : State := { tMail 2 2 [] with net := [tTile], cmds := [tCmd 2 (.mcast (tRec32 8 0) 6 3 none true [(0, 2)] 0)] }
      inOrder s tTile = true ∧ tileWaits s tTile = false ∧ (∃ q ∈ s.cmds, q.id = 80) ∧ (receiverOf s 1 1 6).isSome = true)
    ∧ (let s : State := { tS with net := [tTile] }; tileWaits s tTile = false ∧ receiverOf s 1 1 6 = none)
    ∧ (let s := setCore { tS with net := [tTile] } 0 { tCore with banks := [] }; tileWaits s tTile = true ∧ inboundRoom s (ringOfCore s 0) = true) := by
  decide +kernel
theorem witness_maypole_arrivals : (let s : State := { tMail 2 1 [(1, 9)] with net := [tMsg (.leave 5 9), tMsg (.free 5 9 1 none),
        tMsg (.join 7 1 4 none 9)] }
      inOrder s (tMsg (.leave 5 9)) = true ∧ sourceOf s 1 5 = some (.source 0 5 2 1 [(1, 9)] [] []) ∧ (ctxCore 4097, 9) ∈ [(1, 9)]
        ∧ receiverOf s 4097 0 7 = none)
    ∧ (let s := tMail 2 2 []; receiverOf s 1 1 6 = some (.receiver 0 1 6 2 1 4 none 3 1 0) ∧ diff32 3 1 < 4
        ∧ tensorAt s 1 1 = some (tRec32 8 0) ∧ tBase (tRec32 8 0) + 3 % 4 * landLen (tRec32 8 0) + 32 ≤ localSize s 0 1
        ∧ (banksOf s 0 1).Nodup) := by decide +kernel
theorem witness_tensor_records : let s := tRecs
    (255 < 2 ^ 8 ∧ ¬256 < 2 ^ 8) ∧ ownTarget s (word (Config.ownWindow + 64)) = some 64 ∧ 64 + 64 ≤ localSize s 0 1 ∧ ownPoisoned s 64 64 = false
      ∧ tdefCode { words := wordsOf (ownView s 64 64) 8 } = 3
      ∧ tdefCode { words := wordsOf (ownView { s with mem := memPut (memPut s.mem (2 ^ 60 + 72) 1) (2 ^ 60 + 74) 1 } 64 64) 8 } ≠ 0
      ∧ strongReads s (locsFrom (accessBase s (.loc 0 64)) 64) = [] ∧ 8 ≤ segmentRoom s 1 (curBank s)
      ∧ (engOf (ctxOf s 1) 0).issued < 1 ∧ 0 ≤ (engOf (ctxOf s 1) 2).counter := by decide +kernel
/-- `tS` with one image of each table. -/
def tImages : State := tC fun c => { c with decImg := 1, coefImg := [4], imgBase := Config.ownWindow }
theorem witness_number_tables : 0 < (ctxOf tImages 1).decImg ∧ (ctxOf tImages 1).coefImg.length ≤ 1
    ∧ coefImage [0, 0, 0, 0] = some { s := 0, p := 0, pinv := 0, breaks := [], coefs := [] } ∧ coefImage [1] = none
    ∧ (match allOk ((upto 16).map fun i => engineLoc tImages 1 (engineWhere tImages 0 1 (word (Config.ownWindow + i)) 0) (word (Config.ownWindow + i)) false) with
       | .ok ls => ls.all fun l => match l.loc with | some p => !poisoned tImages p | none => true
       | _ => false) = true := by decide +kernel
theorem witness_tombola : eligibleFrames tS 0 = [0] ∧ eligibleFrames tS 1 = [] ∧ issueSlot tS 0 = true ∧ (coreOf tS 0).lastSlot ≠ tS.clk + 1
    ∧ issueSlot { tS with clk := 1, rails := [(1, 7)] } 0 = false
    ∧ (let s := setPoint tS 0x04 1535 { (pointOf tS 0x04 1535) with queue := [{ owner := 1, id := 5, wait := 0, since := 0, at_ := none, path := [] }] }
       let s := { s with clk := 1 }
       pointExists 0x04 1535 = true ∧ pointExists 0x04 1536 = false ∧ railSlot s 3 = true ∧ (pointOf s 0x04 1535).lastSlot ≠ s.clk + 1
         ∧ entryFree s 0x04 1535 1 (pointSlot s 0x04 1535) = true)
    ∧ 256 ≤ (pointSlot tS 0x03 0).commons ∧ entryFree tS 0x03 0 1 (pointSlot tS 0x03 0) = true
    ∧ (let s : State := { tS with reqs := [tReq (.key 1 9 true)] }; s.reqs[0]? = some (tReq (.key 1 9 true)) ∧ (ownerOf s 1).sweep = false)
    ∧ slotClass 0x09 = true ∧ instOk 0x09 0 = true ∧ (let x : Word := 0x7FF; x.toNat < 2 ^ 11) := by decide +kernel
/-- `tS` with a node of owner 1 and one below it, and a bump of the lower. -/
def tTree : State :=
  { tS with nodeBase := 2 ^ 22
            nodes := [(1, { live := true, owner := 1, children := 1, height := 1 }), (2, { live := true, owner := 1, parent := 1, depth := 1 }),
              (3, { live := true, owner := 1, depth := 15 })]
            bumps := [{ id := 95, chain := [2, 1], whole := [2, 1], cause := [4] }] }
theorem witness_containment : let s := tTree
    ownNode s 1 2 = true ∧ ownNode s 1 4 = false ∧ (nodeOf s 3).depth = 15 ∧ freeNode s = some 4 ∧ nodesHeld s 1 < (ownerOf s 1).nodeQuota
      ∧ releasable s 1 (releaseAfter s).1 (releaseAfter s).2 [] [] = true ∧ 1 ∈ nodeChain s 16 2 ∧ 3 ∉ nodeChain s 16 1
      ∧ ¬15 < 0 + (nodeOf s 2).height ∧ 15 < 15 + 1 + (nodeOf s 2).height ∧ (nodeOf s 2).parent ≠ 0
      ∧ tileAllowed s 0x20 (tPage 0x10000 0x20000 0 false) = true ∧ tileEntryRoom s (tileRing s 0x20) = true ∧ tileOf s 0x20 = none
      ∧ s.nodeBase ≠ 0 ∧ (nodeOf s 2).height ≤ 15 ∧ (nodeOf s 2).live = true
      ∧ (nodeOf s 2).children = 0 ∧ (nodeOf s 2).tiles = 0 ∧ (nodeOf s 1).children ≠ 0
      ∧ tileWhere s 0x10000 true = .mem 0x20000 (tPage 0x10000 0x20000 0 false)
      ∧ (let x := word (1 + 2 * 2 ^ 32); bits x 31 16 = 0 ∧ bits x 63 48 = 0 ∧ bits x 47 32 = 2)
      ∧ (∃ b ∈ s.bumps, b.id ∈ [95] ∧ 2 ∈ b.chain) ∧ (∀ b ∈ s.bumps, ¬(b.id ∈ [96] ∧ 2 ∈ b.chain)) := by decide +kernel
theorem witness_tiles : let s := tTree
    (match runTiles false 2 2 0x10000 s 0 with
        | .run t st k stop => (st, k, stop.isNone, tileOf t 0x20, tileOf t 0x21) == (0, 2, true, some (2, 0), some (2, 0))
        | _ => false) = true
      ∧ (match runTiles true 2 2 0x14000 s 0 with | .walk v => v == 0x15000 | _ => false) = true
      ∧ (match runTiles false 2 1 0x14000 s 0 with | .run _ st k stop => (st, k, stop) == (0, 0, some (6, 0x14000)) | _ => false) = true := by decide +kernel
theorem witness_special_registers : (let n : BitVec 16 := 0x00F; 0x00F ≤ n.toNat ∧ n.toNat < 0x100) ∧ (let n : BitVec 16 := 0x10B; 0x10A < n.toNat)
    ∧ (let v : Word := 4; bits v 2 0 ≤ 4) ∧ (let v : Word := 5; 4 < bits v 2 0) := by decide +kernel
/-- `tS` with its frame parked on a fault of sequence number 6. -/
def tFault (r : Option Nat) : State := tF fun f => { f with st := .parked [.fault 6 0x55000 5 r] }
theorem witness_supervisor : (faultsOf (tFault none) 1 fun seq _ => seq == 6) ≠ [] ∧ (faultsOf tS 1 fun seq _ => seq == 6) = []
    ∧ bankLive tS 0 0 = true ∧ bankLive tS 0 2 = false ∧ (curFrame tS).st ≠ .free ∧ xlatUsers tS (fun _ _ => true) = []
    ∧ (xlatUsers { tS with reads := [{ tRead 0 (.pa 0x20000) with va := 0x10000 }] } fun o va => o == 1 && va == 0x10000) ≠ []
    ∧ (let x : Word := 0x10001; bits x 15 12 = 0 ∧ bit x 17 = false ∧ bits x 63 20 = 0 ∧ bit x 16 = true ∧ bits x 19 18 = 0)
    ∧ (let x : Word := 0x20000; bits x 17 16 = 2) ∧ (let x : Word := 0x107; bits x 7 3 = 0 ∧ bit x 8 = true ∧ bits x 2 0 = 7) := by decide +kernel
/-- `tS` with a large page of DRAM for images, and owner 0 in the issuing frame. -/
def tImage : State :=
  setCore tS 0 { tCore with
    frames := [(4, { st := .active, act := 7, owner := 0, pc := 0x40 })]
    tlb := [{ owner := 0, page := 0x40000000, size := 2 ^ 30, pa := 0x40000000, rd := true, wr := true, treat := 0, shr := false, swr := false, kidx := 0 }] }
theorem witness_context_images : let s : State := { tImage with cur := (0, 4) }
    (let pages := rangeParts s 1 (0x40000000 + (0x10000 + 1 * Config.bankBytes)) (fun pa z => isDram pa && (z.treat == 0 || z.treat == 2)) false
       ((0x10000 + 1 * Config.bankBytes) / 4096 + 2) 0x40000000
     pages.all (fun p => match p.2.2 with | .mem pa z => isDram pa && z.treat == 0 | _ => false) = true)
      ∧ banksOf s 0 1 = [0] ∧ banksOf s 0 2 = [] ∧ drained s 0 1 true = true ∧ s.cur.2 / 4 ∉ banksOf s 0 1
      ∧ ((coreOf s 0).banks.map Prod.fst).Pairwise (· < ·)
      ∧ (let x := word (1 + 0x08 * 2 ^ 16); maskBanks (bits x 23 16) = [3] ∧ bits x 15 12 = 0 ∧ bits x 63 24 = 0)
      ∧ (NMap.get (coreOf s 0).banks 3 {}).valid = false ∧ (NMap.get (coreOf s 0).banks 3 {}).clean = true := by decide +kernel
theorem witness_image_header : let w0 := 0x4C47 + 1 * 2 ^ 16 + 16 * 2 ^ 24 + 1 * 2 ^ 30 + 2 * 2 ^ 34
    w0 % 2 ^ 16 = 0x4C47 ∧ w0 / 2 ^ 16 % 2 ^ 8 = 1 ∧ w0 / 2 ^ 34 % 2 ^ 12 = 2 ∧ w0 / 2 ^ 30 % 2 ^ 4 = 1 ∧ w0 / 2 ^ 24 % 2 ^ 5 = 16 := by
  decide +kernel
theorem witness_releases : (let s := tF fun f => { f with st := .parked [.segment 0] }
      condHolds s 0 0 (.segment 0) = true ∧ s.refusals.isEmpty = true)
    ∧ condHolds (tF fun f => { f with st := .parked [.timeline 0 1] }) 0 0 (.timeline 0 1) = false
    ∧ (faultsIn (frameOf (tFault none) 0 0), faultsIn (frameOf (tFault (some 70)) 0 0)) = ([(6, 0x55000, none)], [(6, 0x55000, some 70)])
    ∧ walkTurn tS 0 0 [.segment 0] = true ∧ executesAgain (curFrame tS) [.segment 0] = true ∧ accessHeld tS 0 0 0x70000002 = false
    ∧ executesAgain (curFrame tS) [.answer 5] = false := by decide +kernel
theorem witness_walks : let s : State := { tS with walks := [{ id := 1, ring := 0, owner := 1, va := 0x55000, acc := 0, core := 0, frame := 0, act := 7, pc := 0x40 }] }
    let w := s.walks.headD { id := 0, ring := 0, owner := 0, va := 0, acc := 0, core := 0, frame := 0, act := 0, pc := 0 }
    walkEntry (entryRead s 0 0 1 (8 * (0x55000 / 2 ^ 48 % 2 ^ 8))) 1 0x55000 0 (4, 48, 8) = .inl .xlat ∧ (frameOf s 0 0).act = 7 ∧ joinedWalks s w = [w]
      ∧ walkEntries s 0 = [(1, 0x55)] ∧ walkTab s w = 0 := by decide +kernel
/-- The 17th page of an owner has no walk entry while the first 16 have theirs (R374). -/
theorem witness_walk_waits : let s : State := { tS with walks := (upto 17).map fun i =>
      { id := i, ring := 0, owner := 1, va := word (0x1000 * i), acc := 0, core := 0, frame := 0, act := 7, pc := 0x40 } }
    (1, 15) ∈ walkEntries s 0 ∧ (1, 16) ∉ walkEntries s 0 := by decide +kernel
theorem witness_inbound : (let st : Start := { owner := 1, entry := 0x40, regs := [], lin := tLin, tag := [], wid := 0, wfmt := 0, launch := none, slot := none }
      let s := setRing tS 0 { ringOf tS 0 with inbound := [(1, .msg (tMsg (.start st)))] }
      nextHeld s 0 1 = some 0 ∧ runqBank s (ctxKey 0 1) = some 0)
    ∧ nextHeld tS 0 1 = none := by decide +kernel
/-- `tS` with pool region 3, and a settled pool write not yet published. -/
def tPool : State :=
  { tS with regions := [(3, { base := 0x400, size := 1, port := 2, state := 1, losses := 0 })]
            hist := [(9, { writer := .ctx 1, frame := 0, act := 7, bytes := [(Config.poolBase, 1)], known := [], tag := none, pc := 0, va := 0, pool := true, seq := 0 })]
            unpub := [9], log := [9] }
theorem witness_pool : let s := tPool
    livePort s Config.poolBase = some 2 ∧ writeBase s 9 = Config.poolBase ∧ publishReady s 9 = true ∧ lineUnpub s (Config.poolBase / 256) ≠ []
      ∧ lineUnpub s (Config.poolBase / 256 + 1) = [] ∧ livePort s (Config.poolBase + 2 ^ 30) = none ∧ (s.regions.map Prod.fst).Nodup
      ∧ (let v := word (0x401 + 1 * 2 ^ 30 + 2 ^ 48); bits v 63 50 = 0 ∧ bits v 49 48 = 1 ∧ 0x400 ≤ bits v 29 0 ∧ bits v 45 30 ≠ 0)
      ∧ (∀ p ∈ s.regions, p.1 ≠ 4 → p.2.state ≠ 0 → ¬(0x401 < p.2.base + p.2.size ∧ p.2.base < 0x401 + 1))
      ∧ Config.dramEnd < Config.dramEnd - 7 + 8 ∧ Config.dramEnd - 8 + 8 ≤ Config.dramEnd := by decide +kernel
theorem witness_owner_tables : (ownerOf tS 1).live = true ∧ (ownerOf tS 2).live = false
    ∧ sumNat (tS.owners.map fun p => if p.1 = 1 then 0 else NMap.get p.2.quotas 383 0) + 16 ≤ 16
    ∧ 16 < sumNat (tS.owners.map fun p => if p.1 = 1 then 0 else NMap.get p.2.quotas 383 0) + 17
    ∧ (let s := setIface tS 2 { ifaceOf tS 2 with weights := [(0x09, 10)] }
       weightSum s 0x09 (some 2) (some 1) + 10 ≤ 10 ∧ weightSum s 0x09 none (some 1) + 10 ≤ 256 ∧ weightSum s 0x09 (some 2) none ≤ 0)
    ∧ ownerBanked tS 1 = true ∧ ownerBanked tS 2 = false ∧ (ownerOf tS 2).sweep = false
    ∧ (let v := word (256 + 2 ^ 9); bits v 8 0 ≤ 256 ∧ bits v 16 9 ≠ 0) ∧ (let v := word (5 + 8 * 2 ^ 32); bits v 31 0 ≠ 0 ∧ bits v 35 32 = 8)
    ∧ (tS.nodes.isEmpty = true) := by decide +kernel
theorem witness_bank_tables : (NMap.get (coreOf tS 0).banks 3 {}).valid = false ∧ (NMap.get (coreOf tS 0).banks 3 {}).clean = true
    ∧ (banksOf tS 0 1).length < bankLimit tS 1 ∧ physCore tS 0 < 6144 ∧ (NMap.get (coreOf tS 0).banks 0 {}).clean = false
    ∧ bankLive tS 0 1 = false ∧ bankLive tS 0 0 = true ∧ (NMap.get (coreOf tS 0).banks 1 {}).valid = true
    ∧ coreHasBank tS 0 = true ∧ coreHasBank tS 5 = false ∧ mappedElsewhere tS 5 7 = true
    ∧ (let s : State := { tS with coreTable := [(7, 6144)] }; mappedElsewhere s 5 7 = false)
    ∧ (let v := word (0x1000 * 7 + 2 ^ 15 + 1); bits v 14 12 = 7 ∧ bit v 15 = true ∧ bit v 18 = false) := by decide +kernel
theorem witness_record_build : let g := fun (i : Nat) => if i = 1 then 4 + 2 ^ 42 else if i = 2 then 3 else if i = 10 then 1 * 2 ^ 16 else if i = 11 then 1 else 0
    imageOk ((upto 32).map g) = true ∧ imageOk ((upto 32).map fun _ => 0) = false ∧ (recOf tS 0 0).state ≠ .running
      ∧ Config.dramEnd - 256 + 256 ≤ Config.dramEnd := by decide +kernel
theorem witness_platform : (let s : State := { tS with coreTable := [(7, 6144)] }
      moveTarget s 5 7 = true ∧ moveReady s 5 = true ∧ physCore s 5 < 6144 ∧ mappedTo s 7 ≠ some 5)
    ∧ tS.clk % 8 = 0 ∧ tS.emergency.contains 3 = false ∧ railFloor tS ≤ 7 ∧ railFloor { tS with emergency := [1] } = 4
    ∧ { tS with emergency := [1], clk := 140000 }.lastNotice + 140000 ≤ 140000 ∧ tS.linksLost.contains 15 = false
    ∧ ({ tS with clk := 64 }.lastStatic + 64 ≤ 64) ∧ (ownerOf tS 0).ectr + 589824 < 2 ^ 48 ∧ (ownerOf tS 0).ectrSat = false := by decide +kernel
/-- `tS` with interface 2 in fenced mode, waiting for a stamp. -/
def tNotify (n : Nat) : State :=
  setIface tS 2 { ifaceOf tS 2 with nown := n, fenced := true, await := some (0, 0, 0) }
theorem witness_host : ifaceUp tS 255 = true ∧ ifaceUp tS 256 = false ∧ nownOk (tNotify 1) 2 = true ∧ nownOk (tNotify 5) 2 = false
    ∧ (ifaceOf tS 2).await = none ∧ (ifaceOf tS 2).queued = [] ∧ (ifaceOf (tNotify 1) 2).await = some (0, 0, 0)
    ∧ (recOf tS 2 0).state = .unbuilt ∧ { tNotify 1 with clk := 1400000 }.clk < 0 + 1400000 + 1
    ∧ (let s := setRec (tNotify 1) 2 0 { recOf tS 2 0 with param := 0x10000 }
       (recOf s 2 0).param.toNat % 8 = 0 ∧ ∃ pa z, engineWhere s 6144 1 0x10000 0 = .fault 0x05 ∨ engineWhere s 6144 1 0x10000 0 = .mem pa z) := by
  refine ⟨?_, ?_, ?_, ?_, ?_, ?_, ?_, ?_, ?_, ?_, ⟨0, tPage 0 0 0 false, ?_⟩⟩ <;> decide +kernel
theorem witness_loader : let o : CodeObject := { text := [1, 2, 3, 4], data := [], dec := [], coef := [], regions := [], imgBase := 0 }
    objectEnd o ≤ localSize tS 0 0 ∧ objectFits tS [0] 0 o = true ∧ (ctxOf tS 0).code = none ∧ (banksOf tS 0 0).Nodup ∧ localSize tS 1 0 < objectEnd o := by decide +kernel
theorem witness_invariant : Machine.Inv tS ∧ (∃ t, step tS = .next t) := by
  refine ⟨?_, ?_⟩
  · constructor <;> decide +kernel
  · exact ⟨_, rfl⟩
/-- `tS` about to issue. -/
def tIssue : State := { tS with issuing := true }
theorem witness_step : let s := tIssue
    fetchLoc s 0 1 0x40 = some (2 ^ 60 + 0x40) ∧ fetchLoc s 0 1 (word Config.bankBytes) = none ∧ buffered s = none ∧ poisoned s (2 ^ 60 + 0x40) = false
      ∧ (curFrame s).again = false ∧ (let u := setCur s { curFrame s with fbuf := [(0x40, 0x70000002)] }; buffered u = some 0x70000002)
      ∧ decodeWord 0x70000002 = .ok .done ∧ supervisorOnly .done = false ∧ supervisorOnly .tret = true
      ∧ (let x : Sched := { advance := 1, ev := .slowdownNoticeSend }; x.ev.isWord = false) := by decide +kernel
theorem witness_codes : (Instr.jmp 0x2000000).wellFormed = true ∧ decodeWord (encode (.jmp 0x2000000)) = .ok (.jmp 0x2000000)
    ∧ encode (.jmp 0x2000000) = 0x6A000000 := by decide +kernel

/-! ### More of the hypotheses, clause by clause -/

/-- A slot-sending command of the issuing frame. -/
def tSending (w : Nat) : State :=
  { tS with cmds := [tCmd 0 (.vec 0x13 1 none (word (w * 2 ^ 24)) [none, none, none] [none, none, none] 0 0 0 {} [] 0 [] [])] }
theorem witness_held_window : (closedWindows (curFrame (tSending 0))).head? = some 0 ∧ windowHeld (tSending 0) 1 0 0 = true
    ∧ windowHeld (tSending 1) 1 0 0 = false ∧ (closedWindows (curFrame (tSending 1))).head? = some 0
    ∧ 1 ≤ segmentRoom tS (curCtx tS) (curBank tS) ∧ segmentRoom tFull (curCtx tFull) (curBank tFull) < 1 := by decide +kernel
/-- `tS` with a start in the inbound queue of ring 0. -/
def tWaiting : State := setRing tS 0 { ringOf tS 0 with inbound := [(1, .msg (tMsg (.start tStart)))] }
theorem witness_start_arrivals : (let s := tNet (.start tStart); inOrder s (tMsg (.start tStart)) = true ∧ runqOpen s 0 tStart = true)
    ∧ runqOpen tWaiting 0 tStart = false ∧ (ringOf tWaiting 0).inbound.length < 256
    ∧ startsLeaving tWaiting 0 1 = [(0, tStart)]
    ∧ nextStart tWaiting 0 1 ((ctxOf tWaiting 1).runq ++ startsLeaving tWaiting 0 1) false 0 = some (0, tStart, 1) := by decide +kernel
/-- A message that a deterministic launch holds for the end of its quantum, or that is to be sent since. -/
def tHeldMsg (st : Nat) : HeldReq :=
  { iface := 2, index := 0, core := 0, act := 7, seq := 60, ctx := 1, frame := 0, entry := some (tEntry 61 (.msg 3 1 (.tdec 0x20 1))),
    state := st, arm := none, tag := [] }
theorem witness_quantum : (let s : State := { tDet with held := [tHeldMsg 1] }; dueRequest s 2 0 = some (tHeldMsg 1))
    ∧ (let s : State := { setCur tDet { curFrame tDet with st := .parked [.lease] } with held := [tHeldMsg 0] }
       savedHolds s 2 0 (recOf s 2 0).quantum = false ∧ (∀ p ∈ lineageFrames s 0 2 0, p.2.st ≠ .active)
         ∧ (s.held.filter fun h => h.iface == 2 && h.index == 0 && h.state == 0) = [tHeldMsg 0]) := by decide +kernel
theorem witness_prefetch : (let s : State := { tS with poison := [0x20000] }; ∃ l ∈ locsFrom (0x20000 / 64 * 64) 64, poisoned s l = true)
    ∧ (∀ l ∈ locsFrom (0x20000 / 64 * 64) 64, poisoned tS l = false) ∧ whereIs tS 0 1 [] 0x11000 2 = .mem 0x21000 (tPage 0x11000 0x21000 1 false)
    ∧ whereIs tS 0 1 [] 0x70000 0 = .miss ∧ prefetchIdle tS 0 1 0x20000 0 false = false := by
  decide +kernel
theorem witness_fence_again : (let s := tF fun f => { f with fenceAt := [1], granted := true }; (curFrame s).fenceAt ≠ [] ∧ (curFrame s).granted = true)
    ∧ (curFrame tS).fenceAt = [] ∧ fenceConds (fenceIssue tS .core) .ld .core = [] := by decide +kernel
theorem witness_settle_places : (let s := tWrite (.loc 0 16) 2 [(2 ^ 60 + 16, 1), (2 ^ 60 + 17, 2)]; mustWait s 0 1 = false)
    ∧ (let s := tWrite (.loc 9 16) 2 []; mustWait s 9 1 = true ∧ inboundRoom s (ringOfCore s 9) = true)
    ∧ sliceServes tS 0x22000 2 = true ∧ sliceServes tS Config.hostBase 2 = false ∧ sectorHit (tSlice false 0) 1 0x20000 = true
    ∧ (let s := tWrite (.pa 0x20000) 0 [(0x20000, 1), (0x20001, 2)]; ∀ p ∈ s.cores, ∀ l ∈ p.2.l1, 9 ∉ l.dirty) := by decide +kernel
theorem witness_deliveries : delivers (tNet (.wopen 0x40 0 0 3 1)) 0 (tMsg (.wopen 0x40 0 0 3 1)) ∧ mustWait tS 0 1 = false := by
  unfold delivers; decide +kernel
theorem witness_beat_after_lookups : let s := tAskedBeats (tBeat (tRec32 8 0))
    (pointOf s 0x0A (physCore s 0)).lastSlot ≠ s.clk + 1 ∧ assignedNow s 0 = some 1
      ∧ (match readyBeat s 0 1 with
         | some (c, v, _) =>
           let s1 := setPoint s 0x0A 0 { pointOf s 0x0A 0 with lastSlot := s.clk + 1 }
           let u := engineHome s1 c.ctx (beatPlaces v s1)
           (match readyBeat u 0 1 with
            | some (d, w, .ok b) => d.id == c.id && w.pos == v.pos && v.taken.isEmpty && b.cells.all (fun x => x.1.loc.isSome)
                && (refusedAt u c.ctx (b.cells.map Prod.fst)).isNone && (lostTo u c (b.cells.map Prod.fst)).isNone
            | _ => false)
         | none => false) = true := by decide +kernel
theorem witness_leases_stand : expireLeases (tCar 2) = tCar 2 ∧ (tLease 2 4).last + 65536 ≤ 65536
    ∧ (ringOf (expireLeases { tCar 2 with clk := 65536 }) 0).lease = none ∧ (ringOf (tCar 2) 1).freeFrom ≤ (tCar 2).clk := by decide +kernel
theorem witness_lease_ends : let s : State := { setRing tRecs 0 { ringOf tRecs 0 with lease := some { tLease 2 4 with next := 2 } } with
      cmds := [{ tCmd 1 (.car 8 0 0 none none [] 0 90) with finished := true }] }
    (s.cmds.find? fun y => y.ctx == 1 && y.cls == 1 && y.num == 1).isSome = true ∧ (∀ y ∈ s.cmds, y.id = 80) ∧ (∀ y ∈ s.cmds, writesOver s y = true)
      ∧ ((ringOf s 0).lease.map fun l => (l.id, decide (l.run ≤ l.next))) = some (90, true) := by decide +kernel
/-- `tImages` with a request to replace a coefficient table by the image in its own memory. -/
def tReplace : State := { tImages with reqs := [tReq (.table false 0 1 [])] }
theorem witness_table_replace : let s := tReplace
    (s.reqs.find? fun q => ctxCore q.ctx == 0 && q.frame == 0 && (match q.kind with | .table .. => true | _ => false)) = some (tReq (.table false 0 1 []))
      ∧ (∀ y ∈ s.cmds, y.ctx = 1 → (4 * y.num + y.cls) ∈ ([] : List Nat) → y.finished = true) ∧ (ctxOf s 1).coefImg.getD 0 0 = 4
      ∧ imagePlace (ctxOf s 1) false 0 = 256
      ∧ (match allOk ((upto 16).map fun i => engineLoc s 1 (engineWhere s 0 1 (word (Config.ownWindow + 1024 + i)) 0) (word (Config.ownWindow + 1024 + i)) false) with
         | .ok ls => ls.all (fun l => !(engineByte s l 0).2)
         | _ => false) = true
      ∧ coefImage ((upto 4).map fun _ => 0) ≠ none := by decide +kernel
/-- `tFault` of a read, with the message that resumes it. -/
def tResume : State :=
  { tFault (some 70) with net := [tMsg (.resume 0 6 1)], reads := [{ tRead 0 (.pa 0x55000) with va := 0x10000, parked := true }] }
theorem witness_resumes : delivers tResume 0 (tMsg (.resume 0 6 1)) ∧ (frameOf tResume 0 0).st = .parked [.fault 6 0x55000 5 (some 70)]
    ∧ faultsIn (frameOf tResume 0 0) = [(6, 0x55000, some 70)] ∧ resumeOpen tResume (tMsg (.resume 0 6 1)) = true
    ∧ (tResume.reads.map Read.pair) = [0]
    ∧ resumeOpen (setRing tResume 0 { ringOf tResume 0 with leaving := [1] }) (tMsg (.resume 0 6 1)) = false
    ∧ (tResume.reads.find? fun q => q.id == 70).isSome = true ∧ unitWhere (dropWalked tResume 70) 0 1 70 0x10000 0 = .mem 0x20000 (tPage 0x10000 0x20000 0 false)
    ∧ unitWhere (dropWalked tResume 70) 0 1 70 0x70000 0 = .miss := by
  unfold delivers; decide +kernel
theorem witness_owner_gone : ownerBanked tS 2 = false ∧ (∀ c ∈ tS.ctxs, ctxOwner c.1 = 2 → c.2.runq = [])
    ∧ (∀ p ∈ tS.ifaces, ∀ q ∈ p.2.records, q.2.state = .running → q.2.owner ≠ 2) ∧ (ownerOf tS 2).live = false ∧ ownerBanked tS 1 = true
    ∧ (let v := word (8192 + 2 ^ 32); bits v 63 36 = 0 ∧ bits v 35 32 = 1 ∧ 8192 ≤ bits v 31 0) := by decide +kernel
theorem witness_caravan_waits : let s : State := { tH with coreTable := [(7, 6144)] }
    moveTarget s 0 7 = true ∧ moveReady s 0 = false ∧ mappedTo s 7 ≠ some 0 ∧ physCore s 0 < 6144 := by decide +kernel
theorem witness_full_objects : let o : CodeObject := { text := [1, 2, 3, 4], data := [], dec := [], coef := [], regions := [], imgBase := 0 }
    objectFits tS [0] 1 o = true ∧ objectFits tS [0, 1] 1 o = false ∧ quiet tS 0 1 = false
      ∧ (let s := setCore tS 0 { tCore with frames := [] }; quiet s 0 1 = true) := by decide +kernel
theorem witness_step_parts : (let s := tF fun f => { f with again := true, word := 0x70000002 }
      (curFrame s).again = true ∧ decodeWord (curFrame s).word = .ok .done)
    ∧ frameReady tS 0 0 = true ∧ frameReady (tF fun f => { f with st := .parked [.segment 0] }) 0 0 = false ∧ tS.wbuf = [] := by
  decide +kernel
/-- A copy whose chunk has asked for its slots. -/
def tAsked : State := { tCopy 0 false with cmds := [{ tCopyCmd 0 false with asked := 1 }] }
theorem witness_copy_phases : railSlot (tCopy 0 false) 3 = true ∧ (tCopyCmd 0 false).asked ≤ 0
    ∧ (let s := tAsked; let c : Cmd := { tCopyCmd 0 false with asked := 1 }
       s.cmds[0]? = some c ∧ 0 < c.asked ∧ standsAt s c.id = false ∧ nextChunk s 0 1 = some 80
         ∧ (match allOk (nextPlaces s 0 c) with
            | .ok ls => linesHeld s (ls.map Prod.snd) && mayWrite s (cmdBrings c) (ls.map Prod.snd)
                && (refusedAt s c.ctx (ls.map Prod.snd)).isNone && (lostTo s c (ls.map Prod.snd)).isNone
            | _ => false) = true)
    ∧ standsAt (setPoint tAsked 0x07 0 { pointOf tAsked 0x07 0 with
        queue := [{ owner := 1, id := 80, wait := 0, since := 0, at_ := none, path := [] }] }) 80 = true := by decide +kernel
/-- A copy whose source lies in a lost region of the pool. -/
def tLostCopy : State :=
  let c : Cmd := tCmd 2 (.copy 0x15000 (word Config.ownWindow) 64 none none (some 60) 0 0 none 0 0 false)
  let s : State := { tRecs with cmds := [c], regions := [(0, { base := 0x400, size := 1, port := 0, state := 2, losses := 1 })] }
  let s := setRing s 0 { ringOf s 0 with tlb := [tPage 0x15000 Config.poolBase 3 false] }
  setPoint s 0x07 0 { (pointOf s 0x07 0) with busy := [slotOf c] }
theorem witness_copy_lost : let s := tLostCopy
    ∃ c, s.cmds[0]? = some c ∧ streamerHolding s c = some 0 ∧ nextChunk s 0 1 = some c.id ∧ sourceLost s 0 c = true
      ∧ (match allOk (nextPlaces s 0 c) with | .fault 0x09 va => va == 0x15000 | _ => false) = true :=
  ⟨tCmd 2 (.copy 0x15000 (word Config.ownWindow) 64 none none (some 60) 0 0 none 0 0 false), by decide +kernel⟩
theorem witness_grants : (let s := setPoint tS 0x04 1535 { (pointOf tS 0x04 1535) with
        queue := [{ owner := 1, id := 5, wait := 0, since := 0, at_ := none, path := [] }] }
      railSlot s 3 = true ∧ s.clk ≤ 0 ∧ railSlot { s with clk := 7, rails := [(3, 7)] } 3 = false)
    ∧ (coreOf (setCore tS 0 { tCore with lastSlot := 1 }) 0).lastSlot = tS.clk + 1
    ∧ (ownerOf (tSlice false 0) 1).sweep = true ∧ (ownerOf tS 1).sweep = false := by decide +kernel
theorem witness_core_and_table_writes : (coreOf tS 0).ctsel < 6144 ∧ coreHasBank tS 0 = true ∧ coreHasBank tS 5 = false
    ∧ mappedElsewhere tS 5 5 = false ∧ mappedElsewhere tS 5 7 = true ∧ physCore tS 5 = 5 ∧ mappedElsewhere tS 5 0x1FFF = false
    ∧ (let e := selected 0; tableWrite tS e.1 e.2.1 e.2.2.1 e.2.2.2 0).isNone = true
    ∧ (let e := selected (selectWord 0x11 1 1 0); tableWrite tS e.1 e.2.1 e.2.2.1 e.2.2.2 7).isSome = true := by decide +kernel
theorem witness_moves : (let s : State := { tS with coreTable := [(7, 6144)] }
      (∀ b < 8, (NMap.get (coreOf s 5).banks b {}).valid = false) ∧ moveTarget s 5 6 = true)
    ∧ (let s : State := { tS with coreTable := [(7, 6144)] }; ∀ q < 4, moveTarget s 6144 q = false) := by decide +kernel
/-- A code object with one decoding image. -/
def tObject (base : Nat) : CodeObject :=
  { text := [1, 2, 3, 4], data := [], dec := [[5]], coef := [], regions := [], imgBase := base }
theorem witness_images_fit : imagesFit tS 0 1 0x10000 (imageBytes (tObject 0x10000)) = false
    ∧ (let s := setCore tS 0 { tCore with tlb := [{ tPage 0x10000 0x20000 0 false with wr := false }], frames := [] }
       imagesFit s 0 1 0x10000 (imageBytes (tObject 0x10000)) = true ∧ objectFits s [0] 1 (tObject 0x10000) = true) := by decide +kernel
/-- `tS` with a bank held on the first cores. -/
def tPacked (n : Nat) : State := { tS with cores := (upto n).map fun c => (c, tCore) }
theorem find_same (x : CoreSt) (n p : Nat) : NMap.find ((upto n).map fun c => (c, x)) p = if p < n then some x else none := by
  have app : ∀ a b : NMap CoreSt, NMap.find (a ++ b) p = (NMap.find a p).orElse fun _ => NMap.find b p := by
    intro a b
    induction a with
    | nil => simp [NMap.find]
    | cons q r ih => simp only [List.cons_append, NMap.find]; split <;> simp [*]
  induction n with
  | zero => simp [upto, NMap.find]
  | succ n ih =>
    simp only [upto, List.map_append, List.map_cons, List.map_nil, app, ih, NMap.find]
    by_cases h : p < n
    · simp [h, Nat.lt_succ_of_lt h]
    · by_cases e : n = p
      · simp [e]
      · have : ¬ p < n + 1 := by omega
        simp [h, this, e]
theorem no_target (n : Nat) (h : n = 1536) (q : Nat) : moveTarget (tPacked n) 0 q = false := by
  have m : mappedTo (tPacked n) q = some q := rfl
  have d : dieOfCore (tPacked n) 0 = 0 := by show NMap.get State.reset.coreTable 0 0 / 16 / 96 = 0; decide +kernel
  simp only [moveTarget, m, d]
  by_cases l : q < n
  · have c : coreOf (tPacked n) q = tCore := by simp [coreOf, tPacked, NMap.get, find_same, l]
    have b : coreHasBank (tPacked n) q = true := by rw [coreHasBank, c]; decide +kernel
    simp [b]
  · have : ¬ q / 1536 = 0 := by omega
    simp [this]
theorem witness_no_target : physCore (tPacked 1536) 0 < 6144 ∧ ∀ q, moveTarget (tPacked 1536) 0 q = false :=
  ⟨by decide +kernel, no_target 1536 rfl⟩
theorem witness_units_and_slots : atomicSlot tS (tReq (.amo 7 .i64 true false (.pa 0x20000) 0 0)) = true
    ∧ atomicSlot tS (tReq (.amo 13 .i64 true false (.loc 0 0xBFF8) 1 0)) = true ∧ atomicSlot tS (tReq (.lock 0 0x20000 none false)) = true
    ∧ atomicSlot tHeld (tReq (.ordered false 2 0x23000 5 0 0)) = true ∧ unitSlot tS (.loc 0 0) = true ∧ unitSlot tS (.pa 0x20000) = true
    ∧ unitSlot tS (.pa Config.hostBase) = true ∧ unitSlot { tS with clk := 7, rails := [(2, 7)] } (.loc 0 0) = false
    ∧ (let s := tQ (.amo 13 .i64 true false (.loc 0 0xBFF8) 1 0); mustFollow s 0 1 1 = false)
    ∧ (let s := tWrite (.loc 0 16) 2 [(2 ^ 60 + 16, 1), (2 ^ 60 + 17, 2)]; mustFollow s 0 1 1 = false)
    ∧ (let s := tWrite (.loc 9 16) 2 []; mustFollow s 9 1 1 = true) := by decide +kernel
theorem witness_reads_stand : (let r : Read := { tRead 0 (.pa 0x20000) with len := 2 }
      let s : State := { tWrite (.pa 0x20000) 0 (cellsAt 0x20000 [7, 0]) with reads := [r] }
      readLost s r = false ∧ ownLocal r = false ∧ r.parked = false)
    ∧ halfOpen tS 1 = false ∧ halfOpen { tS with reads := [{ tRead 0 (.pa 0x20000) with pair := 1 }] } 1 = true := by decide +kernel
theorem witness_messages_through : (let s : State := { tNet (.tdec 0x20 5) with mem := [(2 ^ 60 + 0x20, 5)] }
      mustFollow s 0 1 (tMsg (.tdec 0x20 5)).ctx = false ∧ standsAt s (tMsg (.tdec 0x20 5)).id = false)
    ∧ (let s := tNet (.start tStart); standsAt s (tMsg (.start tStart)).id = false)
    ∧ (let s : State := { tS with net := [tTile] }; standsAt s tTile.id = false) := by decide +kernel
theorem witness_launch_clk : (let s := tLaunch { tRec with state := .running }
      s.net = [] ∧ (recOf s 2 0).nextL < armSize (recOf s 2 0) ∧ ¬s.clk < (recOf s 2 0).lastReq)
    ∧ (let s := tLaunch { tRec with state := .running, policy := 2, lastReq := 1 }
       s.clk < (recOf s 2 0).lastReq ∧ (recOf (pass s 1) 2 0).policy = 2)
    ∧ (let s : State := { tNet (.start tStart) with net := [{ tMsg (.start tStart) with ctx := launchCtx 2 0 1 }] }
       ∀ m ∈ s.net, ∀ x, m.body = .start x → startRoom s m.core x = true)
    ∧ (let s : State := { setCur tDet { curFrame tDet with st := .parked [.lease] } with held := [tHeldMsg 0] }
       (∀ p ∈ lineageFrames s 0 2 0, parkOver s 0 p.1 = false) ∧ ∀ h ∈ s.held, h.state ≠ 1) := by
  refine ⟨by decide +kernel, by decide +kernel, ?_, by decide +kernel⟩
  intro s m hm x hx
  obtain rfl := List.mem_singleton.mp hm
  cases hx
  decide +kernel
/-- A walk for a command of owner 1. -/
def tWalk (i : Nat) (va : Word) : Walk :=
  { for_ := .unit true, id := i, ring := 0, owner := 1, va := va, acc := 0, core := 0, frame := 0, act := 0, pc := 0 }
theorem witness_engine_walks : unitWhere tS 0 1 80 0x70000 0 = .miss ∧ (missWalk tS (.unit true) 0 0 1 80 0x70000 0).walks = [tWalk 80 0x70000]
    ∧ (let s : State := { tS with walks := [tWalk 80 0x70000] }
       joinedWalks s (tWalk 80 0x70000) = [tWalk 80 0x70000] ∧ (1, 0x70) ∈ walkEntries s 0 ∧ fusedDue s 1 0 = false ∧ s.reads = [] ∧ s.reqs = [])
    ∧ (let s : State := { setRing tS 0 { ringOf tS 0 with leaving := [1] } with walks := [tWalk 80 0x70000] }; fusedDue s 1 0 = true)
    ∧ (match allOk ((upto 4).map fun i => engineLoc tReplace 1 (unitWhere tReplace 0 1 60 (word (0x70000 + i)) 0) (word (0x70000 + i)) false) with
       | .wait _ => true
       | _ => false) = true := by decide +kernel
theorem witness_parts_free : (match partsFor (tParts 8 2) 90 0 (tLease 2 4).members with
      | some ps => (upto 4).all fun i => (ps[i]?).all fun x => partReady (partFree (tParts 8 2) i) x.1 x.2
      | none => false) = true := by decide +kernel
/-- A beat that stops on its destination, with a fault queue of 16 entries at 0x30000. -/
def tStop : State :=
  let s := tBeat (tRec32 8 (2 ^ 19 - 4))
  { setOwner s 1 { ownerOf s 1 with desc := 0x31000 } with mem := memPut (memPut s.mem 0x31002 3) 0x31008 4 }
theorem witness_stop_entry : let s := tStop
    let d := (ownerOf s 1).desc
    Memory.wf s.mem = true ∧ s.wbuf = [] ∧ (match readyBeat s 0 1 with
     | some (c, v, .fault _ _) =>
       let u := setPoint s 0x0A 0 { pointOf s 0x0A 0 with lastSlot := s.clk + 1 }
       (match readyBeat u 0 1 with | some (e, w, .fault _ _) => e == c && w.pos == v.pos && w.count == v.count | _ => false)
         && ((ownerOf u 1).desc, rdNat u (d + 8) 8 % 32, rdNat u d 8, rdNat u (d + 16) 8, rdNat u (d + 24) 8) == (0x31000, 4, 0x30000, 0, 0)
     | _ => false) = true := by decide +kernel
/-- `tS` with a free of owner 1's tile 0 that stands at a router. -/
def tFreed (ring : Nat) : Msg := tMsg (.freed 5 0 [(1, 9)] ring)
theorem witness_frees : (let s : State := { tMail 1 0 [(1, 9)] with net := [tFreed Config.rings, tFreed 3] }
      delivers s 0 (tFreed Config.rings) ∧ sourceOf s 1 5 = some (.source 0 5 1 0 [(1, 9)] [] []) ∧ 3 < Config.rings ∧ standsAt s 50 = false
        ∧ (stillBelow s 1 0 5 0 3 [(1, 9)]).isEmpty = true)
    ∧ (let s := setBranches (setCtx tS 1 { ctxOf tS 1 with matchTab := [.source 0 5 1 0 [(0, 9), (16, 9)] [(0, [0, 16], [])] []] }) 1 0 5 (16, 9)
       ((upto 4).any fun r => !(stillBelow s 1 0 5 0 r []).isEmpty) = true)
    ∧ (let s := tNet (.free 5 9 1 none); inOrder s (tMsg (.free 5 9 1 none)) = true)
    ∧ (let s : State := { tS with net := [{ tMsg (.free 5 9 1 none) with id := 51, ctx := 1 }, { tMsg (.free 5 9 1 none) with ctx := 1 }] }
       (inOrder s { tMsg (.free 5 9 1 none) with id := 51, ctx := 1 }, inOrder s { tMsg (.free 5 9 1 none) with ctx := 1 }) = (false, true)) := by
  unfold delivers; decide +kernel
/-- `tS` with a second core of the same owner, whose frame is to issue. -/
def tTwo : State := { tS with cores := [(0, tCore), (1, { tCore with lastSlot := 1 })] }
theorem witness_clk_held : clkHeld tTwo = true ∧ (coreOf tTwo 1).lastSlot = tTwo.clk + 1 ∧ dueCore tTwo = some 0
    ∧ clkHeld { tS with cores := [] } = false ∧ (passed tTwo 3).clk = 0 ∧ clkHeld (setCore tS 0 { tCore with lastSlot := 1 }) = false := by decide +kernel
theorem witness_walk_kinds : (let s : State := { tS with walks := [tWalk 80 0x55000] }
      walkEntry (entryRead s 0 0 1 (8 * (0x55000 / 2 ^ 48 % 2 ^ 8))) 1 0x55000 0 (4, 48, 8) = .inl .xlat ∧ walkEntries s 0 = [(1, 0x55)])
    ∧ (let s : State := { setRing tS 0 { ringOf tS 0 with leaving := [1] } with walks := [tWalk 80 0x55000] }
       joinedWalks s (tWalk 80 0x55000) = [tWalk 80 0x55000] ∧ fusedDue s 1 (ringOfCore s 0) = true) := by decide +kernel
theorem witness_publish_asks : (let s := tPool; standsAt s (publishId 9) = false ∧ (pointOf s 0x0D 2).busy.any (fun b => b.id == publishId 9) = false)
    ∧ (let s := portTransfer tPool 1 (publishId 9) Config.poolBase; standsAt s (publishId 9) = true)
    ∧ (let s := setPoint tPool 0x0D 2 { pointOf tPool 0x0D 2 with busy := [{ id := publishId 9, owner := 1, pa := some Config.poolBase }] }
       (pointOf s 0x0D 2).busy.any (fun b => b.id == publishId 9) = true ∧ standsAt s (publishId 9) = false) := by decide +kernel
theorem witness_host_pair : railSlot tS 2 = true ∧ railSlot { tS with clk := 1, rails := [(2, 7)] } 2 = false ∧ Config.dramEnd < pfPage
    ∧ (let e := selected (selectWord 0x11 1 1 0); (tableWrite tS e.1 e.2.1 e.2.2.1 e.2.2.2 (word 7)).isSome = true)
    ∧ (let e := selected 0; (tableWrite tS e.1 e.2.1 e.2.2.1 e.2.2.2 (word 7)).isNone = true) := by decide +kernel
theorem witness_lost_region : (let s : State := { tPool with unpub := [], regions := [(3, { base := 0x400, size := 1, port := 2, state := 2, losses := 1 })] }
      regionClear s 3 = true ∧ (NMap.get s.regions 3 {}).state = 2)
    ∧ regionClear tPool 3 = false ∧ (NMap.get tS.regions 4 {}).state = 0
    ∧ (let v := word (2 ^ 49); bits v 63 50 = 0 ∧ bits v 49 48 = 2) ∧ bits (0 : Word) 49 48 = 0 := by decide +kernel
theorem witness_bank_moves : (let s := setCore tS 0 { tCore with banks := [(1, { owner := 2, valid := true, clean := true })] }
      (NMap.get (coreOf s 0).banks 1 {}).valid = true ∧ (NMap.get (coreOf s 0).banks 1 {}).owner ≠ 1 ∧ (banksOf s 0 1).length < bankLimit s 1) := by decide +kernel
/-- `tNotify` with the stamp of record 0 in device DRAM. -/
def tStamp : State := setRec (tNotify 1) 2 0 { recOf tS 2 0 with param := 0x10000 }
theorem witness_stamps : recallOpen tStamp 6144 1 0x20000 = false ∧ poisoned tStamp 0x20000 = false
    ∧ poisoned { tStamp with poison := [0x20000] } 0x20000 = true
    ∧ (let s := setRec (tNotify 1) 2 0 { recOf tS 2 0 with param := 3 }; ((recOf s 2 0).param + word (8 * (ifaceOf s 2).stoff)).toNat % 8 ≠ 0)
    ∧ (let pa := Config.peerBase; isWindow pa = true ∧ peerLost { tS with linksLost := [pa / 2 ^ 34 % 16] } pa = true) := by decide +kernel
theorem witness_load_cores : (let o := tObject 0x10000
      let s := setCore (setCore tS 1 { tCore with frames := [] }) 0 { tCore with frames := [] }
      (∀ c ∈ [0, 1], objectEnd o ≤ localSize s c 1 ∧ (ctxOf s (ctxKey c 1)).code = none) ∧ (∀ c ∈ [0, 1], c < 6144 ∧ ∀ b ∈ banksOf s c 1, b < 8)
        ∧ (banksOf s 1 1).Nodup)
    ∧ (let s := setCtx tS 1 { ctxOf tS 1 with code := some (tObject 0x10000) }; quiet s 0 1 = false ∧ (ctxOf s (ctxKey 0 1)).code.isSome = true) := by decide +kernel
theorem witness_step_ends : frameReady (tF fun f => { f with st := .parked [.segment 0] }) 0 0 = false ∧ frameReady tS 0 0 = true
    ∧ (let s := tF fun f => { f with owed := [{ id := 9, reg := 1, val := none, learn := none }], word := 0x70000002 }
       (frameOf s 0 0).st = .active) ∧ (let s : State := { tTwo with agenda := [] }; dueCore (passed s 3) = some 0 ∧ s.clk + 3 - (passed s 3).clk ≠ 0) := by
  decide +kernel
/-- `tS` with a lock request at 0x20000 and what waits for that word. -/
def tLock (k : ReqKind) (v : Nat) (ws : List Waiter) : State :=
  let s := { tQ k with mem := applyWrites [] (cellsAt 0x20000 (leBytes v 8)) }
  setRing s (homeRing s 0x20000) { ringOf s (homeRing s 0x20000) with waiters := ws }
/-- A queued task. -/
def tWaiter (writer : Bool) : Waiter := { pa := 0x20000, writer := writer, owner := 1, record := (0, 0x20), ctx := 1 }
theorem witness_lock_queue : (let s := tLock (.lock 0 0x20000 (some (0, 0x20)) false) (2 ^ 16) []
      performs s 0 (tReq (.lock 0 0x20000 (some (0, 0x20)) false)) ∧ Memory.wf s.mem = true ∧ rdNat s 0x20000 8 / 2 ^ 16 % 2 = 1
        ∧ atomicSlot s (tReq (.lock 0 0x20000 (some (0, 0x20)) false)) = true)
    ∧ (let s := tLock (.lock 3 0x20000 none false) (2 ^ 16) [tWaiter false, tWaiter true]
       performs s 0 (tReq (.lock 3 0x20000 none false)) ∧ rdNat s 0x20000 8 % 2 ^ 16 = 0
         ∧ (((ringOf s (homeRing s 0x20000)).waiters.filter fun x => x.writer).head? = some (tWaiter true)))
    ∧ 256 ≤ (List.replicate 256 (tWaiter true)).length ∧ tWaiter false ≠ tWaiter true := by
  unfold performs; decide +kernel
/-- An entry of the window of `tGroup`. -/
def tOEntry : OEntry :=
  { seq := 2, pa := 0x23000, val := 5, float := true, tag := [], ctx := 1, wid := 9, frame := 0, act := 7, lin := tLin,
    treat := 4, share := none }
theorem witness_ordered_steps : (let s : State := { tHeld with reqs := [tReq (.apply (homeRing tHeld 0x23000) 0)] }
      performs s 0 (tReq (.apply (homeRing tHeld 0x23000) 0)) ∧ (NMap.find (ringOf s (homeRing s 0x23000)).groups 0).isSome = true
        ∧ atomicSlot s (tReq (.apply (homeRing tHeld 0x23000) 0)) = true)
    ∧ (let e := tOEntry; (NMap.find [(2, e)] (tGroup.next % 64)).isSome = true ∧ NMap.find (NMap.put tGroup.window 2 e) (tGroup.next % 64) = some e
         ∧ NMap.find (NMap.put tGroup.window 3 e) (tGroup.next % 64) = none)
    ∧ (let s := tHeld; groupFor s 2 0x23000 = none ∧ whereCur s 0x70000 2 = .miss) := by
  unfold performs; decide +kernel
theorem witness_quiet_settles : (let s := tWrite (.pa 0x20000) 0 [(0x20000, 1), (0x20001, 2)]
      let e := { tEntry 5 (.write 9 (.pa 0x20000) 2 0) with quiet := true }
      let s := setCtx s 1 { ctxOf s 1 with queue := [e] }
      settleReady s 1 0 e 9 (.pa 0x20000) 0 = true ∧ unitSlot s (.pa 0x20000) = true ∧ e.quiet = true)
    ∧ (let s := tWrite (.pa 0x20000) 0 []; (tEntry 5 (.write 9 (.pa 0x20000) 2 0)).quiet = false ∧ unitSlot s (.pa 0x20000) = true) := by decide +kernel
theorem witness_read_waits : (let s : State := { setCore tS 1 { tCore with l1 := [{ tLine 0 with mesi := 2, dirty := [9] }] } with reads := [tRead 1 (.pa 0x20000)] }
      recallOpen tS 0 1 0x20000 = false ∧ (s.reads[0]?).isSome = true)
    ∧ (let r := tRead 0 (.pa 0x20000); r.miss = false ∧ r.mode = 0)
    ∧ (let s : State := { tS with reads := [{ tRead 1 (.loc 0 16) with after := [7] }] }; standsAt s 70 = false ∧ releasable s 1 [7] [] [] [] = true) := by
  decide +kernel
theorem witness_part_asks : (match partsFor (tParts 8 2) 90 0 (tLease 2 4).members with
      | some ps => ps.all fun x => x.2.cmd.asked == 0
      | none => false) = true
    ∧ (let s : State := { tParts 8 2 with cmds := (tParts 8 2).cmds.map fun c => { c with asked := 1 } }
       (match partsFor s 90 0 (tLease 2 4).members with
        | some ps => ps.all fun x => x.2.cmd.asked != 0 && !standsAt s x.2.cmd.id
        | none => false) = true) := by decide +kernel

end Sys2Proof.Tests
end

section
/-! SUPPORT. What the passing of clks does to settled memory: nothing. Every write goes to the step's own writes
(`putByte`), so each operation on the way keeps `State.mem`; one lemma per operation, in the order of the model. -/

namespace Sys2Proof.Machine

open Sys2Proof

/-! ### Folds and shared operations -/

/-- A fold of operations that keep settled memory keeps it. -/
theorem foldl_mem {α : Type} {f : State → α → State} (h : ∀ s a, (f s a).mem = s.mem) (l : List α) (s : State) :
    (l.foldl f s).mem = s.mem := by
  induction l generalizing s with
  | nil => rfl
  | cons a r ih => rw [List.foldl_cons, ih, h]

@[simp] theorem charge_mem (s : State) (o units : Nat) : (charge s o units).mem = s.mem := by
  simp only [charge]; split
  · rfl
  · split <;> rfl

@[simp] theorem bumpCounter_mem (s : State) (o cls sel : Nat) : (bumpCounter s o cls sel).mem = s.mem := rfl

@[simp] theorem drawOwner_mem (s : State) (o sc i : Nat) : (drawOwner s o sc i).2.mem = s.mem := rfl

@[simp] theorem wakeCore_mem (s : State) (c : Nat) : (wakeCore s c).mem = s.mem := rfl

@[simp] theorem raiseMsix_mem (s : State) (i v : Nat) : (raiseMsix s i v).mem = s.mem := rfl

@[simp] theorem bounce_mem (s : State) (k frame act cause : Nat) (addr pc : Word) (lin : Lin) (id : Nat) :
    (bounce s k frame act cause addr pc lin id).mem = s.mem := rfl

@[simp] theorem cancelAt_mem (s : State) (ids : List Nat) : (cancelAt s ids).mem = s.mem := rfl

/-! ### Requests at arbitration points -/

@[simp] theorem requestAt_mem (s : State) (owner id : Nat) (at_ : Option Place) (l : List (Nat × Nat)) :
    (requestAt s owner id at_ l).mem = s.mem := by
  cases l <;> rfl

@[simp] theorem requestHome_mem (s : State) (owner id : Nat) (write : Bool) (ps : List Place) :
    (requestHome s owner id write ps).mem = s.mem :=
  foldl_mem (fun _ _ => requestAt_mem ..) _ _

@[simp] theorem requestSectors_mem (s : State) (ring owner id : Nat) (write : Bool) (ls : List Place) :
    (requestSectors s ring owner id write ls).mem = s.mem :=
  foldl_mem (fun _ _ => requestAt_mem ..) _ _

@[simp] theorem forkTiles_mem (s : State) (id left : Nat) : (forkTiles s id left).mem = s.mem :=
  foldl_mem (fun _ _ => requestAt_mem ..) _ _

@[simp] theorem portTransfer_mem (s : State) (owner id pa : Nat) : (portTransfer s owner id pa).mem = s.mem := by
  unfold portTransfer; split
  · exact requestAt_mem ..
  · rfl

/-! ### Writes that settle (R75, R81): their bytes are the step's own until it ends -/

@[simp] theorem clearPoison_mem (s : State) (locs : List Nat) : (clearPoison s locs).mem = s.mem := rfl

@[simp] theorem discardFetch_mem (s : State) (locs : List Nat) : (discardFetch s locs).mem = s.mem :=
  foldl_mem (fun _ _ => setCore_mem ..) _ _

@[simp] theorem takeBump_mem (s : State) (chain cause : List Nat) : (takeBump s chain cause).mem = s.mem := by
  unfold takeBump; split <;> rfl

@[simp] theorem bumpTile_mem (s : State) (t : Nat) (cause : List Nat) : (bumpTile s t cause).mem = s.mem := by
  unfold bumpTile; split
  · exact takeBump_mem ..
  · rfl

@[simp] theorem recallHost_mem (s : State) (w : Nat) (locs : List Nat) : (recallHost s w locs).mem = s.mem := by
  unfold recallHost; split <;> rfl

@[simp] theorem settleBytes_mem (s : State) (w : Nat) : (settleBytes s w).mem = s.mem := by
  simp only [settleBytes, recallHost_mem, discardFetch_mem, clearPoison_mem]
  exact foldl_mem (fun _ _ => by simp only [putByte_mem]; split <;> rfl) _ _

@[simp] theorem markDirty_mem (s : State) (sectors : List Nat) : (markDirty s sectors).mem = s.mem :=
  foldl_mem (fun _ _ => by dsimp only; split <;> rfl) _ _

@[simp] theorem settleWrite_mem (s : State) (w : Nat) : (settleWrite s w).mem = s.mem := by
  simp only [settleWrite]
  rw [foldl_mem fun _ _ => bumpTile_mem .., markDirty_mem, settleBytes_mem]

@[simp] theorem hwWrite_mem (s : State) (owner a : Nat) (bs : List Byte) (tag : Option Tag) :
    (hwWrite s owner a bs tag).mem = s.mem := by
  simp only [hwWrite, settleWrite_mem]; split
  · exact requestHome_mem ..
  · rfl

/-! ### Store queues, faults and leases that end -/

@[simp] theorem pushEntry_mem (s : State) (k : Nat) (e : QEntry) : (pushEntry s k e).mem = s.mem := rfl

@[simp] theorem pushClose_mem (s : State) (k frame act w : Nat) (x : Window) (lin : Lin) :
    (pushClose s k frame act w x lin).mem = s.mem := rfl

@[simp] theorem closeOrphans_mem (s : State) (k : Nat) : (closeOrphans s k).mem = s.mem :=
  foldl_mem (fun _ _ => by split <;> rfl) _ _

@[simp] theorem dropEntry_mem (s : State) (k id : Nat) : (dropEntry s k id).mem = s.mem := closeOrphans_mem ..

@[simp] theorem forgetWrite_mem (s : State) (w : Nat) : (forgetWrite s w).mem = s.mem := rfl

@[simp] theorem discardEntry_mem (s : State) (k : Nat) (e : QEntry) (w : Nat) : (discardEntry s k e w).mem = s.mem :=
  dropEntry_mem ..

@[simp] theorem descCount_mem (s : State) (owner off : Nat) : (descCount s owner off).mem = s.mem := by
  simp only [descCount]; split
  · rfl
  · split
    · exact hwWrite_mem ..
    · rfl

@[simp] theorem countDrop_mem (s : State) (owner : Nat) : (countDrop s owner).mem = s.mem := descCount_mem ..

@[simp] theorem countCapDrop_mem (s : State) (pa : Nat) : (countCapDrop s pa).mem = s.mem := rfl

@[simp] theorem faultEntry_mem (s : State) (owner kind cause sub core frame : Nat) (addr pc : Word) :
    (faultEntry s owner kind cause sub core frame addr pc).2.mem = s.mem := by
  simp only [faultEntry]; split
  · exact descCount_mem ..
  · split
    · simp only [raiseMsix_mem, setOwner_mem, hwWrite_mem]
    · split <;> simp only [hwWrite_mem]

@[simp] theorem countError_mem (s : State) (l : Lin) : (countError s l).mem = s.mem := by
  unfold countError; split <;> rfl

@[simp] theorem reportFault_mem (s : State) (k frame cause : Nat) (addr pc : Word) :
    (reportFault s k frame cause addr pc).mem = s.mem := faultEntry_mem ..

@[simp] theorem failParts_mem (s : State) (lease : Nat) : (failParts s lease).mem = s.mem :=
  foldl_mem (fun _ _ => by rw [countError_mem, reportFault_mem]) _ _

@[simp] theorem endLease_mem (s : State) (ring : Nat) : (endLease s ring).mem = s.mem := by
  simp only [endLease]; split
  · rfl
  · exact failParts_mem ..

@[simp] theorem expireLeases_mem (s : State) : (expireLeases s).mem = s.mem :=
  foldl_mem (fun _ _ => by
    split
    · split
      · exact endLease_mem ..
      · rfl
    · rfl) _ _

/-! ### L1 copies: written back, and dropped (R251, R252) -/

@[simp] theorem setWay_mem (s : State) (ring i : Nat) (w : Way) : (setWay s ring i w).mem = s.mem := rfl

@[simp] theorem unrecord_mem (s : State) (core : Nat) (l : L1Line) : (unrecord s core l).mem = s.mem := by
  unfold unrecord; split <;> rfl

@[simp] theorem mapEntry_mem (s : State) (w : Nat) (f : QEntry → QEntry) : (mapEntry s w f).mem = s.mem := by
  unfold mapEntry; split <;> rfl

@[simp] theorem keepPoison_mem (s : State) (l : L1Line) : (keepPoison s l).mem = s.mem := by
  unfold keepPoison; split
  · exact foldl_mem (fun _ _ => mapEntry_mem ..) _ _
  · rfl

@[simp] theorem dropL1_mem (s : State) (core : Nat) (p : L1Line → Bool) : (dropL1 s core p).mem = s.mem :=
  foldl_mem (fun _ _ => by rw [unrecord_mem, keepPoison_mem]) _ _

@[simp] theorem putL1_mem (s : State) (core : Nat) (x : L1Line) : (putL1 s core x).mem = s.mem := rfl

@[simp] theorem setMesi_mem (s : State) (core : Nat) (l : L1Line) (v : Nat) : (setMesi s core l v).mem = s.mem := by
  simp only [setMesi]; split <;> rfl

@[simp] theorem cleanL1_mem (s : State) (k pa w : Nat) : (cleanL1 s k pa w).mem = s.mem := by
  simp only [cleanL1]; split
  · rfl
  · split <;> simp only [setMesi_mem, putL1_mem] <;> split <;> rfl

@[simp] theorem settleEntry_mem (s : State) (k : Nat) (e : QEntry) (w : Nat) (t : Tgt) (treat : Nat) :
    (settleEntry s k e w t treat).mem = s.mem := by
  cases t with
  | loc c o =>
    simp only [settleEntry]; split
    · simp only [countDrop_mem, discardEntry_mem]
    · simp only [dropEntry_mem, settleWrite_mem]; split <;> rfl
  | pa a =>
    simp only [settleEntry]; split
    · simp only [bounce_mem, countCapDrop_mem, discardEntry_mem]
    · split
      · split <;> simp only [countDrop_mem, discardEntry_mem, dropEntry_mem, charge_mem]
      · simp only [charge_mem, dropEntry_mem]; split <;> simp only [cleanL1_mem, settleWrite_mem]

@[simp] theorem askRecall_mem (s : State) (k : Nat) (e : QEntry) (w : Nat) (t : Tgt) (treat : Nat) :
    (askRecall s k e w t treat).mem = s.mem := by
  unfold askRecall; split
  · exact requestSectors_mem ..
  · rfl

@[simp] theorem recallWrite_mem (s : State) (w : Nat) : (recallWrite s w).mem = s.mem := by
  unfold recallWrite; split
  · split
    · split
      · rw [settleEntry_mem, askRecall_mem]
      · rfl
    · rfl
  · rfl

@[simp] theorem writeBack_mem (s : State) (ls : List L1Line) : (writeBack s ls).mem = s.mem :=
  foldl_mem (fun _ _ => foldl_mem recallWrite_mem _ _) _ _

@[simp] theorem leaveL1_mem (s : State) (core : Nat) (p : L1Line → Bool) : (leaveL1 s core p).mem = s.mem := by
  rw [leaveL1, dropL1_mem, writeBack_mem]

@[simp] theorem expireCopies_mem (s : State) : (expireCopies s).mem = s.mem := foldl_mem (fun _ _ => leaveL1_mem ..) _ _

/-! ### Home slices: probes, victims, fills and sweeps (R233, R237, R243-R250) -/

@[simp] theorem sendProbes_mem (s : State) (line : Nat) (ts : List (Nat × Nat × Option Nat)) :
    (sendProbes s line ts).mem = s.mem := by
  simp only [sendProbes]
  refine (foldl_mem (fun _ _ => setRing_mem ..) _ _).trans (foldl_mem (fun _ _ => ?_) _ _)
  rw [dropL1_mem, writeBack_mem]

@[simp] theorem probeWay_mem (s : State) (ring i : Nat) (w : Way) : (probeWay s ring i w).mem = s.mem := by
  simp only [probeWay]; split <;> simp only [setWay_mem, sendProbes_mem]

@[simp] theorem victimWay_mem (s : State) (owner ring set : Nat) : (victimWay s owner ring set).2.mem = s.mem := by
  have pick_mem (l : List (Nat × Way)) (i : Nat) :
      (if l.isEmpty then (none, s) else ((l[i]?).map Prod.fst, (drawOwner s owner 0x02 ring).2)).2.mem = s.mem := by
    split
    · rfl
    · exact drawOwner_mem ..
  simp only [victimWay]; split
  · rfl
  · split
    · exact pick_mem ..
    · split
      · exact pick_mem ..
      · rfl

@[simp] theorem publishWrite_mem (s : State) (w : Nat) : (publishWrite s w).mem = s.mem := rfl

@[simp] theorem evictWay_mem (s : State) (ring i : Nat) : (evictWay s ring i).mem = s.mem := by
  simp only [evictWay]; split
  · rfl
  · simp only [setRing_mem]
    rw [foldl_mem fun _ _ => by rw [portTransfer_mem], charge_mem, foldl_mem publishWrite_mem, probeWay_mem]

@[simp] theorem moveLine_mem (s : State) (owner ring i : Nat) : (moveLine s owner ring i).mem = s.mem := by
  simp only [moveLine]; split
  · rfl
  · split
    · rfl
    · split <;> simp only [setRing_mem, evictWay_mem, victimWay_mem]

@[simp] theorem addSector_mem (s : State) (ring i sec : Nat) : (addSector s ring i sec).mem = s.mem := by
  unfold addSector; split
  · rfl
  · split <;> rfl

@[simp] theorem fillSector_mem (s : State) (pa : Nat) : (fillSector s pa).mem = s.mem := by
  unfold fillSector; split
  · exact addSector_mem ..
  · rfl

@[simp] theorem lookupWay_mem (s : State) (owner pa treat : Nat) (share : Option Nat) :
    (lookupWay s owner pa treat share).mem = s.mem := by
  simp only [lookupWay]; split
  · rfl
  · split
    · split
      · exact moveLine_mem ..
      · rfl
    · split <;> simp only [setWay_mem, evictWay_mem, victimWay_mem]

@[simp] theorem lookup_mem (s : State) (owner pa treat : Nat) (share : Option Nat) :
    (lookup s owner pa treat share).mem = s.mem := by
  simp only [lookup]; split
  · rfl
  · rw [fillSector_mem]; split <;> simp only [charge_mem, lookupWay_mem]

@[simp] theorem sweepOver_mem (s : State) (owner : Nat) : (sweepOver s owner).mem = s.mem := by
  simp only [sweepOver, setOwner_mem]
  refine foldl_mem (fun _ _ => foldl_mem (fun _ _ => ?_) _ _) _ _
  split
  · split
    · exact moveLine_mem ..
    · rfl
  · rfl

@[simp] theorem endSweeps_mem (s : State) : (endSweeps s).mem = s.mem := foldl_mem (fun _ _ => sweepOver_mem ..) _ _

/-! ### The slots of a clk (R211, R324) -/

@[simp] theorem grantLine_mem (s : State) (code : Nat) (r : ArbReq) : (grantLine s code r).mem = s.mem := by
  simp only [grantLine]; split
  · rfl
  · split
    · rfl
    · split
      · exact lookupWay_mem ..
      · split <;> simp only [markDirty_mem, lookup_mem]

@[simp] theorem grantHead_mem (s : State) (code inst : Nat) (p : Point) (o : Nat) (lent : Bool) :
    (grantHead s code inst p o lent).mem = s.mem := by
  simp only [grantHead]; split
  · rfl
  · rw [grantLine_mem, forkTiles_mem, requestAt_mem]; split <;> rfl

@[simp] theorem arbitrate_mem (s : State) (code inst : Nat) : (arbitrate s code inst).mem = s.mem := by
  have free_mem : (if code = 0x0D then { s with free := s.free + (pointOf s code inst).busy.length } else s).mem = s.mem := by
    split <;> rfl
  simp only [arbitrate]
  generalize (if code = 0x0D then { s with free := s.free + (pointOf s code inst).busy.length } else s) = u at free_mem ⊢
  split
  · rfl
  · split
    · rw [grantHead_mem, free_mem]
    · split
      · exact free_mem
      · rw [grantHead_mem, free_mem]

@[simp] theorem grantLease_mem (s : State) (ring : Nat) (l : Lease) : (grantLease s ring l).mem = s.mem :=
  foldl_mem (fun _ _ => by dsimp only; split <;> rfl) _ _

@[simp] theorem ageRequests_mem (s : State) (ring : Nat) : (ageRequests s ring).mem = s.mem := rfl

@[simp] theorem arbitrateLease_mem (s : State) (ring : Nat) : (arbitrateLease s ring).mem = s.mem := by
  simp only [arbitrateLease]; split
  · rfl
  · split
    · split <;> simp only [grantLease_mem, bumpCounter_mem, ageRequests_mem, setPoint_mem]
    · split
      · rfl
      · split <;> simp only [grantLease_mem, bumpCounter_mem, ageRequests_mem, setPoint_mem]

@[simp] theorem takeSlots_mem (s : State) : (takeSlots s).mem = s.mem := by
  simp only [takeSlots]
  rw [foldl_mem fun _ _ => arbitrate_mem .., foldl_mem arbitrateLease_mem]

/-! ### Clks -/

@[simp] theorem settleIssue_mem (s : State) (l : Nat) : (settleIssue s l).mem = s.mem := rfl

@[simp] theorem settleHot_mem (s : State) : (settleHot s).mem = s.mem := foldl_mem settleIssue_mem _ _

@[simp] theorem beginClk_mem (s : State) : (beginClk s).mem = s.mem := by
  rw [beginClk, settleHot_mem, expireCopies_mem, expireLeases_mem, endSweeps_mem]

@[simp] theorem passOpen_mem (last n : Nat) (s : State) : (passOpen last n s).mem = s.mem := by
  induction n generalizing s with
  | zero => rfl
  | succ n ih =>
    simp only [passOpen]; split
    · rfl
    · rw [ih, beginClk_mem]; exact takeSlots_mem s

end Sys2Proof.Machine
end

section
/-! SUPPORT. The invariant of every step: what an outcome has to be for it, and which meanings give which outcome. -/

namespace Sys2Proof.Machine

open Sys2Proof

/-! ### States with the memory of a state that meets the invariant -/

theorem Inv.of_eq {s t : State} (h : Inv s) (hm : t.mem = s.mem) (hw : t.wbuf = s.wbuf) : Inv t :=
  ⟨hm ▸ h.mem, hw.trans h.wbuf⟩

/-- Memory is no register, frame or context. -/
theorem Moves.inv {u t : State} {g : Frame → Frame} {ds : List Reg} {pc : Word} (m : Moves u t g ds pc) (h : Inv u) : Inv t := by
  have hm := congrArg State.mem m.rest
  have hw := congrArg State.wbuf m.rest
  exact h.of_eq hm hw

theorem Retires.inv {u t : State} {g : Frame → Frame} {ds : List Reg} {pc : Word} (r : Retires u t g ds pc) (h : Inv u) : Inv t :=
  r.moves.inv h

theorem Inv.setCur {s : State} (h : Inv s) (x : Frame) : Inv (setCur s x) := h.of_eq rfl rfl

theorem Inv.wr {s : State} (h : Inv s) (d : Reg) (v : Word) : Inv (wr s d v) := (moves_wr s d v).inv h

theorem Inv.retire4 {s : State} (h : Inv s) : Inv (retire4 s) := (retires_retire4 s).inv h

theorem Inv.finish {s : State} (h : Inv s) (d : Reg) (v : Word) : Inv (finish s d v) := (retires_finish s d v).inv h

theorem Inv.jumpTo {s : State} (h : Inv s) (p : Word) : Inv (jumpTo s p) := (retires_jumpTo s p).inv h

theorem Inv.owe {s : State} (h : Inv s) (d : Reg) (id : Nat) (v : Option Word) : Inv (owe s d id v) := h.setCur _

theorem Inv.finishF {s : State} (h : Inv s) (d : Reg) (v fl : Nat) : Inv (finishF s d v fl) := (h.setCur _).finish ..

theorem Inv.charge {s : State} (h : Inv s) (o units : Nat) : Inv (charge s o units) :=
  h.of_eq (charge_mem ..) <| by
    simp only [Machine.charge]; split
    · rfl
    · split <;> rfl

theorem Inv.learn {s : State} (h : Inv s) (k : Nat) (ids : List Nat) : Inv (learn s k ids) := by
  unfold Machine.learn; split
  · exact h
  · exact h.of_eq rfl rfl

/-- Clks pass: what they write is in memory before the next event (R77). -/
theorem Inv.passed {s : State} (h : Inv s) (n : Nat) : Inv (passed s n) :=
  ⟨applyWrites_wf _ _ (by rw [passOpen_mem]; exact h.mem), rfl⟩

/-- A fold of operations that keep the invariant keeps it. -/
theorem Inv.foldl {α : Type} {f : State → α → State} (hf : ∀ s a, Inv s → Inv (f s a)) {s : State} (h : Inv s)
    (l : List α) : Inv (l.foldl f s) :=
  List.foldlRecOn l f h fun s hs a _ => hf s a hs

/-! ### Outcomes -/

/-- A next state, where the outcome is one, meets the invariant. -/
def Keeps (r : Res) : Prop := ∀ t, r = .next t → Inv t

theorem keeps_next {s : State} (h : Inv s) : Keeps (.next s) := fun _ e => by cases e; exact h

/-- Whatever a meaning does, its writes are made in canonical memory and none is left over. -/
theorem keeps_commit {s : State} (h : Inv s) (u : State) : Keeps (commit s u) :=
  keeps_next ⟨applyWrites_wf _ _ h.mem, rfl⟩

/-- A carousel instruction first ends the leases that are over (R325), which may report faults: within the step too. -/
theorem keeps_commit_expireLeases {s : State} (h : Inv s) (u : State) : Keeps (commit (expireLeases s) u) :=
  keeps_next ⟨applyWrites_wf _ _ (by rw [expireLeases_mem]; exact h.mem), rfl⟩

theorem keeps_ite {c : Prop} [Decidable c] {a b : Res} (ha : Keeps a) (hb : Keeps b) : Keeps (if c then a else b) := by
  split
  · exact ha
  · exact hb

/-! ### What every step brings -/

theorem Inv.ageFrame {s : State} (h : Inv s) (old : State) (c g : Nat) : Inv (ageFrame old s c g) := by
  simp only [Machine.ageFrame]; split
  · exact h.of_eq rfl rfl
  · split
    · exact h.of_eq rfl rfl
    · exact h

theorem Inv.noteFused {s : State} (h : Inv s) : Inv (noteFused s) := by
  unfold Machine.noteFused
  refine Inv.foldl (fun s p hs => ?_) ?_ _
  · dsimp only; split
    · exact hs
    · exact hs.of_eq rfl rfl
  · exact h.of_eq rfl rfl

theorem Inv.stepEnd {s : State} (h : Inv s) (old : State) : Inv (stepEnd old s) :=
  (Inv.foldl (fun _ p hs => hs.ageFrame old p.1 p.2) h _).noteFused

theorem keeps_ended {r : Res} (old : State) (h : Keeps r) : Keeps (ended old r) := by
  cases r with
  | next s => exact keeps_next ((h s rfl).stepEnd old)
  | fault | refused => exact fun _ e => by cases e

/-! ### Meanings -/

theorem keeps_opLate {s : State} (h : Inv s) {d a b : Reg} {g : Word → Word → Word} : Keeps (opLate d a b g s) :=
  have h' : Inv { s with nextId := s.nextId + 1 } := h.of_eq rfl rfl
  keeps_next (h'.owe ..).retire4

theorem keeps_branchIf {s : State} (h : Inv s) {c : Bool} {p : BitVec 16} : Keeps (branchIf c p s) := by
  refine keeps_next ?_
  split
  · exact h.jumpTo _
  · exact h.retire4

/-- A verified image brings the reset values, whose memory is empty (R397). -/
theorem keeps_firmwareImageWrite {s : State} (h : Inv s) (verified : Bool) : Keeps (execFirmwareImageWrite verified s) := by
  unfold execFirmwareImageWrite
  split
  · exact keeps_next h
  · exact keeps_ite (keeps_next ⟨rfl, rfl⟩) (keeps_next (h.of_eq rfl rfl))

/-- Every row of the opcode table, from every state that meets the invariant. Those that touch only registers and the PC leave memory
as it is, a reset empties it, and every other one ends in `commit`. -/
theorem exec_keeps {s : State} (h : Inv s) (i : Instr) : Keeps (exec i s) := by
  cases i with
  | add | sub | and | or | xor | andn | orn | nor | sll | srl | sra | rol | ror | slt | sltn | seq | sne | min | max | minn
  | maxn | adds1 | adds2 | adds3 | sel | clz | ctz | popc | brev | bswap | sxb | sxh | sxw | zxw | addi | andi | ori | xori
  | slti | sltni | slli | srli | srai | roli | bfx | bfxs | bfi | ldhi | adpc | fsgn | fsgnn | fsgnx | fclass =>
    exact keeps_next (h.finish ..)
  | mul | mulh | mulhn | mulw | div | divn | rem | remn =>
    unfold exec
    exact keeps_opLate h
  | fadd | fsub | fmul | ffma | fdiv | fsqrt | fmin | fmax | feq | flt | fle | fcvti | fcvtf | fcvtff | fev =>
    exact keeps_next (h.finishF ..)
  | fred => exact keeps_next ((h.setCur _).finish ..)
  | beq | bne | blt | bge | bltn | bgen | bany | bnone => exact keeps_branchIf h
  | dbnz => exact keeps_branchIf (h.wr ..)
  | jmp => exact keeps_next (h.jumpTo _)
  | jal => exact keeps_next ((h.wr ..).jumpTo _)
  | jr => exact keeps_ite (keeps_commit h _) (keeps_next (h.jumpTo _))
  | jalr => exact keeps_ite (keeps_commit h _) (keeps_next ((h.wr ..).jumpTo _))
  | callat | reply => exact keeps_ite (keeps_commit h _) (keeps_ite (keeps_commit h _) (keeps_commit h _))
  | idle => exact keeps_ite (keeps_commit h _) (keeps_commit h _)
  | interfaceWeight | ownerWeight => exact keeps_ite (keeps_commit h _) (keeps_next h)
  | recordBuild => exact keeps_ite (keeps_next h) (keeps_commit h _)
  | perstRelease => exact keeps_next ⟨rfl, rfl⟩
  | firmwareImageWrite => exact keeps_firmwareImageWrite h _
  | mlease | mrel | mcfg | mlda | mldb | mstep | mrot | mdrain | mzero => exact keeps_commit_expireLeases h _
  | _ => exact keeps_commit h _

/-! ### A step -/

/-- An instruction that passes its checks is handed on in a state with the same memory (R68, R69, R96). -/
theorem checkWord_go {s t : State} {w : BitVec 32} {i : Instr} (e : checkWord s w = .go i t) (h : Inv s) : Inv t := by
  unfold checkWord at e
  split at e
  · cases e
  · split at e <;> cases e
    unfold learnRegs
    dsimp only; split
    · exact h
    · exact (h.setCur _).learn ..

/-- Charging the instruction that issues keeps what the checks hand on. -/
theorem chargeIssued_go {r : Fetched} {t : State} {i : Instr} (e : chargeIssued r = .go i t) (h : ∀ u, r = .go i u → Inv u) :
    Inv t := by
  cases r with
  | stopped => cases e
  | go j u => cases e; exact (h u rfl).charge ..

theorem fetchCheck_go {s t : State} {i : Instr} (e : fetchCheck s = .go i t) (h : Inv s) : Inv t := by
  simp only [fetchCheck] at e
  split at e
  · exact checkWord_go e (h.setCur _)
  · split at e
    · cases e
    · split at e
      · exact chargeIssued_go e fun _ e => checkWord_go e ((h.setCur _).setCur _)
      · split at e
        · cases e
        · exact chargeIssued_go e fun _ e => checkWord_go e (h.setCur _)

end Sys2Proof.Machine
end

section
/-! SUPPORT. The model's own choice of the next event (log 1): every move it may take keeps the invariant. -/

namespace Sys2Proof.Machine

open Sys2Proof

/-- From every state that meets the invariant the move's outcome keeps it. -/
def KeepsInv (e : Move) : Prop := ∀ s, Inv s → Keeps (e s)

theorem forall_mem_ite {α : Type} {c : Prop} [Decidable c] {l m : List α} {P : α → Prop} :
    (∀ x ∈ (if c then l else m), P x) ↔ (c → ∀ x ∈ l, P x) ∧ (¬c → ∀ x ∈ m, P x) := by
  by_cases h : c <;> simp [h]

/-- A move that ends in `commit`. -/
theorem KeepsInv.of_commit {e : Move} {u : State → State} (h : ∀ s, e s = commit s (u s)) : KeepsInv e := fun s hs => by
  rw [h]; exact keeps_commit hs _

theorem KeepsInv.single {e : Move} {u : State → State} (h : ∀ s, e s = commit s (u s)) : ∀ m ∈ [e], KeepsInv m :=
  List.forall_mem_singleton.2 (.of_commit h)

theorem keepsInv_arrivalOf (i : Nat) (b : Body) : KeepsInv (arrivalOf i b) := by
  unfold arrivalOf
  split <;> exact .of_commit fun _ => rfl

theorem keepsInv_grantFor (c : Cmd) : KeepsInv (grantFor c) := fun s h => by
  unfold grantFor
  split
  · exact keeps_commit h _
  · exact keeps_next h

theorem keepsInv_of_mem_stepOf (i : Nat) (q : Req) : ∀ e ∈ stepOf i q, KeepsInv e := by
  rw [stepOf, List.forall_mem_append]
  constructor
  · split
    · simp only [forall_mem_ite, List.forall_mem_singleton, List.not_mem_nil, false_implies, implies_true, and_true]
      exact fun _ => .of_commit fun _ => rfl
    · simp
  · cases q.kind with
    | ordered =>
      exact forall_mem_ite.2 ⟨fun _ => KeepsInv.single fun _ => rfl, fun _ => KeepsInv.single fun _ => rfl⟩
    | _ => exact KeepsInv.single fun _ => rfl

theorem keepsInv_of_mem_entrySteps (k i : Nat) (e : QEntry) : ∀ m ∈ entrySteps k i e, KeepsInv m := by
  unfold entrySteps
  split
  · exact KeepsInv.single fun _ => rfl
  · simp only [List.forall_mem_append, forall_mem_ite, List.forall_mem_singleton, List.not_mem_nil, false_implies, implies_true, and_true]
    exact ⟨fun _ => .of_commit fun _ => rfl, .of_commit fun _ => rfl⟩
  · exact KeepsInv.single fun _ => rfl

theorem keepsInv_of_mem_cmdSteps (i : Nat) (c : Cmd) : ∀ e ∈ cmdSteps i c, KeepsInv e := by
  unfold cmdSteps
  split
  · simp only [List.forall_mem_cons, List.not_mem_nil, false_implies, implies_true, and_true]
    exact ⟨.of_commit fun _ => rfl, .of_commit fun _ => rfl⟩
  · split <;> simp only [List.forall_mem_cons, List.not_mem_nil, false_implies, implies_true, and_true, keepsInv_grantFor]
    · exact .of_commit fun _ => rfl
    · exact ⟨.of_commit fun _ => rfl, .of_commit fun _ => rfl⟩
    · exact ⟨.of_commit fun _ => rfl, .of_commit fun _ => rfl⟩
    · exact .of_commit fun _ => rfl

theorem keepsInv_of_mem_autoCandidates (s : State) : ∀ e ∈ autoCandidates s, KeepsInv e := by
  unfold autoCandidates
  simp only [List.forall_mem_append, List.forall_mem_map, List.forall_mem_flatMap, and_assoc, forall_mem_ite,
    List.forall_mem_cons, List.not_mem_nil, false_implies, implies_true, and_true, true_and]
  refine ⟨fun _ _ => keepsInv_arrivalOf _ _, fun _ _ _ _ => keepsInv_of_mem_entrySteps _ _ _, ?reads,
    fun _ _ => keepsInv_of_mem_stepOf _ _, ?walks, ?refusals, ?notices, fun _ _ => keepsInv_of_mem_cmdSteps _ _, ?published,
    ?acked, ?applied, ?rollups, ?rings, ?fused, ?places, ?sweeps, ?frames, ?ifaces, ?points, ?energy, ?noticeSend, ?holds⟩
  case reads => exact fun _ _ => ⟨.of_commit fun _ => rfl, .of_commit fun _ => rfl⟩
  case walks | refusals | notices | published | acked | applied => exact fun _ _ => .of_commit fun _ => rfl
  case rollups =>
    intro b _
    split
    · exact KeepsInv.single fun _ => rfl
    · simp
  case rings =>
    exact fun _ _ => ⟨fun _ _ => .of_commit fun _ => rfl, fun _ => .of_commit fun _ => rfl, fun _ => .of_commit fun _ => rfl⟩
  case fused => exact fun _ _ _ _ => .of_commit fun _ => rfl
  case places | points => exact fun _ _ _ => .of_commit fun _ => rfl
  case sweeps => exact fun _ _ _ => ⟨fun _ _ _ _ => .of_commit fun _ => rfl, .of_commit fun _ => rfl⟩
  case frames =>
    refine fun c _ f _ => ⟨fun _ _ => .of_commit fun _ => rfl, ?_⟩
    split
    · exact KeepsInv.single fun _ => rfl
    · simp
  case ifaces =>
    refine fun i _ => ⟨fun r _ => ⟨?start, ?depart, ?quantum⟩, fun _ => ⟨?poll, ?timeout⟩⟩
    case start | depart | quantum => exact fun _ => .of_commit fun _ => rfl
    case poll | timeout => exact .of_commit fun _ => rfl
  case energy | noticeSend | holds => exact .of_commit fun _ => rfl

/-- With no event named the model takes a move of its list, or an issue draw. -/
theorem autoStep_keeps {s : State} (h : Inv s) : Keeps (autoStep s) := by
  unfold autoStep
  cases hm : (autoCandidates s).find? (doesSomething s) with
  | none => exact keeps_commit h _
  | some e => exact keepsInv_of_mem_autoCandidates s e (List.mem_of_find?_eq_some hm) s h

/-! ### A step -/

theorem stepTaken_keeps {s : State} (h : Inv s) : Keeps (stepTaken s) := by
  have hu : Inv { s with issuing := false } := h.of_eq rfl rfl
  simp only [stepTaken]
  split
  · split
    · exact keeps_commit hu _
    · next hf => exact exec_keeps (fetchCheck_go hf hu) _
  · split
    · next x r _ =>
      have hr : Inv { s with agenda := r } := h.of_eq rfl rfl
      have hp : Inv (passed { s with agenda := r } x.advance) := hr.passed _
      refine keeps_ite (fun _ e => by cases e) ?_
      split
      · refine keeps_commit ?_ _
        exact hp.of_eq rfl rfl
      · exact exec_keeps hp _
    · exact autoStep_keeps h

/-- Settles O55: what a step takes keeps the invariant, by the arms of the dispatch; so does what every step brings at its end. -/
theorem stepKeepsInvariant : Obligations.StepKeepsInvariant := fun s t h e =>
  keeps_ended s (stepTaken_keeps h) t e

end Sys2Proof.Machine
end

section
/-! SUPPORT. The module right after bring-up: what each component of `State.reset` reads as. -/

namespace Sys2Proof.Machine

open Sys2Proof

@[simp] theorem coreOf_reset (c : Nat) : coreOf State.reset c = {} := rfl

@[simp] theorem frameOf_reset (c f : Nat) : frameOf State.reset c f = {} := rfl

@[simp] theorem ctxOf_reset (k : Nat) : ctxOf State.reset k = {} := rfl

@[simp] theorem ifaceOf_reset (i : Nat) : ifaceOf State.reset i = {} := rfl

/-- Owner 0 alone lives, and differs from the others in nothing else (R383). -/
@[simp] theorem ownerOf_reset (o : Nat) : ownerOf State.reset o = { live := decide (o = 0) } := by
  by_cases h : o = 0
  · subst h; rfl
  · simp [ownerOf, State.reset, NMap.get, NMap.find, h, Ne.symm h]

theorem inv_reset : Inv State.reset := ⟨reset_mem_wf, rfl⟩

/-- No bank is live: every frame is free, no window is orphaned, and no bank is assigned (R367). -/
theorem bankLive_reset (c b : Nat) : bankLive State.reset c b = false := by
  have frames : ((upto 4).any fun i => (frameOf State.reset c (4 * b + i)).st != .free) = false := by simp
  simp only [bankLive, frames]
  rfl

/-- Settles O57: each value is read off the component it stands in. -/
theorem resetState : Obligations.ResetState := by
  unfold Obligations.ResetState
  refine ⟨inv_reset, rfl, rfl, fun _ => rfl, fun o => ?live, fun o => ?iface, fun o c => ?weights,
    fun c b => ⟨rfl, bankLive_reset c b⟩, fun c => ?special, rfl, fun _ _ => rfl, fun _ => ⟨rfl, rfl, rfl⟩⟩
  case live | iface => simp
  case weights => simp [weightOf, NMap.get, NMap.find]
  case special => simp

end Sys2Proof.Machine
end

section
/-! SUPPORT. What the settling of writes, and with it the eviction of a line, leaves alone: one rule per operation, in the order
of the model, up to `evictOwner`. -/

namespace Sys2Proof.Machine

open Sys2Proof

/-- `s` with the parts that settling and eviction write taken from `t`: memory's bookkeeping, store queues, L1s, home slices,
arbitration points, energy, bumps and refusals. -/
def settling (s t : State) : State :=
  { s with nextId := t.nextId, wbuf := t.wbuf, initMem := t.initMem, poison := t.poison, poolMem := t.poolMem, hist := t.hist,
           log := t.log, ctxs := t.ctxs, refusals := t.refusals, orphans := t.orphans, cores := t.cores, rings := t.rings,
           owners := t.owners, points := t.points, unacked := t.unacked, unpub := t.unpub, exclusive := t.exclusive,
           hostLines := t.hostLines, bisnp := t.bisnp, bumps := t.bumps }

/-- Every other field of `t` is as in `s`: settled memory, the clk, nodes, interfaces, regions, launch records and the rest. -/
def OnlySettles (s t : State) : Prop := t = settling s t

section
variable {s t : State}

theorem OnlySettles.refl (s : State) : OnlySettles s s := rfl

/-- One more change, of those parts alone. -/
theorem OnlySettles.step {u : State} (h : OnlySettles s t) (e : u = settling t u := by rfl) : OnlySettles s u :=
  e.trans (by rw [h]; rfl)

theorem OnlySettles.nodes (h : OnlySettles s t) : t.nodes = s.nodes := by rw [h]; rfl

theorem OnlySettles.ite {c : Prop} [Decidable c] {u : State} (ht : OnlySettles s t) (hu : OnlySettles s u) :
    OnlySettles s (if c then t else u) := by split <;> assumption

theorem OnlySettles.nextId (h : OnlySettles s t) (n : Nat) : OnlySettles s { t with nextId := n } := h.step

theorem OnlySettles.foldl {α : Type} {f : State → α → State} (h : OnlySettles s t)
    (hf : ∀ u a, OnlySettles s u → OnlySettles s (f u a)) (l : List α) : OnlySettles s (l.foldl f t) :=
  List.foldlRecOn l f h fun u hu a _ => hf u a hu

/-! ### Requests at arbitration points -/

theorem OnlySettles.charge (h : OnlySettles s t) (o units : Nat) : OnlySettles s (charge t o units) :=
  h.ite (.ite h.step h.step)

theorem OnlySettles.requestAt (h : OnlySettles s t) (owner id : Nat) (at_ : Option Place) (l : List (Nat × Nat)) :
    OnlySettles s (requestAt t owner id at_ l) := by
  cases l with
  | nil => exact h
  | cons => exact h.step

theorem OnlySettles.requestHome (h : OnlySettles s t) (owner id : Nat) (write : Bool) (ps : List Place) :
    OnlySettles s (requestHome t owner id write ps) := h.foldl (fun _ _ h => h.requestAt ..) _

theorem OnlySettles.requestSectors (h : OnlySettles s t) (ring owner id : Nat) (write : Bool) (ls : List Place) :
    OnlySettles s (requestSectors t ring owner id write ls) := h.foldl (fun _ _ h => h.requestAt ..) _

theorem OnlySettles.portTransfer (h : OnlySettles s t) (owner id pa : Nat) : OnlySettles s (portTransfer t owner id pa) := by
  unfold Machine.portTransfer; split
  · exact h.requestAt ..
  · exact h

/-! ### Writes that settle (R75, R81) -/

theorem OnlySettles.putByte (h : OnlySettles s t) (a : Nat) (b : Byte) : OnlySettles s (putByte t a b) := h.step

theorem OnlySettles.discardFetch (h : OnlySettles s t) (locs : List Nat) : OnlySettles s (discardFetch t locs) :=
  h.foldl (fun _ _ h => h.step) _

theorem OnlySettles.takeBump (h : OnlySettles s t) (chain cause : List Nat) : OnlySettles s (takeBump t chain cause) :=
  h.ite h.step

theorem OnlySettles.bumpTile (h : OnlySettles s t) (n : Nat) (cause : List Nat) : OnlySettles s (bumpTile t n cause) := by
  unfold Machine.bumpTile; split
  · exact OnlySettles.takeBump h.step ..
  · exact h

theorem OnlySettles.recallHost (h : OnlySettles s t) (w : Nat) (locs : List Nat) : OnlySettles s (recallHost t w locs) :=
  h.ite h.step

theorem OnlySettles.logged (h : OnlySettles s t) (poison log unpub : List Nat) (pool : List Host.Cell) :
    OnlySettles s { t with poison := poison, log := log, unpub := unpub, poolMem := pool } := h.step

theorem OnlySettles.settleBytes (h : OnlySettles s t) (w : Nat) : OnlySettles s (settleBytes t w) := by
  refine .recallHost (.discardFetch (.logged (.foldl h (fun _ _ h => .putByte ?_ ..) _) ..) _) ..
  exact .ite h h.step

theorem OnlySettles.markDirty (h : OnlySettles s t) (sectors : List Nat) : OnlySettles s (markDirty t sectors) :=
  h.foldl (fun _ _ h => by dsimp only; split; exacts [h, h.step]) _

theorem OnlySettles.settleWrite (h : OnlySettles s t) (w : Nat) : OnlySettles s (settleWrite t w) :=
  ((h.settleBytes w).markDirty _).foldl (fun _ _ h => h.bumpTile ..) _

theorem OnlySettles.hwWrite (h : OnlySettles s t) (owner a : Nat) (bs : List Byte) (tag : Option Tag) :
    OnlySettles s (hwWrite t owner a bs tag) :=
  OnlySettles.settleWrite ((OnlySettles.ite (h.requestHome ..) h).step) _

theorem OnlySettles.nodeWrite (h : OnlySettles s t) (ws : List (Nat × Nat)) : OnlySettles s (nodeWrite t ws) :=
  OnlySettles.settleBytes ((h.requestHome ..).step) _

/-! ### Entries of the store queues that settle (R76, R82) -/

theorem OnlySettles.dropEntry (h : OnlySettles s t) (k id : Nat) : OnlySettles s (dropEntry t k id) :=
  OnlySettles.foldl h.step (fun _ _ h => .ite h.step h) _

theorem OnlySettles.discardEntry (h : OnlySettles s t) (k : Nat) (e : QEntry) (w : Nat) : OnlySettles s (discardEntry t k e w) :=
  (h.dropEntry k e.id).step

theorem OnlySettles.countDrop (h : OnlySettles s t) (owner : Nat) : OnlySettles s (countDrop t owner) :=
  h.ite (.ite (h.hwWrite ..) h)

theorem OnlySettles.putL1 (h : OnlySettles s t) (core : Nat) (x : L1Line) : OnlySettles s (putL1 t core x) := h.step

theorem OnlySettles.setMesi (h : OnlySettles s t) (core : Nat) (l : L1Line) (v : Nat) : OnlySettles s (setMesi t core l v) := by
  simp only [Machine.setMesi]; split <;> exact h.step

theorem OnlySettles.cleanL1 (h : OnlySettles s t) (k pa w : Nat) : OnlySettles s (cleanL1 t k pa w) := by
  simp only [Machine.cleanL1]; split
  · exact h
  · exact .ite (OnlySettles.setMesi (.ite h.step h) ..) (.putL1 (.ite h.step h) ..)

theorem OnlySettles.settleEntry (h : OnlySettles s t) (k : Nat) (e : QEntry) (w : Nat) (g : Tgt) (treat : Nat) :
    OnlySettles s (settleEntry t k e w g treat) := by
  cases g with
  | loc c o =>
    simp only [Machine.settleEntry]; split
    · exact (h.discardEntry ..).countDrop _
    · exact (OnlySettles.settleWrite (.ite h.step h.step) w).dropEntry ..
  | pa a =>
    have refused : OnlySettles s (bounce (countCapDrop (Machine.discardEntry t k e w) a) k e.frame e.act 0x07 (wrec t w).va
      (wrec t w).pc e.lin e.id) := (h.discardEntry k e w).step
    have settled := (h.settleWrite w).cleanL1 k a w
    refine .ite refused (.ite (.ite ((h.discardEntry ..).countDrop _) ?window) ?memory)
    case window => exact (OnlySettles.charge h.step ..).dropEntry ..
    case memory => exact (OnlySettles.dropEntry (.ite settled.step settled) ..).charge ..

theorem OnlySettles.askRecall (h : OnlySettles s t) (k : Nat) (e : QEntry) (w : Nat) (g : Tgt) (treat : Nat) :
    OnlySettles s (askRecall t k e w g treat) := .ite (h.requestSectors ..) h

theorem OnlySettles.recallWrite (h : OnlySettles s t) (w : Nat) : OnlySettles s (recallWrite t w) := by
  unfold Machine.recallWrite; split
  · split
    · exact .ite ((h.askRecall ..).settleEntry ..) h
    · exact h
  · exact h

/-! ### Copies and ways that leave (R251, R255) -/

theorem OnlySettles.writeBack (h : OnlySettles s t) (ls : List L1Line) : OnlySettles s (writeBack t ls) :=
  h.foldl (fun _ _ h => h.foldl (fun _ _ h => h.recallWrite _) _) _

theorem OnlySettles.mapEntry (h : OnlySettles s t) (w : Nat) (f : QEntry → QEntry) : OnlySettles s (mapEntry t w f) := by
  unfold Machine.mapEntry; split
  · exact h.step
  · exact h

theorem OnlySettles.keepPoison (h : OnlySettles s t) (l : L1Line) : OnlySettles s (keepPoison t l) :=
  .ite (h.foldl (fun _ _ h => h.mapEntry ..) _) h

theorem OnlySettles.unrecord (h : OnlySettles s t) (core : Nat) (l : L1Line) : OnlySettles s (unrecord t core l) := by
  unfold Machine.unrecord; split
  · exact h.step
  · exact h

theorem OnlySettles.dropL1 (h : OnlySettles s t) (core : Nat) (p : L1Line → Bool) : OnlySettles s (dropL1 t core p) :=
  OnlySettles.foldl h.step (fun _ _ h => (h.keepPoison _).unrecord ..) _

theorem OnlySettles.sendProbes (h : OnlySettles s t) (line : Nat) (ts : List (Nat × Nat × Option Nat)) :
    OnlySettles s (sendProbes t line ts) :=
  (h.foldl (fun _ _ h => (h.writeBack _).dropL1 ..) _).foldl (fun _ _ h => h.step) _

theorem OnlySettles.probeWay (h : OnlySettles s t) (ring i : Nat) (w : Way) : OnlySettles s (probeWay t ring i w) := by
  simp only [Machine.probeWay]; split
  · exact h.sendProbes ..
  · exact (h.sendProbes ..).step

theorem OnlySettles.evictWay (h : OnlySettles s t) (ring i : Nat) : OnlySettles s (evictWay t ring i) := by
  simp only [Machine.evictWay]; split
  · exact h
  · next w _ =>
    have published := (h.probeWay ring i w).foldl (f := publishWrite) (fun _ _ h => h.step)
      (lineUnpub (Machine.probeWay t ring i w) w.line)
    exact ((published.charge ..).foldl (fun _ _ h => OnlySettles.portTransfer (.nextId h _) ..) _).step

theorem OnlySettles.evictOwner (h : OnlySettles s t) (o : Nat) : OnlySettles s (evictOwner t o) :=
  h.foldl (fun _ _ h => h.foldl (fun _ _ h => h.evictWay ..) _) _

end

end Sys2Proof.Machine
end

section
/-! SUPPORT. The supervisor's tables behind WTSEL and WTDAT (R382-R386): which entries and values a row names, what `tableWrite`
does with a value of each row, and from that what each event of a table does. -/

namespace Sys2Proof.Machine

open Sys2Proof

/-! ### Values within a row (R383) -/

/-- A value sets no bit but the `k` from bit `l` up exactly where it is a multiple of 2 ^ l below 2 ^ (l + k). -/
theorem land_field_eq_self (v l k : Nat) : Nat.land v (2 ^ (l + k) - 2 ^ l) = v ↔ v % 2 ^ l = 0 ∧ v < 2 ^ (l + k) := by
  have mask : 2 ^ (l + k) - 2 ^ l = (2 ^ k - 1) * 2 ^ l := by rw [Nat.sub_mul, one_mul, pow_add, mul_comm]
  have kept : Nat.land v (2 ^ (l + k) - 2 ^ l) = v / 2 ^ l % 2 ^ k * 2 ^ l := by
    change v &&& _ = _
    rw [mask, ← Nat.shiftLeft_eq, ← Nat.shiftLeft_eq, ← Nat.shiftRight_eq_div_pow, ← Nat.and_two_pow_sub_one_eq_mod]
    refine Nat.eq_of_testBit_eq fun i => ?_
    simp only [Nat.testBit_and, Nat.testBit_shiftLeft, Nat.testBit_shiftRight]
    by_cases h : l ≤ i <;> simp [h]
  have split : v % 2 ^ l + 2 ^ l * (v / 2 ^ l) = v := Nat.mod_add_div v _
  have below : v < 2 ^ (l + k) ↔ v / 2 ^ l < 2 ^ k := by rw [Nat.div_lt_iff_lt_mul (by positivity), pow_add, mul_comm]
  rw [kept, below]
  constructor
  · intro h
    have aligned : v % 2 ^ l = 0 := by rw [← h, Nat.mul_mod_left]
    refine ⟨aligned, ?_⟩
    rw [← h, Nat.mul_div_cancel _ (by positivity)]
    exact Nat.mod_lt _ (by positivity)
  · rintro ⟨aligned, small⟩
    rw [Nat.mod_eq_of_lt small, mul_comm]
    omega

/-- A row whose one line names the bits from `l` up, `k` of them. -/
theorem valueOk_field {cls kind insts : Nat} (l k : Nat) (row : tableRow cls = [(kind, insts, 2 ^ (l + k) - 2 ^ l)]) (n : Nat) :
    valueOk cls n = true ↔ n % 2 ^ l = 0 ∧ n < 2 ^ (l + k) := by
  simp only [valueOk, row, List.any_cons, List.any_nil, Bool.or_false, beq_iff_eq, land_field_eq_self]

theorem valueOk_below {cls kind insts : Nat} (k : Nat) (row : tableRow cls = [(kind, insts, 2 ^ k - 1)]) (n : Nat) :
    valueOk cls n = true ↔ n < 2 ^ k := by
  simpa [Nat.mod_one] using valueOk_field (l := 0) (k := k) (by rw [row, zero_add, pow_zero]) n

/-- Classes 3 to 9 and 0x0D have a weight for each interface and each owner (R22). -/
theorem slotClass_cases {c : Nat} (h : slotClass c = true) :
    c = 3 ∨ c = 4 ∨ c = 5 ∨ c = 6 ∨ c = 7 ∨ c = 8 ∨ c = 9 ∨ c = 13 := by
  simp only [slotClass, Bool.or_eq_true, Bool.and_eq_true, decide_eq_true_eq, beq_iff_eq] at h
  omega

theorem tableRow_weight {c : Nat} (h : slotClass c = true) : tableRow c = [(0, 1, 255), (1, 1, 255)] := by
  rcases slotClass_cases h with rfl | rfl | rfl | rfl | rfl | rfl | rfl | rfl <;> rfl

theorem valueOk_weight {c : Nat} (h : slotClass c = true) (n : Nat) : valueOk c n = true ↔ n < 256 := by
  have byte : Nat.land n 255 = n ↔ n < 256 := by simpa [Nat.mod_one] using land_field_eq_self n 0 8
  simp only [valueOk, tableRow_weight h, List.any_cons, List.any_nil, Bool.or_false, Bool.or_self, beq_iff_eq, byte]

/-- A creation's value: CREATE with the interface in bits 15 to 8 (R383). -/
theorem valueOk_create : ∀ i < 256, valueOk 0x0E (1 + i * 2 ^ 8) = true := by decide +kernel

/-! ### Entries of a row (R382) -/

theorem entryOk_iface {cls insts mask i inst : Nat} (row : tableRow cls = [(0, insts, mask)]) (hi : i < 256) (hn : inst < insts) :
    entryOk cls 0 i inst = true := by simp [entryOk, row, hi, hn]

theorem entryOk_owner {cls insts mask o inst : Nat} (row : tableRow cls = [(1, insts, mask)]) (ho : o < 4096) (hn : inst < insts) :
    entryOk cls 1 o inst = true := by simp [entryOk, row, ho, hn]

theorem entryOk_module {cls insts mask inst : Nat} (row : tableRow cls = [(2, insts, mask)]) (hn : inst < insts) :
    entryOk cls 2 0 inst = true := by simp [entryOk, row, hn]

/-! ### What a row does with a value, one equation per class -/

/-- A write to an entry that exists is its row's where the value is within the row, and refused otherwise. -/
theorem guarded_row {entry value : Bool} {P : Prop} [Decidable P] {x : Option State} (he : entry = true) (hv : value = true ↔ P) :
    (if (!entry || !value) = true then none else x) = if P then x else none := by
  by_cases h : P <;> simp [he, h, hv, Bool.eq_false_iff]

theorem tableWrite_wayQuota (s : State) {o r : Nat} (ho : o < 4096) (hr : r < 384) (v : Word) :
    tableWrite s 0x02 1 o r v =
      if 32 ≤ v.toNat ∨ (ownerOf s o).live = false
          ∨ 16 < sumNat (s.owners.map fun p => if p.1 = o then 0 else NMap.get p.2.quotas r 0) + v.toNat then none
      else some (setOwner s o { ownerOf s o with quotas := NMap.put (ownerOf s o).quotas r v.toNat }) :=
  calc
    _ = if v.toNat < 2 ^ 5 then writeQuota s o r v.toNat else none :=
      guarded_row (entryOk_owner rfl ho hr) (valueOk_below 5 rfl _)
    _ = _ := by simp only [writeQuota]; grind

/-- The classes with weights share one row (R22). -/
theorem tableWrite_weight (s : State) {c kind id : Nat} (hc : slotClass c = true) (entry : entryOk c kind id 0 = true) (v : Word) :
    tableWrite s c kind id 0 v = if v.toNat < 256 then writeWeight s c kind id v.toNat else none := by
  rw [← guarded_row entry (valueOk_weight hc _)]
  rcases slotClass_cases hc with rfl | rfl | rfl | rfl | rfl | rfl | rfl | rfl <;> rfl

theorem tableWrite_ifaceWeight (s : State) {c i : Nat} (hc : slotClass c = true) (hi : i < 256) (v : Word) :
    tableWrite s c 0 i 0 v =
      if 256 ≤ v.toNat ∨ v.toNat < weightSum s c (some i) none then none
      else some (setIface s i { ifaceOf s i with weights := NMap.put (ifaceOf s i).weights c v.toNat }) := by
  rw [tableWrite_weight s hc (by simp [entryOk, tableRow_weight hc, hi])]
  simp only [writeWeight]; grind

theorem tableWrite_ownerWeight (s : State) {c o : Nat} (hc : slotClass c = true) (ho : o < 4096) (v : Word) :
    tableWrite s c 1 o 0 v =
      if 256 ≤ v.toNat ∨ (ownerOf s o).live = false
          ∨ NMap.get (ifaceOf s (ownerOf s o).iface).weights c 0 < weightSum s c (some (ownerOf s o).iface) (some o) + v.toNat
          ∨ 256 < weightSum s c none (some o) + v.toNat then none
      else some (setOwner s o { ownerOf s o with weights := NMap.put (ownerOf s o).weights c v.toNat }) := by
  rw [tableWrite_weight s hc (by simp [entryOk, tableRow_weight hc, ho])]
  simp only [writeWeight]; grind

theorem tableWrite_peerBase (s : State) {k : Nat} (hk : k < 16) (v : Word) :
    tableWrite s 0x0A 2 0 k v =
      if v.toNat % 2 ^ 34 ≠ 0 ∨ 2 ^ 56 ≤ v.toNat then none else some { s with peerBase := NMap.put s.peerBase k v.toNat } :=
  calc
    _ = if v.toNat % 2 ^ 34 = 0 ∧ v.toNat < 2 ^ 56 then some { s with peerBase := NMap.put s.peerBase k v.toNat } else none :=
      guarded_row (entryOk_module rfl hk) (valueOk_field 34 22 rfl _)
    _ = _ := by grind

theorem tableWrite_create (s : State) {o i : Nat} (ho : o < 4096) (hi : i < 256) :
    tableWrite s 0x0E 1 o 0 (word (1 + i * 2 ^ 8)) = createOwner s o i := by
  have value : (word (1 + i * 2 ^ 8)).toNat = 1 + i * 2 ^ 8 := by simp [word]; omega
  have create : bit (word (1 + i * 2 ^ 8)) 0 = true := by
    rw [bit, BitVec.getLsbD, value, Nat.testBit_zero, decide_eq_true_eq]; omega
  have iface : bits (word (1 + i * 2 ^ 8)) 15 8 = i := by simp only [bits, value]; omega
  calc
    _ = if True then
          if bit (word (1 + i * 2 ^ 8)) 0 then createOwner s o (bits (word (1 + i * 2 ^ 8)) 15 8) else destroyOwner s o
        else none := guarded_row (entryOk_owner rfl ho (by decide)) (by rw [value]; simp only [valueOk_create i hi])
    _ = _ := by rw [if_pos trivial, if_pos create, iface]

theorem tableWrite_destroy (s : State) {o : Nat} (ho : o < 4096) : tableWrite s 0x0E 1 o 0 0 = destroyOwner s o :=
  calc
    _ = if True then destroyOwner s o else none := guarded_row (entryOk_owner rfl ho (by decide)) (by decide)
    _ = _ := if_pos trivial

theorem tableWrite_key (s : State) {o : Nat} (ho : o < 4096) (v : Word) : tableWrite s 0x0F 1 o 0 v = writeKey s o v :=
  calc
    _ = if v.toNat < 2 ^ 64 then writeKey s o v else none := guarded_row (entryOk_owner rfl ho (by decide)) (valueOk_below 64 rfl _)
    _ = _ := if_pos v.isLt

theorem tableWrite_bucket (s : State) {o : Nat} (ho : o < 4096) (v : Word) :
    tableWrite s 0x10 1 o 0 v =
      if 256 < bits v 8 0 ∨ bits v 16 9 = 0 ∨ 2 ^ 17 ≤ v.toNat then none
      else some (setOwner (settlePorts s) o { ownerOf s o with rate := bits v 8 0, depth := bits v 16 9 }) :=
  calc
    _ = if v.toNat < 2 ^ 17 then
          if 256 < bits v 8 0 ∨ bits v 16 9 = 0 then none
          else some (setOwner (settlePorts s) o { ownerOf s o with rate := bits v 8 0, depth := bits v 16 9 })
        else none := guarded_row (entryOk_owner rfl ho (by decide)) (valueOk_below 17 rfl _)
    _ = _ := by grind

theorem tableWrite_nodeQuota (s : State) {o : Nat} (ho : o < 4096) (v : Word) :
    tableWrite s 0x11 1 o 0 v =
      if 2 ^ 16 ≤ v.toNat then none else some (setOwner s o { ownerOf s o with nodeQuota := v.toNat }) :=
  calc
    _ = if v.toNat < 2 ^ 16 then some (setOwner s o { ownerOf s o with nodeQuota := v.toNat }) else none :=
      guarded_row (entryOk_owner rfl ho (by decide)) (valueOk_below 16 rfl _)
    _ = _ := by grind

theorem tableWrite_root (s : State) {o : Nat} (ho : o < 4096) (v : Word) :
    tableWrite s 0x12 1 o 0 v =
      if v.toNat % 4096 ≠ 0 ∨ Config.dramEnd ≤ v.toNat then none else some (setOwner s o { ownerOf s o with root := v.toNat }) :=
  calc
    _ = if v.toNat % 2 ^ 12 = 0 ∧ v.toNat < 2 ^ 56 then
          if Config.dramEnd ≤ v.toNat then none else some (setOwner s o { ownerOf s o with root := v.toNat })
        else none := guarded_row (entryOk_owner rfl ho (by decide)) (valueOk_field 12 44 rfl _)
    _ = _ := by grind

/-- The state after the write of a fault descriptor (R368, R370). -/
def descriptorWritten (s : State) (o n : Nat) : State :=
  setOwner (placeDescriptor s (n / 64 * 64)) o { ownerOf s o with
    desc := n / 64 * 64, vector := n % 64,
    lostSeen := if n / 64 * 64 = (ownerOf s o).desc then (ownerOf s o).lostSeen
      else rdNat (placeDescriptor s (n / 64 * 64)) (n / 64 * 64 + 40) 4 }

theorem tableWrite_descriptor (s : State) {o : Nat} (ho : o < 4096) (v : Word) :
    tableWrite s 0x13 1 o 0 v = if Config.dramEnd ≤ v.toNat / 64 * 64 then none else some (descriptorWritten s o v.toNat) :=
  calc
    _ = if v.toNat < 2 ^ 56 then
          if Config.dramEnd ≤ v.toNat / 64 * 64 then none else some (descriptorWritten s o v.toNat)
        else none := guarded_row (entryOk_owner rfl ho (by decide)) (valueOk_below 56 rfl _)
    _ = _ := by grind

/-- The values that an interface's QUANTUM entry takes (R385). -/
abbrev quantumOk (s : State) (i : Nat) (v : Word) : Prop :=
  bits v 63 49 = 0 ∧ bits v 31 0 ≠ 0 ∧ 1 ≤ bits v 35 32 ∧ bits v 35 32 ≤ 8
    ∧ (bits v 47 36 ≠ 0 → (ownerOf s (bits v 47 36)).live = true ∧ (ownerOf s (bits v 47 36)).iface = i)

/-- The state after the write of QUANTUM, BANKLIM and NOWN (R385). -/
def quantumWritten (s : State) (i : Nat) (v : Word) : State :=
  setIface s i { ifaceOf s i with
    quantum := max (bits v 31 0) (8192 * bits v 35 32), banklim := bits v 35 32, nown := bits v 47 36,
    qraised := decide (bits v 31 0 < 8192 * bits v 35 32) }

theorem tableWrite_quantum (s : State) {i : Nat} (hi : i < 256) (v : Word) :
    tableWrite s 0x14 0 i 0 v = if ¬quantumOk s i v then none else some (quantumWritten s i v) := by
  have high : v.toNat < 2 ^ 49 ↔ bits v 63 49 = 0 := by simp only [bits]; have := v.isLt; omega
  calc
    _ = if v.toNat < 2 ^ 49 then
          if bits v 31 0 = 0 ∨ bits v 35 32 = 0 ∨ 8 < bits v 35 32
              ∨ (bits v 47 36 ≠ 0 ∧ ((ownerOf s (bits v 47 36)).live = false ∨ (ownerOf s (bits v 47 36)).iface ≠ i)) then none
          else some (quantumWritten s i v)
        else none := guarded_row (entryOk_iface rfl hi (by decide)) (valueOk_below 49 rfl _)
    _ = _ := by simp only [high, quantumOk]; grind

theorem tableWrite_partition (s : State) {i r : Nat} (hi : i < 256) (hr : r < 384) (v : Word) :
    tableWrite s 0x15 0 i r v = if v.toNat < 2 ^ 1 then writePart s i r v.toNat else none :=
  guarded_row (entryOk_iface rfl hi hr) (valueOk_below 1 rfl _)

theorem writePart_given {s : State} {r : Nat} (i : Nat) (free : (ringOf s r).part = none) :
    writePart s i r 1 = some (setRing s r { ringOf s r with part := some i }) := by
  simp only [writePart, free, if_true]

theorem writePart_returned {s : State} {i r : Nat} (held : (ringOf s r).part = some i) :
    writePart s i r 0 = some (setRing s r { ringOf s r with part := none }) := by
  simp only [writePart, held, ne_eq, not_true, if_false, Nat.zero_ne_one]

/-- A ring of another interface takes no value at all (R384). -/
theorem writePart_refused {s : State} {i r j : Nat} (n : Nat) (held : (ringOf s r).part = some j) (other : j ≠ i) :
    writePart s i r n = none := by
  simp only [writePart, held, ne_eq, other, not_false_eq_true, if_true]

theorem tableWrite_sharingKey (s : State) {k : Nat} (hk : k < 256) (v : Word) :
    tableWrite s 0x17 2 0 k v = some { s with sharingKeys := NMap.put s.sharingKeys k v } :=
  calc
    _ = if v.toNat < 2 ^ 64 then some { s with sharingKeys := NMap.put s.sharingKeys k v } else none :=
      guarded_row (entryOk_module rfl hk) (valueOk_below 64 rfl _)
    _ = _ := if_pos v.isLt

theorem tableWrite_nodeBase (s : State) (v : Word) :
    tableWrite s 0x19 2 0 0 v =
      if (∃ p ∈ s.nodes, p.2.live = true) ∨ v.toNat % 2 ^ 22 ≠ 0 ∨ Config.dramEnd ≤ v.toNat then none
      else some { s with nodeBase := v.toNat } :=
  calc
    _ = if v.toNat % 2 ^ 22 = 0 ∧ v.toNat < 2 ^ 56 then
          if ((s.nodes.any fun p => p.2.live) || decide (Config.dramEnd ≤ v.toNat)) = true then none
          else some { s with nodeBase := v.toNat }
        else none := guarded_row (entryOk_module rfl (by decide)) (valueOk_field 22 34 rfl _)
    _ = _ := by simp only [Bool.or_eq_true, List.any_eq_true, decide_eq_true_eq]; grind

theorem tableWrite_absent (s : State) {r : Nat} (hr : r < 384) (v : Word) :
    tableWrite s 0x1A 2 0 r v = if v ≠ 0 then none else some (setRing s r { ringOf s r with absent := 0 }) := by
  have zero : v = 0 ↔ v.toNat = 0 := by simp [← BitVec.toNat_inj]
  calc
    _ = if v.toNat < 2 ^ 32 then
          if v.toNat ≠ 0 then none else some (setRing s r { ringOf s r with absent := 0 })
        else none := guarded_row (entryOk_module rfl hr) (valueOk_below 32 rfl _)
    _ = _ := by simp only [ne_eq, zero]; grind

theorem tableWrite_linkMask (s : State) (v : Word) :
    tableWrite s 0x1B 2 0 0 v = if 2 ^ 16 ≤ v.toNat then none else some { s with linkMask := v.setWidth 16 } :=
  calc
    _ = if v.toNat < 2 ^ 16 then some { s with linkMask := v.setWidth 16 } else none :=
      guarded_row (entryOk_module rfl (by decide)) (valueOk_below 16 rfl _)
    _ = _ := by grind

theorem tableWrite_ectr (s : State) {o : Nat} (ho : o < 4096) (v : Word) :
    tableWrite s 0x1D 1 o 0 v = if v ≠ 0 then none else some (setOwner s o { ownerOf s o with ectr := 0, ectrSat := false }) := by
  have zero : v = 0 ↔ v.toNat = 0 := by simp [← BitVec.toNat_inj]
  calc
    _ = if v.toNat < 2 ^ 49 then
          if v.toNat ≠ 0 then none else some (setOwner s o { ownerOf s o with ectr := 0, ectrSat := false })
        else none := guarded_row (entryOk_owner rfl ho (by decide)) (valueOk_below 49 rfl _)
    _ = _ := by simp only [ne_eq, zero]; grind

end Sys2Proof.Machine
end

section
/-! SUPPORT. What an event of a table does, taken or refused; the creation and the destruction of an owner, and its key (R208,
R383). -/

namespace Sys2Proof.Machine

open Sys2Proof

/-! ### An event is its table's write (R382, R383) -/

/-- The state in which an event has selected its entry (R382). -/
def selecting (s : State) (w : Word) : State := { s with wtsel := w }

/-! Selecting touches WTSEL alone. Proofs rewrite with these lemmas, whose word is a variable: to see by unfolding that two such
states agree, the kernel compares the words, and is slow to evaluate `selectWord` of a variable INST. -/

section
variable (s : State) (w : Word)

theorem ownerOf_selecting (o : Nat) : ownerOf (selecting s w) o = ownerOf s o := by rw [ownerOf, ownerOf, selecting]
theorem ifaceOf_selecting (i : Nat) : ifaceOf (selecting s w) i = ifaceOf s i := by rw [ifaceOf, ifaceOf, selecting]
theorem ringOf_selecting (r : Nat) : ringOf (selecting s w) r = ringOf s r := by rw [ringOf, ringOf, selecting]
theorem weightSum_selecting (c : Nat) (iface but : Option Nat) :
    weightSum (selecting s w) c iface but = weightSum s c iface but := by
  rw [selecting]; rfl
theorem selecting_owners : (selecting s w).owners = s.owners := by rw [selecting]
theorem selecting_nodes : (selecting s w).nodes = s.nodes := by rw [selecting]

end

theorem tableStep_taken {s z : State} {cls kind id inst : Nat} {v : Word}
    (e : tableWrite (selecting s (selectWord cls kind id inst)) cls kind id inst v = some z) :
    tableStep s cls kind id inst v = commit s z :=
  congrArg (fun x => commit s (orWref (selecting s (selectWord cls kind id inst)) 0 x)) e

theorem tableStep_refused {s : State} {cls kind id inst : Nat} {v : Word}
    (e : tableWrite (selecting s (selectWord cls kind id inst)) cls kind id inst v = none) :
    tableStep s cls kind id inst v = commit s (setWref (selecting s (selectWord cls kind id inst)) 0) :=
  congrArg (fun x => commit s (orWref (selecting s (selectWord cls kind id inst)) 0 x)) e

/-- A row refused exactly where `B` holds: the event is taken where it does not. -/
theorem tableStep_unless {s z : State} {cls kind id inst : Nat} {v : Word} {B : Prop} [Decidable B]
    (e : tableWrite (selecting s (selectWord cls kind id inst)) cls kind id inst v = if B then none else some z) :
    (¬B → tableStep s cls kind id inst v = commit s z)
    ∧ (B → tableStep s cls kind id inst v = commit s (setWref (selecting s (selectWord cls kind id inst)) 0)) :=
  ⟨fun h => tableStep_taken (e.trans (if_neg h)), fun h => tableStep_refused (e.trans (if_pos h))⟩

/-- A step that writes no byte is quiet. -/
theorem quiet_committed {s z : State} (h : z.wbuf = s.wbuf) : Quiet s (committed s z) := fun hs a => by
  rw [hs] at h
  simp only [byteAt, committed, h, hs, applyWrites_nil]

/-! ### Creation (R383) -/

/-- A key that a filter drops is not found. -/
theorem find_filter_dropped {α : Type} (p : Nat → Bool) (m : NMap α) {k : Nat} (h : p k = false) :
    NMap.find (m.filter fun c => p c.1) k = none := by
  induction m with
  | nil => rfl
  | cons c r ih =>
    by_cases hc : p c.1 = true
    · have other : c.1 ≠ k := fun e => by simp [e, h] at hc
      simpa [List.filter_cons, hc, NMap.find, other] using ih
    · simpa [List.filter_cons, hc] using ih

/-- A new owner is bound to its interface, keeps its key, root and descriptor, and starts with nothing else (R383, log 79); its
contexts are empty, and no byte is written. -/
theorem createOwner_spec {s : State} {o i : Nat} (ho : o ≠ 0) (dead : (ownerOf s o).live = false) :
    ∃ z, createOwner s o i = some z ∧ z.wbuf = s.wbuf ∧ (∀ k, ctxOwner k = o → ctxOf z k = {})
      ∧ ownerOf z o = { live := true, iface := i, key := (ownerOf s o).key, root := (ownerOf s o).root, desc := (ownerOf s o).desc,
                        vector := (ownerOf s o).vector, lostSeen := (ownerOf s o).lostSeen } := by
  refine ⟨_, if_neg (by simp [ho, dead]), rfl, fun k hk => ?_, ownerOf_setOwner_same ..⟩
  have dropped := find_filter_dropped (fun c => ctxOwner c != o) s.ctxs (k := k) (by simp [hk])
  simp only [ctxOf, NMap.get, setOwner_ctxs]
  exact congrArg (Option.getD · {}) dropped

theorem createOwner_refused {s : State} {o i : Nat} (h : o = 0 ∨ (ownerOf s o).live = true) : createOwner s o i = none := if_pos h

/-! ### Destruction (R350, R383) -/

@[simp] theorem clearBuckets_nodes (s : State) (o : Nat) : (clearBuckets s o).nodes = s.nodes := rfl

@[simp] theorem settlePorts_nodes (s : State) : (settlePorts s).nodes = s.nodes := rfl

/-- A map of the values is looked up in the map before it. -/
theorem find_map_values {α : Type} (g : α → α) (m : NMap α) (k : Nat) :
    NMap.find (m.map fun p => (p.1, g p.2)) k = (NMap.find m k).map g := by
  induction m with
  | nil => rfl
  | cons p r ih =>
    simp only [List.map_cons, NMap.find]
    split
    · rfl
    · exact ih

/-- A node that lives no more where it is the owner's. -/
def disowned (o : Nat) (x : Node) : Node := if x.owner = o then { x with live := false } else x

theorem disowned_dead {o : Nat} {x : Node} (h : (disowned o x).owner = o) : (disowned o x).live = false := by
  unfold disowned at h ⊢
  split at h
  · simp only [if_true, *]
  · contradiction

theorem nodeOf_freeNodes (s : State) (o n : Nat) : nodeOf (freeNodes s o) n = disowned o (nodeOf s n) := by
  have nodes : (freeNodes s o).nodes = s.nodes.map fun p => (p.1, disowned o p.2) := by
    simp only [freeNodes]
    split
    · rfl
    · exact (OnlySettles.nodeWrite (.refl _) _).nodes
  simp only [nodeOf, NMap.get, nodes, find_map_values (disowned o)]
  cases NMap.find s.nodes n with
  | none => simp [disowned]
  | some x => rfl

/-- What refuses a destruction: owner 0, a bank, a queued start or a running launch (R383). -/
def destroyBlocked (s : State) (o : Nat) : Prop :=
  o = 0 ∨ ownerBanked s o = true ∨ (∃ c ∈ s.ctxs, ctxOwner c.1 = o ∧ c.2.runq ≠ [])
    ∨ ∃ p ∈ s.ifaces, ∃ q ∈ p.2.records, q.2.state = .running ∧ q.2.owner = o

/-- The part without a destroyed owner (R215, R242, R350, R383). -/
def destroyed (s : State) (o : Nat) : State :=
  let z := clearBuckets (settlePorts (evictOwner (freeNodes s o) o)) o
  setOwner z o { ownerOf z o with live := false, iface := 0, weights := [], quotas := [], nodeQuota := 0, key := 0, ebit := false,
                                  sweep := false, oldKey := 0, streams := [] }

theorem destroyOwner_eq (s : State) (o : Nat) :
    (destroyBlocked s o → destroyOwner s o = none) ∧ (¬destroyBlocked s o → destroyOwner s o = some (destroyed s o)) := by
  have blocked : destroyBlocked s o ↔ o = 0 ∨ ownerBanked s o = true
      ∨ (s.ctxs.any fun c => ctxOwner c.1 == o && !c.2.runq.isEmpty) = true
      ∨ (s.ifaces.any fun i => i.2.records.any fun r => r.2.state == .running && r.2.owner == o) = true := by
    simp only [destroyBlocked, List.any_eq_true, Bool.and_eq_true, beq_iff_eq, Bool.not_eq_true', List.isEmpty_eq_false_iff]
  rw [blocked]
  exact ⟨fun h => if_pos h, fun h => if_neg h⟩

/-- None of a destroyed owner's nodes lives. -/
theorem nodes_destroyed (s : State) {o n : Nat} (h : (nodeOf (destroyed s o) n).owner = o) :
    (nodeOf (destroyed s o) n).live = false := by
  have evicted := (OnlySettles.evictOwner (.refl (freeNodes s o)) o).nodes
  have freed : nodeOf (destroyed s o) n = disowned o (nodeOf s n) := by
    rw [← nodeOf_freeNodes, nodeOf, nodeOf, destroyed, setOwner_nodes, clearBuckets_nodes, settlePorts_nodes, evicted]
  rw [freed] at h ⊢
  exact disowned_dead h

/-- A destroyed owner is bound to nothing and has no weights, quotas, key or streams (R383). -/
theorem ownerOf_destroyed (s : State) (o : Nat) :
    let u := ownerOf (destroyed s o) o
    u.live = false ∧ u.iface = 0 ∧ u.key = 0 ∧ u.weights = [] ∧ u.quotas = [] ∧ u.nodeQuota = 0 ∧ u.streams = [] := by
  simp only [destroyed, ownerOf_setOwner_same, and_self]

/-! ### The key (R208) -/

theorem passTo_mem (last n : Nat) (s : State) : (passTo last n s).mem = s.mem := by
  induction n generalizing s with
  | zero => rfl
  | succ n ih =>
    simp only [passTo]; split
    · rfl
    · rw [ih, beginClk_mem]; exact takeSlots_mem s

/-- Streams start again; nothing else of the owner, no byte and no clk is touched. -/
theorem restartStreams_spec (s : State) (o : Nat) :
    let z := restartStreams s o
    ownerOf z o = { ownerOf s o with streams := [] } ∧ z.clk = s.clk ∧ z.wbuf = s.wbuf := by
  simp only [restartStreams]
  split <;> exact ⟨ownerOf_setOwner_same .., rfl, rfl⟩

theorem writeKey_refused {s : State} {o : Nat} {v : Word} (h : ownerBanked s o = true ∨ (ownerOf s o).sweep = true) :
    writeKey s o v = none := if_pos (by simpa using h)

theorem writeKey_dead {s : State} {o : Nat} {v : Word} (banked : ownerBanked s o = false) (sweep : (ownerOf s o).sweep = false)
    (dead : (ownerOf s o).live = false) : writeKey s o v = some (setOwner s o { ownerOf s o with key := v }) := by
  simp only [writeKey, banked, sweep, dead, Bool.or_self, Bool.false_eq_true, if_false]

/-- A live owner's streams restart from the next clk on (R208). -/
theorem writeKey_live {s : State} {o : Nat} {v : Word} (banked : ownerBanked s o = false) (sweep : (ownerOf s o).sweep = false)
    (live : (ownerOf s o).live = true) :
    writeKey s o v = some (restartStreams (setOwner (pass s 1) o { ownerOf (pass s 1) o with key := v }) o) := by
  simp only [writeKey, banked, sweep, live, Bool.or_self, Bool.false_eq_true, if_false, if_true]

/-! ### Events whose row has more than one way to be taken -/

/-- OWNER_CREATE (R383). -/
theorem ownerCreate_taken (s : State) {o i : Nat} (ho : o < 4096) (hi : i < 256) (h0 : o ≠ 0) (dead : (ownerOf s o).live = false) :
    ∃ t, exec (.ownerCreate o i) s = .next t ∧ Quiet s t ∧ (∀ k, ctxOwner k = o → ctxOf t k = {})
      ∧ (let u := ownerOf t o
         u.live = true ∧ u.iface = i ∧ u.key = (ownerOf s o).key ∧ u.root = (ownerOf s o).root ∧ u.desc = (ownerOf s o).desc
         ∧ u.weights = [] ∧ u.quotas = [] ∧ u.ectr = 0 ∧ u.rate = 256 ∧ u.depth = 32 ∧ u.nodeQuota = 256 ∧ u.streams = []
         ∧ u.counters = []) := by
  obtain ⟨z, made, bytes, ctxs, owner⟩ := createOwner_spec (s := selecting s (selectWord 0x0E 1 o 0)) (i := i) h0 dead
  have e : ownerOf (committed s z) o = ownerOf z o := rfl
  refine ⟨committed s z, tableStep_taken ((tableWrite_create _ ho hi).trans made), quiet_committed bytes, ctxs, ?_⟩
  simp only [e, owner, ownerOf_selecting, and_self]

theorem ownerCreate_refused (s : State) {o i : Nat} (ho : o < 4096) (hi : i < 256) (h : o = 0 ∨ (ownerOf s o).live = true) :
    exec (.ownerCreate o i) s = commit s (setWref (selecting s (selectWord 0x0E 1 o 0)) 0) :=
  tableStep_refused ((tableWrite_create _ ho hi).trans (createOwner_refused h))

/-- OWNER_DESTROY (R383). -/
theorem ownerDestroy_taken (s : State) {o : Nat} (ho : o < 4096) (free : ¬destroyBlocked s o) :
    ∃ t, exec (.ownerDestroy o) s = .next t
      ∧ (let u := ownerOf t o
         u.live = false ∧ u.iface = 0 ∧ u.key = 0 ∧ u.weights = [] ∧ u.quotas = [] ∧ u.nodeQuota = 0 ∧ u.streams = [])
      ∧ ∀ n, (nodeOf t n).owner = o → (nodeOf t n).live = false :=
  ⟨committed s (destroyed (selecting s (selectWord 0x0E 1 o 0)) o),
    tableStep_taken ((tableWrite_destroy _ ho).trans ((destroyOwner_eq (selecting s (selectWord 0x0E 1 o 0)) o).2 free)),
    ownerOf_destroyed (selecting s (selectWord 0x0E 1 o 0)) o, fun _ => nodes_destroyed (selecting s (selectWord 0x0E 1 o 0))⟩

theorem ownerDestroy_refused (s : State) {o : Nat} (ho : o < 4096) (h : destroyBlocked s o) :
    exec (.ownerDestroy o) s = commit s (setWref (selecting s (selectWord 0x0E 1 o 0)) 0) :=
  tableStep_refused ((tableWrite_destroy _ ho).trans ((destroyOwner_eq _ o).1 h))

/-- OWNER_KEY (R208). -/
theorem ownerKey_taken (s : State) {o : Nat} (v : Word) (ho : o < 4096) (banked : ownerBanked s o = false)
    (sweep : (ownerOf s o).sweep = false) :
    let z := flushed (pass (selecting s (selectWord 0x0F 1 o 0)) 1)
    ∃ t, exec (.ownerKey o v) s = .next t ∧ (ownerOf t o).key = v ∧ ((ownerOf s o).live = false → Quiet s t ∧ t.clk = s.clk)
      ∧ ((ownerOf s o).live = true → (ownerOf t o).streams = [] ∧ t.clk = z.clk ∧ t.mem = z.mem) := by
  intro z
  cases live : (ownerOf s o).live with
  | false =>
    refine ⟨committed s _, tableStep_taken ((tableWrite_key _ ho v).trans (writeKey_dead banked sweep live)), ?_,
      fun _ => ⟨quiet_committed rfl, rfl⟩, fun h => by cases h⟩
    exact congrArg Owner.key (ownerOf_setOwner_same ..)
  | true =>
    have settled : (pass (selecting s (selectWord 0x0F 1 o 0)) 1).mem = s.mem := passTo_mem ..
    have written := tableStep_taken ((tableWrite_key _ ho v).trans (writeKey_live banked sweep live))
    obtain ⟨owner, clk, bytes⟩ := restartStreams_spec (setOwner (pass (selecting s (selectWord 0x0F 1 o 0)) 1) o _) o
    refine ⟨committed s _, written, ?_, fun h => (by cases h), fun _ => ⟨congrArg Owner.streams owner, clk, ?_⟩⟩
    · exact (congrArg Owner.key owner).trans (congrArg Owner.key (ownerOf_setOwner_same ..))
    · simp only [committed, bytes, z, flushed, settled, setOwner_wbuf]

theorem ownerKey_refused (s : State) {o : Nat} (v : Word) (ho : o < 4096)
    (h : ownerBanked s o = true ∨ (ownerOf s o).sweep = true) :
    exec (.ownerKey o v) s = commit s (setWref (selecting s (selectWord 0x0F 1 o 0)) 0) :=
  tableStep_refused ((tableWrite_key _ ho v).trans (writeKey_refused h))

/-- PARTITION (R384): a ring without an interface takes one. -/
theorem partition_given (s : State) {i r : Nat} (hi : i < 256) (hr : r < 384) (free : (ringOf s r).part = none) :
    exec (.partition i r 1) s
      = commit s (setRing (selecting s (selectWord 0x15 0 i r)) r { ringOf s r with part := some i }) := by
  rw [← ringOf_selecting s (selectWord 0x15 0 i r)] at free ⊢
  exact tableStep_taken (((tableWrite_partition _ hi hr 1).trans (if_pos (by decide))).trans (writePart_given i free))

theorem partition_returned (s : State) {i r : Nat} (hi : i < 256) (hr : r < 384) (held : (ringOf s r).part = some i) :
    exec (.partition i r 0) s
      = commit s (setRing (selecting s (selectWord 0x15 0 i r)) r { ringOf s r with part := none }) := by
  rw [← ringOf_selecting s (selectWord 0x15 0 i r)] at held ⊢
  exact tableStep_taken (((tableWrite_partition _ hi hr 0).trans (if_pos (by decide))).trans (writePart_returned held))

/-- A ring of another interface takes no value at all. -/
theorem partition_refused (s : State) {i r j : Nat} (v : Word) (hi : i < 256) (hr : r < 384) (held : (ringOf s r).part = some j)
    (other : j ≠ i) : exec (.partition i r v) s = commit s (setWref (selecting s (selectWord 0x15 0 i r)) 0) := by
  rw [← ringOf_selecting s (selectWord 0x15 0 i r)] at held
  refine tableStep_refused ((tableWrite_partition _ hi hr v).trans ?_)
  rw [writePart_refused _ held other, ite_self]

/-! Two rows whose record is built from the state before, in its fields. -/

theorem tableWrite_peerBase_selecting (s : State) (w : Word) {k : Nat} (hk : k < 16) (v : Word) :
    tableWrite (selecting s w) 0x0A 2 0 k v =
      if v.toNat % 2 ^ 34 ≠ 0 ∨ 2 ^ 56 ≤ v.toNat then none
      else some { s with wtsel := w, peerBase := NMap.put s.peerBase k v.toNat } := tableWrite_peerBase (selecting s w) hk v

theorem tableWrite_sharingKey_selecting (s : State) (w : Word) {k : Nat} (hk : k < 256) (v : Word) :
    tableWrite (selecting s w) 0x17 2 0 k v = some { s with wtsel := w, sharingKeys := NMap.put s.sharingKeys k v } :=
  tableWrite_sharingKey (selecting s w) hk v

/-- A weight's event acts on the classes that have weights alone. -/
theorem exec_interfaceWeight (s : State) {i c : Nat} (hc : slotClass c = true) (v : Word) :
    exec (.interfaceWeight i c v) s = tableStep s c 0 i 0 v := if_pos hc

theorem exec_ownerWeight (s : State) {o c : Nat} (hc : slotClass c = true) (v : Word) :
    exec (.ownerWeight o c v) s = tableStep s c 1 o 0 v := if_pos hc

/-- Settles O49: each event is its table's write, each row's write is its equation, and the rows whose writes do more than set a
field have a theorem each. -/
theorem ownerTables : Obligations.OwnerTables := by
  intro s o i r v ho hi hr
  refine ⟨?wayQuota, ?weights, ?peer, ownerCreate_taken s ho hi, ownerCreate_refused s ho hi, ?destroy, ownerKey_refused s v ho,
    ownerKey_taken s v ho, ?bucket, ?bucketRefused, ?nodeQuota, ?nodeQuotaRefused, ?root, ?rootRefused, ?descriptor,
    ?descriptorRefused, ?quantum, ?partition, ?sharing, ?nodeBase, ?nodeBaseRefused, ?absent, ?absentRefused, ?links, ?linksRefused,
    ?ectr, ?ectrRefused⟩
  case wayQuota =>
    have row := tableStep_unless (tableWrite_wayQuota (selecting s _) ho hr v)
    simp only [ownerOf_selecting, selecting_owners] at row
    exact ⟨fun _ _ _ => row.1 (by grind), row.2⟩
  case weights =>
    intro c hc
    have iface := tableStep_unless (tableWrite_ifaceWeight (selecting s _) hc hi v)
    have owner := tableStep_unless (tableWrite_ownerWeight (selecting s _) hc ho v)
    simp only [ownerOf_selecting, ifaceOf_selecting, weightSum_selecting] at iface owner
    rw [← exec_interfaceWeight s hc] at iface
    rw [← exec_ownerWeight s hc] at owner
    exact ⟨fun _ _ => iface.1 (by omega), iface.2, fun _ _ _ _ => owner.1 (by grind), owner.2⟩
  case destroy =>
    refine ⟨ownerDestroy_refused s ho, fun h0 banked queued running => ownerDestroy_taken s ho ?_⟩
    rintro (h | h | h | h)
    exacts [h0 h, Bool.false_ne_true (banked.symm.trans h), queued h, running h]
  case peer =>
    intro k hk
    have row := tableStep_unless (tableWrite_peerBase_selecting s _ hk v)
    exact ⟨fun _ _ => row.1 (by omega), row.2⟩
  case bucket => exact fun _ _ _ => (tableStep_unless (tableWrite_bucket (selecting s _) ho v)).1 (by omega)
  case bucketRefused => exact fun _ => (tableStep_unless (tableWrite_bucket (selecting s _) ho v)).2 (by omega)
  case nodeQuota => exact fun _ => (tableStep_unless (tableWrite_nodeQuota (selecting s _) ho v)).1 (by omega)
  case nodeQuotaRefused => exact (tableStep_unless (tableWrite_nodeQuota (selecting s _) ho v)).2
  case root => exact fun _ _ => (tableStep_unless (tableWrite_root (selecting s _) ho v)).1 (by omega)
  case rootRefused => exact (tableStep_unless (tableWrite_root (selecting s _) ho v)).2
  case descriptor => exact fun _ => (tableStep_unless (tableWrite_descriptor (selecting s _) ho v)).1 (by omega)
  case descriptorRefused => exact (tableStep_unless (tableWrite_descriptor (selecting s _) ho v)).2
  case quantum =>
    have row := tableStep_unless (tableWrite_quantum (selecting s _) hi v)
    simp only [quantumOk, ownerOf_selecting, not_not] at row
    exact row
  case partition =>
    exact ⟨fun hv free => hv ▸ partition_given s hi hr free, fun hv held => hv ▸ partition_returned s hi hr held,
      fun _ held other => partition_refused s v hi hr held other⟩
  case sharing => exact fun k hk => tableStep_taken (tableWrite_sharingKey_selecting s _ hk v)
  case nodeBase =>
    exact fun dead _ _ => (tableStep_unless (tableWrite_nodeBase (selecting s _) v)).1 (by rw [selecting_nodes]; grind)
  case nodeBaseRefused =>
    have row := tableStep_unless (tableWrite_nodeBase (selecting s _) v)
    rw [selecting_nodes] at row
    exact row.2
  case absent => exact fun zero => (tableStep_unless (tableWrite_absent (selecting s _) hr v)).1 (not_not.2 zero)
  case absentRefused => exact (tableStep_unless (tableWrite_absent (selecting s _) hr v)).2
  case links => exact fun _ => (tableStep_unless (tableWrite_linkMask (selecting s _) v)).1 (by omega)
  case linksRefused => exact (tableStep_unless (tableWrite_linkMask (selecting s _) v)).2
  case ectr => exact fun zero => (tableStep_unless (tableWrite_ectr (selecting s _) ho v)).1 (not_not.2 zero)
  case ectrRefused => exact (tableStep_unless (tableWrite_ectr (selecting s _) ho v)).2

end Sys2Proof.Machine
end

section
/-! SUPPORT. A state in which one write stands in two entries of its queue, and what a poll for a notify's stamp does there (R251,
R389). -/

namespace Sys2Proof.Machine

open Sys2Proof

/-! ### One write in two entries of its queue (R76, R251) -/

/-- An entry of owner 0 on core 0 that brings write 10, of one byte, to a target, and that nothing holds back. -/
def stampEntry (id : Nat) (t : Tgt) : QEntry :=
  { id := id, frame := 0, act := 0, bank := 0, body := .write 10 t 1 0, share := none, weak := true, rel := false, held := false,
    lin := { early := false, launch := none }, after := [], reads := [], pub := [], acked := [], tag := [] }

/-- The copy of the stamp's sector in the L1 of core 0, in M; it names write 10 twice among its dirty data. -/
def stampLine : L1Line :=
  { owner := 0, pa := 0x10000, treat := 0, way := 0, mesi := 3, expiry := 0, filled := 0, used := 0, vals := [], dirty := [10, 10],
    poison := false }

/-- Interface 0 awaits the stamp of a notify of owner 0, whose shadow table maps its first GiB to itself (R372, R389). Write 10, a
byte of the stamp, stands in two entries of core 0's queue: one to the stamp itself, one to the first byte of bank 0. -/
def twiceQueued : State :=
  { State.reset with
    nextId := 20
    mem    := [(0x1000, 0x01), (0x1001, 0x20), (0x2000, 0x01), (0x2001, 0x30), (0x3000, 0x07)]
    owners := [(0, { live := true, root := 0x1000 })]
    ifaces := [(0, { fenced := true, await := some (0, 0, 0), records := [(0, { state := .idle, param := 0x10000 })] })]
    hist   := [(10, { writer := .ctx 0, frame := 0, act := 0, bytes := [(0x10000, 1)], known := [], tag := none, pc := 0, va := 0x10000,
                      pool := false, seq := 10 })]
    ctxs   := [(0, { queue := [stampEntry 11 (.pa 0x10000), stampEntry 12 (.loc 0 0)] })]
    cores  := [(0, { banks := [(0, { valid := true, clean := false })], l1 := [stampLine] })] }

/-- The leaf that maps the stamp. -/
def stampPage : Xlat :=
  { owner := 0, page := 0, size := 2 ^ 30, pa := 0, rd := true, wr := false, treat := 0, shr := false, swr := false, kidx := 0 }

/-- The first entry that brings write 10 is the stamp's own, so that nothing marks the byte of bank 0 as dirty data. -/
theorem plainEntry_twiceQueued : plainEntry twiceQueued 10 := by
  have first : entryOf twiceQueued 10 = some (0, 0, stampEntry 11 (.pa 0x10000)) := by decide +kernel
  refine ⟨by decide, fun k i e found => ?_⟩
  obtain ⟨rfl, rfl, rfl⟩ : 0 = k ∧ 0 = i ∧ stampEntry 11 (.pa 0x10000) = e := by simpa [first] using found
  exact ⟨0x10000, 1, 0, rfl, by decide⟩

theorem not_dirtyByte_twiceQueued : ¬dirtyByte twiceQueued (bankLoc 0 0) := by
  rintro ⟨p, hp, l, hl, w, hw, dirty⟩
  obtain rfl := List.mem_singleton.1 hp
  obtain rfl := List.mem_singleton.1 hl
  obtain rfl : w = 10 := by simpa [stampLine] using hw
  rcases dirty with covered | other
  · exact absurd covered (by decide)
  · exact other plainEntry_twiceQueued

/-- The poll recalls the copy: write 10 settles at the stamp, and named a second time, by its other entry in bank 0 (R251). -/
theorem notifyStampPoll_twiceQueued :
    ∃ t, exec (.notifyStampPoll 0) twiceQueued = .next t ∧ byteAt t (bankLoc 0 0) ≠ byteAt twiceQueued (bankLoc 0 0) :=
  ⟨_, rfl, by decide +kernel⟩

/-- Refutes O52: a poll that finds another value than its notify's stamp is to change no byte but the dirty ones. In the state
`twiceQueued` the write that its recall settles stands in two entries, and only the first says whether its bytes are dirty
ones. -/
theorem not_hostAndLoader : ¬Obligations.HostAndLoader := by
  intro holds
  obtain ⟨-, -, polls, -⟩ := holds twiceQueued
  obtain ⟨-, -, served⟩ := polls 0 0 0 0 0x10000 stampPage rfl (by decide) (by decide) (by decide) (by decide +kernel) (by decide)
  obtain ⟨t, step, quiet, -⟩ := (served (by decide +kernel) (by decide +kernel)).1 (by decide +kernel)
  obtain ⟨u, ran, written⟩ := notifyStampPoll_twiceQueued
  obtain rfl : t = u := Host.Outcome.next.inj (step.symm.trans ran)
  exact written (quiet rfl _ not_dirtyByte_twiceQueued)

end Sys2Proof.Machine
end

section
/-! SUPPORT. Fields read back from the forms (R48), a word put together from its fields, and codes from their tables (R61-R66). -/

namespace Sys2Proof

/-! ### Fields of the forms (R48) -/

open BitVec (extractLsb'_append_eq_left extractLsb'_append_eq_right extractLsb'_append_eq_of_le extractLsb'_append_eq_of_add_le)

/-- A field above the lowest part is a field of the parts before it. -/
theorem extract_above {u v start len : Nat} {x : BitVec u} {low : BitVec v} {y : BitVec len}
    (h : v.ble start = true) (e : x.extractLsb' (start - v) len = y) : (x ++ low).extractLsb' start len = y :=
  (extractLsb'_append_eq_of_le (Nat.le_of_ble_eq_true h)).trans e

section
variable (op : BitVec 6) (d a b : BitVec 5) (h : BitVec 4) (c : BitVec 6) (fn : BitVec 11) (imm : BitVec 16) (u : BitVec 21)
  (disp : BitVec 26)

@[simp] theorem fFn_encA : fFn (encA op d a b fn) = fn := extractLsb'_append_eq_right

@[simp] theorem fB_encA : fB (encA op d a b fn) = b := extract_above rfl extractLsb'_append_eq_right

@[simp] theorem fA_encA : fA (encA op d a b fn) = a := extract_above rfl <| extract_above rfl extractLsb'_append_eq_right

@[simp] theorem fD_encA : fD (encA op d a b fn) = d := extract_above rfl <| extract_above rfl <| extract_above rfl extractLsb'_append_eq_right

@[simp] theorem fOp_encA : fOp (encA op d a b fn) = op := extract_above rfl <| extract_above rfl <| extract_above rfl extractLsb'_append_eq_left

@[simp] theorem fImm_encI : fImm (encI op d a imm) = imm := extractLsb'_append_eq_right

@[simp] theorem fA_encI : fA (encI op d a imm) = a := extract_above rfl extractLsb'_append_eq_right

@[simp] theorem fD_encI : fD (encI op d a imm) = d := extract_above rfl <| extract_above rfl extractLsb'_append_eq_right

@[simp] theorem fOp_encI : fOp (encI op d a imm) = op := extract_above rfl <| extract_above rfl extractLsb'_append_eq_left

/-- The displacement of a load or store is in the low bits of imm16. -/
@[simp] theorem fFn_encI (sz : BitVec 3) (o : BitVec 2) : fFn (encI op d a (sz ++ o ++ fn)) = fn :=
  (extractLsb'_append_eq_of_add_le (Nat.le_of_ble_eq_true rfl)).trans extractLsb'_append_eq_right

@[simp] theorem fImm21_encU : fImm21 (encU op d u) = u := extractLsb'_append_eq_right

@[simp] theorem fD_encU : fD (encU op d u) = d := extract_above rfl extractLsb'_append_eq_right

@[simp] theorem fOp_encU : fOp (encU op d u) = op := extract_above rfl extractLsb'_append_eq_left

@[simp] theorem fDisp26_encJ : fDisp26 (encJ op disp) = disp := extractLsb'_append_eq_right

@[simp] theorem fOp_encJ : fOp (encJ op disp) = op := extractLsb'_append_eq_left

@[simp] theorem fFn_encH : fFn (encH op d h c fn) = fn := extractLsb'_append_eq_right

@[simp] theorem fCnt_encH : fCnt (encH op d h c fn) = c := extract_above rfl extractLsb'_append_eq_right

@[simp] theorem fH_encH : fH (encH op d h c fn) = h := extract_above rfl <| extract_above rfl extractLsb'_append_eq_right

@[simp] theorem fD_encH : fD (encH op d h c fn) = d := extract_above rfl <| extract_above rfl <| extract_above rfl extractLsb'_append_eq_right

@[simp] theorem fOp_encH : fOp (encH op d h c fn) = op := extract_above rfl <| extract_above rfl <| extract_above rfl extractLsb'_append_eq_left

end

/-! ### A word and its fields -/

open BitVec (extractLsb'_append_extractLsb'_eq_extractLsb' extractLsb'_eq_self)

section
variable (w : BitVec 32)

theorem encA_fields : encA (fOp w) (fD w) (fA w) (fB w) (fFn w) = w := by
  unfold encA fOp fD fA fB fFn
  repeat rw [extractLsb'_append_extractLsb'_eq_extractLsb' (by rfl)]
  exact extractLsb'_eq_self

theorem encI_fields : encI (fOp w) (fD w) (fA w) (fImm w) = w := by
  unfold encI fOp fD fA fImm
  repeat rw [extractLsb'_append_extractLsb'_eq_extractLsb' (by rfl)]
  exact extractLsb'_eq_self

theorem encU_fields : encU (fOp w) (fD w) (fImm21 w) = w := by
  unfold encU fOp fD fImm21
  repeat rw [extractLsb'_append_extractLsb'_eq_extractLsb' (by rfl)]
  exact extractLsb'_eq_self

theorem encJ_fields : encJ (fOp w) (fDisp26 w) = w := by
  unfold encJ fOp fDisp26
  rw [extractLsb'_append_extractLsb'_eq_extractLsb' (by rfl)]
  exact extractLsb'_eq_self

theorem encH_fields : encH (fOp w) (fD w) (fH w) (fCnt w) (fFn w) = w := by
  unfold encH fOp fD fH fCnt fFn
  repeat rw [extractLsb'_append_extractLsb'_eq_extractLsb' (by rfl)]
  exact extractLsb'_eq_self

/-- fn as an operation and a format or type (R61, R66). -/
theorem split_fn_6_5 (x : BitVec 11) : x.extractLsb' 5 6 ++ x.extractLsb' 0 5 = x := by
  rw [extractLsb'_append_extractLsb'_eq_extractLsb' (by rfl)]
  exact extractLsb'_eq_self

/-- fn of `fence` (R64). -/
theorem split_fn_3_5_3 (x : BitVec 11) : x.extractLsb' 8 3 ++ x.extractLsb' 3 5 ++ x.extractLsb' 0 3 = x := by
  repeat rw [extractLsb'_append_extractLsb'_eq_extractLsb' (by rfl)]
  exact extractLsb'_eq_self

/-- fn of `amo`, whose bit 2 is the no-return flag (R63). -/
theorem split_fn_5_3_1_2 (x : BitVec 11) :
    x.extractLsb' 6 5 ++ x.extractLsb' 3 3 ++ BitVec.ofBool (x.getLsbD 2) ++ x.extractLsb' 0 2 = x := by
  rw [show BitVec.ofBool (x.getLsbD 2) = x.extractLsb' 2 1 by
    ext i hi; obtain rfl : i = 0 := by omega
    simp]
  repeat rw [extractLsb'_append_extractLsb'_eq_extractLsb' (by rfl)]
  exact extractLsb'_eq_self

/-- imm16 of the shifts (R60). -/
theorem split_imm_8_2_6 (x : BitVec 16) : x.extractLsb' 8 8 ++ x.extractLsb' 6 2 ++ x.extractLsb' 0 6 = x := by
  repeat rw [extractLsb'_append_extractLsb'_eq_extractLsb' (by rfl)]
  exact extractLsb'_eq_self

/-- imm16 of the extracts (R60). -/
theorem split_imm_3_1_6_6 (x : BitVec 16) :
    x.extractLsb' 13 3 ++ x.extractLsb' 12 1 ++ x.extractLsb' 6 6 ++ x.extractLsb' 0 6 = x := by
  repeat rw [extractLsb'_append_extractLsb'_eq_extractLsb' (by rfl)]
  exact extractLsb'_eq_self

/-- imm16 of `bfi` (R60). -/
theorem split_imm_4_6_6 (x : BitVec 16) : x.extractLsb' 12 4 ++ x.extractLsb' 6 6 ++ x.extractLsb' 0 6 = x := by
  repeat rw [extractLsb'_append_extractLsb'_eq_extractLsb' (by rfl)]
  exact extractLsb'_eq_self

/-- imm16 of `fev` and `fred` (R61). -/
theorem split_imm_1_5_2_6_2 (x : BitVec 16) :
    x.extractLsb' 15 1 ++ x.extractLsb' 10 5 ++ x.extractLsb' 8 2 ++ x.extractLsb' 2 6 ++ x.extractLsb' 0 2 = x := by
  repeat rw [extractLsb'_append_extractLsb'_eq_extractLsb' (by rfl)]
  exact extractLsb'_eq_self

/-- imm16 of the loads and stores, whose displacement lies where fn does (R62). -/
theorem split_imm_3_2_11 : (fImm w).extractLsb' 13 3 ++ (fImm w).extractLsb' 11 2 ++ fFn w = fImm w := by
  rw [show fFn w = (fImm w).extractLsb' 0 11 from (BitVec.extractLsb'_extractLsb'_of_le (Nat.le_of_ble_eq_true rfl)).symm]
  repeat rw [extractLsb'_append_extractLsb'_eq_extractLsb' (by rfl)]
  exact extractLsb'_eq_self

end

/-! ### Codes (R61-R66) -/

theorem fmtCode_of_fmtOf {c : Nat} {f : FFmt} (h : fmtOf c = some f) : fmtCode f = BitVec.ofNat 5 c := by
  unfold fmtOf at h; split at h <;> cases h <;> rfl

theorem ityCode_of_ityOf {c : Nat} {t : IntTy} (h : ityOf c = some t) : ityCode t = BitVec.ofNat 5 c := by
  unfold ityOf at h; split at h <;> cases h <;> rfl

theorem ldOrdCode_of_ldOrdOf {c : Nat} {o : LdOrd} (h : ldOrdOf c = some o) : ldOrdCode o = BitVec.ofNat 2 c := by
  unfold ldOrdOf at h; split at h <;> cases h <;> rfl

theorem stOrdCode_of_stOrdOf {c : Nat} {o : StOrd} (h : stOrdOf c = some o) : stOrdCode o = BitVec.ofNat 2 c := by
  unfold stOrdOf at h; split at h <;> cases h <;> rfl

theorem amoTyCode_of_amoTyOf {c : Nat} {t : AmoTy} (h : amoTyOf c = some t) : amoTyCode t = BitVec.ofNat 3 c := by
  unfold amoTyOf at h; split at h <;> cases h <;> rfl

theorem amoOrdCode_of_amoOrdOf {c : Nat} {o : AmoOrd} (h : amoOrdOf c = some o) : amoOrdCode o = BitVec.ofNat 2 c := by
  unfold amoOrdOf at h; split at h <;> cases h <;> rfl

theorem scopeCode_of_scopeOf {c : Nat} {x : Scope} (h : scopeOf c = some x) : scopeCode x = BitVec.ofNat 3 c := by
  unfold scopeOf at h; split at h <;> cases h <;> rfl

theorem elemCode_of_elemOf {c : Nat} {t : ElemTy} (h : elemOf c = some t) : elemCode t = BitVec.ofNat 5 c := by
  unfold elemOf at h; split at h <;> cases h <;> rfl

@[simp] theorem fmtOf_fmtCode (f : FFmt) : fmtOf (fmtCode f).toNat = some f := by cases f <;> rfl
@[simp] theorem ityOf_ityCode (t : IntTy) : ityOf (ityCode t).toNat = some t := by cases t <;> rfl
@[simp] theorem ldOrdOf_ldOrdCode (o : LdOrd) : ldOrdOf (ldOrdCode o).toNat = some o := by cases o <;> rfl
@[simp] theorem stOrdOf_stOrdCode (o : StOrd) : stOrdOf (stOrdCode o).toNat = some o := by cases o <;> rfl
@[simp] theorem amoTyOf_amoTyCode (t : AmoTy) : amoTyOf (amoTyCode t).toNat = some t := by cases t <;> rfl
@[simp] theorem amoOrdOf_amoOrdCode (o : AmoOrd) : amoOrdOf (amoOrdCode o).toNat = some o := by cases o <;> rfl
@[simp] theorem scopeOf_scopeCode (x : Scope) : scopeOf (scopeCode x).toNat = some x := by cases x <;> rfl
@[simp] theorem elemOf_elemCode (t : ElemTy) : elemOf (elemCode t).toNat = some t := by cases t <;> rfl

/-! A code field stands for one value. -/

@[simp] theorem fmtOf_eq_some {c : BitVec 5} {x : FFmt} : fmtOf c.toNat = some x ↔ c = fmtCode x :=
  ⟨fun h => by simp [fmtCode_of_fmtOf h], fun h => by simp [h]⟩

@[simp] theorem ityOf_eq_some {c : BitVec 5} {x : IntTy} : ityOf c.toNat = some x ↔ c = ityCode x :=
  ⟨fun h => by simp [ityCode_of_ityOf h], fun h => by simp [h]⟩

@[simp] theorem ldOrdOf_eq_some {c : BitVec 2} {x : LdOrd} : ldOrdOf c.toNat = some x ↔ c = ldOrdCode x :=
  ⟨fun h => by simp [ldOrdCode_of_ldOrdOf h], fun h => by simp [h]⟩

@[simp] theorem stOrdOf_eq_some {c : BitVec 2} {x : StOrd} : stOrdOf c.toNat = some x ↔ c = stOrdCode x :=
  ⟨fun h => by simp [stOrdCode_of_stOrdOf h], fun h => by simp [h]⟩

@[simp] theorem amoTyOf_eq_some {c : BitVec 3} {x : AmoTy} : amoTyOf c.toNat = some x ↔ c = amoTyCode x :=
  ⟨fun h => by simp [amoTyCode_of_amoTyOf h], fun h => by simp [h]⟩

@[simp] theorem amoOrdOf_eq_some {c : BitVec 2} {x : AmoOrd} : amoOrdOf c.toNat = some x ↔ c = amoOrdCode x :=
  ⟨fun h => by simp [amoOrdCode_of_amoOrdOf h], fun h => by simp [h]⟩

@[simp] theorem scopeOf_eq_some {c : BitVec 3} {x : Scope} : scopeOf c.toNat = some x ↔ c = scopeCode x :=
  ⟨fun h => by simp [scopeCode_of_scopeOf h], fun h => by simp [h]⟩

@[simp] theorem elemOf_eq_some {c : BitVec 5} {x : ElemTy} : elemOf c.toNat = some x ↔ c = elemCode x :=
  ⟨fun h => by simp [elemCode_of_elemOf h], fun h => by simp [h]⟩

end Sys2Proof
end

section
/-! SUPPORT. Every accepted word is the word of the well-formed instruction it decodes to: one rule per check, one lemma per
major. -/

namespace Sys2Proof

/-- Whatever instruction a part of the decoder answers is well-formed, and `w` is its word. -/
def Encodes (w : BitVec 32) (r : Except Reject Instr) : Prop := ∀ i, r = .ok i → i.wellFormed = true ∧ encode i = w

/-! ### Checks (R68) -/

namespace Encodes

section
variable {w : BitVec 32} {k : Except Reject Instr} {i : Instr}

theorem ok (h : i.wellFormed = true) (e : encode i = w) : Encodes w (.ok i) := by rintro _ ⟨⟩; exact ⟨h, e⟩

theorem error {e : Reject} : Encodes w (.error e) := fun _ h => by cases h

theorem ite {c : Prop} [Decidable c] {m : Except Reject Instr} (hk : c → Encodes w k) (hm : ¬c → Encodes w m) :
    Encodes w (if c then k else m) := by
  split
  · exact hk ‹_›
  · exact hm ‹_›

/-- A check: what passes it is encoded, and what does not is refused. -/
theorem check {c : Prop} [Decidable c] {e : Reject} (h : c → Encodes w k) : Encodes w (if c then k else .error e) :=
  ite h fun _ => error

theorem resv {r : BitVec 5} (h : r = 0 → Encodes w k) : Encodes w (resv r k) := check h

theorem pair {c : Bool} (h : c = true → Encodes w k) : Encodes w (pair c k) := check h

theorem lim {c : Bool} (h : c = true → i.wellFormed = true) (e : encode i = w) : Encodes w (lim c i) :=
  check fun hc => ok (h hc) e

theorem sprOk {n : BitVec 16} (h : sprDefined n = true → i.wellFormed = true) (e : encode i = w) : Encodes w (sprOk n i) :=
  check fun hn => ok (h hn) e

theorem sel {α : Type} {o : Option α} {f : α → Except Reject Instr} (h : ∀ x, o = some x → Encodes w (f x)) :
    Encodes w (sel o f) := by
  cases o with
  | none => exact error
  | some x => exact h x rfl

end

end Encodes

/-! ### Majors (R60-R66) -/

section
variable (n : Nat) (d a b : Reg)

theorem encodes_decInt : Encodes (encA 0x01 d a b (BitVec.ofNat 11 n)) (decInt n d a b) := by
  unfold decInt; split
  case h_26 | h_27 | h_28 | h_29 | h_30 | h_31 | h_32 | h_33 | h_34 => exact .resv fun hb => .ok rfl (hb ▸ rfl)
  case h_35 => exact .error
  all_goals exact .ok rfl rfl

theorem encodes_decMul : Encodes (encA 0x02 d a b (BitVec.ofNat 11 n)) (decMul n d a b) := by
  unfold decMul; split
  case h_9 => exact .error
  all_goals exact .ok rfl rfl

theorem encodes_decCtl : Encodes (encA 0x1C d a b (BitVec.ofNat 11 n)) (decCtl n d a b) := by
  unfold decCtl; split
  case h_1 => exact .resv fun hd => .resv fun hb => by subst hd hb; exact .ok rfl rfl
  case h_2 => exact .resv fun hb => .ok rfl (hb ▸ rfl)
  case h_3 => exact .resv fun hd => .resv fun ha => .resv fun hb => by subst hd ha hb; exact .ok rfl rfl
  case h_5 => exact .resv fun hd => .ok rfl (hd ▸ rfl)
  case h_6 => exact .error
  all_goals exact .ok rfl rfl

theorem encodes_decOrd : Encodes (encA 0x21 d a b (BitVec.ofNat 11 n)) (decOrd n d a b) := by
  unfold decOrd; split
  case h_4 => exact .error
  all_goals exact .ok rfl rfl

theorem encodes_decLock : Encodes (encA 0x22 d a b (BitVec.ofNat 11 n)) (decLock n d a b) := by
  unfold decLock; split
  case h_3 | h_4 => exact .resv fun hb => .ok rfl (hb ▸ rfl)
  case h_6 => exact .error
  all_goals exact .ok rfl rfl

theorem encodes_decSend : Encodes (encA 0x24 d a b (BitVec.ofNat 11 n)) (decSend n d a b) := by
  unfold decSend; split
  case h_2 => exact .resv fun hd => .ok rfl (hd ▸ rfl)
  case h_5 => exact .error
  all_goals exact .ok rfl rfl

theorem encodes_decTask : Encodes (encA 0x25 d a b (BitVec.ofNat 11 n)) (decTask n d a b) := by
  unfold decTask; split
  case h_2 | h_3 => exact .resv fun hd => .ok rfl (hd ▸ rfl)
  case h_4 | h_7 => exact .resv fun hb => .ok rfl (hb ▸ rfl)
  case h_8 => exact .resv fun ha => .resv fun hb => by subst ha hb; exact .ok rfl rfl
  case h_9 => exact .error
  all_goals exact .ok rfl rfl

theorem encodes_decCache : Encodes (encA 0x26 d a b (BitVec.ofNat 11 n)) (decCache n d a b) := by
  unfold decCache; split
  case h_1 | h_2 | h_3 | h_4 | h_5 => exact .resv fun hd => .ok rfl (hd ▸ rfl)
  case h_6 => exact .error

theorem encodes_decMat : Encodes (encA 0x29 d a b (BitVec.ofNat 11 n)) (decMat n d a b) := by
  unfold decMat; split
  case h_1 | h_2 | h_4 | h_5 | h_6 | h_7 | h_8 | h_9 => exact .resv fun hb => .ok rfl (hb ▸ rfl)
  case h_3 => exact .resv fun ha => .resv fun hb => by subst ha hb; exact .ok rfl rfl
  case h_11 => exact .error
  all_goals exact .ok rfl rfl

theorem encodes_decStrm : Encodes (encA 0x2A d a b (BitVec.ofNat 11 n)) (decStrm n d a b) := by
  unfold decStrm; split
  case h_3 | h_5 | h_9 => exact .resv fun hb => .ok rfl (hb ▸ rfl)
  case h_10 => exact .error
  all_goals exact .ok rfl rfl

theorem encodes_decTab : Encodes (encA 0x2B d a b (BitVec.ofNat 11 n)) (decTab n d a b) := by
  unfold decTab; split
  case h_3 | h_4 | h_7 | h_8 => exact .resv fun hb => .ok rfl (hb ▸ rfl)
  case h_5 => exact .resv fun ha => .resv fun hb => by subst ha hb; exact .ok rfl rfl
  case h_9 => exact .error
  all_goals exact .ok rfl rfl

theorem encodes_decTomb : Encodes (encA 0x2C d a b (BitVec.ofNat 11 n)) (decTomb n d a b) := by
  unfold decTomb; split
  case h_1 | h_5 => exact .resv fun hb => .ok rfl (hb ▸ rfl)
  case h_6 => exact .error
  all_goals exact .ok rfl rfl

theorem encodes_decCap : Encodes (encA 0x2D d a b (BitVec.ofNat 11 n)) (decCap n d a b) := by
  unfold decCap; split
  case h_4 => exact .resv fun hb => .ok rfl (hb ▸ rfl)
  case h_5 => exact .error
  all_goals exact .ok rfl rfl

theorem encodes_decNode : Encodes (encA 0x2E d a b (BitVec.ofNat 11 n)) (decNode n d a b) := by
  unfold decNode; split
  case h_1 | h_5 => exact .resv fun hb => .ok rfl (hb ▸ rfl)
  case h_7 => exact .error
  all_goals exact .ok rfl rfl

theorem encodes_decLine : Encodes (encA 0x2F d a b (BitVec.ofNat 11 n)) (decLine n d a b) := by
  unfold decLine; split
  case h_2 | h_6 => exact .resv fun hb => .ok rfl (hb ▸ rfl)
  case h_4 | h_5 => exact .resv fun hd => .ok rfl (hd ▸ rfl)
  case h_7 => exact .error
  all_goals exact .ok rfl rfl

theorem encodes_decSys : Encodes (encA 0x3A d a b (BitVec.ofNat 11 n)) (decSys n d a b) := by
  unfold decSys; split
  case h_1 | h_2 | h_3 | h_4 => exact .resv fun hd => .resv fun ha => .resv fun hb => by subst hd ha hb; exact .ok rfl rfl
  case h_6 => exact .resv fun hd => .ok rfl (hd ▸ rfl)
  case h_7 => exact .resv fun hb => .ok rfl (hb ▸ rfl)
  case h_10 => exact .error
  all_goals exact .ok rfl rfl

theorem encodes_decShi (z : BitVec 2) (x : BitVec 6) :
    Encodes (encI 0x09 d a (BitVec.ofNat 8 n ++ z ++ x)) (decShi n z x d a) := by
  unfold decShi
  refine .pair fun hn => .check fun hz => ?_
  subst hz
  split
  case h_4 _ h0 h1 h2 =>
    simp only [decide_eq_true_eq, imp_false] at hn h0 h1 h2
    obtain rfl : n = 3 := by omega
    exact .ok rfl rfl
  all_goals exact .ok rfl rfl

theorem encodes_decBfx (z : BitVec 3) (sg : BitVec 1) (p l : BitVec 6) :
    Encodes (encI 0x0A d a (z ++ sg ++ p ++ l)) (decBfx z sg p l d a) := by
  unfold decBfx
  refine .check fun hz => ?_
  subst hz
  split
  · next h => exact .lim id (h ▸ rfl)
  · next h =>
    obtain rfl : sg = 1 := by bv_omega
    exact .lim id rfl

theorem encodes_decBfi (z : BitVec 4) (p l : BitVec 6) : Encodes (encI 0x0B d a (z ++ p ++ l)) (decBfi z p l d a) :=
  .check fun hz => .lim id (hz ▸ rfl)

theorem encodes_decFev (r : BitVec 1) (z : BitVec 5) (m : BitVec 2) (y : BitVec 6) (t : BitVec 2) :
    Encodes (encI 0x10 d a (r ++ z ++ m ++ y ++ t)) (decFev r z m y t d a) := by
  unfold decFev
  refine .pair fun hm => .check ?_
  rintro ⟨rfl, rfl⟩
  split
  · next h =>
    subst h
    exact .ok hm rfl
  · next h =>
    obtain rfl : r = 1 := by bv_omega
    exact .ok rfl rfl

theorem encodes_decFArith (f : BitVec 5) : Encodes (encA 0x0E d a b (BitVec.ofNat 6 n ++ f)) (decFArith n f.toNat d a b) := by
  unfold decFArith; split
  case h_6 => exact .sel fun x hx => .resv fun hb => .ok rfl (hb ▸ fmtOf_eq_some.1 hx ▸ rfl)
  case h_12 => exact .error
  all_goals exact .sel fun x hx => .ok rfl (fmtOf_eq_some.1 hx ▸ rfl)

theorem encodes_decFCmp (f : BitVec 5) : Encodes (encA 0x0F d a b (BitVec.ofNat 6 n ++ f)) (decFCmp n f.toNat d a b) := by
  unfold decFCmp; split
  case h_1 | h_2 | h_3 => exact .sel fun x hx => .ok rfl (fmtOf_eq_some.1 hx ▸ rfl)
  case h_4 => exact .sel fun x hx => .resv fun hb => .ok rfl (hb ▸ fmtOf_eq_some.1 hx ▸ rfl)
  case h_5 | h_6 => exact .sel fun x hx => .sel fun t ht => .ok rfl (fmtOf_eq_some.1 hx ▸ ityOf_eq_some.1 ht ▸ rfl)
  case h_7 => exact .sel fun x hx => .sel fun y hy => .ok rfl (fmtOf_eq_some.1 hx ▸ fmtOf_eq_some.1 hy ▸ rfl)
  case h_8 => exact .error

theorem encodes_decLd (o : BitVec 2) (i : BitVec 11) (hn : n < 8) :
    Encodes (encI 0x1D d a (BitVec.ofNat 3 n ++ o ++ i)) (decLd n o.toNat d a i) := by
  unfold decLd
  refine .sel fun x hx => ?_
  obtain rfl := ldOrdOf_eq_some.1 hx
  split
  case h_8 _ h0 h1 h2 h3 h4 h5 h6 =>
    simp only [imp_false] at h0 h1 h2 h3 h4 h5 h6
    obtain rfl : n = 7 := by omega
    exact .lim id rfl
  all_goals exact .ok rfl rfl

theorem encodes_decSt (o : BitVec 2) (i : BitVec 11) :
    Encodes (encI 0x1E d a (BitVec.ofNat 3 n ++ o ++ i)) (decSt n o.toNat d a i) := by
  unfold decSt
  refine .sel fun x hx => ?_
  obtain rfl := stOrdOf_eq_some.1 hx
  split
  case h_5 => exact .lim id rfl
  case h_6 => exact .error
  all_goals exact .ok rfl rfl

theorem encodes_decAmo (t : AmoTy) (nr : Bool) (o : AmoOrd) :
    Encodes (encA 0x20 d a b (BitVec.ofNat 5 n ++ amoTyCode t ++ BitVec.ofBool nr ++ amoOrdCode o)) (decAmo n t nr o d a b) := by
  have noReturn {w : BitVec 32} {c : Bool} {i : Instr} (hi : i.wellFormed = (c && nrOk d nr)) (e : encode i = w) :
      Encodes w (pair c (amoNr d nr i)) := .pair fun hc => .check fun hr => .ok (by rw [hi, hc, hr]; rfl) e
  unfold decAmo; split
  case h_8 =>
    refine .pair fun h => ?_
    obtain ⟨hr, ht⟩ := Bool.and_eq_true_iff.1 h
    obtain rfl : nr = false := by simpa using hr
    exact .ok ht rfl
  case h_9 =>
    refine .pair fun h => ?_
    obtain ⟨hr, ht⟩ := Bool.and_eq_true_iff.1 h
    obtain rfl : nr = false := by simpa using hr
    obtain rfl : t = .i64 := by simpa using ht
    exact .lim id rfl
  case h_15 => exact .error
  all_goals exact noReturn rfl rfl

theorem encodes_decH (h : BitVec 4) (c : BitVec 6) : Encodes (encH 0x23 d h c (BitVec.ofNat 11 n)) (decH n d h c) := by
  unfold decH; split
  case h_5 => exact .resv fun hd => .check fun hc => .ok rfl (hd ▸ hc ▸ rfl)
  case h_8 => exact .error
  all_goals exact .lim id rfl

theorem encodes_decFence (z : BitVec 5) (x : BitVec 3) :
    Encodes (encA 0x27 d a b (BitVec.ofNat 3 n ++ z ++ x)) (decFence n z x.toNat d a b) := by
  unfold decFence
  refine .pair fun hn => .sel fun y hy => .check fun hz => .resv fun hd => .resv fun ha => .resv fun hb => ?_
  obtain rfl := scopeOf_eq_some.1 hy
  subst hz hd ha hb
  split
  case h_4 _ h0 h1 h2 =>
    simp only [decide_eq_true_eq, imp_false] at hn h0 h1 h2
    obtain rfl : n = 3 := by omega
    exact .ok rfl rfl
  all_goals exact .ok rfl rfl

theorem encodes_decVec (t : ElemTy) : Encodes (encA 0x28 d a b (BitVec.ofNat 6 n ++ elemCode t)) (decVec n t d a b) := by
  unfold decVec; split
  case h_8 | h_11 | h_12 | h_17 | h_18 | h_20 | h_21 => exact .ok rfl rfl
  case h_25 => exact .error
  all_goals exact .pair fun h => .ok h rfl

end

/-! ### Words -/

theorem ofNat_toNat_self {n : Nat} (x : BitVec n) : BitVec.ofNat n x.toNat = x := by
  rw [BitVec.ofNat_toNat, BitVec.setWidth_eq]

section
variable {w : BitVec 32} {op : Nat} {r : Except Reject Instr} (h : (fOp w).toNat = op)
include h

theorem ofNat_of_fOp : BitVec.ofNat 6 op = fOp w := by rw [← h, ofNat_toNat_self]

theorem Encodes.formA {fn : BitVec 11} (hfn : fn = fFn w)
    (e : Encodes (encA (BitVec.ofNat 6 op) (fD w) (fA w) (fB w) fn) r) : Encodes w r := by
  rwa [ofNat_of_fOp h, hfn, encA_fields] at e

theorem Encodes.formI {imm : BitVec 16} (himm : imm = fImm w)
    (e : Encodes (encI (BitVec.ofNat 6 op) (fD w) (fA w) imm) r) : Encodes w r := by
  rwa [ofNat_of_fOp h, himm, encI_fields] at e

theorem Encodes.formU (e : Encodes (encU (BitVec.ofNat 6 op) (fD w) (fImm21 w)) r) : Encodes w r := by
  rwa [ofNat_of_fOp h, encU_fields] at e

theorem Encodes.formJ (e : Encodes (encJ (BitVec.ofNat 6 op) (fDisp26 w)) r) : Encodes w r := by
  rwa [ofNat_of_fOp h, encJ_fields] at e

theorem Encodes.formH {fn : BitVec 11} (hfn : fn = fFn w)
    (e : Encodes (encH (BitVec.ofNat 6 op) (fD w) (fH w) (fCnt w) fn) r) : Encodes w r := by
  rwa [ofNat_of_fOp h, hfn, encH_fields] at e

end

/-- R58, R59: the decoder of the word's major answers instructions whose words have the word's own fields. -/
theorem decodeWord_encodes (w : BitVec 32) : Encodes w (decodeWord w) := by
  have fn : BitVec.ofNat 11 (fFn w).toNat = fFn w := ofNat_toNat_self _
  have fn_6_5 : BitVec.ofNat 6 ((fFn w).extractLsb' 5 6).toNat ++ (fFn w).extractLsb' 0 5 = fFn w := by
    rw [ofNat_toNat_self, split_fn_6_5]
  unfold decodeWord
  refine .ite (fun _ => .error) fun _ => ?_
  split
  case h_1 h => exact .formA h fn (encodes_decInt _ _ _ _)
  case h_2 h => exact .formA h fn (encodes_decMul _ _ _ _)
  case h_3 h | h_4 h | h_5 h | h_6 h | h_7 h | h_8 h | h_17 h | h_18 h | h_19 h | h_20 h | h_21 h | h_22 h | h_23 h | h_24 h
    => exact .formI h rfl (.ok rfl rfl)
  case h_9 h => exact .formI h (by rw [ofNat_toNat_self, split_imm_8_2_6]) (encodes_decShi _ _ _ _ _)
  case h_10 h => exact .formI h (split_imm_3_1_6_6 _) (encodes_decBfx _ _ _ _ _ _)
  case h_11 h => exact .formI h (split_imm_4_6_6 _) (encodes_decBfi _ _ _ _ _)
  case h_12 h | h_13 h => exact .formU h (.ok rfl rfl)
  case h_14 h => exact .formA h fn_6_5 (encodes_decFArith _ _ _ _ _)
  case h_15 h => exact .formA h fn_6_5 (encodes_decFCmp _ _ _ _ _)
  case h_16 h => exact .formI h (split_imm_1_5_2_6_2 _) (encodes_decFev _ _ _ _ _ _ _)
  case h_25 h => exact .formI h rfl (.resv fun ha => .ok rfl (ha ▸ rfl))
  case h_26 h | h_27 h => exact .formJ h (.ok rfl rfl)
  case h_28 h => exact .formA h fn (encodes_decCtl _ _ _ _)
  case h_29 h => exact .formI h (by rw [ofNat_toNat_self, split_imm_3_2_11]) (encodes_decLd _ _ _ _ _ (BitVec.isLt _))
  case h_30 h => exact .formI h (by rw [ofNat_toNat_self, split_imm_3_2_11]) (encodes_decSt _ _ _ _ _)
  case h_31 h =>
    refine .sel fun t ht => .sel fun o ho => .formA h ?_ (encodes_decAmo _ _ _ _ _ _ _)
    rw [← amoTyOf_eq_some.1 ht, ← amoOrdOf_eq_some.1 ho, ofNat_toNat_self, split_fn_5_3_1_2]
  case h_32 h => exact .formA h fn (encodes_decOrd _ _ _ _)
  case h_33 h => exact .formA h fn (encodes_decLock _ _ _ _)
  case h_34 h => exact .formH h fn (encodes_decH _ _ _ _)
  case h_35 h => exact .formA h fn (encodes_decSend _ _ _ _)
  case h_36 h => exact .formA h fn (encodes_decTask _ _ _ _)
  case h_37 h => exact .formA h fn (encodes_decCache _ _ _ _)
  case h_38 h => exact .formA h (by rw [ofNat_toNat_self, split_fn_3_5_3]) (encodes_decFence _ _ _ _ _ _)
  case h_39 h =>
    refine .sel fun t ht => .formA h ?_ (encodes_decVec _ _ _ _ _)
    rw [← elemOf_eq_some.1 ht, fn_6_5]
  case h_40 h => exact .formA h fn (encodes_decMat _ _ _ _)
  case h_41 h => exact .formA h fn (encodes_decStrm _ _ _ _)
  case h_42 h => exact .formA h fn (encodes_decTab _ _ _ _)
  case h_43 h => exact .formA h fn (encodes_decTomb _ _ _ _)
  case h_44 h => exact .formA h fn (encodes_decCap _ _ _ _)
  case h_45 h => exact .formA h fn (encodes_decNode _ _ _ _)
  case h_46 h => exact .formA h fn (encodes_decLine _ _ _ _)
  case h_47 h => exact .formI h rfl (.resv fun ha => .sprOk id (ha ▸ rfl))
  case h_48 h => exact .formI h rfl (.resv fun hd => .sprOk id (hd ▸ rfl))
  case h_49 h => exact .formA h fn (encodes_decSys _ _ _ _)
  case h_50 => exact .error

/-- Settles O54, by the major of the word. -/
theorem encodeOfDecode : Obligations.EncodeOfDecode := fun w i h => decodeWord_encodes w i h

end Sys2Proof
end

section
/-! SUPPORT. What the decoder makes of a word of its form: one equation per major; with it every well-formed instruction is what
its own word decodes to. -/

namespace Sys2Proof

/-! ### Parts of fn and imm16 (R60-R66) -/

open BitVec (extractLsb'_append_eq_left extractLsb'_append_eq_right)

theorem op_of_fn (o : BitVec 6) (c : BitVec 5) : (o ++ c).extractLsb' 5 6 = o := extractLsb'_append_eq_left

theorem code_of_fn (o : BitVec 6) (c : BitVec 5) : (o ++ c).extractLsb' 0 5 = c := extractLsb'_append_eq_right

theorem noReturn_of_fn (o : BitVec 5) (t : BitVec 3) (n : Bool) (r : BitVec 2) :
    (o ++ t ++ BitVec.ofBool n ++ r).getLsbD 2 = n := by
  rw [BitVec.getLsbD_eq_extractLsb', extract_above rfl extractLsb'_append_eq_right]
  cases n <;> rfl

theorem size_of_imm (z : BitVec 3) (o : BitVec 2) (i : BitVec 11) : (z ++ o ++ i).extractLsb' 13 3 = z :=
  extract_above rfl extractLsb'_append_eq_left

theorem order_of_imm (z : BitVec 3) (o : BitVec 2) (i : BitVec 11) : (z ++ o ++ i).extractLsb' 11 2 = o :=
  extract_above rfl extractLsb'_append_eq_right

/-! ### The decoder of each major -/

theorem ne_zero_of_fOp {w : BitVec 32} (h : fOp w ≠ 0) : w ≠ 0 := by
  rintro rfl
  exact h rfl

section
variable (d a b : Reg) (fn : BitVec 11)

theorem decodeWord_int : decodeWord (encA 0x01 d a b fn) = decInt fn.toNat d a b := by
  rw [decodeWord, if_neg (ne_zero_of_fOp (by simp)), fOp_encA, fFn_encA, fD_encA, fA_encA, fB_encA]; rfl

theorem decodeWord_mul : decodeWord (encA 0x02 d a b fn) = decMul fn.toNat d a b := by
  rw [decodeWord, if_neg (ne_zero_of_fOp (by simp)), fOp_encA, fFn_encA, fD_encA, fA_encA, fB_encA]; rfl

theorem decodeWord_ctl : decodeWord (encA 0x1C d a b fn) = decCtl fn.toNat d a b := by
  rw [decodeWord, if_neg (ne_zero_of_fOp (by simp)), fOp_encA, fFn_encA, fD_encA, fA_encA, fB_encA]; rfl

theorem decodeWord_ord : decodeWord (encA 0x21 d a b fn) = decOrd fn.toNat d a b := by
  rw [decodeWord, if_neg (ne_zero_of_fOp (by simp)), fOp_encA, fFn_encA, fD_encA, fA_encA, fB_encA]; rfl

theorem decodeWord_lock : decodeWord (encA 0x22 d a b fn) = decLock fn.toNat d a b := by
  rw [decodeWord, if_neg (ne_zero_of_fOp (by simp)), fOp_encA, fFn_encA, fD_encA, fA_encA, fB_encA]; rfl

theorem decodeWord_send : decodeWord (encA 0x24 d a b fn) = decSend fn.toNat d a b := by
  rw [decodeWord, if_neg (ne_zero_of_fOp (by simp)), fOp_encA, fFn_encA, fD_encA, fA_encA, fB_encA]; rfl

theorem decodeWord_task : decodeWord (encA 0x25 d a b fn) = decTask fn.toNat d a b := by
  rw [decodeWord, if_neg (ne_zero_of_fOp (by simp)), fOp_encA, fFn_encA, fD_encA, fA_encA, fB_encA]; rfl

theorem decodeWord_cache : decodeWord (encA 0x26 d a b fn) = decCache fn.toNat d a b := by
  rw [decodeWord, if_neg (ne_zero_of_fOp (by simp)), fOp_encA, fFn_encA, fD_encA, fA_encA, fB_encA]; rfl

theorem decodeWord_mat : decodeWord (encA 0x29 d a b fn) = decMat fn.toNat d a b := by
  rw [decodeWord, if_neg (ne_zero_of_fOp (by simp)), fOp_encA, fFn_encA, fD_encA, fA_encA, fB_encA]; rfl

theorem decodeWord_strm : decodeWord (encA 0x2A d a b fn) = decStrm fn.toNat d a b := by
  rw [decodeWord, if_neg (ne_zero_of_fOp (by simp)), fOp_encA, fFn_encA, fD_encA, fA_encA, fB_encA]; rfl

theorem decodeWord_tab : decodeWord (encA 0x2B d a b fn) = decTab fn.toNat d a b := by
  rw [decodeWord, if_neg (ne_zero_of_fOp (by simp)), fOp_encA, fFn_encA, fD_encA, fA_encA, fB_encA]; rfl

theorem decodeWord_tomb : decodeWord (encA 0x2C d a b fn) = decTomb fn.toNat d a b := by
  rw [decodeWord, if_neg (ne_zero_of_fOp (by simp)), fOp_encA, fFn_encA, fD_encA, fA_encA, fB_encA]; rfl

theorem decodeWord_cap : decodeWord (encA 0x2D d a b fn) = decCap fn.toNat d a b := by
  rw [decodeWord, if_neg (ne_zero_of_fOp (by simp)), fOp_encA, fFn_encA, fD_encA, fA_encA, fB_encA]; rfl

theorem decodeWord_node : decodeWord (encA 0x2E d a b fn) = decNode fn.toNat d a b := by
  rw [decodeWord, if_neg (ne_zero_of_fOp (by simp)), fOp_encA, fFn_encA, fD_encA, fA_encA, fB_encA]; rfl

theorem decodeWord_line : decodeWord (encA 0x2F d a b fn) = decLine fn.toNat d a b := by
  rw [decodeWord, if_neg (ne_zero_of_fOp (by simp)), fOp_encA, fFn_encA, fD_encA, fA_encA, fB_encA]; rfl

theorem decodeWord_sys : decodeWord (encA 0x3A d a b fn) = decSys fn.toNat d a b := by
  rw [decodeWord, if_neg (ne_zero_of_fOp (by simp)), fOp_encA, fFn_encA, fD_encA, fA_encA, fB_encA]; rfl

theorem decodeWord_h (h : BitVec 4) (c : BitVec 6) : decodeWord (encH 0x23 d h c fn) = decH fn.toNat d h c := by
  rw [decodeWord, if_neg (ne_zero_of_fOp (by simp)), fOp_encH, fFn_encH, fD_encH, fH_encH, fCnt_encH]; rfl

theorem decodeWord_fArith (o : BitVec 6) (f : BitVec 5) :
    decodeWord (encA 0x0E d a b (o ++ f)) = decFArith o.toNat f.toNat d a b := by
  rw [decodeWord, if_neg (ne_zero_of_fOp (by simp)), fOp_encA, fFn_encA, fD_encA, fA_encA, fB_encA, op_of_fn, code_of_fn]; rfl

theorem decodeWord_fCmp (o : BitVec 6) (f : BitVec 5) :
    decodeWord (encA 0x0F d a b (o ++ f)) = decFCmp o.toNat f.toNat d a b := by
  rw [decodeWord, if_neg (ne_zero_of_fOp (by simp)), fOp_encA, fFn_encA, fD_encA, fA_encA, fB_encA, op_of_fn, code_of_fn]; rfl

theorem decodeWord_vec (o : BitVec 6) (t : ElemTy) : decodeWord (encA 0x28 d a b (o ++ elemCode t)) = decVec o.toNat t d a b := by
  rw [decodeWord, if_neg (ne_zero_of_fOp (by simp)), fOp_encA, fFn_encA, fD_encA, fA_encA, fB_encA, op_of_fn, code_of_fn,
    elemOf_eq_some.2 rfl]; rfl

theorem decodeWord_fence (o : BitVec 3) (z : BitVec 5) (x : BitVec 3) :
    decodeWord (encA 0x27 d a b (o ++ z ++ x)) = decFence o.toNat z x.toNat d a b := by
  rw [decodeWord, if_neg (ne_zero_of_fOp (by simp)), fOp_encA, fFn_encA, fD_encA, fA_encA, fB_encA,
    show (o ++ z ++ x).extractLsb' 8 3 = o from extract_above rfl extractLsb'_append_eq_left,
    show (o ++ z ++ x).extractLsb' 3 5 = z from extract_above rfl extractLsb'_append_eq_right,
    show (o ++ z ++ x).extractLsb' 0 3 = x from extractLsb'_append_eq_right]; rfl

theorem decodeWord_amo (o : BitVec 5) (t : AmoTy) (n : Bool) (r : AmoOrd) :
    decodeWord (encA 0x20 d a b (o ++ amoTyCode t ++ BitVec.ofBool n ++ amoOrdCode r)) = decAmo o.toNat t n r d a b := by
  have op : (o ++ amoTyCode t ++ BitVec.ofBool n ++ amoOrdCode r).extractLsb' 6 5 = o :=
    extract_above rfl <| extract_above rfl extractLsb'_append_eq_left
  have type : (o ++ amoTyCode t ++ BitVec.ofBool n ++ amoOrdCode r).extractLsb' 3 3 = amoTyCode t :=
    extract_above rfl <| extract_above rfl extractLsb'_append_eq_right
  have order : (o ++ amoTyCode t ++ BitVec.ofBool n ++ amoOrdCode r).extractLsb' 0 2 = amoOrdCode r := extractLsb'_append_eq_right
  rw [decodeWord, if_neg (ne_zero_of_fOp (by simp)), fOp_encA, fFn_encA, fD_encA, fA_encA, fB_encA, op, type, order,
    noReturn_of_fn, amoTyOf_eq_some.2 rfl, amoOrdOf_eq_some.2 rfl]; rfl

theorem decodeWord_shi (k : BitVec 8) (z : BitVec 2) (x : BitVec 6) :
    decodeWord (encI 0x09 d a (k ++ z ++ x)) = decShi k.toNat z x d a := by
  rw [decodeWord, if_neg (ne_zero_of_fOp (by simp)), fOp_encI, fImm_encI, fD_encI, fA_encI,
    show (k ++ z ++ x).extractLsb' 8 8 = k from extract_above rfl extractLsb'_append_eq_left,
    show (k ++ z ++ x).extractLsb' 6 2 = z from extract_above rfl extractLsb'_append_eq_right,
    show (k ++ z ++ x).extractLsb' 0 6 = x from extractLsb'_append_eq_right]; rfl

theorem decodeWord_bfx (z : BitVec 3) (sg : BitVec 1) (p l : BitVec 6) :
    decodeWord (encI 0x0A d a (z ++ sg ++ p ++ l)) = decBfx z sg p l d a := by
  rw [decodeWord, if_neg (ne_zero_of_fOp (by simp)), fOp_encI, fImm_encI, fD_encI, fA_encI,
    show (z ++ sg ++ p ++ l).extractLsb' 13 3 = z from extract_above rfl <| extract_above rfl extractLsb'_append_eq_left,
    show (z ++ sg ++ p ++ l).extractLsb' 12 1 = sg from extract_above rfl <| extract_above rfl extractLsb'_append_eq_right,
    show (z ++ sg ++ p ++ l).extractLsb' 6 6 = p from extract_above rfl extractLsb'_append_eq_right,
    show (z ++ sg ++ p ++ l).extractLsb' 0 6 = l from extractLsb'_append_eq_right]; rfl

theorem decodeWord_bfi (z : BitVec 4) (p l : BitVec 6) : decodeWord (encI 0x0B d a (z ++ p ++ l)) = decBfi z p l d a := by
  rw [decodeWord, if_neg (ne_zero_of_fOp (by simp)), fOp_encI, fImm_encI, fD_encI, fA_encI,
    show (z ++ p ++ l).extractLsb' 12 4 = z from extract_above rfl extractLsb'_append_eq_left,
    show (z ++ p ++ l).extractLsb' 6 6 = p from extract_above rfl extractLsb'_append_eq_right,
    show (z ++ p ++ l).extractLsb' 0 6 = l from extractLsb'_append_eq_right]; rfl

theorem decodeWord_fev (r : BitVec 1) (z : BitVec 5) (m : BitVec 2) (y : BitVec 6) (t : BitVec 2) :
    decodeWord (encI 0x10 d a (r ++ z ++ m ++ y ++ t)) = decFev r z m y t d a := by
  rw [decodeWord, if_neg (ne_zero_of_fOp (by simp)), fOp_encI, fImm_encI, fD_encI, fA_encI,
    show (r ++ z ++ m ++ y ++ t).extractLsb' 15 1 = r from extract_above rfl <| extract_above rfl <| extract_above rfl extractLsb'_append_eq_left,
    show (r ++ z ++ m ++ y ++ t).extractLsb' 10 5 = z from extract_above rfl <| extract_above rfl <| extract_above rfl extractLsb'_append_eq_right,
    show (r ++ z ++ m ++ y ++ t).extractLsb' 8 2 = m from extract_above rfl <| extract_above rfl extractLsb'_append_eq_right,
    show (r ++ z ++ m ++ y ++ t).extractLsb' 2 6 = y from extract_above rfl extractLsb'_append_eq_right,
    show (r ++ z ++ m ++ y ++ t).extractLsb' 0 2 = t from extractLsb'_append_eq_right]; rfl

theorem decodeWord_ld (z : BitVec 3) (o : LdOrd) (i : BitVec 11) :
    decodeWord (encI 0x1D d a (z ++ ldOrdCode o ++ i)) = decLd z.toNat (ldOrdCode o).toNat d a i := by
  rw [decodeWord, if_neg (ne_zero_of_fOp (by simp)), fOp_encI, fImm_encI, fD_encI, fA_encI,
    fFn_encI, size_of_imm, order_of_imm]; rfl

theorem decodeWord_st (z : BitVec 3) (o : StOrd) (i : BitVec 11) :
    decodeWord (encI 0x1E d a (z ++ stOrdCode o ++ i)) = decSt z.toNat (stOrdCode o).toNat d a i := by
  rw [decodeWord, if_neg (ne_zero_of_fOp (by simp)), fOp_encI, fImm_encI, fD_encI, fA_encI,
    fFn_encI, size_of_imm, order_of_imm]; rfl

end

/-! ### Checks that an instruction passes (R68) -/

theorem pair_pos {c : Bool} {k : Except Reject Instr} (h : c = true) : pair c k = k := if_pos h

theorem lim_pos {c : Bool} {i : Instr} (h : c = true) : lim c i = .ok i := if_pos h

theorem sprOk_pos {n : BitVec 16} {i : Instr} (h : sprDefined n = true) : sprOk n i = .ok i := if_pos h

theorem sel_some {α : Type} {o : Option α} {x : α} {f : α → Except Reject Instr} (h : o = some x) : sel o f = f x := by rw [h]; rfl

/-- A typed `amo` whose type the operation takes, and whose d its no-return flag allows (R63). -/
theorem amo_pos {c n : Bool} {d : Reg} {i : Instr} (h : (c && nrOk d n) = true) : pair c (amoNr d n i) = .ok i := by
  obtain ⟨hc, hd⟩ := Bool.and_eq_true_iff.1 h
  rw [pair_pos hc, amoNr, if_pos hd]

/-- R47, R58-R66: the decoder of its major gives a well-formed instruction back. -/
theorem decodeWord_encode (i : Instr) (h : i.wellFormed = true) : decodeWord (encode i) = .ok i := by
  cases i with
  | add | sub | and | or | xor | andn | orn | nor | sll | srl | sra | rol | ror | slt | sltn | seq | sne | min | max | minn |
  maxn | adds1 | adds2 | adds3 | sel | clz | ctz | popc | brev | bswap | sxb | sxh | sxw | zxw => exact decodeWord_int ..
  | mul | mulh | mulhn | mulw | div | divn | rem | remn => exact decodeWord_mul ..
  | addi | andi | ori | xori | slti | sltni | beq | bne | blt | bge | bltn | bgen | bany | bnone | dbnz =>
    change decodeWord (encI _ _ _ _) = _
    rw [decodeWord, if_neg (ne_zero_of_fOp (by simp)), fOp_encI, fImm_encI, fD_encI, fA_encI]; rfl
  | slli | srli | srai | roli => exact decodeWord_shi ..
  | bfx | bfxs => exact (decodeWord_bfx ..).trans (lim_pos h)
  | bfi => exact (decodeWord_bfi ..).trans (lim_pos h)
  | ldhi | adpc =>
    change decodeWord (encU _ _ _) = _
    rw [decodeWord, if_neg (ne_zero_of_fOp (by simp)), fOp_encU, fImm21_encU, fD_encU]; rfl
  | fadd | fsub | fmul | ffma | fdiv | fsqrt | fmin | fmax | fsgn | fsgnn | fsgnx =>
    exact (decodeWord_fArith ..).trans (sel_some (fmtOf_eq_some.2 rfl))
  | feq | flt | fle | fclass => exact (decodeWord_fCmp ..).trans (sel_some (fmtOf_eq_some.2 rfl))
  | fcvti | fcvtf =>
    exact (decodeWord_fCmp ..).trans ((sel_some (fmtOf_eq_some.2 rfl)).trans (sel_some (ityOf_eq_some.2 rfl)))
  | fcvtff => exact (decodeWord_fCmp ..).trans ((sel_some (fmtOf_eq_some.2 rfl)).trans (sel_some (fmtOf_eq_some.2 rfl)))
  | fev => exact (decodeWord_fev ..).trans (pair_pos h)
  | fred => exact decodeWord_fev ..
  | jmp | jal =>
    change decodeWord (encJ _ _) = _
    rw [decodeWord, if_neg (ne_zero_of_fOp (by simp)), fOp_encJ, fDisp26_encJ]; rfl
  | jr | jalr | done | callat | reply => exact decodeWord_ctl ..
  | ldB | ldBn | ldH | ldHn | ldW | ldWn | ldD => exact (decodeWord_ld ..).trans (sel_some (ldOrdOf_eq_some.2 rfl))
  | ldQ => exact (decodeWord_ld ..).trans ((sel_some (ldOrdOf_eq_some.2 rfl)).trans (lim_pos h))
  | stB | stH | stW | stD => exact (decodeWord_st ..).trans (sel_some (stOrdOf_eq_some.2 rfl))
  | stQ => exact (decodeWord_st ..).trans ((sel_some (stOrdOf_eq_some.2 rfl)).trans (lim_pos h))
  | amoAdd | amoAnd | amoOr | amoXor | amoMin | amoMax | amoSwap | amoFadd | amoFmin | amoFmax | amoMinn | amoMaxn =>
    exact (decodeWord_amo ..).trans (amo_pos h)
  | amoCas => exact (decodeWord_amo _ _ _ _ _ false _).trans (pair_pos h)
  | amoCasq => exact (decodeWord_amo _ _ _ _ .i64 false _).trans (lim_pos h)
  | oadd | ofadd | ojoin => exact decodeWord_ord ..
  | rdlk | wrlk | rdul | wrul | lkinit => exact decodeWord_lock ..
  | hbind | hwait | hfree | hadv | hlda | hsta => exact (decodeWord_h ..).trans (lim_pos h)
  | hrel => exact decodeWord_h ..
  | nsend | amsg | wopen | mhdl => exact decodeWord_send ..
  | tinit | tdec | tinc | larm | lpatch | lstat | widf | qsync => exact decodeWord_task ..
  | wb | inv | flush | lrenew | pfch => exact decodeWord_cache ..
  | fenceAll | fenceLd | fenceSt | fenceEng => exact (decodeWord_fence ..).trans (sel_some (scopeOf_eq_some.2 rfl))
  | vcvt | vsel | vred | vgath | vscat | vsend | vcopy => exact decodeWord_vec ..
  | vadd | vsub | vmul | vfma | vmin | vmax | vabs | vscl | vcmp | vfev | vrng | vsr | vdrop | vsparse | vmexp | valign |
  vnorm => exact (decodeWord_vec ..).trans (pair_pos h)
  | mlease | mrel | mcfg | mlda | mldb | mstep | mrot | mdrain | mzero | mspm => exact decodeWord_mat ..
  | cpy | cpyt | mcast | join | leave | bfree | mbox | cpst | cabort => exact decodeWord_strm ..
  | tdef | tget | tdrop | dtld | dtchk | cmld | enc | dec => exact decodeWord_tab ..
  | reseed | draw | xcq | ictr | shq => exact decodeWord_tomb ..
  | cgive | cq | cgrp | caccept => exact decodeWord_cap ..
  | cnode | cenr | cdrop | cmove | csettle | cread => exact decodeWord_node ..
  | tlw | tlr | bbinit | bbexp | bbarr | bbq => exact decodeWord_line ..
  | mfs | mts =>
    change decodeWord (encI _ _ _ _) = _
    rw [decodeWord, if_neg (ne_zero_of_fOp (by simp)), fOp_encI, fImm_encI, fD_encI, fA_encI]; exact sprOk_pos h
  | trap | brk | tret | idle | fresume | tlbi | bankctl | ctxsave | ctxload => exact decodeWord_sys ..
  | _ => exact absurd h Bool.false_ne_true

/-- Settles O53, by the form of the instruction's word. -/
theorem decodeOfEncode : Obligations.DecodeOfEncode := decodeWord_encode

end Sys2Proof
end

section
/-! SUPPORT. Words written out from the spec's tables, field by field. -/

namespace Sys2Proof

/-- Settles O60: the decoder runs on each word. -/
theorem sampleWords : Obligations.SampleWords := by
  unfold Obligations.SampleWords
  refine ⟨?_, ?_, ?_, ?_, ?_, ?_, ?_, ?_, ?_, ?_, ?_, ?_, ?_, ?_, ?_, ?_, ?_, ?_, ?_, ?_, ?_, ?refused⟩
  case refused => exact ⟨⟨_, rfl, rfl⟩, ⟨_, rfl, rfl⟩, ⟨_, rfl, rfl⟩, ⟨_, rfl, rfl⟩, ⟨_, rfl, rfl⟩, ⟨_, rfl, rfl⟩⟩
  all_goals rfl
end Sys2Proof
end

section
/-! SUPPORT. No meaning stops the machine: every row of the opcode table, word or event, comes to a next state (R68, R69). -/

namespace Sys2Proof.Machine

open Sys2Proof

/-- The outcome is a next state. -/
def Goes (r : Res) : Prop := ∃ t, r = .next t

theorem goes_next (s : State) : Goes (.next s) := ⟨s, rfl⟩

theorem goes_commit (s u : State) : Goes (commit s u) := ⟨_, rfl⟩

theorem goes_ite {c : Prop} [Decidable c] {a b : Res} (ha : Goes a) (hb : Goes b) : Goes (if c then a else b) := by
  split
  · exact ha
  · exact hb

theorem goes_ended {r : Res} (old : State) (h : Goes r) : Goes (ended old r) := by
  obtain ⟨t, rfl⟩ := h
  exact goes_next _

theorem goes_execFirmwareImageWrite (verified : Bool) (s : State) : Goes (execFirmwareImageWrite verified s) := by
  unfold execFirmwareImageWrite
  split
  · exact goes_next _
  · exact goes_ite (goes_next _) (goes_next _)

/-- Every row, from every state: a trap, a park and a refused request are next states too. -/
theorem exec_goes (i : Instr) (s : State) : Goes (exec i s) := by
  cases i with
  | jr | jalr | interfaceWeight | ownerWeight | recordBuild | idle => exact goes_ite ⟨_, rfl⟩ ⟨_, rfl⟩
  | callat | reply => exact goes_ite (goes_commit _ _) (goes_ite (goes_commit _ _) (goes_commit _ _))
  | firmwareImageWrite => exact goes_execFirmwareImageWrite _ _
  | _ => exact ⟨_, rfl⟩

/-- The move that the model chooses for itself does something; with none, a core takes its issue slot (log 1). -/
theorem autoStep_goes (s : State) : Goes (autoStep s) := by
  unfold autoStep
  cases hm : (autoCandidates s).find? (doesSomething s) with
  | none => exact goes_commit _ _
  | some e =>
    have does : doesSomething s e = true := List.find?_some hm
    unfold doesSomething at does
    split at does
    · next t ht => exact ⟨t, ht⟩
    · cases does

theorem stepTaken_goes {s : State} (h : s.issuing = false → ∀ x ∈ s.agenda.head?, x.ev.isWord = false) : Goes (stepTaken s) := by
  simp only [stepTaken]
  split
  · split
    · exact goes_commit _ _
    · exact exec_goes _ _
  · next hi =>
    split
    · next x r ha =>
      rw [if_neg (by simpa [ha] using h (Bool.eq_false_of_not_eq_true hi))]
      split
      · exact goes_commit _ _
      · exact exec_goes _ _
    · exact autoStep_goes s

/-- Settles O56: what a step takes is a next state, and what every step brings leaves it one. -/
theorem everyStepGoesOn : Obligations.EveryStepGoesOn := fun s h => goes_ended s (stepTaken_goes h)

end Sys2Proof.Machine
end

section
/-! SUPPORT. What a fault and the end of an activation leave of frames, cores, leases and launch records: one rule per operation, in
the order of the model. -/

namespace Sys2Proof.Machine

open Sys2Proof

/-! ### Maps and rings -/

theorem mem_of_find {α : Type} {m : NMap α} {k : Nat} {x : α} (h : NMap.find m k = some x) : (k, x) ∈ m := by
  induction m with
  | nil => cases h
  | cons p r ih =>
    simp only [NMap.find] at h
    split at h
    · next e => cases h; subst e; exact .head _
    · exact .tail _ (ih h)

theorem mem_put {α : Type} {m : NMap α} {k : Nat} {x : α} {p : Nat × α} (h : p ∈ NMap.put m k x) : p = (k, x) ∨ p ∈ m := by
  induction m with
  | nil => exact .inl (List.mem_singleton.1 h)
  | cons q r ih =>
    simp only [NMap.put] at h
    split at h
    · exact List.mem_cons.1 h
    · split at h
      · exact (List.mem_cons.1 h).imp id (.tail _)
      · rcases List.mem_cons.1 h with rfl | h
        · exact .inr (.head _)
        · exact (ih h).imp id (.tail _)

/-- Values changed one by one, each keeping what `q` sees of it. -/
theorem get_map_keeps {α β : Type} (q : α → β) (g : Nat × α → Nat × α) (hk : ∀ p, (g p).1 = p.1) (hg : ∀ p, q (g p).2 = q p.2)
    (m : NMap α) (k : Nat) (d : α) : q (NMap.get (m.map g) k d) = q (NMap.get m k d) := by
  unfold NMap.get
  induction m with
  | nil => rfl
  | cons p r ih =>
    simp only [List.map_cons, NMap.find, hk]
    split
    · exact hg p
    · exact ih

/-- No ring has a lease or a request for one. -/
theorem noLease.ringOf {s : State} (h : noLease s) (r : Nat) : (ringOf s r).lease = none ∧ (ringOf s r).pending = [] := by
  unfold Machine.ringOf NMap.get
  cases e : NMap.find s.rings r with
  | none => exact ⟨rfl, rfl⟩
  | some x => exact h _ (mem_of_find e)

/-- Setting a ring that keeps its lease and the requests for it. -/
theorem noLease.setRing {s : State} (h : noLease s) (r : Nat) (x : RingSt) (hl : x.lease = (Machine.ringOf s r).lease)
    (hp : x.pending = (Machine.ringOf s r).pending) : noLease (setRing s r x) := by
  intro p hp'
  rcases mem_put hp' with rfl | old
  · exact ⟨hl.trans (h.ringOf r).1, hp.trans (h.ringOf r).2⟩
  · exact h p old

/-! ### Frames and cores that last -/

/-- A frame with its fetch buffer and the answer to its lease request set aside. -/
def lasting (f : Frame) : Frame := { f with fbuf := [], lease := none }

/-- A core with its frames and its count of wake events set aside. -/
def lastingCore (c : CoreSt) : CoreSt := { c with frames := [], wakes := 0 }

theorem lastingCore_setFrame (s : State) (c f : Nat) (x : Frame) (a : Nat) :
    lastingCore (coreOf (setFrame s c f x) a) = lastingCore (coreOf s a) := by
  rw [setFrame, coreOf_setCore]
  split
  · next e => rw [e]; rfl
  · rfl

/-- Frames and cores stay, but for fetch buffers, answers to lease requests and wake events, and so does the issuing frame. -/
structure Lasts (s t : State) : Prop where
  cur   : t.cur = s.cur
  core  : ∀ c, lastingCore (coreOf t c) = lastingCore (coreOf s c)
  frame : ∀ c f, lasting (frameOf t c f) = lasting (frameOf s c f)

/-- So do all launch records, and no lease or request for one comes up. -/
structure Spares (s t : State) : Prop extends Lasts s t where
  ifaces : t.ifaces = s.ifaces
  leases : noLease s → noLease t

section
variable {s t u : State}

theorem Lasts.refl (s : State) : Lasts s s := ⟨rfl, fun _ => rfl, fun _ _ => rfl⟩

theorem Lasts.trans (h : Lasts s t) (k : Lasts t u) : Lasts s u :=
  ⟨k.cur.trans h.cur, fun c => (k.core c).trans (h.core c), fun c f => (k.frame c f).trans (h.frame c f)⟩

theorem Lasts.of_cores (e : (t.cores, t.cur) = (s.cores, s.cur)) : Lasts s t := by
  obtain ⟨hc, hcur⟩ := Prod.mk.inj e
  refine ⟨hcur, fun c => ?_, fun c f => ?_⟩
  · rw [coreOf, coreOf, hc]
  · rw [frameOf, frameOf, coreOf, coreOf, hc]

/-- One more change, of no core. -/
theorem Lasts.rest (h : Lasts s t) (e : (u.cores, u.cur) = (t.cores, t.cur)) : Lasts s u := h.trans (.of_cores e)

theorem Lasts.foldl {α : Type} {f : State → α → State} (h : Lasts s t) (hf : ∀ u a, Lasts s u → Lasts s (f u a)) (l : List α) :
    Lasts s (l.foldl f t) :=
  List.foldlRecOn l f h fun u hu a _ => hf u a hu

theorem Lasts.setFrame (h : Lasts s t) (c f : Nat) (x : Frame) (hx : lasting x = lasting (frameOf t c f)) :
    Lasts s (setFrame t c f x) := by
  refine h.trans ⟨rfl, lastingCore_setFrame t c f x, fun a g => ?_⟩
  · rw [frameOf_setFrame]
    split
    · next e => rw [hx, e.1, e.2]
    · rfl

theorem Spares.refl (s : State) : Spares s s := ⟨.refl s, rfl, id⟩

theorem Spares.trans (h : Spares s t) (k : Spares t u) : Spares s u :=
  ⟨h.toLasts.trans k.toLasts, k.ifaces.trans h.ifaces, k.leases ∘ h.leases⟩

/-- One more change, of neither cores nor rings nor interfaces. -/
theorem Spares.rest (h : Spares s t) (e : (u.cores, u.cur, u.rings, u.ifaces) = (t.cores, t.cur, t.rings, t.ifaces)) :
    Spares s u := by
  simp only [Prod.mk.injEq] at e
  obtain ⟨hc, hcur, hr, hi⟩ := e
  exact h.trans ⟨.of_cores (by rw [hc, hcur]), hi, fun hn => by unfold noLease; rw [hr]; exact hn⟩

theorem Spares.ite {c : Prop} [Decidable c] (ht : Spares s t) (hu : Spares s u) : Spares s (if c then t else u) := by
  split <;> assumption

theorem Spares.foldl {α : Type} {f : State → α → State} (h : Spares s t) (hf : ∀ u a, Spares s u → Spares s (f u a)) (l : List α) :
    Spares s (l.foldl f t) :=
  List.foldlRecOn l f h fun u hu a _ => hf u a hu

/-- Setting a ring that keeps its lease and the requests for it. -/
theorem Spares.setRing (h : Spares s t) (r : Nat) (x : RingSt) (hl : x.lease = (Machine.ringOf t r).lease)
    (hp : x.pending = (Machine.ringOf t r).pending) : Spares s (setRing t r x) :=
  h.trans ⟨.of_cores rfl, rfl, fun hn => hn.setRing r x hl hp⟩

/-- Setting a core that keeps what lasts of it and of its frames. -/
theorem Spares.setCore (h : Spares s t) (c : Nat) (x : CoreSt) (hx : lastingCore x = lastingCore (coreOf t c))
    (hf : ∀ f, lasting (NMap.get x.frames f {}) = lasting (frameOf t c f)) : Spares s (setCore t c x) := by
  refine h.trans ⟨⟨rfl, fun a => ?_, fun a f => ?_⟩, rfl, id⟩
  · rw [coreOf_setCore]
    split
    · next e => rw [hx, e]
    · rfl
  · rw [frameOf, coreOf_setCore]
    split
    · next e => rw [hf, e]
    · rfl

/-! ### Requests, and writes of the hardware (R81, R164, R237, R353) -/

theorem Spares.requestAt (h : Spares s t) (owner id : Nat) (at_ : Option Place) (l : List (Nat × Nat)) :
    Spares s (requestAt t owner id at_ l) := by
  cases l with
  | nil => exact h
  | cons => exact h.rest rfl

theorem Spares.requestHome (h : Spares s t) (owner id : Nat) (write : Bool) (ps : List Place) :
    Spares s (requestHome t owner id write ps) := h.foldl (fun _ _ h => h.requestAt ..) _

theorem Spares.discardFetch (h : Spares s t) (locs : List Nat) : Spares s (discardFetch t locs) := by
  unfold Machine.discardFetch
  refine h.foldl (fun u c h => ?_) _
  exact h.setCore c _ (by rfl) fun f => get_map_keeps lasting _ (fun _ => by rfl) (fun _ => by rfl) ..

theorem Spares.recallHost (h : Spares s t) (w : Nat) (locs : List Nat) : Spares s (recallHost t w locs) := .ite h (h.rest rfl)

theorem Spares.settleBytes (h : Spares s t) (w : Nat) : Spares s (settleBytes t w) := by
  refine .recallHost (.discardFetch (.rest (.foldl h (fun u a h => ?_) _) (by rfl)) _) ..
  dsimp only
  split <;> exact h.rest (by rfl)

theorem Spares.markDirty (h : Spares s t) (sectors : List Nat) : Spares s (markDirty t sectors) :=
  h.foldl (fun u a h => by dsimp only; split; exacts [h, h.setRing _ _ rfl rfl]) _

theorem Spares.takeBump (h : Spares s t) (chain cause : List Nat) : Spares s (takeBump t chain cause) := .ite h (h.rest rfl)

theorem Spares.bumpTile (h : Spares s t) (n : Nat) (cause : List Nat) : Spares s (bumpTile t n cause) := by
  unfold Machine.bumpTile
  split
  · exact .takeBump (h.setRing _ _ (by rfl) (by rfl)) ..
  · exact h

theorem Spares.settleWrite (h : Spares s t) (w : Nat) : Spares s (settleWrite t w) :=
  ((h.settleBytes w).markDirty _).foldl (fun _ _ h => h.bumpTile ..) _

theorem Spares.hwWrite (h : Spares s t) (owner a : Nat) (bs : List Byte) (tag : Option Tag) : Spares s (hwWrite t owner a bs tag) := by
  unfold Machine.hwWrite
  exact .settleWrite (.rest (.ite (h.requestHome ..) h) (by rfl)) _

/-! ### Faults (R370) -/

theorem Spares.descCount (h : Spares s t) (owner off : Nat) : Spares s (descCount t owner off) :=
  .ite h (.ite (h.hwWrite ..) h)

theorem Spares.setOwner (h : Spares s t) (n : Nat) (x : Owner) : Spares s (setOwner t n x) := h.rest rfl

theorem Spares.raiseMsix (h : Spares s t) (iface vec : Nat) : Spares s (raiseMsix t iface vec) := h.rest rfl

/-- The entry's number, with the writes that a fault takes: none where the owner has no descriptor. -/
theorem faultEntry_spares (h : Spares s t) (owner kind cause sub core frame : Nat) (addr pc : Word) :
    (faultEntry t owner kind cause sub core frame addr pc).1
        = (if (ownerOf t owner).desc = 0 then none else some (rdNat t ((ownerOf t owner).desc + 32) 8))
      ∧ Spares s (faultEntry t owner kind cause sub core frame addr pc).2 := by
  by_cases e : (ownerOf t owner).desc = 0
  · simp only [faultEntry, if_pos e]
    exact ⟨trivial, h.descCount ..⟩
  · simp only [faultEntry, if_neg e]
    split
    · exact ⟨rfl, .raiseMsix (.setOwner (.hwWrite (.hwWrite (h.hwWrite ..) ..) ..) ..) ..⟩
    · exact ⟨rfl, .ite (.hwWrite (h.hwWrite ..) ..) (h.hwWrite ..)⟩

theorem Spares.faultEntry (h : Spares s t) (owner kind cause sub core frame : Nat) (addr pc : Word) :
    Spares s (faultEntry t owner kind cause sub core frame addr pc).2 := (faultEntry_spares h ..).2

theorem Lasts.countError (h : Lasts s t) (l : Lin) : Lasts s (countError t l) := by
  unfold Machine.countError
  split
  · exact h.rest rfl
  · exact h

theorem Lasts.spares (h : Lasts s t) (k : Spares t u) : Lasts s u := h.trans k.toLasts

/-! ### Leases (R325, R331) -/

theorem Lasts.failParts (h : Lasts s t) (lease : Nat) : Lasts s (failParts t lease) :=
  (h.rest (by rfl)).foldl (fun _ c h => (h.spares (.faultEntry (.refl _) ..)).countError c.lin) _

theorem Lasts.endLease (h : Lasts s t) (ring : Nat) : Lasts s (endLease t ring) := by
  unfold Machine.endLease
  dsimp only
  split
  · exact h
  · exact .failParts (h.rest (by rfl)) _

theorem Lasts.refuseLease (h : Lasts s t) (ring id status : Nat) : Lasts s (refuseLease t ring id status) := by
  unfold Machine.refuseLease
  dsimp only
  split
  · exact h
  · refine (h.rest (by rfl)).foldl (fun u m h => ?_) _
    split
    · exact h.setFrame _ _ _ rfl
    · exact h

theorem Lasts.dropLeases (h : Lasts s t) (core frame act : Nat) : Lasts s (dropLeases t core frame act) := by
  unfold Machine.dropLeases
  refine h.foldl (fun u p h => Lasts.foldl ?_ (fun _ _ h => h.refuseLease ..) _) _
  split
  · split
    · exact h.endLease _
    · exact h
  · exact h

/-- Without leases and requests for one, none is dropped. -/
theorem dropLeases_of_noLease (h : noLease s) (core frame act : Nat) : dropLeases s core frame act = s := by
  unfold Machine.dropLeases
  refine List.foldlRecOn (motive := (· = s)) _ _ rfl fun u hu p _ => ?_
  subst hu
  obtain ⟨hl, hp⟩ := h.ringOf p.1
  simp only [hl, hp, List.filter_nil, List.foldl_nil]

/-! ### Handles, windows and slots (R170, R174, R177) -/

theorem Spares.hwLocal (h : Spares s t) (core owner off : Nat) (bs : List Byte) : Spares s (hwLocal t core owner off bs) := by
  unfold Machine.hwLocal
  split
  · exact h.hwWrite ..
  · exact h

theorem Spares.setHeader (h : Spares s t) (k off : Nat) (x : Header) : Spares s (setHeader t k off x) :=
  .foldl (h.rest (by rfl)) (fun _ _ h => h.hwLocal ..) _

theorem Spares.releaseHandle (h : Spares s t) (k : Nat) (x : Handle) : Spares s (releaseHandle t k x) := by
  unfold Machine.releaseHandle
  split
  · exact h
  · exact h.setHeader ..

theorem Spares.launch (h : Spares s t) (m : Msg) : Spares s (launch t m) := by
  unfold Machine.launch
  dsimp only
  split
  · exact h.rest rfl
  · exact .foldl (h.rest (by rfl)) (fun _ _ h => h.requestAt ..) _

theorem Spares.sendCredit (h : Spares s t) (k off : Nat) (x : Header) : Spares s (sendCredit t k off x) :=
  .ite (.launch (h.rest (by rfl)) _) h

theorem Spares.consumeSlot (h : Spares s t) (k off j : Nat) : Spares s (consumeSlot t k off j) := by
  unfold Machine.consumeSlot
  split
  · exact h
  · exact .ite (h.setHeader ..) ((h.setHeader ..).sendCredit ..)

theorem Spares.wakeCore (h : Spares s t) (core : Nat) : Spares s (wakeCore t core) := h.setCore core _ rfl fun _ => rfl

/-! ### The end of an activation (R137) -/

theorem Spares.pushClose (h : Spares s t) (k frame act w : Nat) (x : Window) (lin : Lin) :
    Spares s (pushClose t k frame act w x lin) := h.rest rfl

/-- Frames and cores stay; where there are no leases, launch records do too. -/
structure Parts (s t : State) : Prop extends Lasts s t where
  spares : noLease s → Spares s t

theorem Parts.trans (h : Parts s t) (k : Spares t u) : Parts s u := ⟨h.toLasts.spares k, fun n => (h.spares n).trans k⟩

theorem Parts.dropLeases (h : Spares s t) (core frame act : Nat) : Parts s (dropLeases t core frame act) :=
  ⟨h.toLasts.dropLeases .., fun n => by rwa [dropLeases_of_noLease (h.leases n)]⟩

theorem Parts.cancelReads (h : Parts s t) (g : Read → Bool) (ids : List Nat) :
    Parts s (cancelAt { t with reads := t.reads.filter g } ids) := h.trans ((Spares.refl t).rest rfl)

theorem Parts.notice (h : Parts s t) (x : List (Msg × List Nat)) :
    Parts s { t with nextId := t.nextId + 1, notices := t.notices ++ x } := h.trans ((Spares.refl t).rest rfl)

/-- A frame without its activation (R44). -/
def freed (f : Frame) : Frame :=
  { owner := f.owner, regs := f.regs, pc := f.pc, wid := f.wid, wfmt := f.wfmt, rmode := f.rmode, fflags := f.fflags,
    reply := f.reply }

/-- The activation in one frame has ended. -/
structure Ends (s t : State) (c f : Nat) : Prop where
  core  : ∀ a, lastingCore (coreOf t a) = lastingCore (coreOf s a)
  frame : ∀ a b, (a, b) ≠ (c, f) → lasting (frameOf t a b) = lasting (frameOf s a b)
  ended : lasting (frameOf t c f) = freed (frameOf s c f)

theorem Lasts.setFreed (h : Lasts s t) (c f : Nat) : Ends s (Machine.setFrame t c f (freed (frameOf s c f))) c f := by
  refine ⟨fun a => ?_, fun a b hab => ?_, ?_⟩
  · rw [lastingCore_setFrame, h.core]
  · rw [frameOf_setFrame, if_neg fun e => hab (Prod.ext e.1 e.2), h.frame]
  · rw [frameOf_setFrame, if_pos ⟨rfl, rfl⟩]
    rfl

theorem Lasts.thenEnds {c f : Nat} (h : Lasts s t) (e : Ends t u c f) : Ends s u c f :=
  ⟨fun a => (e.core a).trans (h.core a), fun a b hab => (e.frame a b hab).trans (h.frame a b),
   e.ended.trans (congrArg freed (h.frame c f) : freed (lasting (frameOf t c f)) = freed (lasting (frameOf s c f)))⟩

theorem Ends.spares {c f : Nat} (e : Ends s t c f) (h : Spares t u) : Ends s u c f :=
  ⟨fun a => (h.core a).trans (e.core a), fun a b hab => (h.frame a b).trans (e.frame a b hab), (h.frame c f).trans e.ended⟩

/-- What an activation holds goes, then its frame is Free and the core counts a wake event. -/
theorem endActivation_eq (s : State) (c f : Nat) :
    ∃ t, Parts s t ∧ endActivation s c f = wakeCore (setFrame t c f (freed (frameOf s c f))) c := by
  have released := (Spares.refl s).foldl (fun _ p h => h.releaseHandle (ctxKey c (frameOf s c f).owner) p.2) (frameOf s c f).handles
  have dropped := Parts.dropLeases released c f (frameOf s c f).act
  refine ⟨_, .cancelReads ?_ .., rfl⟩
  split
  on_goal 1 => split
  on_goal 2 => refine .trans ?_ (.consumeSlot (.refl _) ..)
  all_goals
    split
    on_goal 1 => refine .notice ?_ _
    all_goals exact dropped.trans (.foldl (.refl _) (fun _ _ h => .ite (h.rest (by rfl)) (h.pushClose ..)) _)

theorem endActivation_ends (s : State) (c f : Nat) : Ends s (endActivation s c f) c f := by
  obtain ⟨t, h, e⟩ := endActivation_eq s c f
  rw [e]
  exact (h.setFreed c f).spares (.wakeCore (.refl _) c)

/-- Without leases, no launch record changes. -/
theorem endActivation_ifaces (h : noLease s) (c f : Nat) : (endActivation s c f).ifaces = s.ifaces := by
  obtain ⟨t, k, e⟩ := endActivation_eq s c f
  rw [e]
  exact (k.spares h).ifaces

namespace Ends

variable {c f a b : Nat} (e : Ends s t c f)
include e

theorem st : (frameOf t c f).st = .free := (congrArg Frame.st e.ended :)
theorem handles : (frameOf t c f).handles = [] := (congrArg Frame.handles e.ended :)
theorem windows : (frameOf t c f).windows = [] := (congrArg Frame.windows e.ended :)
theorem owed : (frameOf t c f).owed = [] := (congrArg Frame.owed e.ended :)
theorem regs : (frameOf t c f).regs = (frameOf s c f).regs := (congrArg Frame.regs e.ended :)

theorem others (h : (a, b) ≠ (c, f)) :
    (frameOf t a b).regs = (frameOf s a b).regs ∧ (frameOf t a b).pc = (frameOf s a b).pc :=
  have k := e.frame a b h
  ⟨(congrArg Frame.regs k :), (congrArg Frame.pc k :)⟩

end Ends

theorem Lasts.frame_regs_pc (h : Lasts s t) (a b : Nat) :
    (frameOf t a b).regs = (frameOf s a b).regs ∧ (frameOf t a b).pc = (frameOf s a b).pc :=
  have k := h.frame a b
  ⟨(congrArg Frame.regs k :), (congrArg Frame.pc k :)⟩

/-! ### The outcomes of a trap (R364, R366, R368) -/

theorem Lasts.endActivation (h : Lasts s t) (c f : Nat) : Ends s (endActivation t c f) c f := h.thenEnds (endActivation_ends ..)

theorem Lasts.fault_error (h : Lasts s t) (owner kind cause sub core frame : Nat) (addr pc : Word) (l : Lin) :
    Lasts s (Machine.countError (faultEntry t owner kind cause sub core frame addr pc).2 l) :=
  (h.spares (.faultEntry (.refl _) ..)).countError l

theorem terminate_ends (s : State) (c f cause sub : Nat) (addr pc : Word) : Ends s (terminate s c f cause sub addr pc) c f :=
  ((Lasts.refl s).fault_error ..).endActivation c f

theorem recOf_of_ifaces {s t : State} (h : t.ifaces = s.ifaces) (i n : Nat) : recOf t i n = recOf s i n := by
  rw [recOf, recOf, ifaceOf, ifaceOf, h]

/-- ERRORS of the lineage's launch rises by one. -/
theorem terminate_errors (h : noLease s) (c f cause sub : Nat) (addr pc : Word) {i n : Nat}
    (hl : (frameOf s c f).lin.launch = some (i, n)) :
    (recOf (terminate s c f cause sub addr pc) i n).errors = min ((recOf s i n).errors + 1) (2 ^ 32 - 1) := by
  have k := Spares.faultEntry (.refl s) (frameOf s c f).owner 2 cause sub c f addr pc
  have counted : countError (faultEntry s (frameOf s c f).owner 2 cause sub c f addr pc).2 (frameOf s c f).lin
      = setRec (faultEntry s (frameOf s c f).owner 2 cause sub c f addr pc).2 i n
          { recOf s i n with errors := min ((recOf s i n).errors + 1) (2 ^ 32 - 1) } := by
    rw [countError, hl, ← recOf_of_ifaces k.ifaces]
  have hn : noLease (countError (faultEntry s (frameOf s c f).owner 2 cause sub c f addr pc).2 (frameOf s c f).lin) := by
    rw [counted]
    exact k.leases h
  rw [terminate, recOf_of_ifaces (endActivation_ifaces hn c f), counted, recOf_setRec_same]

/-- A recoverable fault parks the frame, which keeps what lasts of it; without a descriptor the activation ends. -/
theorem faultPark_parks (s : State) (c f cause : Nat) (addr pc : Word) (read : Option Nat)
    (hd : (ownerOf s (frameOf s c f).owner).desc ≠ 0) :
    ∃ t, Lasts s t ∧ faultPark s c f cause addr pc read = setFrame t c f { frameOf t c f with
      st := .parked [.fault (rdNat s ((ownerOf s (frameOf s c f).owner).desc + 32) 8) addr cause read], since := t.clk } := by
  obtain ⟨hseq, h⟩ := faultEntry_spares (.refl s) (frameOf s c f).owner 0 cause 0 c f addr pc
  rw [if_neg hd] at hseq
  refine ⟨_, h.toLasts, ?_⟩
  unfold faultPark
  dsimp only
  split
  · next seq t e =>
    rw [e] at hseq ⊢
    simp only [Option.some.injEq] at hseq
    rw [hseq]
  · next t e => rw [e] at hseq; exact (Option.some_ne_none _ hseq.symm).elim

theorem faultPark_ends (s : State) (c f cause : Nat) (addr pc : Word) (read : Option Nat)
    (hd : (ownerOf s (frameOf s c f).owner).desc = 0) : Ends s (faultPark s c f cause addr pc read) c f := by
  have h := Lasts.fault_error (.refl s) (frameOf s c f).owner 0 cause 0 c f addr pc (frameOf s c f).lin
  have hseq := (faultEntry_spares (.refl s) (frameOf s c f).owner 0 cause 0 c f addr pc).1
  rw [if_pos hd] at hseq
  unfold faultPark
  dsimp only
  split
  · next seq t e => rw [e] at hseq; exact (Option.some_ne_none _ hseq).elim
  · next t e => rw [e] at h; exact h.endActivation c f

/-- The core has left its handler. -/
def handlerLeft (s : State) : State := setCore s s.cur.1 { curCore s with sup := false, hregs := Vector.replicate 32 0 }

theorem Lasts.endCurrent (h : Lasts s t) : Ends s (Machine.endActivation t t.cur.1 t.cur.2) s.cur.1 s.cur.2 := by
  rw [h.cur]
  exact h.endActivation ..

theorem doubleTrap_ends (s : State) : Ends (handlerLeft s) (doubleTrap s) s.cur.1 s.cur.2 :=
  Ends.spares (t := Machine.endActivation _ _ _) (Lasts.endCurrent (.fault_error (.refl (handlerLeft s)) ..)) (.descCount (.refl _) 0 56)

theorem frameOf_setCore_frames (s : State) (c : Nat) (x : CoreSt) (hx : x.frames = (coreOf s c).frames) (a b : Nat) :
    frameOf (setCore s c x) a b = frameOf s a b := by
  rw [frameOf, frameOf, coreOf_setCore]
  split
  · next e => rw [hx, e]
  · rfl

section
variable (s : State) (cause sub : Nat) (addr pc : Word) (owner : Nat)

/-- While the core runs no handler. -/
theorem writeTrapRegs_of_sup_false (h : (curCore s).sup = false) : writeTrapRegs s cause sub addr pc owner
    = setCore s s.cur.1 { curCore s with epc := pc, ecause := word (cause + sub * 2 ^ 8 + owner * 2 ^ 16), eaddr := addr } :=
  if_neg (Bool.eq_false_iff.1 h)

theorem writeTrapRegs_of_sup (h : (curCore s).sup = true) : writeTrapRegs s cause sub addr pc owner = s :=
  if_pos h

theorem writeTrapRegs_cores : ∃ x, writeTrapRegs s cause sub addr pc owner = { s with cores := x } := by
  cases h : (curCore s).sup with
  | true => exact ⟨_, writeTrapRegs_of_sup _ _ _ _ _ _ h⟩
  | false => exact ⟨_, writeTrapRegs_of_sup_false _ _ _ _ _ _ h⟩

theorem writeTrapRegs_frameOf (a b : Nat) : frameOf (writeTrapRegs s cause sub addr pc owner) a b = frameOf s a b := by
  cases h : (curCore s).sup with
  | true => rw [writeTrapRegs_of_sup _ _ _ _ _ _ h]
  | false =>
    rw [writeTrapRegs_of_sup_false _ _ _ _ _ _ h]
    exact frameOf_setCore_frames _ _ _ (by rfl) ..

/-- A trap outside the handler, of any cause but TRAP and BRK. -/
theorem trap_outside (ht : cause ≠ 0x0E) (hb : cause ≠ 0x0F) (hh : inHandler s = false) (recoverable : Bool) :
    trap s cause sub addr recoverable
      = if recoverable then faultPark (writeTrapRegs s cause sub addr (curPc s) (curOwner s)) s.cur.1 s.cur.2 cause addr (curPc s) none
        else terminate (writeTrapRegs s cause sub addr (curPc s) (curOwner s)) s.cur.1 s.cur.2 cause sub addr (curPc s) := by
  obtain ⟨x, e⟩ := writeTrapRegs_cores s cause sub addr (curPc s) (curOwner s)
  rw [trap, if_neg (Bool.eq_false_iff.1 hh), if_neg (not_or.2 ⟨ht, hb⟩)]
  dsimp only
  rw [e]

end

end

theorem curOwner_outside {s : State} (h : inHandler s = false) : curOwner s = (curFrame s).owner :=
  if_neg (Bool.eq_false_iff.1 h)

/-- Settles O8: a trap takes the outcome of its cause, whose fault entry (`faultEntry_spares`) and end of the activation
(`endActivation_ends`) leave the frames and cores that R364 names as they were. -/
theorem trapOutcomes : Obligations.TrapOutcomes := by
  unfold Obligations.TrapOutcomes
  refine ⟨fun s cause sub addr ht hb hh => ?_, fun s cause addr ht hb hh => ?_, fun s cause sub addr rec hh => ?_⟩
  case refine_1 =>
    intro c f t
    have et : t = terminate (writeTrapRegs s cause sub addr (curPc s) (curOwner s)) c f cause sub addr (curPc s) :=
      (trap_outside s cause sub addr ht hb hh false).trans (if_neg Bool.false_ne_true)
    have e : Ends (writeTrapRegs s cause sub addr (curPc s) (curOwner s)) t c f := et ▸ terminate_ends ..
    have hregs := e.regs
    have hothers := @e.others
    have hcore := e.core c
    simp only [writeTrapRegs_frameOf] at hregs hothers
    refine ⟨e.st, e.handles, e.windows, e.owed, hregs, hothers, fun h => ?_, fun h => ?_, fun i n hn hl => ?_⟩
    · rw [writeTrapRegs_of_sup_false _ _ _ _ _ _ h, coreOf_setCore, if_pos rfl] at hcore
      exact ⟨(congrArg CoreSt.epc hcore :), (congrArg CoreSt.eaddr hcore :), (congrArg CoreSt.ecause hcore :)⟩
    · rw [writeTrapRegs_of_sup _ _ _ _ _ _ h] at hcore
      exact ⟨(congrArg CoreSt.epc hcore :), (congrArg CoreSt.ecause hcore :), (congrArg CoreSt.eaddr hcore :)⟩
    · obtain ⟨x, ex⟩ := writeTrapRegs_cores s cause sub addr (curPc s) (curOwner s)
      have hl' : (frameOf (writeTrapRegs s cause sub addr (curPc s) (curOwner s)) c f).lin.launch = some (i, n) := by
        rwa [writeTrapRegs_frameOf]
      rw [et, terminate_errors (by rw [ex]; exact hn) _ _ _ _ _ _ hl', ex]
      rfl
  case refine_2 =>
    intro c f d t
    have et : t = faultPark (writeTrapRegs s cause 0 addr (curPc s) (curOwner s)) c f cause addr (curPc s) none :=
      (trap_outside s cause 0 addr ht hb hh true).trans (if_pos rfl)
    have hd : (ownerOf (writeTrapRegs s cause 0 addr (curPc s) (curOwner s))
        (frameOf (writeTrapRegs s cause 0 addr (curPc s) (curOwner s)) c f).owner).desc = d := by
      obtain ⟨x, ex⟩ := writeTrapRegs_cores s cause 0 addr (curPc s) (curOwner s)
      rw [writeTrapRegs_frameOf, show d = _ from congrArg (fun o => (ownerOf s o).desc) (curOwner_outside hh), ex]
      rfl
    by_cases h0 : d = 0
    · have e : Ends (writeTrapRegs s cause 0 addr (curPc s) (curOwner s)) t c f := et ▸ faultPark_ends _ _ _ _ _ _ _ (hd.trans h0)
      have hothers := @e.others
      simp only [writeTrapRegs_frameOf] at hothers
      exact ⟨fun h => absurd h0 h, fun _ => e.st, hothers⟩
    · obtain ⟨u, hu, ep⟩ := faultPark_parks (writeTrapRegs s cause 0 addr (curPc s) (curOwner s)) c f cause addr (curPc s) none
        (hd.trans_ne h0)
      have hat := hu.frame c f
      have hothers := hu.frame_regs_pc
      simp only [writeTrapRegs_frameOf] at hat hothers
      rw [et, ep]
      simp only [frameOf_setFrame, and_self, if_true]
      refine ⟨fun _ => ⟨?_, (congrArg Frame.regs hat :), (congrArg Frame.pc hat :), (congrArg Frame.handles hat :),
        (congrArg Frame.owed hat :)⟩, fun h => absurd h h0, fun a b hab => ?_⟩
      · rw [hd]
        obtain ⟨x, ex⟩ := writeTrapRegs_cores s cause 0 addr (curPc s) (curOwner s)
        rw [ex]
        rfl
      · rw [if_neg fun k => hab (Prod.ext k.1 k.2)]
        exact hothers a b
  case refine_3 =>
    intro t
    have e : Ends (handlerLeft s) t s.cur.1 s.cur.2 := by
      rw [show t = doubleTrap s from if_pos hh]
      exact doubleTrap_ends s
    have hcore := e.core s.cur.1
    rw [handlerLeft, coreOf_setCore, if_pos rfl] at hcore
    refine ⟨(congrArg CoreSt.sup hcore :), (congrArg CoreSt.hregs hcore :), e.st, fun a b h => ?_⟩
    have := e.others h
    rwa [handlerLeft, frameOf_setCore_frames _ _ _ (by rfl)] at this

end Sys2Proof.Machine
end


section
/-! SUPPORT. What the end of a step ages: readiness does not depend on the ages of frames, so that each frame listed is aged once. -/

namespace Sys2Proof.Machine

open Sys2Proof

/-! ### Frames that differ in their age alone (R128, R132) -/

/-- A frame with its Ready age set aside. -/
def ageless (f : Frame) : Frame := { f with since := 0, gatedFor := 0, readyFor := 0 }

/-- Frames differ in their ages alone, and nothing else differs. -/
structure Ages (t u : State) : Prop where
  rest  : ∃ x, u = { t with cores := x }
  core  : ∀ c, { coreOf u c with frames := (coreOf t c).frames } = coreOf t c
  frame : ∀ c g, ageless (frameOf u c g) = ageless (frameOf t c g)
  fused : ∀ o r, fusedWanted u o r = fusedWanted t o r

theorem any_put {α : Type} (m : NMap α) (k : Nat) (x : α) (p : Nat × α → Bool)
    (h : p (k, x) = (NMap.find m k).any fun y => p (k, y)) : (NMap.put m k x).any p = m.any p := by
  induction m with
  | nil => simpa [NMap.put, NMap.find] using h
  | cons q r ih =>
    simp only [NMap.put]
    split
    · rw [List.any_cons]
      cases hp : p (k, x) with
      | false => rw [Bool.false_or]
      | true =>
        rw [hp] at h
        obtain ⟨z, hz, pz⟩ := (Option.any_eq_true ..).1 h.symm
        rw [Bool.true_or, List.any_eq_true.2 ⟨_, mem_of_find hz, pz⟩]
    · split
      · next e =>
        subst e
        rw [List.any_cons, List.any_cons, h, NMap.find, if_pos rfl, Option.any_some]
      · next e =>
        rw [NMap.find, if_neg (Ne.symm e)] at h
        rw [List.any_cons, List.any_cons, ih h]

section
variable {t u : State}

theorem Ages.refl (t : State) : Ages t t := ⟨⟨_, rfl⟩, fun _ => rfl, fun _ _ => rfl, fun _ _ => rfl⟩

theorem Ages.trans {v : State} (h : Ages t u) (k : Ages u v) : Ages t v := by
  obtain ⟨x, rfl⟩ := h.rest
  obtain ⟨y, rfl⟩ := k.rest
  refine ⟨⟨y, rfl⟩, fun c => ?_, fun c g => (k.frame c g).trans (h.frame c g), fun o r => (k.fused o r).trans (h.fused o r)⟩
  rw [← h.core c, ← k.core c]

/-- A frame's activation of a fused launch does not depend on its age. -/
theorem ofFused_ageless (s : State) {x y : Frame} (h : ageless x = ageless y) : ofFused s x = ofFused s y :=
  (congrArg (ofFused s) h : ofFused s (ageless x) = ofFused s (ageless y))

theorem Ages.setFrame (c g : Nat) (x : Frame) (hx : ageless x = ageless (frameOf t c g)) : Ages t (setFrame t c g x) := by
  refine ⟨⟨_, rfl⟩, fun a => ?_, fun a b => ?_, fun o r => ?_⟩
  · rw [Machine.setFrame, coreOf_setCore]
    split
    · next e => rw [e]
    · rfl
  · rw [frameOf_setFrame]
    split
    · next e => rw [hx, e.1, e.2]
    · rfl
  · have wanted (y : Frame) (hy : ageless x = ageless y) :
        (x.owner == o && ofFused t x) = (y.owner == o && ofFused t y) := by
      rw [ofFused_ageless t hy, show x.owner = y.owner from (congrArg Frame.owner hy :)]
    have frames : (NMap.put (coreOf t c).frames g x).any (fun f => f.2.owner == o && ofFused t f.2)
        = (coreOf t c).frames.any fun f => f.2.owner == o && ofFused t f.2 := by
      refine any_put _ _ _ _ ?_
      unfold frameOf NMap.get at hx
      cases e : NMap.find (coreOf t c).frames g with
      | none => rw [e] at hx; exact (wanted _ hx).trans (by simp [ofFused])
      | some y => rw [e] at hx; exact wanted _ hx
    refine any_put t.cores c _ _ ?_
    unfold coreOf NMap.get at frames ⊢
    cases e : NMap.find t.cores c with
    | none =>
      rw [e] at frames
      simp only [Option.any_none, Bool.and_eq_false_iff]
      exact .inr frames
    | some y => rw [e] at frames; exact congrArg (ringOfCore t c == r && ·) frames

/-! ### Readiness does not depend on ages (R127) -/

/-- The same frame issues in both. -/
theorem Ages.at (h : Ages t u) (c g : Nat) : Ages { t with cur := (c, g) } { u with cur := (c, g) } := by
  obtain ⟨x, rfl⟩ := h.rest
  exact ⟨⟨x, rfl⟩, h.core, h.frame, h.fused⟩

section
variable (h : Ages t u)
include h

theorem Ages.coreField {α : Type} (p : CoreSt → α) (hp : ∀ x l, p { x with frames := l } = p x) (c : Nat) :
    p (coreOf u c) = p (coreOf t c) := by
  rw [← h.core c]
  exact (hp ..).symm

theorem Ages.frameField {α : Type} (p : Frame → α) (hp : ∀ x, p (ageless x) = p x) (c g : Nat) :
    p (frameOf u c g) = p (frameOf t c g) := by
  rw [← hp, h.frame c g, hp]

theorem Ages.sup (c : Nat) : (coreOf u c).sup = (coreOf t c).sup := h.coreField CoreSt.sup (fun _ _ => rfl) c
theorem Ages.supFrame (c : Nat) : (coreOf u c).supFrame = (coreOf t c).supFrame := h.coreField CoreSt.supFrame (fun _ _ => rfl) c
theorem Ages.supFrom (c : Nat) : (coreOf u c).supFrom = (coreOf t c).supFrom := h.coreField CoreSt.supFrom (fun _ _ => rfl) c

theorem Ages.banksOf (c o : Nat) : banksOf u c o = banksOf t c o := by
  rw [Machine.banksOf, Machine.banksOf, h.coreField CoreSt.banks (fun _ _ => rfl)]

theorem Ages.localLoc (c o off : Nat) : localLoc u c o off = localLoc t c o off := by
  rw [Machine.localLoc, Machine.localLoc, h.banksOf]

theorem Ages.fetchWord (a : Nat) : fetchWord u a = fetchWord t a := by
  obtain ⟨x, rfl⟩ := h.rest
  rfl

theorem Ages.nextWord (c g : Nat) : nextWord u c g = nextWord t c g := by
  simp only [Machine.nextWord, fetchLoc, h.localLoc, funext h.fetchWord, h.sup, h.supFrame,
    h.coreField CoreSt.hpc (fun _ _ => rfl), h.frameField Frame.again (fun _ => rfl), h.frameField Frame.word (fun _ => rfl),
    h.frameField Frame.fbuf (fun _ => rfl), h.frameField Frame.pc (fun _ => rfl), h.frameField Frame.owner (fun _ => rfl)]

theorem Ages.owesNone (c g : Nat) : owesNone u c g = owesNone t c g := by
  simp only [Machine.owesNone, h.nextWord, h.sup, h.supFrame, h.frameField Frame.owed (fun _ => rfl)]

theorem Ages.l1Line (c o pa treat : Nat) : l1Line u c o pa treat = l1Line t c o pa treat := by
  have e (n : Nat) : (coreOf u n).l1 = (coreOf t n).l1 := h.coreField CoreSt.l1 (fun _ _ => rfl) n
  obtain ⟨x, rfl⟩ := h.rest
  simp only [Machine.l1Line, e]
  rfl

theorem Ages.faultsNow (o : Nat) (g : Tgt) : faultsNow u o g = faultsNow t o g := by
  have e := h.localLoc
  obtain ⟨x, rfl⟩ := h.rest
  cases g with
  | pa a => rfl
  | loc c off => simp only [Machine.faultsNow, e]; rfl

theorem Ages.faultAhead (c g : Nat) : faultAhead u c g = faultAhead t c g := by
  have reads : u.reads = t.reads := by obtain ⟨x, rfl⟩ := h.rest; rfl
  have reqs : u.reqs = t.reqs := by obtain ⟨x, rfl⟩ := h.rest; rfl
  have lost : lostAt u = lostAt t := by obtain ⟨x, rfl⟩ := h.rest; rfl
  simp only [Machine.faultAhead, h.sup, h.supFrame, h.supFrom, h.frameField Frame.act (fun _ => rfl), h.faultsNow, h.l1Line,
    reads, reqs, lost]

theorem Ages.cur : u.cur = t.cur := by obtain ⟨x, rfl⟩ := h.rest; rfl

theorem Ages.inHandler : inHandler u = inHandler t := by
  rw [Machine.inHandler, Machine.inHandler, curCore, curCore, h.cur, h.sup, h.supFrame]

theorem Ages.curOwner : curOwner u = curOwner t := by
  rw [Machine.curOwner, Machine.curOwner, h.inHandler, curFrame, curFrame, h.cur, h.frameField Frame.owner (fun _ => rfl)]

theorem Ages.rd (r : Reg) : rd u r = rd t r := by
  simp only [Machine.rd, h.inHandler, curCore, curFrame, h.cur, h.coreField CoreSt.hregs (fun _ _ => rfl),
    h.frameField Frame.regs (fun _ => rfl)]

theorem Ages.whereIs (c o : Nat) (extra : List Xlat) (va : Word) (acc : Nat) : whereIs u c o extra va acc = whereIs t c o extra va acc := by
  have size : localSize u c o = localSize t c o := by rw [localSize, localSize, h.banksOf]
  have tlb : (coreOf u c).tlb = (coreOf t c).tlb := h.coreField CoreSt.tlb (fun _ _ => rfl) c
  obtain ⟨x, rfl⟩ := h.rest
  simp only [Machine.whereIs, size, tlb]
  rfl

theorem Ages.missesL1 (k pa treat : Nat) : missesL1 u k pa treat = missesL1 t k pa treat := by
  rw [Machine.missesL1, Machine.missesL1, h.l1Line]

theorem Ages.missesOf (k : Nat) : missesOf u k = missesOf t k := by obtain ⟨x, rfl⟩ := h.rest; rfl

theorem Ages.fusedDue (o c : Nat) : fusedDue u o (ringOfCore u c) = fusedDue t o (ringOfCore t c) := by
  have e := h.fused
  obtain ⟨x, rfl⟩ := h.rest
  exact congrArg (fun b => _ || (_ != b)) (e o (ringOfCore t c))

theorem Ages.accessHeld (c g : Nat) (w : BitVec 32) : accessHeld u c g w = accessHeld t c g w := by
  have k := h.at c g
  have walked : (curFrame { u with cur := (c, g) }).walked = (curFrame { t with cur := (c, g) }).walked :=
    k.frameField Frame.walked (fun _ => rfl) c g
  simp only [Machine.accessHeld, k.curOwner, k.fusedDue, k.missesOf, effAddr, k.rd, k.whereIs, k.missesL1, walked]

/-- Readiness does not depend on ages. -/
theorem Ages.frameReady (c g : Nat) : frameReady u c g = frameReady t c g := by
  simp only [Machine.frameReady, h.frameField Frame.st (fun _ => rfl), h.owesNone, h.faultAhead, h.nextWord, h.accessHeld]

theorem Ages.gatedNow (c g : Nat) (f : Frame) : gatedNow u c f g = gatedNow t c f g := by
  have clk : u.clk = t.clk := by obtain ⟨x, rfl⟩ := h.rest; rfl
  simp only [Machine.gatedNow, h.coreField CoreSt.gate (fun _ _ => rfl), h.coreField CoreSt.gatedAt (fun _ _ => rfl), clk]

theorem Ages.clk : u.clk = t.clk := by obtain ⟨x, rfl⟩ := h.rest; rfl

end

end

/-! ### Every frame listed is aged once (R128, R132) -/

/-- A frame as the end of a step leaves it. -/
def agedFrame (old t : State) (c g : Nat) : Frame :=
  let y := frameOf t c g
  if frameReady t c g && !frameReady old c g then { y with since := t.clk, gatedFor := 0 }
  else if frameReady old c g && !frameReady t c g && y.st == .active then
    { y with readyFor := readyWait t c g, since := t.clk, gatedFor := 0 }
  else y

theorem agedFrame_ageless (old t : State) (c g : Nat) : ageless (agedFrame old t c g) = ageless (frameOf t c g) := by
  unfold agedFrame
  dsimp only
  split
  · rfl
  · split <;> rfl

/-- A frame that the core does not have is left so. -/
theorem agedFrame_of_free {old t : State} {c g : Nat} (h : (frameOf t c g).st = .free) : agedFrame old t c g = frameOf t c g := by
  have hr : frameReady t c g = false := by simp [frameReady, h]
  simp [agedFrame, hr, h]

/-- On the way: each frame is as it was, or aged. -/
structure Aging (old t u : State) : Prop extends Ages t u where
  each : ∀ c g, frameOf u c g = frameOf t c g ∨ frameOf u c g = agedFrame old t c g

section
variable {old t u : State}

/-- Aging a frame, the first time or again. -/
theorem Aging.ageFrame_eq (h : Aging old t u) (c g : Nat) :
    ageFrame old u c g = setFrame u c g (agedFrame old t c g)
      ∨ ageFrame old u c g = u ∧ frameOf u c g = agedFrame old t c g := by
  have hst : (frameOf u c g).st = (frameOf t c g).st := h.frameField Frame.st (fun _ => rfl) c g
  simp only [ageFrame, h.frameReady, h.clk, hst]
  by_cases ready : frameReady t c g && !frameReady old c g
  · have e : agedFrame old t c g = { frameOf t c g with since := t.clk, gatedFor := 0 } := if_pos ready
    rw [if_pos ready]
    refine .inl (congrArg (setFrame u c g) ?_)
    rcases h.each c g with k | k
    · rw [k, e]
    · rw [k, e]
  · by_cases waits : frameReady old c g && !frameReady t c g && (frameOf t c g).st == .active
    · have e : agedFrame old t c g = { frameOf t c g with readyFor := readyWait t c g, since := t.clk, gatedFor := 0 } :=
        (if_neg ready).trans (if_pos waits)
      rw [if_neg ready, if_pos waits]
      refine .inl (congrArg (setFrame u c g) ?_)
      rcases h.each c g with k | k
      · have w : readyWait u c g = readyWait t c g := by simp only [readyWait, k, h.clk, h.gatedNow]
        rw [k, e, w]
      · have w : readyWait u c g = readyWait t c g := by simp [readyWait, k, e, h.clk]
        rw [k, e, w]
    · have e : agedFrame old t c g = frameOf t c g := (if_neg ready).trans (if_neg waits)
      rw [if_neg ready, if_neg waits, e]
      exact .inr ⟨rfl, (h.each c g).elim id (·.trans e)⟩

theorem Aging.ageFrame (h : Aging old t u) (c g : Nat) :
    Aging old t (ageFrame old u c g) ∧ frameOf (ageFrame old u c g) c g = agedFrame old t c g
      ∧ ∀ a b, (a, b) ≠ (c, g) → frameOf (ageFrame old u c g) a b = frameOf u a b := by
  rcases h.ageFrame_eq c g with e | ⟨e, done⟩
  · rw [e]
    refine ⟨⟨h.toAges.trans (.setFrame c g _ ((agedFrame_ageless ..).trans (h.frame c g).symm)), fun a b => ?_⟩, ?_, fun a b n => ?_⟩
    · rw [frameOf_setFrame]
      split
      · next e => rw [e.1, e.2]; exact .inr rfl
      · exact h.each a b
    · rw [frameOf_setFrame, if_pos ⟨rfl, rfl⟩]
    · rw [frameOf_setFrame, if_neg fun e => n (Prod.ext e.1 e.2)]
  · rw [e]
    exact ⟨h, done, fun _ _ _ => rfl⟩

theorem Aging.foldl (h : Aging old t u) (l : List (Nat × Nat)) :
    Aging old t (l.foldl (fun s p => Machine.ageFrame old s p.1 p.2) u)
      ∧ ∀ a b, (a, b) ∈ l ∨ frameOf u a b = agedFrame old t a b →
          frameOf (l.foldl (fun s p => Machine.ageFrame old s p.1 p.2) u) a b = agedFrame old t a b := by
  induction l generalizing u with
  | nil => exact ⟨h, fun a b k => k.resolve_left (List.not_mem_nil)⟩
  | cons p r ih =>
    obtain ⟨k, done, others⟩ := h.ageFrame p.1 p.2
    refine ⟨(ih k).1, fun a b hab => (ih k).2 a b ?_⟩
    by_cases e : (a, b) = p
    · subst e; exact .inr done
    · rw [others a b e]
      exact hab.imp_left fun m => (List.mem_cons.1 m).resolve_left e

end

/-- The frames that the cores list. -/
def framesListed (s : State) : List (Nat × Nat) := s.cores.flatMap fun c => c.2.frames.map fun f => (c.1, f.1)

/-- A frame that no core lists is Free. -/
theorem frameOf_of_not_listed {s : State} {c g : Nat} (h : (c, g) ∉ framesListed s) : frameOf s c g = {} := by
  unfold frameOf coreOf NMap.get
  cases hc : NMap.find s.cores c with
  | none => rfl
  | some x =>
    cases hf : NMap.find x.frames g with
    | none => simp [hf]
    | some y => exact absurd (List.mem_flatMap.2 ⟨_, mem_of_find hc, List.mem_map_of_mem (f := fun f => (c, f.1)) (mem_of_find hf)⟩) h

/-- The end of a step ages every frame. -/
theorem aged_all (old t : State) (c g : Nat) :
    frameOf ((framesListed t).foldl (fun s p => ageFrame old s p.1 p.2) t) c g = agedFrame old t c g := by
  refine (Aging.foldl ⟨.refl t, fun _ _ => .inl rfl⟩ (framesListed t)).2 c g ?_
  by_cases m : (c, g) ∈ framesListed t
  · exact .inl m
  · exact .inr (agedFrame_of_free (by rw [frameOf_of_not_listed m])).symm

/-! ### Owners that are to enter or leave the fused state (R235) -/

/-- A ring with the owners noted there set aside. -/
def unnoted (r : RingSt) : RingSt := { r with leaving := [], entering := [] }

theorem eq_of_unnoted {x y : RingSt} (h : unnoted x = unnoted y) : { x with leaving := y.leaving, entering := y.entering } = y :=
  (congrArg (fun z : RingSt => { z with leaving := y.leaving, entering := y.entering }) h :)

/-- Nothing changes but the owners noted at rings. -/
structure Notes (s t : State) : Prop where
  rest : ∃ y, t = { s with rings := y }
  ring : ∀ r, unnoted (ringOf t r) = unnoted (ringOf s r)

theorem Notes.setRing {s t : State} (h : Notes s t) (r : Nat) (x : RingSt) (hx : unnoted x = unnoted (ringOf t r)) :
    Notes s (setRing t r x) := by
  obtain ⟨y, rfl⟩ := h.rest
  refine ⟨⟨_, rfl⟩, fun a => ?_⟩
  rw [ringOf_setRing]
  split
  · next e => rw [hx, h.ring, e]
  · exact h.ring a

theorem noteFused_notes (s : State) : Notes s (noteFused s) := by
  unfold noteFused
  refine List.foldlRecOn (motive := Notes s) _ _ ⟨⟨_, rfl⟩, fun r => ?_⟩ fun u h p _ => ?_
  · exact get_map_keeps unnoted _ (fun _ => by rfl) (fun _ => by rfl) ..
  · dsimp only
    split
    · exact h
    · exact h.setRing _ _ rfl

/-! ### The end of a step -/

section
variable (old t : State)

/-- The frames age, then the rings note owners. -/
theorem stepEnd_notes : ∃ u, Aging old t u ∧ (∀ c g, frameOf u c g = agedFrame old t c g) ∧ Notes u (stepEnd old t) :=
  ⟨_, (Aging.foldl ⟨.refl t, fun _ _ => .inl rfl⟩ (framesListed t)).1, aged_all old t, noteFused_notes _⟩

theorem stepEnd_rest : { stepEnd old t with cores := t.cores, rings := t.rings } = t := by
  obtain ⟨u, h, _, n⟩ := stepEnd_notes old t
  obtain ⟨x, rfl⟩ := h.rest
  obtain ⟨y, e⟩ := n.rest
  rw [e]

theorem coreOf_stepEnd (c : Nat) : { coreOf (stepEnd old t) c with frames := (coreOf t c).frames } = coreOf t c := by
  obtain ⟨u, h, _, n⟩ := stepEnd_notes old t
  obtain ⟨y, e⟩ := n.rest
  rw [e]
  exact h.core c

theorem ringOf_stepEnd (r : Nat) :
    { ringOf (stepEnd old t) r with leaving := (ringOf t r).leaving, entering := (ringOf t r).entering } = ringOf t r := by
  obtain ⟨u, h, _, n⟩ := stepEnd_notes old t
  have k := n.ring r
  obtain ⟨x, rfl⟩ := h.rest
  exact eq_of_unnoted k

theorem frameOf_stepEnd (c g : Nat) : frameOf (stepEnd old t) c g = agedFrame old t c g := by
  obtain ⟨u, _, aged, n⟩ := stepEnd_notes old t
  obtain ⟨y, e⟩ := n.rest
  rw [e]
  exact aged c g

end

end Sys2Proof.Machine
end

section
/-! SUPPORT. What issuing a word changes (R68-R70, R96, R127, R164, R396). -/

namespace Sys2Proof.Machine

open Sys2Proof

/-- A frame with what issuing notes in it set aside. -/
def unissued (f : Frame) : Frame :=
  { f with word := 0, again := false, granted := false, walked := [], wfault := [], fenceAt := [], fbuf := [], learn := [] }

/-- A charge changes its owner alone. -/
theorem charge_owners (s : State) (o units : Nat) : ∃ x, charge s o units = { s with owners := x } := by
  unfold charge
  dsimp only
  split
  · exact ⟨_, rfl⟩
  · split <;> exact ⟨_, rfl⟩

/-- What issuing leaves unchanged: all but what it notes in its own frame, the writes its context knows, and its owner's charge. -/
structure Issues (s v : State) : Prop where
  rest    : (v.cur, v.issuing, v.mem, v.wbuf, v.clk, v.net, v.log) = (s.cur, s.issuing, s.mem, s.wbuf, s.clk, s.net, s.log)
  core    : ∀ c, lastingCore (coreOf v c) = lastingCore (coreOf s c)
  own     : unissued (curFrame v) = unissued (curFrame s)
  others  : ∀ c g, (c, g) ≠ s.cur → frameOf v c g = frameOf s c g
  queue   : ∀ k, (ctxOf v k).queue = (ctxOf s k).queue

section
variable {s v : State}

theorem Issues.refl (s : State) : Issues s s := ⟨rfl, fun _ => rfl, rfl, fun _ _ _ => rfl, fun _ => rfl⟩

theorem Issues.cur (h : Issues s v) : v.cur = s.cur := congrArg Prod.fst h.rest

theorem Issues.state (h : Issues s v) : v.cur = s.cur ∧ v.issuing = s.issuing ∧ v.mem = s.mem ∧ v.wbuf = s.wbuf ∧ v.clk = s.clk
    ∧ v.net = s.net ∧ v.log = s.log := by
  simpa only [Prod.mk.injEq] using h.rest

theorem Issues.setCur (h : Issues s v) (x : Frame) (hx : unissued x = unissued (curFrame v)) : Issues s (setCur v x) := by
  refine ⟨h.rest, fun c => ?_, ?_, fun c g n => ?_, h.queue⟩
  · rw [Machine.setCur, lastingCore_setFrame, h.core]
  · rw [curFrame_setCur, hx, h.own]
  · rw [Machine.setCur, frameOf_setFrame, if_neg fun e => n (by rw [← h.cur, e.1, e.2]), h.others c g n]

theorem Issues.learn (h : Issues s v) (k : Nat) (ids : List Nat) : Issues s (learn v k ids) := by
  unfold Machine.learn
  split
  · exact h
  · refine ⟨h.rest, h.core, h.own, h.others, fun j => ?_⟩
    rw [ctxOf_setCtx]
    split
    · next e => rw [e]; exact h.queue k
    · exact h.queue j

theorem Issues.charge (h : Issues s v) (o units : Nat) : Issues s (charge v o units) := by
  obtain ⟨x, e⟩ := charge_owners v o units
  rw [e]
  exact ⟨h.rest, h.core, h.own, h.others, h.queue⟩

theorem Issues.learnRegs (h : Issues s v) (w : BitVec 32) : Issues s (learnRegs v w) := by
  unfold Machine.learnRegs
  dsimp only
  split
  · exact h
  · exact (h.setCur _ (by rfl)).learn ..

theorem Issues.issueWord (h : Issues s v) (w : BitVec 32) : Issues s (issueWord v w) := h.setCur _ rfl

theorem Issues.reissueWord (h : Issues s v) : Issues s (reissueWord v) := h.setCur _ rfl

/-- The next word leaves the fetch buffer. -/
theorem Issues.dropWord (h : Issues s v) (n : Nat) : Issues s (Machine.setCur v { curFrame v with fbuf := (curFrame v).fbuf.drop n }) :=
  h.setCur _ rfl

section
variable (h : Issues s v)
include h

theorem Issues.inHandler : inHandler v = inHandler s := by
  have k := h.core s.cur.1
  rw [Machine.inHandler, Machine.inHandler, curCore, curCore, h.cur, show (coreOf v s.cur.1).sup = _ from (congrArg CoreSt.sup k :),
    show (coreOf v s.cur.1).supFrame = _ from (congrArg CoreSt.supFrame k :)]
  rfl

theorem Issues.curOwner : curOwner v = curOwner s := by
  rw [Machine.curOwner, Machine.curOwner, h.inHandler, show (curFrame v).owner = _ from (congrArg Frame.owner h.own :)]
  rfl

theorem Issues.curPc : curPc v = curPc s := by
  rw [Machine.curPc, Machine.curPc, h.inHandler, curCore, h.cur, show (curFrame v).pc = _ from (congrArg Frame.pc h.own :),
    show (coreOf v s.cur.1).hpc = _ from (congrArg CoreSt.hpc (h.core s.cur.1) :)]
  rfl

theorem Issues.rd (r : Reg) : rd v r = rd s r := by
  rw [Machine.rd, Machine.rd, h.inHandler, curCore, h.cur]
  simp only [show (curFrame v).regs = (curFrame s).regs from (congrArg Frame.regs h.own :),
    show (coreOf v s.cur.1).hregs = (coreOf s s.cur.1).hregs from (congrArg CoreSt.hregs (h.core s.cur.1) :)]
  rfl

end

theorem curFrame_learn (s : State) (k : Nat) (ids : List Nat) : curFrame (learn s k ids) = curFrame s := by
  unfold learn
  split <;> rfl

theorem learnRegs_word (s : State) (w : BitVec 32) : (curFrame (learnRegs s w)).word = (curFrame s).word := by
  unfold learnRegs
  dsimp only
  split
  · rfl
  · rw [curFrame_learn, curFrame_setCur]

theorem charge_word (s : State) (o units : Nat) : (curFrame (charge s o units)).word = (curFrame s).word := by
  obtain ⟨x, e⟩ := charge_owners s o units
  rw [e]
  rfl

end

/-! ### What fetching and checking a word comes to (R68, R145, R160, R164) -/

section
variable {s : State} {w : BitVec 32}

theorem checkWord_of_error {e : Reject} (h : decodeWord w = .error e) :
    checkWord s w = .stopped (trap s 0x01 (rejectSub e) (w.setWidth 64)) := by
  rw [checkWord, h]

theorem checkWord_of_privileged {i : Instr} (h : decodeWord w = .ok i) (hi : supervisorOnly i = true) (ho : curOwner s ≠ 0) :
    checkWord s w = .stopped (trap s 0x02 0 (w.setWidth 64)) := by
  simp [checkWord, h, hi, ho]

theorem checkWord_of_allowed {i : Instr} (h : decodeWord w = .ok i) (hi : supervisorOnly i = false ∨ curOwner s = 0) :
    checkWord s w = .go i (learnRegs s w) := by
  rcases hi with hi | hi <;> simp [checkWord, h, hi]

variable (ha : (curFrame s).again = false)
include ha

theorem fetchCheck_beyond (h : fetchLoc s s.cur.1 (curOwner s) (curPc s) = none) :
    fetchCheck s = .stopped (trap s 0x04 0 (curPc s)) := by
  simp [fetchCheck, ha, h]

variable {a : Nat} (hl : fetchLoc s s.cur.1 (curOwner s) (curPc s) = some a)
include hl

theorem fetchCheck_buffered (hb : buffered s = some w) :
    fetchCheck s
      = chargeIssued (checkWord (issueWord (setCur s { curFrame s with fbuf := (curFrame s).fbuf.drop 1 }) w) w) := by
  simp [fetchCheck, ha, hl, hb]

theorem fetchCheck_poisoned (hb : buffered s = none) (hp : poisoned s a = true) :
    fetchCheck s = .stopped (trap s 0x08 0 (curPc s)) := by
  simp [fetchCheck, ha, hl, hb, hp]

theorem fetchCheck_bank (hb : buffered s = none) (hp : poisoned s a = false) :
    fetchCheck s = chargeIssued (checkWord (issueWord s (fetchWord s a)) (fetchWord s a)) := by
  simp [fetchCheck, ha, hl, hb, hp]

end

theorem fetchCheck_again {s : State} (h : (curFrame s).again = true) : fetchCheck s = checkWord (reissueWord s) (curFrame s).word :=
  if_pos h

/-! ### What a step takes -/

section
variable {s : State}

/-- In a drawn issue slot, a trap. -/
theorem step_of_stopped (h : s.issuing = true) {t : State} (e : fetchCheck { s with issuing := false } = .stopped t) :
    step s = ended s (commit { s with issuing := false } t) := by
  simp only [step, stepTaken, h, e, if_true]

/-- In a drawn issue slot, an instruction. -/
theorem step_of_go (h : s.issuing = true) {i : Instr} {t : State} (e : fetchCheck { s with issuing := false } = .go i t) :
    step s = ended s (exec i t) := by
  simp only [step, stepTaken, h, e, if_true]

variable {x : Sched} {r : List Sched} (h : s.issuing = false) (ha : s.agenda = x :: r) (hx : x.ev.isWord = false)
include h ha hx

/-- The next event of the schedule, once its clks have passed or no core has a slot to take. -/
theorem step_of_event
    (hd : s.clk + x.advance - (passed { s with agenda := r } x.advance).clk = 0 ∨ dueCore (passed { s with agenda := r } x.advance) = none) :
    step s = ended s (exec x.ev (passed { s with agenda := r } x.advance)) := by
  have none_due : (if s.clk + x.advance - (passed { s with agenda := r } x.advance).clk = 0 then none
      else dueCore (passed { s with agenda := r } x.advance)) = none := by
    split
    · rfl
    · next e => exact hd.resolve_left e
  rw [step, stepTaken, if_neg (Bool.eq_false_iff.1 h), ha]
  dsimp only
  rw [if_neg (Bool.eq_false_iff.1 hx), none_due]

/-- The issue slot of a core in which a frame issues, before clks that have yet to pass. -/
theorem step_of_due {c : Nat} (hl : s.clk + x.advance - (passed { s with agenda := r } x.advance).clk ≠ 0)
    (hd : dueCore (passed { s with agenda := r } x.advance) = some c) :
    step s = ended s (exec (.issueDraw c) { passed { s with agenda := r } x.advance with
      agenda := { x with advance := s.clk + x.advance - (passed { s with agenda := r } x.advance).clk } :: r }) := by
  rw [step, stepTaken, if_neg (Bool.eq_false_iff.1 h), ha]
  dsimp only
  rw [if_neg (Bool.eq_false_iff.1 hx), if_neg hl, hd]
  rfl

end

theorem passed_zero {s : State} (h : s.wbuf = []) : passed s 0 = s := by
  cases s
  cases h
  rfl

/-! ### The statement -/

/-- What the end of a step leaves of a frame. -/
theorem frame_at_end (s t : State) (c g : Nat) :
    ageless (frameOf (stepEnd s t) c g) = ageless (frameOf t c g)
      ∧ (frameReady t c g = frameReady s c g → frameOf (stepEnd s t) c g = frameOf t c g)
      ∧ (frameReady t c g = true → frameReady s c g = false →
          frameOf (stepEnd s t) c g = { frameOf t c g with since := t.clk, gatedFor := 0 })
      ∧ (frameReady t c g = false → frameReady s c g = true → (frameOf t c g).st = .active →
          frameOf (stepEnd s t) c g = { frameOf t c g with readyFor := readyWait t c g, since := t.clk, gatedFor := 0 }) := by
  rw [frameOf_stepEnd]
  refine ⟨agedFrame_ageless .., fun e => ?_, fun r w => ?_, fun r w a => ?_⟩
  · simp [agedFrame, e]
  · simp [agedFrame, r, w]
  · simp [agedFrame, r, w, a]

/-- A fetched word: it traps where it is no instruction or is the supervisor's, else executes, its issue charged. -/
theorem step_of_word {s0 u : State} {w : BitVec 32} (hi : s0.issuing = true) (hu : Issues { s0 with issuing := false } u)
    (hc : fetchCheck { s0 with issuing := false } = chargeIssued (checkWord (issueWord u w) w)) :
    let s : State := { s0 with issuing := false }
    let x := issueWord u w
    (∀ e, decodeWord w = .error e → step s0 = ended s0 (commit s (trap x 0x01 (rejectSub e) (w.setWidth 64))))
    ∧ (∀ i, decodeWord w = .ok i →
      (supervisorOnly i = true → curOwner s ≠ 0 → step s0 = ended s0 (commit s (trap x 0x02 0 (w.setWidth 64))))
      ∧ (supervisorOnly i = false ∨ curOwner s = 0 →
        let v := charge (learnRegs x w) (curOwner s) 1
        step s0 = ended s0 (exec i v) ∧ (curFrame v).word = w ∧ Issues s v)) := by
  intro s x
  have hx : Issues s x := hu.issueWord w
  refine ⟨fun e he => step_of_stopped hi ?_, fun i hw => ⟨fun hs ho => step_of_stopped hi ?_, fun hs => ⟨step_of_go hi ?_, ?_, ?_⟩⟩⟩
  · rw [hc, checkWord_of_error he]
    rfl
  · rw [hc, checkWord_of_privileged hw hs (hx.curOwner ▸ ho)]
    rfl
  · rw [hc, checkWord_of_allowed hw (hx.curOwner.symm ▸ hs), ← (hx.learnRegs w).curOwner]
    rfl
  · rw [charge_word, learnRegs_word]
    exact congrArg Frame.word (curFrame_setCur ..)
  · exact (hx.learnRegs w).charge ..

/-- Settles O58: a step's end ages frames (`frame_at_end`) and notes owners at rings, and what it takes is the fetched word
(`step_of_word`), the first failed check, or the next event. -/
theorem stepRunsDecoded : Obligations.StepRunsDecoded := by
  intro s0 s f taken does
  refine ⟨fun t => ⟨rfl, stepEnd_rest s0 t, coreOf_stepEnd s0 t, ringOf_stepEnd s0 t, frame_at_end s0 t⟩,
    fun hi ha => ⟨fun hl => ?_, fun a hl => ⟨fun hb hp => ?_, fun w hw => ?_⟩⟩,
    fun hi ha i hw hs => ?_, fun hi x r hr hx => ⟨?_, fun c hl hd => ?_⟩, passed_zero, fun hi hr => ?_⟩
  · exact step_of_stopped hi (fetchCheck_beyond ha hl)
  · exact step_of_stopped hi (fetchCheck_poisoned ha hl hb hp)
  · have fetched : Issues s taken ∧ fetchCheck s = chargeIssued (checkWord (issueWord taken w) w) := by
      rcases hw with hb | ⟨hb, hp, rfl⟩
      · have e : taken = setCur s { f with fbuf := f.fbuf.drop 1 } := by simp only [taken, hb]
        rw [e]
        exact ⟨(Issues.refl s).dropWord 1, fetchCheck_buffered ha hl hb⟩
      · have e : taken = s := by simp only [taken, hb]
        rw [e]
        exact ⟨.refl s, fetchCheck_bank ha hl hb hp⟩
    obtain ⟨rejected, accepted⟩ := step_of_word hi fetched.1 fetched.2
    refine ⟨rejected, fun i hd => ⟨(accepted i hd).1, fun hs => ?_⟩⟩
    obtain ⟨executes, word, v⟩ := (accepted i hd).2 hs
    obtain ⟨hcur, hissuing, hmem, hwbuf, hclk, hnet, hlog⟩ := v.state
    exact ⟨executes, word, v.curPc, v.curOwner, hcur, hissuing, hmem, hwbuf, hclk, hnet, hlog, v.rd, v.others, v.queue⟩
  · have k : Issues s (learnRegs (reissueWord s) f.word) := ((Issues.refl s).reissueWord).learnRegs _
    refine ⟨step_of_go hi ?_, k.curPc⟩
    rw [fetchCheck_again ha, checkWord_of_allowed hw (((Issues.refl s).reissueWord).curOwner.symm ▸ hs)]
  · exact step_of_event hi hr hx
  · exact step_of_due hi hr hx hl hd
  · exact everyStepGoesOn s0 fun _ x hx => by rw [hr] at hx; cases hx

end Sys2Proof.Machine
end

section
/-! SUPPORT. States in which one write stands in two entries of its queue: a store, a load fence, an acquire read, a probe or an
access from outside that makes an L1 write its copy back settles both, and only one of them says which bytes are dirty (R251). -/

namespace Sys2Proof.Machine

open Sys2Proof

/-! ### The write of `twiceQueued` under other caches (R76, R251) -/

/-- Write 10 and the queue that holds it twice are those of `twiceQueued`. -/
structure HoldsTwice (s : State) : Prop where
  nextId : s.nextId = 20
  hist   : s.hist = twiceQueued.hist
  ctxs   : s.ctxs = twiceQueued.ctxs

theorem HoldsTwice.covers {s : State} (h : HoldsTwice s) (w a : Nat) : covers s w a = covers twiceQueued w a := by
  simp only [Machine.covers, wrec, h.hist]

theorem HoldsTwice.entryOf {s : State} (h : HoldsTwice s) (w : Nat) : entryOf s w = entryOf twiceQueued w := by
  simp only [Machine.entryOf, wrec, ctxOf, h.hist, h.ctxs]

theorem HoldsTwice.plainEntry {s : State} (h : HoldsTwice s) : plainEntry s 10 :=
  ⟨by rw [h.nextId]; decide, fun k i e found => plainEntry_twiceQueued.2 k i e (by rw [← h.entryOf, found])⟩

/-- Where every L1 holds no dirty data but write 10, the byte of bank 0 is none of it: the first of the two entries, which names
another place, says what bytes of write 10 are dirty. -/
theorem HoldsTwice.not_dirtyByte {s : State} (h : HoldsTwice s) (dirty : ∀ p ∈ s.cores, ∀ l ∈ p.2.l1, ∀ w ∈ l.dirty, w = 10) :
    ¬dirtyByte s (bankLoc 0 0) := by
  rintro ⟨p, hp, l, hl, w, hw, covered | other⟩
  · rw [dirty p hp l hl w hw, h.covers] at covered
    exact absurd covered (by decide)
  · rw [dirty p hp l hl w hw] at other
    exact other h.plainEntry

/-- A step to one state is not a step to another that differs at a byte which the first keeps. -/
theorem not_keeps_byte {s t u : State} {i : Instr} {x : Nat} (step : exec i s = .next t) (keeps : byteAt t x = byteAt s x)
    (ran : exec i s = .next u) (changes : byteAt u x ≠ byteAt s x) : False :=
  changes (Host.Outcome.next.inj (ran.symm.trans step) ▸ keeps)

/-! ### A store past the caches over a cached copy (R84, R235) -/

/-- The page of the stamp's sector that bypasses the caches. -/
def bypassPage : Xlat :=
  { owner := 0, page := 0, size := 4096, pa := 0x10000, rd := true, wr := true, treat := 2, shr := false, swr := false, kidx := 0 }

/-- Core 0 translates the stamp's sector past the caches, while its L1 holds the copy of `twiceQueued`. -/
def storeToHeld : State :=
  { twiceQueued with cores := [(0, { banks := [(0, { valid := true, clean := false })], l1 := [stampLine], tlb := [bypassPage] })] }

/-- The store has the copy written back, and with it write 10 settles by both of its entries. -/
theorem stB_storeToHeld :
    ∃ t, exec (.stB 0 0 .weak 0) storeToHeld = .next t ∧ byteAt t (bankLoc 0 0) ≠ byteAt storeToHeld (bankLoc 0 0) :=
  ⟨_, rfl, by decide +kernel⟩

/-- Refutes O13: a store that completes is to change no byte but the dirty ones. In `storeToHeld` the lines that leave the L1 for a
store past the caches hold a write that stands in two entries, and the byte that the second one brings is no dirty one. -/
theorem not_storesAndPairs : ¬Obligations.StoresAndPairs := by
  intro holds
  obtain ⟨-, -, stores⟩ := holds.1 storeToHeld 0 0 .weak 0 1 _ (.inl rfl)
  obtain ⟨-, -, enters⟩ := stores (by decide) (.mem 0x10000 bypassPage) (by decide +kernel) (.inl ⟨_, _, rfl⟩)
  obtain ⟨⟨t, step, -, bytes, -⟩, -⟩ := enters (by decide +kernel) (by decide +kernel)
  obtain ⟨u, ran, changes⟩ := stB_storeToHeld
  have clean := HoldsTwice.not_dirtyByte (s := storeToHeld) ⟨rfl, rfl, rfl⟩ (by decide)
  exact not_keeps_byte step (bytes ⟨by decide, rfl⟩ _ clean) ran changes

/-! ### A self-invalidating copy that a load fence or an acquire read drops (R88, R239) -/

/-- The L1 of core 0 holds the copy of `twiceQueued` as a self-invalidating one. -/
def selfHeld : State :=
  { twiceQueued with cores := [(0, { banks := [(0, { valid := true, clean := false })], l1 := [{ stampLine with treat := 1 }] })] }

theorem not_dirtyByte_selfHeld : ¬dirtyByte selfHeld (bankLoc 0 0) :=
  HoldsTwice.not_dirtyByte ⟨rfl, rfl, rfl⟩ (by decide)

/-- The load fence drops the copy, and with it write 10 settles by both of its entries. -/
theorem fenceLd_selfHeld :
    ∃ t, exec (.fenceLd .dev) selfHeld = .next t ∧ byteAt t (bankLoc 0 0) ≠ byteAt selfHeld (bankLoc 0 0) :=
  ⟨_, rfl, by decide +kernel⟩

/-- Refutes O27: a fence that completes is to change no byte but the dirty ones. The copy that a load fence drops in `selfHeld`
holds a write that stands in two entries, and the byte that the second one brings is no dirty one. -/
theorem not_fences : ¬Obligations.Fences := by
  intro holds
  obtain ⟨-, -, -, completes⟩ := holds selfHeld .ld .dev _ (.inr (.inl ⟨rfl, rfl⟩))
  obtain ⟨t, step, -, -, quiet, -⟩ := completes (by decide +kernel) (.inl (by decide +kernel))
  obtain ⟨u, ran, changes⟩ := fenceLd_selfHeld
  exact not_keeps_byte step (quiet rfl _ not_dirtyByte_selfHeld) ran changes

/-- An acquire read of the first byte of bank 0. -/
def bankRead : Read :=
  { id := 15, ctx := 0, frame := 0, act := 0, tgt := .loc 0 0, len := 1, sx := false, treat := 0, share := none, mode := 2,
    miss := false, after := [], inval := [], va := 0, pc := 0, owed := 0, parked := false }

/-- `selfHeld` with that read. -/
def readUnderHeld : State := { selfHeld with reads := [bankRead] }

/-- The acquire read drops the copy, and with it write 10 settles by both of its entries. -/
theorem serveAtHome_readUnderHeld :
    ∃ t, exec (.serveAtHome 15) readUnderHeld = .next t ∧ byteAt t (bankLoc 0 0) ≠ byteAt readUnderHeld (bankLoc 0 0) :=
  ⟨_, rfl, by decide +kernel⟩

/-- Refutes O29: a read that is served is to change no byte but the dirty ones. The copy that an acquire read drops in
`readUnderHeld` holds a write that stands in two entries, and the byte that the second one brings is no dirty one. -/
theorem not_servedReads : ¬Obligations.ServedReads := by
  intro holds
  obtain ⟨served, -⟩ := holds readUnderHeld
  obtain ⟨atHome, -⟩ := served 15 bankRead rfl rfl (by decide +kernel)
  obtain ⟨t, step, -, -, quiet⟩ := atHome (by decide) (by decide +kernel) (by decide) (by decide)
    ⟨by decide +kernel, by decide +kernel, by decide +kernel, by decide +kernel, by decide +kernel⟩
  obtain ⟨u, ran, changes⟩ := serveAtHome_readUnderHeld
  have clean := HoldsTwice.not_dirtyByte (s := readUnderHeld) ⟨rfl, rfl, rfl⟩ (by decide)
  exact not_keeps_byte step (quiet rfl _ clean) ran changes

/-! ### A probe and an access from outside (R243, R342) -/

/-- The probe of the stamp's line has the copy written back, and with it write 10 settles by both of its entries. -/
theorem probe_twiceQueued :
    ∃ t, exec (.probe 0x10000 none) twiceQueued = .next t ∧ byteAt t (bankLoc 0 0) ≠ byteAt twiceQueued (bankLoc 0 0) :=
  ⟨_, rfl, by decide +kernel⟩

/-- Refutes O33: a probe of a line that no home slice holds is to change no byte but the dirty ones. The copy that it drops in
`twiceQueued` holds a write that stands in two entries, and the byte that the second one brings is no dirty one. -/
theorem not_cacheEvents : ¬Obligations.CacheEvents := by
  intro holds
  obtain ⟨-, -, -, -, -, probes, -⟩ := holds twiceQueued
  obtain ⟨t, step, quiet, -⟩ := probes 0x10000 none (by decide +kernel) (by decide +kernel)
  obtain ⟨u, ran, changes⟩ := probe_twiceQueued
  exact not_keeps_byte step (quiet rfl _ not_dirtyByte_twiceQueued) ran changes

/-- A peer's read of the stamp recalls the copy, and with it write 10 settles by both of its entries. -/
theorem peerAccessArrival_twiceQueued : ∃ t, exec (.peerAccessArrival 0 0x10000 1 none) twiceQueued = .next t
    ∧ byteAt t (bankLoc 0 0) ≠ byteAt twiceQueued (bankLoc 0 0) :=
  ⟨_, rfl, by decide +kernel⟩

/-- Refutes O48: a peer's read of device DRAM is to change no byte but the dirty ones. The copy that it recalls in `twiceQueued`
holds a write that stands in two entries, and the byte that the second one brings is no dirty one. -/
theorem not_poolEvents : ¬Obligations.PoolEvents := by
  intro holds
  obtain ⟨-, -, -, -, -, -, -, -, -, -, reads, -⟩ := holds twiceQueued ⟨by decide, rfl⟩
  obtain ⟨t, step, quiet⟩ := reads 0 0x10000 1 (by decide)
  obtain ⟨u, ran, changes⟩ := peerAccessArrival_twiceQueued
  exact not_keeps_byte step (quiet rfl _ not_dirtyByte_twiceQueued) ran changes

end Sys2Proof.Machine
end

section
/-! SUPPORT. A carousel command that is over ends its lease, and the fault of a part that fails with the lease is written to the
owner's descriptor (R325, R329, R370). -/

namespace Sys2Proof.Machine

open Sys2Proof

/-- A carousel part of core 0, by its id and number, under lease 7 of ring 0. -/
def leasedPart (id num : Nat) (finished : Bool) : Cmd :=
  { id := id, ctx := 0, cls := 1, num := num, frame := 0, act := 0, pc := 0, kind := .car 3 0 0 none none [] 0 7,
    lin := { early := false, launch := none }, after := [], known := [], writes := [], asked := 0, lost := [], finished := finished }

/-- Lease 7, whose run has started its one group command. -/
def overLease : Lease :=
  { owner := 0, first := 0, size := 1, run := 1, members := [], id := 7, next := 1, last := 0, waits := 0 }

/-- Ring 0 holds lease 7; one part of its last group command is over and another is not. Owner 0 has a fault descriptor. -/
def leaseEnds : State :=
  { State.reset with
    owners := [(0, { live := true, desc := 0x1000 })]
    rings  := [(0, { lease := some overLease })]
    cmds   := [leasedPart 11 1 true, leasedPart 12 2 false] }

/-- With the part that is over the lease ends, the other part fails, and its fault takes the first sequence number. -/
theorem engineCommandDone_leaseEnds :
    ∃ t, exec (.engineCommandDone 0 1 1) leaseEnds = .next t ∧ byteAt t 0x1020 ≠ byteAt leaseEnds 0x1020 :=
  ⟨_, rfl, by decide +kernel⟩

/-- Refutes O39: a finished command that counts in its class is to change no byte. In `leaseEnds` it ends its lease, and the fault of
the part that fails with it is written to the descriptor of the owner. -/
theorem not_streamerSteps : ¬Obligations.StreamerSteps := by
  intro holds
  obtain ⟨-, -, -, -, counts, -⟩ := holds leaseEnds ⟨by decide, rfl⟩
  obtain ⟨t, step, quiet, -⟩ := counts 0 1 1 (leasedPart 11 1 true) rfl rfl rfl rfl
  obtain ⟨u, ran, changes⟩ := engineCommandDone_leaseEnds
  exact not_keeps_byte step (quiet rfl _) ran changes

end Sys2Proof.Machine
end

section
/-! SUPPORT. What a settled write leaves of the queues and of memory: one rule per operation that settling is made of (R76, R81, R82,
R158, R281). -/

namespace Sys2Proof.Machine

open Sys2Proof

/-! ### Operations that leave queues and writes alone -/

/-- `s` with the parts that follow a settled write taken from `t`: initial bytes, pool memory and what is to be published, poison,
caches and cores, home slices, energy, points, what the host caches, and bumps. -/
def tidying (s t : State) : State :=
  { s with nextId := t.nextId, initMem := t.initMem, poolMem := t.poolMem, unpub := t.unpub, poison := t.poison, cores := t.cores, rings := t.rings, owners := t.owners, points := t.points,
           hostLines := t.hostLines, bisnp := t.bisnp, bumps := t.bumps }

/-- Every other field of `t` is as in `s`: memory, the history and the settled order, store queues, the fabric and the rest. -/
def Tidies (s t : State) : Prop := t = tidying s t

section
variable {s t : State}

theorem Tidies.refl (s : State) : Tidies s s := rfl

/-- One more change, of those parts alone. -/
theorem Tidies.step {u : State} (h : Tidies s t) (e : u = tidying t u := by rfl) : Tidies s u :=
  e.trans (by rw [h]; rfl)

theorem Tidies.ite {c : Prop} [Decidable c] {u : State} (ht : Tidies s t) (hu : Tidies s u) : Tidies s (if c then t else u) := by
  split <;> assumption

theorem Tidies.foldl {α : Type} {f : State → α → State} (h : Tidies s t) (hf : ∀ u a, Tidies s u → Tidies s (f u a)) (l : List α) :
    Tidies s (l.foldl f t) :=
  List.foldlRecOn l f h fun u hu a _ => hf u a hu

theorem Tidies.wbuf (h : Tidies s t) : t.wbuf = s.wbuf := by rw [h]; rfl
theorem Tidies.log (h : Tidies s t) : t.log = s.log := by rw [h]; rfl
theorem Tidies.ctxs (h : Tidies s t) : t.ctxs = s.ctxs := by rw [h]; rfl
theorem Tidies.orphans (h : Tidies s t) : t.orphans = s.orphans := by rw [h]; rfl
theorem Tidies.refusals (h : Tidies s t) : t.refusals = s.refusals := by rw [h]; rfl
theorem Tidies.unacked (h : Tidies s t) : t.unacked = s.unacked := by rw [h]; rfl
theorem Tidies.net (h : Tidies s t) : t.net = s.net := by rw [h]; rfl
theorem Tidies.ctxOf (h : Tidies s t) (k : Nat) : ctxOf t k = ctxOf s k := by rw [Machine.ctxOf, h.ctxs]; rfl

theorem Tidies.charge (h : Tidies s t) (o units : Nat) : Tidies s (charge t o units) := h.ite (.ite h.step h.step)

theorem Tidies.requestAt (h : Tidies s t) (owner id : Nat) (at_ : Option Place) (l : List (Nat × Nat)) :
    Tidies s (requestAt t owner id at_ l) := by
  cases l with
  | nil => exact h
  | cons => exact h.step

theorem Tidies.discardFetch (h : Tidies s t) (locs : List Nat) : Tidies s (discardFetch t locs) := h.foldl (fun _ _ h => h.step) _

theorem Tidies.recallHost (h : Tidies s t) (w : Nat) (locs : List Nat) : Tidies s (recallHost t w locs) := h.ite h.step

theorem Tidies.markDirty (h : Tidies s t) (sectors : List Nat) : Tidies s (markDirty t sectors) :=
  h.foldl (fun _ _ h => by dsimp only; split; exacts [h, h.step]) _

theorem Tidies.bumpTile (h : Tidies s t) (n : Nat) (cause : List Nat) : Tidies s (bumpTile t n cause) := by
  unfold Machine.bumpTile
  split
  · exact .ite h.step h.step
  · exact h

theorem Tidies.putL1 (h : Tidies s t) (core : Nat) (x : L1Line) : Tidies s (putL1 t core x) := h.step

theorem Tidies.setMesi (h : Tidies s t) (core : Nat) (l : L1Line) (v : Nat) : Tidies s (setMesi t core l v) := by
  unfold Machine.setMesi
  dsimp only
  split <;> exact h.step

theorem Tidies.cleanL1 (h : Tidies s t) (k pa w : Nat) : Tidies s (cleanL1 t k pa w) := by
  unfold Machine.cleanL1
  dsimp only
  split
  · exact h
  · exact .ite (.setMesi (.ite h.step h) ..) (.putL1 (.ite h.step h) ..)

theorem Tidies.wakeCore (h : Tidies s t) (core : Nat) : Tidies s (wakeCore t core) := h.step

theorem Tidies.holdInbound (h : Tidies s t) (core owner : Nat) (i : Held) : Tidies s (holdInbound t core owner i) := h.step

theorem Tidies.countCapDrop (h : Tidies s t) (pa : Nat) : Tidies s (countCapDrop t pa) := h.step

end

/-- A message that sets out joins those of the fabric, and points (R213). -/
theorem tidies_launch (s : State) (m : Msg) : Tidies { s with net := s.net ++ [m] } (launch s m) := by
  unfold launch
  dsimp only
  split
  · exact .refl _
  · exact .foldl (.refl _) (fun _ _ h => h.requestAt ..) _

/-! ### The writes of a settled write (R73, R81) -/

/-- The bytes of a write that settles are written one after the other, the last of the step. -/
theorem tidies_writes (bs : List Host.Cell) (s : State) : Tidies { s with wbuf := bs.reverse ++ s.wbuf } (bs.foldl (fun s p =>
    let s := if s.log.any fun v => covers s v p.1 then s else { s with initMem := memPut s.initMem p.1 (byteAt s p.1) }
    putByte s p.1 p.2) s) := by
  induction bs generalizing s with
  | nil => exact .refl s
  | cons p r ih =>
    have e := ih (putByte (if s.log.any fun v => covers s v p.1 then s else
      { s with initMem := memPut s.initMem p.1 (byteAt s p.1) }) p.1 p.2)
    rw [List.foldl_cons, List.reverse_cons, List.append_assoc, e]
    split <;> rfl

/-- The bytes of a settled write are the last of the step, and it joins the settled order (R81). -/
theorem tidies_settleWrite (s : State) (w : Nat) :
    Tidies { s with wbuf := (wrec s w).bytes.reverse ++ s.wbuf, log := w :: s.log } (settleWrite s w) := by
  refine .foldl (.markDirty (.recallHost (.discardFetch ?_ _) ..) _) (fun _ _ h => h.bumpTile ..) _
  have e := tidies_writes (wrec s w).bytes s
  simp only [clearPoison]
  rw [e]
  rfl

/-! ### An entry leaves its queue (R76, R158, R174) -/

/-- Close messages that waited for room enter the queue; nothing but contexts, waiting windows and ids changes. -/
theorem closeOrphans_eq (s : State) (k : Nat) :
    ∃ cs os n, closeOrphans s k = { s with ctxs := cs, orphans := os, nextId := n } := by
  unfold closeOrphans
  refine List.foldlRecOn (motive := fun t : State => ∃ cs os n, t = { s with ctxs := cs, orphans := os, nextId := n }) _ _
    ⟨s.ctxs, s.orphans, s.nextId, rfl⟩ fun t ⟨cs, os, n, e⟩ o _ => ?_
  split
  · exact ⟨_, _, _, by rw [e]; rfl⟩
  · exact ⟨cs, os, n, e⟩

theorem closeOrphans_none {s : State} {k : Nat} (h : ∀ o ∈ s.orphans, o.1 ≠ k) : closeOrphans s k = s :=
  List.foldlRecOn (motive := fun t => t = s) _ _ rfl fun _ e o ho => by rw [e, if_neg fun hc => h o ho hc.1]

/-- Beside the entry that leaves, an operation changes nothing of its queue but what takes the place left (R174). -/
def Leaves (s t : State) (k id : Nat) : Prop :=
  (∀ o ∈ s.orphans, o.1 ≠ k) → (ctxOf t k).queue = (ctxOf s k).queue.filter fun x => x.id != id

section
variable (s : State) (k id : Nat)

theorem dropEntry_eq : ∃ cs os n, dropEntry s k id = { s with ctxs := cs, orphans := os, nextId := n } := by
  obtain ⟨cs, os, n, e⟩ := closeOrphans_eq (setCtx s k { ctxOf s k with queue := (ctxOf s k).queue.filter fun e => e.id != id }) k
  exact ⟨cs, os, n, e⟩

@[simp] theorem dropEntry_wbuf : (dropEntry s k id).wbuf = s.wbuf := by obtain ⟨_, _, _, e⟩ := dropEntry_eq s k id; rw [e]
@[simp] theorem dropEntry_log : (dropEntry s k id).log = s.log := by obtain ⟨_, _, _, e⟩ := dropEntry_eq s k id; rw [e]
@[simp] theorem dropEntry_net : (dropEntry s k id).net = s.net := by obtain ⟨_, _, _, e⟩ := dropEntry_eq s k id; rw [e]
@[simp] theorem dropEntry_unacked : (dropEntry s k id).unacked = s.unacked := by obtain ⟨_, _, _, e⟩ := dropEntry_eq s k id; rw [e]
@[simp] theorem dropEntry_refusals : (dropEntry s k id).refusals = s.refusals := by obtain ⟨_, _, _, e⟩ := dropEntry_eq s k id; rw [e]

theorem leaves_dropEntry : Leaves s (dropEntry s k id) k id := fun none => by
  have e := closeOrphans_none (s := setCtx s k { ctxOf s k with queue := (ctxOf s k).queue.filter fun e => e.id != id }) none
  simp only [dropEntry, e, ctxOf_setCtx_same]

end

/-- What leaves the queue and the waiting windows alone before or after the entry leaves. -/
theorem Leaves.of_keeps {s u v t : State} {k id : Nat} (h : Leaves u v k id) (before : ctxOf u k = ctxOf s k)
    (orphans : u.orphans = s.orphans) (after : ctxOf t k = ctxOf v k) : Leaves s t k id := fun none => by
  rw [after, h (by rwa [orphans]), before]

/-! ### The bytes after a step (R73, R81) -/

theorem find_append {α : Type} (m n : NMap α) (x : Nat) : NMap.find (m ++ n) x = (NMap.find m x).or (NMap.find n x) := by
  induction m with
  | nil => rfl
  | cons p r ih =>
    rw [List.cons_append, NMap.find, NMap.find]
    split
    · rfl
    · exact ih

theorem find_cellsAt_before (bs : List Byte) {a x : Nat} (h : x < a) : NMap.find (cellsAt a bs) x = none := by
  induction bs generalizing a with
  | nil => rfl
  | cons b r ih => rw [cellsAt, NMap.find, if_neg (by omega), ih (by omega)]

/-- A location has one byte among those from an address, in whichever order they stand. -/
theorem find_reverse_cellsAt (bs : List Byte) (a x : Nat) : NMap.find (cellsAt a bs).reverse x = NMap.find (cellsAt a bs) x := by
  induction bs generalizing a with
  | nil => rfl
  | cons b r ih =>
    rw [cellsAt, List.reverse_cons, find_append, ih, NMap.find, NMap.find, NMap.find]
    by_cases h : a = x
    · rw [if_pos h, if_pos h, find_cellsAt_before r (by omega)]
      rfl
    · rw [if_neg h, if_neg h, Option.or_none]

/-- A step whose writes are those of a run of bytes leaves each of them at its place, and every other byte (R73). -/
theorem byteAt_committed_cells {s z : State} (inv : Inv s) {a : Nat} {bs : List Byte}
    (h : z.wbuf = (cellsAt a bs).reverse ++ s.wbuf) (x : Nat) :
    byteAt (committed s z) x = (NMap.find (cellsAt a bs) x).getD (byteAt s x) := by
  obtain ⟨mem, wbuf⟩ := inv
  rw [wbuf, List.append_nil] at h
  simp only [byteAt, committed, wbuf, h, NMap.find, memRead_applyWrites _ _ mem, find_reverse_cellsAt]

/-- A write settles and its entry leaves: it joins the settled order, and its bytes are the last of the step (R81, R82). -/
structure Settles (s t : State) (k id w : Nat) (bytes : List Host.Cell) : Prop where
  log    : t.log = w :: s.log
  leaves : Leaves s t k id
  wbuf   : t.wbuf = bytes.reverse ++ s.wbuf

/-- A write that settles in a state with the queues and writes of `s`, and whose entry then leaves. -/
theorem settles_of_tidies {s u v t : State} {k id w : Nat}
    (before : (u.ctxs, u.orphans, u.log, u.wbuf) = (s.ctxs, s.orphans, s.log, s.wbuf)) (settled : Tidies (settleWrite u w) v)
    (left : Tidies (dropEntry v k id) t) : Settles s t k id w (wrec u w).bytes := by
  simp only [Prod.mk.injEq] at before
  obtain ⟨ctxs, orphans, log, wbuf⟩ := before
  have written := tidies_settleWrite u w
  refine ⟨?_, (leaves_dropEntry v k id).of_keeps ?_ ?_ (left.ctxOf k), ?_⟩
  · rw [left.log, dropEntry_log, settled.log, written.log, log]
  · rw [settled.ctxOf, written.ctxOf]
    simp only [ctxOf, ctxs]
  · rw [settled.orphans, written.orphans, orphans]
  · rw [left.wbuf, dropEntry_wbuf, settled.wbuf, written.wbuf, wbuf]

section
variable {s : State} {k : Nat} {e : QEntry} {w tr : Nat}

/-- A write to local memory settles at the bytes of its offset (R153). -/
theorem settles_local {c o l : Nat} (place : localLoc s c (ctxOwner k) o = some l) :
    Settles s (settleEntry s k e w (.loc c o) tr) k e.id w (cellsAt l ((wrec s w).bytes.map Prod.snd)) := by
  simp only [settleEntry, place]
  have settled := fun u (before : (u.ctxs, u.orphans, u.log, u.wbuf) = (s.ctxs, s.orphans, s.log, s.wbuf)) =>
    settles_of_tidies (s := s) (k := k) (id := e.id) (w := w) before (.refl (settleWrite u w)) (.refl _)
  split
  · have h := settled { s with hist := NMap.put s.hist w { wrec s w with bytes := cellsAt l ((wrec s w).bytes.map Prod.snd) } } rfl
    simpa only [wrec, get_put_same] using h
  · have h := settled (wakeCore { s with hist := NMap.put s.hist w { wrec s w with bytes := cellsAt l ((wrec s w).bytes.map Prod.snd) } } c) rfl
    simpa only [wrec, wakeCore, setCore, get_put_same] using h

/-- A store that no capability refuses is one that its check lets pass. -/
theorem not_refused {pa : Nat} (h : tr < 4 ∨ capAllows s k pa .store = true) : (decide (4 ≤ tr) && !capAllows s k pa .store) = false := by
  rcases h with h | h
  · simp [show ¬4 ≤ tr by omega]
  · simp [h]

/-- A write to memory settles at its bytes (R81). -/
theorem settles_memory {pa : Nat} (memory : isWindow pa = false) (allowed : tr < 4 ∨ capAllows s k pa .store = true) :
    Settles s (settleEntry s k e w (.pa pa) tr) k e.id w (wrec s w).bytes := by
  simp only [settleEntry, not_refused allowed, memory, Bool.false_eq_true, if_false]
  exact settles_of_tidies rfl (.ite (.step (.cleanL1 (.refl _) ..)) (.cleanL1 (.refl _) ..)) (.charge (.refl _) ..)

end

/-! ### The steps of a queue (R81, R82, R91, R230) -/

theorem mem_upto {n j : Nat} : j ∈ upto n ↔ j < n := by
  induction n with
  | zero => simp [upto]
  | succ n ih => simp only [upto, List.mem_append, ih, List.mem_singleton]; omega

section
variable {s : State} {k i : Nat} {e : QEntry} {w n tr : Nat} {tg : Tgt}
variable (at_ : (ctxOf s k).queue[i]? = some e) (write : e.body = .write w tg n tr)
include at_ write

section
variable (may : settleReady s k i e w tg tr = true) (slot : unitSlot s tg = true)
include may slot

/-- An entry that an L1 holds dirty asks for its way first (R221, R251). -/
theorem settle_quiet (quiet : e.quiet = true) : exec (.settle k i) s = commit s (askWriteBack s k e w tg tr) := by
  change execSettle k i s = _
  simp [execSettle, at_, write, may, slot, quiet]

theorem settle_memory {pa : Nat} (quiet : e.quiet = false) (h : tg = .pa pa) :
    exec (.settle k i) s = commit s (settleEntry s k e w tg tr) := by
  subst h
  change execSettle k i s = _
  simp [execSettle, at_, write, may, slot, quiet]

/-- An entry for local memory arrives at its core (R158). -/
theorem settle_local {c o : Nat} (quiet : e.quiet = false) (h : tg = .loc c o) : exec (.settle k i) s =
    commit s (arriveLocal s c k (fun s => holdEntry s k c e) fun s => settleEntry s k e w tg tr) := by
  subst h
  change execSettle k i s = _
  simp [execSettle, at_, write, may, slot, quiet]

end

/-- An entry that a later one covers goes, and its write with it (R82). -/
theorem coalesce_covered {j : Nat} {x : QEntry} (weak : e.weak = true) (free : e.held = false) (later : i < j)
    (cover : (ctxOf s k).queue[j]? = some x) (covered : ∀ l ∈ entryLocs s (ctxOwner k) e, l ∈ entryLocs s (ctxOwner k) x)
    (between : ∀ y ∈ ((ctxOf s k).queue.take j).drop (i + 1), y.rel = false ∧ y.body ≠ .marker)
    (unseen : ∀ v, entryWrite x = some v → panelMet s k e v (w + 1) = false) :
    exec (.coalesce k i) s = commit s (discardEntry s k e w) := by
  change execCoalesce k i s = _
  simp only [execCoalesce, at_, write, weak, free, Bool.not_false, Bool.true_and]
  refine congrArg (commit s) (if_pos (List.any_eq_true.2 ⟨j, mem_upto.2 (List.getElem?_eq_some_iff.1 cover).1, ?_⟩))
  have unmet : ((entryWrite x).any fun v => panelMet s k e v (w + 1)) = false := by
    cases h : entryWrite x with
    | none => rfl
    | some v => exact unseen v h
  simp only [cover, later, unmet, decide_true, Bool.true_and, Bool.not_false, Bool.and_true, Bool.and_eq_true, List.all_eq_true,
    List.contains_iff_mem, Bool.not_eq_true', bne_iff_ne]
  exact ⟨covered, between⟩

end

/-- A message whose release condition holds goes to the fabric, where its target has room for it (R91, R178). -/
theorem messageDepart_goes {s : State} {k i core owner : Nat} {e : QEntry} {b : Body} (at_ : (ctxOf s k).queue[i]? = some e)
    (msg : e.body = .msg core owner b) (free : releasable s k e.after e.reads e.pub e.acked = true) (sender : k < quantumCtx 0 0)
    {m : Msg} (hm : m = { id := e.id, ctx := k, frame := e.frame, act := e.act, core := core, owner := owner, body := b, tag := e.tag })
    (room : targetRoom s m = true) : exec (.messageDepart k i) s = commit s (dropEntry (launch s m) k e.id) := by
  subst hm
  change execMessageDepart k i s = _
  simp [execMessageDepart, sender, departEntry, at_, msg, free, room]

/-- A step that settles a write, as R81 and R82 name it. -/
theorem Settles.taken {s z : State} {x : Instr} {k id w a : Nat} {bs : List Byte} (h : Settles s z k id w (cellsAt a bs)) (inv : Inv s)
    (runs : exec x s = commit s z) : ∃ t, exec x s = .next t ∧ t.log = w :: s.log ∧ Leaves s t k id
      ∧ ∀ y, byteAt t y = (NMap.find (cellsAt a bs) y).getD (byteAt s y) :=
  ⟨committed s z, runs, h.log, h.leaves, byteAt_committed_cells inv h.wbuf⟩

/-- Discarding an entry leaves the settled order, the refusals and the step's writes (R158, R281). -/
theorem discardEntry_keeps (s : State) (k : Nat) (e : QEntry) (w : Nat) :
    (discardEntry s k e w).log = s.log ∧ (discardEntry s k e w).refusals = s.refusals ∧ (discardEntry s k e w).wbuf = s.wbuf
      ∧ Leaves s (discardEntry s k e w) k e.id :=
  ⟨dropEntry_log .., dropEntry_refusals .., dropEntry_wbuf .., (leaves_dropEntry s k e.id).of_keeps rfl rfl rfl⟩

/-- A write toward the host or a peer whose link works is sent, and not yet acknowledged (R230). -/
theorem settleEntry_window {s : State} {k w tr pa : Nat} {e : QEntry} (window : isWindow pa = true) (linked : s.linksLost = [])
    (allowed : tr < 4 ∨ capAllows s k pa .store = true) : let z := settleEntry s k e w (.pa pa) tr
    z.log = w :: s.log ∧ z.unacked = s.unacked ++ [w] ∧ Leaves s z k e.id ∧ z.wbuf = s.wbuf := by
  have sent := Tidies.charge (.refl { s with log := w :: s.log, unacked := s.unacked ++ [w] }) (ctxOwner k) (accessEnergy pa tr)
  have works : (decide (Config.peerBase ≤ pa) && s.linksLost.contains (pa / 2 ^ 34 % 16)) = false := by simp [linked]
  simp only [settleEntry, not_refused allowed, window, works, Bool.false_eq_true, if_false, if_true]
  exact ⟨(dropEntry_log ..).trans sent.log, (dropEntry_unacked ..).trans sent.unacked,
    (leaves_dropEntry _ k e.id).of_keeps (s := s) (sent.ctxOf k) sent.orphans rfl, (dropEntry_wbuf ..).trans sent.wbuf⟩

/-- A store that its region's capability refuses never settles, and its refusal sets out with cause CAP (R281). -/
theorem settleEntry_refused {s : State} {k w tr pa : Nat} {e : QEntry} (region : 4 ≤ tr) (refused : capAllows s k pa .store = false) :
    let z := settleEntry s k e w (.pa pa) tr
    z.refusals = s.refusals ++ [{ ctx := k, frame := e.frame, act := e.act, cause := 0x07, addr := (wrec s w).va, pc := (wrec s w).pc,
                                  lin := e.lin, id := e.id }]
      ∧ z.log = s.log ∧ Leaves s z k e.id ∧ z.wbuf = s.wbuf := by
  obtain ⟨log, refusals, wbuf, leaves⟩ := discardEntry_keeps s k e w
  have counted := Tidies.countCapDrop (.refl (discardEntry s k e w)) pa
  simp only [settleEntry, region, refused, decide_true, Bool.not_false, Bool.and_true, if_true, bounce]
  exact ⟨by rw [counted.refusals, refusals], counted.log.trans log, leaves.of_keeps rfl rfl (counted.ctxOf k), counted.wbuf.trans wbuf⟩

/-- An entry held at its target's ring stays in its queue (R158). -/
theorem tidies_holdEntry (s : State) (k core : Nat) (e : QEntry) : Tidies
    (setCtx s k { ctxOf s k with queue := (ctxOf s k).queue.map fun y => if y.id = e.id then { y with held := true } else y })
    (holdEntry s k core e) :=
  .holdInbound (.ite (.refl _) (.wakeCore (.refl _) _)) ..

/-- Settles O28, a lemma for each thing that can become of an entry: what a settled write leaves (`settles_local`, `settles_memory`),
what an entry that leaves changes (`leaves_dropEntry`), and which of them a step does (`settle_quiet` to `messageDepart_goes`). -/
theorem settledEntries : Obligations.SettledEntries := by
  intro s k i e inv at_
  refine ⟨fun w tg n tr write may slot quiet => settle_quiet at_ write may slot quiet, fun w tg n tr write may slot quiet => ?settle,
    fun w tg n tr j x write weak free later cover covered between unseen => ?coalesce, fun core owner b msg free sender room => ?depart,
    fun w => ⟨fun h => ?unknown, fun h kept => ?kept, fun j h dropped from_ => ?dropped⟩⟩
  case settle =>
    refine ⟨fun c o l loc here place => ?_, fun c o loc away room => ?_, fun pa bs at_pa memory allowed bytes => ?_,
      fun pa at_pa window linked allowed => ?_, fun pa at_pa region refused => ?_⟩
    · have runs := settle_local at_ write may slot quiet loc
      subst loc
      simp only [arriveLocal, here, Bool.not_false, if_true] at runs
      exact (settles_local place).taken inv runs
    · have runs := settle_local at_ write may slot quiet loc
      simp only [arriveLocal, away, room, Bool.not_true, Bool.false_eq_true, if_false, if_true] at runs
      have held := tidies_holdEntry s k c e
      exact ⟨committed s _, runs, quiet_committed held.wbuf, held.log, by
        rw [show ctxOf (committed s (holdEntry s k c e)) k = _ from held.ctxOf k, ctxOf_setCtx_same]⟩
    · have runs := settle_memory at_ write may slot quiet at_pa
      subst at_pa
      have settled := settles_memory (k := k) (e := e) (w := w) memory allowed
      rw [bytes] at settled
      exact settled.taken inv runs
    · have runs := settle_memory at_ write may slot quiet at_pa
      subst at_pa
      obtain ⟨log, unacked, leaves, wbuf⟩ := settleEntry_window (e := e) (w := w) window linked allowed
      exact ⟨committed s _, runs, log, unacked, leaves, quiet_committed wbuf⟩
    · have runs := settle_memory at_ write may slot quiet at_pa
      subst at_pa
      obtain ⟨refusals, log, leaves, wbuf⟩ := settleEntry_refused (e := e) (w := w) region refused
      exact ⟨committed s _, _, runs, refusals, rfl, rfl, rfl, rfl, log, leaves, quiet_committed wbuf⟩
  case coalesce =>
    have runs := coalesce_covered at_ write weak free later cover covered between unseen
    obtain ⟨log, -, wbuf, leaves⟩ := discardEntry_keeps s k e w
    exact ⟨committed s _, runs, leaves, log, quiet_committed wbuf⟩
  case depart =>
    have sent := tidies_launch s { id := e.id, ctx := k, frame := e.frame, act := e.act, core := core, owner := owner, body := b, tag := e.tag }
    refine ⟨committed s _, messageDepart_goes at_ msg free sender rfl room, (dropEntry_net ..).trans sent.net, ?_,
      quiet_committed ((dropEntry_wbuf ..).trans sent.wbuf)⟩
    exact (leaves_dropEntry _ k e.id).of_keeps (s := s) (sent.ctxOf k) sent.orphans rfl
  case unknown =>
    change execLinkWriteAck w s = _
    simp only [execLinkWriteAck, List.contains_iff_mem, h, if_false]
    exact commit_clean s s rfl inv.wbuf
  case kept =>
    change execLinkWriteAck w s = _
    simp only [execLinkWriteAck, List.contains_iff_mem, h, if_true]
    refine .trans (congrArg (commit s) ?_) (commit_clean s _ rfl inv.wbuf)
    rcases kept with free | none
    · split <;> simp [free]
    · simp [none]
  case dropped =>
    change execLinkWriteAck w s = _
    simp only [execLinkWriteAck, List.contains_iff_mem, h, dropped, from_, if_true]

end Sys2Proof.Machine
end


section
/-! SUPPORT. What a table entry reads back as (R382, R383): one equation per class, and the value that a taken write leaves. -/

namespace Sys2Proof.Machine

open Sys2Proof

/-! ### One equation per class -/

theorem tableRead_committed (s z : State) (cls kind id inst : Nat) :
    tableRead (committed s z) cls kind id inst = tableRead z cls kind id inst := rfl

section
variable (t : State) {o i r c k : Nat}

theorem tableRead_wayQuota (ho : o < 4096) (hr : r < 384) : tableRead t 0x02 1 o r = word (NMap.get (ownerOf t o).quotas r 0) :=
  if_neg (by simp [entryOk, tableRow, ho, hr])

theorem tableRead_ifaceWeight (hc : slotClass c = true) (hi : i < 256) :
    tableRead t c 0 i 0 = word (NMap.get (ifaceOf t i).weights c 0) := by
  have entry : entryOk c 0 i 0 = true := by simp [entryOk, tableRow_weight hc, hi]
  rcases slotClass_cases hc with rfl | rfl | rfl | rfl | rfl | rfl | rfl | rfl <;> exact if_neg (by simp [entry])

theorem tableRead_ownerWeight (hc : slotClass c = true) (ho : o < 4096) :
    tableRead t c 1 o 0 = word (NMap.get (ownerOf t o).weights c 0) := by
  have entry : entryOk c 1 o 0 = true := by simp [entryOk, tableRow_weight hc, ho]
  rcases slotClass_cases hc with rfl | rfl | rfl | rfl | rfl | rfl | rfl | rfl <;> exact if_neg (by simp [entry])

theorem tableRead_peerBase (hk : k < 16) : tableRead t 0x0A 2 0 k = word (NMap.get t.peerBase k 0) :=
  if_neg (by simp [entryOk, tableRow, hk])

theorem tableRead_owner (ho : o < 4096) : tableRead t 0x0E 1 o 0 = word (b2n (ownerOf t o).live + (ownerOf t o).iface * 2 ^ 8) :=
  if_neg (by simp [entryOk, tableRow, ho])

theorem tableRead_key (ho : o < 4096) : tableRead t 0x0F 1 o 0 = (ownerOf t o).key :=
  if_neg (by simp [entryOk, tableRow, ho])

theorem tableRead_bucket (ho : o < 4096) : tableRead t 0x10 1 o 0 = word ((ownerOf t o).rate + (ownerOf t o).depth * 2 ^ 9) :=
  if_neg (by simp [entryOk, tableRow, ho])

theorem tableRead_nodeQuota (ho : o < 4096) : tableRead t 0x11 1 o 0 = word (ownerOf t o).nodeQuota :=
  if_neg (by simp [entryOk, tableRow, ho])

theorem tableRead_root (ho : o < 4096) : tableRead t 0x12 1 o 0 = word (ownerOf t o).root :=
  if_neg (by simp [entryOk, tableRow, ho])

theorem tableRead_descriptor (ho : o < 4096) : tableRead t 0x13 1 o 0 = word ((ownerOf t o).desc + (ownerOf t o).vector) :=
  if_neg (by simp [entryOk, tableRow, ho])

theorem tableRead_quantum (hi : i < 256) : tableRead t 0x14 0 i 0 = word ((ifaceOf t i).quantum + (ifaceOf t i).banklim * 2 ^ 32
    + (ifaceOf t i).nown * 2 ^ 36 + b2n (ifaceOf t i).qraised * 2 ^ 48) :=
  if_neg (by simp [entryOk, tableRow, hi])

theorem tableRead_partition (hi : i < 256) (hr : r < 384) : tableRead t 0x15 0 i r = word (b2n ((ringOf t r).part == some i)) :=
  if_neg (by simp [entryOk, tableRow, hi, hr])

theorem tableRead_record (hi : i < 256) (hk : k < 1024) :
    tableRead t 0x16 0 i k = word ((recOf t i k).image * 2 ^ 8 + lstateCode (recOf t i k).state) :=
  if_neg (by simp [entryOk, tableRow, hi, hk])

theorem tableRead_sharingKey (hk : k < 256) : tableRead t 0x17 2 0 k = NMap.get t.sharingKeys k 0 :=
  if_neg (by simp [entryOk, tableRow, hk])

theorem tableRead_nodeBase : tableRead t 0x19 2 0 0 = word t.nodeBase := by simp [tableRead, entryOk, tableRow]

theorem tableRead_absent (hr : r < 384) : tableRead t 0x1A 2 0 r = word (ringOf t r).absent :=
  if_neg (by simp [entryOk, tableRow, hr])

theorem tableRead_linkMask : tableRead t 0x1B 2 0 0 = t.linkMask.setWidth 64 := by
  simp [tableRead, entryOk, tableRow]

theorem tableRead_ectr (ho : o < 4096) : tableRead t 0x1D 1 o 0 = ectrWord (ownerOf t o) :=
  if_neg (by simp [entryOk, tableRow, ho])

end

/-! ### The values of the rows with fields (R208, R368, R385, R386) -/

/-- A word within some low bits is put together again from its fields. -/
theorem word_bucket {v : Word} (h : v.toNat < 2 ^ 17) : word (bits v 8 0 + bits v 16 9 * 2 ^ 9) = v := by
  apply BitVec.eq_of_toNat_eq
  simp only [word, bits, BitVec.toNat_ofNat]
  omega

theorem word_descriptor (v : Word) : word (v.toNat / 64 * 64 + v.toNat % 64) = v := by
  apply BitVec.eq_of_toNat_eq
  simp only [word, BitVec.toNat_ofNat]
  omega

theorem word_quantum {v : Word} (h : bits v 63 36 = 0) :
    word (bits v 31 0 + bits v 35 32 * 2 ^ 32 + bits v 47 36 * 2 ^ 36 + b2n false * 2 ^ 48) = v := by
  have unraised : b2n false = 0 := rfl
  rw [unraised]
  apply BitVec.eq_of_toNat_eq
  simp only [word, bits, BitVec.toNat_ofNat] at *
  omega

theorem word_toNat (v : Word) : word v.toNat = v := (BitVec.ofNat_toNat ..).trans (BitVec.setWidth_eq v)

theorem word_mask {v : Word} (h : v.toNat < 2 ^ 16) : (v.setWidth 16).setWidth 64 = v := by
  apply BitVec.eq_of_toNat_eq
  simp only [BitVec.toNat_setWidth]
  omega

/-! ### Launch records (R386) -/

/-- A build's value is its image's address, a free's is 1 (R386). -/
theorem valueOk_record {n : Nat} (h : n % 2 ^ 8 = 0 ∧ n < 2 ^ 56) : valueOk 0x16 n = true := by
  have address : Nat.land n (2 ^ 56 - 2 ^ 8) = n := (land_field_eq_self n 8 48).2 h
  have even : n &&& 1 = 0 := by rw [Nat.and_one_is_mod]; omega
  have mask : Nat.land n (2 ^ 56 - 2 ^ 8 + 1) = n := by
    change n &&& ((2 ^ 56 - 2 ^ 8) ||| 1) = n
    rw [Nat.and_or_distrib_left, even, Nat.or_zero]
    exact address
  simpa only [valueOk, tableRow, List.any_cons, List.any_nil, Bool.or_false, beq_iff_eq] using mask

theorem tableWrite_record (s : State) {i k : Nat} (hi : i < 256) (hk : k < 1024) {v : Word} (h : valueOk 0x16 v.toNat = true) :
    tableWrite s 0x16 0 i k v = writeRecord s i k v :=
  calc
    _ = if True then writeRecord s i k v else none := guarded_row (entryOk_iface rfl hi hk) (by simp [h])
    _ = _ := if_pos trivial

theorem recOf_selecting (s : State) (w : Word) (i k : Nat) : recOf (selecting s w) i k = recOf s i k := by
  rw [recOf, recOf, ifaceOf_selecting]

/-- An event whose write its row takes reads back as the entry of the state written. -/
theorem readsBack {s z : State} {j : Instr} {cls kind id inst : Nat} {w : Word} (runs : exec j s = commit s z)
    (reads : tableRead z cls kind id inst = w) : ∃ t, exec j s = .next t ∧ tableRead t cls kind id inst = w :=
  ⟨committed s z, runs, reads⟩

theorem rdNat_selecting (s : State) (w : Word) (a n : Nat) : rdNat (selecting s w) a n = rdNat s a n := by
  have bytes : ∀ b, byteAt (selecting s w) b = byteAt s b := fun b => by rw [byteAt, byteAt, selecting]
  induction n generalizing a with
  | zero => rfl
  | succ n ih => rw [rdNat, rdNat, bytes, ih]

/-- A freed record keeps its image, and its STATE is 0 (R386). -/
theorem recordFree_reads (s : State) {i k : Nat} (hi : i < 256) (hk : k < 1024) (still : (recOf s i k).state ≠ .running) :
    ∃ t, exec (.recordFree i k) s = .next t ∧ tableRead t 0x16 0 i k = word ((recOf s i k).image * 2 ^ 8) := by
  have freed : ∀ u : State, recOf u i k = recOf s i k →
      tableWrite u 0x16 0 i k 1 = some (setRec u i k { recOf u i k with state := .unbuilt }) := fun u same => by
    rw [tableWrite_record u hi hk (by decide), writeRecord, if_pos (by decide), if_neg (by rwa [same])]
  refine readsBack (tableStep_taken (freed _ (recOf_selecting ..))) ?_
  simp only [tableRead_record _ hi hk, recOf_setRec_same, recOf_selecting, lstateCode, Nat.add_zero]

/-- A record that is built keeps its image's address (R386). -/
theorem buildRecord_taken {s : State} {i n a : Nat} (still : (recOf s i n).state ≠ .running) (dram : a + 256 ≤ Config.dramEnd)
    (sound : imageOk ((upto 32).map fun j => rdNat s (a + 8 * j) 8) = true) :
    ∃ q, buildRecord s i n a = some (setRec s i n q) ∧ q.state = .idle ∧ q.image = a / 2 ^ 8 :=
  ⟨_, if_neg (by rintro (h | h | h); exacts [still h, absurd dram (by omega), by simp [sound] at h]), rfl, rfl⟩

/-- A record that is built has its image's address, and STATE 1, whatever the image's reserved bits hold (R386). -/
theorem recordBuild_reads (s : State) {i k : Nat} {v : Word} (hi : i < 256) (hk : k < 1024) (still : (recOf s i k).state ≠ .running)
    (high : bits v 63 56 = 0) (low : bits v 7 0 = 0) (dram : bits v 55 8 * 2 ^ 8 + 256 ≤ Config.dramEnd)
    (sound : imageOk ((upto 32).map fun j => rdNat s (bits v 55 8 * 2 ^ 8 + 8 * j) 8) = true) :
    ∃ t, exec (.recordBuild i k v) s = .next t ∧ tableRead t 0x16 0 i k = v + 1 := by
  have address : v.toNat % 2 ^ 8 = 0 ∧ v.toNat < 2 ^ 56 ∧ bits v 55 8 * 2 ^ 8 = v.toNat := by
    simp only [bits] at high low ⊢
    have := v.isLt
    omega
  obtain ⟨aligned, small, at_⟩ := address
  have build : bit v 0 = false := by
    rw [bit, BitVec.getLsbD, Nat.testBit_zero, decide_eq_false_iff_not]
    omega
  have runs : exec (.recordBuild i k v) s = tableStep s 0x16 0 i k v := if_neg (by simp [build])
  obtain ⟨q, built, idle, image⟩ := buildRecord_taken (s := selecting s (selectWord 0x16 0 i k)) (i := i) (n := k)
    (by rwa [recOf_selecting]) dram (by simpa only [rdNat_selecting] using sound)
  have taken : tableWrite (selecting s (selectWord 0x16 0 i k)) 0x16 0 i k v = some (setRec (selecting s (selectWord 0x16 0 i k)) i k q) := by
    rw [tableWrite_record _ hi hk (valueOk_record ⟨aligned, small⟩), writeRecord, build, if_neg Bool.false_ne_true, built]
  refine readsBack (runs.trans (tableStep_taken taken)) ?_
  have back : v.toNat / 2 ^ 8 * 2 ^ 8 = v.toNat := Nat.div_mul_cancel (Nat.dvd_of_mod_eq_zero aligned)
  rw [tableRead_record _ hi hk, recOf_setRec_same, image, idle, at_, back, lstateCode]
  exact (BitVec.ofNat_add ..).trans (congrArg (· + 1) (word_toNat v))

/-! ### What a taken write leaves, class by class -/

section
variable (z : State) {o i r c k : Nat} {v : Word} (w : Owner) (f : Iface)

theorem reads_wayQuota (ho : o < 4096) (hr : r < 384) :
    tableRead (setOwner z o { w with quotas := NMap.put w.quotas r v.toNat }) 0x02 1 o r = v := by
  rw [tableRead_wayQuota _ ho hr, ownerOf_setOwner_same, get_put_same, word_toNat]

theorem reads_ifaceWeight (hc : slotClass c = true) (hi : i < 256) :
    tableRead (setIface z i { f with weights := NMap.put f.weights c v.toNat }) c 0 i 0 = v := by
  rw [tableRead_ifaceWeight _ hc hi, ifaceOf_setIface_same, get_put_same, word_toNat]

theorem reads_ownerWeight (hc : slotClass c = true) (ho : o < 4096) :
    tableRead (setOwner z o { w with weights := NMap.put w.weights c v.toNat }) c 1 o 0 = v := by
  rw [tableRead_ownerWeight _ hc ho, ownerOf_setOwner_same, get_put_same, word_toNat]

theorem reads_peerBase (hk : k < 16) : tableRead { z with peerBase := NMap.put z.peerBase k v.toNat } 0x0A 2 0 k = v := by
  rw [tableRead_peerBase _ hk, get_put_same, word_toNat]

theorem reads_created (ho : o < 4096) (live : (ownerOf z o).live = true) (iface : (ownerOf z o).iface = i) :
    tableRead z 0x0E 1 o 0 = word (1 + i * 2 ^ 8) := by
  rw [tableRead_owner _ ho, live, iface, b2n, if_pos rfl]

theorem reads_destroyed (ho : o < 4096) (dead : (ownerOf z o).live = false) (iface : (ownerOf z o).iface = 0) :
    tableRead z 0x0E 1 o 0 = 0 := by
  rw [tableRead_owner _ ho, dead, iface]
  rfl

theorem reads_bucket (ho : o < 4096) (small : v.toNat < 2 ^ 17) :
    tableRead (setOwner z o { w with rate := bits v 8 0, depth := bits v 16 9 }) 0x10 1 o 0 = v := by
  rw [tableRead_bucket _ ho, ownerOf_setOwner_same, word_bucket small]

theorem reads_nodeQuota (ho : o < 4096) : tableRead (setOwner z o { w with nodeQuota := v.toNat }) 0x11 1 o 0 = v := by
  rw [tableRead_nodeQuota _ ho, ownerOf_setOwner_same, word_toNat]

theorem reads_root (ho : o < 4096) : tableRead (setOwner z o { w with root := v.toNat }) 0x12 1 o 0 = v := by
  rw [tableRead_root _ ho, ownerOf_setOwner_same, word_toNat]

theorem reads_descriptor (ho : o < 4096) (lost : Nat) : tableRead (setOwner z o
    { w with desc := v.toNat / 64 * 64, vector := v.toNat % 64, lostSeen := lost }) 0x13 1 o 0 = v := by
  rw [tableRead_descriptor _ ho, ownerOf_setOwner_same, word_descriptor]

theorem reads_quantum (hi : i < 256) (high : bits v 63 36 = 0) (floor : 8192 * bits v 35 32 ≤ bits v 31 0) :
    tableRead (setIface z i { f with quantum := max (bits v 31 0) (8192 * bits v 35 32), banklim := bits v 35 32, nown := bits v 47 36,
                                     qraised := decide (bits v 31 0 < 8192 * bits v 35 32) }) 0x14 0 i 0 = v := by
  rw [tableRead_quantum _ hi, ifaceOf_setIface_same, max_eq_left floor, decide_eq_false (Nat.not_lt.2 floor)]
  exact word_quantum high

theorem reads_partition (hi : i < 256) (hr : r < 384) (x : RingSt) : tableRead (setRing z r { x with part := some i }) 0x15 0 i r = 1 := by
  rw [tableRead_partition _ hi hr, ringOf_setRing_same, beq_self_eq_true]
  rfl

theorem reads_sharingKey (hk : k < 256) : tableRead { z with sharingKeys := NMap.put z.sharingKeys k v } 0x17 2 0 k = v := by
  rw [tableRead_sharingKey _ hk, get_put_same]

theorem reads_nodeBase : tableRead { z with nodeBase := v.toNat } 0x19 2 0 0 = v := by
  rw [tableRead_nodeBase, word_toNat]

theorem reads_absent (hr : r < 384) (x : RingSt) : tableRead (setRing z r { x with absent := 0 }) 0x1A 2 0 r = 0 := by
  rw [tableRead_absent _ hr, ringOf_setRing_same]
  rfl

theorem reads_linkMask (small : v.toNat < 2 ^ 16) : tableRead { z with linkMask := v.setWidth 16 } 0x1B 2 0 0 = v := by
  rw [tableRead_linkMask, word_mask small]

theorem reads_ectr (ho : o < 4096) : tableRead (setOwner z o { w with ectr := 0, ectrSat := false }) 0x1D 1 o 0 = 0 := by
  rw [tableRead_ectr _ ho, ownerOf_setOwner_same, ectrWord, b2n, if_neg Bool.false_ne_true, Nat.zero_mul]
  rfl

end

end Sys2Proof.Machine
end


section
/-! SUPPORT. What GATE, BANKMAP and CTDAT read back as (R130, R367). -/

namespace Sys2Proof.Machine

open Sys2Proof

theorem gateWrite_reads (s : State) (core : Nat) (v : Word) :
    ∃ t, exec (.gateWrite core v) s = .next t ∧ (coreOf t core).gate = v.setWidth 8 :=
  ⟨committed s (writeGate s core v), rfl, congrArg CoreSt.gate (coreOf_setCore_same ..)⟩

theorem bankmapSelect_reads (s : State) (core : Nat) (v : Word) :
    ∃ t, exec (.bankmapSelect core v) s = .next t ∧ (coreOf t core).bsel = bits v 14 12 :=
  ⟨committed s _, rfl, congrArg CoreSt.bsel (coreOf_setCore_same ..)⟩

/-- A bank that belongs to nobody and is clean goes to an owner below its limit (R367, R385). -/
theorem assignBank_free {s : State} {core b owner : Nat} (free : (NMap.get (coreOf s core).banks b {}).valid = false)
    (clean : (NMap.get (coreOf s core).banks b {}).clean = true) (room : (banksOf s core owner).length < bankLimit s owner)
    (carried : physCore s core < 6144) :
    assignBank s core b owner true = some (setBank s core b { owner := owner, valid := true, clean := true }) := by
  simp [assignBank, free, clean, room, carried]

theorem bankWord_setBank (s : State) (core b : Nat) (x : Bank) : ∃ n, bankWord (setBank s core b x) core b
    = word (x.owner + b * 2 ^ 12 + b2n x.valid * 2 ^ 15 + b2n x.clean * 2 ^ 16 + n * 2 ^ 17) := by
  refine ⟨b2n (bankLive (setBank s core b x) core b), ?_⟩
  simp only [bankWord, setBank, coreOf_setCore_same, get_put_same]

/-- The state in which a core has selected a bank (R367). -/
def bankSelected (s : State) (core b : Nat) : State := setCore s core { coreOf s core with bsel := b }

theorem bankSelected_banks (s : State) (core b : Nat) : (coreOf (bankSelected s core b) core).banks = (coreOf s core).banks := by
  rw [bankSelected, coreOf_setCore_same]

theorem writeBankmap_free {s : State} {core : Nat} {v : Word} (writes : bit v 18 = false) (valid : bit v 15 = true)
    (free : (NMap.get (coreOf s core).banks (bits v 14 12) {}).valid = false)
    (clean : (NMap.get (coreOf s core).banks (bits v 14 12) {}).clean = true)
    (room : (banksOf s core (bits v 11 0)).length < bankLimit s (bits v 11 0)) (carried : physCore s core < 6144) :
    writeBankmap s core v = setBank (bankSelected s core (bits v 14 12)) core (bits v 14 12)
      { owner := bits v 11 0, valid := true, clean := true } := by
  have banks := bankSelected_banks s core (bits v 14 12)
  have assigned := assignBank_free (s := bankSelected s core (bits v 14 12)) (b := bits v 14 12) (owner := bits v 11 0)
    (by rwa [banks]) (by rwa [banks]) (by rwa [banksOf, banks]) carried
  simp only [writeBankmap, writes, valid, Bool.false_eq_true, if_false]
  exact congrArg (orWref _ core) assigned

theorem bits_of_bit {v : Word} {i : Nat} (h : bit v i = true) : bits v i i = 1 := by
  rw [bit, BitVec.getLsbD, Nat.testBit_eq_decide_div_mod_eq, decide_eq_true_eq] at h
  simpa [bits] using h

theorem bankmapWrite_reads {s : State} {core : Nat} {v : Word} (writes : bit v 18 = false) (valid : bit v 15 = true)
    (free : (NMap.get (coreOf s core).banks (bits v 14 12) {}).valid = false)
    (clean : (NMap.get (coreOf s core).banks (bits v 14 12) {}).clean = true)
    (room : (banksOf s core (bits v 11 0)).length < bankLimit s (bits v 11 0)) (carried : physCore s core < 6144) :
    ∃ t, exec (.bankmapWrite core v) s = .next t ∧ bits (bankWord t core (bits v 14 12)) 16 0 = bits v 15 0 + 2 ^ 16 := by
  refine ⟨committed s (writeBankmap s core v), rfl, ?_⟩
  have same : ∀ z, bankWord (committed s z) core (bits v 14 12) = bankWord z core (bits v 14 12) := fun _ => rfl
  obtain ⟨n, reads⟩ := bankWord_setBank (bankSelected s core (bits v 14 12)) core (bits v 14 12)
    { owner := bits v 11 0, valid := true, clean := true }
  have set := bits_of_bit valid
  rw [same, writeBankmap_free writes valid free clean room carried, reads]
  simp only [bits, word, b2n, if_true, BitVec.toNat_ofNat] at set ⊢
  omega

/-! ### The core table (R367) -/

theorem zeroBank_cores (s : State) (core b : Nat) : (zeroBank s core b).cores = s.cores := by
  unfold zeroBank
  exact List.foldlRecOn (motive := fun u : State => u.cores = s.cores) _ _ rfl fun _ h _ _ => h

theorem unhold_cores (s : State) (h : Held) : (unhold s h).cores = s.cores ∧ (unhold s h).coreTable = s.coreTable := by
  cases h <;> exact ⟨rfl, rfl⟩

/-- What waits for a core goes with it; cores and the core table stay (R158, R178). -/
theorem redirect_cores (s : State) (l old new : Nat) :
    (redirect s l old new).cores = s.cores ∧ (redirect s l old new).coreTable = s.coreTable := by
  unfold redirect
  split
  · exact ⟨rfl, rfl⟩
  · refine List.foldlRecOn (motive := fun u : State => u.cores = s.cores ∧ u.coreTable = s.coreTable) _ _ ⟨rfl, rfl⟩
      fun u h e _ => ?_
    obtain ⟨cores, table⟩ := unhold_cores u e.2
    exact ⟨cores.trans h.1, table.trans h.2⟩

theorem ctsel_setCore (s : State) {l : Nat} {x : CoreSt} (c : Nat) (h : x.ctsel = (coreOf s l).ctsel := by rfl) :
    (coreOf (setCore s l x) c).ctsel = (coreOf s c).ctsel := by
  rw [coreOf_setCore]
  split
  · next e => rw [h, e]
  · rfl

/-- A core stands where the table names it, else at the number of its own (R14). -/
theorem physCore_moved (table : NMap Nat) (l p : Nat) : NMap.get (if p = l then NMap.del table l else NMap.put table l p) l l = p := by
  split
  · next e => rw [NMap.get, NMap.del, find_filter_dropped (fun c => c != l) table (by simp), e]; rfl
  · exact get_put_same ..

theorem joinCore_coreTable (s : State) (l : Nat) : (joinCore s l).coreTable = s.coreTable := rfl

theorem joinCore_ctsel (s : State) (l c : Nat) : (coreOf (joinCore s l) c).ctsel = (coreOf s c).ctsel :=
  ctsel_setCore _ c

/-- The core table names the physical core that a logical core moves to, and what each core selects stays (R14, R367). -/
theorem remapCore_spec (s : State) (l p : Nat) :
    physCore (remapCore s l p) l = p ∧ ∀ c, (coreOf (remapCore s l p) c).ctsel = (coreOf s c).ctsel := by
  have zeroed : ((upto 8).foldl (fun s b => zeroBank s l b) s).cores = s.cores :=
    List.foldlRecOn (motive := fun u : State => u.cores = s.cores) _ _ rfl fun u h b _ => (zeroBank_cores u l b).trans h
  unfold remapCore
  generalize (upto 8).foldl (fun s b => zeroBank s l b) s = z at *
  constructor
  · rw [physCore, (redirect_cores ..).2, joinCore_coreTable]
    exact physCore_moved z.coreTable l p
  · intro c
    rw [coreOf, (redirect_cores ..).1]
    refine (joinCore_ctsel _ l c).trans ((ctsel_setCore z c).trans ?_)
    rw [coreOf, coreOf, zeroed]

theorem ctdatWrite_reads {s : State} {core : Nat} {v : Word} (logical : (coreOf s core).ctsel < 6144)
    (empty : coreHasBank s (coreOf s core).ctsel = false) (physical : bits v 12 0 < 6144)
    (free : mappedElsewhere s (coreOf s core).ctsel (bits v 12 0) = false) :
    ∃ t, exec (.ctdatWrite core v) s = .next t ∧ readCtdat t core = bits v 12 0 := by
  have open_ : ¬(6144 ≤ (coreOf s core).ctsel ∨ coreHasBank s (coreOf s core).ctsel = true
      ∨ (bits v 12 0 < 6144 ∧ mappedElsewhere s (coreOf s core).ctsel (bits v 12 0) = true)) := by
    simp [logical, empty, free]
  have reads : ∀ z : State, (coreOf z core).ctsel = (coreOf s core).ctsel → physCore z (coreOf s core).ctsel = bits v 12 0 →
      readCtdat (committed s z) core = bits v 12 0 := fun z ctsel at_ => by
    have same : readCtdat (committed s z) core = readCtdat z core := rfl
    rw [same, readCtdat, ctsel, if_neg (by omega), at_, Nat.mod_eq_of_lt (by omega)]
  refine ⟨committed s (writeCtdat s core v), rfl, ?_⟩
  rw [writeCtdat, assignCore, if_neg open_]
  by_cases here : physCore s (coreOf s core).ctsel = bits v 12 0
  · rw [if_pos here]
    exact reads s rfl here
  · obtain ⟨at_, ctsel⟩ := remapCore_spec s (coreOf s core).ctsel (bits v 12 0)
    rw [if_neg here]
    exact reads _ (ctsel core) at_

end Sys2Proof.Machine
end


section
/-! SUPPORT. The instructions of the containment tree and a roll-up step, where they complete: nodes and tile entries after each
(R350-R362). -/

namespace Sys2Proof.Machine

open Sys2Proof

/-! ### What leaves the tree alone -/

/-- What holds the tree: node records, home slices with the entries of tiles, and the table that places them. -/
def treeOf (s : State) : NMap Node × NMap RingSt × NMap Nat := (s.nodes, s.rings, s.coreTable)

theorem nodeOf_of_tree {s t : State} (h : treeOf t = treeOf s) (n : Nat) : nodeOf t n = nodeOf s n := by
  rw [nodeOf, nodeOf, (Prod.mk.inj h).1]

theorem tileOf_of_tree {s t : State} (h : treeOf t = treeOf s) (n : Nat) : tileOf t n = tileOf s n := by
  simp only [treeOf, Prod.mk.injEq] at h
  obtain ⟨-, rings, table⟩ := h
  simp only [tileOf, tileRing, homeRing, ringOfCore, physCore, ringOf, rings, table]

theorem treeOf_foldl {α : Type} {f : State → α → State} (hf : ∀ u a, treeOf (f u a) = treeOf u) (l : List α) (s : State) :
    treeOf (l.foldl f s) = treeOf s :=
  List.foldlRecOn (motive := fun u => treeOf u = treeOf s) l f rfl fun u h a _ => (hf u a).trans h

theorem treeOf_settleBytes (s : State) (w : Nat) : treeOf (settleBytes s w) = treeOf s := by
  have recalled : ∀ u locs, treeOf (recallHost u w locs) = treeOf u := fun u locs => by unfold recallHost; split <;> rfl
  have discarded : ∀ u locs, treeOf (discardFetch u locs) = treeOf u := fun u locs => by
    unfold discardFetch; exact treeOf_foldl (fun _ _ => by rfl) _ _
  refine (recalled _ _).trans ((discarded _ _).trans (treeOf_foldl (fun u p => ?_) (wrec s w).bytes s))
  dsimp only
  split <;> rfl

theorem treeOf_learn (s : State) (k : Nat) (ids : List Nat) : treeOf (learn s k ids) = treeOf s := by unfold learn; split <;> rfl

theorem treeOf_nodeEvent (s : State) (ws : List (Nat × Nat)) : treeOf (nodeEvent s ws).2 = treeOf s :=
  (treeOf_learn ..).trans ((treeOf_settleBytes ..).trans rfl)

theorem treeOf_takeBump (s : State) (chain cause : List Nat) : treeOf (takeBump s chain cause) = treeOf s := by
  unfold takeBump; split <;> rfl

theorem treeOf_nodeWrite (s : State) (ws : List (Nat × Nat)) : treeOf (nodeWrite s ws) = treeOf s := by
  have requested : ∀ u owner id at_ l, treeOf (requestAt u owner id at_ l) = treeOf u := fun u owner id at_ l => by cases l <;> rfl
  exact (treeOf_settleBytes ..).trans (treeOf_foldl (fun u p => requested ..) _ _)

theorem treeOf_setPc (s : State) (p : Word) : treeOf (setPc s p) = treeOf s := by unfold setPc; split <;> rfl

theorem treeOf_parkValue (s : State) (d : Reg) (v : Word) : treeOf (parkValue s d v) = treeOf s := treeOf_setPc ..

theorem treeOf_committed (s u : State) : treeOf (committed s u) = treeOf u := rfl

/-- A step that ends by owing a value leaves every node as it made it. -/
theorem nodeOf_owed (s u : State) (d : Reg) (v : Word) (n : Nat) : nodeOf (committed s (parkValue u d v)) n = nodeOf u n :=
  nodeOf_of_tree ((treeOf_committed ..).trans (treeOf_parkValue ..)) n

/-! ### Heights, depths and records of nodes (R351) -/

theorem nodeOf_setNode (s : State) (n m : Nat) (x : Node) : nodeOf (setNode s n x) m = if m = n then x else nodeOf s m := by
  simp [nodeOf, setNode, get_put]

section
variable {α : Type} (f : Node → α)

/-- A record set with a field as it was leaves that field of every node. -/
theorem setNode_keeps (s : State) {n : Nat} {x : Node} (h : f x = f (nodeOf s n)) (m : Nat) : f (nodeOf (setNode s n x) m) = f (nodeOf s m) := by
  rw [nodeOf_setNode]
  split
  · next e => rw [h, e]
  · rfl

theorem reheight_keeps (hf : ∀ x h, f { x with height := h } = f x) (s : State) (chain : List Nat) (m : Nat) :
    f (nodeOf (reheight s chain) m) = f (nodeOf s m) :=
  List.foldlRecOn (motive := fun u => f (nodeOf u m) = f (nodeOf s m)) _ _ rfl fun u h _ _ => (setNode_keeps f u (hf ..) m).trans h

theorem redepth_keeps (hf : ∀ x d, f { x with depth := d } = f x) (g n d : Nat) (s : State) (m : Nat) :
    f (nodeOf (redepth g n d s) m) = f (nodeOf s m) := by
  induction g generalizing n d s with
  | zero => rfl
  | succ g ih =>
    refine (List.foldlRecOn (motive := fun u => f (nodeOf u m) = f (nodeOf (setNode s n { nodeOf s n with depth := d }) m)) _ _ rfl
      fun u h p _ => (ih p.1 (d + 1) u).trans h).trans (setNode_keeps f s (hf ..) m)

end

/-! ### The steps of `cnode`, `cmove` and `cdrop` on nodes (R358-R360) -/

/-- A node is made under the root (R358). -/
theorem nodeOf_createNode {s : State} {owner m : Nat} (base : s.nodeBase ≠ 0) (room : nodesHeld s owner < (ownerOf s owner).nodeQuota)
    (free : freeNode s = some m) : nodeOf (createNode s owner 0).1 m
      = { count := 0, parent := 0, owner := owner, depth := 0, live := true, children := 0, tiles := 0, height := 0 } := by
  simp only [createNode, base, free, Nat.not_le.2 room, ne_eq, not_true, false_and, if_false, or_self, if_true]
  rw [nodeOf_of_tree (treeOf_nodeEvent ..), nodeChain, if_pos rfl]
  exact (nodeOf_setNode ..).trans (if_pos rfl)

/-- A node moves under the root (R360). -/
theorem nodeOf_moveNode {s : State} {owner n : Nat} (own : ownNode s owner n = true) (parent : (nodeOf s n).parent ≠ 0)
    (height : (nodeOf s n).height ≤ 15) : (nodeOf (moveNode s owner n 0).1 n).parent = 0 := by
  have chain : nodeChain s 16 0 = [] := if_pos rfl
  simp only [moveNode, own, chain, parent, parent.symm, Nat.not_lt.2 height, List.contains_nil, ne_eq, not_true, false_and, or_self,
    Bool.true_eq_false, Bool.false_eq_true, Nat.zero_add, if_true, if_false]
  rw [nodeOf_of_tree (treeOf_takeBump ..), nodeOf_of_tree (treeOf_nodeEvent ..), reheight_keeps Node.parent fun _ _ => rfl,
    reheight_keeps Node.parent fun _ _ => rfl, redepth_keeps Node.parent fun _ _ => rfl]
  refine (setNode_keeps Node.parent _ (by rfl) n).trans ?_
  rw [nodeOf_setNode, if_pos rfl]

/-- A node without children or tiles is deleted (R359). -/
theorem nodeOf_deleteNode {s : State} {n : Nat} (children : (nodeOf s n).children = 0) (tiles : (nodeOf s n).tiles = 0) :
    (nodeOf (deleteNode s n).1 n).live = false := by
  simp only [deleteNode]
  rw [if_neg (by simp [children, tiles]), nodeOf_of_tree (treeOf_takeBump ..), nodeOf_of_tree (treeOf_nodeEvent ..), reheight_keeps Node.live fun _ _ => rfl]
  have dead : (nodeOf (setNode s n { nodeOf s n with live := false }) n).live = false := by rw [nodeOf_setNode, if_pos rfl]
  split
  · exact dead
  · exact (setNode_keeps Node.live _ (by rfl) n).trans dead

/-! ### One tile (R352, R359) -/

theorem tileOf_enrolTile (s : State) (n t : Nat) : tileOf (enrolTile s n t) t = some (n, 0) := by
  have ring : tileRing (enrolTile s n t) t = tileRing s t := rfl
  have tiles : ringOf (enrolTile s n t) (tileRing s t)
      = { ringOf s (tileRing s t) with tiles := NMap.put (ringOf s (tileRing s t)).tiles t (n, 0) } := ringOf_setRing_same ..
  rw [tileOf, ring, tiles, find_put_same]

theorem tileOf_removeTile (s : State) (n t : Nat) : tileOf (removeTile s n t) t = none := by
  have ring : tileRing (removeTile s n t) t = tileRing s t := rfl
  have tiles : ringOf (removeTile s n t) (tileRing s t)
      = { ringOf s (tileRing s t) with tiles := NMap.del (ringOf s (tileRing s t)).tiles t } := ringOf_setRing_same ..
  rw [tileOf, ring, tiles, NMap.del]
  exact find_filter_dropped (fun u => u != t) _ (by simp)

/-- A run of one tile that may be enrolled enrols it. -/
theorem runTiles_enrol {s : State} {n pa : Nat} {va : Word} {x : Xlat} (at_ : tileWhere s va true = .mem pa x)
    (absent : tileOf s (pa / 4096) = none) (allowed : tileAllowed s (pa / 4096) x = true)
    (room : tileEntryRoom s (tileRing s (pa / 4096)) = true) :
    runTiles false n 1 va s 0 = .run (enrolTile s n (pa / 4096)) 0 1 none := by
  simp [runTiles, at_, enrolStop, oneTile, absent, allowed, room]

/-- A run of one tile of the node removes it. -/
theorem runTiles_remove {s : State} {n pa c : Nat} {va : Word} {x : Xlat} (at_ : tileWhere s va false = .mem pa x)
    (entered : tileOf s (pa / 4096) = some (n, c)) :
    runTiles true n 1 va s 0 = .run (removeTile s n (pa / 4096)) 0 1 none := by
  simp [runTiles, at_, oneTile, entered]

/-! ### Instructions that complete (R84, R127, R358-R362) -/

/-- The release condition of R84 holds, or has been waited for. -/
def released (s : State) : Prop :=
  (curFrame s).granted = true ∨ releasable s (curCtx s) (releaseAfter s).1 (releaseAfter s).2 [] [] = true

theorem afterRelease_released {s : State} (h : released s) (k : State → State) : afterRelease s k = k s :=
  if_pos (by simpa [released] using h)

/-- The value that a frame waits for is owed to it. -/
theorem parkValue_owes (s : State) (d : Reg) (v : Word) : ∃ z ∈ (curFrame (parkValue s d v)).owed, z.val = some v := by
  have kept : ∀ u p, (curFrame (setPc u p)).owed = (curFrame u).owed := fun u p =>
    (congrArg Frame.owed (moves_setPc u p).frame :)
  simp only [parkValue, parkAnswer, curFrame_setCur, kept, owe, List.mem_append, List.mem_singleton]
  exact ⟨_, .inr rfl, rfl⟩

/-- An instruction that ends by owing a value. -/
theorem owes_of_parkValue {s u : State} {i : Instr} {d : Reg} {v : Word} (runs : exec i s = commit s (parkValue u d v)) :
    ∃ t, exec i s = .next t ∧ ∃ z ∈ (curFrame t).owed, z.val = some v :=
  ⟨committed s _, runs, parkValue_owes u d v⟩

section
variable {s : State} {d a b : Reg}

theorem cnode_makes {m : Nat} (go : released s) (root : (rd s a).toNat = 0) (base : s.nodeBase ≠ 0)
    (room : nodesHeld s (curOwner s) < (ownerOf s (curOwner s)).nodeQuota) (free : freeNode s = some m) :
    ∃ t, exec (.cnode d a) s = .next t ∧ (nodeOf t m).live = true ∧ (nodeOf t m).owner = curOwner s := by
  have fits : bits (rd s a) 63 16 = 0 := by simp [bits, root]
  have runs : exec (.cnode d a) s = commit s (parkValue (createNode s (curOwner s) 0).1 d (createNode s (curOwner s) 0).2) := by
    change execCnode d a s = _
    simp only [execCnode, fits, afterRelease_released go, root, ne_eq, not_true, if_false]
  refine ⟨committed s _, runs, ?_⟩
  rw [nodeOf_owed, nodeOf_createNode base room free]
  exact ⟨rfl, rfl⟩

theorem cmove_moves (go : released s) (small : (rd s a).toNat < 2 ^ 16) (root : rd s b = 0)
    (own : ownNode s (curOwner s) (rd s a).toNat = true) (parent : (nodeOf s (rd s a).toNat).parent ≠ 0)
    (height : (nodeOf s (rd s a).toNat).height ≤ 15) :
    ∃ t, exec (.cmove d a b) s = .next t ∧ (nodeOf t (rd s a).toNat).parent = 0 := by
  have fits : bits (rd s a) 63 16 = 0 := by simp only [bits]; omega
  have zero : bits 0 63 16 = 0 ∧ (0 : Word).toNat = 0 := by decide
  have runs : exec (.cmove d a b) s = commit s (parkValue (moveNode s (curOwner s) (rd s a).toNat 0).1 d
      (moveNode s (curOwner s) (rd s a).toNat 0).2) := by
    change execCmove d a b s = _
    simp only [execCmove, fits, root, zero, afterRelease_released go, ne_eq, not_true, or_self, if_false]
  exact ⟨committed s _, runs, (congrArg Node.parent (nodeOf_owed ..)).trans (nodeOf_moveNode own parent height)⟩

theorem cdrop_deletes (go : released s) (small : (rd s a).toNat < 2 ^ 16) (zero : rd s b = 0)
    (own : ownNode s (curOwner s) (rd s a).toNat = true) (children : (nodeOf s (rd s a).toNat).children = 0)
    (tiles : (nodeOf s (rd s a).toNat).tiles = 0) :
    ∃ t, exec (.cdrop d a b) s = .next t ∧ (nodeOf t (rd s a).toNat).live = false := by
  have fields : bits (rd s a) 15 0 = (rd s a).toNat ∧ bits (rd s a) 31 16 = 0 ∧ bits (rd s a) 63 49 = 0 ∧ bits (rd s a) 47 32 = 0 := by
    simp only [bits]
    omega
  obtain ⟨node, mid, high, count⟩ := fields
  have alone : bit (rd s a) 48 = false := Nat.testBit_lt_two_pow (small.trans (by decide))
  have runs : exec (.cdrop d a b) s = commit s (parkValue (deleteNode s (rd s a).toNat).1 d (deleteNode s (rd s a).toNat).2) := by
    change execCdrop d a b s = _
    simp only [execCdrop, node, mid, high, count, alone, zero, own, afterRelease_released go, ne_eq, not_true, or_self, Bool.false_eq_true,
      if_false, if_true]
  exact ⟨committed s _, runs, (congrArg Node.live (nodeOf_owed ..)).trans (nodeOf_deleteNode children tiles)⟩

/-! ### Tiles (R359) -/

/-- A run of tiles that ends with nothing amiss: the bump, and the value owed, leave the tree as the run left it. -/
theorem tilesOp_run {drop : Bool} {n count k : Nat} {va : Word} {u : State} (go : released s) (own : ownNode s (curOwner s) n = true)
    (run : runTiles drop n count va s 0 = .run u 0 k none) : treeOf (tilesOp drop d n count va s) = treeOf u := by
  simp only [tilesOp, afterRelease_released go, own, run, Bool.not_true, Bool.false_eq_true, if_false]
  rw [treeOf_parkValue]
  split
  · rfl
  · rw [treeOf_takeBump, treeOf_nodeEvent]

variable {pa : Nat} {z : Xlat} (go : released s) (own : ownNode s (curOwner s) (bits (rd s a) 15 0) = true)
  (one : bits (rd s a) 47 32 = 1) (mid : bits (rd s a) 31 16 = 0) (high : bits (rd s a) 63 49 = 0) (aligned : (rd s b).toNat % 4096 = 0)
include go own one mid high aligned

theorem cenr_enrols (enrol : bit (rd s a) 48 = false) (at_ : tileWhere s (rd s b) true = .mem pa z) (absent : tileOf s (pa / 4096) = none)
    (allowed : tileAllowed s (pa / 4096) z = true) (room : tileEntryRoom s (tileRing s (pa / 4096)) = true) :
    ∃ t, exec (.cenr d a b) s = .next t ∧ tileOf t (pa / 4096) = some (bits (rd s a) 15 0, 0) := by
  have top : bits (rd s a) 63 48 = 0 := by
    rw [bit, BitVec.getLsbD, Nat.testBit_eq_decide_div_mod_eq, decide_eq_false_iff_not] at enrol
    simp only [bits] at high ⊢
    omega
  have runs : exec (.cenr d a b) s = commit s (tilesOp false d (bits (rd s a) 15 0) 1 (rd s b) s) := by
    change execCenr d a b s = _
    simp only [execCenr, mid, top, one, aligned, ne_eq, not_true, Nat.one_ne_zero, or_self, if_false]
  refine ⟨committed s _, runs, ?_⟩
  have tree := tilesOp_run (d := d) go own (runTiles_enrol (n := bits (rd s a) 15 0) at_ absent allowed room)
  exact (tileOf_of_tree ((treeOf_committed ..).trans tree) _).trans (tileOf_enrolTile ..)

theorem cdrop_removes {c : Nat} (drop : bit (rd s a) 48 = true) (at_ : tileWhere s (rd s b) false = .mem pa z)
    (entered : tileOf s (pa / 4096) = some (bits (rd s a) 15 0, c)) :
    ∃ t, exec (.cdrop d a b) s = .next t ∧ tileOf t (pa / 4096) = none := by
  have runs : exec (.cdrop d a b) s = commit s (tilesOp true d (bits (rd s a) 15 0) 1 (rd s b) s) := by
    change execCdrop d a b s = _
    simp only [execCdrop, mid, high, one, drop, aligned, ne_eq, not_true, Nat.one_ne_zero, or_self, if_false, if_true]
  refine ⟨committed s _, runs, ?_⟩
  have tree := tilesOp_run (d := d) go own (runTiles_remove at_ entered)
  exact (tileOf_of_tree ((treeOf_committed ..).trans tree) _).trans (tileOf_removeTile ..)

omit go one mid high aligned own

/-! ### Reads of a node, and roll-up (R354, R361, R362) -/

theorem csettle_owes (small : (rd s a).toNat < 2 ^ 16) (own : ownNode s (curOwner s) (rd s a).toNat = true)
    (granted : (curFrame s).granted = true) : ∃ t, exec (.csettle d a) s = .next t
      ∧ ∃ z ∈ (curFrame t).owed, z.val = some (word (nodeOf s (rd s a).toNat).count) := by
  have fits : bits (rd s a) 63 16 = 0 := by simp only [bits]; omega
  refine owes_of_parkValue (d := d) (u := learnNode s (rd s a).toNat 0) ?_
  change execCsettle d a s = _
  simp only [execCsettle, fits, own, granted, ne_eq, not_true, Bool.not_true, Bool.false_eq_true, if_false, if_true]

theorem cread_owes (small : (rd s a).toNat < 2 ^ 16) (own : ownNode s (curOwner s) (rd s a).toNat = true)
    (within : (rd s b).toNat < 3) : ∃ t, exec (.cread d a b) s = .next t
      ∧ ∃ z ∈ (curFrame t).owed, z.val = some (nodeWord (nodeOf s (rd s a).toNat) (rd s b).toNat) := by
  have fits : bits (rd s a) 63 16 = 0 := by simp only [bits]; omega
  refine owes_of_parkValue (d := d) (u := learnNode s (rd s a).toNat (rd s b).toNat) ?_
  change execCread d a b s = _
  simp only [execCread, fits, own, within, show ¬4 ≤ (rd s b).toNat by omega, ne_eq, not_true, and_false, or_self, Bool.not_true,
    Bool.false_eq_true, if_false, if_true]

theorem rollupStep_counts {m : Nat} {ids : List Nat} (hit : ∃ z ∈ s.bumps, z.id ∈ ids ∧ m ∈ z.chain) (live : (nodeOf s m).live = true) :
    ∃ t, exec (.rollupStep m ids) s = .next t ∧ (nodeOf t m).count = ((nodeOf s m).count + 1) % 2 ^ 64 := by
  have pending : (s.bumps.any fun b => ids.contains b.id && b.chain.contains m) = true := by simpa using hit
  change ∃ t, execRollupStep m ids s = .next t ∧ _
  simp only [execRollupStep, pending, live, if_true]
  refine ⟨committed s _, rfl, ?_⟩
  rw [nodeOf_of_tree ((treeOf_committed ..).trans (treeOf_nodeWrite ..)), nodeOf_setNode, if_pos rfl]

end

end Sys2Proof.Machine
end


section
/-! SUPPORT. Copies that leave an L1: no operation of a write-back makes a copy, takes a line into a home slice or changes who is fused
(R235, R239, R250-R252). -/

namespace Sys2Proof.Machine

open Sys2Proof

/-- Two copies are of one line of one owner under one treatment. -/
def sameCopy (k l : L1Line) : Prop := k.owner = l.owner ∧ k.pa = l.pa ∧ k.treat = l.treat

/-- Every copy and every line of `t` is one of `s`, and who is fused and where cores stand is as in `s`. -/
structure Sheds (s t : State) : Prop where
  table  : t.coreTable = s.coreTable
  copies : ∀ c, ∀ l ∈ (coreOf t c).l1, ∃ k ∈ (coreOf s c).l1, sameCopy k l
  lines  : ∀ r, ∀ p ∈ (ringOf t r).ways, ∃ q ∈ (ringOf s r).ways, q.2.line = p.2.line
  fused  : ∀ r, (ringOf t r).fused = (ringOf s r).fused

section
variable {s t u : State}

theorem Sheds.refl (s : State) : Sheds s s :=
  ⟨rfl, fun _ l h => ⟨l, h, rfl, rfl, rfl⟩, fun _ p h => ⟨p, h, rfl⟩, fun _ => rfl⟩

theorem Sheds.trans (h : Sheds s t) (k : Sheds t u) : Sheds s u where
  table := k.table.trans h.table
  copies c l hl := by
    obtain ⟨m, hm, owner, pa, treat⟩ := k.copies c l hl
    obtain ⟨n, hn, owner', pa', treat'⟩ := h.copies c m hm
    exact ⟨n, hn, owner'.trans owner, pa'.trans pa, treat'.trans treat⟩
  lines r p hp := by
    obtain ⟨q, hq, line⟩ := k.lines r p hp
    obtain ⟨q', hq', line'⟩ := h.lines r q hq
    exact ⟨q', hq', line'.trans line⟩
  fused r := (k.fused r).trans (h.fused r)

/-- One more change, of neither cores nor home slices. -/
theorem Sheds.rest (h : Sheds s t) (e : (u.cores, u.rings, u.coreTable) = (t.cores, t.rings, t.coreTable) := by rfl) : Sheds s u := by
  simp only [Prod.mk.injEq] at e
  obtain ⟨cores, rings, table⟩ := e
  refine ⟨table.trans h.table, fun c l hl => h.copies c l ?_, fun r p hp => h.lines r p ?_, fun r => .trans ?_ (h.fused r)⟩
  · rwa [coreOf, cores] at hl
  · rwa [ringOf, rings] at hp
  · rw [ringOf, ringOf, rings]

theorem Sheds.ite {c : Prop} [Decidable c] (ht : Sheds s t) (hu : Sheds s u) : Sheds s (if c then t else u) := by
  split <;> assumption

theorem Sheds.foldl {α : Type} {f : State → α → State} (h : Sheds s t) (hf : ∀ u a, Sheds s u → Sheds s (f u a)) (l : List α) :
    Sheds s (l.foldl f t) :=
  List.foldlRecOn l f h fun u hu a _ => hf u a hu

/-- A core whose L1 holds no other copies than before. -/
theorem Sheds.setCore (h : Sheds s t) (c : Nat) (x : CoreSt) (hx : ∀ l ∈ x.l1, ∃ k ∈ (coreOf t c).l1, sameCopy k l) :
    Sheds s (setCore t c x) := by
  refine h.trans ⟨rfl, fun d l hl => ?_, fun r p hp => ⟨p, hp, rfl⟩, fun _ => rfl⟩
  rw [coreOf_setCore] at hl
  split at hl
  · next e => exact e ▸ hx l hl
  · exact ⟨l, hl, rfl, rfl, rfl⟩

theorem Sheds.setCore_same (h : Sheds s t) (c : Nat) (x : CoreSt) (hx : x.l1 = (coreOf t c).l1) : Sheds s (Machine.setCore t c x) :=
  h.setCore c x fun l hl => ⟨l, hx ▸ hl, rfl, rfl, rfl⟩

/-- A home slice that holds no other lines than before, and whose ring is fused as before. -/
theorem Sheds.setRing (h : Sheds s t) (r : Nat) (x : RingSt) (fused : x.fused = (ringOf t r).fused)
    (ways : ∀ p ∈ x.ways, ∃ q ∈ (ringOf t r).ways, q.2.line = p.2.line) : Sheds s (setRing t r x) := by
  refine h.trans ⟨rfl, fun c l hl => ⟨l, hl, rfl, rfl, rfl⟩, fun j p hp => ?_, fun j => ?_⟩
  · rw [ringOf_setRing] at hp
    split at hp
    · next e => exact e ▸ ways p hp
    · exact ⟨p, hp, rfl⟩
  · rw [ringOf_setRing]
    split
    · next e => rw [fused, e]
    · rfl

theorem Sheds.setRing_same (h : Sheds s t) (r : Nat) (x : RingSt) (e : (x.fused, x.ways) = ((ringOf t r).fused, (ringOf t r).ways)) :
    Sheds s (Machine.setRing t r x) := by
  simp only [Prod.mk.injEq] at e
  exact h.setRing r x e.1 fun p hp => ⟨p, e.2 ▸ hp, rfl⟩

/-- A way set again for a line that the slice holds. -/
theorem Sheds.setWay (h : Sheds s t) (r i : Nat) (w : Way) (held : ∃ q ∈ (ringOf t r).ways, q.2.line = w.line) :
    Sheds s (setWay t r i w) := by
  refine h.setRing r _ rfl fun p hp => ?_
  rcases mem_put hp with rfl | hp
  · exact held
  · exact ⟨p, hp, rfl⟩

theorem line_of_findWay {r line i : Nat} {w : Way} (h : findWay s r line = some (i, w)) : ∃ q ∈ (ringOf s r).ways, q.2.line = w.line :=
  ⟨(i, w), List.mem_of_find?_eq_some h, rfl⟩

/-! ### Requests and writes that settle (R81, R164, R237, R353) -/

theorem Sheds.charge (h : Sheds s t) (o units : Nat) : Sheds s (charge t o units) := h.ite (.ite h.rest h.rest)

theorem Sheds.requestAt (h : Sheds s t) (owner id : Nat) (at_ : Option Place) (l : List (Nat × Nat)) :
    Sheds s (requestAt t owner id at_ l) := by
  cases l with
  | nil => exact h
  | cons => exact h.rest

theorem Sheds.requestHome (h : Sheds s t) (owner id : Nat) (write : Bool) (ps : List Place) :
    Sheds s (requestHome t owner id write ps) := h.foldl (fun _ _ h => h.requestAt ..) _

theorem Sheds.requestSectors (h : Sheds s t) (ring owner id : Nat) (write : Bool) (ls : List Place) :
    Sheds s (requestSectors t ring owner id write ls) := h.foldl (fun _ _ h => h.requestAt ..) _

theorem Sheds.discardFetch (h : Sheds s t) (locs : List Nat) : Sheds s (discardFetch t locs) := by
  unfold Machine.discardFetch
  exact h.foldl (fun _ _ h => h.setCore_same _ _ (by rfl)) _

theorem Sheds.recallHost (h : Sheds s t) (w : Nat) (locs : List Nat) : Sheds s (recallHost t w locs) := h.ite h.rest

theorem Sheds.settleBytes (h : Sheds s t) (w : Nat) : Sheds s (settleBytes t w) := by
  refine .recallHost (.discardFetch (.rest (h.foldl (fun u a h => ?_) (wrec t w).bytes)) _) ..
  dsimp only
  split <;> exact h.rest

theorem Sheds.markDirty (h : Sheds s t) (sectors : List Nat) : Sheds s (markDirty t sectors) := by
  refine h.foldl (fun u a h => ?_) _
  dsimp only
  split
  · exact h
  · next i w found =>
    obtain ⟨q, hq, line⟩ := line_of_findWay found
    exact h.setWay _ i _ ⟨q, hq, line⟩

theorem Sheds.takeBump (h : Sheds s t) (chain cause : List Nat) : Sheds s (takeBump t chain cause) := h.ite h.rest

theorem Sheds.bumpTile (h : Sheds s t) (n : Nat) (cause : List Nat) : Sheds s (bumpTile t n cause) := by
  unfold Machine.bumpTile
  split
  · exact .takeBump (h.setRing_same _ _ (by rfl)) ..
  · exact h

theorem Sheds.settleWrite (h : Sheds s t) (w : Nat) : Sheds s (settleWrite t w) :=
  .foldl (.markDirty (h.settleBytes w) _) (fun _ _ h => h.bumpTile ..) _

theorem Sheds.hwWrite (h : Sheds s t) (owner a : Nat) (bs : List Byte) (tag : Option Tag) : Sheds s (hwWrite t owner a bs tag) :=
  .settleWrite (.rest (.ite (h.requestHome ..) h)) _

theorem Sheds.descCount (h : Sheds s t) (owner off : Nat) : Sheds s (descCount t owner off) :=
  h.ite (.ite (h.hwWrite ..) h)

/-! ### Entries that leave their queue (R76, R158, R281) -/

theorem Sheds.dropEntry (h : Sheds s t) (k id : Nat) : Sheds s (dropEntry t k id) := by
  obtain ⟨_, _, _, e⟩ := dropEntry_eq t k id
  exact h.rest (by rw [e])

theorem Sheds.discardEntry (h : Sheds s t) (k : Nat) (e : QEntry) (w : Nat) : Sheds s (discardEntry t k e w) :=
  .rest (h.dropEntry k e.id)

theorem Sheds.countCapDrop (h : Sheds s t) (pa : Nat) : Sheds s (countCapDrop t pa) := h.setRing_same _ _ rfl

theorem Sheds.wakeCore (h : Sheds s t) (core : Nat) : Sheds s (wakeCore t core) := h.setCore_same _ _ rfl

/-! ### Copies (R248, R249, R251) -/

theorem Sheds.putL1 (h : Sheds s t) (core : Nat) (x : L1Line) (held : ∃ k ∈ (coreOf t core).l1, sameCopy k x) :
    Sheds s (putL1 t core x) := by
  refine h.setCore core _ fun l hl => ?_
  rcases List.mem_append.1 hl with hl | hl
  · exact ⟨l, (List.mem_filter.1 hl).1, rfl, rfl, rfl⟩
  · obtain rfl := List.mem_singleton.1 hl
    exact held

theorem line_of_recordOf {l : L1Line} {ring i : Nat} {w : Way} (h : recordOf t l = some (ring, i, w)) :
    ∃ q ∈ (ringOf t ring).ways, q.2.line = w.line := by
  unfold recordOf at h
  split at h
  · obtain ⟨p, found, e⟩ := Option.map_eq_some_iff.1 h
    cases e
    exact line_of_findWay found
  · cases h

theorem setSectorState_line (w : Way) (sec v : Nat) : (setSectorState w sec v).line = w.line := rfl

theorem withoutSharer_line (w : Way) (sec core owner : Nat) : (withoutSharer w sec core owner).line = w.line := by
  unfold withoutSharer; dsimp only; split <;> rfl

theorem Sheds.setMesi (h : Sheds s t) (core : Nat) (l : L1Line) (v : Nat) (held : ∃ k ∈ (coreOf t core).l1, sameCopy k l) :
    Sheds s (setMesi t core l v) := by
  have put := h.putL1 core { l with mesi := v } held
  unfold Machine.setMesi
  dsimp only
  split
  · next found =>
    obtain ⟨q, hq, line⟩ := line_of_recordOf found
    exact put.setWay _ _ _ ⟨q, hq, line⟩
  · exact put

theorem Sheds.cleanL1 (h : Sheds s t) (k pa w : Nat) : Sheds s (cleanL1 t k pa w) := by
  unfold Machine.cleanL1
  dsimp only
  split
  · exact h
  · next l found =>
    have held := List.mem_of_find?_eq_some found
    exact .ite (.setMesi (.ite h.rest h) _ _ _ ⟨l, by split <;> exact held, rfl, rfl, rfl⟩)
      (.putL1 (.ite h.rest h) _ _ ⟨l, by split <;> exact held, rfl, rfl, rfl⟩)

theorem Sheds.settleEntry (h : Sheds s t) (k : Nat) (e : QEntry) (w : Nat) (tg : Tgt) (tr : Nat) : Sheds s (settleEntry t k e w tg tr) := by
  unfold Machine.settleEntry
  dsimp only
  split
  · split
    · exact .descCount (h.discardEntry ..) ..
    · exact .dropEntry (.settleWrite (.ite h.rest (.wakeCore h.rest _)) _) ..
  · refine .ite (.rest (.countCapDrop (h.discardEntry ..) _)) (.ite (.ite (.descCount (h.discardEntry ..) ..) ?_) ?_)
    · exact .dropEntry (.charge h.rest ..) ..
    · exact .charge (.dropEntry (.ite (.rest (.cleanL1 (h.settleWrite w) ..)) (.cleanL1 (h.settleWrite w) ..)) ..) ..

theorem Sheds.recallWrite (h : Sheds s t) (w : Nat) : Sheds s (recallWrite t w) := by
  unfold Machine.recallWrite
  split
  · split
    · exact .ite (.settleEntry (.ite (h.requestSectors ..) h) ..) h
    · exact h
  · exact h

theorem Sheds.writeBack (h : Sheds s t) (ls : List L1Line) : Sheds s (writeBack t ls) :=
  h.foldl (fun _ _ h => h.foldl (fun _ _ h => h.recallWrite _) _) _

theorem Sheds.keepPoison (h : Sheds s t) (l : L1Line) : Sheds s (keepPoison t l) := by
  refine .ite (h.foldl (fun u w h => ?_) _) h
  unfold mapEntry
  split
  · exact h.rest
  · exact h

theorem Sheds.unrecord (h : Sheds s t) (core : Nat) (l : L1Line) : Sheds s (unrecord t core l) := by
  unfold Machine.unrecord
  split
  · next found => exact h.setWay _ _ _ (by rw [withoutSharer_line]; exact line_of_recordOf found)
  · exact h

theorem Sheds.dropL1 (h : Sheds s t) (core : Nat) (p : L1Line → Bool) : Sheds s (dropL1 t core p) :=
  .foldl (h.setCore core _ fun l hl => ⟨l, (List.mem_filter.1 hl).1, rfl, rfl, rfl⟩) (fun _ _ h => .unrecord (h.keepPoison _) ..) _

theorem Sheds.leaveL1 (h : Sheds s t) (core : Nat) (p : L1Line → Bool) : Sheds s (leaveL1 t core p) := .dropL1 (h.writeBack _) ..

/-! ### What leaves an L1 is gone (R82, R252) -/

theorem dropL1_cores (s : State) (core : Nat) (p : L1Line → Bool) :
    (dropL1 s core p).cores = (Machine.setCore s core { coreOf s core with l1 := (coreOf s core).l1.filter fun l => !p l }).cores := by
  refine List.foldlRecOn (motive := fun u : State => u.cores = _) _ _ rfl fun u h l _ => ?_
  have kept : (keepPoison u l).cores = u.cores := by
    unfold keepPoison
    split
    · refine List.foldlRecOn (motive := fun v : State => v.cores = u.cores) _ _ rfl fun v h w _ => ?_
      unfold mapEntry
      split
      · exact h
      · exact h
    · rfl
  unfold unrecord
  split
  · exact kept.trans h
  · exact kept.trans h

theorem l1_dropL1 (s : State) (core : Nat) (p : L1Line → Bool) :
    (coreOf (dropL1 s core p) core).l1 = (coreOf s core).l1.filter fun l => !p l := by
  rw [coreOf, dropL1_cores]
  exact congrArg CoreSt.l1 (coreOf_setCore_same ..)

/-- No copy that was to leave an L1 is left there. -/
theorem l1_leaveL1 {s : State} {core : Nat} {p : L1Line → Bool} {l : L1Line} (h : l ∈ (coreOf (leaveL1 s core p) core).l1) :
    p l = false := by
  rw [leaveL1, l1_dropL1] at h
  simpa using (List.mem_filter.1 h).2

/-- Copies leave one L1 after another: of those that each is to give up, whatever has happened before, none is left at the end. -/
theorem leaveL1_each {hit : L1Line → Prop} {q : State → Nat → L1Line → Bool} (kind : ∀ k l, sameCopy k l → hit l → hit k)
    (go : ∀ u, Sheds s u → ∀ c l, hit l → q u c l = true) (cs : List Nat) (h : Sheds s t) :
    Sheds s (cs.foldl (fun u c => leaveL1 u c (q u c)) t)
      ∧ ∀ c ∈ cs, ∀ l ∈ (coreOf (cs.foldl (fun u c => leaveL1 u c (q u c)) t) c).l1, ¬hit l := by
  induction cs generalizing s t with
  | nil => exact ⟨h, fun c hc => absurd hc List.not_mem_nil⟩
  | cons c r ih =>
    have first := h.leaveL1 c (q t c)
    obtain ⟨later, -⟩ := ih (s := leaveL1 t c (q t c)) (fun u hu => go u (first.trans hu)) (.refl _)
    obtain ⟨all, gone⟩ := ih go first
    refine ⟨all, fun d hd l hl hits => ?_⟩
    rcases List.mem_cons.1 hd with rfl | hd
    · obtain ⟨k, hk, same⟩ := later.copies d l hl
      exact Bool.false_ne_true ((l1_leaveL1 hk).symm.trans (go t h d k (kind k l same hits)))
    · exact gone d hd l hl hits

end

end Sys2Proof.Machine
end


section
/-! SUPPORT. The events of the caches where they complete: fills of an L1 and of a home slice, probes, lease expiry, sweeps, the
fused state and memory errors (R82, R235-R252, R256). -/

namespace Sys2Proof.Machine

open Sys2Proof

/-! ### Probes and lease expiry (R250, R252) -/

/-- The bytes of a line have one home slice (R229). -/
theorem homeRing_of_line (s : State) {a b : Nat} (h : a / 256 = b / 256) : homeRing s a = homeRing s b := by
  have local_ : isLocal a = isLocal b := by simp only [isLocal, decide_eq_decide]; omega
  have dram : isDram a = isDram b := by simp only [isDram, Config.dramEnd, decide_eq_decide]; omega
  have core : (a - 2 ^ 60) / 0x10000 / 8 = (b - 2 ^ 60) / 0x10000 / 8 := by omega
  have slice : a / Config.ringBytes = b / Config.ringBytes := by simp only [Config.ringBytes]; omega
  simp only [homeRing, local_, dram, core, slice, h]

theorem homeRing_of_table {s t : State} (h : t.coreTable = s.coreTable) (a : Nat) : homeRing t a = homeRing s a := by
  simp only [homeRing, ringOfCore, physCore, h]

/-- A slice that did not hold a line does not hold it after copies have left. -/
theorem Sheds.findWay_none {s t : State} (h : Sheds s t) {r line : Nat} (absent : findWay s r line = none) : findWay t r line = none := by
  simp only [findWay, List.find?_eq_none] at absent ⊢
  intro p hp
  obtain ⟨q, hq, same⟩ := h.lines r p hp
  rw [← same]
  exact absent q hq

theorem probe_drops {s : State} {o pa : Nat} (slot : railSlot s 2 = true) (absent : findWay s (homeRing s pa) (pa / 256) = none) :
    ∃ t, exec (.probe pa (some o)) s = .next t
      ∧ ∀ p ∈ s.cores, ∀ l ∈ (coreOf t p.1).l1, probeHits (pa / 256) (some o) l = false := by
  have kind : ∀ k l, sameCopy k l → probeHits (pa / 256) (some o) l = true → probeHits (pa / 256) (some o) k = true := by
    rintro k l ⟨owner, at_, treat⟩ hits
    simpa only [probeHits, owner, at_, treat] using hits
  have go : ∀ u, Sheds s u → ∀ c l, probeHits (pa / 256) (some o) l = true →
      (l.pa / 256 == pa / 256 && ((some o).all fun o => l.owner == o) && (l.treat == 1 || unrecorded u c l)) = true := by
    intro u sheds c l hits
    simp only [probeHits, Bool.and_eq_true, beq_iff_eq] at hits
    obtain ⟨⟨line, -⟩, owner⟩ := hits
    have none : findWay u (homeRing u l.pa) (l.pa / 256) = none := by
      rw [homeRing_of_line u line, homeRing_of_table sheds.table, line]
      exact sheds.findWay_none absent
    have unnamed : unrecorded u c l = true := by simp [unrecorded, recordOf, none]
    simp [line, owner, unnamed]
  obtain ⟨-, gone⟩ := leaveL1_each kind go (s.cores.map Prod.fst) (.refl s)
  have runs : exec (.probe pa (some o)) s = commit s ((s.cores.map Prod.fst).foldl (fun u c => leaveL1 u c fun l =>
      l.pa / 256 == pa / 256 && ((some o).all fun o => l.owner == o) && (l.treat == 1 || unrecorded u c l)) s) := by
    change execProbe pa (some o) s = _
    simp only [execProbe, slot, absent, Bool.not_true, Bool.false_eq_true, if_false, Option.filter_none]
  exact ⟨committed s _, runs, fun p hp l hl => Bool.not_eq_true _ ▸ gone p.1 (List.mem_map_of_mem hp) l hl⟩

theorem leaseExpiry_drops {s : State} {core k : Nat} {l : L1Line} (at_ : (coreOf s core).l1[k]? = some l) (past : l1Live s l = false) :
    ∃ t, exec (.leaseExpiry core k) s = .next t ∧ ∀ z ∈ (coreOf t core).l1, ¬(z.owner = l.owner ∧ z.pa = l.pa ∧ z.treat = 1) := by
  have runs : exec (.leaseExpiry core k) s
      = commit s (leaveL1 s core fun y => y.owner == l.owner && y.pa == l.pa && y.treat == 1) := by
    change execLeaseExpiry core k s = _
    simp only [execLeaseExpiry, at_, past, Bool.false_eq_true, if_false]
  refine ⟨committed s _, runs, fun z hz same => ?_⟩
  have left := l1_leaveL1 hz
  simp [same] at left

/-! ### Home slices: a sector filled again, and sweeps (R237, R247) -/

theorem sweepMove_moves {s : State} {o r set way : Nat} {w : Way} (at_ : NMap.find (ringOf s r).ways (set * 16 + way) = some w)
    (small : way < 16) (old : oldLine s o w = true) (here : newSet s o r w.line = set) (slot : railSlot s 2 = true) :
    ∃ t, exec (.sweepMove o r set way) s = .next t
      ∧ NMap.find (ringOf t r).ways (set * 16 + way) = some { w with ebit := (ownerOf s o).ebit } := by
  have place : (set * 16 + way) / 16 = set := by omega
  have runs : exec (.sweepMove o r set way) s = commit s (setWay s r (set * 16 + way) { w with ebit := (ownerOf s o).ebit }) := by
    change execSweepMove o r set way s = _
    simp only [execSweepMove, moveLine, at_, old, slot, here, place, Bool.and_self, if_true]
  refine ⟨committed s _, runs, ?_⟩
  change NMap.find (ringOf (setRing s r _) r).ways _ = _
  rw [ringOf_setRing_same, find_put_same]

theorem sweepEnd_ends {s : State} {o : Nat} (runs_ : (ownerOf s o).sweep = true) (moved : ∀ p ∈ s.rings, ∀ w ∈ p.2.ways, oldLine s o w.2 = false) :
    ∃ t, exec (.sweepEnd o) s = .next t ∧ (ownerOf t o).sweep = false := by
  have none : (s.rings.any fun p => p.2.ways.any fun w => oldLine s o w.2) = false := by
    simpa [List.any_eq_false] using moved
  have runs : exec (.sweepEnd o) s = commit s (setOwner s o { ownerOf s o with sweep := false, oldKey := 0 }) := by
    change execSweepEnd o s = _
    simp only [execSweepEnd, runs_, none, Bool.not_false, Bool.and_self, if_true]
  exact ⟨committed s _, runs, congrArg Owner.sweep (ownerOf_setOwner_same ..)⟩

/-! ### Memory errors (R256) -/

theorem mem_insNat_self (l : List Nat) (k : Nat) : k ∈ insNat l k := by
  induction l with
  | nil => exact List.mem_singleton.2 rfl
  | cons a r ih =>
    rw [insNat]
    split
    · exact List.mem_cons_self
    · split
      · next e => exact e ▸ List.mem_cons_self
      · exact List.mem_cons_of_mem a ih

theorem memoryEccError_poisons {s : State} {loc : Nat} (dram : isDram loc = true) :
    ∃ t, exec (.memoryEccError loc true) s = .next t ∧ poisoned t loc = true := by
  have below : loc < Config.dramEnd := of_decide_eq_true dram
  have place : ¬2 ^ 70 ≤ loc ∧ isLocal loc = false := by
    simp only [Config.dramEnd, isLocal, decide_eq_false_iff_not] at *
    omega
  have runs : exec (.memoryEccError loc true) s = commit s { s with poison := insNat s.poison (poisonUnit loc) } := by
    change execMemoryEccError loc true s = _
    simp only [execMemoryEccError, place, dram, Bool.true_or, Bool.false_eq_true, if_false, if_true]
  exact ⟨committed s _, runs, List.contains_iff_mem.2 (mem_insNat_self ..)⟩

/-! ### The fused state (R235) -/

theorem fusedL1Transition_follows {s : State} {o r : Nat} (leaving : (ringOf s r).leaving.contains o = false)
    (entering : (ringOf s r).entering.contains o = false) :
    ∃ t, exec (.fusedL1Transition o r) s = .next t ∧ (NMap.find (ringOf t r).fused o).isSome = fusedWanted s o r := by
  have due : fusedDue s o r = ((NMap.find (ringOf s r).fused o).isSome != fusedWanted s o r) := by
    simp only [fusedDue, leaving, entering, Bool.false_or]
  by_cases wanted : (NMap.find (ringOf s r).fused o).isSome = fusedWanted s o r
  · refine ⟨committed s s, ?_, wanted⟩
    change execFusedL1Transition o r s = _
    simp only [execFusedL1Transition, due, wanted, bne_self_eq_false, Bool.not_false, if_true]
    rfl
  · change ∃ t, execFusedL1Transition o r s = .next t ∧ _
    have follows : fusedWanted s o r = !(NMap.find (ringOf s r).fused o).isSome :=
      Bool.eq_not.2 (Ne.symm wanted)
    rw [follows] at due ⊢
    cases was : (NMap.find (ringOf s r).fused o).isSome with
    | false =>
      simp only [execFusedL1Transition, due, was, Bool.not_false, Bool.false_bne, Bool.not_true, Bool.false_eq_true, if_false, if_true]
      refine ⟨committed s _, rfl, ?_⟩
      change (NMap.find (ringOf (setRing _ r _) r).fused o).isSome = true
      rw [ringOf_setRing_same, find_put_same, Option.isSome_some]
    | true =>
      simp only [execFusedL1Transition, due, was, Bool.not_true, Bool.true_bne, Bool.not_false, Bool.false_eq_true, if_false]
      refine ⟨committed s _, rfl, ?_⟩
      change (NMap.find (ringOf (setRing _ r _) r).fused o).isSome = false
      rw [ringOf_setRing_same, NMap.del, find_filter_dropped (fun p => p != o) _ (by simp), Option.isSome_none]

/-! ### A sector filled again (R237) -/

/-- An access of the owner that stands at no point any more is found. -/
theorem sectorFill_fills {s : State} {o pa j : Nat} {q : Nat × Nat × Option Nat} {w : Way} (access : q ∈ accessesTo s o pa)
    (crossed : standsAt s q.1 = false) (dram : isDram pa = true) (slot : railSlot s 2 = true)
    (found : findWay s (homeRing s pa) (pa / 256) = some (j, w)) (at_ : NMap.find (ringOf s (homeRing s pa)).ways j = some w) :
    ∃ t v, exec (.sectorFill o pa) s = .next t ∧ NMap.find (ringOf t (homeRing s pa)).ways j = some v ∧ v.line = w.line
      ∧ ∃ x ∈ v.sectors, x.1 = pa / 64 % 4 := by
  obtain ⟨⟨id, treat, share⟩, first⟩ : ∃ a, (accessesTo s o pa).find? (fun a => !standsAt s a.1) = some a :=
    Option.isSome_iff_exists.1 (List.find?_isSome.2 ⟨q, access, by simp [crossed]⟩)
  have serves : sliceServes s pa treat = true := by simp [sliceServes, dram]
  cases present : sectorPresent s pa with
  | true =>
    refine ⟨committed s s, w, ?_, at_, rfl, ?_⟩
    · change execSectorFill o pa s = _
      simp only [execSectorFill, first, present, Bool.not_true, Bool.and_false, Bool.false_and, Bool.false_eq_true, if_false]
      rfl
    · simpa [sectorPresent, found] using present
  | false =>
    have lacks : (w.sectors.any fun x => x.1 == pa / 64 % 4) = false := by simpa only [sectorPresent, found] using present
    obtain ⟨x, charged⟩ := charge_owners s o (if isPool pa then 20 else 10)
    have runs : exec (.sectorFill o pa) s = commit s (setWay { s with owners := x } (homeRing s pa) j
        { w with sectors := w.sectors ++ [(pa / 64 % 4, false, 0)] }) := by
      change execSectorFill o pa s = _
      simp only [execSectorFill, first, slot, serves, present, found, charged, Bool.not_false, Option.isSome_some, Bool.and_self, if_true]
      have held : findWay { s with owners := x } (homeRing { s with owners := x } pa) (pa / 256) = some (j, w) := found
      have filled : NMap.find (ringOf { s with owners := x } (homeRing { s with owners := x } pa)).ways j = some w := at_
      simp only [fillSector, held, addSector, filled, lacks, Bool.false_eq_true, if_false]
      rfl
    refine ⟨committed s _, { w with sectors := w.sectors ++ [(pa / 64 % 4, false, 0)] }, runs, ?_, rfl, ?_⟩
    · change NMap.find (ringOf (setRing _ (homeRing s pa) _) (homeRing s pa)).ways j = _
      rw [ringOf_setRing_same, find_put_same]
    · exact ⟨_, List.mem_append_right _ (List.mem_singleton.2 rfl), rfl⟩

/-! ### A fill of an L1 (R233, R248, R252) -/

/-- Nothing happens where no copy is to leave. -/
theorem leaveL1_none {s : State} {core : Nat} {p : L1Line → Bool} (still : ∀ l ∈ (coreOf s core).l1, p l = false) :
    leaveL1 s core p = setCore s core (coreOf s core) := by
  have hit : (coreOf s core).l1.filter p = [] := List.filter_eq_nil_iff.2 fun l hl => by simp [still l hl]
  have miss : (coreOf s core).l1.filter (fun l => !p l) = (coreOf s core).l1 := List.filter_eq_self.2 fun l hl => by simp [still l hl]
  simp only [leaveL1, hit, writeBack, List.foldl_nil, dropL1, miss]

/-- A live copy of the line under the treatment is found. -/
theorem l1Line_isSome {t : State} {core owner pa treat : Nat} {l : L1Line} (held : l ∈ (coreOf t (l1Core t core owner pa)).l1)
    (copy : l.owner = owner ∧ l.pa = pa / 64 * 64 ∧ l.treat = treat) (live : l1Live t l = true) :
    (l1Line t core owner pa treat).isSome = true :=
  List.find?_isSome.2 ⟨l, held, by simp [copy, live]⟩

/-- The clk, where cores stand and who is fused are as in `s`: what says which L1 serves an address, and for how long (R235, R252). -/
structure Places (s t : State) : Prop where
  clk   : t.clk = s.clk
  table : t.coreTable = s.coreTable
  fused : ∀ r, (ringOf t r).fused = (ringOf s r).fused

section
variable {s t u : State}

theorem Places.refl (s : State) : Places s s := ⟨rfl, rfl, fun _ => rfl⟩

theorem Places.trans (h : Places s t) (k : Places t u) : Places s u :=
  ⟨k.clk.trans h.clk, k.table.trans h.table, fun r => (k.fused r).trans (h.fused r)⟩

theorem Places.l1Core (h : Places s t) (core owner pa : Nat) : l1Core t core owner pa = l1Core s core owner pa := by
  simp only [Machine.l1Core, ringOfCore, physCore, logicalOf, h.table, h.fused]

theorem Places.l1Live (h : Places s t) (l : L1Line) : l1Live t l = l1Live s l := by simp only [Machine.l1Live, h.clk]

theorem places_putL1 (s : State) (core : Nat) (x : L1Line) : Places s (putL1 s core x) := ⟨rfl, rfl, fun _ => rfl⟩

theorem places_setWay (s : State) (ring i : Nat) (w : Way) : Places s (setWay s ring i w) :=
  ⟨rfl, rfl, fun r => by rw [setWay, ringOf_setRing]; split; exacts [by rw [‹r = ring›], rfl]⟩

theorem places_foldl {α : Type} {f : State → α → State} (hf : ∀ u a, Places u (f u a)) (l : List α) (s : State) : Places s (l.foldl f s) :=
  List.foldlRecOn (motive := fun u => Places s u) l f (.refl s) fun u h a _ => h.trans (hf u a)

theorem places_setMesi (s : State) (core : Nat) (l : L1Line) (v : Nat) : Places s (setMesi s core l v) := by
  unfold setMesi
  dsimp only
  split
  · exact (places_putL1 ..).trans (places_setWay ..)
  · exact places_putL1 ..

end

theorem mem_putL1 (s : State) (core : Nat) (x : L1Line) : x ∈ (coreOf (putL1 s core x) core).l1 := by
  rw [putL1, coreOf_setCore_same]
  exact List.mem_append_right _ (List.mem_singleton.2 rfl)

theorem mem_setMesi (s : State) (core : Nat) (l : L1Line) (v : Nat) : { l with mesi := v } ∈ (coreOf (setMesi s core l v) core).l1 := by
  unfold setMesi
  dsimp only
  split <;> exact mem_putL1 ..

/-- A copy that is recorded is in its L1, in whichever state (R248, R249). -/
theorem recordCopy_holds (s : State) (core : Nat) (l : L1Line) :
    Places s (recordCopy s core l) ∧ ∃ v, { l with mesi := v } ∈ (coreOf (recordCopy s core l) core).l1 := by
  have shared : ∀ u, Places u (shareOthers u core l.owner l.pa) := fun u =>
    places_foldl (fun u p => places_foldl (fun u x => places_putL1 ..) _ _) _ _
  unfold recordCopy
  split
  · exact ⟨places_putL1 .., l.mesi, mem_putL1 ..⟩
  · dsimp only
    split
    · exact ⟨(places_setWay ..).trans (places_setMesi ..), _, mem_setMesi ..⟩
    · exact ⟨((places_setWay ..).trans (shared _)).trans (places_setMesi ..), _, mem_setMesi ..⟩

/-- In a set that holds no copy a miss takes way 0 and displaces nothing (R233). -/
theorem takeL1Way_bare {s : State} {core owner pa : Nat} (empty : ∀ l ∈ (coreOf s core).l1, l.pa / 64 % 64 ≠ pa / 64 % 64) :
    takeL1Way s core owner pa = (some 0, s) := by
  have bare : (coreOf s core).l1.filter (fun l => l.pa / 64 % 64 == pa / 64 % 64) = [] :=
    List.filter_eq_nil_iff.2 fun l held => by simpa using empty l held
  have first : l1Victim s core owner (pa / 64 % 64) = some (0, none) := by
    simp only [l1Victim, bare]
    rfl
  simp only [takeL1Way, first]

/-- A copy that may be made of a line whose set holds no copy is made, in way 0 of the set. -/
theorem fillL1_makes {s : State} {core o pa treat : Nat} (may : mayCopy s core o pa treat = true)
    (present : treat % 4 ≠ 1 → sectorPresent s pa = true)
    (empty : ∀ l ∈ (coreOf s (l1Core s core o pa)).l1, l.pa / 64 % 64 ≠ pa / 64 % 64)
    (last : ∀ l ∈ locsFrom (pa / 64 * 64) 64, lastSettled s l ∈ writeSet s l) :
    ∃ u l, Places s u ∧ l.owner = o ∧ l.pa = pa / 64 * 64 ∧ l.treat = treat % 4 ∧ l.expiry = s.clk + leaseLen s core o
      ∧ fillL1 s core o pa treat false []
        = if treat % 4 = 1 then putL1 u (l1Core s core o pa) l else recordCopy u (l1Core s core o pa) l := by
  have elsewhere : ∀ l ∈ (coreOf s (l1Core s core o pa)).l1, (l.pa == pa / 64 * 64) = false := fun l held =>
    beq_false_of_ne fun at_ => empty l held (by rw [at_, Nat.mul_div_cancel _ (by decide)])
  have mayFill : (!mayCopy s core o pa treat || (treat % 4 != 1 && !sectorPresent s pa)) = false := by
    rcases Nat.decEq (treat % 4) 1 with h | h
    · simp [may, present h]
    · simp [may, h]
  have kept : leaveL1 s (l1Core s core o pa) (fun l => l.owner == o && l.pa == pa / 64 * 64 && l.treat == treat % 4 && !l1Live s l)
      = setCore s (l1Core s core o pa) (coreOf s (l1Core s core o pa)) :=
    leaveL1_none fun l held => by simp [elsewhere l held]
  obtain ⟨s1, same1⟩ : ∃ s1, setCore s (l1Core s core o pa) (coreOf s (l1Core s core o pa)) = s1 := ⟨_, rfl⟩
  have lines : (coreOf s1 (l1Core s core o pa)).l1 = (coreOf s (l1Core s core o pa)).l1 := by rw [← same1, coreOf_setCore_same]
  have missed : l1Line s1 core o pa (treat % 4) = none := by
    have : l1Core s1 core o pa = l1Core s core o pa := by rw [← same1]; rfl
    refine List.find?_eq_none.2 fun l held => ?_
    rw [this, lines] at held
    simp [elsewhere l held]
  have way : takeL1Way s1 (l1Core s core o pa) o pa = (some 0, s1) := takeL1Way_bare fun l held => empty l (lines ▸ held)
  obtain ⟨w, charged⟩ := charge_owners s1 o 3
  have settled : ∀ l, lastSettled { s1 with owners := w } l = lastSettled s l ∧ writeSet { s1 with owners := w } l = writeSet s l := fun l => by
    subst same1; exact ⟨rfl, rfl⟩
  have uncopied : (coreOf { s1 with owners := w } (l1Core s core o pa)).l1.find?
      (fun l => l.owner == o && l.pa == pa / 64 * 64 && l.treat == treat % 4) = none :=
    List.find?_eq_none.2 fun l held => by
      have held : l ∈ (coreOf s1 (l1Core s core o pa)).l1 := held
      rw [lines] at held
      simp [elsewhere l held]
  have chosen : (((locsFrom (pa / 64 * 64) 64).map fun l => (l, NMap.get [] l (lastSettled { s1 with owners := w } l))).all
      fun p => (writeSet { s1 with owners := w } p.1).contains p.2) = true := by
    simp only [List.all_map, List.all_eq_true, Function.comp, settled, List.contains_iff_mem]
    exact last
  have places : Places s { s1 with owners := w } := by subst same1; exact ⟨rfl, rfl, fun _ => rfl⟩
  simp only [fillL1, mayFill, kept, same1, missed, way, charged, chosen, uncopied, Bool.false_and, Bool.not_true, Bool.false_eq_true, if_false]
  exact ⟨{ s1 with owners := w }, _, places, rfl, rfl, rfl, rfl, rfl⟩

theorem fill_makes {s : State} {core o pa : Nat} {z : Xlat} (slot : railSlot s 2 = true) (reads : ∀ q ∈ s.reads, ctxOwner q.ctx ≠ o)
    (prefetches : ∀ q ∈ s.prefetches, q.owner ≠ o) (page : pageOf s o pa = some z) (may : mayCopy s core o pa z.treat = true)
    (present : z.treat % 4 ≠ 1 → sectorPresent s pa = true)
    (empty : ∀ l ∈ (coreOf s (l1Core s core o pa)).l1, l.pa / 64 % 64 ≠ pa / 64 % 64)
    (last : ∀ l ∈ locsFrom (pa / 64 * 64) 64, lastSettled s l ∈ writeSet s l) :
    ∃ t, exec (.fill core o pa []) s = .next t ∧ (l1Line t core o pa (z.treat % 4)).isSome = true := by
  have unasked : prefetchFor s core o pa = none ∧ missFor s core o pa = none :=
    ⟨List.find?_eq_none.2 fun q hq => by simp [prefetches q hq], List.find?_eq_none.2 fun q hq => by simp [reads q hq]⟩
  have runs : exec (.fill core o pa []) s = commit s (fillL1 s core o pa z.treat false []) := by
    change execFill core o pa [] s = _
    simp only [execFill, slot, unasked, page, Bool.not_true, Bool.false_eq_true, if_false]
  obtain ⟨u, l, places, owner, at_, treat, expiry, filled⟩ := fillL1_makes may present empty last
  obtain ⟨all, v, held⟩ : Places s (fillL1 s core o pa z.treat false [])
      ∧ ∃ v, { l with mesi := v } ∈ (coreOf (fillL1 s core o pa z.treat false []) (l1Core s core o pa)).l1 := by
    rw [filled]
    split
    · exact ⟨places.trans (places_putL1 ..), l.mesi, mem_putL1 ..⟩
    · obtain ⟨recorded, v, held⟩ := recordCopy_holds u (l1Core s core o pa) l
      exact ⟨places.trans recorded, v, held⟩
  have live : l1Live s { l with mesi := v } = true := by
    simp only [mayCopy, Bool.and_eq_true] at may
    by_cases leased : z.treat % 4 = 1
    · have : leaseLen s core o ≠ 0 := by simpa [leased] using may.2
      simp [l1Live, expiry]
      omega
    · simp [l1Live, treat, leased]
  refine ⟨committed s _, runs, ?_⟩
  have same : ∀ w, l1Line (committed s w) core o pa (z.treat % 4) = l1Line w core o pa (z.treat % 4) := fun _ => rfl
  rw [same]
  exact l1Line_isSome (l := { l with mesi := v }) (by rwa [all.l1Core]) ⟨owner, at_, treat⟩ ((all.l1Live _).trans live)

end Sys2Proof.Machine
end


section
/-! The tree's instructions, the events of the caches and the tables in plain states (R82, R130, R237-R256, R350-R363, R367,
R382-R386). -/

namespace Sys2Proof.Machine

open Sys2Proof

/-- Settles O59: each instruction, event and table by its lemma above. -/
theorem treeCachesAndTablesComplete : Obligations.TreeCachesAndTablesComplete := by
  intro s d a b o i r v ho hi hr
  refine ⟨?cnode, ?cmove, ?cdrop, ?tiles, ?reads, ?rollup, ?fill, ?sectorFill, ?probe, ?expiry, ?sweepMove, ?sweepEnd, ?fused, ?poison,
    ?tables, ?banks⟩
  case tables =>
    obtain ⟨⟨quota, -⟩, weights, peer, create, -, ⟨-, destroy⟩, -, key, bucket, -, nodeQuota, -, root, -, descriptor, -, ⟨quantum, -⟩,
      -, sharing, nodeBase, -, -, -, links, -⟩ := ownerTables s o i r v ho hi hr
    obtain ⟨-, -, -, -, -, -, -, -, -, -, -, -, -, -, -, -, -, ⟨partition, -⟩, -⟩ := ownerTables s o i r 1 ho hi hr
    obtain ⟨-, -, -, -, -, -, -, -, -, -, -, -, -, -, -, -, -, -, -, -, -, absent, -, -, -, ectr, -⟩ := ownerTables s o i r 0 ho hi hr
    refine ⟨fun small live within => readsBack (quota small live within) (reads_wayQuota _ _ ho hr),
      fun c hc small => ⟨fun within => readsBack ((weights c hc).1 small within) (reads_ifaceWeight _ _ hc hi),
        fun live mine all => readsBack ((weights c hc).2.2.1 small live mine all) (reads_ownerWeight _ _ hc ho)⟩,
      fun hr' aligned small => readsBack ((peer r hr').1 aligned small) (reads_peerBase (selecting s _) hr'),
      fun h0 dead => ?created, fun h0 banked queued running => ?destroyed, fun banked sweep => ?key,
      fun small rate depth => readsBack (bucket small rate depth) (reads_bucket _ _ ho small),
      fun small => readsBack (nodeQuota small) (reads_nodeQuota _ _ ho), fun aligned dram => readsBack (root aligned dram) (reads_root _ _ ho),
      fun dram => readsBack (descriptor dram) (reads_descriptor _ _ ho _), fun high one eight floor => ?quantum,
      fun free => readsBack (partition rfl free) (reads_partition _ hi hr _),
      fun k hk still => ⟨recordFree_reads s hi hk still, recordBuild_reads s hi hk still⟩,
      readsBack (sharing i hi) (reads_sharingKey (selecting s _) hi),
      fun dead aligned dram => readsBack (nodeBase dead aligned dram) (reads_nodeBase (selecting s _)),
      readsBack (absent rfl) (reads_absent _ hr _), fun small => readsBack (links small) (reads_linkMask (selecting s _) small),
      readsBack (ectr rfl) (reads_ectr _ _ ho)⟩
    case created =>
      obtain ⟨t, runs, -, -, live, iface, -⟩ := create h0 dead
      exact ⟨t, runs, reads_created t ho live iface⟩
    case destroyed =>
      obtain ⟨t, runs, ⟨dead, iface, -⟩, -⟩ := destroy h0 banked (by simpa using queued) (by simpa using running)
      exact ⟨t, runs, reads_destroyed t ho dead iface⟩
    case key =>
      obtain ⟨t, runs, reads, -⟩ := key banked sweep
      exact ⟨t, runs, (tableRead_key t ho).trans reads⟩
    case quantum =>
      have fields : bits v 63 49 = 0 ∧ bits v 47 36 = 0 := by simp only [bits] at high ⊢; omega
      exact readsBack (quantum ⟨fields.1, by omega, one, eight, fun h => absurd fields.2 h⟩) (reads_quantum _ _ hi high floor)
  case cnode => exact fun m go root base room free => cnode_makes go root base room free
  case cmove => exact fun go small zero own parent height => cmove_moves go small zero own parent height
  case cdrop => exact fun go small zero own children tiles => cdrop_deletes go small zero own children tiles
  case tiles =>
    exact fun pa z go own one mid high aligned =>
      ⟨fun enrol at_ absent allowed room => cenr_enrols go own one mid high aligned enrol at_ absent allowed room,
        fun c drop at_ entered => cdrop_removes go own one mid high aligned drop at_ entered⟩
  case reads => exact fun small own => ⟨csettle_owes small own, cread_owes small own⟩
  case rollup => exact fun m ids pending live => rollupStep_counts pending live
  case fill =>
    exact fun core pa z slot reads prefetches page may present empty _ last =>
      fill_makes slot reads prefetches page may present empty last
  case sectorFill => exact fun pa q j w access stands dram slot first found => sectorFill_fills access stands dram slot first found
  case probe => exact fun pa slot absent => probe_drops slot absent
  case expiry => exact fun core k l at_ past => leaseExpiry_drops at_ past
  case sweepMove => exact fun set way w found small old new slot => sweepMove_moves found small old new slot
  case sweepEnd => exact fun sweep swept => sweepEnd_ends sweep swept
  case fused => exact fun leaving entering => fusedL1Transition_follows leaving entering
  case poison => exact fun loc dram => memoryEccError_poisons dram
  case banks =>
    exact fun core => ⟨gateWrite_reads .., bankmapSelect_reads ..,
      fun writes valid free clean room carried => bankmapWrite_reads writes valid free clean room carried,
      fun logical empty physical free => ctdatWrite_reads logical empty physical free⟩

end Sys2Proof.Machine
end

section
/-! SUPPORT. What the scalar floating instructions write and raise (R105, R110, R119-R123). -/

namespace Sys2Proof.Machine

open Sys2Proof

/-! ### A result with its flags (R51, R110) -/

@[simp] theorem setPc_ctxs (s : State) (p : Word) : (setPc s p).ctxs = s.ctxs := by unfold setPc; split <;> rfl

@[simp] theorem wr_ctxs (s : State) (d : Reg) (v : Word) : (wr s d v).ctxs = s.ctxs := by
  unfold wr
  split
  · rfl
  · split <;> rfl

/-- After a change of the issuing frame alone, a register and the PC are written, and the instruction retires. -/
theorem Moves.finish {u t : State} {g : Frame → Frame} (a : Moves u t g [] (curPc u)) (lin : ∀ x, (g x).lin = x.lin)
    (owner : ∀ x, (g x).owner = x.owner) (ctxs : t.ctxs = u.ctxs) (d : Reg) (v : Word) :
    Retires u (finish t d v) g [d] (curPc u + 4) := by
  have written := a.trans (moves_wr t d v) fun _ _ h => h
  have moved := written.trans (moves_setPc _ (curPc (wr t d v) + 4)) fun _ _ h => h
  rw [(moves_wr t d v).pc, a.pc] at moved
  have ends : Machine.finish t d v = countRetire (setPc (wr t d v) (curPc u + 4)) := by
    rw [Machine.finish, retire4, (moves_wr t d v).pc, a.pc]
  exact ends ▸ moved.retire lin owner (by simp [ctxs])

theorem retires_finishF (s : State) (d : Reg) (v fl : Nat) : Retires s (finishF s d v fl) (withFlags fl) [d] (curPc s + 4) :=
  (moves_setCur s (withFlags fl) rfl rfl).finish (fun _ => rfl) (fun _ => rfl) rfl d (word v)

section
variable {i : Instr} {s : State} {d : Reg} {v w fl fl' : Nat}

/-- An instruction whose meaning is a result with its flags writes and raises them, and does nothing else. -/
theorem writesF_of_finishF (runs : exec i s = .next (finishF s d v fl)) (value : v = w) (flags : fl = fl') : WritesF i s d w fl' := by
  subst value flags
  exact ⟨_, runs, retires_finishF s d v fl, fun hd => rd_finish _ d _ hd, rd_zero _⟩

/-- An instruction that only writes its result raises no flag. -/
theorem writesF_of_finish (runs : exec i s = .next (finish s d (word v))) (value : v = w) : WritesF i s d w 0 := by
  subst value
  have unflagged : withFlags 0 = id := funext fun f => congrArg (fun n => { f with fflags := n }) (Nat.or_zero f.fflags)
  exact ⟨_, runs, unflagged ▸ retires_finish s d (word v), fun hd => rd_finish s d _ hd, rd_zero _⟩

end

/-! ### Compares and classes (R120) -/

section
variable {x y : FVal}

theorem b2n_eq_ite (p : Bool) {c : Prop} [Decidable c] (h : p = true ↔ c) : b2n p = if c then 1 else 0 := if_congr h rfl rfl

/-- Two operands are equal where neither is a NaN and none is below the other. -/
theorem ordered_eqV_iff : (!(isNaN x || isNaN y) && eqV x y) = true ↔
    (isNaN x || isNaN y) = false ∧ ltV x y = false ∧ ltV y x = false := by
  cases hx : isNaN x <;> cases hy : isNaN y <;> simp [eqV, hx, hy]

/-- Operands that are no NaN raise nothing as they are read (R105). -/
theorem readFlags_of_not_nan (hx : isNaN x = false) (hy : isNaN y = false) : readFlags [x, y] = 0 := by
  cases x <;> cases y <;> simp_all [readFlags, isNaN]

/-- A compare that is not quiet raises NV for a NaN of either kind. -/
theorem compareFlags : (if !false && (isNaN x || isNaN y) then flNV else readFlags [x, y]) = if isNaN x || isNaN y then flNV else 0 := by
  cases hx : isNaN x <;> cases hy : isNaN y <;> simp [readFlags_of_not_nan, hx, hy]

end

/-- A finite pattern is subnormal or zero exactly where its exponent field is 0, which is where its magnitude lacks the leading one
(R104). -/
theorem expField_eq_zero_iff {f : Fmt} {p m : Nat} {neg : Bool} {e : Int} (h : unpack f p = .fin neg m e) :
    p / 2 ^ f.fb % 2 ^ f.eb = 0 ↔ m < 2 ^ f.fb := by
  simp only [unpack] at h
  split at h
  · split at h <;> cases h
  · split at h
    · next zero =>
      cases h
      exact iff_of_true zero (Nat.mod_lt _ (by positivity))
    · next nonzero =>
      cases h
      exact iff_of_false nonzero (by omega)

/-- The class of a pattern by its value alone (R120). -/
theorem classOf_eq (f : Fmt) (p : Nat) : classOf f p = match unpack f p with
    | .inf neg => if neg then 0 else 7
    | .nan sig => if sig then 8 else 9
    | .fin neg v _ => if v = 0 then (if neg then 3 else 4)
        else if v < 2 ^ f.fb then (if neg then 2 else 5) else (if neg then 1 else 6) := by
  unfold classOf
  cases h : unpack f p with
  | nan | inf => rfl
  | fin neg m e => simp only [expField_eq_zero_iff h]

/-! ### Conversions and the reduction (R121, R123) -/

/-- The signed result of a conversion: what is out of range saturates with NV, and what is within it is NX where it was rounded. -/
theorem toIntV_fin (rm : Nat) (sg : Bool) (w : Nat) (neg : Bool) (m : Nat) (e : Int) {r : Int}
    (h : r = (if neg then -1 else 1) * ((roundInt rm neg m e).1 : Int)) : toIntV rm sg w (.fin neg m e) =
      if r < intMin sg w then (intMin sg w, flNV) else if intMax sg w < r then (intMax sg w, flNV)
      else (r, if (roundInt rm neg m e).2 then flNX else 0) := by
  have signed : (if neg then -((roundInt rm neg m e).1 : Int) else (roundInt rm neg m e).1) = r := by
    rw [h]; split <;> simp
  simp only [toIntV, signed]

theorem word_emod_toNat (i : Int) : word (i % 2 ^ 64).toNat = BitVec.ofInt 64 i := by
  have small : i % 2 ^ 64 < 2 ^ 64 := Int.emod_lt_of_pos i (by decide)
  have pos : 0 ≤ i % 2 ^ 64 := Int.emod_nonneg i (by decide)
  refine BitVec.eq_of_toNat_eq ?_
  simp only [word, BitVec.toNat_ofNat, BitVec.toNat_ofInt]
  omega

/-- Settles O4: each instruction by the value and the flags of its result. -/
theorem floatComparesAndConversions : Obligations.FloatComparesAndConversions := by
  intro s d a b f c n mo tb m rm x y nan k xc lo hi width
  refine ⟨?eq, ?lt, ?le, ?cls, ?toInt, ?ofInt, ?fmt, ?eval, ?reduce⟩
  case eq => exact writesF_of_finishF rfl (b2n_eq_ite _ ordered_eqV_iff) rfl
  case lt => exact writesF_of_finishF rfl (b2n_eq_ite _ (by simp [nan, x, y, m, fread])) compareFlags
  case le => exact writesF_of_finishF rfl (b2n_eq_ite _ (by simp [nan, x, y, m, fread])) compareFlags
  case cls => exact writesF_of_finish rfl (congrArg (2 ^ ·) (classOf_eq ..))
  case toInt =>
    have runs : exec (.fcvti d a n f) s = .next (finishF s d ((toIntV rm (intSigned n) (intWidth n) x).1 % 2 ^ intWidth n).toNat
      (toIntV rm (intSigned n) (intWidth n) x).2) := rfl
    have wide : intWidth n = width := by cases n <;> rfl
    have least : intMin (intSigned n) width = lo := by cases n <;> rfl
    have greatest : intMax (intSigned n) width = hi := by cases n <;> rfl
    generalize x = z at runs ⊢
    rw [wide] at runs
    cases z with
    | nan => exact writesF_of_finishF runs (by simp [toIntV]) rfl
    | inf neg => exact writesF_of_finishF runs (by simp only [toIntV, least, greatest]) rfl
    | fin neg v e =>
      dsimp only
      generalize signed : (if neg = true then (-1 : Int) else 1) * _ = r
      rw [toIntV_fin rm _ _ neg v e signed.symm, least, greatest] at runs
      by_cases below : r < lo
      · rw [if_pos below] at runs ⊢
        exact writesF_of_finishF runs rfl rfl
      · by_cases above : hi < r
        · rw [if_neg below, if_pos above] at runs ⊢
          exact writesF_of_finishF runs rfl rfl
        · rw [if_neg below, if_neg above] at runs ⊢
          exact writesF_of_finishF runs rfl rfl
  case ofInt => cases n <;> exact writesF_of_finishF rfl rfl rfl
  case fmt => exact writesF_of_finishF rfl rfl (congrArg (Nat.lor _) (Nat.zero_or _))
  case eval => exact writesF_of_finishF rfl rfl rfl
  case reduce =>
    intro r
    have value : (if mo.toNat % 2 = 0 then word r.1 else BitVec.ofInt 64 r.2.1)
        = word (if mo.toNat % 2 = 0 then r.1 else (r.2.1 % 2 ^ 64).toNat) := by
      rw [apply_ite word, word_emod_toNat]
    exact writesF_of_finishF (congrArg (fun w => Host.Outcome.next (finish (raiseFlags s r.2.2) d w)) value) rfl rfl

end Sys2Proof.Machine
end

section
/-! SUPPORT. Rounding toward zero, by the steps of a format that a value's magnitude holds, and the rest of floating arithmetic (R104, R109,
R119). -/

namespace Sys2Proof.Machine

open Sys2Proof

/-! ### Exact values (R109) -/

/-- m × 2^e is between its quotient at 2^q and the next one. -/
theorem cutAt_bounds (m : Nat) (e q : Int) :
    ((cutAt m e q).1 : Rat) * 2 ^ q ≤ m * 2 ^ e ∧ (m : Rat) * 2 ^ e < ((cutAt m e q).1 + 1) * 2 ^ q := by
  have two : (2 : Rat) ≠ 0 := two_ne_zero
  unfold cutAt
  split
  · next le =>
    obtain ⟨d, rfl⟩ : ∃ d : Nat, e = q + d := ⟨(e - q).toNat, by omega⟩
    have same : (((m * 2 ^ (q + d - q).toNat : Nat) : Rat)) * 2 ^ q = m * 2 ^ (q + d) := by
      rw [zpow_add₀ two, zpow_natCast, add_sub_cancel_left, Int.toNat_natCast]
      push_cast
      ring
    exact ⟨same.le, by rw [← same]; gcongr; exact lt_add_one _⟩
  · next gt =>
    obtain ⟨d, rfl⟩ : ∃ d : Nat, q = e + d := ⟨(q - e).toNat, by omega⟩
    rw [zpow_add₀ two, zpow_natCast, add_sub_cancel_left, Int.toNat_natCast]
    have below : ((m / 2 ^ d : Nat) : Rat) * 2 ^ d ≤ m := by exact_mod_cast Nat.div_mul_le_self m (2 ^ d)
    have above : (m : Rat) < ((m / 2 ^ d : Nat) + 1) * 2 ^ d := by
      exact_mod_cast Nat.lt_mul_of_div_lt (Nat.lt_succ_self _) (by positivity)
    constructor
    · calc ((m / 2 ^ d : Nat) : Rat) * (2 ^ e * 2 ^ d) = ((m / 2 ^ d : Nat) : Rat) * 2 ^ d * 2 ^ e := by ring
        _ ≤ m * 2 ^ e := by gcongr
    · calc (m : Rat) * 2 ^ e < ((m / 2 ^ d : Nat) + 1) * 2 ^ d * 2 ^ e := by gcongr
        _ = _ := by ring

/-- The leading one of m × 2^e stands at its exponent. -/
theorem leadExp_bounds {m : Nat} (h : m ≠ 0) (e : Int) :
    (2 : Rat) ^ leadExp m e ≤ m * 2 ^ e ∧ (m : Rat) * 2 ^ e < 2 ^ (leadExp m e + 1) := by
  have two : (2 : Rat) ≠ 0 := two_ne_zero
  have below : (2 : Rat) ^ Nat.log2 m ≤ m := by exact_mod_cast Nat.log2_self_le h
  have above : (m : Rat) < 2 ^ (Nat.log2 m + 1) := by exact_mod_cast Nat.lt_log2_self
  have shifted : leadExp m e + 1 = e + (Nat.log2 m + 1 : Nat) := by unfold leadExp; push_cast; ring
  rw [shifted, leadExp, zpow_add₀ two, zpow_add₀ two, zpow_natCast, zpow_natCast, mul_comm, mul_comm (2 ^ e)]
  exact ⟨by gcongr, by gcongr⟩

/-! ### Values of patterns (R104) -/

/-- The value of a pattern, 0 for one that is not finite. -/
def finiteValue (f : Fmt) (x : Nat) : Rat := match unpack f x with
  | .fin _ n g => (n : Rat) * 2 ^ g
  | _ => 0

section
variable {f : Fmt}

/-- A pattern by its exponent and fraction fields. -/
theorem unpack_fields {ex fr : Nat} (hex : ex < 2 ^ f.eb - 1) (hfr : fr < 2 ^ f.fb) : unpack f (ex * 2 ^ f.fb + fr)
    = if ex = 0 then .fin false fr (1 - bias f - f.fb) else .fin false (fr + 2 ^ f.fb) (ex - bias f - f.fb) := by
  have frac : (ex * 2 ^ f.fb + fr) % 2 ^ f.fb = fr := by rw [Nat.mul_add_mod_self_right, Nat.mod_eq_of_lt hfr]
  have high : (ex * 2 ^ f.fb + fr) / 2 ^ f.fb = ex := by
    rw [mul_comm, Nat.mul_add_div (by positivity), Nat.div_eq_of_lt hfr, Nat.add_zero]
  have small : ex < 2 ^ f.eb := by omega
  have sign : (ex * 2 ^ f.fb + fr) / 2 ^ (f.eb + f.fb) = 0 := by
    rw [add_comm f.eb, pow_add, ← Nat.div_div_eq_div_mul, high, Nat.div_eq_of_lt small]
  simp only [unpack, frac, high, sign, Nat.mod_eq_of_lt small, if_neg hex.ne]
  rfl

theorem finiteValue_normal {k n : Nat} (least : 2 ^ f.fb ≤ n) (most : n < 2 ^ (f.fb + 1))
    (finite : k * 2 ^ f.fb + n < (2 ^ f.eb - 1) * 2 ^ f.fb) :
    finiteValue f (k * 2 ^ f.fb + n) = n * 2 ^ (k + (1 - bias f) - f.fb) := by
  obtain ⟨r, rfl⟩ := Nat.exists_eq_add_of_le least
  have frac : r < 2 ^ f.fb := by rw [pow_succ] at most; omega
  have ex : k + 1 < 2 ^ f.eb - 1 := Nat.lt_of_mul_lt_mul_right (a := 2 ^ f.fb) (by rw [Nat.succ_mul]; omega)
  rw [show k * 2 ^ f.fb + (2 ^ f.fb + r) = (k + 1) * 2 ^ f.fb + r by ring, finiteValue, unpack_fields ex frac, if_neg k.succ_ne_zero,
    add_comm r]
  push_cast
  congr 2
  ring

/-- Within a binade, patterns rise by equal steps, which double from each binade to the next: the pattern of binade `k` and `n` of its
steps has the value of these steps, the start of the next binade included (R104). -/
theorem finiteValue_steps {k n : Nat} (lead : k = 0 ∨ 2 ^ f.fb ≤ n) (most : n ≤ 2 ^ (f.fb + 1))
    (finite : k * 2 ^ f.fb + n < (2 ^ f.eb - 1) * 2 ^ f.fb) :
    finiteValue f (k * 2 ^ f.fb + n) = n * 2 ^ (k + (1 - bias f) - f.fb) := by
  rcases lt_or_ge n (2 ^ f.fb) with sub | least
  · obtain rfl : k = 0 := lead.resolve_right sub.not_ge
    have ex : 0 < 2 ^ f.eb - 1 := Nat.pos_of_ne_zero fun none => by simp [none] at finite
    rw [finiteValue, unpack_fields ex sub, if_pos rfl, Nat.cast_zero, zero_add]
  · rcases most.lt_or_eq with most | rfl
    · exact finiteValue_normal least most finite
    · have next : k * 2 ^ f.fb + 2 ^ (f.fb + 1) = (k + 1) * 2 ^ f.fb + 2 ^ f.fb := by ring
      rw [next] at finite ⊢
      rw [finiteValue_normal le_rfl (Nat.pow_lt_pow_succ one_lt_two) finite]
      have double : ((k + 1 : Nat) : Int) + (1 - bias f) - f.fb = (k + (1 - bias f) - f.fb) + 1 := by push_cast; ring
      rw [double, zpow_add_one₀ two_ne_zero]
      push_cast
      ring

end

/-! ### Rounding toward zero (R109, mode 1) -/

/-- Exponent of the binade in which a value is rounded: its own, or that of the least normal value. -/
def binadeOf (f : Fmt) (m : Nat) (e : Int) : Int := max (leadExp m e) (1 - bias f)

/-- The steps of the binade's spacing that a value's magnitude holds. -/
def stepsOf (f : Fmt) (m : Nat) (e : Int) : Nat := (cutAt m e (binadeOf f m e - f.fb)).1

/-- The magnitude toward zero: that of the steps, or the largest finite one past the last binade. -/
def truncated (f : Fmt) (m : Nat) (e : Int) : Nat :=
  if bias f < binadeOf f m e then maxBits f false else (binadeOf f m e - (1 - bias f)).toNat * 2 ^ f.fb + stepsOf f m e

section
variable {f : Fmt} {m : Nat} {e : Int}

theorem two_pow_eb (bounded : 1 ≤ bias f) : ((2 ^ f.eb : Nat) : Int) = 2 * bias f + 2 := by
  obtain ⟨j, wide⟩ : ∃ j, f.eb = j + 1 := by
    refine Nat.exists_eq_succ_of_ne_zero fun none => ?_
    simp [bias, none] at bounded
  rw [bias, wide, Nat.add_sub_cancel, pow_succ]
  push_cast
  ring

/-- The steps of the binades up to the last are finite patterns. -/
theorem lt_patterns (bounded : 1 ≤ bias f) {k n : Nat} (last : (k : Int) + 1 ≤ 2 * bias f) (most : n < 2 ^ (f.fb + 1)) :
    k * 2 ^ f.fb + n < (2 ^ f.eb - 1) * 2 ^ f.fb := by
  have double := two_pow_eb bounded
  have binades : k + 2 ≤ 2 ^ f.eb - 1 := by omega
  calc k * 2 ^ f.fb + n < k * 2 ^ f.fb + 2 ^ (f.fb + 1) := by omega
    _ = (k + 2) * 2 ^ f.fb := by ring
    _ ≤ (2 ^ f.eb - 1) * 2 ^ f.fb := Nat.mul_le_mul_right _ binades

theorem stepsOf_lt_pow (h : m ≠ 0) {j : Nat} (most : leadExp m e + 1 ≤ binadeOf f m e - f.fb + j) : stepsOf f m e < 2 ^ j := by
  have below : (stepsOf f m e : Rat) * 2 ^ (binadeOf f m e - f.fb) < 2 ^ j * 2 ^ (binadeOf f m e - f.fb) :=
    calc (stepsOf f m e : Rat) * 2 ^ (binadeOf f m e - f.fb) ≤ m * 2 ^ e := (cutAt_bounds m e _).1
      _ < 2 ^ (leadExp m e + 1) := (leadExp_bounds h e).2
      _ ≤ 2 ^ (binadeOf f m e - f.fb + j) := zpow_le_zpow_right₀ one_le_two most
      _ = 2 ^ j * 2 ^ (binadeOf f m e - f.fb) := by rw [zpow_add₀ two_ne_zero, zpow_natCast, mul_comm]
  exact_mod_cast lt_of_mul_lt_mul_right below (by positivity)

theorem stepsOf_lt (h : m ≠ 0) : stepsOf f m e < 2 ^ (f.fb + 1) :=
  stepsOf_lt_pow h (by push_cast; unfold binadeOf; omega)

/-- Below the least normal value no leading one is there. -/
theorem stepsOf_lt_of_subnormal (h : m ≠ 0) (sub : leadExp m e < 1 - bias f) : stepsOf f m e < 2 ^ f.fb :=
  stepsOf_lt_pow h (by rw [binadeOf, max_eq_right sub.le]; omega)

theorem le_stepsOf (h : m ≠ 0) (normal : 1 - bias f ≤ leadExp m e) : 2 ^ f.fb ≤ stepsOf f m e := by
  have above : (2 : Rat) ^ f.fb * 2 ^ (leadExp m e - f.fb) < (stepsOf f m e + 1) * 2 ^ (leadExp m e - f.fb) :=
    calc (2 : Rat) ^ f.fb * 2 ^ (leadExp m e - f.fb) = 2 ^ leadExp m e := by
          rw [← zpow_natCast, ← zpow_add₀ two_ne_zero]; congr 1; ring
      _ ≤ m * 2 ^ e := (leadExp_bounds h e).1
      _ < _ := by rw [stepsOf, binadeOf, max_eq_left normal]; exact (cutAt_bounds m e _).2
  have cast : ((2 ^ f.fb : Nat) : Rat) < (stepsOf f m e + 1 : Nat) := by push_cast; exact lt_of_mul_lt_mul_right above (by positivity)
  exact Nat.lt_succ_iff.1 (Nat.cast_lt.1 cast)

/-- Toward zero the pattern is that of the steps, read in the binade of their own leading one. -/
theorem roundTo_one_fst (neg : Bool) (h : m ≠ 0) : (roundTo f 1 (.fin neg m e)).1 =
    let n := stepsOf f m e
    let q := binadeOf f m e - f.fb
    let lead := leadExp n q
    if n = 0 then b2n neg * 2 ^ (f.eb + f.fb)
    else if bias f < lead then maxBits f neg
    else b2n neg * 2 ^ (f.eb + f.fb) + if lead < 1 - bias f then n else (lead + bias f).toNat * 2 ^ f.fb
      + (n * 2 ^ (q - (lead - f.fb)).toNat / 2 ^ (lead - f.fb - q).toNat) % 2 ^ f.fb := by
  have binade : (if leadExp m e < 1 - bias f then 1 - bias f else leadExp m e) = binadeOf f m e := by
    unfold binadeOf; split <;> omega
  have steps : roundNat 1 neg (cutAt m e (binadeOf f m e - f.fb)) = stepsOf f m e := rfl
  have finite : ¬(1 = 0 ∨ 4 ≤ 1 ∨ (1 = 2 ∧ neg = true) ∨ (1 = 3 ∧ (!neg) = true)) := by omega
  simp only [roundTo, if_neg h, binade, steps, if_neg finite, apply_ite Prod.fst]

theorem roundTo_toward_zero (bounded : 1 ≤ bias f) (neg : Bool) (h : m ≠ 0) :
    (roundTo f 1 (.fin neg m e)).1 = b2n neg * 2 ^ (f.eb + f.fb) + truncated f m e := by
  rw [roundTo_one_fst neg h]
  dsimp only
  rcases lt_or_ge (leadExp m e) (1 - bias f) with sub | normal
  · have least : binadeOf f m e = 1 - bias f := max_eq_right sub.le
    have within : ¬bias f < 1 - bias f := by omega
    rw [truncated, least, if_neg within, sub_self, Int.toNat_zero, Nat.zero_mul, Nat.zero_add]
    by_cases none : stepsOf f m e = 0
    · rw [if_pos none, none, Nat.add_zero]
    · have lead : leadExp (stepsOf f m e) (1 - bias f - f.fb) < 1 - bias f := by
        have := (Nat.log2_lt none).2 (stepsOf_lt_of_subnormal h sub)
        unfold leadExp
        omega
      rw [if_neg none, if_neg (lead.trans_le (by omega)).not_gt, if_pos lead]
  · have many := le_stepsOf h normal
    have some : stepsOf f m e ≠ 0 := ((Nat.two_pow_pos f.fb).trans_le many).ne'
    have own : binadeOf f m e = leadExp m e := max_eq_left normal
    have lead : leadExp (stepsOf f m e) (leadExp m e - f.fb) = leadExp m e := by
      have least := (Nat.le_log2 some).2 many
      have most := (Nat.log2_lt some).2 (stepsOf_lt h)
      rw [leadExp]
      omega
    rw [if_neg some, truncated, own, lead]
    by_cases past : bias f < leadExp m e
    · rw [if_pos past, if_pos past, maxBits, maxBits]
      have room := lt_patterns bounded (k := 0) (n := 0) (by omega) (by positivity)
      simp only [b2n, Bool.false_eq_true, if_false]
      omega
    · have field : (leadExp m e + bias f).toNat = (leadExp m e - (1 - bias f)).toNat + 1 := by omega
      have frac : stepsOf f m e % 2 ^ f.fb = stepsOf f m e - 2 ^ f.fb := by
        have := stepsOf_lt (f := f) (e := e) h
        rw [pow_succ] at this
        rw [Nat.mod_eq_sub_mod many, Nat.mod_eq_of_lt (by omega)]
      rw [if_neg past, if_neg past, if_neg normal.not_gt, sub_self, Int.toNat_zero, pow_zero, Nat.mul_one, Nat.div_one, field, frac,
        Nat.succ_mul]
      omega

theorem maxBits_false : maxBits f false = (2 ^ f.eb - 1) * 2 ^ f.fb - 1 := by simp [maxBits, b2n]

theorem maxBits_lt : maxBits f false < 2 ^ (f.eb + f.fb) := by
  have pos : 0 < 2 ^ (f.eb + f.fb) := by positivity
  have most : (2 ^ f.eb - 1) * 2 ^ f.fb ≤ 2 ^ (f.eb + f.fb) := by
    rw [pow_add]
    exact Nat.mul_le_mul_right _ (Nat.sub_le ..)
  rw [maxBits_false]
  omega

/-- The steps that a magnitude holds, and one more, are of the value that they count, where their pattern is finite. -/
theorem finiteValue_stepsOf (h : m ≠ 0) {n : Nat} (one : stepsOf f m e ≤ n)
    (next : n ≤ stepsOf f m e + 1) (finite : (binadeOf f m e - (1 - bias f)).toNat * 2 ^ f.fb + n < (2 ^ f.eb - 1) * 2 ^ f.fb) :
    finiteValue f ((binadeOf f m e - (1 - bias f)).toNat * 2 ^ f.fb + n) = n * 2 ^ (binadeOf f m e - f.fb) := by
  have least : 1 - bias f ≤ binadeOf f m e := le_max_right ..
  have lead : (binadeOf f m e - (1 - bias f)).toNat = 0 ∨ 2 ^ f.fb ≤ n := by
    rcases lt_or_ge (leadExp m e) (1 - bias f) with sub | normal
    · exact .inl (by rw [binadeOf, max_eq_right sub.le, sub_self, Int.toNat_zero])
    · exact .inr ((le_stepsOf h normal).trans one)
  rw [finiteValue_steps lead (next.trans (stepsOf_lt h)) finite, Int.toNat_of_nonneg (by omega)]
  congr 2
  ring

theorem truncated_le_maxBits (bounded : 1 ≤ bias f) (h : m ≠ 0) : truncated f m e ≤ maxBits f false := by
  unfold truncated
  split
  · exact le_rfl
  · have finite := lt_patterns bounded (k := (binadeOf f m e - (1 - bias f)).toNat) (by omega) (stepsOf_lt (f := f) (e := e) h)
    rw [maxBits_false]
    omega

/-- The largest finite magnitude is the last step of the last binade. -/
theorem finiteValue_maxBits (bounded : 1 ≤ bias f) : finiteValue f (maxBits f false) < 2 ^ (bias f + 1) := by
  obtain ⟨k, last⟩ : ∃ k : Nat, (k : Int) = 2 * bias f - 1 := ⟨(2 * bias f - 1).toNat, by omega⟩
  have finite := lt_patterns (n := 2 ^ (f.fb + 1) - 1) bounded (k := k) (by omega) (Nat.sub_lt (by positivity) one_pos)
  have pattern : maxBits f false = k * 2 ^ f.fb + (2 ^ (f.fb + 1) - 1) := by
    have binades : 2 ^ f.eb - 1 = k + 2 := by have := two_pow_eb bounded; omega
    have pos : 0 < 2 ^ f.fb := by positivity
    rw [maxBits_false, binades, Nat.add_mul, pow_succ]
    omega
  have many : 2 ^ f.fb ≤ 2 ^ (f.fb + 1) - 1 := Nat.le_sub_one_of_lt (Nat.pow_lt_pow_succ one_lt_two)
  rw [pattern, finiteValue_steps (.inr many) (Nat.sub_le ..) finite, last]
  calc ((2 ^ (f.fb + 1) - 1 : Nat) : Rat) * 2 ^ (2 * bias f - 1 + (1 - bias f) - f.fb)
      < (2 ^ (f.fb + 1) : Nat) * 2 ^ (2 * bias f - 1 + (1 - bias f) - f.fb) := by
        gcongr
        exact Nat.sub_lt (by positivity) one_pos
    _ = 2 ^ (bias f + 1) := by
        rw [Nat.cast_pow, Nat.cast_two, ← zpow_natCast, ← zpow_add₀ two_ne_zero]
        congr 1
        push_cast
        ring

theorem finiteValue_truncated_le (bounded : 1 ≤ bias f) (h : m ≠ 0) : finiteValue f (truncated f m e) ≤ m * 2 ^ e := by
  unfold truncated
  split
  · next past =>
    have own : binadeOf f m e = leadExp m e := by unfold binadeOf at *; omega
    calc finiteValue f (maxBits f false) ≤ 2 ^ (bias f + 1) := (finiteValue_maxBits bounded).le
      _ ≤ 2 ^ leadExp m e := zpow_le_zpow_right₀ one_le_two (by omega)
      _ ≤ m * 2 ^ e := (leadExp_bounds h e).1
  · next last =>
    have finite := lt_patterns bounded (k := (binadeOf f m e - (1 - bias f)).toNat) (by omega) (stepsOf_lt (f := f) (e := e) h)
    rw [finiteValue_stepsOf h le_rfl (Nat.le_succ _) finite]
    exact (cutAt_bounds m e _).1

theorem lt_finiteValue_truncated_succ (h : m ≠ 0) (below : truncated f m e < maxBits f false) :
    (m : Rat) * 2 ^ e < finiteValue f (truncated f m e + 1) := by
  unfold truncated at *
  split
  · next past =>
    rw [if_pos past] at below
    exact absurd below (lt_irrefl _)
  · next last =>
    rw [Nat.add_assoc]
    rw [if_neg last, maxBits_false] at below
    rw [finiteValue_stepsOf h (Nat.le_succ _) le_rfl (by omega)]
    push_cast
    exact (cutAt_bounds m e _).2

end

/-! ### Least and greatest, and moves of the sign (R119) -/

theorem eqV_comm (x y : FVal) : eqV x y = eqV y x := by
  simp only [eqV, Bool.and_assoc, Bool.and_comm, Bool.and_left_comm]

theorem belowV_iff {x y : FVal} : belowV x y = true ↔ ltV x y = true ∨ (eqV x y = true ∧ signOf x = true ∧ signOf y = false) := by
  simp [belowV, and_assoc]

/-- The operand that `fmin` and `fmax` give, in the terms of the rule. -/
theorem minMax_eq (f : Fmt) (mx : Bool) (p q : Nat) : minMax f mx p q =
    if isNaN (unpack f p) = true ∧ isNaN (unpack f q) = true then canonNaN f
    else if isNaN (unpack f p) = true then q else if isNaN (unpack f q) = true then p
    else if (if mx then belowV (unpack f p) (unpack f q) else belowV (unpack f q) (unpack f p)) = true then q else p := by
  cases mx <;> simp [minMax]

theorem fsign_eq_testBit (f : Fmt) (x : Nat) : fsign f x = x.testBit (f.eb + f.fb) := by
  rw [fsign, Nat.testBit_eq_decide_div_mod_eq]; rfl

theorem testBit_withSign (f : Fmt) (x : Nat) (g : Bool) (j : Nat) : (withSign f x g).testBit j =
    if j < f.eb + f.fb then x.testBit j else (b2n g).testBit (j - (f.eb + f.fb)) := by
  rw [withSign, Nat.add_comm, Nat.mul_comm, Nat.testBit_two_pow_mul_add _ (Nat.mod_lt _ (by positivity))]
  split
  · next low => rw [Nat.testBit_mod_two_pow, decide_eq_true low, Bool.true_and]
  · rfl

theorem withSign_lt (f : Fmt) (x : Nat) (g : Bool) : withSign f x g < 2 ^ fmtWidth f := by
  have low : x % 2 ^ (f.eb + f.fb) < 2 ^ (f.eb + f.fb) := Nat.mod_lt _ (by positivity)
  have one : b2n g * 2 ^ (f.eb + f.fb) ≤ 1 * 2 ^ (f.eb + f.fb) := Nat.mul_le_mul_right _ (by cases g <;> decide)
  rw [withSign, fmtWidth, add_assoc, add_comm 1, pow_succ]
  omega

/-- A move of the sign copies the bits below it (R119). -/
theorem writes_of_signOp {i : Instr} {s : State} {d a b : Reg} {f : FFmt} {g : Bool → Bool → Bool}
    (runs : exec i s = signOp d a b f g s) :
    Writes i s d fun v => v.toNat < 2 ^ fmtWidth (fmtOfCode f)
      ∧ (∀ j < fmtWidth (fmtOfCode f) - 1, v.getLsbD j = (rd s a).getLsbD j)
      ∧ v.getLsbD (fmtWidth (fmtOfCode f) - 1)
        = g ((rd s a).getLsbD (fmtWidth (fmtOfCode f) - 1)) ((rd s b).getLsbD (fmtWidth (fmtOfCode f) - 1)) := by
  have fits : fmtWidth (fmtOfCode f) ≤ 64 := by cases f <;> decide
  have top : fmtWidth (fmtOfCode f) - 1 = (fmtOfCode f).eb + (fmtOfCode f).fb := by rw [fmtWidth]; omega
  have read : ∀ r j, j ≤ fmtWidth (fmtOfCode f) - 1 → (fread (fmtOfCode f) (rd s r)).testBit j = (rd s r).getLsbD j := fun r j below => by
    rw [fread, Nat.testBit_mod_two_pow, decide_eq_true (by rw [fmtWidth] at *; omega), Bool.true_and, BitVec.testBit_toNat]
  refine writes_of_finish runs ⟨?_, fun j low => ?_, ?_⟩
  · exact (Nat.mod_le ..).trans_lt (withSign_lt ..)
  · rw [word, BitVec.getLsbD_ofNat, decide_eq_true (by omega), Bool.true_and, testBit_withSign, if_pos (top ▸ low), read a j low.le]
  · rw [word, BitVec.getLsbD_ofNat, decide_eq_true (by omega), Bool.true_and, testBit_withSign, top, if_neg (lt_irrefl _), Nat.sub_self,
      fsign_eq_testBit, fsign_eq_testBit, read a _ top.ge, read b _ top.ge]
    cases g _ _ <;> rfl

/-- Settles O5: each operation by its one rounding (`writesF_of_finishF`), the moves of the sign by `writes_of_signOp`, and rounding toward
zero by the steps that the magnitude holds (`roundTo_toward_zero`). -/
theorem floatArithmetic : Obligations.FloatArithmetic := by
  refine ⟨?operations, ?towardZero⟩
  case operations =>
    intro s d a b f m rm w p q x y z one sign
    refine ⟨?add, ?sub, ?mul, ?fma, ?div, ?sqrt, ?least, ?greatest, ?copy, ?opposite, ?product⟩
    case add | sub | mul | fma | div | sqrt => exact writesF_of_finishF rfl rfl rfl
    case least =>
      exact writesF_of_finishF rfl ((minMax_eq m false p q).trans (by simp [belowV_iff, eqV_comm, x, y])) rfl
    case greatest => exact writesF_of_finishF rfl ((minMax_eq m true p q).trans (by simp [belowV_iff, x, y])) rfl
    case copy => exact writes_of_signOp (g := fun _ y => y) rfl
    case opposite => exact writes_of_signOp (g := fun _ y => !y) rfl
    case product => exact writes_of_signOp (g := fun x y => x != y) rfl
  case towardZero =>
    intro f neg m e h k p mag value
    have bounded : 1 ≤ bias k := by cases f <;> decide
    have below : truncated k m e < 2 ^ (k.eb + k.fb) := (truncated_le_maxBits bounded h).trans_lt maxBits_lt
    have rounded := roundTo_toward_zero (e := e) bounded neg h
    have magnitude : mag = truncated k m e := by
      simp only [mag, p]
      rw [rounded, Nat.mul_add_mod_self_right, Nat.mod_eq_of_lt below]
    rw [magnitude]
    refine ⟨?_, truncated_le_maxBits bounded h, finiteValue_truncated_le bounded h, lt_finiteValue_truncated_succ h⟩
    simp only [p]
    rw [rounded, mul_comm, Nat.mul_add_div (by positivity), Nat.div_eq_of_lt below, Nat.add_zero]
    rfl

end Sys2Proof.Machine
end

section
/-! SUPPORT. A load of a number table whose image stands where another core's L1 holds a copy with a write in two entries (R102, R251). -/

namespace Sys2Proof.Machine

open Sys2Proof

/-- The request of owner 0's context on core 1 to load coefficient image 0 into table 0 (R102). -/
def imageRequest : Req :=
  { id := 15, ctx := ctxKey 1 0, frame := 0, act := 0, kind := .table false 0 0 [], treat := 2, share := none,
    lin := { early := false, launch := none }, after := [], reads := [], pub := [], inval := [], tag := [], va := 0, pc := 0, rel := false,
    parked := false }

/-- Core 1 loads a table from an image of one word, which stands where the copy of `twiceQueued` in the L1 of core 0 does. -/
def tableOverHeld : State :=
  { twiceQueued with
    reqs  := [imageRequest]
    ctxs  := twiceQueued.ctxs ++ [(ctxKey 1 0, { coefImg := [1], imgBase := 0x10000 })]
    cores := twiceQueued.cores ++ [(1, { tlb := [stampPage] })] }

/-- The bytes of that image, through the page of the stamp. -/
def imageLocs : List ELoc :=
  (upto 4).map fun i => { loc := some (0x10000 + i), treat := 0, share := none, swr := false, va := word (0x10000 + i) }

theorem not_dirtyByte_tableOverHeld : ¬dirtyByte tableOverHeld (bankLoc 0 0) := by
  have entry : entryOf tableOverHeld 10 = entryOf twiceQueued 10 := by decide +kernel
  have plain : plainEntry tableOverHeld 10 := ⟨plainEntry_twiceQueued.1, fun k i e found => plainEntry_twiceQueued.2 k i e (entry ▸ found)⟩
  have dirty : ∀ p ∈ tableOverHeld.cores, ∀ l ∈ p.2.l1, ∀ w ∈ l.dirty, w = 10 := by decide
  rintro ⟨p, hp, l, hl, w, hw, covered | other⟩
  · rw [dirty p hp l hl w hw] at covered
    exact absurd covered (by decide)
  · rw [dirty p hp l hl w hw] at other
    exact other plain

/-- Reading the image recalls the copy, and with it write 10 settles by both of its entries. -/
theorem tableReplace_tableOverHeld :
    ∃ t, exec (.tableReplace 1 0) tableOverHeld = .next t ∧ byteAt t (bankLoc 0 0) ≠ byteAt tableOverHeld (bankLoc 0 0) :=
  ⟨_, rfl, by decide +kernel⟩

/-- Refutes O41: a step that replaces a table is to change no byte but the dirty ones. In `tableOverHeld` the copy that the read of the
image recalls holds a write that stands in two entries, and the byte that the second one brings is no dirty one. -/
theorem not_numberTables : ¬Obligations.NumberTables := by
  intro holds
  obtain ⟨-, -, -, -, -, -, -, -, replaces⟩ := holds tableOverHeld 0 0 0
  obtain ⟨-, reads⟩ := replaces 1 0 imageRequest false 0 0 [] imageLocs rfl rfl (by decide)
  obtain ⟨t, step, quiet, -⟩ := reads rfl (by decide +kernel)
  obtain ⟨u, ran, changes⟩ := tableReplace_tableOverHeld
  exact not_keeps_byte step (quiet rfl _ not_dirtyByte_tableOverHeld) ran changes

end Sys2Proof.Machine
end

section
/-! SUPPORT. The values of the scalar instructions: shifts and rotates by an amount below the width, and counts and
permutations of bits (R138). -/

namespace Sys2Proof.Machine

open Sys2Proof

/-! ### Flags, shifts and rotates (R138, R141) -/

theorem toNat_ofBool (p : Bool) {c : Prop} [Decidable c] (h : p = true ↔ c) : (Word.ofBool p).toNat = if c then 1 else 0 := by
  by_cases hc : c <;> simp [Word.ofBool, h, hc]

theorem shamt_lt (y : Word) : shamt y < 64 := Nat.mod_lt _ (by decide)

theorem toNat_shiftLeft_word (x : Word) (n : Nat) : (x <<< n).toNat = x.toNat * 2 ^ n % 2 ^ 64 := by
  rw [BitVec.toNat_shiftLeft, Nat.shiftLeft_eq]

theorem toNat_ushiftRight_word (x : Word) (n : Nat) : (x >>> n).toNat = x.toNat / 2 ^ n := by
  rw [BitVec.toNat_ushiftRight, Nat.shiftRight_eq_div_pow]

theorem toInt_sshiftRight_word (x : Word) (n : Nat) : (x.sshiftRight n).toInt = x.toInt / 2 ^ n := by
  rw [BitVec.toInt_sshiftRight, Int.shiftRight_eq_div_pow]
  norm_cast

/-- A rotation to the left moves bit i up by k, around the end. -/
theorem getLsbD_rotateLeft_word (x : Word) {k i : Nat} (hk : k < 64) (hi : i < 64) :
    (x.rotateLeft k).getLsbD ((i + k) % 64) = x.getLsbD i := by
  rw [BitVec.getLsbD_rotateLeft_of_le hk]
  by_cases wraps : i + k < 64
  · have stays : ¬(i + k < k) := by omega
    simp [Nat.mod_eq_of_lt wraps, stays, wraps]
  · have back : (i + k) % 64 = i + k - 64 := by omega
    have low : i + k - 64 < k := by omega
    have from_ : 64 - k + (i + k - 64) = i := by omega
    simp [back, low, from_]

/-- A rotation to the right fills bit i from the bit k above it, around the end. -/
theorem getLsbD_rotateRight_word (x : Word) {k i : Nat} (hk : k < 64) (hi : i < 64) :
    (x.rotateRight k).getLsbD i = x.getLsbD ((i + k) % 64) := by
  rw [BitVec.getLsbD_rotateRight_of_lt hk]
  by_cases low : i < 64 - k
  · have stays : (i + k) % 64 = k + i := by omega
    simp [low, stays]
  · have around : (i + k) % 64 = i - (64 - k) := by omega
    simp [low, around, hi]

/-- A scaled operand of `adds1`, `adds2` and `adds3`. -/
theorem toNat_add_shiftLeft (x y : Word) (n : Nat) : (x + y <<< n).toNat = (x.toNat + y.toNat * 2 ^ n) % 2 ^ 64 := by
  rw [BitVec.toNat_add, toNat_shiftLeft_word, Nat.add_mod_mod]

theorem sub_toNat_add (x y : Word) : ((x - y).toNat + y.toNat) % 2 ^ 64 = x.toNat := by
  rw [← BitVec.toNat_add, BitVec.sub_add_cancel]

/-! ### The lesser and the greater (R138) -/

theorem toInt_min (x y : Word) : (if x.slt y then x else y).toInt = min x.toInt y.toInt := by
  simp only [BitVec.slt_iff_toInt_lt]
  split <;> omega

theorem toInt_max (x y : Word) : (if x.slt y then y else x).toInt = max x.toInt y.toInt := by
  simp only [BitVec.slt_iff_toInt_lt]
  split <;> omega

theorem toNat_minn (x y : Word) : (if x.ult y then x else y).toNat = min x.toNat y.toNat := by
  simp only [BitVec.ult_iff_toNat_lt]
  split <;> omega

theorem toNat_maxn (x y : Word) : (if x.ult y then y else x).toNat = max x.toNat y.toNat := by
  simp only [BitVec.ult_iff_toNat_lt]
  split <;> omega

/-! ### Counts of bits (R138) -/

theorem toNat_word {n : Nat} (h : n ≤ 64) : (word n).toNat = n := by
  rw [word, BitVec.toNat_ofNat, Nat.mod_eq_of_lt (by omega)]

/-- Of the n low bits, those above the highest one are 0. -/
theorem clzFrom_spec (x : Word) (n : Nat) : clzFrom x n ≤ n ∧ (∀ i < clzFrom x n, x.getLsbD (n - 1 - i) = false)
    ∧ (clzFrom x n < n → x.getLsbD (n - 1 - clzFrom x n) = true) := by
  induction n with
  | zero => simp [clzFrom]
  | succ n ih =>
    obtain ⟨bound, zeros, top⟩ := ih
    unfold clzFrom
    split
    · next one => exact ⟨Nat.zero_le _, by simp, fun _ => one⟩
    · next zero =>
      refine ⟨by omega, fun i hi => ?_, fun hi => ?_⟩
      · cases i with
        | zero => simpa using zero
        | succ i =>
          have e : n + 1 - 1 - (i + 1) = n - 1 - i := by omega
          rw [e]
          exact zeros i (by omega)
      · have e : n + 1 - 1 - (clzFrom x n + 1) = n - 1 - clzFrom x n := by omega
        rw [e]
        exact top (by omega)

/-- Of the n bits from i up, those below the lowest one are 0. -/
theorem ctzFrom_spec (x : Word) (i n : Nat) : ctzFrom x i n ≤ n ∧ (∀ j < ctzFrom x i n, x.getLsbD (i + j) = false)
    ∧ (ctzFrom x i n < n → x.getLsbD (i + ctzFrom x i n) = true) := by
  induction n generalizing i with
  | zero => simp [ctzFrom]
  | succ n ih =>
    obtain ⟨bound, zeros, top⟩ := ih (i + 1)
    unfold ctzFrom
    split
    · next one => exact ⟨Nat.zero_le _, by simp, fun _ => one⟩
    · next zero =>
      have up (j : Nat) : i + (j + 1) = i + 1 + j := by omega
      refine ⟨by omega, fun j hj => ?_, fun h => ?_⟩
      · cases j with
        | zero => simpa using zero
        | succ j => exact up j ▸ zeros j (by omega)
      · exact up _ ▸ top (by omega)

theorem popcBelow_eq (x : Word) (n : Nat) : popcBelow x n = ((List.range n).filter fun i => x.getLsbD i).length := by
  induction n with
  | zero => rfl
  | succ n ih =>
    rw [popcBelow, ih, List.range_succ, List.filter_append, List.length_append]
    cases h : x.getLsbD n <;> simp [b2n, h]

theorem popcBelow_le (x : Word) (n : Nat) : popcBelow x n ≤ n := by
  rw [popcBelow_eq]
  exact (List.length_filter_le ..).trans List.length_range.le

/-! ### Permutations of bits (R138) -/

/-- The word with bit j alone. -/
theorem getLsbD_one_shiftLeft {j i : Nat} (hi : i < 64) : (1#64 <<< j).getLsbD i = decide (i = j) := by
  rw [← BitVec.twoPow_eq, BitVec.getLsbD_twoPow]
  simp [eq_comm]
  omega

/-- `brev` up to bit n: the bits below n of a word, each at its mirror place. -/
theorem getLsbD_brevBelow (x : Word) {n i : Nat} (hn : n ≤ 64) (hi : i < 64) :
    ((upto n).foldl (fun r j => if x.getLsbD j then r ||| (1#64 <<< (63 - j)) else r) (0 : Word)).getLsbD i
      = (decide (63 - i < n) && x.getLsbD (63 - i)) := by
  induction n with
  | zero => simp [upto]
  | succ n ih =>
    have split_ : decide (63 - i < n + 1) = (decide (63 - i < n) || decide (i = 63 - n)) := by
      rw [← Bool.decide_or, decide_eq_decide]
      omega
    have mirror (h : i = 63 - n) : x.getLsbD (63 - i) = x.getLsbD n := congrArg x.getLsbD (by omega)
    rw [upto, List.foldl_append, List.foldl_cons, List.foldl_nil, split_, Bool.and_or_distrib_right, ← ih (by omega)]
    split
    · next one =>
      rw [BitVec.getLsbD_or, getLsbD_one_shiftLeft hi]
      by_cases h : i = 63 - n
      · rw [mirror h, one, Bool.and_true]
      · simp [h]
    · next zero =>
      by_cases h : i = 63 - n
      · rw [mirror h]; simp [zero]
      · simp [h]

theorem getLsbD_brevWord (x : Word) {j : Nat} (hj : j < 64) : (brevWord x).getLsbD (63 - j) = x.getLsbD j := by
  rw [brevWord, getLsbD_brevBelow x le_rfl (by omega), show 63 - (63 - j) = j by omega]
  simp [hj]

theorem getLsbD_append_low {n : Nat} (a : BitVec n) (b : BitVec 8) {i : Nat} (hi : i < 8) : (a ++ b).getLsbD i = b.getLsbD i := by
  rw [BitVec.getLsbD_append, if_pos hi]

/-- The bits above the lowest byte. -/
theorem getLsbD_append_high {n : Nat} (a : BitVec n) (b : BitVec 8) (m i : Nat) :
    (a ++ b).getLsbD (m + 8 + i) = a.getLsbD (m + i) := by
  rw [BitVec.getLsbD_append, if_neg (by omega)]
  congr 1
  omega

theorem getLsbD_bswapWord (x : Word) {j i : Nat} (hj : j < 8) (hi : i < 8) :
    (bswapWord x).getLsbD (8 * (7 - j) + i) = x.getLsbD (8 * j + i) := by
  change BitVec.getLsbD (w := 8 + 8 + 8 + 8 + 8 + 8 + 8 + 8) _ _ = _
  unfold bswapWord
  interval_cases j <;> simp [getLsbD_append_low, getLsbD_append_high, hi]
theorem toInt_sextLow (x : Word) {n : Nat} (h : n ≤ 64) : (sextLow x n).toInt = (x.setWidth n).toInt :=
  BitVec.toInt_signExtend_of_le h

theorem toNat_zextLow (x : Word) : (zextLow x 32).toNat = x.toNat % 2 ^ 32 := by
  rw [zextLow, BitVec.toNat_setWidth, BitVec.toNat_setWidth, Nat.mod_eq_of_lt (by omega)]

/-- Settles O1: each operation is one result written to d (`writes_of_finish`), whose value the library or a lemma above gives. -/
theorem integerOperations : Obligations.IntegerOperations := by
  intro s d a b x y k
  refine ⟨?add, ?sub, ?and, ?or, ?xor, ?andn, ?orn, ?nor, ?sll, ?srl, ?sra, ?rol, ?ror, ?slt, ?sltn, ?seq, ?sne, ?min, ?max, ?minn, ?maxn,
    ?adds1, ?adds2, ?adds3, ?sel, ?clz, ?ctz, ?popc, ?brev, ?bswap, ?sxb, ?sxh, ?sxw, ?zxw⟩
  case add => exact writes_of_finish rfl (BitVec.toNat_add ..)
  case sub => exact writes_of_finish rfl (sub_toNat_add ..)
  case and => exact writes_of_finish rfl fun _ _ => BitVec.getLsbD_and
  case or => exact writes_of_finish rfl fun _ _ => BitVec.getLsbD_or
  case xor => exact writes_of_finish rfl fun _ _ => BitVec.getLsbD_xor
  case andn => exact writes_of_finish rfl fun i hi => by simp [hi, x, y]
  case orn => exact writes_of_finish rfl fun i hi => by simp [hi, x, y]
  case nor => exact writes_of_finish rfl fun i hi => by simp [hi, x, y]
  case sll => exact writes_of_finish rfl (toNat_shiftLeft_word ..)
  case srl => exact writes_of_finish rfl (toNat_ushiftRight_word ..)
  case sra => exact writes_of_finish rfl (toInt_sshiftRight_word ..)
  case rol => exact writes_of_finish rfl fun _ hi => getLsbD_rotateLeft_word _ (shamt_lt _) hi
  case ror => exact writes_of_finish rfl fun _ hi => getLsbD_rotateRight_word _ (shamt_lt _) hi
  case slt => exact writes_of_finish rfl (toNat_ofBool _ BitVec.slt_iff_toInt_lt)
  case sltn => exact writes_of_finish rfl (toNat_ofBool _ BitVec.ult_iff_toNat_lt)
  case seq => exact writes_of_finish rfl (toNat_ofBool _ beq_iff_eq)
  case sne => exact writes_of_finish rfl (toNat_ofBool _ bne_iff_ne)
  case min => exact writes_of_finish rfl (toInt_min ..)
  case max => exact writes_of_finish rfl (toInt_max ..)
  case minn => exact writes_of_finish rfl (toNat_minn ..)
  case maxn => exact writes_of_finish rfl (toNat_maxn ..)
  case adds1 | adds2 | adds3 => exact writes_of_finish rfl (toNat_add_shiftLeft ..)
  case sel => exact writes_of_finish rfl (if_congr (not_congr BitVec.toNat_inj.symm) rfl rfl)
  case clz => exact writes_of_finish rfl (by rw [toNat_word (clzFrom_spec ..).1]; exact clzFrom_spec x 64)
  case ctz =>
    refine writes_of_finish rfl ?_
    have counted := ctzFrom_spec x 0 64
    simp only [Nat.zero_add] at counted
    rwa [toNat_word counted.1]
  case popc => exact writes_of_finish rfl ((toNat_word (popcBelow_le ..)).trans (popcBelow_eq ..))
  case brev => exact writes_of_finish rfl fun _ hj => getLsbD_brevWord _ hj
  case bswap => exact writes_of_finish rfl fun _ hj _ hi => getLsbD_bswapWord _ hj hi
  case sxb | sxh | sxw => exact writes_of_finish rfl (toInt_sextLow _ (by decide))
  case zxw => exact writes_of_finish rfl (toNat_zextLow _)

end Sys2Proof.Machine
end

section
/-! SUPPORT. Products and quotients, whose results are owed (R133, R139). -/

namespace Sys2Proof.Machine

open Sys2Proof

/-- After a change of the issuing frame alone, the PC moves by four and the instruction retires. -/
theorem Moves.retire4 {u t : State} {g : Frame → Frame} (a : Moves u t g [] (curPc u)) (lin : ∀ x, (g x).lin = x.lin)
    (owner : ∀ x, (g x).owner = x.owner) (ctxs : t.ctxs = u.ctxs) : Retires u (retire4 t) g [] (curPc u + 4) := by
  have moved := a.trans (moves_setPc t (curPc t + 4)) fun _ _ h => h
  rw [a.pc] at moved
  have ends : Machine.retire4 t = countRetire (setPc t (curPc u + 4)) := by rw [Machine.retire4, a.pc]
  exact ends ▸ moved.retire lin owner (by simp [ctxs])

/-- A multiply or divide: its result is owed, and it retires. -/
theorem writesLate_of_opLate {i : Instr} {s : State} {d a b : Reg} {g : Word → Word → Word} {v : Word → Prop}
    (runs : exec i s = opLate d a b g s) (value : v (g (rd s a) (rd s b))) : WritesLate i s d v :=
  ⟨_, value, _, runs, (moves_setCur { s with nextId := s.nextId + 1 } (owing (inHandler s) d s.nextId (some (g (rd s a) (rd s b))))
    rfl rfl).retire4 (fun _ => rfl) (fun _ => rfl) rfl⟩

theorem toInt_mulHi (x y : Word) : (mulHi x y).toInt = x.toInt * y.toInt / 2 ^ 64 := by
  have most : x.toInt * y.toInt ≤ 2 ^ (64 * 2 - 2) := BitVec.toInt_mul_toInt_le
  have least : -(2 ^ (64 * 2 - 2)) ≤ x.toInt * y.toInt := BitVec.le_toInt_mul_toInt
  exact BitVec.toInt_ofInt_eq_self (by decide) (by omega) (by omega)

theorem toNat_mulHiU (x y : Word) : (mulHiU x y).toNat = x.toNat * y.toNat / 2 ^ 64 := by
  rw [mulHiU, BitVec.toNat_ofNat, Nat.mod_eq_of_lt]
  exact Nat.div_lt_of_lt_mul (Nat.mul_lt_mul'' x.isLt y.isLt)

theorem toInt_mulLow (x y : Word) : (sextLow (x * y) 32).toInt = (x.setWidth 32 * y.setWidth 32 : BitVec 32).toInt := by
  rw [toInt_sextLow _ (by decide), BitVec.setWidth_mul _ _ (by decide)]

/-- The signed quotient, with the two fixed cases. -/
theorem divS_spec (x y : Word) : if y = 0 then (divS x y).toNat = 2 ^ 64 - 1
    else if x.toInt = -2 ^ 63 ∧ y.toInt = -1 then (divS x y).toInt = -2 ^ 63 else (divS x y).toInt = x.toInt.tdiv y.toInt := by
  unfold divS
  split
  · rfl
  · rw [BitVec.toInt_ofInt, ← BitVec.toInt_sdiv]
    split
    · next wraps => rw [BitVec.toInt_sdiv, wraps.1, wraps.2]; rfl
    · next fits =>
      refine BitVec.toInt_sdiv_of_ne_or_ne _ _ (not_and_or.1 fun least => fits ?_)
      rw [least.1, least.2]
      decide

theorem divU_spec (x y : Word) : if y = 0 then (divU x y).toNat = 2 ^ 64 - 1 else (divU x y).toNat = x.toNat / y.toNat := by
  unfold divU
  split
  · rfl
  · rw [BitVec.toNat_ofNat, Nat.mod_eq_of_lt ((Nat.div_le_self ..).trans_lt x.isLt)]

/-- The signed remainder, with the two fixed cases. -/
theorem remS_spec (x y : Word) : if y = 0 then remS x y = x
    else if x.toInt = -2 ^ 63 ∧ y.toInt = -1 then remS x y = 0 else (remS x y).toInt = x.toInt - x.toInt.tdiv y.toInt * y.toInt := by
  unfold remS
  split
  · rfl
  · split
    · next wraps => rw [wraps.1, wraps.2]; rfl
    · rw [← BitVec.toInt_srem, BitVec.ofInt_toInt, BitVec.toInt_srem, Int.tmod_def, mul_comm]

theorem remU_spec (x y : Word) : if y = 0 then remU x y = x else (remU x y).toNat = x.toNat % y.toNat := by
  unfold remU
  split
  · rfl
  · rw [BitVec.toNat_ofNat, Nat.mod_eq_of_lt ((Nat.mod_le ..).trans_lt x.isLt)]

/-- Settles O2: each result is owed as the instruction retires (`writesLate_of_opLate`). -/
theorem multiplyDivide : Obligations.MultiplyDivide := by
  intro s d a b x y
  refine ⟨?mul, ?mulh, ?mulhn, ?mulw, ?div, ?divn, ?rem, ?remn⟩
  case mul => exact writesLate_of_opLate (g := (· * ·)) rfl (BitVec.toNat_mul ..)
  case mulh => exact writesLate_of_opLate (g := mulHi) rfl (toInt_mulHi ..)
  case mulhn => exact writesLate_of_opLate (g := mulHiU) rfl (toNat_mulHiU ..)
  case mulw => exact writesLate_of_opLate (g := fun x y => sextLow (x * y) 32) rfl (toInt_mulLow ..)
  case div => exact writesLate_of_opLate (g := divS) rfl (divS_spec ..)
  case divn => exact writesLate_of_opLate (g := divU) rfl (divU_spec ..)
  case rem => exact writesLate_of_opLate (g := remS) rfl (remS_spec ..)
  case remn => exact writesLate_of_opLate (g := remU) rfl (remU_spec ..)

end Sys2Proof.Machine
end

section
/-! SUPPORT. Immediate forms, bit fields and the two constants (R140-R144). -/

namespace Sys2Proof.Machine

open Sys2Proof

theorem toInt_sext16 (i : BitVec 16) : (sext16 i).toInt = i.toInt := BitVec.toInt_signExtend_of_le (by decide)

theorem toInt_add_sext16 (x : Word) (i : BitVec 16) : (x + sext16 i).toInt = (x.toInt + i.toInt).bmod (2 ^ 64) := by
  rw [BitVec.toInt_add, toInt_sext16]

theorem toNat_and_zext16 (x : Word) (i : BitVec 16) : (x &&& zext16 i).toNat = x.toNat % 2 ^ 16 &&& i.toNat := by
  rw [BitVec.toNat_and, zext16, BitVec.toNat_setWidth, Nat.mod_eq_of_lt (i.isLt.trans (by decide))]
  refine Nat.eq_of_testBit_eq fun j => ?_
  rw [Nat.testBit_and, Nat.testBit_and, Nat.testBit_mod_two_pow]
  by_cases low : j < 16
  · simp [low]
  · rw [Nat.testBit_lt_two_pow (i.isLt.trans_le (Nat.pow_le_pow_right (by decide) (by omega))), Bool.and_false, Bool.and_false]

/-- The bits of a sign-extended immediate: the sign from bit 15 up. -/
theorem getLsbD_sext16 (i : BitVec 16) {j : Nat} (hj : j < 64) : (sext16 i).getLsbD j = i.getLsbD (Nat.min j 15) := by
  rw [sext16, BitVec.getLsbD_signExtend, decide_eq_true hj, Bool.true_and]
  split
  · next low => exact congrArg i.getLsbD (Nat.min_eq_left (Nat.le_of_lt_succ low)).symm
  · next high => exact (BitVec.msb_eq_getLsbD_last i).trans (congrArg i.getLsbD (Nat.min_eq_right (by omega : 15 ≤ j)).symm)

theorem toNat_bfField (x : Word) (p l : BitVec 6) : (word (bfField x p l)).toNat = x.toNat / 2 ^ p.toNat % 2 ^ (l.toNat + 1) := by
  rw [word, bfField, BitVec.toNat_ofNat, Nat.mod_eq_of_lt]
  exact (Nat.mod_le ..).trans_lt ((Nat.div_le_self ..).trans_lt x.isLt)

/-- `bfxs` extends the sign of the field. -/
theorem bfSigned_eq (x : Word) (p l : BitVec 6) : bfSigned x p l = (x.extractLsb' p.toNat (l.toNat + 1)).signExtend 64 := by
  have field : (x.extractLsb' p.toNat (l.toNat + 1)).toNat = bfField x p l := by
    rw [BitVec.extractLsb'_toNat, Nat.shiftRight_eq_div_pow, bfField]
  have small : bfField x p l < 2 ^ (l.toNat + 1) := Nat.mod_lt _ (by positivity)
  have half : bfField x p l / 2 ^ l.toNat % 2 = 1 ↔ ¬2 * bfField x p l < 2 ^ (l.toNat + 1) := by
    have one : bfField x p l / 2 ^ l.toNat < 2 := Nat.div_lt_of_lt_mul (by rwa [← pow_succ])
    have top : 1 ≤ bfField x p l / 2 ^ l.toNat ↔ 2 ^ l.toNat ≤ bfField x p l := by
      rw [Nat.le_div_iff_mul_le (by positivity), one_mul]
    rw [Nat.mod_eq_of_lt one, pow_succ]
    omega
  rw [BitVec.signExtend, BitVec.toInt_eq_toNat_cond, field, bfSigned]
  simp only [half, ite_not]
  split
  · rfl
  · norm_cast

theorem getLsbD_bfSigned (x : Word) (p l : BitVec 6) {j : Nat} (hj : j < 64) :
    (bfSigned x p l).getLsbD j = x.getLsbD (p.toNat + Nat.min j l.toNat) := by
  rw [bfSigned_eq, BitVec.getLsbD_signExtend, decide_eq_true hj, Bool.true_and]
  split
  · next low =>
    rw [BitVec.getLsbD_extractLsb', decide_eq_true low, Bool.true_and]
    exact congrArg (fun k => x.getLsbD (p.toNat + k)) (Nat.min_eq_left (Nat.le_of_lt_succ low)).symm
  · next high =>
    rw [BitVec.msb_eq_getLsbD_last, BitVec.getLsbD_extractLsb', Nat.add_sub_cancel, decide_eq_true (Nat.lt_succ_self _), Bool.true_and]
    exact congrArg (fun k => x.getLsbD (p.toNat + k)) (Nat.min_eq_right (by omega : l.toNat ≤ j)).symm

theorem getLsbD_bfInsert (y x : Word) (p l : BitVec 6) {j : Nat} (hj : j < 64) : (bfInsert y x p l).getLsbD j =
    if p.toNat ≤ j ∧ j < p.toNat + (l.toNat + 1) then x.getLsbD (j - p.toNat) else y.getLsbD j := by
  have mask : ((BitVec.ofNat 64 (2 ^ (l.toNat + 1) - 1)) <<< p.toNat).getLsbD j
      = decide (p.toNat ≤ j ∧ j < p.toNat + (l.toNat + 1)) := by
    rw [BitVec.getLsbD_shiftLeft, BitVec.getLsbD_ofNat, Nat.testBit_two_pow_sub_one]
    simp only [hj, decide_true, Bool.true_and, ← Bool.decide_and, ← decide_not, decide_eq_decide]
    omega
  have moved (h : p.toNat ≤ j) : (x <<< p.toNat).getLsbD j = x.getLsbD (j - p.toNat) := by
    rw [BitVec.getLsbD_shiftLeft, decide_eq_true hj, decide_eq_false (not_lt.2 h)]
    rfl
  simp only [bfInsert, BitVec.getLsbD_or, BitVec.getLsbD_and, BitVec.getLsbD_not, mask, hj, decide_true, Bool.true_and]
  split
  · next within => simp [moved within.1, within]
  · next outside => simp [outside]

/-- A sign-extended immediate moved up is its value times a power of two. -/
theorem signExtend_shiftLeft {w : Nat} (i : BitVec w) (n : Nat) : (i.signExtend 64 : Word) <<< n = BitVec.ofInt 64 (i.toInt * 2 ^ n) := by
  rw [BitVec.shiftLeft_eq_mul_twoPow, BitVec.signExtend, BitVec.ofInt_mul]
  congr 1
  refine BitVec.eq_of_toNat_eq ?_
  simp [BitVec.toNat_twoPow, BitVec.toNat_ofInt]
  norm_cast

theorem toInt_ldhi (i : BitVec 21) : ((i.signExtend 64 : Word) <<< 16).toInt = i.toInt * 2 ^ 16 := by
  have most : i.toInt < 2 ^ (21 - 1) := BitVec.toInt_lt
  have least : -2 ^ (21 - 1) ≤ i.toInt := BitVec.le_toInt i
  rw [signExtend_shiftLeft]
  exact BitVec.toInt_ofInt_eq_self (by decide) (by omega) (by omega)

theorem lim_neg {c : Bool} {i : Instr} (h : c = false) : lim c i = .error .limit := if_neg (Bool.eq_false_iff.1 h)

/-- Settles O3: each result by its value, and a field that passes bit 63 by the decoder's check of it (`lim_neg`). -/
theorem immediatesFieldsAndConstants : Obligations.ImmediatesFieldsAndConstants := by
  refine ⟨fun s d a i k => ?immediates, fun s d a p l i => ?fields⟩
  case immediates =>
    refine ⟨?addi, ?andi, ?ori, ?xori, ?slti, ?sltni, ?slli, ?srli, ?srai, ?roli⟩
    case addi => exact writes_of_finish rfl (toInt_add_sext16 ..)
    case andi => exact writes_of_finish rfl (toNat_and_zext16 ..)
    case ori => exact writes_of_finish rfl fun j hj => by rw [BitVec.getLsbD_or, getLsbD_sext16 i hj]
    case xori => exact writes_of_finish rfl fun j hj => by rw [BitVec.getLsbD_xor, getLsbD_sext16 i hj]
    case slti => exact writes_of_finish rfl (toNat_ofBool _ (by rw [BitVec.slt_iff_toInt_lt, toInt_sext16]))
    case sltni => exact writes_of_finish rfl (toNat_ofBool _ BitVec.ult_iff_toNat_lt)
    case slli => exact writes_of_finish rfl (toNat_shiftLeft_word ..)
    case srli => exact writes_of_finish rfl (toNat_ushiftRight_word ..)
    case srai => exact writes_of_finish rfl (toInt_sshiftRight_word ..)
    case roli => exact writes_of_finish rfl fun _ hj => getLsbD_rotateLeft_word _ k.isLt hj
  case fields =>
    refine ⟨fun _ => ⟨?bfx, ?bfxs, ?bfi⟩, fun past => ?refused, ?ldhi, ?adpc⟩
    case bfx => exact writes_of_finish rfl (toNat_bfField ..)
    case bfxs => exact writes_of_finish rfl fun _ hj => getLsbD_bfSigned _ _ _ hj
    case bfi => exact writes_of_finish rfl fun _ hj => getLsbD_bfInsert _ _ _ _ hj
    case refused =>
      have long : bfFits p l = false := by simp only [bfFits, decide_eq_false_iff_not]; omega
      exact ⟨(decodeWord_bfx ..).trans (lim_neg long), (decodeWord_bfx ..).trans (lim_neg long), (decodeWord_bfi ..).trans (lim_neg long)⟩
    case ldhi => exact writes_of_finish rfl (toInt_ldhi i)
    case adpc => exact writes_of_finish rfl (congrArg (curPc s + ·) (signExtend_shiftLeft i 2))

end Sys2Proof.Machine
end

section
/-! SUPPORT. Transfers of control: branches by their conditions, and jumps (R146-R148, R164). -/

namespace Sys2Proof.Machine

open Sys2Proof

theorem branchTarget_eq (pc : Word) (p : BitVec 16) : branchTarget pc p = pc + BitVec.ofInt 64 (p.toInt * 4) :=
  congrArg (pc + ·) (signExtend_shiftLeft p 2)

theorem jumpTarget_eq (pc : Word) (p : BitVec 26) : jumpTarget pc p = pc + BitVec.ofInt 64 (p.toInt * 4) :=
  congrArg (pc + ·) (signExtend_shiftLeft p 2)

/-- Before it retires, a transfer of control has emptied the fetch buffer and moved the PC (R164). -/
def jumped (s : State) (p : Word) : State := setPc (if inHandler s then s else setCur s { curFrame s with fbuf := [] }) p

theorem jumpTo_eq (s : State) (p : Word) : jumpTo s p = countRetire (jumped s p) := rfl

theorem jumped_ctxs (s : State) (p : Word) : (jumped s p).ctxs = s.ctxs := by
  rw [jumped, setPc_ctxs]
  split <;> rfl

theorem moves_jumped (s : State) (p : Word) : Moves s (jumped s p) (emptied (inHandler s)) [] p := by
  unfold jumped
  cases h : inHandler s with
  | true => exact moves_setPc s p
  | false => exact (moves_setCur s (emptied false) rfl rfl).trans (moves_setPc _ p) fun _ _ h => h

theorem emptied_bareFrame (h : Bool) {x y : Frame} (e : bareFrame x = bareFrame y) : bareFrame (emptied h x) = bareFrame (emptied h y) := by
  cases h with
  | true => exact e
  | false => exact (congrArg (fun f => { f with fbuf := [] }) e :)

section
variable {i : Instr} {s : State} {c : Prop} {p : Word}

/-- A register is written, then control is transferred. -/
theorem retires_wr_jumpTo (s : State) (d : Reg) (v p : Word) :
    Retires s (jumpTo (wr s d v) p) (emptied (inHandler s)) [d] p := by
  have written := moves_wr s d v
  have moved := written.trans (moves_jumped (wr s d v) p) fun _ _ => emptied_bareFrame _
  rw [written.handler.2] at moved
  refine jumpTo_eq .. ▸ (moved.retire (fun x => ?_) (fun x => ?_) ((jumped_ctxs ..).trans (wr_ctxs ..)))
  all_goals cases inHandler s <;> rfl

/-- A jump that writes no register. -/
theorem transfers_of_jumpTo (runs : exec i s = .next (jumpTo s p)) : Transfers i s True p [] :=
  ⟨_, runs, fun _ => retires_jumpTo s p, fun no => absurd trivial no⟩

/-- A branch goes to its target exactly where its condition holds. -/
theorem transfers_of_branchIf {b : Bool} {disp : BitVec 16} (runs : exec i s = branchIf b disp s) (holds : b = true ↔ c) :
    Transfers i s c (curPc s + BitVec.ofInt 64 (disp.toInt * 4)) [] := by
  rw [← branchTarget_eq]
  refine ⟨_, runs, fun hc => ?_, fun hc => ?_⟩
  · rw [if_pos (holds.2 hc)]
    exact retires_jumpTo ..
  · rw [if_neg (mt holds.1 hc)]
    exact retires_retire4 s

end

/-- No bit is set in both words. -/
theorem and_eq_zero_iff (x y : Word) : (x &&& y == 0) = true ↔ ∀ j, (x.getLsbD j && y.getLsbD j) = false := by
  rw [beq_iff_eq, BitVec.eq_of_getLsbD_eq_iff]
  simp only [BitVec.getLsbD_and, BitVec.ofNat_eq_ofNat, BitVec.getLsbD_zero]
  refine ⟨fun none j => ?_, fun none j _ => none j⟩
  by_cases low : j < 64
  · exact none j low
  · rw [BitVec.getLsbD_of_ge x j (not_lt.1 low), Bool.false_and]

theorem and_ne_zero_iff (x y : Word) : (x &&& y != 0) = true ↔ ∃ j, (x.getLsbD j && y.getLsbD j) = true := by
  rw [bne, Bool.not_eq_true', ← Bool.not_eq_true, and_eq_zero_iff]
  simp only [not_forall, Bool.not_eq_false]

theorem sub_one_ne_zero_iff (x : Word) : (x - 1 != 0) = true ↔ x.toNat ≠ 1 := by
  rw [bne_iff_ne, ne_eq, BitVec.sub_eq_iff_eq_add, ← BitVec.toNat_inj]
  rfl

/-- R147: `dbnz` takes one from a, then branches on what is left. -/
theorem transfers_dbnz (s : State) (a : Reg) (p : BitVec 16) :
    Transfers (.dbnz a p) s ((rd s a).toNat ≠ 1) (curPc s + BitVec.ofInt 64 (p.toInt * 4)) [a] := by
  have written := moves_wr s a (rd s a - 1)
  refine ⟨_, rfl, fun more => ?_, fun last => ?_⟩
  · rw [if_pos ((sub_one_ne_zero_iff _).2 more), written.pc, ← branchTarget_eq]
    exact retires_wr_jumpTo ..
  · rw [if_neg (mt (sub_one_ne_zero_iff _).1 last)]
    exact retires_finish s a _

theorem rd_dbnz (s : State) (a : Reg) (p : BitVec 16) {u : State} (runs : exec (.dbnz a p) s = .next u) :
    rd u a = if a = 0 then 0 else rd s a - 1 := by
  have kept : rd u a = rd (wr s a (rd s a - 1)) a := by
    obtain rfl := Host.Outcome.next.inj runs
    split
    · exact (retires_jumpTo ..).moves.regs a (by simp)
    · exact (retires_retire4 _).moves.regs a (by simp)
  rw [kept]
  split
  · next zero => rw [zero, rd_zero]
  · next h => exact rd_wr_same s a _ h

/-- The link register of `jal` and `jalr`. -/
theorem rd_wr_jumpTo (s : State) (d : Reg) (v p : Word) : rd (jumpTo (wr s d v) p) d = if d = 0 then 0 else v := by
  rw [(retires_jumpTo (wr s d v) p).moves.regs d (by simp)]
  split
  · next zero => rw [zero, rd_zero]
  · next h => exact rd_wr_same s d v h

/-- Settles O6: a branch is one choice of `branchIf`, a jump one transfer of control after its link is written. -/
theorem branchesAndJumps : Obligations.BranchesAndJumps := by
  refine ⟨fun s a b p => ?branches, fun s d a p => ?jumps⟩
  case branches =>
    refine ⟨?beq, ?bne, ?blt, ?bge, ?bltn, ?bgen, ?bany, ?bnone, transfers_dbnz s a p, fun u => rd_dbnz s a p⟩
    case beq => exact transfers_of_branchIf rfl beq_iff_eq
    case bne => exact transfers_of_branchIf rfl bne_iff_ne
    case blt => exact transfers_of_branchIf rfl BitVec.slt_iff_toInt_lt
    case bge => exact transfers_of_branchIf rfl (by rw [Bool.not_eq_true', ← Bool.not_eq_true, BitVec.slt_iff_toInt_lt, not_lt])
    case bltn => exact transfers_of_branchIf rfl BitVec.ult_iff_toNat_lt
    case bgen => exact transfers_of_branchIf rfl (by rw [Bool.not_eq_true', ← Bool.not_eq_true, BitVec.ult_iff_toNat_lt, not_lt])
    case bany => exact transfers_of_branchIf rfl (and_ne_zero_iff ..)
    case bnone => exact transfers_of_branchIf rfl (and_eq_zero_iff ..)
  case jumps =>
    rw [← jumpTarget_eq]
    refine ⟨transfers_of_jumpTo rfl, ⟨_, rfl, retires_wr_jumpTo .., rd_wr_jumpTo ..⟩, fun aligned => ?_, fun misaligned => ?_⟩
    · have goes {k : Res} : (if (rd s a).toNat % 4 ≠ 0 then commit s (alignTrap s (rd s a)) else k) = k := if_neg (not_not.2 aligned)
      exact ⟨transfers_of_jumpTo goes, _, goes, retires_wr_jumpTo .., rd_wr_jumpTo ..⟩
    · exact ⟨if_pos misaligned, if_pos misaligned⟩

end Sys2Proof.Machine
end

section
/-! SUPPORT. What the end of an activation leaves of reads and requests under way, and where it writes no byte (R137). -/

namespace Sys2Proof.Machine

open Sys2Proof

/-! ### Reads and requests under way -/

/-- No read and no request under way changes. -/
structure KeepsAccesses (s t : State) : Prop where
  reads : t.reads = s.reads
  reqs  : t.reqs = s.reqs

section
variable {s t u : State}

theorem KeepsAccesses.refl (s : State) : KeepsAccesses s s := ⟨rfl, rfl⟩

theorem KeepsAccesses.trans (h : KeepsAccesses s t) (k : KeepsAccesses t u) : KeepsAccesses s u :=
  ⟨k.reads.trans h.reads, k.reqs.trans h.reqs⟩

/-- One more change, of neither. -/
theorem KeepsAccesses.rest (h : KeepsAccesses s t) (e : (u.reads, u.reqs) = (t.reads, t.reqs) := by rfl) : KeepsAccesses s u :=
  h.trans ⟨(Prod.mk.inj e).1, (Prod.mk.inj e).2⟩

theorem KeepsAccesses.settles (h : KeepsAccesses s t) (k : OnlySettles t u) : KeepsAccesses s u :=
  h.trans ⟨(congrArg State.reads k :), (congrArg State.reqs k :)⟩

theorem KeepsAccesses.ite {c : Prop} [Decidable c] (ht : KeepsAccesses s t) (hu : KeepsAccesses s u) :
    KeepsAccesses s (if c then t else u) := by split <;> assumption

theorem KeepsAccesses.foldl {α : Type} {f : State → α → State} (h : KeepsAccesses s t)
    (hf : ∀ u a, KeepsAccesses s u → KeepsAccesses s (f u a)) (l : List α) : KeepsAccesses s (l.foldl f t) :=
  List.foldlRecOn l f h fun u hu a _ => hf u a hu

theorem KeepsAccesses.hwWrite (h : KeepsAccesses s t) (owner a : Nat) (bs : List Byte) (tag : Option Tag) :
    KeepsAccesses s (hwWrite t owner a bs tag) := h.settles (.hwWrite (.refl t) ..)

theorem KeepsAccesses.descCount (h : KeepsAccesses s t) (owner off : Nat) : KeepsAccesses s (descCount t owner off) :=
  .ite h (.ite (h.hwWrite ..) h)

theorem KeepsAccesses.setOwner (h : KeepsAccesses s t) (n : Nat) (x : Owner) : KeepsAccesses s (setOwner t n x) := h.rest

theorem KeepsAccesses.raiseMsix (h : KeepsAccesses s t) (iface vec : Nat) : KeepsAccesses s (raiseMsix t iface vec) := h.rest

theorem KeepsAccesses.faultEntry (h : KeepsAccesses s t) (owner kind cause sub core frame : Nat) (addr pc : Word) :
    KeepsAccesses s (faultEntry t owner kind cause sub core frame addr pc).2 := by
  by_cases e : (ownerOf t owner).desc = 0
  · simp only [Machine.faultEntry, if_pos e]
    exact h.descCount ..
  · simp only [Machine.faultEntry, if_neg e]
    split
    · exact .raiseMsix (.setOwner (.hwWrite (.hwWrite (h.hwWrite ..) ..) ..) ..) ..
    · exact .ite (.hwWrite (h.hwWrite ..) ..) (h.hwWrite ..)

theorem KeepsAccesses.countError (h : KeepsAccesses s t) (l : Lin) : KeepsAccesses s (countError t l) := by
  unfold Machine.countError
  split
  · exact h.rest
  · exact h

/-! ### What an activation holds (R137, R170, R174, R177, R325, R331) -/

theorem KeepsAccesses.failParts (h : KeepsAccesses s t) (lease : Nat) : KeepsAccesses s (failParts t lease) :=
  (h.rest (by rfl)).foldl (fun _ c h => (h.faultEntry ..).countError c.lin) _

theorem KeepsAccesses.endLease (h : KeepsAccesses s t) (ring : Nat) : KeepsAccesses s (endLease t ring) := by
  unfold Machine.endLease
  dsimp only
  split
  · exact h
  · exact .failParts h.rest _

theorem KeepsAccesses.refuseLease (h : KeepsAccesses s t) (ring id status : Nat) : KeepsAccesses s (refuseLease t ring id status) := by
  unfold Machine.refuseLease
  dsimp only
  split
  · exact h
  · refine h.rest.foldl (fun u m h => ?_) _
    split
    · exact h.rest
    · exact h

theorem KeepsAccesses.dropLeases (h : KeepsAccesses s t) (core frame act : Nat) : KeepsAccesses s (dropLeases t core frame act) := by
  unfold Machine.dropLeases
  refine h.foldl (fun u p h => KeepsAccesses.foldl ?_ (fun _ _ h => h.refuseLease ..) _) _
  split
  · split
    · exact h.endLease _
    · exact h
  · exact h

theorem KeepsAccesses.hwLocal (h : KeepsAccesses s t) (core owner off : Nat) (bs : List Byte) :
    KeepsAccesses s (hwLocal t core owner off bs) := by
  unfold Machine.hwLocal
  split
  · exact h.hwWrite ..
  · exact h

theorem KeepsAccesses.setHeader (h : KeepsAccesses s t) (k off : Nat) (x : Header) : KeepsAccesses s (setHeader t k off x) :=
  .foldl (h.rest (by rfl)) (fun _ _ h => h.hwLocal ..) _

theorem KeepsAccesses.releaseHandle (h : KeepsAccesses s t) (k : Nat) (x : Handle) : KeepsAccesses s (releaseHandle t k x) := by
  unfold Machine.releaseHandle
  split
  · exact h
  · exact h.setHeader ..

theorem KeepsAccesses.launch (h : KeepsAccesses s t) (m : Msg) : KeepsAccesses s (launch t m) := by
  unfold Machine.launch
  dsimp only
  split
  · exact h.rest
  · exact .foldl (h.rest (by rfl)) (fun u _ h => h.settles (.requestAt (.refl u) ..)) _

theorem KeepsAccesses.consumeSlot (h : KeepsAccesses s t) (k off j : Nat) : KeepsAccesses s (consumeSlot t k off j) := by
  unfold Machine.consumeSlot
  split
  · exact h
  · exact .ite (h.setHeader ..) (.ite (.launch (h.setHeader ..).rest _) (h.setHeader ..))

/-! ### The end of an activation (R137) -/

/-- The reads that belong to the activation in a frame. -/
def readOf (s : State) (c f : Nat) (r : Read) : Bool :=
  r.ctx == ctxKey c (frameOf s c f).owner && r.frame == f && r.act == (frameOf s c f).act

/-- The close messages of an activation's windows, sent or left to follow. -/
def closeWindows (s : State) (c f : Nat) (x : Frame) : State :=
  x.windows.foldl (fun s p =>
    if windowTaken s (ctxKey c x.owner) f x.act p.1 || segmentRoom s (ctxKey c x.owner) (f / 4) == 0 then
      { s with orphans := s.orphans ++ [(ctxKey c x.owner, f, x.act, p.1, p.2)] }
    else pushClose s (ctxKey c x.owner) f x.act p.1 p.2 x.lin) s

/-- The notice that an activation of a launch has ended, on its way (R194). -/
def endNoticed (s : State) (c f : Nat) (x : Frame) : State :=
  match x.launch with
  | some (i, n, arm) =>
    { s with nextId := s.nextId + 1,
             notices := s.notices ++ [({ id := s.nextId, ctx := ctxKey c x.owner, frame := f, act := x.act, core := c, owner := x.owner,
                                         body := .endNotice i n arm, tag := (ctxOf s (ctxKey c x.owner)).known },
                                       (ctxOf s (ctxKey c x.owner)).queue.map QEntry.id)] }
  | none => s

/-- The slot whose arrival started an activation is consumed (R177). -/
def slotConsumed (s : State) (c : Nat) (x : Frame) : State :=
  match x.slot with
  | some (h, j, sparse) => if sparse then s else consumeSlot s (ctxKey c x.owner) h j
  | none => s

/-- What an activation holds has gone. -/
def heldGone (s : State) (c f : Nat) : State :=
  let x := frameOf s c f
  slotConsumed (endNoticed (closeWindows (dropLeases
    (x.handles.foldl (fun s p => releaseHandle s (ctxKey c x.owner) p.2) s) c f x.act) c f x) c f x) c x

/-- The reads of the activation that `s` has in a frame go from `t`, the frame is Free, and its core counts a wake event. -/
def frameGone (s t : State) (c f : Nat) : State :=
  wakeCore (setFrame (cancelAt { t with reads := t.reads.filter fun r => !readOf s c f r } ((t.reads.filter (readOf s c f)).map Read.id))
    c f (freed (frameOf s c f))) c

theorem frameGone_reads (s t : State) (c f : Nat) : (frameGone s t c f).reads = t.reads.filter fun r => !readOf s c f r := rfl
theorem frameGone_reqs (s t : State) (c f : Nat) : (frameGone s t c f).reqs = t.reqs := rfl
theorem frameGone_wbuf (s t : State) (c f : Nat) : (frameGone s t c f).wbuf = t.wbuf := rfl

theorem endActivation_parts (s : State) (c f : Nat) : endActivation s c f = frameGone s (heldGone s c f) c f := rfl

theorem KeepsAccesses.closeWindows (h : KeepsAccesses s t) (c f : Nat) (x : Frame) : KeepsAccesses s (closeWindows t c f x) :=
  h.foldl (fun _ _ h => .ite h.rest h.rest) _

theorem KeepsAccesses.endNoticed (h : KeepsAccesses s t) (c f : Nat) (x : Frame) : KeepsAccesses s (endNoticed t c f x) := by
  unfold Machine.endNoticed
  split
  · exact h.rest
  · exact h

theorem KeepsAccesses.slotConsumed (h : KeepsAccesses s t) (c : Nat) (x : Frame) : KeepsAccesses s (slotConsumed t c x) := by
  unfold Machine.slotConsumed
  split
  · exact .ite h (h.consumeSlot ..)
  · exact h

theorem KeepsAccesses.heldGone (h : KeepsAccesses s t) (c f : Nat) : KeepsAccesses s (heldGone t c f) :=
  .slotConsumed (.endNoticed (.closeWindows (.dropLeases (h.foldl (fun _ _ h => h.releaseHandle ..) _) ..) ..) ..) ..

/-- Its own unserved reads go; requests already issued stay. -/
theorem endActivation_accesses (s : State) (c f : Nat) : (endActivation s c f).reads = s.reads.filter (fun r => !readOf s c f r)
    ∧ (endActivation s c f).reqs = s.reqs := by
  obtain ⟨reads, reqs⟩ := KeepsAccesses.heldGone (.refl s) c f
  rw [endActivation_parts, frameGone_reads, frameGone_reqs, reads, reqs]
  exact ⟨rfl, rfl⟩

theorem closeWindows_wbuf (s : State) (c f : Nat) (x : Frame) : (closeWindows s c f x).wbuf = s.wbuf :=
  List.foldlRecOn (motive := fun u : State => u.wbuf = s.wbuf) _ _ rfl fun u h p _ => by split <;> exact h

theorem endNoticed_wbuf (s : State) (c f : Nat) (x : Frame) : (endNoticed s c f x).wbuf = s.wbuf := by
  unfold endNoticed
  split <;> rfl

/-- Without handles, the slot of an arrival and leases, nothing is written. -/
theorem endActivation_wbuf {s : State} {c f : Nat} (handles : (frameOf s c f).handles = []) (slot : (frameOf s c f).slot = none)
    (leases : noLease s) : (endActivation s c f).wbuf = s.wbuf := by
  rw [endActivation_parts, frameGone_wbuf, heldGone, handles, List.foldl_nil, dropLeases_of_noLease leases, slotConsumed, slot]
  dsimp only
  rw [endNoticed_wbuf, closeWindows_wbuf]

end

/-! ### `done` (R137, R365) -/

/-- The state in which `done` ends the activation: the retirement counts, and the handler is left (R135, R365). -/
def doneFrom (s : State) : State := if inHandler s then handlerLeft (countRetire s) else countRetire s

theorem exec_done (s : State) : exec .done s = commit s (endActivation (doneFrom s) s.cur.1 s.cur.2) := by
  unfold doneFrom handlerLeft curCore
  rw [cur_countRetire]
  rfl

theorem countRetire_rest (s : State) : { countRetire s with ctxs := s.ctxs } = s := by unfold countRetire; split <;> rfl

section
variable (s : State)

theorem doneFrom_frame (c f : Nat) : frameOf (doneFrom s) c f = frameOf s c f := by
  have counted (c f : Nat) : frameOf (countRetire s) c f = frameOf s c f := by rw [frameOf, frameOf, coreOf_countRetire]
  unfold doneFrom
  split
  · exact (frameOf_setCore_frames (countRetire s) _ { curCore (countRetire s) with sup := false, hregs := _ } (by rfl) c f).trans
      (counted c f)
  · exact counted c f

/-- But for cores and contexts nothing has changed. -/
theorem doneFrom_rest : { doneFrom s with cores := s.cores, ctxs := s.ctxs } = s := by
  have counted : { countRetire s with cores := s.cores, ctxs := s.ctxs } = s :=
    congrArg (fun u : State => { u with cores := s.cores }) (countRetire_rest s)
  unfold doneFrom
  split <;> exact counted

theorem doneFrom_handler (h : inHandler s = true) : (coreOf (doneFrom s) s.cur.1).sup = false
    ∧ (coreOf (doneFrom s) s.cur.1).hregs = Vector.replicate 32 0 := by
  have left : coreOf (doneFrom s) s.cur.1 = { curCore (countRetire s) with sup := false, hregs := Vector.replicate 32 0 } := by
    rw [doneFrom, if_pos h, handlerLeft, cur_countRetire, coreOf_setCore_same]
  rw [left]
  exact ⟨rfl, rfl⟩

end

/-- Settles O10: the retirement counts, the handler is left, and the activation ends (`endActivation_ends`, `endActivation_accesses`,
`endActivation_wbuf`). -/
theorem endOfActivation : Obligations.EndOfActivation := by
  intro s c f
  have ends := endActivation_ends (doneFrom s) c f
  obtain ⟨reads, reqs⟩ := endActivation_accesses (doneFrom s) c f
  have rest := doneFrom_rest s
  have frame : frameOf (doneFrom s) c f = curFrame s := doneFrom_frame s c f
  refine ⟨committed s (endActivation (doneFrom s) c f), exec_done s, ends.st, ends.handles, ends.windows, ends.owed,
    ends.regs.trans (congrArg Frame.regs frame), fun a b other => ?others, ?reads, ?reqs, fun h => ?handler, fun inv handles slot leases => ?bytes⟩
  case others => rw [← doneFrom_frame s a b]; exact ends.others other
  case reads =>
    have kept : (doneFrom s).reads = s.reads := (congrArg State.reads rest :)
    rw [kept] at reads
    simp only [readOf, frame] at reads
    exact reads
  case reqs => exact reqs.trans (congrArg State.reqs rest :)
  case handler =>
    have core := ends.core c
    obtain ⟨sup, hregs⟩ := doneFrom_handler s h
    exact ⟨(congrArg CoreSt.sup core :).trans sup, (congrArg CoreSt.hregs core :).trans hregs⟩
  case bytes =>
    have rings : (doneFrom s).rings = s.rings := (congrArg State.rings rest :)
    have free : noLease (doneFrom s) := by unfold noLease; rw [rings]; exact leases
    have written := endActivation_wbuf (by rw [frame, handles]) (by rw [frame, slot]) free
    exact quiet_committed (written.trans (congrArg State.wbuf rest :)) inv.wbuf

end Sys2Proof.Machine
end

section
/-! SUPPORT. What a write of GATE, BANKMAP or CTDAT does, taken or refused, the bytes of a bank that is handed over, and the record that
a build makes (R130, R155, R367, R386). -/

namespace Sys2Proof.Machine

open Sys2Proof

/-! ### Bytes of a bank that is zeroed (R155) -/

/-- The address lies in a bank. -/
def inBank (core b a : Nat) : Bool := decide (bankLoc core b ≤ a) && decide (a < bankLoc core b + 0x10000)

theorem inBank_eq_true {core b a : Nat} : inBank core b a = true ↔ bankLoc core b ≤ a ∧ a < bankLoc core b + 0x10000 := by
  simp [inBank]

theorem putBytes_wbuf (l : List Host.Cell) (s : State) :
    (l.foldl (fun s p => putByte s p.1 0) s).wbuf = (l.map fun p => (p.1, 0)).reverse ++ s.wbuf := by
  induction l generalizing s with
  | nil => rfl
  | cons p r ih => rw [List.foldl_cons, ih, List.map_cons, List.reverse_cons, List.append_assoc]; rfl

/-- Each listed byte of the bank is written 0. -/
theorem zeroBank_wbuf (s : State) (core b : Nat) : (zeroBank s core b).wbuf =
    (((s.mem ++ s.wbuf).filter fun p => inBank core b p.1).map fun p => (p.1, (0 : Byte))).reverse ++ s.wbuf :=
  putBytes_wbuf ..

theorem mem_zeroBank_wbuf {s : State} {core b : Nat} (clean : s.wbuf = []) {p : Host.Cell} :
    p ∈ (zeroBank s core b).wbuf ↔ p.2 = 0 ∧ inBank core b p.1 = true ∧ ∃ y, (p.1, y) ∈ s.mem := by
  obtain ⟨a, y⟩ := p
  simp only [zeroBank_wbuf, clean, List.append_nil, List.mem_reverse, List.mem_map, List.mem_filter, Prod.mk.injEq]
  constructor
  · rintro ⟨⟨c, z⟩, ⟨listed, within⟩, rfl, rfl⟩
    exact ⟨rfl, within, z, listed⟩
  · rintro ⟨rfl, within, z, listed⟩
    exact ⟨(a, z), ⟨listed, within⟩, rfl, rfl⟩

theorem memRead_applyWrites_other (m w : List Host.Cell) {a : Nat} (h : ∀ p ∈ w, p.1 ≠ a) :
    memRead (applyWrites m w) a = memRead m a := by
  induction w with
  | nil => rfl
  | cons p r ih =>
    rw [applyWrites, memRead_memPut_other _ _ _ _ (h p (.head _)).symm, ih fun q hq => h q (.tail _ hq)]

theorem memRead_unlisted {m : List Host.Cell} {a : Nat} (h : ∀ y, (a, y) ∉ m) : memRead m a = 0 := by
  induction m with
  | nil => rfl
  | cons p r ih =>
    obtain ⟨x, z⟩ := p
    have other : x ≠ a := fun e => h z (e ▸ .head _)
    rw [memRead, if_neg other, ih fun y hy => h y (.tail _ hy)]

theorem find_isSome_of_mem {α : Type} {m : NMap α} {k : Nat} {x : α} (h : (k, x) ∈ m) : (NMap.find m k).isSome = true := by
  induction m with
  | nil => cases h
  | cons p r ih =>
    rw [NMap.find]
    split
    · rfl
    · next other =>
      rcases List.mem_cons.1 h with rfl | h
      · exact absurd rfl other
      · exact ih h

section
variable {s z : State} {core b : Nat}

/-- Once the writes are made, no byte outside the bank has changed. -/
theorem byteAt_zeroed_outside (clean : s.wbuf = []) (zeroes : z.wbuf = (zeroBank s core b).wbuf) {a : Nat}
    (outside : a < bankLoc core b ∨ bankLoc core b + 0x10000 ≤ a) : byteAt (committed s z) a = byteAt s a := by
  have apart : ∀ p ∈ z.wbuf, p.1 ≠ a := fun p hp e => by
    have within := inBank_eq_true.1 ((mem_zeroBank_wbuf clean).1 (zeroes ▸ hp)).2.1
    omega
  simp only [byteAt, committed, NMap.find, clean]
  exact memRead_applyWrites_other _ _ apart

/-- And every byte of the bank reads 0. -/
theorem byteAt_zeroed_inside (inv : Inv s) (zeroes : z.wbuf = (zeroBank s core b).wbuf) {a : Nat} (least : bankLoc core b ≤ a)
    (most : a < bankLoc core b + 0x10000) : byteAt (committed s z) a = 0 := by
  simp only [byteAt, committed, NMap.find, memRead_applyWrites _ _ inv.mem, zeroes]
  cases found : NMap.find (zeroBank s core b).wbuf a with
  | some y => exact ((mem_zeroBank_wbuf inv.wbuf).1 (mem_of_find found)).1
  | none =>
    refine memRead_unlisted fun y listed => ?_
    have written := find_isSome_of_mem ((mem_zeroBank_wbuf (p := (a, 0)) inv.wbuf).2 ⟨rfl, inBank_eq_true.2 ⟨least, most⟩, y, listed⟩)
    rw [found] at written
    exact Bool.noConfusion written

end

/-! ### Writes of GATE and BANKMAP (R130, R367, R385) -/

theorem writeBankmap_eq {s : State} {core : Nat} {v : Word} (writes : bit v 18 = false) : writeBankmap s core v =
    orWref (bankSelected s core (bits v 14 12)) core
      (assignBank (bankSelected s core (bits v 14 12)) core (bits v 14 12) (bits v 11 0) (bit v 15)) :=
  if_neg (Bool.eq_false_iff.1 writes)

theorem discardTables_cores (s : State) (core owner : Nat) : (discardTables s core owner).cores = s.cores := by
  unfold discardTables
  split <;> rfl

theorem discardTables_wbuf (s : State) (core owner : Nat) : (discardTables s core owner).wbuf = s.wbuf := by
  unfold discardTables
  split <;> rfl

/-- The state after a bank with the fields `x` has gone to an owner: another's is zeroed (R155). -/
def handedOver (s : State) (core b owner : Nat) (x : Bank) : State :=
  if x.valid then discardTables (zeroBank (setBank s core b { owner := owner, valid := true, clean := true }) core b) core x.owner
  else setBank s core b { owner := owner, valid := true, clean := true }

section
variable {s : State} {core b owner : Nat} {x : Bank}

theorem handedOver_cores : (handedOver s core b owner x).cores = (setBank s core b { owner := owner, valid := true, clean := true }).cores := by
  unfold handedOver
  split
  · rw [discardTables_cores, zeroBank_cores]
  · rfl

theorem handedOver_wbuf_of_free (free : x.valid = false) : (handedOver s core b owner x).wbuf = s.wbuf := by
  rw [handedOver, if_neg (Bool.eq_false_iff.1 free)]
  rfl

theorem handedOver_wbuf (held : x.valid = true) : (handedOver s core b owner x).wbuf = (zeroBank s core b).wbuf := by
  rw [handedOver, if_pos held, discardTables_wbuf, zeroBank_wbuf, zeroBank_wbuf]
  rfl

theorem banks_setBank (s : State) (core b : Nat) (x : Bank) (e : Nat) :
    NMap.get (coreOf (setBank s core b x) core).banks e {} = if e = b then x else NMap.get (coreOf s core).banks e {} := by
  rw [setBank, coreOf_setCore_same, get_put]

theorem banks_handedOver (e : Nat) : NMap.get (coreOf (handedOver s core b owner x) core).banks e {} =
    if e = b then { owner := owner, valid := true, clean := true } else NMap.get (coreOf s core).banks e {} := by
  rw [← banks_setBank, coreOf, handedOver_cores, ← coreOf]

/-- A clean bank of nobody, or of another owner, goes to an owner below its limit. -/
theorem assignBank_given (hx : NMap.get (coreOf s core).banks b {} = x) (other : x.valid = false ∨ x.owner ≠ owner) (clean : x.clean = true)
    (room : (banksOf s core owner).length < bankLimit s owner) (carried : physCore s core < 6144) :
    assignBank s core b owner true = some (handedOver s core b owner x) := by
  have new : (x.valid && x.owner == owner) = false := by simpa [imp_iff_not_or] using other
  simp only [assignBank, hx, new, clean, handedOver, Bool.not_true, Bool.false_or, decide_eq_false (Nat.not_le.2 room),
    decide_eq_false (Nat.not_le.2 carried), Bool.false_eq_true, if_false, if_true]

theorem assignBank_unclean (hx : NMap.get (coreOf s core).banks b {} = x) (unclean : x.clean = false) (free : x.valid = false) :
    assignBank s core b owner true = none := by
  simp [assignBank, hx, unclean, free]

/-- A bank that is not live goes back from its owner, and is then not clean. -/
theorem assignBank_back (hx : NMap.get (coreOf s core).banks b {} = x) (held : x.valid = true) (idle : bankLive s core b = false) :
    assignBank s core b x.owner false
      = some (discardTables (setBank s core b { owner := x.owner, valid := false, clean := false }) core x.owner) := by
  simp [assignBank, hx, held, idle]

theorem assignBank_live (hx : NMap.get (coreOf s core).banks b {} = x) (held : x.valid = true) (live : bankLive s core b = true) :
    assignBank s core b owner false = none := by
  simp [assignBank, hx, held, live]

end

/-- A frame with its gated clks set aside. -/
def ungated (f : Frame) : Frame := { f with gatedFor := 0 }

/-- What a write of GATE makes of a frame of the core. -/
def gateFrame (s : State) (core : Nat) (g : BitVec 8) (p : Nat × Frame) : Nat × Frame :=
  (p.1, if (coreOf s core).gate.getLsbD (p.1 / 4) && !g.getLsbD (p.1 / 4) then ungate s core p.2 (p.1 / 4) else p.2)

theorem ungated_gateFrame (s : State) (core : Nat) (g : BitVec 8) (p : Nat × Frame) : ungated (gateFrame s core g p).2 = ungated p.2 := by
  rw [gateFrame]
  dsimp only
  split <;> rfl

/-- What GATE's write leaves: the frames but for the clks they have spent gated, and the other cores. -/
theorem gateWrite_spec (s : State) (core : Nat) (v : Word) : ∃ t, exec (.gateWrite core v) s = .next t ∧ Quiet s t
    ∧ (coreOf t core).gate = v.setWidth 8
    ∧ (∀ g, { frameOf t core g with gatedFor := 0 } = { frameOf s core g with gatedFor := 0 })
    ∧ ∀ c, c ≠ core → coreOf t c = coreOf s c := by
  refine ⟨committed s (writeGate s core v), rfl, quiet_committed rfl, congrArg CoreSt.gate (coreOf_setCore_same ..), fun g => ?_,
    fun c hc => (coreOf_setCore ..).trans (if_neg hc)⟩
  have frames : (coreOf (writeGate s core v) core).frames = (coreOf s core).frames.map (gateFrame s core (v.setWidth 8)) :=
    congrArg CoreSt.frames (coreOf_setCore_same ..)
  change ungated (NMap.get (coreOf (writeGate s core v) core).frames g {}) = ungated (NMap.get (coreOf s core).frames g {})
  rw [frames]
  exact get_map_keeps ungated (gateFrame s core (v.setWidth 8)) (fun _ => rfl) (ungated_gateFrame s core _) ..

/-- What BANKMAP's write leaves where the bank goes to an owner. -/
theorem bankmapWrite_given {s : State} {core : Nat} {v : Word} {x : Bank} (hx : NMap.get (coreOf s core).banks (bits v 14 12) {} = x)
    (writes : bit v 18 = false) (valid : bit v 15 = true) (other : x.valid = false ∨ x.owner ≠ bits v 11 0) (clean : x.clean = true)
    (room : (banksOf s core (bits v 11 0)).length < bankLimit s (bits v 11 0)) (carried : physCore s core < 6144) :
    ∃ t, exec (.bankmapWrite core v) s = .next t ∧ (x.valid = false → Quiet s t)
      ∧ (s.wbuf = [] → ∀ a, a < bankLoc core (bits v 14 12) ∨ bankLoc core (bits v 14 12) + 0x10000 ≤ a → byteAt t a = byteAt s a)
      ∧ (x.valid = true → Inv s → ∀ a, bankLoc core (bits v 14 12) ≤ a → a < bankLoc core (bits v 14 12) + 0x10000 → byteAt t a = 0)
      ∧ NMap.get (coreOf t core).banks (bits v 14 12) {} = { owner := bits v 11 0, valid := true, clean := true }
      ∧ ∀ e, e ≠ bits v 14 12 → NMap.get (coreOf t core).banks e {} = NMap.get (coreOf s core).banks e {} := by
  have banks := bankSelected_banks s core (bits v 14 12)
  have taken : writeBankmap s core v = handedOver (bankSelected s core (bits v 14 12)) core (bits v 14 12) (bits v 11 0) x := by
    have given := assignBank_given (s := bankSelected s core (bits v 14 12)) (by rw [banks, hx]) other clean
      (by rwa [banksOf, banks]) carried
    rw [writeBankmap_eq writes, valid, given]
    rfl
  have zeroes (held : x.valid = true) : (writeBankmap s core v).wbuf = (zeroBank s core (bits v 14 12)).wbuf := by
    rw [taken, handedOver_wbuf held, zeroBank_wbuf, zeroBank_wbuf]
    rfl
  have after (e : Nat) : NMap.get (coreOf (committed s (writeBankmap s core v)) core).banks e {}
      = if e = bits v 14 12 then { owner := bits v 11 0, valid := true, clean := true } else NMap.get (coreOf s core).banks e {} := by
    have same : coreOf (committed s (writeBankmap s core v)) core = coreOf (writeBankmap s core v) core := rfl
    rw [same, taken, banks_handedOver, banks]
  have quiet (free : x.valid = false) : Quiet s (committed s (writeBankmap s core v)) :=
    quiet_committed (by rw [taken, handedOver_wbuf_of_free free]; rfl)
  refine ⟨committed s (writeBankmap s core v), rfl, quiet, fun none a outside => ?_, fun held inv a least most =>
    byteAt_zeroed_inside inv (zeroes held) least most, (after _).trans (if_pos rfl), fun e he => (after e).trans (if_neg he)⟩
  cases held : x.valid with
  | false => exact quiet held none a
  | true => exact byteAt_zeroed_outside none (zeroes held) outside

/-- What BANKMAP's write leaves where a bank is given back. -/
theorem bankmapWrite_back {s : State} {core : Nat} {v : Word} {x : Bank} (hx : NMap.get (coreOf s core).banks (bits v 14 12) {} = x)
    (writes : bit v 18 = false) (invalid : bit v 15 = false) (held : x.valid = true)
    (idle : bankLive (bankSelected s core (bits v 14 12)) core (bits v 14 12) = false) (own : bits v 11 0 = x.owner) :
    ∃ t, exec (.bankmapWrite core v) s = .next t ∧ Quiet s t
      ∧ NMap.get (coreOf t core).banks (bits v 14 12) {} = { owner := bits v 11 0, valid := false, clean := false } := by
  have taken : writeBankmap s core v = discardTables (setBank (bankSelected s core (bits v 14 12)) core (bits v 14 12)
      { owner := x.owner, valid := false, clean := false }) core x.owner := by
    rw [writeBankmap_eq writes, invalid, own, assignBank_back (by rw [bankSelected_banks, hx]) held idle]
    rfl
  refine ⟨committed s (writeBankmap s core v), rfl, quiet_committed (by rw [taken, discardTables_wbuf]; rfl), ?_⟩
  have same : coreOf (committed s (writeBankmap s core v)) core = coreOf (writeBankmap s core v) core := rfl
  rw [same, taken, coreOf, discardTables_cores, ← coreOf, own, banks_setBank, if_pos rfl]

/-- A write of BANKMAP that `assignBank` refuses. -/
theorem bankmapWrite_refused {s : State} {core : Nat} {v : Word} (writes : bit v 18 = false)
    (no : assignBank (bankSelected s core (bits v 14 12)) core (bits v 14 12) (bits v 11 0) (bit v 15) = none) :
    exec (.bankmapWrite core v) s = commit s (setWref (bankSelected s core (bits v 14 12)) core) :=
  congrArg (commit s) ((writeBankmap_eq writes).trans (congrArg (orWref _ core) no))

/-! ### Writes of CTDAT (R367) -/

theorem ctdatWrite_refused {s : State} {core : Nat} {v : Word} (no : 6144 ≤ (coreOf s core).ctsel
      ∨ coreHasBank s (coreOf s core).ctsel = true ∨ (bits v 12 0 < 6144 ∧ mappedElsewhere s (coreOf s core).ctsel (bits v 12 0) = true)) :
    exec (.ctdatWrite core v) s = commit s (setWref s core) :=
  congrArg (fun z => commit s (orWref s core z)) (if_pos no)

theorem ctdatWrite_moves {s : State} {core : Nat} {v : Word} (logical : (coreOf s core).ctsel < 6144)
    (empty : coreHasBank s (coreOf s core).ctsel = false) (free : mappedElsewhere s (coreOf s core).ctsel (bits v 12 0) = false) :
    ∃ t, exec (.ctdatWrite core v) s = .next t ∧ physCore t (coreOf s core).ctsel = bits v 12 0 := by
  refine ⟨committed s (writeCtdat s core v), rfl, ?_⟩
  have same (z : State) : physCore (committed s z) (coreOf s core).ctsel = physCore z (coreOf s core).ctsel := rfl
  rw [same, writeCtdat, assignCore, if_neg (by simp [logical, empty, free])]
  by_cases here : physCore s (coreOf s core).ctsel = bits v 12 0
  · rw [if_pos here]
    exact here
  · rw [if_neg here]
    exact (remapCore_spec ..).1

/-! ### Launch records (R386) -/

/-- The record that a build makes of the words of its image. -/
def builtRecord (g : Nat → Nat) (least image : Nat) : LRec :=
  { state := .idle, entry := g 0 / 4 % 2 ^ 17 * 4, policy := g 0 / 2 ^ 19 % 4, det := g 0 / 2 ^ 21 % 2 == 1,
    early := g 0 / 2 ^ 22 % 2 == 1, fuse := g 0 / 2 ^ 23 % 2 == 1, fmt := word (g 1 % 2 ^ 45),
    counts := [word (g 2), word (g 3), word (g 4), word (g 5), word (g 6), word (g 7)], param := word (g 8), done := word (g 9),
    first := g 10 % 2 ^ 13, ncores := g 10 / 2 ^ 16 % 2 ^ 13, quantum := max (g 11 % 2 ^ 32) least, image := image }

section
variable (s : State) {i k : Nat} {v : Word}

theorem upto_eq_range (n : Nat) : upto n = List.range n := by
  induction n with
  | zero => rfl
  | succ n ih => rw [upto, ih, List.range_succ]

theorem getD_map_upto (g : Nat → Nat) {j n : Nat} (h : j < n) : ((upto n).map g).getD j 0 = g j := by
  simp [upto_eq_range, List.getD_eq_getElem?_getD, h]

/-- An image within the limits, in device DRAM, makes a record that does not run. -/
theorem buildRecord_sound {a : Nat} (still : (recOf s i k).state ≠ .running)
    (sound : imageOk ((upto 32).map fun j => rdNat s (a + 8 * j) 8) = true ∧ a + 256 ≤ Config.dramEnd) :
    buildRecord s i k a
      = some (setRec s i k (builtRecord (fun j => rdNat s (a + 8 * j) 8) (ifaceOf s i).quantum (a / 2 ^ 8))) := by
  have taken : ¬((recOf s i k).state = .running ∨ Config.dramEnd < a + 256
      ∨ imageOk ((upto 32).map fun j => rdNat s (a + 8 * j) 8) = false) := by
    simp [still, sound.1, sound.2]
  rw [buildRecord, if_neg taken]
  simp (disch := decide) only [getD_map_upto]
  rfl

theorem buildRecord_refused {a : Nat} (no : (recOf s i k).state = .running
      ∨ ¬(imageOk ((upto 32).map fun j => rdNat s (a + 8 * j) 8) = true ∧ a + 256 ≤ Config.dramEnd)) : buildRecord s i k a = none := by
  refine if_pos (no.imp id fun no => ?_)
  by_cases past : Config.dramEnd < a + 256
  · exact .inl past
  · exact .inr (Bool.eq_false_iff.2 fun ok => no ⟨ok, Nat.not_lt.1 past⟩)

/-- A build's value is within its row, and its write is `buildRecord`. -/
theorem tableWrite_build (hi : i < 256) (hk : k < 1024) (high : bits v 63 56 = 0) (low : bits v 7 0 = 0) :
    tableWrite s 0x16 0 i k v = buildRecord s i k (bits v 55 8 * 2 ^ 8) := by
  have within : v.toNat % 2 ^ 8 = 0 ∧ v.toNat < 2 ^ 56 := by
    simp only [bits] at high low
    have := v.isLt
    omega
  have build : bit v 0 = false := by
    rw [bit, BitVec.getLsbD, Nat.testBit_zero, decide_eq_false_iff_not]
    omega
  rw [tableWrite_record s hi hk (valueOk_record within), writeRecord, build, if_neg Bool.false_ne_true]

theorem exec_recordBuild (low : bits v 7 0 = 0) : exec (.recordBuild i k v) s = tableStep s 0x16 0 i k v := by
  refine if_neg ?_
  rw [Bool.not_eq_true, bit, BitVec.getLsbD, Nat.testBit_zero, decide_eq_false_iff_not]
  simp only [bits] at low
  omega

/-- A record written after an entry was selected; the word that selects is a variable here too. -/
theorem record_written (w : Word) (q : LRec) :
    Quiet s (committed s (setRec (selecting s w) i k q)) ∧ recOf (committed s (setRec (selecting s w) i k q)) i k = q :=
  ⟨quiet_committed rfl, recOf_setRec_same ..⟩

/-- A build that is taken: the record has what R386 reads from its image. -/
theorem recordBuild_taken (hi : i < 256) (hk : k < 1024) (high : bits v 63 56 = 0) (low : bits v 7 0 = 0)
    (still : (recOf s i k).state ≠ .running)
    (sound : imageOk ((upto 32).map fun j => rdNat s (bits v 55 8 * 2 ^ 8 + 8 * j) 8) = true ∧ bits v 55 8 * 2 ^ 8 + 256 ≤ Config.dramEnd) :
    ∃ t, exec (.recordBuild i k v) s = .next t ∧ Quiet s t ∧ recOf t i k
      = builtRecord (fun j => rdNat s (bits v 55 8 * 2 ^ 8 + 8 * j) 8) (ifaceOf s i).quantum (bits v 55 8 * 2 ^ 8 / 2 ^ 8) := by
  have taken (w : Word) := (tableWrite_build (selecting s w) hi hk high low).trans (buildRecord_sound (selecting s w)
    (by rwa [recOf_selecting]) (by simpa only [rdNat_selecting] using sound))
  simp only [rdNat_selecting, ifaceOf_selecting] at taken
  exact ⟨_, (exec_recordBuild s low).trans (tableStep_taken (taken _)), record_written s _ _⟩

theorem recordBuild_refused (hi : i < 256) (hk : k < 1024) (high : bits v 63 56 = 0) (low : bits v 7 0 = 0)
    (no : (recOf s i k).state = .running ∨ ¬(imageOk ((upto 32).map fun j => rdNat s (bits v 55 8 * 2 ^ 8 + 8 * j) 8) = true
      ∧ bits v 55 8 * 2 ^ 8 + 256 ≤ Config.dramEnd)) :
    exec (.recordBuild i k v) s = commit s (setWref (selecting s (selectWord 0x16 0 i k)) 0) := by
  have refused (w : Word) := (tableWrite_build (selecting s w) hi hk high low).trans (buildRecord_refused (selecting s w)
    (by simpa only [recOf_selecting, rdNat_selecting] using no))
  exact (exec_recordBuild s low).trans (tableStep_refused (refused _))

/-- A free's value is 1. -/
theorem tableWrite_free (hi : i < 256) (hk : k < 1024) : tableWrite s 0x16 0 i k 1
    = if (recOf s i k).state = .running then none else some (setRec s i k { recOf s i k with state := .unbuilt }) := by
  rw [tableWrite_record s hi hk (by decide), writeRecord, if_pos (by decide)]

theorem recordFree_taken (hi : i < 256) (hk : k < 1024) (still : (recOf s i k).state ≠ .running) :
    ∃ t, exec (.recordFree i k) s = .next t ∧ Quiet s t ∧ recOf t i k = { recOf s i k with state := .unbuilt } := by
  have taken (w : Word) := (tableWrite_free (selecting s w) hi hk).trans (if_neg (by rwa [recOf_selecting]))
  simp only [recOf_selecting] at taken
  exact ⟨_, tableStep_taken (taken _), record_written s _ _⟩

theorem recordFree_refused (hi : i < 256) (hk : k < 1024) (running : (recOf s i k).state = .running) :
    exec (.recordFree i k) s = commit s (setWref (selecting s (selectWord 0x16 0 i k)) 0) := by
  have refused (w : Word) := (tableWrite_free (selecting s w) hi hk).trans (if_pos (by rwa [recOf_selecting]))
  exact tableStep_refused (refused _)

end

/-- Settles O50: each write is taken or refused as `assignBank`, `assignCore` and the record's row say. -/
theorem bankAndRecordTables : Obligations.BankAndRecordTables := by
  refine ⟨fun s core v => ?banks, fun s i k v hi hk => ?records⟩
  case banks =>
    intro b o x sel wrote
    have same : NMap.get (coreOf sel core).banks b {} = x := by rw [show sel = bankSelected s core b from rfl, bankSelected_banks]
    refine ⟨gateWrite_spec s core v, rfl, fun readonly => congrArg (commit s) (if_pos readonly), ?given, ?unclean, ?back, ?live,
      fun no => ctdatWrite_refused no, fun logical empty _ free => ctdatWrite_moves logical empty free⟩
    case given => exact fun writes valid other clean room carried => bankmapWrite_given rfl writes valid other clean room carried
    case unclean =>
      exact fun writes valid unclean free => bankmapWrite_refused writes (valid ▸ assignBank_unclean same unclean free)
    case back => exact fun writes invalid held idle own => bankmapWrite_back rfl writes invalid held idle own
    case live => exact fun writes invalid held live => bankmapWrite_refused writes (invalid ▸ assignBank_live same held live)
  case records =>
    intro at_ g r refuses sound
    refine ⟨fun high low still ok => ?built, fun high low no => recordBuild_refused s hi hk high low no,
      fun still => recordFree_taken s hi hk still, fun running => recordFree_refused s hi hk running⟩
    case built =>
      obtain ⟨t, step, quiet, made⟩ := recordBuild_taken s hi hk high low still ok
      exact ⟨t, _, step, quiet, made, rfl, rfl, rfl, rfl, rfl, rfl, rfl, rfl, rfl, rfl, rfl, rfl, rfl⟩

end Sys2Proof.Machine
end

section
/-! SUPPORT. A page walk whose next table entry stands where an L1 holds a copy with a write in two entries of its queue (R251, R374). -/

namespace Sys2Proof.Machine

open Sys2Proof

/-- The walk of a read of address 0 by a frame of core 1, at ring 0. -/
def rootWalk : Walk := { id := 15, ring := 0, owner := 0, va := 0, acc := 0, core := 1, frame := 0, act := 0, pc := 0 }

/-- `twiceQueued` with owner 0's shadow table where the stamp was, and with that walk. -/
def walkOverHeld : State :=
  { twiceQueued with owners := [(0, { live := true, root := 0x10000 })], walks := [rootWalk] }

/-- Reading the entry recalls the copy, and with it write 10 settles by both of its entries. -/
theorem pageWalk_walkOverHeld :
    ∃ t, exec (.pageWalk 0) walkOverHeld = .next t ∧ byteAt t (bankLoc 0 0) ≠ byteAt walkOverHeld (bankLoc 0 0) :=
  ⟨_, rfl, by decide +kernel⟩

/-- Refutes O47: a walk that reads its next table entry is to change no byte but the dirty ones. In `walkOverHeld` the copy that the
read recalls holds a write that stands in two entries, and the byte that the second one brings is no dirty one. -/
theorem not_releasesAndWalks : ¬Obligations.ReleasesAndWalks := by
  intro holds
  obtain ⟨-, walks, -⟩ := holds walkOverHeld
  obtain ⟨-, reads⟩ := walks 0 rootWalk rfl
  obtain ⟨t, step, quiet, -⟩ := reads (by decide +kernel) (by decide +kernel)
  obtain ⟨u, ran, changes⟩ := pageWalk_walkOverHeld
  have clean := HoldsTwice.not_dirtyByte (s := walkOverHeld) ⟨rfl, rfl, rfl⟩ (by decide)
  exact not_keeps_byte step (quiet rfl _ clean) ran changes

end Sys2Proof.Machine
end

section
/-! SUPPORT. How an instruction that acts on more than registers completes, waits or parks, and loads: what a read that enters the
machine is, and how the instruction goes on (R84, R127, R135, R161, R162). -/

namespace Sys2Proof.Machine

open Sys2Proof

/-! ### Instructions that complete, wait or park (R127, R135) -/

section
variable {s u t : State} {i : Instr} {g : Frame → Frame} {ds : List Reg} {pc : Word}

theorem Moves.wbuf (h : Moves u t g ds pc) : t.wbuf = u.wbuf := (congrArg State.wbuf h.rest :)

theorem Moves.clk (h : Moves u t g ds pc) : t.clk = u.clk := (congrArg State.clk h.rest :)

/-- A move stays one when the step's writes are made. -/
theorem Moves.committed (h : Moves u t g ds pc) : Moves (committed s u) (committed s t) g ds pc :=
  { h with
    rest := congrArg (Machine.committed s) h.rest
    bytes := fun a => by simp only [byteAt, Machine.committed, h.wbuf] }

theorem Retires.committed (h : Retires u t g ds pc) : Retires (committed s u) (committed s t) g ds pc :=
  ⟨h.moves.committed, h.qret⟩

/-- Where the effects write no byte, memory stays as it was before the step. -/
theorem Moves.keeps_bytes (h : Moves u t g ds pc) (quiet : u.wbuf = s.wbuf) (st : Nat → Prop) :
    Inv s → ∀ a, ¬st a → byteAt (Machine.committed s t) a = byteAt s a :=
  fun inv a _ => quiet_committed (h.wbuf.trans quiet) inv.wbuf a

/-- An instruction that writes no byte completes where its meaning retires after its effects. -/
theorem completes_of_retires {P : State → Prop} {st : Nat → Prop} (runs : exec i s = commit s t) (h : Retires u t g ds (curPc s + 4))
    (quiet : u.wbuf = s.wbuf) (holds : P (committed s t)) : Completes i s u g ds st P :=
  ⟨committed s t, runs, h.committed, h.moves.keeps_bytes quiet st, holds⟩

/-- It waits where its meaning moves the PC on after its effects and parks the frame. -/
theorem completesWaiting_of_moves {cs : List Cond} {st : Nat → Prop} (runs : exec i s = commit s t)
    (h : Moves u t (waiting cs s.clk) [] (curPc s + 4)) (quiet : u.wbuf = s.wbuf) : CompletesWaiting i s u cs st fun _ => True :=
  ⟨committed s t, runs, h.committed, h.keeps_bytes quiet st, trivial⟩

theorem parks_of_park {cs : List Cond} (runs : exec i s = commit s (park s cs)) : Parks i s cs :=
  ⟨committed s (park s cs), runs, (moves_setCur s (fun f => { f with st := .parked cs, since := s.clk }) rfl rfl).committed⟩

/-- The wait over, the instruction retires. -/
theorem retires_clearWait_retire4 (s : State) : Retires s (retire4 (clearWait s)) ready [] (curPc s + 4) :=
  (moves_setCur s ready rfl rfl).retire4 (fun _ => rfl) (fun _ => rfl) rfl

/-- The state after the PC has moved on and the issuing frame has parked on conditions. -/
def parkedAfter (s : State) (cs : List Cond) : State :=
  let z := setPc s (curPc s + 4)
  setCur z (waiting cs z.clk (curFrame z))

theorem parkAnswer_eq (s : State) (id : Nat) : parkAnswer s id = parkedAfter s [.answer id] := rfl

theorem moves_parkedAfter (s : State) (cs : List Cond) : Moves s (parkedAfter s cs) (waiting cs s.clk) [] (curPc s + 4) := by
  have pc := moves_setPc s (curPc s + 4)
  have both := pc.trans (moves_setCur (setPc s (curPc s + 4)) (waiting cs (setPc s (curPc s + 4)).clk) rfl rfl) fun x y h =>
    congrArg (waiting cs (setPc s (curPc s + 4)).clk) h
  rw [pc.pc] at both
  exact pc.clk ▸ both

end

/-! ### Owed results, and the points of a way (R133, R211) -/

theorem curPc_owe (s : State) (d : Reg) (id : Nat) (v : Option Word) : curPc (owe s d id v) = curPc s :=
  (moves_setCur s (owing (inHandler s) d id v) rfl rfl).pc

theorem curFrame_owe (s : State) (d : Reg) (id : Nat) (v : Option Word) :
    curFrame (owe s d id v) = owing (inHandler s) d id v (curFrame s) := curFrame_setCur ..

theorem requestAt_points (s : State) (owner id : Nat) (at_ : Option Place) (l : List (Nat × Nat)) :
    ∃ ps, requestAt s owner id at_ l = { s with points := ps } := by
  cases l with
  | nil => exact ⟨_, rfl⟩
  | cons => exact ⟨_, rfl⟩

theorem requestAccess_points (s : State) (core owner id : Nat) (t : Tgt) (treat : Nat) (share : Option Nat) (write atomic : Bool) :
    ∃ ps, requestAccess s core owner id t treat share write atomic = { s with points := ps } := requestAt_points ..

/-! ### Loads (R82, R84, R161, R162) -/

/-- What a read is of: its number, place, length, extension, mode, address and PC, and who is owed it. -/
structure ReadIs (s : State) (w : Where) (n : Nat) (sx : Bool) (mode : Nat) (va : Word) (r : Read) : Prop where
  id    : r.id = s.nextId
  tgt   : r.tgt = whereTgt w
  len   : r.len = n
  sx    : r.sx = sx
  mode  : r.mode = mode
  va    : r.va = va
  pc    : r.pc = curPc s
  owed  : r.owed = s.nextId
  ctx   : r.ctx = curCtx s
  frame : r.frame = s.cur.2

section
variable (s : State) (w : Where) (n : Nat) (sx : Bool) (mode : Nat) (d : Reg) (va : Word)

/-- One read joins the machine, owed to d; but for the points it asks at, nothing else changes. -/
theorem issueRead_eq : ∃ r ps, ReadIs s w n sx mode va r ∧ issueRead s w n sx mode d va
    = { owe { s with nextId := s.nextId + 1, reads := s.reads ++ [r] } d s.nextId none with points := ps } := by
  unfold issueRead
  extract_lets k t tr id after inval held miss r u
  refine ⟨r, ?_⟩
  have is : ReadIs s w n sx mode va r := ⟨rfl, rfl, rfl, rfl, rfl, rfl, rfl, rfl, rfl, rfl⟩
  split
  · exact ⟨_, is, rfl⟩
  · obtain ⟨ps, asks⟩ := requestAccess_points u u.cur.1 (curOwner u) id t tr (whereShare w) false false
    exact ⟨ps, is, asks⟩

theorem issueRead_keeps : (issueRead s w n sx mode d va).wbuf = s.wbuf ∧ (issueRead s w n sx mode d va).clk = s.clk
    ∧ (issueRead s w n sx mode d va).nextId = s.nextId + 1 ∧ curPc (issueRead s w n sx mode d va) = curPc s := by
  obtain ⟨r, ps, -, e⟩ := issueRead_eq s w n sx mode d va
  rw [e]
  exact ⟨rfl, rfl, rfl, curPc_owe { s with nextId := s.nextId + 1, reads := s.reads ++ [r] } d s.nextId none⟩

end

/-! ### Decoded addresses (R72, R152) -/

section
variable {s : State} {i : Instr} {va : Word} {acc : Nat} {k : Where → State} {ok : Nat → Xlat → Bool}

/-- An address that is reached goes on at its place. -/
theorem withWhere_reached {w : Where} (decoded : whereCur s va acc ok = w) (h : reached w) : withWhere s va acc k ok = k w := by
  unfold withWhere
  rw [decoded]
  obtain ⟨pa, x, rfl⟩ | ⟨c, o, rfl⟩ := h <;> rfl

/-- An access that is decoded once it is aligned: misaligned it is ALIGN, an address that is not reached faults or walks, and any
other goes on at its place. -/
theorem access_outcomes {n : Nat}
    (runs : exec i s = commit s (if va.toNat % n ≠ 0 then alignTrap s va else withWhere s va acc k)) :
    (va.toNat % n ≠ 0 → Traps i s 0x03 0 va) ∧ (va.toNat % n = 0 → Unreached i s va acc)
      ∧ (va.toNat % n = 0 → ∀ w, whereCur s va acc = w → reached w → exec i s = commit s (k w)) := by
  refine ⟨fun misaligned => ?_, fun aligned => ?_, fun aligned w decoded at_ => ?_⟩
  · rwa [if_pos misaligned] at runs
  · rw [if_neg (not_not_intro aligned)] at runs
    refine ⟨fun c fault => ?_, fun miss => ?_⟩
    · rw [runs, withWhere, fault]
    · rw [runs, withWhere, miss]
  · rw [runs, if_neg (not_not_intro aligned), withWhere_reached decoded at_]

end

/-! ### The end of a load (R84, R127) -/

/-- A load completes at issue but for its value; an acquire waits for its reads. -/
theorem load_completes {i : Instr} {s u : State} {o : LdOrd} {ids : List Nat} (runs : exec i s = commit s (afterLoad u o ids))
    (quiet : u.wbuf = s.wbuf) (clk : u.clk = s.clk) (pc : curPc u = curPc s) :
    (o ≠ .acq → Completes i s u ready [] noByte fun _ => True)
    ∧ (o = .acq → CompletesWaiting i s u [.settled [] ids] noByte fun _ => True) := by
  unfold afterLoad at runs
  constructor
  · intro other
    rw [if_neg other] at runs
    exact completes_of_retires runs (pc ▸ retires_clearWait_retire4 u) quiet trivial
  · intro acquire
    rw [if_pos acquire] at runs
    exact completesWaiting_of_moves (t := parkedAfter u [.settled [] ids]) runs (pc ▸ clk ▸ moves_parkedAfter u _) quiet

/-- The two reads that come last are noted as halves of one `ld.q`. -/
theorem pairReads_last {t : State} {l : List Read} {r q : Read} {m n : Nat} (reads : t.reads = l ++ [r, q]) (lower : r.id = m)
    (upper : q.id = n) (old : ∀ x ∈ l, x.id < m) (later : m < n) :
    (pairReads t m n).reads = l ++ [{ r with pair := n }, { q with pair := m }] := by
  have kept : ∀ x ∈ l, (if x.id = m then { x with pair := n } else if x.id = n then { x with pair := m } else x) = x :=
    fun x hx => by rw [if_neg (old x hx).ne, if_neg ((old x hx).trans later).ne]
  unfold pairReads
  simp only [reads, List.map_append, List.map_cons, List.map_nil, List.map_congr_left kept, List.map_id', lower, upper, if_pos,
    if_neg later.ne']

/-- Settles O12: a load of one register and each half of `ld.q` issue by one equation, and one lemma says how a load ends. -/
theorem loadsAndPairs : Obligations.LoadsAndPairs := by
  unfold Obligations.LoadsAndPairs
  constructor
  case left =>
    intro s d a o i n sx ld is va mode
    have ordered : ldMode o = mode := by cases o <;> rfl
    have runs : exec ld s = commit s (if va.toNat % n ≠ 0 then alignTrap s va else withWhere s va 0 fun w =>
        afterLoad (issueRead s w n sx (ldMode o) d va) o [s.nextId]) := by
      rcases is with h | h | h | h | h | h | h <;> cases h <;> rfl
    rw [ordered] at runs
    obtain ⟨misaligned, unreached, goes⟩ := access_outcomes runs
    refine ⟨misaligned, unreached, ?_⟩
    intro aligned w decoded at_ u
    obtain ⟨quiet, clk, -, pc⟩ := issueRead_keeps s w n sx mode d va
    refine ⟨?read, ?owed, load_completes (goes aligned w decoded at_) quiet clk pc⟩
    all_goals obtain ⟨r, ps, is, issued⟩ := issueRead_eq s w n sx mode d va
    case read =>
      exact ⟨r, congrArg State.reads issued, is.id, is.tgt, is.len, is.sx, is.mode, is.va, is.pc, is.owed, is.ctx, is.frame⟩
    case owed =>
      calc (curFrame (issueRead s w n sx mode d va)).owed
        _ = (curFrame (owe { s with nextId := s.nextId + 1, reads := s.reads ++ [r] } d s.nextId none)).owed := by rw [issued]; rfl
        _ = _ := by rw [curFrame_owe]; rfl
  case right =>
    intro s d a o i va mode
    have runs : exec (.ldQ d a o i) s = commit s (if va.toNat % 16 ≠ 0 then alignTrap s va else withWhere s va 0 fun w =>
        afterLoad (pairReads (issueRead (issueRead s w 8 false (ldMode o) d va) (whereAdd w 8) 8 false (ldMode o) (d + 1) (va + 8))
          s.nextId (issueRead s w 8 false (ldMode o) d va).nextId) o [s.nextId, (issueRead s w 8 false (ldMode o) d va).nextId]) := rfl
    have ordered : ldMode o = mode := by cases o <;> rfl
    rw [ordered] at runs
    obtain ⟨misaligned, unreached, goes⟩ := access_outcomes runs
    refine ⟨misaligned, unreached, ?_⟩
    intro aligned w decoded at_ u1 u
    obtain ⟨quiet1, clk1, next1, pc1⟩ := issueRead_keeps s w 8 false mode d va
    obtain ⟨quiet2, clk2, next2, pc2⟩ := issueRead_keeps u1 (whereAdd w 8) 8 false mode (d + 1) (va + 8)
    refine ⟨fun old => ?reads, load_completes (goes aligned w decoded at_) (quiet2.trans quiet1) (clk2.trans clk1) (pc2.trans pc1)⟩
    obtain ⟨r, ps, lower, issued1⟩ := issueRead_eq s w 8 false mode d va
    obtain ⟨q, qs, upper, issued2⟩ := issueRead_eq u1 (whereAdd w 8) 8 false mode (d + 1) (va + 8)
    have reads : (issueRead u1 (whereAdd w 8) 8 false mode (d + 1) (va + 8)).reads = s.reads ++ [r, q] := by
      rw [issued2, show u1.reads = s.reads ++ [r] from congrArg State.reads issued1, List.append_assoc]
      rfl
    have paired := pairReads_last reads lower.id upper.id old (next1 ▸ Nat.lt_succ_self _)
    exact ⟨_, _, paired, upper.id.symm, lower.id.symm, lower.len, upper.len, lower.va, upper.va, lower.tgt, upper.tgt, lower.id, upper.id,
      lower.owed.trans lower.id.symm, upper.owed.trans upper.id.symm⟩

end Sys2Proof.Machine
end

section
/-! SUPPORT. Messages that enter the store queue, and how `wopen` and `nsend` go on (R91, R172, R173). -/

namespace Sys2Proof.Machine

open Sys2Proof

/-! ### Room in a segment, and messages (R76, R91, R202) -/

section
variable (s : State)

theorem needSegment_room {n : Nat} (k : State → State) (room : n ≤ segmentRoom s (curCtx s) (curBank s)) : needSegment s n k = k s :=
  if_neg (Nat.not_lt.2 room)

theorem needSegment_full {n : Nat} (k : State → State) (full : segmentRoom s (curCtx s) (curBank s) < n) :
    needSegment s n k = park s [.segment (curBank s)] := if_pos full

/-- A message of a kind that no quantum holds enters the queue of its context. -/
theorem post_eq_pushEntry {b : Body} (h : heldKind b = false) (core owner : Nat) :
    post s core owner b = pushEntry s (curCtx s) (msgEntry s core owner b) := by
  unfold post
  split
  · rw [h, Bool.false_and, Bool.false_and, if_neg Bool.false_ne_true]
  · rfl

theorem curOwner_owe (d : Reg) (id : Nat) (v : Option Word) : curOwner (owe s d id v) = curOwner s := by
  rw [curOwner, curOwner, curFrame_owe, owe, inHandler_setCur]
  rfl

end

/-! ### `wopen` (R172) -/

section
variable {s : State} {d a b : Reg} {x y : Word}

/-- The operands of `wopen` are in range. -/
def opensInRange (x y : Word) : Prop :=
  bits x 12 0 < 6144 ∧ bits x 31 16 ≤ 1024 ∧ bits x 15 13 = 0 ∧ x.toNat < 2 ^ 32 ∧ y.toNat < 2 ^ 19

theorem opensInRange_iff : opensInRange x y ↔
    ¬(6144 ≤ bits x 12 0 ∨ 1024 < bits x 31 16 ∨ bits x 15 13 ≠ 0 ∨ 2 ^ 32 ≤ x.toNat ∨ 2 ^ 19 ≤ y.toNat) := by
  simp only [opensInRange, not_or, not_le, not_lt, ne_eq, not_not]

/-- The open message is posted, and its reply owed to d. -/
def openPosted (s : State) (d : Reg) (x y : Word) : State :=
  post (owe { s with nextId := s.nextId + 1 } d s.nextId none) (bits x 12 0) (curOwner s)
    (.wopen y.toNat (bits x 31 16) s.cur.2 (curFrame s).act s.nextId)

theorem openPosted_keeps (s : State) (d : Reg) (x y : Word) : (openPosted s d x y).wbuf = s.wbuf ∧ (openPosted s d x y).clk = s.clk
    ∧ curPc (openPosted s d x y) = curPc s := by
  rw [openPosted, post_eq_pushEntry _ rfl]
  exact ⟨rfl, rfl, curPc_owe { s with nextId := s.nextId + 1 } d s.nextId none⟩

theorem exec_wopen_out_of_range (h : ¬opensInRange (rd s a) (rd s b)) : exec (.wopen d a b) s = commit s (illOperand s) :=
  congrArg (commit s) (if_pos (not_not.1 (h ∘ opensInRange_iff.2)))

theorem exec_wopen_none_closed (h : opensInRange (rd s a) (rd s b)) (opened : closedWindows (curFrame s) = []) :
    exec (.wopen d a b) s = commit s (finish s d allOnes) := by
  refine congrArg (commit s) ((if_neg (opensInRange_iff.1 h)).trans ?_)
  rw [opened]

/-- It would open the lowest closed window. -/
theorem exec_wopen_lowest {v : Nat} (h : opensInRange (rd s a) (rd s b)) (lowest : (closedWindows (curFrame s)).head? = some v) :
    exec (.wopen d a b) s = commit s (if windowHeld s (curCtx s) s.cur.2 v then park s [.window v]
      else needSegment s 1 fun z => parkAnswer (openPosted z d (rd s a) (rd s b)) z.nextId) := by
  obtain ⟨l, closed⟩ := List.head?_eq_some_iff.1 lowest
  refine congrArg (commit s) ((if_neg (opensInRange_iff.1 h)).trans ?_)
  have posts (z : State) : openPosted z d (rd s a) (rd s b) = (let u := owe { z with nextId := z.nextId + 1 } d z.nextId none
      post u (bits (rd s a) 12 0) (curOwner u) (.wopen (rd s b).toNat (bits (rd s a) 31 16) u.cur.2 (curFrame u).act z.nextId)) := by
    simp only [openPosted, curOwner_owe, curFrame_owe]
    rfl
  simp only [closed, posts]

end

/-! ### `nsend` (R173) -/

section
variable {s : State} {d a b : Reg} {x : Word}

/-- The window and length of `nsend` are in range. -/
def sendsInRange (x : Word) : Prop := bits x 15 2 = 0 ∧ x.toNat < 2 ^ 23 ∧ bits x 22 16 ≠ 0 ∧ bits x 22 16 ≤ 64

theorem sendsInRange_iff : sendsInRange x ↔ ¬(bits x 15 2 ≠ 0 ∨ 2 ^ 23 ≤ x.toNat ∨ bits x 22 16 = 0 ∨ 64 < bits x 22 16) := by
  simp only [sendsInRange, not_or, not_le, not_lt, ne_eq, not_not]

theorem exec_nsend_out_of_range (h : ¬sendsInRange (rd s a)) : exec (.nsend d a b) s = commit s (illOperand s) :=
  congrArg (commit s) (if_pos (not_not.1 (h ∘ sendsInRange_iff.2)))

theorem exec_nsend_closed (h : sendsInRange (rd s a)) (closed : NMap.find (curFrame s).windows (bits (rd s a) 1 0) = none) :
    exec (.nsend d a b) s = commit s (illOperand s) := by
  refine congrArg (commit s) ((if_neg (sendsInRange_iff.1 h)).trans ?_)
  rw [closed]

/-- The slot is posted: the frame's own view of the payload, padded with zeros. -/
def slotPosted (s : State) (z : Window) (off len : Nat) : State :=
  post s z.core (curOwner s) (.slot z.hdr (ownView s off len ++ List.replicate (64 - len) 0) len (curFrame s).lin [])

/-- SENT of an open window. -/
def withSent (w : Nat) (z : Window) (sent : Nat) (f : Frame) : Frame := { f with windows := NMap.put f.windows w { z with sent := sent } }

/-- The checks on the way of a slot through an open window, in their order. -/
theorem exec_nsend_open {y : Word} {w len : Nat} {z : Window} (hx : rd s a = x) (hy : rd s b = y) (hw : bits x 1 0 = w)
    (hlen : bits x 22 16 = len) (h : sendsInRange x) (opened : NMap.find (curFrame s).windows w = some z) :
    exec (.nsend d a b) s = commit s
      (if localSize s s.cur.1 (curOwner s) < y.toNat + len then protTrap s y
      else if windowHeld s (curCtx s) s.cur.2 w then park s [.window w]
      else if z.win ≤ diff32 z.sent z.ack then park s [.credit w]
      else if ownPoisoned s y.toNat len then trap s 0x08 0 y
      else needSegment s 1 fun t => let u := slotPosted t z y.toNat len
        finish (setCur u (withSent w z ((z.sent + 1) % 2 ^ 32) (curFrame u))) d (word ((z.sent + 1) % 2 ^ 32))) := by
  subst hx hy hw hlen
  refine congrArg (commit s) ((if_neg (sendsInRange_iff.1 h)).trans ?_)
  rw [opened]
  rfl

/-- The slot enters the store queue, SENT rises, and no byte changes. -/
theorem completes_send {i : Instr} {z : Window} {off len w sent : Nat} (runs : exec i s = commit s
      (finish (setCur (slotPosted s z off len) (withSent w z sent (curFrame (slotPosted s z off len)))) d (word sent))) :
    Completes i s (slotPosted s z off len) (withSent w z sent) [d] noByte (Gives d (word sent)) := by
  have enters : slotPosted s z off len = pushEntry s (curCtx s) (msgEntry s z.core (curOwner s)
      (.slot z.hdr (ownView s off len ++ List.replicate (64 - len) 0) len (curFrame s).lin [])) := post_eq_pushEntry s rfl ..
  have pc : curPc (slotPosted s z off len) = curPc s := by rw [enters]; rfl
  have quiet : (slotPosted s z off len).wbuf = s.wbuf := by rw [enters]; rfl
  have retires := (moves_setCur (slotPosted s z off len) (withSent w z sent) rfl rfl).finish (fun _ => rfl) (fun _ => rfl) rfl d (word sent)
  exact completes_of_retires runs (pc ▸ retires) quiet (rd_finish _ d _)

end

/-- Settles O18: the two instructions' checks in their order; what is posted enters the store queue, and changes no byte. -/
theorem windowsAndSlots : Obligations.WindowsAndSlots := by
  unfold Obligations.WindowsAndSlots
  intro s d a b x y k ill okOpen w len okSend
  refine ⟨exec_wopen_out_of_range, fun ok opened => ?allOpen, fun v ok lowest held => ?held, fun v ok lowest free room => ?posts,
    fun v ok lowest free full => ?full, exec_nsend_out_of_range, exec_nsend_closed, ?sends⟩
  case allOpen => exact completes_of_retires (exec_wopen_none_closed ok opened) (retires_finish s d allOnes) rfl (rd_finish s d allOnes)
  case held =>
    have runs := exec_wopen_lowest (d := d) ok lowest
    rw [if_pos held] at runs
    exact parks_of_park runs
  case posts =>
    have runs := exec_wopen_lowest (d := d) ok lowest
    rw [if_neg (free ▸ Bool.false_ne_true), needSegment_room s _ room, parkAnswer_eq] at runs
    obtain ⟨quiet, clk, pc⟩ := openPosted_keeps s d x y
    exact completesWaiting_of_moves (u := openPosted s d x y) runs (pc ▸ clk ▸ moves_parkedAfter (openPosted s d x y) _) quiet
  case full =>
    have runs := exec_wopen_lowest (d := d) ok lowest
    rw [if_neg (free ▸ Bool.false_ne_true), needSegment_full s _ full] at runs
    exact parks_of_park runs
  case sends =>
    intro z ok opened fits credit sent
    have runs := exec_nsend_open (d := d) (y := y) (len := len) rfl rfl rfl rfl ok opened
    refine ⟨fun beyond => ?beyond, fun within held => ?taken, fun within free spent => ?spent,
      fun within free left sound room => ?slot⟩
    case beyond => rwa [if_pos (Nat.not_le.1 beyond)] at runs
    all_goals rw [if_neg (Nat.not_lt.2 within)] at runs
    case taken =>
      rw [if_pos held] at runs
      exact parks_of_park runs
    all_goals rw [if_neg (free ▸ Bool.false_ne_true)] at runs
    case spent =>
      have exhausted : z.win ≤ diff32 z.sent z.ack := Nat.not_lt.1 spent
      rw [if_pos exhausted] at runs
      exact parks_of_park runs
    case slot =>
      have credited : ¬z.win ≤ diff32 z.sent z.ack := Nat.not_le.2 left
      rw [if_neg credited, if_neg (sound ▸ Bool.false_ne_true), needSegment_room s _ room] at runs
      exact completes_send runs

end Sys2Proof.Machine
end

section
/-! SUPPORT. A live header that lies across two banks of its core, whose fields are not in one run of locations (R153, R166), and memory
out of its canonical form, where a byte of 0 is not written (R73). -/

namespace Sys2Proof.Machine

open Sys2Proof

/-! ### A header across two banks (R153, R166) -/

/-- A live header of 2 slots at the base of the local memory, with a consumer. -/
def boundHeader : Header :=
  { base := 0, log2n := 1, hoff := 0, hv := false, pcore := 0, pframe := 0, pwin := 0, pv := false, win := 2, head := 0, tail := 0,
    cb := true, pb := false, sparse := false, eaten := [], tags := [] }

/-- A slot of 64 bytes that core 1 sends to the header. -/
def slotMessage : Msg :=
  { id := 5, ctx := ctxKey 1 0, frame := 0, act := 0, core := 0, owner := 0, tag := [],
    body := .slot 0xBFF0 (List.replicate 64 7) 64 { early := false, launch := none } [] }

/-- Core 0 with banks 0 and 1: the live header begins 16 bytes before the end of bank 0, so that HEAD and what follows it lie in bank 1.
Handle 0 of the issuing frame is its consumer, and a slot for it has come. -/
def headerAcross : State :=
  { State.reset with
    cores  := [(0, { banks  := [(0, { valid := true, clean := false }), (1, { valid := true, clean := false })]
                     frames := [(0, { st := .active, handles := [(0, { hdr := 0xBFF0, producer := false, cursor := 0 })] })] })]
    ctxs   := [(0, { headers := [(0xBFF0, boundHeader)] })]
    mem    := [(bankLoc 0 1 + 8, 1)]
    net    := [slotMessage]
    nextId := 20 }

theorem inv_headerAcross : Inv headerAcross := ⟨by decide, rfl⟩

/-- The 24 bytes counted from the first location of the header's words 1 to 3 do not reach bank 1. -/
theorem not_headerByte_headerAcross {a : Nat} (h : bankLoc 0 1 ≤ a) : ¬headerByte headerAcross 0 0xBFF0 a := by
  rintro ⟨l, at_, -, below⟩
  have first : l = bankLoc 0 0 + 0xBFF8 := Option.some.inj (at_.symm.trans (by decide +kernel))
  simp only [bankLoc] at h first
  omega

/-- `hrel` clears CB, which lies in bank 1. -/
theorem hrel_headerAcross :
    ∃ t, exec (.hrel 0) headerAcross = .next t ∧ byteAt t (bankLoc 0 1 + 8) ≠ byteAt headerAcross (bankLoc 0 1 + 8) :=
  ⟨_, rfl, by decide +kernel⟩

/-- Refutes O17: a handle instruction is to change no byte but the 24 counted from the first location of a header's words 1 to 3. The
header of `headerAcross` is not aligned and lies across two banks: `hrel` writes CB in the second one. -/
theorem not_handles : ¬Obligations.Handles := by
  intro holds
  obtain ⟨-, -, -, -, -, t, step, -, bytes, -⟩ := holds headerAcross 0 0 0 (by decide +kernel)
  obtain ⟨u, ran, changes⟩ := hrel_headerAcross
  refine not_keeps_byte step (bytes inv_headerAcross _ ?_) ran changes
  rintro ⟨y, bound, header⟩
  obtain rfl : _ = y := Option.some.inj bound
  exact not_headerByte_headerAcross (Nat.le_add_right ..) header

/-- The slot that arrives moves HEAD, which lies in bank 1. -/
theorem slotArrival_headerAcross :
    ∃ t, exec (.slotArrival 0) headerAcross = .next t ∧ byteAt t (bankLoc 0 1) ≠ byteAt headerAcross (bankLoc 0 1) :=
  ⟨_, rfl, by decide +kernel⟩

/-- Refutes O30: a slot is to change no byte but its own and the 24 counted from the first location of the header's words 1 to 3. The
header of `headerAcross` lies across two banks, and HEAD moves in the second one. -/
theorem not_bufferArrivals : ¬Obligations.BufferArrivals := by
  intro holds
  obtain ⟨-, -, slot, -⟩ := holds headerAcross 0 slotMessage inv_headerAcross ⟨rfl, by decide +kernel⟩
  obtain ⟨t, -, step, -, -, -, -, -, keeps⟩ :=
    slot _ _ _ _ _ boundHeader (bankLoc 0 0) rfl (by decide +kernel) (by decide +kernel) rfl (by decide +kernel) rfl
  obtain ⟨u, ran, changes⟩ := slotArrival_headerAcross
  exact not_keeps_byte step (keeps _ (.inr (by decide)) (not_headerByte_headerAcross le_rfl)) ran changes

/-! ### Memory out of its canonical form (R73) -/

/-- Listed bytes that do not rise: HV of the header at offset 0 is set in the second one. The issuing frame holds all ones in g2. -/
def fallingMemory : State :=
  { State.reset with
    cores  := [(0, { banks  := [(0, { valid := true, clean := false })]
                     frames := [(0, { st := .active, regs := (Vector.replicate 32 0).set 2 allOnes })] })]
    mem    := [(bankLoc 0 0 + 64, 1), (bankLoc 0 0 + 6, 2)]
    nextId := 20 }

/-- Clearing HV writes a byte of 0. At the first listed address above its own that byte counts as unlisted, so that the one listed
after it stays. -/
theorem mhdl_fallingMemory : ∃ t, exec (.mhdl 1 0 2) fallingMemory = .next t ∧ (byteAt t (bankLoc 0 0 + 6)).getLsbD 1 = true :=
  ⟨_, rfl, by decide +kernel⟩

/-- Refutes O19: `mhdl` with all ones is to leave HV 0 in memory, whatever the state, while only its frame supposes the invariant. In
`fallingMemory`, which breaks it, the byte that holds HV keeps its value. -/
theorem not_arrivalHandlers : ¬Obligations.ArrivalHandlers := by
  intro holds
  obtain ⟨clears, -⟩ := holds fallingMemory 1 0 2 false _ (.inl ⟨rfl, rfl⟩)
  obtain ⟨t, step, -, -, -, -, cleared⟩ := clears (by decide +kernel)
  obtain ⟨u, ran, kept⟩ := mhdl_fallingMemory
  have same : t = u := Host.Outcome.next.inj (step.symm.trans ran)
  subst same
  have low := cleared (bankLoc 0 0 + 4) (by decide +kernel) (by decide +kernel)
  exact absurd (kept.symm.trans low) (by decide)

end Sys2Proof.Machine
end

section
/-! SUPPORT. Starts and counts that an instruction posts: what posting a message does, the checks that come before it, and how the
instructions of R175, R186, R189 and R200 go on. -/

namespace Sys2Proof.Machine

open Sys2Proof

/-! ### Posting a message (R76, R91, R202) -/

section
variable (s : State) (core owner : Nat) (b : Body)

/-- Outside a deterministic launch a message enters the queue of its context. -/
theorem post_of_not_held (h : ¬(heldKind b = true ∧ inHandler s = false ∧ detLin s (curFrame s).lin = true)) :
    post s core owner b = pushEntry s (curCtx s) (msgEntry s core owner b) := by
  unfold post
  split
  · next i n launched =>
    have det : detLin s (curFrame s).lin = (recOf s i n).det := by rw [detLin, launched]
    rw [det] at h
    rw [if_neg (by simpa [and_assoc] using h)]
  · rfl

/-- A request of a deterministic launch is held for the end of the quantum. -/
theorem post_of_held (h : heldKind b = true ∧ inHandler s = false ∧ detLin s (curFrame s).lin = true) :
    ∃ r : HeldReq, post s core owner b = { s with held := s.held ++ [r], nextId := s.nextId + 1 } ∧ r.core = s.cur.1 ∧ r.seq = s.nextId
      ∧ some (r.iface, r.index) = (curFrame s).lin.launch ∧ r.entry.map QEntry.body = some (.msg core owner b) := by
  obtain ⟨kind, outside, det⟩ := h
  unfold detLin at det
  unfold post
  split at det
  · next i n launched =>
    simp only [launched, kind, outside, det, Bool.not_false, Bool.and_true, if_true]
    exact ⟨_, rfl, rfl, rfl, rfl, rfl⟩
  · exact Bool.noConfusion det

theorem post_eq : ∃ cs hs, post s core owner b = { s with ctxs := cs, held := hs, nextId := s.nextId + 1 } := by
  by_cases h : heldKind b = true ∧ inHandler s = false ∧ detLin s (curFrame s).lin = true
  · obtain ⟨r, e, -⟩ := post_of_held s core owner b h
    exact ⟨_, _, e⟩
  · exact ⟨_, _, post_of_not_held s core owner b h⟩

theorem post_keeps : (post s core owner b).wbuf = s.wbuf ∧ curPc (post s core owner b) = curPc s := by
  obtain ⟨cs, hs, e⟩ := post_eq s core owner b
  rw [e]
  exact ⟨rfl, rfl⟩

end

/-- The entry that a message becomes, and what else its context keeps. -/
theorem ctxOf_pushEntry (s : State) (k : Nat) (e : QEntry) (j : Nat) :
    ctxOf (pushEntry s k e) j = if j = k then { ctxOf s k with queue := (ctxOf s k).queue ++ [e] } else ctxOf s j := ctxOf_setCtx ..

/-! ### The checks before a message is posted (R70, R72, R76) -/

section
variable {s : State} {i : Instr}

/-- Operands out of range are ILL with SUB 4, before a misaligned address is ALIGN. -/
theorem checked_outcomes {bad : Prop} [Decidable bad] {va : Word} {n : Nat} {z : State}
    (runs : exec i s = commit s (if bad then illOperand s else if va.toNat % n ≠ 0 then alignTrap s va else z)) :
    (bad → Traps i s 0x01 4 ((curFrame s).word.setWidth 64)) ∧ (¬bad → va.toNat % n ≠ 0 → Traps i s 0x03 0 va)
      ∧ (¬bad → va.toNat % n = 0 → exec i s = commit s z) := by
  refine ⟨fun h => ?_, fun h misaligned => ?_, fun h aligned => ?_⟩
  · rwa [if_pos h] at runs
  · rwa [if_neg h, if_pos misaligned] at runs
  · rwa [if_neg h, if_neg (not_not_intro aligned)] at runs

/-- With no room in the segment the instruction parks. -/
theorem parks_of_full {k : State → State} {n : Nat} (runs : exec i s = commit s (needSegment s n k))
    (full : segmentRoom s (curCtx s) (curBank s) < n) : Parks i s [.segment (curBank s)] :=
  parks_of_park (runs.trans (congrArg (commit s) (needSegment_full s k full)))

theorem exec_of_room {k : State → State} {n : Nat} (runs : exec i s = commit s (needSegment s n k))
    (room : n ≤ segmentRoom s (curCtx s) (curBank s)) : exec i s = commit s (k s) :=
  runs.trans (congrArg (commit s) (needSegment_room s k room))

/-- An instruction that posts a message and retires completes at once. -/
theorem completes_post {core owner : Nat} {b : Body} (runs : exec i s = commit s (retire4 (post s core owner b))) :
    Completes i s (post s core owner b) id [] noByte fun _ => True := by
  obtain ⟨quiet, pc⟩ := post_keeps s core owner b
  exact completes_of_retires runs (pc ▸ retires_retire4 (post s core owner b)) quiet trivial

end

/-! ### `callat`, `amsg` and `reply` (R175, R189) -/

section
variable (s : State) (d a b : Reg)

/-- The state in which `callat` has taken its ticket. -/
def ticketTaken (s : State) : State :=
  setCtx s (curCtx s) { ctxOf s (curCtx s) with callSeq := ((ctxOf s (curCtx s)).callSeq + 1) % 2 ^ 32 }

/-- The state in which `callat` has posted its start. -/
def callPosted (s : State) (core entry : Nat) : State :=
  post (ticketTaken s) core (curOwner s) (callBody s entry (args4 s ++ [(6, ticket s)]))

theorem exec_callat : exec (.callat d a b) s = commit s (if 6144 ≤ (rd s a).toNat ∨ 2 ^ 19 ≤ (rd s b).toNat then illOperand s
    else if (rd s b).toNat % 4 ≠ 0 then alignTrap s (rd s b)
    else needSegment s 1 fun s' => finish (callPosted s' (rd s a).toNat (rd s b).toNat) d (ticket s')) := by
  simp only [apply_ite (commit s)]
  rfl

theorem exec_amsg : exec (.amsg a b) s = commit s (if 6144 ≤ (rd s a).toNat ∨ 2 ^ 19 ≤ (rd s b).toNat then illOperand s
    else if (rd s b).toNat % 4 ≠ 0 then alignTrap s (rd s b)
    else needSegment s 1 fun s' => retire4 (post s' (rd s a).toNat (curOwner s') (callBody s' (rd s b).toNat (args4 s')))) := rfl

theorem exec_reply : exec (.reply a b) s = commit s (if 6144 ≤ bits (rd s a) 31 19 then illOperand s
    else if (rd s a).toNat % 4 ≠ 0 then alignTrap s (rd s a)
    else needSegment s 1 fun s' => retire4 (post s' (bits (rd s a) 31 19) (curOwner s')
      (callBody s' (bits (rd s a) 18 0) [(2, rd s' b), (3, rd s a)]))) := by
  simp only [apply_ite (commit s)]
  rfl

/-- `callat` posts the start and writes the ticket. -/
theorem completes_callat {i : Instr} {core entry : Nat} (runs : exec i s = commit s (finish (callPosted s core entry) d (ticket s))) :
    Completes i s (callPosted s core entry) id [d] noByte (Gives d (ticket s)) := by
  obtain ⟨quiet, pc⟩ := post_keeps (ticketTaken s) core (curOwner s) (callBody s entry (args4 s ++ [(6, ticket s)]))
  have retires : Retires (callPosted s core entry) _ id [d] (curPc s + 4) := pc ▸ retires_finish (callPosted s core entry) d (ticket s)
  exact completes_of_retires runs retires quiet (rd_finish _ d _)

end

/-- Settles O11: the checks of the three instructions are in one order, and what goes on posts one message. -/
theorem callsAndMessages : Obligations.CallsAndMessages := by
  refine ⟨fun s d a b => ?instructions, fun s core owner m => ?posting⟩
  case instructions =>
    intro t e k x room args ticket fits
    have within (h : fits) : ¬(6144 ≤ t.toNat ∨ 2 ^ 19 ≤ e.toNat) := fun bad => bad.elim h.1.not_ge h.2.not_ge
    have beyond (h : ¬fits) : 6144 ≤ t.toNat ∨ 2 ^ 19 ≤ e.toNat := by
      by_contra good
      exact h ⟨Nat.lt_of_not_le (good ∘ .inl), Nat.lt_of_not_le (good ∘ .inr)⟩
    obtain ⟨ill_callat, align_callat, callat⟩ := checked_outcomes (exec_callat s d a b)
    obtain ⟨ill_amsg, align_amsg, amsg⟩ := checked_outcomes (exec_amsg s a b)
    obtain ⟨ill_reply, align_reply, reply⟩ := checked_outcomes (exec_reply s a b)
    refine ⟨fun ok aligned free => ⟨?calls, ?sends⟩, fun ok aligned full => ⟨?callParks, ?sendParks⟩,
      fun bad => ⟨ill_callat (beyond bad), ill_amsg (beyond bad)⟩,
      fun ok misaligned => ⟨align_callat (within ok) misaligned, align_amsg (within ok) misaligned⟩,
      fun ok aligned free => ?replies, fun ok aligned full => ?replyParks, ill_reply, fun ok => align_reply ok.not_ge⟩
    case calls => exact completes_callat s d (exec_of_room (callat (within ok) aligned) free)
    case sends => exact completes_post (exec_of_room (amsg (within ok) aligned) free)
    case callParks => exact parks_of_full (callat (within ok) aligned) (Nat.lt_of_not_le full)
    case sendParks => exact parks_of_full (amsg (within ok) aligned) (Nat.lt_of_not_le full)
    case replies => exact completes_post (exec_of_room (reply ok.not_ge aligned) free)
    case replyParks => exact parks_of_full (reply ok.not_ge aligned) (Nat.lt_of_not_le full)
  case posting =>
    intro k u isHeld
    refine ⟨fun free => ⟨msgEntry s core owner m, ?_⟩, post_of_held s core owner m⟩
    have enters : u = pushEntry s k (msgEntry s core owner m) := post_of_not_held s core owner m free
    have at_ (j : Nat) : ctxOf u j = if j = k then { ctxOf s k with queue := (ctxOf s k).queue ++ [msgEntry s core owner m] } else ctxOf s j := by
      rw [enters, ctxOf_pushEntry]
    refine ⟨?joins, rfl, rfl, rfl, rfl, rfl, rfl, rfl, ?rest, fun j other => by rw [at_, if_neg other], ?context⟩
    case joins => rw [at_, if_pos rfl]
    case rest => rw [enters]; rfl
    case context => rw [at_, if_pos rfl]

end Sys2Proof.Machine
end

section
/-! SUPPORT. A word of local memory that the hardware writes: what it then reads, which bytes stay, and what else the write leaves (R4,
R81, R153); and a message that its bank takes (R158, R174, R211, R393). -/

namespace Sys2Proof.Machine

open Sys2Proof

/-! ### Numbers in bytes (R4) -/

theorem leValue_leBytes (v n : Nat) : leValue (leBytes v n) = v % 256 ^ n := by
  induction n generalizing v with
  | zero => rw [Nat.pow_zero, Nat.mod_one]; rfl
  | succ n ih => rw [leBytes, leValue, ih, BitVec.toNat_ofNat, Nat.pow_succ' (m := 256), Nat.mod_mul]

theorem leValue_lt (bs : List Byte) : leValue bs < 256 ^ bs.length := by
  induction bs with
  | nil => exact Nat.one_pos
  | cons b r ih =>
    have := b.isLt
    rw [leValue, List.length_cons, Nat.pow_succ']
    omega

theorem or_one_eq (x : Nat) : x ||| 1 = x / 2 * 2 + 1 := by
  have high : (x ||| 1) / 2 = x / 2 := (Nat.or_div_two_pow (n := 1)).trans (Nat.or_zero _)
  have low : (x ||| 1) % 2 = 1 := Nat.or_mod_two_eq_one.2 (.inr rfl)
  omega

/-- A bit set in a number. -/
theorem w0Set_eq (w b : Nat) : w0Set w b = w / 2 ^ b / 2 * 2 ^ (b + 1) + 2 ^ b + w % 2 ^ b := by
  have high : (w ||| 2 ^ b) / 2 ^ b = w / 2 ^ b / 2 * 2 + 1 := by
    rw [Nat.or_div_two_pow, Nat.div_self (Nat.two_pow_pos b), or_one_eq]
  have low : (w ||| 2 ^ b) % 2 ^ b = w % 2 ^ b := by
    rw [Nat.or_mod_two_pow, Nat.mod_self, Nat.or_zero]
  calc w0Set w b
    _ = 2 ^ b * ((w ||| 2 ^ b) / 2 ^ b) + (w ||| 2 ^ b) % 2 ^ b := (Nat.div_add_mod ..).symm
    _ = w / 2 ^ b / 2 * 2 ^ (b + 1) + 2 ^ b + w % 2 ^ b := by rw [high, low, Nat.pow_succ]; ring

/-! ### Runs of local bytes (R153) -/

theorem find_cellsAt_beyond (bs : List Byte) {a x : Nat} (h : a + bs.length ≤ x) : NMap.find (cellsAt a bs) x = none := by
  induction bs generalizing a with
  | nil => rfl
  | cons b r ih =>
    rw [List.length_cons] at h
    rw [cellsAt, NMap.find, if_neg (by omega), ih (by omega)]

theorem localLoc_succ {s : State} {core owner off l : Nat} (place : localLoc s core owner off = some l)
    (within : off % Config.bankBytes + 1 < Config.bankBytes) : localLoc s core owner (off + 1) = some (l + 1) := by
  have bank : (off + 1) / Config.bankBytes = off / Config.bankBytes := by simp only [Config.bankBytes] at *; omega
  have offset : (off + 1) % Config.bankBytes = off % Config.bankBytes + 1 := by simp only [Config.bankBytes] at *; omega
  simp only [localLoc, bank, offset] at place ⊢
  split at place
  · rw [← Option.some.inj place]
    rfl
  · cases place

/-- Within a bank, local bytes are those from the location of the first. -/
theorem rdLocal_eq_rdBytes {s : State} {core owner off l n : Nat} (place : localLoc s core owner off = some l)
    (within : off % Config.bankBytes + n ≤ Config.bankBytes) : rdLocal s core owner off n = rdBytes s l n := by
  induction n generalizing off l with
  | zero => rfl
  | succ n ih =>
    rw [rdLocal, rdBytes, place]
    cases n with
    | zero => rfl
    | succ n =>
      have inside : off % Config.bankBytes + 1 < Config.bankBytes := by omega
      have rest := ih (localLoc_succ place inside) (by simp only [Config.bankBytes] at *; omega)
      rw [rest]

theorem rdBytes_of_find {t : State} (bs : List Byte) {l : Nat} (h : ∀ x v, NMap.find (cellsAt l bs) x = some v → byteAt t x = v) :
    rdBytes t l bs.length = bs := by
  induction bs generalizing l with
  | nil => rfl
  | cons b r ih =>
    have rest : rdBytes t (l + 1) r.length = r := ih fun x v found => by
      have past : l ≠ x := fun e => by
        rw [find_cellsAt_before r (by omega)] at found
        cases found
      exact h x v (by rw [cellsAt, NMap.find, if_neg past, found])
    rw [List.length_cons, rdBytes, rest, h l b (by rw [cellsAt, NMap.find, if_pos rfl])]

/-! ### What the writes of a step leave alone, once made -/

section
variable (s z : State)

@[simp] theorem frameOf_committed (c f : Nat) : frameOf (committed s z) c f = frameOf z c f := rfl
@[simp] theorem ctxOf_committed (k : Nat) : ctxOf (committed s z) k = ctxOf z k := rfl
@[simp] theorem ringOf_committed (r : Nat) : ringOf (committed s z) r = ringOf z r := rfl

end

/-! ### What words of local memory depend on -/

/-- The banks of each core, and the bytes of memory. -/
def localView (s : State) : (Nat → NMap Bank) × List Host.Cell × List Host.Cell := (fun c => (coreOf s c).banks, s.mem, s.wbuf)

section
variable {s t : State} (h : localView t = localView s)
include h

theorem banks_of_view (c : Nat) : (coreOf t c).banks = (coreOf s c).banks := congrFun (congrArg Prod.fst h) c

theorem wbuf_of_view : t.wbuf = s.wbuf := congrArg (fun v => v.2.2) h

theorem localLoc_of_view (core owner off : Nat) : localLoc t core owner off = localLoc s core owner off := by
  simp only [localLoc, banksOf, banks_of_view h]

theorem rdLocal_of_view (core owner off n : Nat) : rdLocal t core owner off n = rdLocal s core owner off n := by
  have mem : t.mem = s.mem := congrArg (fun v => v.2.1) h
  induction n generalizing off with
  | zero => rfl
  | succ n ih => simp only [rdLocal, ih, localLoc_of_view h, byteAt, mem, wbuf_of_view h]

theorem localWord_of_view (core owner off : Nat) : localWord t core owner off = localWord s core owner off := by
  rw [localWord, localWord, rdLocal_of_view h]

end

theorem banks_of_lastingCore {x y : CoreSt} (h : lastingCore x = lastingCore y) : x.banks = y.banks := (congrArg CoreSt.banks h :)

theorem localView_of_lasting {s t : State} (cores : ∀ c, lastingCore (coreOf t c) = lastingCore (coreOf s c)) (mem : t.mem = s.mem)
    (wbuf : t.wbuf = s.wbuf) : localView t = localView s := by
  simp only [localView, banks_of_lastingCore (cores _), mem, wbuf]

theorem localWord_lt (s : State) (core owner off : Nat) : localWord s core owner off < 2 ^ 64 := by
  have length : (rdLocal s core owner off 8).length = 8 := rfl
  have := leValue_lt (rdLocal s core owner off 8)
  rwa [length] at this

/-! ### A word that the hardware writes (R81) -/

/-- The last write of the step is the word `v` from the location `l`; banks stay. -/
structure WordWritten (s z : State) (l v : Nat) : Prop where
  banks : ∀ c, (coreOf z c).banks = (coreOf s c).banks
  wbuf  : z.wbuf = (cellsAt l (leBytes v 8)).reverse ++ s.wbuf

section
variable {s u z : State} {l v : Nat}

theorem WordWritten.after (h : WordWritten u z l v) (before : localView u = localView s) : WordWritten s z l v :=
  ⟨fun c => (h.banks c).trans (banks_of_view before c), h.wbuf.trans (by rw [wbuf_of_view before])⟩

theorem WordWritten.then (h : WordWritten s u l v) (after : localView z = localView u) : WordWritten s z l v :=
  ⟨fun c => (banks_of_view after c).trans (h.banks c), (wbuf_of_view after).trans h.wbuf⟩

/-- Once the writes are made the word reads `v`. -/
theorem WordWritten.word (h : WordWritten s z l v) (inv : Inv s) {core owner off : Nat} (place : localLoc s core owner off = some l)
    (aligned : off % 8 = 0) : localWord (committed s z) core owner off = v % 2 ^ 64 := by
  have there : localLoc (committed s z) core owner off = some l := by
    have banks : (coreOf (committed s z) core).banks = (coreOf s core).banks := h.banks core
    rw [← place, localLoc, localLoc, banksOf, banksOf, banks]
  have bytes : rdBytes (committed s z) l 8 = leBytes v 8 := rdBytes_of_find (leBytes v 8) fun x b found => by
    rw [byteAt_committed_cells inv h.wbuf, found]
    rfl
  have within : off % Config.bankBytes + 8 ≤ Config.bankBytes := by simp only [Config.bankBytes]; omega
  calc localWord (committed s z) core owner off
    _ = leValue (leBytes v 8) := by rw [localWord, rdLocal_eq_rdBytes there within, bytes]
    _ = v % 2 ^ 64 := leValue_leBytes v 8

/-- No other byte changes. -/
theorem WordWritten.rest (h : WordWritten s z l v) (inv : Inv s) (p : Nat) (other : p < l ∨ l + 8 ≤ p) :
    byteAt (committed s z) p = byteAt s p := by
  have none : NMap.find (cellsAt l (leBytes v 8)) p = none := by
    rcases other with below | above
    · exact find_cellsAt_before _ below
    · exact find_cellsAt_beyond _ above
  rw [byteAt_committed_cells inv h.wbuf, none]
  rfl

end

section
variable {s : State} {core owner off l : Nat} (place : localLoc s core owner off = some l)
include place

/-- Beside its bytes, a write to local memory leaves history and settled order, and what follows a settled write. -/
theorem tidies_hwLocal (bs : List Byte) : ∃ h, Tidies { s with hist := h, wbuf := (cellsAt l bs).reverse ++ s.wbuf, log := s.nextId :: s.log }
    (hwLocal s core owner off bs) := by
  have beyond : isDram l = false := by
    unfold localLoc at place
    split at place
    · next b _ =>
      have := Option.some.inj place
      rw [isDram, decide_eq_false_iff_not]
      simp only [bankLoc, Config.dramEnd] at this ⊢
      omega
    · cases place
  have settled := fun r => tidies_settleWrite { s with nextId := s.nextId + 1, hist := NMap.put s.hist s.nextId r } s.nextId
  simp only [wrec, get_put_same] at settled
  simp only [hwLocal, place, hwWrite, beyond, Bool.false_eq_true, if_false]
  exact ⟨_, settled _⟩

theorem wordWritten_hwLocal (v : Nat) : WordWritten s (hwLocal s core owner off (leBytes v 8)) l v := by
  obtain ⟨h, tidies⟩ := tidies_hwLocal place (leBytes v 8)
  exact ⟨fun c => banks_of_lastingCore ((Spares.hwLocal (.refl s) core owner off _).core c), tidies.wbuf⟩

theorem hwLocal_keeps (bs : List Byte) : (hwLocal s core owner off bs).ctxs = s.ctxs ∧ (hwLocal s core owner off bs).net = s.net
    ∧ (hwLocal s core owner off bs).reqs = s.reqs := by
  obtain ⟨h, tidies⟩ := tidies_hwLocal place bs
  refine ⟨tidies.ctxs, tidies.net, ?_⟩
  rw [tidies]
  rfl

end

/-! ### A message at its bank (R158, R174, R187, R199, R211) -/

/-- The state in which a message has left the fabric; one that wakes its core has done so (R381). -/
def received (s : State) (n : Nat) (m : Msg) : State :=
  if wakes m then wakeCore { s with net := dropAt s.net n } m.core else { s with net := dropAt s.net n }

theorem received_net (s : State) (n : Nat) (m : Msg) : (received s n m).net = dropAt s.net n := by unfold received; split <;> rfl

theorem received_ctxs (s : State) (n : Nat) (m : Msg) : (received s n m).ctxs = s.ctxs := by unfold received; split <;> rfl

theorem localView_received (s : State) (n : Nat) (m : Msg) : localView (received s n m) = localView s := by
  have left : Spares s { s with net := dropAt s.net n } := .rest (.refl s) rfl
  have spares : Spares s (received s n m) := .ite (left.wakeCore _) left
  exact localView_of_lasting spares.core (by unfold received; split <;> rfl) (by unfold received; split <;> rfl)

/-- A message whose turn it is, in a slot of the banks' arrays, is taken where nothing of its owner waits before it. -/
theorem arrive_received {s : State} {n : Nat} {m : Msg} {p : Body → Bool} {k : State → Msg → State} (at_ : s.net[n]? = some m)
    (kind : p m.body = true) (order : inOrder s m = true) (granted : standsAt s m.id = false) (slot : railSlot s 2 = true)
    (raises : startOf s m = none) (first : mustFollow s m.core m.owner m.ctx = false) : arrive n s p k = k (received s n m) m := by
  simp [arrive, at_, kind, order, granted, slot, raises, first, received]

end Sys2Proof.Machine
end

section
/-! SUPPORT. Counts of task records: the instructions that post them, and what one does to its record (R184-R187, R200). -/

namespace Sys2Proof.Machine

open Sys2Proof

/-! ### `tdec`, `tinc`, `bbexp` and `bbarr` (R186, R187, R200) -/

section
variable {s : State} {i : Instr} {va : Word} {k : Nat × Nat → State}

/-- What a record or barrier address comes to: in neither local window it is PROT. -/
def atLocal (s : State) (va : Word) (k : Nat × Nat → State) : State :=
  match localTarget s va with
  | none => protTrap s va
  | some t => k t

theorem traps_of_elsewhere (runs : exec i s = commit s (atLocal s va k)) (elsewhere : localTarget s va = none) : Traps i s 0x06 0 va := by
  rw [atLocal, elsewhere] at runs
  exact runs

theorem exec_of_target {t : Nat × Nat} (runs : exec i s = commit s (atLocal s va k)) (target : localTarget s va = some t) :
    exec i s = commit s (k t) := by
  rw [atLocal, target] at runs
  exact runs

/-- A count of an instruction that posts it for the record or barrier word of its address. -/
theorem count_outcomes {c : Nat} {bad : Prop} [Decidable bad] {al : Nat} {body : Nat → Nat → Body}
    (runs : exec i s = commit s (if bad then illOperand s else if va.toNat % al ≠ 0 then alignTrap s va
      else atLocal s va fun t => needSegment s 1 fun s => retire4 (post s t.1 (curOwner s) (body t.2 c)))) :
    (bad → Traps i s 0x01 4 ((curFrame s).word.setWidth 64))
    ∧ (¬bad → (va.toNat % al ≠ 0 → Traps i s 0x03 0 va)
      ∧ (va.toNat % al = 0 → localTarget s va = none → Traps i s 0x06 0 va)
      ∧ (∀ t, va.toNat % al = 0 → localTarget s va = some t → 1 ≤ segmentRoom s (curCtx s) (curBank s) →
          Completes i s (post s t.1 (curOwner s) (body t.2 c)) id [] noByte fun _ => True)
      ∧ (∀ t, va.toNat % al = 0 → localTarget s va = some t → segmentRoom s (curCtx s) (curBank s) < 1 →
          Parks i s [.segment (curBank s)])) := by
  obtain ⟨ill, misaligned, goes⟩ := checked_outcomes runs
  refine ⟨ill, fun good => ⟨misaligned good, fun aligned => traps_of_elsewhere (goes good aligned), fun t aligned target room => ?_,
    fun t aligned target full => ?_⟩⟩
  · exact completes_post (exec_of_room (exec_of_target (goes good aligned) target) room)
  · exact parks_of_full (exec_of_target (goes good aligned) target) full

end

/-! ### Word 0 of a record after a count (R183, R184, R187) -/

/-- COUNT 0, and UFL where the decrement passes COUNT. -/
def zeroed (w amt : Nat) : Nat := (if w % 2 ^ 32 < amt then w0Set w 33 else w) / 2 ^ 32 * 2 ^ 32

/-- FIRED set. -/
def withFired (w : Nat) : Nat := w / 2 ^ 33 * 2 ^ 33 + 2 ^ 32 + w % 2 ^ 32

/-- Word 0 of a record that fires; `w1` is word 1, which names the core of the start: BADT is set where there is none such. -/
def firedWord (w w1 : Nat) : Nat :=
  if 6144 ≤ w1 / 2 ^ 32 % 2 ^ 13 then withFired w % 2 ^ 47 + 2 ^ 47 + withFired w / 2 ^ 48 * 2 ^ 48 else withFired w

/-- Word 0 after a decrement. -/
def decremented (w w1 amt : Nat) : Nat :=
  if w / 2 ^ 32 % 2 = 1 then w0Set w 33 else if w % 2 ^ 32 ≤ amt then firedWord (zeroed w amt) w1 else w - amt

/-- Word 0 after an increment. -/
def incremented (w amt : Nat) : Nat :=
  if 2 ^ 32 ≤ w % 2 ^ 32 + amt then w0Set (w / 2 ^ 32 * 2 ^ 32 + (2 ^ 32 - 1)) 34 else w + amt

/-- The word of a record that fires as R187 has it. -/
theorem withFired_zeroed {w : Nat} (amt : Nat) (unfired : w / 2 ^ 32 % 2 ≠ 1) :
    withFired (zeroed w amt) = (if w % 2 ^ 32 < amt then (w - w % 2 ^ 32) ||| 2 ^ 33 else w - w % 2 ^ 32) + 2 ^ 32 := by
  have set (v : Nat) : v ||| 2 ^ 33 = v / 2 ^ 33 / 2 * 2 ^ 34 + 2 ^ 33 + v % 2 ^ 33 := w0Set_eq v 33
  unfold withFired zeroed
  split
  · rw [w0Set_eq, set]
    omega
  · omega

theorem zeroed_lt {w : Nat} (amt : Nat) (h : w < 2 ^ 64) : zeroed w amt < 2 ^ 64 := by
  have set := w0Set_eq w 33
  unfold zeroed
  split <;> omega

theorem firedWord_lt {w : Nat} (w1 : Nat) (h : w < 2 ^ 64) : firedWord w w1 < 2 ^ 64 := by
  unfold firedWord withFired
  split <;> omega

theorem decremented_lt {w : Nat} (w1 amt : Nat) (h : w < 2 ^ 64) : decremented w w1 amt < 2 ^ 64 := by
  have set := w0Set_eq w 33
  have fires := firedWord_lt w1 (zeroed_lt amt h)
  unfold decremented
  split
  · omega
  · split <;> omega

theorem incremented_lt {w amt : Nat} (h : w < 2 ^ 64) (small : amt < 2 ^ 32) : incremented w amt < 2 ^ 64 := by
  have set := w0Set_eq (w / 2 ^ 32 * 2 ^ 32 + (2 ^ 32 - 1)) 34
  unfold incremented
  split <;> omega

/-! ### A record that fires (R184, R185) -/

section
variable {s : State} {core owner off l : Nat} (w : Nat) (send : State → Nat → Start → State)

/-- Where word 1 names a core, the start goes there with the record's entry and arguments. -/
theorem fireWith_named (named : localWord s core owner (off + 8) / 2 ^ 32 % 2 ^ 13 < 6144) : ∃ st,
    fireWith s core owner off w send = send (hwLocal s core owner off (leBytes (withFired w) 8))
        (localWord s core owner (off + 8) / 2 ^ 32 % 2 ^ 13) st
      ∧ st.owner = owner ∧ st.entry = localWord s core owner (off + 8) / 4 % 2 ^ 17 * 4
      ∧ st.regs = [(2, word (localWord s core owner (off + 16))), (3, word (localWord s core owner (off + 24))), (4, word off)] :=
  ⟨_, if_neg (Nat.not_le.2 named), rfl, rfl, rfl⟩

theorem fireWith_unnamed (unnamed : 6144 ≤ localWord s core owner (off + 8) / 2 ^ 32 % 2 ^ 13) : fireWith s core owner off w send =
    hwLocal s core owner off (leBytes (withFired w % 2 ^ 47 + 2 ^ 47 + withFired w / 2 ^ 48 * 2 ^ 48) 8) := if_pos unnamed

variable (place : localLoc s core owner off = some l)
include place

theorem wordWritten_fireWith (keeps : ∀ u c st, localView (send u c st) = localView u) :
    WordWritten s (fireWith s core owner off w send) l (firedWord w (localWord s core owner (off + 8))) := by
  unfold firedWord
  split
  · next unnamed =>
    rw [fireWith_unnamed w send unnamed]
    exact wordWritten_hwLocal place _
  · next named =>
    obtain ⟨st, e, -⟩ := fireWith_named w send (Nat.not_le.1 named)
    rw [e]
    exact (wordWritten_hwLocal place _).then (keeps ..)

theorem fireWith_net (keeps : ∀ u c st, (send u c st).net = u.net) : (fireWith s core owner off w send).net = s.net := by
  rcases Nat.lt_or_ge (localWord s core owner (off + 8) / 2 ^ 32 % 2 ^ 13) 6144 with named | unnamed
  · obtain ⟨st, e, -⟩ := fireWith_named w send named
    rw [e, keeps, (hwLocal_keeps place _).2.1]
  · rw [fireWith_unnamed w send unnamed, (hwLocal_keeps place _).2.1]

end

/-- The start of a firing record enters the queue of its home's context (R91, R184). -/
theorem sendStart_enters (home off : Nat) (s : State) (core : Nat) (st : Start) : ∃ x : QEntry,
    (ctxOf (sendStart home off s core st) home).queue = (ctxOf s home).queue ++ [x] ∧ x.body = .msg core st.owner (.start st)
      ∧ x.after = (ctxOf s home).queue.map QEntry.id :=
  ⟨_, congrArg Ctx.queue (ctxOf_setCtx_same ..), rfl, rfl⟩

/-! ### A count at its bank (R184, R187) -/

/-- The record has gathered the tags of a count. -/
def tagGathered (s : State) (core owner off : Nat) (tag : List Nat) : State :=
  setRecTag s (ctxKey core owner) off (unionNat (recTag s (ctxKey core owner) off) tag)

theorem queue_tagGathered (s : State) (core owner off : Nat) (tag : List Nat) :
    (ctxOf (tagGathered s core owner off tag) (ctxKey core owner)).queue = (ctxOf s (ctxKey core owner)).queue := by
  rw [tagGathered, setRecTag, ctxOf_setCtx_same]

section
variable {s : State} {core owner off amt l : Nat} (tag : List Nat) (place : localLoc s core owner off = some l)
include place

/-- What a decrement does to its record. -/
theorem applyTdec_eq : applyTdec s core owner off amt tag =
    if localWord s core owner off / 2 ^ 32 % 2 = 1 then hwLocal s core owner off (leBytes (w0Set (localWord s core owner off) 33) 8)
    else if localWord s core owner off % 2 ^ 32 ≤ amt then fireWith (tagGathered s core owner off tag) core owner off
      (zeroed (localWord s core owner off) amt) (sendStart (ctxKey core owner) off)
    else hwLocal (tagGathered s core owner off tag) core owner off (leBytes (localWord s core owner off - amt) 8) := by
  simp only [applyTdec, place]
  rfl

theorem wordWritten_applyTdec : WordWritten s (applyTdec s core owner off amt tag) l
    (decremented (localWord s core owner off) (localWord s core owner (off + 8)) amt) := by
  have there : localLoc (tagGathered s core owner off tag) core owner off = some l := place
  have before : localView (tagGathered s core owner off tag) = localView s := rfl
  rw [applyTdec_eq tag place]
  unfold decremented
  split
  · exact wordWritten_hwLocal place _
  · split
    · have fires := wordWritten_fireWith (zeroed (localWord s core owner off) amt) (sendStart (ctxKey core owner) off) there fun _ _ _ => rfl
      rw [localWord_of_view before] at fires
      exact fires.after before
    · exact (wordWritten_hwLocal there _).after before

theorem applyTdec_net : (applyTdec s core owner off amt tag).net = s.net := by
  have there : localLoc (tagGathered s core owner off tag) core owner off = some l := place
  rw [applyTdec_eq tag place]
  split
  · exact (hwLocal_keeps place _).2.1
  · split
    · exact fireWith_net _ (sendStart (ctxKey core owner) off) there fun _ _ _ => rfl
    · exact (hwLocal_keeps there _).2.1

theorem queue_hwLocal_tagGathered (bs : List Byte) :
    (ctxOf (hwLocal (tagGathered s core owner off tag) core owner off bs) (ctxKey core owner)).queue = (ctxOf s (ctxKey core owner)).queue := by
  have there : localLoc (tagGathered s core owner off tag) core owner off = some l := place
  rw [ctxOf, (hwLocal_keeps there bs).1]
  exact queue_tagGathered s core owner off tag

/-- A decrement that comes to COUNT puts the record's start into the queue of its home's context. -/
theorem applyTdec_fires (unfired : localWord s core owner off / 2 ^ 32 % 2 ≠ 1) (reached : localWord s core owner off % 2 ^ 32 ≤ amt)
    (named : localWord s core owner (off + 8) / 2 ^ 32 % 2 ^ 13 < 6144) :
    ∃ x : QEntry, ∃ st : Start, (ctxOf (applyTdec s core owner off amt tag) (ctxKey core owner)).queue = (ctxOf s (ctxKey core owner)).queue ++ [x]
      ∧ x.body = .msg (localWord s core owner (off + 8) / 2 ^ 32 % 2 ^ 13) owner (.start st)
      ∧ x.after = (ctxOf s (ctxKey core owner)).queue.map QEntry.id ∧ st.owner = owner
      ∧ st.entry = localWord s core owner (off + 8) / 4 % 2 ^ 17 * 4
      ∧ st.regs = [(2, word (localWord s core owner (off + 16))), (3, word (localWord s core owner (off + 24))), (4, word off)] := by
  have words (i : Nat) : localWord (tagGathered s core owner off tag) core owner i = localWord s core owner i := localWord_of_view rfl ..
  obtain ⟨st, e, ofOwner, entry, regs⟩ := fireWith_named (s := tagGathered s core owner off tag) (owner := owner)
    (zeroed (localWord s core owner off) amt) (sendStart (ctxKey core owner) off) (by rwa [words])
  simp only [words] at e entry regs
  obtain ⟨x, enters, body, after⟩ := sendStart_enters (ctxKey core owner) off (hwLocal (tagGathered s core owner off tag) core owner off
    (leBytes (withFired (zeroed (localWord s core owner off) amt)) 8)) (localWord s core owner (off + 8) / 2 ^ 32 % 2 ^ 13) st
  rw [queue_hwLocal_tagGathered tag place] at enters after
  rw [ofOwner] at body
  refine ⟨x, st, ?_, body, after, ofOwner, entry, regs⟩
  rw [applyTdec_eq tag place, if_neg unfired, if_pos reached, e]
  exact enters

/-- What an increment does to its record. -/
theorem applyTinc_eq : applyTinc s core owner off amt tag
    = hwLocal (tagGathered s core owner off tag) core owner off (leBytes (incremented (localWord s core owner off) amt) 8) := by
  simp only [applyTinc, place]
  unfold incremented
  split <;> rfl

end

/-! ### The arrivals (R187) -/

section
variable {s : State} {n off amt : Nat} {m : Msg} (at_ : s.net[n]? = some m) (order : inOrder s m = true)
  (first : mustFollow s m.core m.owner m.ctx = false) (granted : standsAt s m.id = false) (slot : railSlot s 2 = true)
include at_ order first granted slot

theorem exec_tdecArrival (body : m.body = .tdec off amt) :
    exec (.tdecArrival n) s = .next (committed s <| applyTdec (received s n m) m.core m.owner off amt m.tag) := by
  refine congrArg (commit s) ((arrive_received at_ (by rw [body]) order granted slot (by rw [startOf, body]) first).trans ?_)
  simp only [body]

theorem exec_tincArrival (body : m.body = .tinc off amt) :
    exec (.tincArrival n) s = .next (committed s <| applyTinc (received s n m) m.core m.owner off amt m.tag) := by
  refine congrArg (commit s) ((arrive_received at_ (by rw [body]) order granted slot (by rw [startOf, body]) first).trans ?_)
  simp only [body]

end

/-- Settles O20: the four instructions' checks are in one order; a decrement and an increment each write word 0 of their record, and one
that comes to COUNT sends the record's start. -/
theorem countMessagesAndRecords : Obligations.CountMessagesAndRecords := by
  refine ⟨fun s a b i body al lo hi is => ?instructions, fun s n off amt l m inv at_ order first granted slot aligned place small _ => ?arrivals⟩
  case instructions =>
    intro va c
    have runs : exec i s = commit s (if c < lo ∨ hi ≤ c then illOperand s else if va.toNat % al ≠ 0 then alignTrap s va
        else atLocal s va fun t => needSegment s 1 fun s' => retire4 (post s' t.1 (curOwner s') (body t.2 c))) := by
      rcases is with ⟨rfl, rfl, rfl, rfl, rfl⟩ | ⟨rfl, rfl, rfl, rfl, rfl⟩ | ⟨rfl, rfl, rfl, rfl, rfl⟩ | ⟨rfl, rfl, rfl, rfl, rfl⟩
      all_goals exact congrArg (commit s) (if_congr (by omega) rfl rfl)
    obtain ⟨ill, goes⟩ := count_outcomes runs
    exact ⟨ill, fun low high => goes (by omega)⟩
  case arrivals =>
    intro word w cnt fired rest
    have view := localView_received s n m
    have there : localLoc (received s n m) m.core m.owner off = some l := (localLoc_of_view view ..).trans place
    have words (o : Nat) : localWord (received s n m) m.core m.owner o = localWord s m.core m.owner o := localWord_of_view view ..
    have bound : w < 2 ^ 64 := localWord_lt ..
    have within : off % 8 = 0 := by omega
    refine ⟨fun body => ⟨committed s _, exec_tdecArrival at_ order first granted slot body, ?decrement⟩,
      fun body => ⟨committed s _, exec_tincArrival at_ order first granted slot body, ?increment⟩⟩
    case decrement =>
      have written := (wordWritten_applyTdec (amt := amt) m.tag there).after view
      simp only [words] at written
      have reads := (written.word inv place within).trans (Nat.mod_eq_of_lt (decremented_lt _ amt bound))
      have net := (applyTdec_net (amt := amt) m.tag there).trans (received_net s n m)
      refine ⟨written.rest inv, fun yes => reads.trans (if_pos yes), fun no below => reads.trans ?lowers,
        fun no reached named => ⟨reads.trans ?fires, net, ?start⟩, fun no reached unnamed => ⟨net, ?bad⟩⟩
      case lowers => exact (if_neg no).trans (if_neg (Nat.not_le.2 below))
      case fires =>
        calc decremented w (word s 1) amt
          _ = withFired (zeroed w amt) :=
            (if_neg no).trans ((if_pos reached).trans (if_neg (Nat.not_le.2 named)))
          _ = _ := withFired_zeroed amt no
      case start =>
        have starts := applyTdec_fires (amt := amt) m.tag there
        simp only [words, ctxOf, received_ctxs] at starts
        exact starts no reached named
      case bad =>
        have set : word (committed s (applyTdec (received s n m) m.core m.owner off amt m.tag)) 0
            = withFired (zeroed w amt) % 2 ^ 47 + 2 ^ 47 + withFired (zeroed w amt) / 2 ^ 48 * 2 ^ 48 :=
          reads.trans ((if_neg no).trans ((if_pos reached).trans (if_pos unnamed)))
        rw [set]
        omega
    case increment =>
      rw [applyTinc_eq m.tag there, words]
      have gathered : localLoc (tagGathered (received s n m) m.core m.owner off m.tag) m.core m.owner off = some l := there
      have written := (wordWritten_hwLocal gathered (incremented w amt)).after view
      have reads := (written.word inv place within).trans (Nat.mod_eq_of_lt (incremented_lt bound small))
      refine ⟨written.rest inv, (hwLocal_keeps gathered _).2.1.trans (received_net s n m),
        fun below => reads.trans (if_neg (Nat.not_le.2 below)), fun past => reads.trans ?saturates⟩
      case saturates =>
        calc incremented w amt
          _ = w0Set (w / 2 ^ 32 * 2 ^ 32 + (2 ^ 32 - 1)) 34 := if_pos past
          _ = (w - cnt + (2 ^ 32 - 1)) ||| 2 ^ 34 := by rw [show w - cnt = w / 2 ^ 32 * 2 ^ 32 by omega]; rfl

end Sys2Proof.Machine
end

section
/-! SUPPORT. What a byte-barrier message does to its barrier (R198, R199). -/

namespace Sys2Proof.Machine

open Sys2Proof

/-! ### Barrier words (R199) -/

/-- The arrivals of a barrier word after an update. -/
def arrivalsLeft (w arr : Nat) (sub : Bool) : Nat :=
  if sub then (w / 2 ^ 56 + 2 ^ 8 - arr % 2 ^ 8) % 2 ^ 8 else (w / 2 ^ 56 + arr) % 2 ^ 8

/-- Its bytes. -/
def bytesLeft (w bytes : Nat) (sub : Bool) : Nat :=
  if sub then (w % 2 ^ 56 + 2 ^ 56 - bytes % 2 ^ 56) % 2 ^ 56 else (w % 2 ^ 56 + bytes) % 2 ^ 56

/-- A barrier word with arrivals and bytes added or taken, each field wrapping. -/
def updatedBarrier (w arr bytes : Nat) (sub : Bool) : Nat := bytesLeft w bytes sub + arrivalsLeft w arr sub * 2 ^ 56

theorem arrivalsLeft_lt (w arr : Nat) (sub : Bool) : arrivalsLeft w arr sub < 2 ^ 8 := by
  unfold arrivalsLeft
  split <;> exact Nat.mod_lt _ (Nat.two_pow_pos 8)

theorem bytesLeft_lt (w bytes : Nat) (sub : Bool) : bytesLeft w bytes sub < 2 ^ 56 := by
  unfold bytesLeft
  split <;> exact Nat.mod_lt _ (Nat.two_pow_pos 56)

theorem updatedBarrier_lt (w arr bytes : Nat) (sub : Bool) : updatedBarrier w arr bytes sub < 2 ^ 64 := by
  have := arrivalsLeft_lt w arr sub
  have := bytesLeft_lt w bytes sub
  rw [updatedBarrier]
  omega

theorem updatedBarrier_eq {w arr bytes : Nat} (sub : Bool) (few : arr < 2 ^ 8) (small : bytes < 2 ^ 56) : updatedBarrier w arr bytes sub =
    if sub then (w / 2 ^ 56 + 2 ^ 8 - arr) % 2 ^ 8 * 2 ^ 56 + (w % 2 ^ 56 + 2 ^ 56 - bytes) % 2 ^ 56
    else (w / 2 ^ 56 + arr) % 2 ^ 8 * 2 ^ 56 + (w % 2 ^ 56 + bytes) % 2 ^ 56 := by
  rw [updatedBarrier, arrivalsLeft, bytesLeft, Nat.mod_eq_of_lt few, Nat.mod_eq_of_lt small]
  split <;> rw [Nat.add_comm]

/-- The word is 0 where both its fields are. -/
theorem updatedBarrier_zero (w arr bytes : Nat) (sub : Bool) :
    (arrivalsLeft w arr sub == 0 && bytesLeft w bytes sub == 0) = (updatedBarrier w arr bytes sub == 0) := by
  rw [Bool.eq_iff_iff, Bool.and_eq_true, beq_iff_eq, beq_iff_eq, beq_iff_eq, updatedBarrier]
  omega

/-! ### The update (R199) -/

section
variable (s : State) (core owner off : Nat)

/-- The entry of a barrier in the table of its context. -/
def boundTo : Option (Nat × Nat × (Nat × Nat) × List Nat) := (ctxOf s (ctxKey core owner)).barriers.find? fun x => x.2.1 == off

/-- The table after an update: the barrier's tags are gathered, or gone with its zero. -/
def barrierNoted (t : List Nat) (zero : Bool) : State :=
  let c := ctxOf s (ctxKey core owner)
  setCtx s (ctxKey core owner) { c with barriers := c.barriers.map fun y =>
    if y.2.1 = off then (y.1, y.2.1, y.2.2.1, if zero then [] else t) else y }

/-- What a barrier word's update does to the table, and what it sends. -/
def barrierEffect (zero : Bool) (tag : List Nat) : State :=
  match boundTo s core owner off with
  | none => s
  | some x =>
    let u := barrierNoted s core owner off (unionNat x.2.2.2 tag) zero
    if zero then sendTdec u owner x.2.2.1 (unionNat x.2.2.2 tag) else u

theorem launch_net (s : State) (m : Msg) : (launch s m).net = s.net ++ [m] := (tidies_launch s m).net

theorem localView_launch (s : State) (m : Msg) : localView (launch s m) = localView s := by
  refine localView_of_lasting (Spares.launch (.refl s) m).core ?_ (tidies_launch s m).wbuf
  rw [tidies_launch s m]
  rfl

theorem localView_barrierEffect (zero : Bool) (tag : List Nat) : localView (barrierEffect s core owner off zero tag) = localView s := by
  unfold barrierEffect
  split
  · rfl
  · cases zero with
    | true => exact localView_launch ..
    | false => rfl

/-- An unbound barrier, or one that is not zero, sends nothing. -/
theorem barrierEffect_quiet {zero : Bool} (tag : List Nat) (h : zero = false ∨ boundTo s core owner off = none) :
    (barrierEffect s core owner off zero tag).net = s.net := by
  unfold barrierEffect
  rcases h with rfl | unbound
  · split <;> rfl
  · rw [unbound]

/-- A bound one at zero sends a decrement of one to its record. -/
theorem barrierEffect_sends {x : Nat × Nat × (Nat × Nat) × List Nat} (tag : List Nat) (bound : boundTo s core owner off = some x) :
    ∃ g : Msg, (barrierEffect s core owner off true tag).net = s.net ++ [g] ∧ g.body = .tdec x.2.2.1.2 1 ∧ g.core = x.2.2.1.1
      ∧ g.owner = owner := by
  unfold barrierEffect
  rw [bound]
  exact ⟨_, launch_net .., rfl, rfl, rfl⟩

end

section
variable {s : State} {core owner off l : Nat} (sub : Bool) (arr bytes : Nat) (tag : List Nat) (place : localLoc s core owner off = some l)
include place

theorem updateBarrier_eq : updateBarrier s core owner off sub arr bytes tag = barrierEffect
    (hwLocal s core owner off (leBytes (updatedBarrier (localWord s core owner off) arr bytes sub) 8)) core owner off
    (updatedBarrier (localWord s core owner off) arr bytes sub == 0) tag := by
  rw [← updatedBarrier_zero]
  simp only [updateBarrier, place]
  rfl

theorem wordWritten_updateBarrier : WordWritten s (updateBarrier s core owner off sub arr bytes tag) l
    (updatedBarrier (localWord s core owner off) arr bytes sub) := by
  rw [updateBarrier_eq sub arr bytes tag place]
  exact (wordWritten_hwLocal place _).then (localView_barrierEffect ..)

end

theorem exec_barrierUpdate {s : State} {n off arr bytes : Nat} {sub : Bool} {m : Msg} (at_ : s.net[n]? = some m)
    (order : inOrder s m = true) (first : mustFollow s m.core m.owner m.ctx = false) (granted : standsAt s m.id = false)
    (slot : railSlot s 2 = true) (body : m.body = .barrier off sub arr bytes) :
    exec (.barrierUpdate n) s = .next (committed s <| updateBarrier (received s n m) m.core m.owner off sub arr bytes m.tag) := by
  refine congrArg (commit s) ((arrive_received at_ (by rw [body]) order granted slot (by rw [startOf, body]) first).trans ?_)
  simp only [body]

/-- Settles O22: an update writes the barrier word, and then only sends from a bound barrier at zero. -/
theorem barrierUpdates : Obligations.BarrierUpdates := by
  intro s n off arr bytes l sub m inv at_ order first granted slot aligned place body few small w x new
  have view := localView_received s n m
  have there : localLoc (received s n m) m.core m.owner off = some l := (localLoc_of_view view ..).trans place
  have became : updatedBarrier (localWord (received s n m) m.core m.owner off) arr bytes sub = new := by
    rw [updatedBarrier_eq sub few small, localWord_of_view view]
  have written := (wordWritten_updateBarrier sub arr bytes m.tag there).after view
  have below := updatedBarrier_lt (localWord (received s n m) m.core m.owner off) arr bytes sub
  have equation := updateBarrier_eq sub arr bytes m.tag there
  rw [became] at written below equation
  obtain ⟨ctxs, net, -⟩ := hwLocal_keeps there (leBytes new 8)
  rw [received_ctxs] at ctxs
  rw [received_net] at net
  have table : boundTo (hwLocal (received s n m) m.core m.owner off (leBytes new 8)) m.core m.owner off
      = x.barriers.find? fun y => y.2.1 == off := by
    rw [boundTo, ctxOf, ctxs, ← ctxOf]
  refine ⟨committed s _, exec_barrierUpdate at_ order first granted slot body,
    (written.word inv place aligned).trans (Nat.mod_eq_of_lt below), written.rest inv, fun b bound zero => ?sends, fun quiet => ?quiet⟩
  case sends =>
    have sends := barrierEffect_sends _ m.core m.owner off m.tag (table.trans bound)
    have done : (new == 0) = true := beq_iff_eq.2 zero
    rw [net] at sends
    rw [equation, done]
    exact sends
  case quiet =>
    have still : (new == 0) = false ∨ boundTo (hwLocal (received s n m) m.core m.owner off (leBytes new 8)) m.core m.owner off = none :=
      quiet.imp (fun other => beq_eq_false_iff_ne.2 other) table.trans
    rw [equation]
    exact (barrierEffect_quiet _ m.core m.owner off m.tag still).trans net

end Sys2Proof.Machine
end

section
/-! SUPPORT. Initialisations of task records and barriers: the requests they are, and their steps at the own bank (R186, R187, R200). -/

namespace Sys2Proof.Machine

open Sys2Proof

/-! ### Instructions that park for an answer (R127, R133) -/

section
variable {s u : State} {i : Instr} {st : Nat → Prop} {P : State → Prop}

/-- All but cores and contexts is as before the frame parks for its answer. -/
theorem parkAnswer_rest (u : State) (id : Nat) : { parkAnswer u id with cores := u.cores, ctxs := u.ctxs } = u :=
  (moves_parkedAfter u [.answer id]).rest

/-- An instruction that parks for an answer after its effects waits for it. -/
theorem completesWaiting_of_parkAnswer {id : Nat} (runs : exec i s = commit s (parkAnswer u id)) (quiet : u.wbuf = s.wbuf)
    (clk : u.clk = s.clk) (pc : curPc u = curPc s) (holds : P (committed s (parkAnswer u id))) :
    CompletesWaiting i s u [.answer id] st P := by
  have moves : Moves u (parkAnswer u id) (waiting [.answer id] s.clk) [] (curPc s + 4) := pc ▸ clk ▸ moves_parkedAfter u [.answer id]
  exact ⟨committed s (parkAnswer u id), runs, moves.committed, moves.keeps_bytes quiet st, holds⟩

end

/-! ### `tinit`, `bbinit` and `bbq` (R187, R200) -/

section
variable {s : State} {i : Instr} {va : Word} {k : Nat → State}

/-- What an own-window address comes to: in another window it is PROT. -/
def atOwn (s : State) (va : Word) (k : Nat → State) : State :=
  match ownTarget s va with
  | none => protTrap s va
  | some off => k off

theorem traps_of_not_own (runs : exec i s = commit s (atOwn s va k)) (elsewhere : ownTarget s va = none) : Traps i s 0x06 0 va := by
  rw [atOwn, elsewhere] at runs
  exact runs

theorem exec_of_own {off : Nat} (runs : exec i s = commit s (atOwn s va k)) (own : ownTarget s va = some off) :
    exec i s = commit s (k off) := by
  rw [atOwn, own] at runs
  exact runs

/-- Only a misaligned address is ALIGN. -/
theorem aligned_outcomes {n : Nat} {z : State} (runs : exec i s = commit s (if va.toNat % n ≠ 0 then alignTrap s va else z)) :
    (va.toNat % n ≠ 0 → Traps i s 0x03 0 va) ∧ (va.toNat % n = 0 → exec i s = commit s z) :=
  ⟨fun misaligned => by rwa [if_pos misaligned] at runs, fun aligned => by rwa [if_neg (not_not_intro aligned)] at runs⟩

/-- The request of an initialisation has entered the machine, owed to d. -/
def bankRequested (s : State) (d : Reg) (kind : ReqKind) (va : Word) : State :=
  owe (newReq s kind none 2 none true false va) d s.nextId none

/-- One request that waits for every entry of the queue; it touches no byte. -/
theorem bankRequested_spec (s : State) (d : Reg) (kind : ReqKind) (va : Word) :
    (∃ q : Req, (bankRequested s d kind va).reqs = s.reqs ++ [q] ∧ q.kind = kind ∧ q.after = (ctxOf s (curCtx s)).queue.map QEntry.id)
    ∧ (bankRequested s d kind va).wbuf = s.wbuf ∧ (bankRequested s d kind va).clk = s.clk
    ∧ curPc (bankRequested s d kind va) = curPc s :=
  ⟨⟨_, rfl, rfl, rfl⟩, rfl, rfl, (curPc_owe ..).trans rfl⟩

theorem waits_of_bankRequest {d : Reg} {kind : ReqKind} (runs : exec i s = commit s (bankRequest d kind va s)) :
    CompletesWaiting i s (bankRequested s d kind va) [.answer s.nextId] noByte fun t =>
      ∃ q : Req, t.reqs = s.reqs ++ [q] ∧ q.kind = kind ∧ q.after = (ctxOf s (curCtx s)).queue.map QEntry.id := by
  obtain ⟨⟨q, joins, is⟩, quiet, clk, pc⟩ := bankRequested_spec s d kind va
  have stays : (parkAnswer (bankRequested s d kind va) s.nextId).reqs = (bankRequested s d kind va).reqs :=
    (congrArg State.reqs (parkAnswer_rest (bankRequested s d kind va) s.nextId) :)
  exact completesWaiting_of_parkAnswer runs quiet clk pc ⟨q, stays.trans joins, is⟩

end

section
variable (s : State) (d a b : Reg)

theorem exec_tinit : exec (.tinit d a b) s = commit s (if 2 ^ 32 ≤ (rd s b).toNat then illOperand s
    else if (rd s a).toNat % 32 ≠ 0 then alignTrap s (rd s a)
    else atOwn s (rd s a) fun off => bankRequest d (.tinit off (rd s b).toNat) (rd s a) s) := rfl

theorem exec_bbinit : exec (.bbinit d a b) s = commit s (if (rd s a).toNat % 8 ≠ 0 then alignTrap s (rd s a)
    else if rd s b ≠ 0 ∧ (rd s b).toNat % 32 ≠ 0 then alignTrap s (rd s b)
    else atOwn s (rd s a) fun off =>
      if rd s b = 0 then bankRequest d (.bbinit off none) (rd s a) s
      else atLocal s (rd s b) fun t => bankRequest d (.bbinit off (some t)) (rd s a) s) := rfl

theorem exec_bbq : exec (.bbq d a) s = commit s (if (rd s a).toNat % 8 ≠ 0 then alignTrap s (rd s a)
    else atOwn s (rd s a) fun off => retire4 (issueRead s (.loc s.cur.1 off) 8 false 1 d (rd s a))) := rfl

end

/-! ### A request that its bank performs (R187, R200) -/

theorem dropReq_eq (s : State) (id : Nat) : ∃ h, dropReq s id = { s with hist := h, reqs := s.reqs.filter fun q => q.id != id } := by
  unfold dropReq
  split <;> exact ⟨_, rfl⟩

theorem dropReq_keeps (s : State) (id : Nat) : localView (dropReq s id) = localView s ∧ (dropReq s id).ctxs = s.ctxs
    ∧ (dropReq s id).cores = s.cores ∧ ∀ p ∈ (dropReq s id).reqs, p.id ≠ id := by
  obtain ⟨h, e⟩ := dropReq_eq s id
  rw [e]
  exact ⟨rfl, rfl, rfl, fun p mem => bne_iff_ne.1 (List.mem_filter.1 mem).2⟩

theorem answer_keeps (s : State) (core frame act id : Nat) (v : Word) : localView (answer s core frame act id v) = localView s
    ∧ (answer s core frame act id v).ctxs = s.ctxs ∧ (answer s core frame act id v).reqs = s.reqs := by
  unfold answer
  dsimp only
  split
  · exact ⟨localView_of_lasting (fun c => lastingCore_setFrame ..) rfl rfl, rfl, rfl⟩
  · exact ⟨rfl, rfl, rfl⟩

/-- The request is gone, and its answer is there. -/
structure Performs (s z : State) (q : Req) (v : Nat) : Prop where
  gone : ∀ p ∈ z.reqs, p.id ≠ q.id
  owed : (frameOf z (ctxCore q.ctx) q.frame).owed = (frameOf s (ctxCore q.ctx) q.frame).owed.map fun o =>
    if o.id = q.id then { o with val := some (BitVec.ofNat 64 v) } else o

section
variable {s u : State} {q : Req} {v : Nat}

/-- An activation that still runs gets its answer. -/
theorem performs_answer (gone : ∀ p ∈ u.reqs, p.id ≠ q.id)
    (frame : lasting (frameOf u (ctxCore q.ctx) q.frame) = lasting (frameOf s (ctxCore q.ctx) q.frame))
    (act : (frameOf s (ctxCore q.ctx) q.frame).act = q.act) (runs : (frameOf s (ctxCore q.ctx) q.frame).st ≠ .free) :
    Performs s (answer u (ctxCore q.ctx) q.frame q.act q.id (word v)) q v := by
  have act' : (frameOf u (ctxCore q.ctx) q.frame).act = q.act := (congrArg Frame.act frame :).trans act
  have st : (frameOf u (ctxCore q.ctx) q.frame).st = (frameOf s (ctxCore q.ctx) q.frame).st := (congrArg Frame.st frame :)
  have runs' : (frameOf u (ctxCore q.ctx) q.frame).st ≠ .free := st ▸ runs
  have owed : (frameOf u (ctxCore q.ctx) q.frame).owed = (frameOf s (ctxCore q.ctx) q.frame).owed := (congrArg Frame.owed frame :)
  refine ⟨by rwa [(answer_keeps ..).2.2], ?_⟩
  simp only [answer, act', runs', ne_eq, not_false_eq_true, and_self, if_true, frameOf_setFrame_same, owed]
  rfl

theorem Performs.hwLocal {core owner off l : Nat} (h : Performs s u q v) (place : localLoc u core owner off = some l) (bs : List Byte) :
    Performs s (hwLocal u core owner off bs) q v where
  gone := by rw [(hwLocal_keeps place bs).2.2]; exact h.gone
  owed := (congrArg Frame.owed ((Spares.hwLocal (.refl u) core owner off bs).frame (ctxCore q.ctx) q.frame) :).trans h.owed

end

/-- So it is once the writes of the step are made. -/
theorem Performs.committed {s z : State} {q : Req} {v : Nat} (h : Performs s z q v) : Performs s (committed s z) q v := ⟨h.gone, h.owed⟩

/-! ### The step of `tinit` (R187) -/

/-- Word 0 that `tinit` writes: the count, the issuer's class and lineage, and the old word's high half. -/
def initialWord (lin : Lin) (old amt : Nat) : Nat :=
  amt + b2n lin.early * 2 ^ 35 + (lin.launch.map Prod.snd).getD 0 % 2 ^ 10 * 2 ^ 36 + b2n lin.launch.isSome * 2 ^ 46 + old / 2 ^ 48 * 2 ^ 48

theorem initialWord_fields (lin : Lin) {old amt : Nat} (small : amt < 2 ^ 32) (below : old < 2 ^ 64) :
    initialWord lin old amt < 2 ^ 64 ∧ initialWord lin old amt % 2 ^ 32 = amt ∧ initialWord lin old amt / 2 ^ 32 % 2 ^ 3 = 0
      ∧ (initialWord lin old amt / 2 ^ 35 % 2 = 1 ↔ lin.early = true)
      ∧ (initialWord lin old amt / 2 ^ 46 % 2 = 1 ↔ lin.launch.isSome = true) ∧ initialWord lin old amt / 2 ^ 47 % 2 = 0 := by
  unfold initialWord
  generalize (lin.launch.map Prod.snd).getD 0 = index
  cases lin.early <;> cases lin.launch.isSome <;> simp only [b2n, if_true, Bool.false_eq_true, if_false, iff_false, iff_true] <;> omega

/-- The request of `tinit` is gone, its record has the tags of the issuer, and its answer is there. -/
def recordAnswered (s : State) (q : Req) (off old : Nat) : State :=
  answer (setRecTag (dropReq s q.id) q.ctx off q.tag) (ctxCore q.ctx) q.frame q.act q.id (word old)

theorem exec_tinitStep {s : State} {n off amt : Nat} {q : Req} (at_ : s.reqs[n]? = some q) (kind : q.kind = .tinit off amt)
    (ready : reqReady s q = true) (slot : railSlot s 2 = true) (some_ : 0 < amt) :
    exec (.tinitStep n) s = .next (committed s <|
      hwLocal (recordAnswered s q off (localWord s (ctxCore q.ctx) (ctxOwner q.ctx) off)) (ctxCore q.ctx) (ctxOwner q.ctx) off
        (leBytes (initialWord q.lin (localWord s (ctxCore q.ctx) (ctxOwner q.ctx) off) amt) 8)) := by
  refine congrArg (commit s) ?_
  simp only [at_, kind, ready, slot, Bool.not_true, Bool.or_self, Bool.false_eq_true, if_false, if_pos (Nat.ne_of_gt some_), initialWord]
  cases q.lin.launch <;> rfl

/-! ### The step of `bbinit` (R200) -/

section
variable (s : State) (q : Req) (off : Nat)

/-- The entries of the barrier table of the request's context for other words. -/
def otherBarriers : List (Nat × Nat × (Nat × Nat) × List Nat) := (ctxOf s q.ctx).barriers.filter fun x => x.2.1 != off

/-- The request is gone, and the table replaced. -/
def tableSet (bs : List (Nat × Nat × (Nat × Nat) × List Nat)) : State :=
  setCtx (dropReq s q.id) q.ctx { ctxOf (dropReq s q.id) q.ctx with barriers := bs }

/-- The answer goes to the issuing frame. -/
def answered (u : State) (q : Req) (v : Nat) : State := answer u (ctxCore q.ctx) q.frame q.act q.id (word v)

/-- The barrier is bound by an entry of the table, its word is cleared, and the answer is 0. -/
def barrierBound (x : Nat × Nat × (Nat × Nat) × List Nat) : State :=
  answered (hwLocal (tableSet s q (otherBarriers s q off ++ [x])) (ctxCore q.ctx) (ctxOwner q.ctx) off (leBytes 0 8)) q 0

/-- What `bbinit` makes of a barrier: unbound, bound again in its bank, bound in a bank with an entry free, or left as it was. -/
def barrierInit (task : Option (Nat × Nat)) : State :=
  match task, (ctxOf s q.ctx).barriers.find? (fun x => x.2.1 == off), barrierBank s q.ctx with
  | none, _, _ => answered (tableSet s q (otherBarriers s q off)) q 2
  | some r, some x, _ => barrierBound s q off (x.1, off, r, [])
  | some r, none, some b => barrierBound s q off (b, off, r, [])
  | some _, none, none => answered (dropReq s q.id) q 1

theorem barrierInit_rebound (r : Nat × Nat) {x : Nat × Nat × (Nat × Nat) × List Nat}
    (bound : (ctxOf s q.ctx).barriers.find? (fun x => x.2.1 == off) = some x) :
    barrierInit s q off (some r) = barrierBound s q off (x.1, off, r, []) := by
  simp only [barrierInit, bound]

theorem barrierInit_new (r : Nat × Nat) {b : Nat} (unbound : (ctxOf s q.ctx).barriers.find? (fun x => x.2.1 == off) = none)
    (bank : barrierBank s q.ctx = some b) : barrierInit s q off (some r) = barrierBound s q off (b, off, r, []) := by
  simp only [barrierInit, unbound, bank]

theorem barrierInit_full (r : Nat × Nat) (unbound : (ctxOf s q.ctx).barriers.find? (fun x => x.2.1 == off) = none)
    (full : barrierBank s q.ctx = none) : barrierInit s q off (some r) = answered (dropReq s q.id) q 1 := by
  simp only [barrierInit, unbound, full]

theorem barrierBank_dropReq (id k : Nat) : barrierBank (dropReq s id) k = barrierBank s k := by
  obtain ⟨h, e⟩ := dropReq_eq s id
  rw [e]
  rfl

theorem tableSet_keeps (bs : List (Nat × Nat × (Nat × Nat) × List Nat)) : localView (tableSet s q bs) = localView s
    ∧ (tableSet s q bs).cores = s.cores ∧ (∀ p ∈ (tableSet s q bs).reqs, p.id ≠ q.id) ∧ (ctxOf (tableSet s q bs) q.ctx).barriers = bs := by
  obtain ⟨view, -, cores, gone⟩ := dropReq_keeps s q.id
  exact ⟨view, cores, gone, congrArg Ctx.barriers (ctxOf_setCtx_same ..)⟩

end

theorem exec_bbinitStep {s : State} {n off : Nat} {task : Option (Nat × Nat)} {q : Req} (at_ : s.reqs[n]? = some q)
    (kind : q.kind = .bbinit off task) (ready : reqReady s q = true) (slot : railSlot s 2 = true) :
    exec (.bbinitStep n) s = .next (committed s <| barrierInit s q off task) := by
  refine congrArg (commit s) ?_
  simp only [at_, kind, ready, slot, Bool.not_true, Bool.or_self, Bool.false_eq_true, if_false, barrierBank_dropReq]
  rfl

section
variable {s : State} {q : Req} (act : (frameOf s (ctxCore q.ctx) q.frame).act = q.act) (runs : (frameOf s (ctxCore q.ctx) q.frame).st ≠ .free)
include act runs

/-- The answer of a request that has left frames alone. -/
theorem performs_answered {u : State} (v : Nat) (gone : ∀ p ∈ u.reqs, p.id ≠ q.id) (cores : u.cores = s.cores) :
    Performs s (answered u q v) q v :=
  performs_answer gone (by rw [frameOf, frameOf, coreOf, coreOf, cores]) act runs

theorem barrierBound_spec {off l : Nat} (place : localLoc s (ctxCore q.ctx) (ctxOwner q.ctx) off = some l)
    (x : Nat × Nat × (Nat × Nat) × List Nat) : Performs s (barrierBound s q off x) q 0 ∧ WordWritten s (barrierBound s q off x) l 0
      ∧ (ctxOf (committed s (barrierBound s q off x)) q.ctx).barriers = otherBarriers s q off ++ [x] := by
  obtain ⟨view, cores, gone, table⟩ := tableSet_keeps s q (otherBarriers s q off ++ [x])
  have there : localLoc (tableSet s q (otherBarriers s q off ++ [x])) (ctxCore q.ctx) (ctxOwner q.ctx) off = some l :=
    (localLoc_of_view view ..).trans place
  obtain ⟨ctxs, -, reqs⟩ := hwLocal_keeps there (leBytes 0 8)
  have frame := (Spares.hwLocal (.refl (tableSet s q (otherBarriers s q off ++ [x]))) (ctxCore q.ctx) (ctxOwner q.ctx) off
    (leBytes 0 8)).frame (ctxCore q.ctx) q.frame
  have same : frameOf (tableSet s q (otherBarriers s q off ++ [x])) (ctxCore q.ctx) q.frame = frameOf s (ctxCore q.ctx) q.frame := by
    rw [frameOf, frameOf, coreOf, coreOf, cores]
  refine ⟨performs_answer (by rw [reqs]; exact gone) (frame.trans (congrArg lasting same)) act runs,
    ((wordWritten_hwLocal there 0).after view).then (answer_keeps ..).1, ?_⟩
  rw [ctxOf_committed, barrierBound, answered, ctxOf, (answer_keeps ..).2.1, ctxs, ← ctxOf, table]

end

/-- Settles O21: the instructions' checks are in one order, and each step answers its request and writes at most its word. -/
theorem bankRequestsAndSteps : Obligations.BankRequestsAndSteps := by
  refine ⟨fun s d a b => ?instructions, fun s n off amt l q f inv at_ ready slot aligned place is act runs => ?steps⟩
  case instructions =>
    intro va v c req waits
    obtain ⟨ill, misaligned, tinit⟩ := checked_outcomes (exec_tinit s d a b)
    obtain ⟨misaligned', bbinit⟩ := aligned_outcomes (exec_bbinit s d a b)
    obtain ⟨misaligned'', bbq⟩ := aligned_outcomes (exec_bbq s d a)
    have zero : v = 0 ↔ c = 0 := (BitVec.toNat_inj (y := 0#64)).symm
    have bound (aligned : va.toNat % 8 = 0) (record : c % 32 = 0) := (bbinit aligned).trans
      (congrArg (commit s) (if_neg fun h => h.2 record))
    refine ⟨ill, fun small => misaligned small.not_ge, fun small aligned => traps_of_not_own (tinit small.not_ge aligned),
      fun off small aligned own => ?_,
      fun h => ⟨misaligned' h, misaligned'' h⟩, fun aligned record => ?_, fun aligned record => traps_of_not_own (bound aligned record),
      fun aligned => traps_of_not_own (bbq aligned), fun off aligned own => ⟨fun none => ?_, fun record some_ => ?_, fun t record some_ target => ?_, ?_⟩⟩
    · have runs := exec_of_own (tinit small.not_ge aligned) own
      exact waits_of_bankRequest runs
    · have nonzero : v ≠ 0 := fun h => record (by rw [zero.1 h])
      exact (bbinit aligned).trans (congrArg (commit s) (if_pos ⟨nonzero, record⟩))
    · have runs := exec_of_own (bound aligned (by rw [none])) own
      rw [if_pos (zero.2 none)] at runs
      exact waits_of_bankRequest runs
    · have runs := exec_of_own (bound aligned record) own
      rw [if_neg (some_ ∘ zero.1)] at runs
      exact traps_of_elsewhere runs
    · have runs := exec_of_own (bound aligned record) own
      rw [if_neg (some_ ∘ zero.1)] at runs
      have runs := exec_of_target runs target
      exact waits_of_bankRequest runs
    · obtain ⟨quiet, -, -, pc⟩ := issueRead_keeps s (.loc s.cur.1 off) 8 false 1 d va
      have runs := exec_of_own (bbq aligned) own
      exact completes_of_retires runs (pc ▸ retires_retire4 _) quiet trivial
  case steps =>
    intro w got rest
    subst is
    have below : w < 2 ^ 64 := localWord_lt ..
    refine ⟨fun kind some_ small => ?tinit, fun task kind => ?bbinit⟩
    case tinit =>
      obtain ⟨view, ctxs, cores, gone⟩ := dropReq_keeps s q.id
      have kept : localView (recordAnswered s q off w) = localView s := (answer_keeps ..).1.trans view
      have there : localLoc (recordAnswered s q off w) (ctxCore q.ctx) (ctxOwner q.ctx) off = some l := (localLoc_of_view kept ..).trans place
      have written := (wordWritten_hwLocal there (initialWord q.lin w amt)).after kept
      have performs : Performs s (recordAnswered s q off w) q w :=
        performs_answered (u := setRecTag (dropReq s q.id) q.ctx off q.tag) act runs w gone cores
      have performed := performs.hwLocal there (leBytes (initialWord q.lin w amt) 8)
      obtain ⟨fits, fields⟩ := initialWord_fields q.lin small below
      exact ⟨committed s _, exec_tinitStep at_ kind ready slot some_, ⟨performed.committed.gone, performed.committed.owed⟩,
        written.rest inv, _, (written.word inv place aligned).trans (Nat.mod_eq_of_lt fits), fields⟩
    case bbinit =>
      intro bound others
      have answers {z : State} {v : Nat} (performed : Performs s z q v) : got (committed s z) v :=
        ⟨performed.committed.gone, performed.committed.owed⟩
      have still {z : State} (view : localView z = localView s) : rest (committed s z) := fun p _ =>
        quiet_committed (wbuf_of_view view) inv.wbuf p
      have cleared {z : State} (written : WordWritten s z l 0) : localWord (committed s z) (ctxCore q.ctx) (ctxOwner q.ctx) off = 0 :=
        written.word inv place aligned
      refine ⟨committed s _, exec_bbinitStep at_ kind ready slot, ?_⟩
      cases task with
      | none =>
        obtain ⟨view, cores, gone, table⟩ := tableSet_keeps s q others
        have performed := performs_answered act runs 2 gone cores
        have unbound : (ctxOf (committed s (answered (tableSet s q others) q 2)) q.ctx).barriers = others := by
          rw [ctxOf_committed, answered, ctxOf, (answer_keeps ..).2.1, ← ctxOf, table]
        exact ⟨still ((answer_keeps ..).1.trans view), fun _ => ⟨answers performed, unbound⟩, nofun, nofun, nofun⟩
      | some r =>
        cases found : bound with
        | some x =>
          rw [barrierInit_rebound s q off r found]
          obtain ⟨performed, written, table⟩ := barrierBound_spec act runs place (x.1, off, r, [])
          refine ⟨written.rest inv, nofun, ?_, nofun, nofun⟩
          rintro _ _ ⟨⟩ ⟨⟩
          exact ⟨answers performed, table, cleared written⟩
        | none =>
          cases bank : barrierBank s q.ctx with
          | some b =>
            rw [barrierInit_new s q off r found bank]
            obtain ⟨performed, written, table⟩ := barrierBound_spec act runs place (b, off, r, [])
            refine ⟨written.rest inv, nofun, nofun, ?_, nofun⟩
            rintro _ _ ⟨⟩ - ⟨⟩
            exact ⟨answers performed, table, cleared written⟩
          | none =>
            rw [barrierInit_full s q off r found bank]
            obtain ⟨view, ctxs, cores, gone⟩ := dropReq_keeps s q.id
            have performed := performs_answered act runs 1 gone cores
            have same : (ctxOf (committed s (answered (dropReq s q.id) q 1)) q.ctx).barriers = (ctxOf s q.ctx).barriers := by
              rw [ctxOf_committed, answered, ctxOf, (answer_keeps ..).2.1, ctxs, ← ctxOf]
            exact ⟨still ((answer_keeps ..).1.trans view), nofun, nofun, nofun, fun _ _ _ _ => ⟨answers performed, same⟩⟩

end Sys2Proof.Machine
end

section
/-! SUPPORT. Launch records: what an arm does, and the instructions that read and change records (R191, R197, R204). -/

namespace Sys2Proof.Machine

open Sys2Proof

/-! ### A message that sets out (R193, R195, R213) -/

/-- A message that sets out joins those of the fabric and takes its place at points; all else is as before. -/
theorem launch_eq (s : State) (m : Msg) : ∃ ps, launch s m = { s with net := s.net ++ [m], points := ps } := by
  unfold launch
  dsimp only
  split
  · exact ⟨s.points, rfl⟩
  · refine List.foldlRecOn (motive := fun u : State => ∃ ps, u = { s with net := s.net ++ [m], points := ps }) _ _ ⟨s.points, rfl⟩ ?_
    rintro _ ⟨ps, rfl⟩ _ -
    rw [requestAt.eq_def]
    split
    · exact ⟨_, rfl⟩
    · exact ⟨_, rfl⟩

/-! ### Arms and completion of a record (R191, R195) -/

section
variable (s : State) (i n : Nat)

theorem completeRec_eq : ∃ id net ps, completeRec s i n
    = { setRec s i n { recOf s i n with state := .done } with nextId := id, net := net, points := ps } := by
  unfold completeRec
  dsimp only
  split
  · exact ⟨s.nextId, s.net, s.points, rfl⟩
  · obtain ⟨ps, e⟩ := launch_eq { setRec s i n { recOf s i n with state := .done } with nextId := s.nextId + 1 }
      ⟨s.nextId, hwCtx (recOf s i n).owner, 0, 0, (doneTarget (recOf s i n).done).1, (recOf s i n).owner,
        .tdec (doneTarget (recOf s i n).done).2 1, unionNat (recOf s i n).armTag (recOf s i n).endTag⟩
    exact ⟨_, _, ps, e⟩

/-- A record that completes is Done, and else as it was. -/
@[simp] theorem recOf_completeRec : recOf (completeRec s i n) i n = { recOf s i n with state := .done } := by
  obtain ⟨id, net, ps, e⟩ := completeRec_eq s i n
  rw [e]
  exact recOf_setRec_same ..

variable (owner : Nat) (tag : List Nat)

/-- A record that an arm has taken: its counters are afresh. -/
def armed : LRec :=
  { recOf s i n with started := 0, ended := 0, errors := 0, arms := ((recOf s i n).arms + 1) % 2 ^ 32, owner := owner, nextL := 0,
                     armTag := tag, endTag := [], quanta := 0, lastReq := s.clk }

/-- Some level has more activations than its field of the work identifier can count. -/
def misfits (r : LRec) : Prop := ∃ j ∈ upto (fmtLevels r.fmt), 2 ^ fmtWidthOf r.fmt j < levelCount r j

/-- Some level has no activation. -/
def isEmpty (r : LRec) : Prop := ∃ j ∈ upto (fmtLevels r.fmt), levelCount r j = 0

/-- A deterministic record whose owner runs another one. -/
def excluded : Prop := (recOf s i n).det = true ∧ ∃ p ∈ (ifaceOf s i).records, p.1 ≠ n ∧ p.2.owner = owner ∧ p.2.det = true
  ∧ p.2.state = .running

/-- A deterministic launch begins its first quantum. -/
def armStart : State := if (recOf s i n).det then clearQret s owner else s

theorem any_misfits (r : LRec) : ((upto (fmtLevels r.fmt)).any fun j => decide (2 ^ fmtWidthOf r.fmt j < levelCount r j)) = true ↔ misfits r := by
  simp only [misfits, List.any_eq_true, decide_eq_true_eq]

theorem any_isEmpty (r : LRec) : ((upto (fmtLevels r.fmt)).any fun j => levelCount r j == 0) = true ↔ isEmpty r := by
  simp only [isEmpty, List.any_eq_true, beq_iff_eq]

theorem any_excluded : ((recOf s i n).det && ((ifaceOf s i).records.any fun p => p.1 != n && p.2.owner == owner && p.2.det
    && p.2.state == .running)) = true ↔ excluded s i n owner := by
  simp only [excluded, Bool.and_eq_true, List.any_eq_true, bne_iff_ne, beq_iff_eq, and_assoc]

variable {s i n owner tag}

theorem applyArm_unbuilt (h : (recOf s i n).state = .unbuilt) : applyArm s i n owner tag = (s, none) := if_pos h

theorem applyArm_running (h : (recOf s i n).state = .running) : applyArm s i n owner tag = (s, some 1) := by
  simp [applyArm, h]

section
variable (built : (recOf s i n).state ≠ .unbuilt) (stopped : (recOf s i n).state ≠ .running)
include built stopped

theorem applyArm_misfits (h : misfits (recOf s i n)) :
    applyArm s i n owner tag = (setRec s i n { recOf s i n with state := .faulted }, none) := by
  simp only [applyArm, if_neg built, if_neg stopped, if_pos ((any_misfits _).2 h)]

variable (fits : ¬misfits (recOf s i n))
include fits

theorem applyArm_excluded (h : excluded s i n owner) : applyArm s i n owner tag = (s, some 3) := by
  simp only [applyArm, if_neg built, if_neg stopped, if_neg (mt (any_misfits _).1 fits), if_pos ((any_excluded ..).2 h)]

variable (alone : ¬excluded s i n owner)
include alone

theorem applyArm_isEmpty (h : isEmpty (recOf s i n)) :
    applyArm s i n owner tag = (completeRec (setRec (armStart s i n owner) i n (armed s i n owner tag)) i n, some 2) := by
  have none_ : ((upto (fmtLevels (armed s i n owner tag).fmt)).any fun j => levelCount (armed s i n owner tag) j == 0) = true :=
    (any_isEmpty (recOf s i n)).2 h
  simp only [applyArm, if_neg built, if_neg stopped, if_neg (mt (any_misfits _).1 fits), if_neg (mt (any_excluded ..).1 alone)]
  exact if_pos none_

theorem applyArm_starts (h : ¬isEmpty (recOf s i n)) :
    applyArm s i n owner tag = (setRec (armStart s i n owner) i n { armed s i n owner tag with state := .running }, some 0) := by
  have some_ : ((upto (fmtLevels (armed s i n owner tag).fmt)).any fun j => levelCount (armed s i n owner tag) j == 0) ≠ true :=
    mt (any_isEmpty (recOf s i n)).1 h
  simp only [applyArm, if_neg built, if_neg stopped, if_neg (mt (any_misfits _).1 fits), if_neg (mt (any_excluded ..).1 alone)]
  exact if_neg some_

end

variable (s i n owner tag)

/-- An arm touches contexts, records and the fabric alone. -/
theorem applyArm_eq : ∃ id ctxs net ps ifaces, (applyArm s i n owner tag).1
    = { s with nextId := id, ctxs := ctxs, net := net, points := ps, ifaces := ifaces } := by
  have still : ∃ id ctxs net ps ifaces, s = { s with nextId := id, ctxs := ctxs, net := net, points := ps, ifaces := ifaces } :=
    ⟨s.nextId, s.ctxs, s.net, s.points, s.ifaces, rfl⟩
  have start : ∃ c, armStart s i n owner = { s with ctxs := c } := by
    unfold armStart
    split
    · exact ⟨_, rfl⟩
    · exact ⟨s.ctxs, rfl⟩
  obtain ⟨c, start⟩ := start
  by_cases unbuilt : (recOf s i n).state = .unbuilt
  · rwa [applyArm_unbuilt unbuilt]
  by_cases running : (recOf s i n).state = .running
  · rwa [applyArm_running running]
  by_cases big : misfits (recOf s i n)
  · rw [applyArm_misfits unbuilt running big]
    exact ⟨s.nextId, s.ctxs, s.net, s.points, _, rfl⟩
  by_cases other : excluded s i n owner
  · rwa [applyArm_excluded unbuilt running big other]
  by_cases empty : isEmpty (recOf s i n)
  · rw [applyArm_isEmpty unbuilt running big other empty, start]
    obtain ⟨id, net, ps, e⟩ := completeRec_eq (setRec { s with ctxs := c } i n (armed s i n owner tag)) i n
    exact ⟨id, c, net, ps, _, e⟩
  · rw [applyArm_starts unbuilt running big other empty, start]
    exact ⟨s.nextId, c, s.net, s.points, _, rfl⟩

theorem applyArm_keeps : (applyArm s i n owner tag).1.wbuf = s.wbuf ∧ (applyArm s i n owner tag).1.clk = s.clk
    ∧ curPc (applyArm s i n owner tag).1 = curPc s := by
  obtain ⟨id, ctxs, net, ps, ifaces, e⟩ := applyArm_eq s i n owner tag
  rw [e]
  exact ⟨rfl, rfl, rfl⟩

end

/-! ### Instructions that owe a value known at issue (R133) -/

theorem parkValue_eq (s : State) (d : Reg) (v : Word) :
    ∃ id cores ctxs, parkValue s d v = { s with nextId := id, cores := cores, ctxs := ctxs } := by
  have e := parkAnswer_rest (owe { s with nextId := s.nextId + 1 } d s.nextId (some v)) s.nextId
  exact ⟨_, _, _, congrArg (fun z : State => { z with cores := (parkValue s d v).cores, ctxs := (parkValue s d v).ctxs }) e⟩

section
variable {s u : State} {i : Instr} {d : Reg} {v : Word}

theorem completesOwing_of_parkValue {P : State → Prop} (runs : exec i s = commit s (parkValue u d v)) (quiet : u.wbuf = s.wbuf)
    (clk : u.clk = s.clk) (pc : curPc u = curPc s) (holds : P (committed s (parkValue u d v))) : CompletesOwing i s u d v P :=
  completesWaiting_of_parkAnswer runs quiet clk ((curPc_owe ..).trans pc) holds

theorem completesOwing_of_still (runs : exec i s = commit s (parkValue s d v)) : CompletesOwing i s s d v fun _ => True :=
  completesOwing_of_parkValue runs rfl rfl rfl trivial

theorem ifaces_parkValue (s : State) (d : Reg) (v : Word) : (committed s (parkValue u d v)).ifaces = u.ifaces := by
  obtain ⟨id, cores, ctxs, e⟩ := parkValue_eq u d v
  rw [e]
  rfl

end

end Sys2Proof.Machine
end

section
/-! SUPPORT. The launch instructions outside a deterministic lineage (R191, R197, R204). -/

namespace Sys2Proof.Machine

open Sys2Proof

/-- How `larm` ends: a trap, or the status. -/
def armAnswered (d : Reg) (r : State × Option Nat) : State :=
  match r.2 with
  | none => trap r.1 0x0A 0 0
  | some v => parkValue r.1 d (word v)

/-- The change that `lpatch` makes to a record that it may change. -/
def patch (s : State) (d : Reg) (i n f : Nat) (v : Word) : State :=
  if f = 0 then parkValue (setRec s i n { recOf s i n with param := v }) d 0
  else if f = 1 then (if doneOk v then parkValue (setRec s i n { recOf s i n with done := v }) d 0 else parkValue s d 2)
  else if f = 8 then
    (if rangeOk v.toNat (recOf s i n).ncores then parkValue (setRec s i n { recOf s i n with first := v.toNat }) d 0 else parkValue s d 2)
  else if f = 9 then
    (if rangeOk (recOf s i n).first v.toNat then parkValue (setRec s i n { recOf s i n with ncores := v.toNat }) d 0 else parkValue s d 2)
  else parkValue (setRec s i n
    { recOf s i n with counts := (upto 6).map fun j => if j + 2 = f then v else (recOf s i n).counts.getD j 0 }) d 0

section
variable (s : State) (d a b : Reg)

theorem exec_larm (h : detLin s (curFrame s).lin = false ∨ inHandler s = true) :
    exec (.larm d a) s = commit s (if 2 ^ 10 ≤ (rd s a).toNat then illOperand s
      else afterRelease s fun s => armAnswered d (applyArm (clearWait s) (curIface s) (rd s a).toNat (curOwner s) (ctxOf s (curCtx s)).known)) := by
  have now : (detLin s (curFrame s).lin && !inHandler s) = false := by
    obtain h | h := h <;> simp [h]
  refine congrArg (commit s) ?_
  simp only [now, Bool.false_eq_true, if_false]
  rfl

theorem exec_lstat : exec (.lstat d a b) s = commit s (if 2 ^ 10 ≤ (rd s a).toNat ∨ 2 ^ 5 ≤ (rd s b).toNat then illOperand s
    else parkValue s d (recWord (recOf s (curIface s) (rd s a).toNat) (rd s b).toNat)) := rfl

theorem exec_lpatch : exec (.lpatch d a b) s = commit s
    (if bits (rd s a) 15 10 ≠ 0 ∨ 2 ^ 20 ≤ (rd s a).toNat ∨ 10 ≤ bits (rd s a) 19 16 then illOperand s
    else if (recOf s (curIface s) (bits (rd s a) 9 0)).state = .unbuilt then parkValue s d 3
    else if (recOf s (curIface s) (bits (rd s a) 9 0)).state = .running then parkValue s d 1
    else patch s d (curIface s) (bits (rd s a) 9 0) (bits (rd s a) 19 16) (rd s b)) := rfl

theorem exec_widf : exec (.widf d a) s = commit s (if 8 ≤ (rd s a).toNat then illOperand s
    else finish s d (if (rd s a).toNat < fmtLevels (curFrame s).wfmt then
      word ((curFrame s).wid.toNat / 2 ^ widthsBelow (curFrame s).wfmt (rd s a).toNat % 2 ^ fmtWidthOf (curFrame s).wfmt (rd s a).toNat)
      else 0)) := by
  refine congrArg (commit s) ?_
  simp only [← not_lt, ite_not]

end

section
variable {s : State} {d a b : Reg} {i n f : Nat} {v : Word}

theorem patch_param (h : f = 0) : patch s d i n f v = parkValue (setRec s i n { recOf s i n with param := v }) d 0 := if_pos h

theorem patch_done (h : f = 1) : patch s d i n f v
    = if doneOk v then parkValue (setRec s i n { recOf s i n with done := v }) d 0 else parkValue s d 2 := by
  subst h
  rfl

theorem patch_first (h : f = 8) : patch s d i n f v = if rangeOk v.toNat (recOf s i n).ncores
    then parkValue (setRec s i n { recOf s i n with first := v.toNat }) d 0 else parkValue s d 2 := by
  subst h
  rfl

theorem patch_ncores (h : f = 9) : patch s d i n f v = if rangeOk (recOf s i n).first v.toNat
    then parkValue (setRec s i n { recOf s i n with ncores := v.toNat }) d 0 else parkValue s d 2 := by
  subst h
  rfl

theorem patch_count (lo : 2 ≤ f) (hi : f ≤ 7) : patch s d i n f v = parkValue (setRec s i n
    { recOf s i n with counts := (upto 6).map fun j => if j + 2 = f then v else (recOf s i n).counts.getD j 0 }) d 0 := by
  rw [patch, if_neg, if_neg, if_neg, if_neg] <;> omega

/-- What an arm answers and leaves of the record, as `larm` takes it. -/
theorem completes_larm {z : State} {v : Nat} {P : State → Prop} {i n owner : Nat} {tag : List Nat}
    (runs : exec (.larm d a) s = commit s (armAnswered d (applyArm (clearWait s) i n owner tag)))
    (is : applyArm (clearWait s) i n owner tag = (z, some v)) (holds : ∀ t, t.ifaces = z.ifaces → P t) :
    CompletesOwing (.larm d a) s (applyArm (clearWait s) i n owner tag).1 d (word v) P := by
  obtain ⟨quiet, clk, pc⟩ := applyArm_keeps (clearWait s) i n owner tag
  have same : curPc (clearWait s) = curPc s := (moves_setCur s ready rfl rfl).pc
  rw [is] at runs quiet clk pc ⊢
  exact completesOwing_of_parkValue runs quiet clk (pc.trans same) (holds _ (ifaces_parkValue ..))

theorem exec_qsync_plain (plain : detLin s (curFrame s).lin = false) : exec (.qsync d) s = commit s (finish s d 0) := by
  refine congrArg (commit s) ?_
  unfold detLin at plain
  split
  · rfl
  · next is => rw [is] at plain; simp [plain]

theorem afterRelease_waits (h : ¬released s) (k : State → State) :
    afterRelease s k = park s [.settled (releaseAfter s).1 (releaseAfter s).2] :=
  if_neg (by simpa [released] using h)

theorem recOf_of_ifaces_eq {t z : State} (h : t.ifaces = z.ifaces) (i n : Nat) : recOf t i n = recOf z i n := by
  rw [recOf, recOf, ifaceOf, ifaceOf, h]

end

/-- Settles O23: an arm by the rows of its table in their order; the other instructions by their checks. -/
theorem launchRecords : Obligations.LaunchRecords := by
  intro s d a b outside x v k i ill
  refine ⟨fun big => ⟨?_, ?_⟩, fun small => ?larm, ?lpatch, fun small => ?_, fun big => ?_, fun plain => ?_⟩
  case larm =>
    intro n r rel levels tooBig zero other u fresh
    have checked := (exec_larm s d a outside).trans (congrArg (commit s) (if_neg small.not_ge))
    have runs (go : rel) := checked.trans (congrArg (commit s) (afterRelease_released go _))
    have traps {z : State × Option Nat} (go : rel) (is : applyArm (clearWait s) i n (curOwner s) (ctxOf s k).known = z) :=
      (runs go).trans (congrArg (fun z => commit s (armAnswered d z)) is)
    refine ⟨fun wait => ?_, fun go unbuilt => ?_, fun go running => ?_, fun go built stopped big => ?_,
      fun go built stopped fits busy => ?_, fun go built stopped fits alone none_ => ?_, fun go built stopped fits alone some_ => ?_,
      fun few => ?_, fun many => ?_⟩
    · exact parks_of_park (checked.trans (congrArg (commit s) (afterRelease_waits wait _)))
    · exact traps go (applyArm_unbuilt unbuilt)
    · exact completes_larm (runs go) (applyArm_running running) fun t same => same
    · exact traps go (applyArm_misfits built stopped big)
    · exact completes_larm (runs go) (applyArm_excluded built stopped fits busy) fun t same => same
    · refine completes_larm (runs go) (applyArm_isEmpty built stopped fits alone none_) fun t same => ?_
      simp only [fresh]
      rw [recOf_of_ifaces_eq same, recOf_completeRec, recOf_setRec_same]
      exact ⟨rfl, rfl, rfl, rfl, rfl, rfl⟩
    · refine completes_larm (runs go) (applyArm_starts built stopped fits alone some_) fun t same => ?_
      simp only [fresh]
      rw [recOf_of_ifaces_eq same, recOf_setRec_same]
      exact ⟨rfl, rfl, rfl, rfl, rfl, rfl⟩
    · exact completesOwing_of_still ((exec_lstat s d a b).trans (congrArg (commit s) (if_neg (not_or.2 ⟨small.not_ge, few.not_ge⟩))))
    · exact (exec_lstat s d a b).trans (congrArg (commit s) (if_pos (.inr many)))
  case lpatch =>
    intro f n r ok free writes refuses
    have checked (h : ok) := (exec_lpatch s d a b).trans (congrArg (commit s) (if_neg fun bad => by
      obtain ⟨low, high, field⟩ := h
      exact bad.elim (· low) fun bad => bad.elim high.not_ge field.not_ge))
    have runs (h : ok) (at_ : free) : exec (.lpatch d a b) s = commit s (patch s d i n f v) := by
      obtain ⟨built, stopped⟩ := at_
      exact (checked h).trans (congrArg (commit s) ((if_neg built).trans (if_neg stopped)))
    have writes_ {r' : LRec} (h : ok) (at_ : free) (is : patch s d i n f v = parkValue (setRec s i n r') d 0) : writes r' :=
      completesOwing_of_parkValue ((runs h at_).trans (congrArg (commit s) is)) rfl rfl rfl trivial
    have refuses_ (h : ok) (at_ : free) (is : patch s d i n f v = parkValue s d 2) : refuses 2 :=
      completesOwing_of_still ((runs h at_).trans (congrArg (commit s) is))
    refine ⟨fun bad => (exec_lpatch s d a b).trans (congrArg (commit s) (if_pos ?_)), fun h unbuilt => completesOwing_of_still ?_,
      fun h running => completesOwing_of_still ?_, fun h at_ is => writes_ h at_ (patch_param is),
      fun h at_ is good => writes_ h at_ ((patch_done is).trans (if_pos good)),
      fun h at_ is bad => refuses_ h at_ ((patch_done is).trans (if_neg (ne_true_of_eq_false bad))),
      fun h at_ lo hi => writes_ h at_ (patch_count lo hi),
      fun h at_ is good => writes_ h at_ ((patch_first is).trans (if_pos good)),
      fun h at_ is bad => refuses_ h at_ ((patch_first is).trans (if_neg (ne_true_of_eq_false bad))),
      fun h at_ is good => writes_ h at_ ((patch_ncores is).trans (if_pos good)),
      fun h at_ is bad => refuses_ h at_ ((patch_ncores is).trans (if_neg (ne_true_of_eq_false bad)))⟩
    · simpa only [ok, f, not_and_or, not_lt] using bad
    · exact (checked h).trans (congrArg (commit s) (if_pos unbuilt))
    · refine (checked h).trans (congrArg (commit s) ((if_neg ?_).trans (if_pos running)))
      exact fun unbuilt => absurd (unbuilt.symm.trans running) (by decide)
  · exact (exec_larm s d a outside).trans (congrArg (commit s) (if_pos big))
  · exact (exec_lstat s d a b).trans (congrArg (commit s) (if_pos (.inl big)))
  · have runs := exec_widf s d a
    rw [if_neg small.not_ge] at runs
    exact completes_of_retires runs (retires_finish ..) rfl (rd_finish _ d _)
  · exact (exec_widf s d a).trans (congrArg (commit s) (if_pos big))
  · exact completes_of_retires (exec_qsync_plain plain) (retires_finish ..) rfl (rd_finish _ d _)

end Sys2Proof.Machine
end

section
/-! SUPPORT. `larm` and `qsync` in a deterministic lineage (R202, R204). -/

namespace Sys2Proof.Machine

open Sys2Proof

/-- After an instruction has retired, a change of the issuing frame beside its registers and PC. -/
theorem Retires.setCur {u t : State} {g k : Frame → Frame} {ds : List Reg} {pc : Word} (h : Retires u t g ds pc)
    (bare : ∀ x y, bareFrame x = bareFrame y → bareFrame (k x) = bareFrame (k y)) (regs : ∀ x, (k x).regs = x.regs)
    (at_ : ∀ x, (k x).pc = x.pc) : Retires u (setCur t (k (curFrame t))) (k ∘ g) ds pc := by
  have after := h.moves.trans (moves_setCur t k (regs _) (at_ _)) bare
  rw [h.moves.pc, List.append_nil] at after
  exact ⟨after, h.qret⟩

theorem ctxs_parkAnswer (s : State) (id : Nat) : (parkAnswer s id).ctxs = s.ctxs := by
  unfold parkAnswer setPc
  dsimp only
  split <;> rfl

/-- An arm that is held retires as it issues, and its frame waits for the status. -/
theorem retires_heldArm (u : State) (id : Nat) : Retires u (setCur (countRetire (parkAnswer u id))
    { curFrame (countRetire (parkAnswer u id)) with retDue := false }) (fun f => { waiting [.answer id] u.clk f with retDue := false }) []
    (curPc u + 4) :=
  ((moves_parkedAfter u [.answer id]).retire (fun _ => rfl) (fun _ => rfl) (ctxs_parkAnswer u id)).setCur
    (k := fun f => { f with retDue := false }) (fun _ _ h => congrArg (fun f : Frame => { f with retDue := false }) h)
    (fun _ => rfl) (fun _ => rfl)

/-- The frame parked on conditions, its instruction retired already. -/
def parkedOver (cs : List Cond) (clk : Nat) (f : Frame) : Frame := { f with st := .parked cs, since := clk, retDue := false }

/-- An instruction that owes an answer and retires, its frame parked on conditions. -/
theorem retires_owe_parkedOver (u : State) (d : Reg) (id : Nat) (cs : List Cond) (clk : Nat) :
    Retires u (setCur (retire4 (owe u d id none)) (parkedOver cs clk (curFrame (retire4 (owe u d id none)))))
      (parkedOver cs clk ∘ owing (inHandler u) d id none) [] (curPc u + 4) :=
  ((moves_setCur u (owing (inHandler u) d id none) rfl rfl).retire4 (fun _ => rfl) (fun _ => rfl) rfl).setCur
    (fun _ _ h => congrArg (parkedOver cs clk) h) (fun _ => rfl) (fun _ => rfl)

/-- An arm of a lineage is held with the release condition of its issue. -/
def armHeld (s : State) (i n v : Nat) : State :=
  { s with nextId := s.nextId + 1, held := s.held ++
    [{ iface := i, index := n, core := ctxCore (curCtx s), act := (curFrame s).act, seq := s.nextId, ctx := curCtx s, frame := s.cur.2,
       state := 0, arm := some v, entry := some { msgEntry s 0 0 (.leave 0 0) with body := .marker }, tag := (ctxOf s (curCtx s)).known }] }

section
variable {s : State} {d a : Reg} {i n : Nat} (lineage : (curFrame s).lin.launch = some (i, n)) (det : (recOf s i n).det = true)
include lineage det

theorem exec_larm_held (outside : inHandler s = false) (small : (rd s a).toNat < 2 ^ 10) :
    let z := countRetire (parkAnswer (owe (armHeld s i n (rd s a).toNat) d s.nextId none) s.nextId)
    exec (.larm d a) s = commit s (setCur z { curFrame z with retDue := false }) := by
  have held : (detLin s (curFrame s).lin && !inHandler s) = true := by rw [detLin, lineage, outside]; simpa using det
  refine congrArg (commit s) ?_
  simp only [if_neg small.not_ge, held, if_true, holdForQuantum, lineage]
  rfl

theorem exec_qsync_held : exec (.qsync d) s = commit s (setCur (retire4 (owe { s with nextId := s.nextId + 1 } d s.nextId none))
    (parkedOver [.quantum i n (recOf s i n).quanta s.nextId] s.clk
      (curFrame (retire4 (owe { s with nextId := s.nextId + 1 } d s.nextId none))))) := by
  have moves := ((moves_setCur { s with nextId := s.nextId + 1 } (owing (inHandler s) d s.nextId none) rfl rfl).retire4 (fun _ => rfl)
    (fun _ => rfl) rfl).moves
  have same : recOf (retire4 (owe { s with nextId := s.nextId + 1 } d s.nextId none)) i n = recOf s i n :=
    recOf_of_ifaces_eq (congrArg State.ifaces moves.rest :) i n
  have clk := moves.clk
  refine congrArg (commit s) ?_
  simp only [lineage, det, Bool.not_true, Bool.false_eq_true, if_false]
  rw [same]
  exact congrArg (fun c => setCur _ (parkedOver _ c _)) clk

end

/-- Settles O24: both retire at once, and the arm is held. -/
theorem deterministicLaunch : Obligations.DeterministicLaunch := by
  refine fun s d a i n lineage det => ⟨fun outside small => ?_, ?_⟩
  · have pc : curPc (owe (armHeld s i n (rd s a).toNat) d s.nextId none) = curPc s := curPc_owe ..
    have retires := retires_heldArm (owe (armHeld s i n (rd s a).toNat) d s.nextId none) s.nextId
    rw [pc] at retires
    exact ⟨_, exec_larm_held lineage det outside small, retires.committed⟩
  · exact ⟨_, exec_qsync_held lineage det, (retires_owe_parkedOver ..).committed⟩

end Sys2Proof.Machine
end

section
/-! SUPPORT. Starts that arrive, end notices, and requests that an ended quantum sends (R179, R194, R195, R202). -/

namespace Sys2Proof.Machine

open Sys2Proof

/-! ### A start reaches its core (R179) -/

section
variable (s : State) (c : Nat)

theorem lastingCore_wakeCore (k : Nat) : lastingCore (coreOf (wakeCore s c) k) = lastingCore (coreOf s k) := by
  rw [wakeCore, coreOf_setCore]
  split
  · next e => rw [e]; rfl
  · rfl

@[simp] theorem frameOf_wakeCore (k f : Nat) : frameOf (wakeCore s c) k f = frameOf s k f :=
  frameOf_setCore_frames s c { coreOf s c with wakes := (coreOf s c).wakes + 1 } rfl k f

@[simp] theorem banksOf_wakeCore (k o : Nat) : banksOf (wakeCore s c) k o = banksOf s k o := by
  rw [banksOf, banksOf, banks_of_lastingCore (lastingCore_wakeCore s c k)]

@[simp] theorem runqBank_wakeCore (k : Nat) : runqBank (wakeCore s c) k = runqBank s k := by
  rw [runqBank, runqBank, banksOf_wakeCore]
  rfl

@[simp] theorem freeFrame_wakeCore (k o : Nat) (early : Bool) : freeFrame (wakeCore s c) k o early = freeFrame s k o early := by
  simp only [freeFrame, earlyIn, banksOf_wakeCore, frameOf_wakeCore]
  rfl

/-- A wake event opens or closes no run queue. -/
@[simp] theorem runqOpen_wakeCore (k : Nat) (st : Start) : runqOpen (wakeCore s c) k st = runqOpen s k st := by
  simp only [runqOpen, handlerWaits, freeFrame_wakeCore, runqBank_wakeCore]
  rfl

end

section
variable {s : State} {n : Nat} {m : Msg} {st : Start} (at_ : s.net[n]? = some m) (body : m.body = .start st)
include at_ body

theorem exec_startRequestArrival (turn : inOrder s m = true) (served : standsAt s m.id = false) (room : startRoom s m.core st = true) :
    exec (.startRequestArrival n) s = .next (committed s <| queueStart (wakeCore { s with net := dropAt s.net n } m.core) m st) := by
  refine congrArg (commit s) ?_
  simp only [at_, body, turn, served, room, Bool.not_false, Bool.and_self, if_true]
  rfl

/-- With room in a bank's segment, the start joins the run queue. -/
theorem arrives_in_runq {b : Nat} (turn : inOrder s m = true) (served : standsAt s m.id = false) (opens : runqOpen s m.core st = true)
    (bank : runqBank s (ctxKey m.core st.owner) = some b) :
    ∃ t, exec (.startRequestArrival n) s = .next t ∧ t.net = dropAt s.net n
      ∧ (ctxOf t (ctxKey m.core st.owner)).runq = (ctxOf s (ctxKey m.core st.owner)).runq ++ [(b, st)] := by
  have room : startRoom s m.core st = true := by rw [startRoom, opens]; rfl
  refine ⟨_, exec_startRequestArrival at_ body turn served room, ?_⟩
  have opens' : runqOpen (wakeCore { s with net := dropAt s.net n } m.core) m.core st = true := (runqOpen_wakeCore ..).trans opens
  have bank' : runqBank (wakeCore { s with net := dropAt s.net n } m.core) (ctxKey m.core st.owner) = some b :=
    (runqBank_wakeCore ..).trans bank
  rw [queueStart, if_pos opens', pushRunq]
  simp only [bank', ctxOf_committed, ctxOf_setCtx_same]
  exact ⟨rfl, rfl⟩

/-- Else it waits in the inbound queue of the core's ring. -/
theorem arrives_inbound (turn : inOrder s m = true) (served : standsAt s m.id = false) (closed : runqOpen s m.core st = false)
    (room : (ringOf s (ringOfCore s m.core)).inbound.length < 256) :
    ∃ t, exec (.startRequestArrival n) s = .next t ∧ t.net = dropAt s.net n
      ∧ (ringOf t (ringOfCore s m.core)).inbound = (ringOf s (ringOfCore s m.core)).inbound ++ [(st.owner, .msg m)] := by
  have room : startRoom s m.core st = true := by rw [startRoom, closed]; exact decide_eq_true room
  refine ⟨_, exec_startRequestArrival at_ body turn served room, ?_⟩
  have closed' : runqOpen (wakeCore { s with net := dropAt s.net n } m.core) m.core st ≠ true :=
    ne_true_of_eq_false ((runqOpen_wakeCore ..).trans closed)
  rw [queueStart, if_neg closed', ringOf_committed]
  exact ⟨rfl, congrArg RingSt.inbound (ringOf_setRing_same ..)⟩

end

/-! ### End notices (R194, R195) -/

theorem sends_endNotice {s : State} {n : Nat} {m : Msg} {after : List Nat} (at_ : s.notices[n]? = some (m, after))
    (settled : ∀ e ∈ (ctxOf s m.ctx).queue, e.id ∉ after) :
    ∃ t, exec (.endNoticeSend n) s = .next t ∧ t.net = s.net ++ [m] ∧ t.notices = dropAt s.notices n := by
  have all : ((ctxOf s m.ctx).queue.all fun e => !after.contains e.id) = true := by simpa using settled
  have runs : exec (.endNoticeSend n) s = .next (committed s <| launch { s with notices := dropAt s.notices n } m) := by
    refine congrArg (commit s) ?_
    simp only [at_, all, if_true]
  obtain ⟨ps, e⟩ := launch_eq { s with notices := dropAt s.notices n } m
  rw [e] at runs
  exact ⟨_, runs, rfl, rfl⟩

/-- A record without a completion record sends nothing as it completes. -/
theorem net_completeRec_none {s : State} {i n : Nat} (none_ : (recOf s i n).done = 0) : (completeRec s i n).net = s.net := by
  rw [completeRec, if_pos none_]
  rfl

/-- Else one decrement of one, to that record. -/
theorem net_completeRec_some {s : State} {i n : Nat} (some_ : (recOf s i n).done ≠ 0) : ∃ g : Msg, (completeRec s i n).net = s.net ++ [g]
    ∧ g.core = (doneTarget (recOf s i n).done).1 ∧ g.body = .tdec (doneTarget (recOf s i n).done).2 1 := by
  rw [completeRec, if_neg some_, sendMsg, launch_net]
  exact ⟨_, rfl, rfl, rfl⟩

/-- A record with one more notice of its arm. -/
def noticed (r : LRec) (tag : List Nat) : LRec := { r with ended := r.ended + 1, endTag := unionNat r.endTag tag }

theorem countsBelow_noticed (r : LRec) (tag : List Nat) (j : Nat) : countsBelow (noticed r tag) j = countsBelow r j := by
  induction j with
  | zero => rfl
  | succ j ih => rw [countsBelow, countsBelow, ih]; rfl

@[simp] theorem armSize_noticed (r : LRec) (tag : List Nat) : armSize (noticed r tag) = armSize r := countsBelow_noticed ..

/-- A notice has left the fabric and is counted. -/
def noticeTaken (s : State) (n i j : Nat) (tag : List Nat) : State :=
  setRec { s with net := dropAt s.net n } i j (noticed (recOf s i j) tag)

theorem recOf_noticeTaken (s : State) (n i j : Nat) (tag : List Nat) :
    recOf (noticeTaken s n i j tag) i j = noticed (recOf s i j) tag := recOf_setRec_same ..

theorem exec_endNoticeArrival {s : State} {n i j arm : Nat} {m : Msg} (at_ : s.net[n]? = some m) (body : m.body = .endNotice i j arm)
    (served : standsAt s m.id = false) (running : (recOf s i j).state = .running) (own : (recOf s i j).arms = arm) :
    exec (.endNoticeArrival n) s = .next (committed s <| if (recOf s i j).ended + 1 = armSize (recOf s i j)
      then completeRec (noticeTaken s n i j m.tag) i j else noticeTaken s n i j m.tag) := by
  refine congrArg (commit s) ?_
  have takes : ¬((recOf { s with net := dropAt s.net n } i j).state ≠ .running ∨ (recOf { s with net := dropAt s.net n } i j).arms ≠ arm) :=
    fun h => h.elim (· running) (· own)
  rw [← armSize_noticed _ m.tag]
  simp only [at_, body, served, Bool.false_eq_true, if_false]
  exact if_neg takes

section
variable {s : State} {n i j arm : Nat} {m : Msg} (at_ : s.net[n]? = some m) (body : m.body = .endNotice i j arm)
  (served : standsAt s m.id = false) (running : (recOf s i j).state = .running) (own : (recOf s i j).arms = arm)
include at_ body served running own

/-- A notice that is not the last of its arm is counted. -/
theorem counts_endNotice (more : (recOf s i j).ended + 1 ≠ armSize (recOf s i j)) :
    ∃ t, exec (.endNoticeArrival n) s = .next t ∧ recOf t i j = noticed (recOf s i j) m.tag ∧ t.net = dropAt s.net n := by
  have runs := exec_endNoticeArrival at_ body served running own
  rw [if_neg more] at runs
  exact ⟨_, runs, recOf_noticeTaken .., rfl⟩

/-- The last one completes the record. -/
theorem completes_endNotice (last : (recOf s i j).ended + 1 = armSize (recOf s i j)) :
    ∃ t, exec (.endNoticeArrival n) s = .next t ∧ recOf t i j = { noticed (recOf s i j) m.tag with state := .done }
      ∧ ((recOf s i j).done = 0 → t.net = dropAt s.net n)
      ∧ ((recOf s i j).done ≠ 0 → ∃ g : Msg, t.net = dropAt s.net n ++ [g]
          ∧ g.core = (doneTarget (recOf s i j).done).1 ∧ g.body = .tdec (doneTarget (recOf s i j).done).2 1) := by
  have runs := exec_endNoticeArrival at_ body served running own
  rw [if_pos last] at runs
  have is := recOf_noticeTaken s n i j m.tag
  have done : (recOf (noticeTaken s n i j m.tag) i j).done = (recOf s i j).done := by rw [is]; rfl
  refine ⟨_, runs, (recOf_completeRec ..).trans (by rw [is]), fun none_ => net_completeRec_none (done.trans none_), fun some_ => ?_⟩
  have sent := net_completeRec_some (s := noticeTaken s n i j m.tag) (i := i) (n := j) (by rwa [done])
  rw [done] at sent
  exact sent

end

/-! ### Requests of an ended quantum (R202) -/

theorem quantumCtx_parts {iface index : Nat} (small : index < 1024) : ¬quantumCtx iface index < quantumCtx 0 0
    ∧ (quantumCtx iface index - quantumCtx 0 0) / 1024 = iface ∧ (quantumCtx iface index - quantumCtx 0 0) % 1024 = index := by
  unfold quantumCtx
  omega

/-- A held request is under way: its state says so. -/
def heldSent (s : State) (h : HeldReq) : List HeldReq :=
  (s.held.filter fun x => x.state != 2 || onItsWay s x).filterMap fun x =>
    if x.seq ≠ h.seq then some x else if h.arm.isSome then none else some { x with state := 2 }

theorem state_of_heldSent {s : State} {h x : HeldReq} (mem : x ∈ heldSent s h) (same : x.seq = h.seq) : x.state = 2 := by
  obtain ⟨y, -, is⟩ := List.mem_filterMap.1 mem
  split at is
  · next other => cases is; exact absurd same other
  · split at is
    · cases is
    · cases is; rfl

theorem sends_dueRequest {s : State} {n iface index core owner : Nat} {h : HeldReq} {e : QEntry} {b : Body} (small : index < 1024)
    (due : dueRequest s iface index = some h) (message : h.arm = none) (entry : h.entry = some e) (body : e.body = .msg core owner b) :
    exec (.messageDepart (quantumCtx iface index) n) s = .next (committed s <| launch { s with held := heldSent s h }
      { id := e.id, ctx := h.ctx, frame := e.frame, act := e.act, core := core, owner := owner, body := b, tag := e.tag }) := by
  obtain ⟨over_, first, second⟩ := quantumCtx_parts (iface := iface) small
  refine congrArg (commit s) ?_
  simp only [if_neg over_, first, second, due, sendHeld, message, entry, heldMsg, body]
  simp only [heldSent, message]

end Sys2Proof.Machine
end

section
/-! SUPPORT. The next activation of a record, and the end of a quantum (R193, R201, R202). -/

namespace Sys2Proof.Machine

open Sys2Proof

/-! ### The next activation of a running record (R193) -/

section
variable (s : State) (i n : Nat)

/-- The owner's stream is drawn from where the record's policy is the tombola. -/
def launchDraw : Nat × State := if (recOf s i n).policy = 2 then drawOwner s (recOf s i n).owner 0x0C n else (0, s)

/-- The core after FIRST that the next activation goes to. -/
def launchPlace : Nat :=
  if (recOf s i n).policy = 0 then (recOf s i n).nextL * (recOf s i n).ncores / armSize (recOf s i n)
  else if (recOf s i n).policy = 1 then (recOf s i n).nextL % (recOf s i n).ncores
  else (launchDraw s i n).1 * (recOf s i n).ncores / 2 ^ 32

/-- The next activation. -/
def nextActivation : Start :=
  { owner := (recOf s i n).owner, entry := (recOf s i n).entry, regs := [(2, (recOf s i n).param), (3, word n)],
    lin := { early := (recOf s i n).early, launch := some (i, n) }, tag := (recOf s i n).armTag, wid := widOf (recOf s i n) (recOf s i n).nextL,
    wfmt := (recOf s i n).fmt, launch := some (i, n), slot := none }

theorem launchDraw_eq : ∃ os, (launchDraw s i n).2 = { s with owners := os } := by
  unfold launchDraw
  split
  · exact ⟨_, rfl⟩
  · exact ⟨s.owners, rfl⟩

/-- Its start request. -/
def launchMsg : Msg :=
  { id := s.nextId, ctx := launchCtx i n (recOf s i n).owner, frame := 0, act := 0, core := (recOf s i n).first + launchPlace s i n,
    owner := (recOf s i n).owner, body := .start (nextActivation s i n), tag := (recOf s i n).armTag }

/-- The record counts it. -/
def launchCounted : LRec := { recOf s i n with nextL := (recOf s i n).nextL + 1, lastReq := s.clk + 1 }

/-- The next activation sets out, and the record counts it. -/
theorem launchStart_eq : ∃ id os ps, launchStart s i n
    = { setRec s i n (launchCounted s i n) with nextId := id, owners := os, points := ps, net := s.net ++ [launchMsg s i n] } := by
  obtain ⟨os, drawn⟩ := launchDraw_eq s i n
  have is : launchStart s i n = sendMsg
      (setRec (launchDraw s i n).2 i n { recOf s i n with nextL := (recOf s i n).nextL + 1, lastReq := (launchDraw s i n).2.clk + 1 })
      (launchCtx i n (recOf s i n).owner) 0 0 ((recOf s i n).first + launchPlace s i n) (recOf s i n).owner
      (.start (nextActivation s i n)) (recOf s i n).armTag := rfl
  rw [is, drawn, sendMsg]
  obtain ⟨ps, e⟩ := launch_eq { setRec { s with owners := os } i n (launchCounted s i n) with nextId := s.nextId + 1 } (launchMsg s i n)
  exact ⟨_, os, ps, e⟩

variable {s i n}

theorem launchPlace_blocks (h : (recOf s i n).policy = 0) :
    launchPlace s i n = (recOf s i n).nextL * (recOf s i n).ncores / armSize (recOf s i n) := if_pos h

theorem launchPlace_turns (h : (recOf s i n).policy = 1) : launchPlace s i n = (recOf s i n).nextL % (recOf s i n).ncores := by
  rw [launchPlace, if_neg (by omega), if_pos h]

theorem launchPlace_tombola (h : (recOf s i n).policy = 2) :
    launchPlace s i n = (drawOwner s (recOf s i n).owner 0x0C n).1 * (recOf s i n).ncores / 2 ^ 32 := by
  rw [launchPlace, if_neg (by omega), if_neg (by omega), launchDraw, if_pos h]

/-- A running record with activations to start and no start of its own that finds no room. -/
theorem launchOpen_of (running : (recOf s i n).state = .running) (more : (recOf s i n).nextL < armSize (recOf s i n))
    (room : ∀ m ∈ s.net, ∀ x, m.ctx = launchCtx i n (recOf s i n).owner → m.body = .start x → startRoom s m.core x = true) :
    launchOpen s i n = true := by
  simp only [launchOpen, running, decide_eq_true more, beq_self_eq_true, Bool.and_self, Bool.true_and, Bool.not_eq_true',
    List.any_eq_false]
  intro m mem stalled
  obtain ⟨own, full⟩ := Bool.and_eq_true_iff.1 stalled
  split at full
  · next st body => simp [room m mem st (beq_iff_eq.1 own) body] at full
  · cases full

/-- It starts the next one in this clk, or in the next where it has started one in this. -/
theorem exec_launchStartRequest (opens : launchOpen s i n = true) (turn : s.clk < (recOf s i n).lastReq → clkHeld s = false) :
    exec (.launchStartRequest i n) s
      = .next (committed s <| launchStart (if s.clk < (recOf s i n).lastReq then pass s 1 else s) i n) := by
  refine congrArg (commit s) ?_
  rw [if_pos opens, atSlot]
  by_cases taken : s.clk < (recOf s i n).lastReq
  · simp [taken, turn taken]
  · simp [taken]

end

/-! ### The order of held requests (R202) -/

theorem heldBefore_iff (x y : HeldReq) : heldBefore x y = true
    ↔ x.core < y.core ∨ (x.core = y.core ∧ (x.act < y.act ∨ (x.act = y.act ∧ x.seq < y.seq))) := by
  simp only [heldBefore, Bool.or_eq_true, Bool.and_eq_true, decide_eq_true_eq, beq_iff_eq]

theorem heldBefore_asymm {x y : HeldReq} (h : heldBefore x y = true) : heldBefore y x = false := by
  rw [← Bool.not_eq_true, heldBefore_iff]
  rw [heldBefore_iff] at h
  omega

/-- What comes before a second request that comes no later than a third is no later than the third. -/
theorem heldBefore_le_trans {x y z : HeldReq} (h : heldBefore x y = true) (k : heldBefore z y = false) : heldBefore z x = false := by
  rw [← Bool.not_eq_true, heldBefore_iff] at k ⊢
  rw [heldBefore_iff] at h
  omega

theorem mem_heldInsert (x z : HeldReq) (l : List HeldReq) : z ∈ heldInsert x l ↔ z = x ∨ z ∈ l := by
  induction l with
  | nil => simp [heldInsert]
  | cons y r ih =>
    rw [heldInsert]
    split
    · simp
    · rw [List.mem_cons, ih, List.mem_cons]
      tauto

theorem pairwise_heldInsert {x : HeldReq} {l : List HeldReq} (h : l.Pairwise fun x y => heldBefore y x = false) :
    (heldInsert x l).Pairwise fun x y => heldBefore y x = false := by
  induction l with
  | nil => exact List.pairwise_singleton ..
  | cons y r ih =>
    obtain ⟨first, rest⟩ := List.pairwise_cons.1 h
    rw [heldInsert]
    split
    · next before =>
      refine List.pairwise_cons.2 ⟨fun z mem => ?_, h⟩
      rcases List.mem_cons.1 mem with rfl | later
      · exact heldBefore_asymm before
      · exact heldBefore_le_trans before (first z later)
    · next after =>
      refine List.pairwise_cons.2 ⟨fun z mem => ?_, ih rest⟩
      rcases (mem_heldInsert ..).1 mem with rfl | later
      · exact Bool.eq_false_iff.2 after
      · exact first z later

theorem mem_heldSorted (z : HeldReq) (l : List HeldReq) : z ∈ l.foldr heldInsert [] ↔ z ∈ l := by
  induction l with
  | nil => rfl
  | cons x r ih => rw [List.foldr_cons, mem_heldInsert, ih, List.mem_cons]

theorem pairwise_heldSorted (l : List HeldReq) : (l.foldr heldInsert []).Pairwise fun x y => heldBefore y x = false := by
  induction l with
  | nil => exact .nil
  | cons x r ih => exact pairwise_heldInsert ih

/-! ### The end of a quantum (R201, R202) -/

/-- QRET of the context of a frame's activation is 0. -/
def qretClear (c : Nat) (s : State) (p : Nat × Frame) : State :=
  setCtx s (ctxKey c p.2.owner) { ctxOf s (ctxKey c p.2.owner) with qret := 0 }

/-- So it is for all frames of a lineage on a core. -/
def coreQretClear (i n : Nat) (s : State) (c : Nat) : State := (lineageFrames s c i n).foldl (qretClear c) s

section
variable {s u : State} {c i n : Nat}

/-- What clearing leaves of the state, and of counts that are clear. -/
structure Clears (s u : State) : Prop where
  rest : ∃ x, u = { s with ctxs := x }
  still : ∀ k, (ctxOf s k).qret = 0 → (ctxOf u k).qret = 0

theorem Clears.refl (s : State) : Clears s s := ⟨⟨s.ctxs, rfl⟩, fun _ h => h⟩

theorem Clears.trans {v : State} (h : Clears s u) (k : Clears u v) : Clears s v := by
  obtain ⟨⟨x, rfl⟩, still⟩ := h
  obtain ⟨⟨y, rfl⟩, still'⟩ := k
  exact ⟨⟨y, rfl⟩, fun j z => still' j (still j z)⟩

theorem clears_qretClear (c : Nat) (s : State) (p : Nat × Frame) :
    Clears s (qretClear c s p) ∧ (ctxOf (qretClear c s p) (ctxKey c p.2.owner)).qret = 0 := by
  refine ⟨⟨⟨_, rfl⟩, fun k zero => ?_⟩, congrArg Ctx.qret (ctxOf_setCtx_same ..)⟩
  rw [qretClear, ctxOf_setCtx]
  split
  · rfl
  · exact zero

theorem clears_frames (c : Nat) (l : List (Nat × Frame)) (s : State) :
    Clears s (l.foldl (qretClear c) s) ∧ ∀ p ∈ l, (ctxOf (l.foldl (qretClear c) s) (ctxKey c p.2.owner)).qret = 0 := by
  induction l generalizing s with
  | nil => exact ⟨.refl s, fun _ h => nomatch h⟩
  | cons p r ih =>
    obtain ⟨first, zero⟩ := clears_qretClear c s p
    obtain ⟨later, zeros⟩ := ih (qretClear c s p)
    refine ⟨first.trans later, fun q mem => ?_⟩
    rcases List.mem_cons.1 mem with rfl | mem
    · exact later.still _ zero
    · exact zeros q mem

theorem lineageFrames_of_clears (h : Clears s u) (c i n : Nat) : lineageFrames u c i n = lineageFrames s c i n := by
  obtain ⟨⟨x, rfl⟩, -⟩ := h
  rfl

theorem clears_cores (i n : Nat) (l : List Nat) (s : State) : Clears s (l.foldl (coreQretClear i n) s)
    ∧ ∀ c ∈ l, ∀ p ∈ lineageFrames s c i n, (ctxOf (l.foldl (coreQretClear i n) s) (ctxKey c p.2.owner)).qret = 0 := by
  induction l generalizing s with
  | nil => exact ⟨.refl s, fun _ h => nomatch h⟩
  | cons c r ih =>
    obtain ⟨first, zero⟩ := clears_frames c (lineageFrames s c i n) s
    obtain ⟨later, zeros⟩ := ih (coreQretClear i n s c)
    refine ⟨first.trans later, fun d mem p at_ => ?_⟩
    rcases List.mem_cons.1 mem with rfl | mem
    · exact later.still _ (zero p at_)
    · exact zeros d mem p (by rwa [coreQretClear, lineageFrames_of_clears first])

/-- A core that no table lists holds no frame. -/
theorem listed_of_lineageFrames {p : Nat × Frame} (mem : p ∈ lineageFrames s c i n) : c ∈ s.cores.map Prod.fst := by
  cases found : NMap.find s.cores c with
  | some x => exact List.mem_map_of_mem (f := Prod.fst) (mem_of_find found)
  | none => simp [lineageFrames, coreOf, NMap.get, found] at mem

end

section
variable (s : State) (i n : Nat)

/-- The cores that host the lineage. -/
def lineageHosts : List Nat := (s.cores.map Prod.fst).filter fun c => !(lineageFrames s c i n).isEmpty

/-- The counts of the contexts that host the lineage are clear. -/
def quantumCleared : State := (lineageHosts s i n).foldl (coreQretClear i n) s

theorem clears_quantumCleared : Clears s (quantumCleared s i n) := (clears_cores ..).1

theorem qret_quantumCleared (c : Nat) {p : Nat × Frame} (mem : p ∈ lineageFrames s c i n) :
    (ctxOf (quantumCleared s i n) (ctxKey c p.2.owner)).qret = 0 := by
  have some_ : (!(lineageFrames s c i n).isEmpty) = true := by
    rw [Bool.not_eq_true', List.isEmpty_eq_false_iff]
    exact List.ne_nil_of_mem mem
  exact (clears_cores ..).2 c (List.mem_filter.2 ⟨listed_of_lineageFrames mem, some_⟩) p mem

/-- A request of the lineage that waits for the quantum's end. -/
def waitsForEnd (h : HeldReq) : Bool := h.iface == i && h.index == n && h.state == 0

/-- The requests that the quantum's end sends, in their order. -/
def dueNow : List HeldReq := ((s.held.filter (waitsForEnd i n)).foldr heldInsert []).map fun h => { h with state := 1 }

theorem pairwise_dueNow : (dueNow s i n).Pairwise fun x y => heldBefore y x = false :=
  List.pairwise_map.2 (pairwise_heldSorted ..)

theorem mem_dueNow (h : HeldReq) : h ∈ dueNow s i n ↔ ∃ x ∈ s.held, waitsForEnd i n x = true ∧ h = { x with state := 1 } := by
  simp only [dueNow, List.mem_map, mem_heldSorted, List.mem_filter, and_assoc, eq_comm]

/-- A saved context of the lineage counts afresh. -/
def savedCleared (img : Image) : Image :=
  if img.out && img.frames.any fun p => p.2.lin.launch == some (i, n) then { img with ctx := { img.ctx with qret := 0 } } else img

/-- The record's quantum is counted, and its held requests are to be sent. -/
def quantumCounted : State :=
  { setRec { s with images := s.images.map (savedCleared i n) } i n
      { recOf s i n with quanta := ((recOf s i n).quanta + 1) % 2 ^ 32 } with
    held := s.held.filter (fun h => !waitsForEnd i n h) ++ dueNow s i n }

/-- On a core, the lineage has reached QUANTUM, or no activation of it is Ready or Waiting. -/
def quantumReached (c : Nat) : Prop := (∀ p ∈ lineageFrames s c i n, p.2.st ≠ .active ∧ parkOver s c p.1 = false)
  ∨ ∃ p ∈ lineageFrames s c i n, (recOf s i n).quantum ≤ (ctxOf s (ctxKey c p.2.owner)).qret

variable {s i n}

theorem exec_quantumEnd (det : (recOf s i n).det = true) (built : (recOf s i n).state ≠ .unbuilt) (reached : ∀ c, quantumReached s i n c)
    (sent : ∀ h ∈ s.held, h.iface = i → h.index = n → h.state ≠ 1) (free : savedHolds s i n (recOf s i n).quantum = false) :
    exec (.quantumEnd i n) s = .next (committed s <| quantumCounted (quantumCleared s i n) i n) := by
  have ended : ((lineageHosts s i n).all fun c => ((lineageFrames s c i n).all fun p => p.2.st != .active && !parkOver s c p.1)
      || (lineageFrames s c i n).any fun p => decide ((recOf s i n).quantum ≤ (ctxOf s (ctxKey c p.2.owner)).qret)) = true := by
    refine List.all_eq_true.2 fun c _ => ?_
    simpa [quantumReached] using reached c
  have none_ : (s.held.any fun h => h.iface == i && h.index == n && h.state == 1) = false := by
    simpa using sent
  have built' : ((recOf s i n).state != .unbuilt) = true := bne_iff_ne.2 built
  refine congrArg (commit s) (if_pos ?_)
  rw [det, built', none_, free]
  simpa [lineageHosts] using ended

/-- What the end of a quantum leaves. -/
theorem ends_quantum (det : (recOf s i n).det = true) (built : (recOf s i n).state ≠ .unbuilt) (reached : ∀ c, quantumReached s i n c)
    (sent : ∀ h ∈ s.held, h.iface = i → h.index = n → h.state ≠ 1) (free : savedHolds s i n (recOf s i n).quantum = false) :
    ∃ t, exec (.quantumEnd i n) s = .next t ∧ (recOf t i n).quanta = ((recOf s i n).quanta + 1) % 2 ^ 32
      ∧ t.held = s.held.filter (fun h => !waitsForEnd i n h) ++ dueNow s i n
      ∧ ∀ c, ∀ p ∈ lineageFrames s c i n, (ctxOf t (ctxKey c p.2.owner)).qret = 0 := by
  have zero := qret_quantumCleared s i n
  have runs := exec_quantumEnd det built reached sent free
  obtain ⟨⟨x, e⟩, -⟩ := clears_quantumCleared s i n
  rw [e] at zero runs
  refine ⟨_, runs, ?_, rfl, zero⟩
  exact congrArg LRec.quanta (recOf_setRec_same ..)

end

end Sys2Proof.Machine
end

section
/-! SUPPORT. A start takes a frame (R136, R181, R92). -/

namespace Sys2Proof.Machine

open Sys2Proof

/-! ### Starts that wait, and what a context knows -/

/-- The run queues, what contexts know, and the inbound queues stay. -/
structure KeepsWaiting (s t : State) : Prop where
  ctx : ∀ k, (ctxOf t k).runq = (ctxOf s k).runq ∧ (ctxOf t k).known = (ctxOf s k).known
  inbound : ∀ r, (ringOf t r).inbound = (ringOf s r).inbound

section
variable {s t u : State}

theorem KeepsWaiting.refl (s : State) : KeepsWaiting s s := ⟨fun _ => ⟨rfl, rfl⟩, fun _ => rfl⟩

theorem KeepsWaiting.trans (h : KeepsWaiting s t) (k : KeepsWaiting t u) : KeepsWaiting s u :=
  ⟨fun c => ⟨(k.ctx c).1.trans (h.ctx c).1, (k.ctx c).2.trans (h.ctx c).2⟩, fun r => (k.inbound r).trans (h.inbound r)⟩

/-- One more change, of neither contexts nor rings. -/
theorem KeepsWaiting.rest (h : KeepsWaiting s t) (e : (u.ctxs, u.rings) = (t.ctxs, t.rings) := by rfl) : KeepsWaiting s u := by
  obtain ⟨ctxs, rings⟩ := Prod.mk.inj e
  exact h.trans ⟨fun c => by rw [ctxOf, ctxOf, ctxs]; exact ⟨rfl, rfl⟩, fun r => by rw [ringOf, ringOf, rings]⟩

theorem KeepsWaiting.ite {c : Prop} [Decidable c] (ht : KeepsWaiting s t) (hu : KeepsWaiting s u) : KeepsWaiting s (if c then t else u) := by
  split <;> assumption

theorem KeepsWaiting.foldl {α : Type} {f : State → α → State} (h : KeepsWaiting s t)
    (hf : ∀ u a, KeepsWaiting s u → KeepsWaiting s (f u a)) (l : List α) : KeepsWaiting s (l.foldl f t) :=
  List.foldlRecOn l f h fun u hu a _ => hf u a hu

theorem KeepsWaiting.setRing (h : KeepsWaiting s t) (r : Nat) (x : RingSt) (same : x.inbound = (ringOf t r).inbound) :
    KeepsWaiting s (setRing t r x) := by
  refine h.trans ⟨fun _ => ⟨rfl, rfl⟩, fun q => ?_⟩
  rw [ringOf_setRing]
  split
  · next e => rw [same, e]
  · rfl

theorem KeepsWaiting.setCtx (h : KeepsWaiting s t) (k : Nat) (x : Ctx) (runq : x.runq = (ctxOf t k).runq)
    (known : x.known = (ctxOf t k).known) : KeepsWaiting s (setCtx t k x) := by
  refine h.trans ⟨fun c => ?_, fun _ => rfl⟩
  rw [ctxOf_setCtx]
  split
  · next e => rw [runq, known, e]; exact ⟨rfl, rfl⟩
  · exact ⟨rfl, rfl⟩

theorem KeepsWaiting.requestAt (h : KeepsWaiting s t) (owner id : Nat) (at_ : Option Place) (l : List (Nat × Nat)) :
    KeepsWaiting s (requestAt t owner id at_ l) := by
  cases l with
  | nil => exact h
  | cons => exact h.rest

theorem KeepsWaiting.discardFetch (h : KeepsWaiting s t) (locs : List Nat) : KeepsWaiting s (discardFetch t locs) :=
  h.foldl (fun _ _ h => h.rest) _

theorem KeepsWaiting.recallHost (h : KeepsWaiting s t) (w : Nat) (locs : List Nat) : KeepsWaiting s (recallHost t w locs) := .ite h h.rest

theorem KeepsWaiting.settleBytes (h : KeepsWaiting s t) (w : Nat) : KeepsWaiting s (settleBytes t w) := by
  refine .recallHost (.discardFetch (.rest (.foldl h (fun u a h => ?_) _) (by rfl)) _) ..
  dsimp only
  split <;> exact h.rest

theorem KeepsWaiting.markDirty (h : KeepsWaiting s t) (sectors : List Nat) : KeepsWaiting s (markDirty t sectors) :=
  h.foldl (fun u a h => by dsimp only; split; exacts [h, h.setRing _ _ rfl]) _

theorem KeepsWaiting.takeBump (h : KeepsWaiting s t) (chain cause : List Nat) : KeepsWaiting s (takeBump t chain cause) :=
  .ite h (h.rest (by rfl))

theorem KeepsWaiting.bumpTile (h : KeepsWaiting s t) (n : Nat) (cause : List Nat) : KeepsWaiting s (bumpTile t n cause) := by
  unfold Machine.bumpTile
  split
  · exact .takeBump (h.setRing _ _ (by rfl)) ..
  · exact h

theorem KeepsWaiting.settleWrite (h : KeepsWaiting s t) (w : Nat) : KeepsWaiting s (settleWrite t w) :=
  ((h.settleBytes w).markDirty _).foldl (fun _ _ h => h.bumpTile ..) _

theorem KeepsWaiting.hwWrite (h : KeepsWaiting s t) (owner a : Nat) (bs : List Byte) (tag : Option Tag) :
    KeepsWaiting s (hwWrite t owner a bs tag) := by
  unfold Machine.hwWrite
  exact .settleWrite (.rest (.ite (h.foldl (fun _ _ h => h.requestAt ..) _) h) (by rfl)) _

theorem KeepsWaiting.hwLocal (h : KeepsWaiting s t) (core owner off : Nat) (bs : List Byte) :
    KeepsWaiting s (hwLocal t core owner off bs) := by
  unfold Machine.hwLocal
  split
  · exact h.hwWrite ..
  · exact h

theorem KeepsWaiting.setHeader (h : KeepsWaiting s t) (k off : Nat) (x : Header) : KeepsWaiting s (setHeader t k off x) :=
  .foldl (h.setCtx _ _ (by rfl) (by rfl)) (fun _ _ h => h.hwLocal ..) _

theorem KeepsWaiting.launch (h : KeepsWaiting s t) (m : Msg) : KeepsWaiting s (launch t m) := by
  obtain ⟨ps, e⟩ := launch_eq t m
  rw [e]
  exact h.rest

theorem KeepsWaiting.sendCredit (h : KeepsWaiting s t) (k off : Nat) (x : Header) : KeepsWaiting s (sendCredit t k off x) :=
  .ite (.launch (h.rest (by rfl)) _) h

theorem KeepsWaiting.consumeSlot (h : KeepsWaiting s t) (k off j : Nat) : KeepsWaiting s (consumeSlot t k off j) := by
  unfold Machine.consumeSlot
  split
  · exact h
  · exact .ite (h.setHeader ..) ((h.setHeader ..).sendCredit ..)

end

/-! ### A context comes to know a tag (R92) -/

theorem mem_insNat_of_mem {l : List Nat} {x : Nat} (k : Nat) (h : x ∈ l) : x ∈ insNat l k := by
  induction l with
  | nil => cases h
  | cons a r ih =>
    rw [insNat]
    split
    · exact List.mem_cons_of_mem _ h
    · split
      · exact h
      · rcases List.mem_cons.1 h with rfl | later
        · exact List.mem_cons_self ..
        · exact List.mem_cons_of_mem _ (ih later)

theorem mem_foldl_insNat {a l : List Nat} {x : Nat} (h : x ∈ a ∨ x ∈ l) : x ∈ l.foldl insNat a := by
  induction l generalizing a with
  | nil => exact h.resolve_right (by simp)
  | cons k r ih =>
    refine ih ?_
    rcases h with h | h
    · exact .inl (mem_insNat_of_mem k h)
    · rcases List.mem_cons.1 h with rfl | later
      · exact .inl (mem_insNat_self a x)
      · exact .inr later

theorem mem_preceders {s : State} {acc : List Nat} {x : Nat} (h : x ∈ acc) (n : Nat) (todo : List Nat) : x ∈ preceders s n todo acc := by
  induction n generalizing todo acc with
  | zero => exact h
  | succ n ih =>
    rw [preceders]
    split
    · exact h
    · exact ih (mem_foldl_insNat (.inl h)) _

theorem mem_known_learn (s : State) (k : Nat) {ids : List Nat} {x : Nat} (h : x ∈ ids) : x ∈ (ctxOf (learn s k ids) k).known := by
  have some_ : ¬(ids.isEmpty = true) := by
    rw [List.isEmpty_iff]
    exact List.ne_nil_of_mem h
  rw [learn, if_neg some_, ctxOf_setCtx_same]
  exact mem_foldl_insNat (.inr (mem_preceders (mem_foldl_insNat (.inr h)) _ _))

/-! ### Registers at entry (R136) -/

/-- A register but 28 has the last value that the start gives it, or 0. -/
theorem entryRegs_get (region : Nat) (l : List (Nat × Word)) (r : Fin 32) (other : r ≠ 28) :
    (entryRegs region l)[r] = (((l.filter fun p => p.1 % 32 == r.val).getLast?).map Prod.snd).getD 0 := by
  have apart : (28 : Nat) ≠ r.val := fun e => other (Fin.ext e.symm)
  rw [entryRegs]
  simp only [Fin.getElem_fin]
  rw [Vector.getElem_set_ne _ _ apart]
  induction l using List.reverseRecOn with
  | nil => simp
  | append_singleton l p ih =>
    rw [List.foldl_append, List.filter_append]
    simp only [List.foldl_cons, List.foldl_nil, Vector.getElem_set]
    by_cases e : p.1 % 32 = r.val
    · simp [e]
    · rw [if_neg e, ih, List.filter_cons_of_neg (by simpa using e), List.filter_nil, List.append_nil]

theorem entryRegs_region (region : Nat) (l : List (Nat × Word)) : (entryRegs region l)[28] = word (Config.ownWindow + region) :=
  Vector.getElem_set_self ..

end Sys2Proof.Machine
end

section
/-! SUPPORT. The steps of starts and launches (R136, R179, R181, R193-R195, R201, R202). -/

namespace Sys2Proof.Machine

open Sys2Proof

/-! ### A start takes a frame (R136, R181) -/

/-- The frame of a start at entry: nothing is bound. -/
def startFrame (s : State) (region owner : Nat) (st : Start) : Frame :=
  { st := .active, act := s.nextId, owner := owner, regs := entryRegs region st.regs, pc := word st.entry, since := s.clk, wid := st.wid,
    wfmt := st.wfmt, lin := st.lin, launch := st.launch.map fun p => (p.1, p.2, (recOf s p.1 p.2).arms), slot := st.slot }

/-- The first activation of a bank clears its CLEAN. -/
def bankTaken (s : State) (core b : Nat) : State :=
  let bank := NMap.get (coreOf s core).banks b {}
  setCore s core { coreOf s core with banks := NMap.put (coreOf s core).banks b { bank with clean := false } }

/-- The frame holds the activation. -/
def frameTaken (s : State) (core f : Nat) (x : Frame) : State := bankTaken (setFrame { s with nextId := s.nextId + 1 } core f x) core (f / 4)

/-- Its launch record counts it. -/
def startCounted (s : State) (st : Start) : State :=
  match st.launch with
  | some (n, j) => setRec s n j { recOf s n j with started := (recOf s n j).started + 1 }
  | none => s

/-- It consumes the slot that it was raised for. -/
def startConsumed (s : State) (k : Nat) (st : Start) : State :=
  match st.slot with
  | some (h, j, true) => consumeSlot s k h j
  | _ => s

theorem frameOf_bankTaken (s : State) (core b c f : Nat) : frameOf (bankTaken s core b) c f = frameOf s c f :=
  let bank := NMap.get (coreOf s core).banks b {}
  frameOf_setCore_frames s core { coreOf s core with banks := NMap.put (coreOf s core).banks b { bank with clean := false } } rfl c f

theorem clean_bankTaken (s : State) (core b : Nat) : (NMap.get (coreOf (bankTaken s core b) core).banks b {}).clean = false := by
  rw [bankTaken, coreOf_setCore_same, get_put_same]

theorem keepsWaiting_startCounted (s : State) (st : Start) : KeepsWaiting s (startCounted s st) := by
  unfold startCounted
  split
  · exact .rest (.refl s)
  · exact .refl s

theorem lasts_startCounted (s : State) (st : Start) : Lasts s (startCounted s st) := by
  unfold startCounted
  split
  · exact .rest (.refl s) rfl
  · exact .refl s

theorem keepsWaiting_startConsumed (s : State) (k : Nat) (st : Start) : KeepsWaiting s (startConsumed s k st) := by
  unfold startConsumed
  split
  · exact .consumeSlot (.refl s) ..
  · exact .refl s

theorem lasts_startConsumed (s : State) (k : Nat) (st : Start) : Lasts s (startConsumed s k st) := by
  unfold startConsumed
  split
  · exact (Spares.consumeSlot (.refl s) ..).toLasts
  · exact .refl s

theorem lasts_learn (s : State) (k : Nat) (ids : List Nat) : Lasts s (learn s k ids) := by
  unfold learn
  split
  · exact .refl s
  · exact .rest (.refl s) rfl

theorem runq_learn (s : State) (k : Nat) (ids : List Nat) (j : Nat) : (ctxOf (learn s k ids) j).runq = (ctxOf s j).runq := by
  unfold learn
  split
  · rfl
  · rw [ctxOf_setCtx]
    split
    · next e => rw [e]
    · rfl

theorem rings_learn (s : State) (k : Nat) (ids : List Nat) : (learn s k ids).rings = s.rings := by
  unfold learn
  split <;> rfl

/-- The state in which a start holds its frame. -/
def startHeld (s : State) (region core owner f : Nat) (st : Start) : State :=
  frameTaken s core f (startFrame s region owner st)

/-- And in which its context knows its tag, its record counts it, and its slot is consumed. -/
def started (s : State) (region core owner f : Nat) (st : Start) : State :=
  startConsumed (startCounted (learn (startHeld s region core owner f st) (ctxKey core owner) st.tag) st) (ctxKey core owner) st

section
variable (s : State) (region core owner f : Nat) (st : Start)

theorem lasts_started : Lasts (startHeld s region core owner f st) (started s region core owner f st) :=
  ((lasts_learn ..).trans (lasts_startCounted ..)).trans (lasts_startConsumed ..)

theorem keepsWaiting_started : KeepsWaiting (learn (startHeld s region core owner f st) (ctxKey core owner) st.tag)
    (started s region core owner f st) := (keepsWaiting_startCounted ..).trans (keepsWaiting_startConsumed ..)

theorem runq_started (k : Nat) : (ctxOf (started s region core owner f st) k).runq = (ctxOf s k).runq :=
  ((keepsWaiting_started ..).ctx k).1.trans ((runq_learn ..).trans rfl)

theorem inbound_started (r : Nat) : (ringOf (started s region core owner f st) r).inbound = (ringOf s r).inbound := by
  rw [(keepsWaiting_started ..).inbound r, ringOf, rings_learn]
  rfl

theorem known_started {p : Nat} (mem : p ∈ st.tag) : p ∈ (ctxOf (started s region core owner f st) (ctxKey core owner)).known := by
  rw [((keepsWaiting_started ..).ctx _).2]
  exact mem_known_learn _ _ mem

theorem frame_started : ∃ fbuf lease, frameOf (started s region core owner f st) core f
    = { startFrame s region owner st with fbuf := fbuf, lease := lease } := by
  have same := (lasts_started s region core owner f st).frame core f
  rw [startHeld, frameTaken, frameOf_bankTaken, frameOf_setFrame_same] at same
  generalize frameOf (started s region core owner f st) core f = x at same ⊢
  exact ⟨x.fbuf, x.lease, congrArg (fun g : Frame => { g with fbuf := x.fbuf, lease := x.lease }) same⟩

theorem clean_started : (NMap.get (coreOf (started s region core owner f st) core).banks (f / 4) {}).clean = false := by
  rw [banks_of_lastingCore ((lasts_started s region core owner f st).core core)]
  exact clean_bankTaken ..

end

section
variable {s : State} {core owner i : Nat}

/-- A start of the run queue leaves it. -/
theorem takeStart_runq (h : i < (ctxOf s (ctxKey core owner)).runq.length) : takeStart s core owner i
    = setCtx s (ctxKey core owner) { ctxOf s (ctxKey core owner) with runq := dropAt (ctxOf s (ctxKey core owner)).runq i } := if_pos h

/-- One behind it leaves the inbound queue. -/
theorem takeStart_inbound {x : Nat × Start} (h : (ctxOf s (ctxKey core owner)).runq.length ≤ i)
    (at_ : (startsLeaving s core owner)[i - (ctxOf s (ctxKey core owner)).runq.length]? = some x) : takeStart s core owner i
    = setRing s (ringOfCore s core) { ringOf s (ringOfCore s core) with inbound := dropAt (ringOf s (ringOfCore s core)).inbound x.1 } := by
  simp only [takeStart, if_neg h.not_gt, at_]

theorem nextId_takeStart (s : State) (core owner i : Nat) : (takeStart s core owner i).nextId = s.nextId := by
  unfold takeStart
  dsimp only
  split
  · rfl
  · split <;> rfl

end

theorem exec_activationPlace {s : State} {core owner i f : Nat} {st : Start}
    (chosen : nextStart s core owner ((ctxOf s (ctxKey core owner)).runq ++ startsLeaving s core owner) false 0 = some (i, st, f)) :
    exec (.activationPlace core owner) s = .next (committed s <|
      started (takeStart s core owner i) (ctxOf s (ctxKey core owner)).region core owner f st) := by
  refine congrArg (commit s) ?_
  rw [chosen]
  rfl

/-- Settles O25, step by step. -/
theorem startAndLaunchSteps : Obligations.StartAndLaunchSteps := by
  intro s n
  refine ⟨fun m st b at_ body turn served opens bank => arrives_in_runq at_ body turn served opens bank,
    fun m st at_ body turn served closed room => arrives_inbound at_ body turn served closed room,
    fun core owner i st f => ?place, fun i j running more room turn => ?activation,
    fun m after at_ settled => sends_endNotice at_ settled, fun m i j arm at_ body served running own => ?notice,
    fun i j => ?quantum, fun i j h e core owner b small due message entry body => ?depart⟩
  case place =>
    intro k q chosen
    refine ⟨_, exec_activationPlace chosen, fun queued => ?_, fun x behind at_ => ?_, ?_, clean_started ..,
      fun p mem => known_started _ _ _ _ _ _ mem⟩
    · rw [ctxOf_committed, runq_started, takeStart_runq queued]
      exact congrArg Ctx.runq (ctxOf_setCtx_same ..)
    · rw [ctxOf_committed, runq_started, ringOf_committed, inbound_started, takeStart_inbound behind at_]
      exact ⟨rfl, congrArg RingSt.inbound (ringOf_setRing_same ..)⟩
    · obtain ⟨fbuf, lease, is⟩ := frame_started (takeStart s core owner i) (ctxOf s k).region core owner f st
      rw [frameOf_committed, is]
      exact ⟨rfl, rfl, rfl, rfl, rfl, rfl, rfl, rfl, rfl, rfl, rfl, nextId_takeStart .., rfl, fun r other => entryRegs_get _ _ r other,
        entryRegs_region ..⟩
  case activation =>
    intro u r p
    have runs := exec_launchStartRequest (launchOpen_of running more room) turn
    obtain ⟨id, os, ps, is⟩ := launchStart_eq u i j
    rw [is] at runs
    exact ⟨_, launchMsg u i j, nextActivation u i j, runs, rfl, rfl, fun h => congrArg (r.first + ·) (launchPlace_blocks h),
      fun h => congrArg (r.first + ·) (launchPlace_turns h), fun h => congrArg (r.first + ·) (launchPlace_tombola h), rfl, rfl, rfl, rfl,
      rfl, rfl, rfl, congrArg LRec.nextL (recOf_setRec_same ..)⟩
  case notice =>
    by_cases last : (recOf s i j).ended + 1 = armSize (recOf s i j)
    · obtain ⟨t, runs, is, none_, some_⟩ := completes_endNotice at_ body served running own last
      exact ⟨t, runs, by rw [is]; rfl, fun more => absurd last more, fun _ => ⟨by rw [is], none_, some_⟩⟩
    · obtain ⟨t, runs, is, sent⟩ := counts_endNotice at_ body served running own last
      exact ⟨t, runs, by rw [is]; rfl, fun _ => ⟨by rw [is]; exact running, sent⟩, fun h => absurd h last⟩
  case quantum =>
    intro r det built reached sent free mine
    obtain ⟨t, runs, quanta, held, zero⟩ := ends_quantum det built reached sent free
    exact ⟨t, runs, quanta, ⟨dueNow s i j, held, pairwise_dueNow s i j, mem_dueNow s i j⟩, zero⟩
  case depart =>
    have runs := sends_dueRequest (n := n) small due message entry body
    obtain ⟨ps, is⟩ := launch_eq { s with held := heldSent s h }
      { id := e.id, ctx := h.ctx, frame := e.frame, act := e.act, core := core, owner := owner, body := b, tag := e.tag }
    rw [is] at runs
    exact ⟨_, _, runs, rfl, rfl, rfl, rfl, rfl, rfl, rfl, fun x mem same => state_of_heldSent mem same⟩

end Sys2Proof.Machine
end

section
/-! SUPPORT. A grant at an L2 port whose line takes the way of another, of which an L1 holds a copy with a write in two entries of its
queue (R211, R241, R251, R255). -/

namespace Sys2Proof.Machine

open Sys2Proof

/-! ### A miss that evicts the stamp's line (R240, R241) -/

/-- The way of the stamp's line, held for owner 0: the directory records the copy of core 0 in M (R249). -/
def stampWay : Way :=
  { line := 0x100, holder := 0, shared := false, ebit := false, sectors := [(0, false, 3)], exact := [(0, 0, 0)], coarse := [] }

/-- Lines of owner 1 that ring 0 places, under its key, in the set of the stamp's line. -/
def otherLines : List Nat :=
  [1707, 2083, 3158, 4609, 5684, 6060, 7135, 7511, 8586, 10037, 11112, 11488, 12563, 12939, 14014]

/-- A way of owner 1 that no L1 holds a copy of. -/
def otherWay (line : Nat) : Way :=
  { line := line, holder := 1, shared := false, ebit := false, sectors := [(0, false, 0)], exact := [], coarse := [] }

/-- The sixteen ways of that set, all in use; the stamp's is the only one of owner 0. -/
def fullSet : NMap Way := ((upto 16).zip (stampWay :: otherLines.map otherWay)).map fun p => (16 * setOf 0 0 0x10000 + p.1, p.2)

/-- A read of owner 0 that joined the L2 port of ring 0 in clk 0, for line 632, which lies in the same set; its way ends there. -/
def missRequest : ArbReq :=
  { owner := 0, id := 15, wait := 0, since := 0, at_ := some { pa := 0x27800, treat := 0, share := none }, path := [] }

/-- `twiceQueued` a clk later, with that set and that request. Owner 0 has a quota of one way at the slice, which the stamp's line
fills, so that the line requested takes its way (R240, R241). -/
def missOverHeld : State :=
  { twiceQueued with
    clk    := 1
    owners := [(0, { live := true, root := 0x1000, quotas := [(0, 1)] }), (1, { live := true })]
    rings  := [(0, { ways := fullSet })]
    points := [(pointKey 0x03 0, { queue := [missRequest], commons := 256 })] }

/-- R238 places all these lines, and the one requested, in that set. -/
example : ∀ line ∈ 632 :: otherLines, setOf 0 0 (line * 256) = setOf 0 0 0x10000 := by decide +kernel

/-- The grant evicts the stamp's line: its probe has the copy written back, and with it write 10 settles by both of its entries. -/
theorem arbitrationSlot_missOverHeld : ∃ t, exec (.arbitrationSlot 0x03 0) missOverHeld = .next t
    ∧ byteAt t (bankLoc 0 0) ≠ byteAt missOverHeld (bankLoc 0 0) :=
  ⟨_, rfl, by decide +kernel⟩

/-- Refutes O42: a slot that grants the one request of a fabric point is to change no byte but the dirty ones. In `missOverHeld` the
line that the grant evicts has a copy which holds a write that stands in two entries, and the byte that the second one brings is no
dirty one. -/
theorem not_tombola : ¬Obligations.Tombola := by
  intro holds
  obtain ⟨-, -, grants, -⟩ := holds.2 missOverHeld
  have room : entryFree missOverHeld 0x03 0 missRequest.owner (pointSlot missOverHeld 0x03 0) = true := by decide +kernel
  have token : 256 ≤ (pointSlot missOverHeld 0x03 0).commons := by decide +kernel
  obtain ⟨t, step, quiet, -⟩ := grants 0x03 0 missRequest (by decide) (by decide) (by decide) rfl (by decide) rfl room fun _ => token
  obtain ⟨u, ran, changes⟩ := arbitrationSlot_missOverHeld
  have clean := HoldsTwice.not_dirtyByte (s := missOverHeld) ⟨rfl, rfl, rfl⟩ (by decide)
  exact not_keeps_byte step (quiet rfl _ clean) ran changes

end Sys2Proof.Machine
end

section
/-! SUPPORT. Cache maintenance over a range of which an L1 holds a copy with a write in two entries of its queue (R251, R258). -/

namespace Sys2Proof.Machine

open Sys2Proof

/-! ### A range that holds the stamp (R257, R258) -/

/-- A frame of owner 0 with the stamp's address in g1 and the length 1 in g2. -/
def rangeFrame : Frame := { regs := ((Vector.replicate 32 0).set 1 0x10000).set 2 1 }

/-- Core 0 issues from that frame and has the stamp's page in its TLB, while its L1 holds the copy of `twiceQueued`. -/
def rangeOverHeld : State :=
  { twiceQueued with
    cores := [(0, { banks := [(0, { valid := true, clean := false })], l1 := [stampLine], tlb := [stampPage], frames := [(0, rangeFrame)] })] }

/-- The range is one part, in the stamp's page. -/
theorem rangeParts_rangeOverHeld : rangeParts rangeOverHeld 0 (0x10000 + 1) (fun _ _ => true) true (1 / 4096 + 2) 0x10000
    = [(0x10000, 1, .mem 0x10000 stampPage)] := by decide +kernel

/-- Every page of the range translates. -/
theorem reached_rangeOverHeld :
    ∀ p ∈ rangeParts rangeOverHeld 0 (0x10000 + 1) (fun _ _ => true) true (1 / 4096 + 2) 0x10000, reached p.2.2 := by
  rw [rangeParts_rangeOverHeld]
  intro p hp
  obtain rfl := List.mem_singleton.1 hp
  exact .inl ⟨_, _, rfl⟩

/-- The copy that `inv` drops is written back first, and with it write 10 settles by both of its entries. -/
theorem inv_rangeOverHeld : ∃ t, exec (.inv 1 2) rangeOverHeld = .next t
    ∧ byteAt t (bankLoc 0 0) ≠ byteAt rangeOverHeld (bankLoc 0 0) :=
  ⟨_, rfl, by decide +kernel⟩

/-- Refutes O26: an `inv` whose range translates is to change no byte but the dirty ones, in every state that meets `Inv`. `Inv` lets a
write stand in two entries of its queue, as write 10 does in `rangeOverHeld`; the copy dropped there holds it, and the byte that its
second entry brings is no dirty one. -/
theorem not_cacheMaintenance : ¬Obligations.CacheMaintenance := by
  intro holds
  obtain ⟨-, translated, -⟩ := holds rangeOverHeld 1 2
  obtain ⟨-, -, ⟨t, step, -, bytes, -⟩, -⟩ := translated (by decide) (by decide) reached_rangeOverHeld
  obtain ⟨u, ran, changes⟩ := inv_rangeOverHeld
  have clean := HoldsTwice.not_dirtyByte (s := rangeOverHeld) ⟨rfl, rfl, rfl⟩ (by decide)
  exact not_keeps_byte step (bytes ⟨by decide, rfl⟩ _ clean) ran changes

end Sys2Proof.Machine
end

section
/-! SUPPORT. The handler: what TRAP and BRK set up, what `tret` leaves, and `idle` (R365, R366, R381). -/

namespace Sys2Proof.Machine

open Sys2Proof

/-- The issuing core as its handler begins on a cause (R365). -/
def handlerCore (s : State) (cause : Nat) : CoreSt :=
  let f := curFrame s
  let ec := word (cause + f.owner * 2 ^ 16)
  { curCore s with
    sup := true, supFrame := s.cur.2, supFrom := s.nextId, hpc := word (curCore s).evec, epc := f.pc, ecause := ec, eaddr := 0,
    hregs := ((((Vector.replicate 32 0).set 2 ec).set 3 0).set 4 f.pc).set 5 (word (s.cur.2 + f.owner * 2 ^ 8)) }

section
variable {s : State} {cause : Nat}

theorem enterHandler_of_bank (bank : banksOf s s.cur.1 0 ≠ []) :
    enterHandler s cause = setCore s s.cur.1 (handlerCore s cause) := by
  rw [enterHandler, if_neg (by simpa using bank)]
  rfl

theorem enterHandler_of_none (none : banksOf s s.cur.1 0 = []) : enterHandler s cause =
    terminate (writeTrapRegs s cause 0 0 (curFrame s).pc (curFrame s).owner) s.cur.1 s.cur.2 cause 0 0 (curFrame s).pc := by
  rw [enterHandler, if_pos (by simpa using none)]

/-- The issuing core of a state with a new core in its place. -/
theorem curCore_entered (x : CoreSt) : curCore (committed s (setCore s s.cur.1 x)) = x := coreOf_setCore_same ..

theorem inHandler_entered : inHandler (committed s (setCore s s.cur.1 (handlerCore s cause))) = true := by
  unfold inHandler
  rw [curCore_entered]
  exact Bool.and_eq_true_iff.mpr ⟨rfl, beq_self_eq_true _⟩

/-- The handler reads its own registers. -/
theorem rd_entered {r : Reg} (general : r ≠ 0) : rd (committed s (setCore s s.cur.1 (handlerCore s cause))) r
    = (handlerCore s cause).hregs[r.toNat]'r.isLt := by
  unfold rd
  rw [if_neg general, if_pos inHandler_entered]
  simp only [curCore_entered]

theorem handlerCore_clear {r : Reg} (h2 : r ≠ 2) (h4 : r ≠ 4) (h5 : r ≠ 5) : (handlerCore s cause).hregs[r.toNat]'r.isLt = 0 := by
  have ne2 : 2 ≠ r.toNat := fun e => h2 (BitVec.eq_of_toNat_eq e.symm)
  have ne4 : 4 ≠ r.toNat := fun e => h4 (BitVec.eq_of_toNat_eq e.symm)
  have ne5 : 5 ≠ r.toNat := fun e => h5 (BitVec.eq_of_toNat_eq e.symm)
  simp [handlerCore, Vector.getElem_set, ne2, ne4, ne5]

end

/-- Settles O7: the core that enters the handler is written out once, and each clause reads one field of it. -/
theorem trapAndBreakEnterTheHandler : Obligations.TrapAndBreakEnterTheHandler := by
  unfold Obligations.TrapAndBreakEnterTheHandler
  intro s i cause is c f ec
  have runs : exec i s = commit s (if inHandler s then doubleTrap s else enterHandler s cause) := by
    obtain ⟨rfl, rfl⟩ | ⟨rfl, rfl⟩ := is <;> rfl
  refine ⟨fun outside bank => ?enters, fun outside none => ?_, fun inside => ?_⟩
  case enters =>
    rw [outside, if_neg Bool.false_ne_true, enterHandler_of_bank bank] at runs
    have file : ∀ r : Reg, r ≠ 0 → rd (committed s (setCore s c (handlerCore s cause))) r = _ := fun r => rd_entered
    refine ⟨committed s (setCore s c (handlerCore s cause)), runs, rfl, ?others, ?frames, ?epc, ?ecause, ?eaddr, inHandler_entered,
      ?pc, ?owner, file 2 (by decide), file 3 (by decide), file 4 (by decide), file 5 (by decide), ?clear, ?bytes⟩
    case others => exact fun j other => by simp [coreOf, committed, setCore, get_put, other]
    case frames => exact (congrArg CoreSt.frames (curCore_entered (handlerCore s cause)) :)
    case epc => exact (congrArg CoreSt.epc (curCore_entered (handlerCore s cause)) :)
    case ecause => exact (congrArg CoreSt.ecause (curCore_entered (handlerCore s cause)) :)
    case eaddr => exact (congrArg CoreSt.eaddr (curCore_entered (handlerCore s cause)) :)
    case pc => rw [curPc, if_pos inHandler_entered, curCore_entered]; rfl
    case owner => rw [curOwner, if_pos inHandler_entered]
    case clear =>
      intro r h2 h4 h5
      by_cases zero : r = 0
      · rw [zero, rd_zero]
      · rw [file r zero, handlerCore_clear h2 h4 h5]
    case bytes => exact fun a clean => quiet_committed rfl clean a
  · rwa [outside, if_neg Bool.false_ne_true, enterHandler_of_none none] at runs
  · rwa [inside, if_pos rfl] at runs

/-- Settles O9: `tret` sets the core and the frame it resumes and nothing else; outside the handler, and once woken, one retirement is
all. -/
theorem returnAndIdle : Obligations.ReturnAndIdle := by
  unfold Obligations.ReturnAndIdle
  intro s
  refine ⟨fun inside => ?resumes, fun outside => ?_, fun asleep => ?_, fun woken => ?_⟩
  case resumes =>
    have runs : exec .tret s = commit s (trapReturn s) := congrArg (commit s) (if_pos inside)
    have core : (coreOf (committed s (trapReturn s)) s.cur.1).sup = false
        ∧ (coreOf (committed s (trapReturn s)) s.cur.1).hregs = Vector.replicate 32 0 := by
      simp [trapReturn, setCur, committed, coreOf, setFrame, setCore, curCore]
    have frame : curFrame (committed s (trapReturn s))
        = { curFrame s with pc := (curCore s).epc, fbuf := [], owed := (curFrame s).owed.filter fun o => decide (o.reg < 32) } := by
      refine (curFrame_setCur ..).trans ?_
      simp [curFrame, frameOf, curCore]
    have outside : inHandler (committed s (trapReturn s)) = false := by
      unfold inHandler curCore
      exact (congrArg (· && _) core.1).trans (Bool.false_and _)
    refine ⟨committed s (trapReturn s), runs, core.1, core.2, ?pc, (congrArg Frame.regs frame :), (congrArg Frame.handles frame :), ?owner, ?others,
      fun a clean => quiet_committed rfl clean a⟩
    case pc => rw [curPc, outside, if_neg Bool.false_ne_true, frame]; rfl
    case owner => rw [curOwner, outside, if_neg Bool.false_ne_true, frame]
    case others =>
      intro a b other
      have elsewhere : ¬(a = s.cur.1 ∧ b = s.cur.2) := fun e => other (by rw [e.1, e.2])
      refine (frameOf_setFrame _ _ _ a b _).trans ((if_neg elsewhere).trans ?_)
      by_cases same : a = s.cur.1
      · subst same; simp [frameOf, curCore]
      · simp [frameOf, coreOf_setCore, same]
  · have runs : exec .tret s = commit s (retire4 s) := congrArg (commit s) (if_neg (by rw [outside]; decide))
    exact completes_of_retires runs (retires_retire4 s) rfl trivial
  · exact parks_of_park (if_neg (by rw [asleep]; decide))
  · exact completes_of_retires (if_pos woken) ((moves_setCur s (fun f => { f with granted := false }) rfl rfl).retire4
      (fun _ => rfl) (fun _ => rfl) rfl) rfl trivial

end Sys2Proof.Machine
end

section
/-! SUPPORT. Requests that acquire drop a self-invalidating copy with a write in two entries (R84, R239, R251). -/

namespace Sys2Proof.Machine

open Sys2Proof

theorem covers_twiceQueued {a : Nat} (h : covers twiceQueued 10 a = true) : a = 0x10000 := by
  have bytes : (wrec twiceQueued 10).bytes = [(0x10000, 1)] := rfl
  rw [covers, bytes] at h
  obtain ⟨p, named, at_⟩ := List.any_eq_true.1 h
  rw [List.mem_singleton.1 named] at at_
  exact (beq_iff_eq.1 at_).symm

/-- Where every copy is of the stamp's line and holds no dirty data but write 10, no other line is dirty. -/
theorem HoldsTwice.not_dirtyLine {s : State} (h : HoldsTwice s)
    (dirty : ∀ p ∈ s.cores, ∀ l ∈ p.2.l1, l.pa = 0x10000 ∧ ∀ w ∈ l.dirty, w = 10) {line : Nat} (other : line ≠ 0x100) :
    ¬dirtyLine s line := by
  rintro ⟨p, hp, l, hl, w, hw, held | ⟨a, at_, covered⟩ | torn | ⟨k, i, e, a, n, tr, found, body, at_⟩⟩
  all_goals obtain ⟨place, named⟩ := dirty p hp l hl
  · exact other (by rw [← held, place])
  · rw [named w hw, h.covers] at covered
    exact other (by rw [← at_, covers_twiceQueued covered])
  · exact torn (named w hw ▸ h.plainEntry)
  · have first : Machine.entryOf twiceQueued 10 = some (0, 0, stampEntry 11 (.pa 0x10000)) := by decide +kernel
    rw [named w hw, h.entryOf, first] at found
    cases found
    cases body
    exact other at_.symm

/-- The dirty data of `selfHeld` are those of the stamp's copy. -/
theorem dirty_selfHeld : ∀ p ∈ selfHeld.cores, ∀ l ∈ p.2.l1, l.pa = 0x10000 ∧ ∀ w ∈ l.dirty, w = 10 := by decide

/-- `selfHeld` with one request of owner 0's context on core 0. -/
def requestUnderHeld (kind : ReqKind) (treat : Nat) : State :=
  { selfHeld with reqs := [{ imageRequest with ctx := 0, kind := kind, treat := treat }] }

theorem holdsTwice_requestUnderHeld (kind : ReqKind) (treat : Nat) : HoldsTwice (requestUnderHeld kind treat) := ⟨rfl, rfl, rfl⟩

theorem not_dirtyByte_requestUnderHeld (kind : ReqKind) (treat : Nat) : ¬dirtyByte (requestUnderHeld kind treat) (bankLoc 0 0) :=
  (holdsTwice_requestUnderHeld kind treat).not_dirtyByte fun p hp l hl => (dirty_selfHeld p hp l hl).2

theorem not_dirtyLine_requestUnderHeld (kind : ReqKind) (treat : Nat) {line : Nat} (other : line ≠ 0x100) :
    ¬dirtyLine (requestUnderHeld kind treat) line :=
  (holdsTwice_requestUnderHeld kind treat).not_dirtyLine dirty_selfHeld other

/-- A request that acquires, which its unit performs in the next step, with `selfHeld` around it: an atomic add of 0. -/
def addUnderHeld : State := requestUnderHeld (.amo 0 .i64 true true (.loc 0 8) 0 0) 2

/-- A try for a read lock. -/
def lockUnderHeld : State := requestUnderHeld (.lock 0 0x40000 none false) 0

/-- A request to accept an unheld region. -/
def acceptUnderHeld : State := requestUnderHeld (.cap 3 0x40000 0) 0

/-- The acquire drops the copy, and with it write 10 settles by both of its entries. -/
theorem atomicStep_addUnderHeld :
    ∃ t, exec (.atomicStep 0) addUnderHeld = .next t ∧ byteAt t (bankLoc 0 0) ≠ byteAt addUnderHeld (bankLoc 0 0) :=
  ⟨_, rfl, by decide +kernel⟩

theorem lockStep_lockUnderHeld :
    ∃ t, exec (.lockStep 0) lockUnderHeld = .next t ∧ byteAt t (bankLoc 0 0) ≠ byteAt lockUnderHeld (bankLoc 0 0) :=
  ⟨_, rfl, by decide +kernel⟩

theorem capabilityStep_acceptUnderHeld :
    ∃ t, exec (.capabilityStep 0) acceptUnderHeld = .next t ∧ byteAt t (bankLoc 0 0) ≠ byteAt acceptUnderHeld (bankLoc 0 0) :=
  ⟨_, rfl, by decide +kernel⟩

/-- Refutes O15: an atomic at its unit is to change no byte but its word's and the dirty ones. In `addUnderHeld` it is an acquire, and
the copy that it drops holds a write that stands in two entries; the byte that the second one brings is no dirty one. -/
theorem not_atomicStep : ¬Obligations.AtomicStep := by
  intro holds
  have sound : ∀ l ∈ locsFrom (tgtBase addUnderHeld 0 (.loc 0 8)) 8, poisoned addUnderHeld l = false ∧ l / 256 ≠ 0x100 := by decide +kernel
  obtain ⟨t, step, -, bytes, -⟩ := holds addUnderHeld 0 _ 0 true (.loc 0 8) 0 0 ⟨by decide, rfl⟩ rfl rfl (by decide +kernel)
    (by decide +kernel) (by decide) (by decide) (by decide) (by decide) ⟨by decide, by decide +kernel, by decide, by decide +kernel⟩
    fun l hl => ⟨(sound l hl).1, not_dirtyLine_requestUnderHeld _ _ (sound l hl).2⟩
  obtain ⟨u, ran, changes⟩ := atomicStep_addUnderHeld
  exact not_keeps_byte step (bytes (bankLoc 0 0) (by decide +kernel) (not_dirtyByte_requestUnderHeld _ _)) ran changes

/-- Refutes O16: a lock step is to change no byte but its word's and the dirty ones. In `lockUnderHeld` the lock is granted, which is
an acquire, and the copy that it drops holds a write that stands in two entries; the byte that the second one brings is no dirty one. -/
theorem not_locks : ¬Obligations.Locks := by
  intro holds
  have sound : ∀ l ∈ locsFrom 0x40000 8, poisoned lockUnderHeld l = false ∧ l / 256 ≠ 0x100 := by decide +kernel
  obtain ⟨grants, -⟩ := holds.2 lockUnderHeld 0 _ 0 0x40000 none false ⟨by decide, rfl⟩ rfl rfl (by decide) (by decide +kernel)
    (by decide +kernel) (by decide) fun l hl => ⟨(sound l hl).1, not_dirtyLine_requestUnderHeld _ _ (sound l hl).2⟩
  obtain ⟨t, step, -, bytes, -⟩ := grants rfl (by decide +kernel)
  obtain ⟨u, ran, changes⟩ := lockStep_lockUnderHeld
  exact not_keeps_byte step (bytes (bankLoc 0 0) (by decide +kernel) (not_dirtyByte_requestUnderHeld _ _)) ran changes

/-- Refutes O32: a capability step is to change no byte but the dirty ones. In `acceptUnderHeld` the region is unheld and the request
takes it, which is an acquire; the copy that it drops holds a write that stands in two entries, and the byte that the second one brings
is no dirty one. -/
theorem not_capabilities : ¬Obligations.Capabilities := by
  intro holds
  obtain ⟨-, -, -, -, -, -, -, -, accepts, -⟩ := holds.2 acceptUnderHeld 0 _ 3 0x40000 0 ⟨rfl, by decide +kernel⟩ rfl
  obtain ⟨t, step, ⟨-, -, quiet⟩, -⟩ := accepts rfl rfl (by decide +kernel)
  obtain ⟨u, ran, changes⟩ := capabilityStep_acceptUnderHeld
  exact not_keeps_byte step (quiet rfl _ (not_dirtyByte_requestUnderHeld _ _)) ran changes

end Sys2Proof.Machine
end

section
/-! SUPPORT. A lease that has run out ends at whatever looks at it, and the fault of its part is then written to the owner's descriptor
(R325, R370). -/

namespace Sys2Proof.Machine

open Sys2Proof

/-- `leaseEnds` as its lease has started nothing for 65,536 clk, with a part that is not over. The issuing frame has the answer to a
request of its own. -/
def leaseLapses : State :=
  { leaseEnds with
    clk   := 65536
    cmds  := [leasedPart 12 1 false]
    cores := [(0, { frames := [(0, { lease := some (0, 0) })] })] }

/-- Reading the state of the ring ends the lease first, and the fault of its part takes the first sequence number. -/
theorem mcfg_leaseLapses : ∃ t, exec (.mcfg 0) leaseLapses = .next t ∧ byteAt t 0x1020 ≠ byteAt leaseLapses 0x1020 :=
  ⟨_, rfl, by decide +kernel⟩

theorem mlease_leaseLapses : ∃ t, exec (.mlease 0 0) leaseLapses = .next t ∧ byteAt t 0x1020 ≠ byteAt leaseLapses 0x1020 :=
  ⟨_, rfl, by decide +kernel⟩

/-- Refutes O35: `mcfg` is to change no byte. In `leaseLapses` it looks at a lease that has run out, and the fault of the part that fails
with the lease is written to the descriptor of the owner. -/
theorem not_carouselParts : ¬Obligations.CarouselParts := by
  intro holds
  obtain ⟨-, -, -, idle⟩ := holds leaseLapses 0 0
  obtain ⟨t, step, -, bytes, -⟩ := idle (by decide +kernel) (by decide +kernel)
  obtain ⟨u, ran, changes⟩ := mcfg_leaseLapses
  exact not_keeps_byte step (bytes ⟨by decide, rfl⟩ _ id) ran changes

/-- Refutes O36: an `mlease` that takes its answer is to change no byte. In `leaseLapses` it looks at a lease that has run out, and the
fault of the part that fails with the lease is written to the descriptor of the owner. -/
theorem not_leasesAndGroups : ¬Obligations.LeasesAndGroups := by
  intro holds
  obtain ⟨takes, -⟩ := holds.1 leaseLapses 0 0
  obtain ⟨t, step, -, bytes, -⟩ := takes 0 0 (by decide +kernel)
  obtain ⟨u, ran, changes⟩ := mlease_leaseLapses
  exact not_keeps_byte step (bytes ⟨by decide, rfl⟩ _ id) ran changes

end Sys2Proof.Machine
end

section
/-! SUPPORT. A core that moves, and a context image, over a copy with a write in two entries (R251, R253, R379, R395). -/

namespace Sys2Proof.Machine

open Sys2Proof

/-! ### Caravans (R253, R395) -/

/-- A bank of owner 0. -/
def heldBank : Bank := { valid := true, clean := false }

/-- The self-invalidating copy of `selfHeld` in the L1 of core 1, which owner 0 holds a bank of too; it was filled before this clk. -/
def movesOverHeld : State :=
  { twiceQueued with
    clk   := 1
    cores := [(0, { banks := [(0, heldBank)] }), (1, { banks := [(0, heldBank)], l1 := [{ stampLine with treat := 1 }] })] }

/-- With the move the copy leaves the L1s, as it is older than the context's new horizon; write 10 settles by both of its entries. -/
theorem caravan_movesOverHeld :
    ∃ t, exec (.caravan 1 2) movesOverHeld = .next t ∧ byteAt t (bankLoc 0 0) ≠ byteAt movesOverHeld (bankLoc 0 0) :=
  ⟨_, rfl, by decide +kernel⟩

/-- Refutes O51: a core that moves is to change no byte but those of its clean banks and the dirty ones. The copy that leaves the L1s in
`movesOverHeld` holds a write that stands in two entries, and the byte that the second one brings, in a bank of core 0, is no dirty
one. -/
theorem not_platformEvents : ¬Obligations.PlatformEvents := by
  intro holds
  obtain ⟨moves, -⟩ := holds movesOverHeld
  obtain ⟨t, step, -, bytes, -⟩ := moves 1 2 (by decide +kernel) (by decide +kernel) (by decide +kernel) (by decide +kernel)
  obtain ⟨u, ran, changes⟩ := caravan_movesOverHeld
  have clean := HoldsTwice.not_dirtyByte (s := movesOverHeld) ⟨rfl, rfl, rfl⟩ (by decide)
  exact not_keeps_byte step (bytes rfl _ clean (by decide +kernel)) ran changes

/-! ### Context images (R377, R379) -/

/-- One sector of the image, as a page of its own. -/
def imagePage (i : Nat) : Xlat :=
  { owner := 0, page := 0x10000 + 64 * i, size := 64, pa := 0x10000 + 64 * i, rd := true, wr := false, treat := 0, shr := false,
    swr := false, kidx := 0 }

/-- Core 1 issues, over the copy of `twiceQueued` in the L1 of core 0. Its g1 names owner 1 and no banks, its g2 the stamp's sector as an
image, of which its TLB maps as many sectors as the translation of an image reaches. -/
def imageOverHeld : State :=
  { twiceQueued with
    cur   := (1, 0)
    cores := twiceQueued.cores ++ [(1, { tlb := (upto 18).map imagePage,
                                         frames := [(0, { regs := ((Vector.replicate 32 0).set 1 1).set 2 0x10000 })] })] }

/-- Reading the image recalls the copy, and with it write 10 settles by both of its entries. -/
theorem ctxload_imageOverHeld :
    ∃ t, exec (.ctxload 0 1 2) imageOverHeld = .next t ∧ byteAt t (bankLoc 0 0) ≠ byteAt imageOverHeld (bankLoc 0 0) :=
  ⟨_, rfl, by decide +kernel⟩

/-- Whether a decoded address is a place in memory. -/
def isMem : Where → Bool
  | .mem .. => true
  | _ => false

theorem mem_of_isMem {w : Where} (h : isMem w = true) : ∃ pa x, w = .mem pa x := by
  cases w
  case mem pa x => exact ⟨pa, x, rfl⟩
  all_goals cases h

/-- Refutes O46: a `ctxload` that gives 2 is to change no byte but the dirty ones. The copy that the read of the image recalls in
`imageOverHeld` holds a write that stands in two entries, and the byte that the second one brings is no dirty one. -/
theorem not_contextImages : ¬Obligations.ContextImages := by
  intro holds
  obtain ⟨-, -, -, -, -, loads⟩ := holds imageOverHeld 0 1 2
  have sectors : ∀ p ∈ rangeParts imageOverHeld 0 (0x10000 + (0x10000 + 0 * Config.bankBytes))
      (fun pa z => isDram pa && (z.treat == 0 || z.treat == 2)) false ((0x10000 + 0 * Config.bankBytes) / 4096 + 2) 0x10000,
      isMem p.2.2 = true := by decide +kernel
  obtain ⟨misfits, -⟩ := loads (by decide +kernel) (by decide +kernel) ⟨by decide +kernel, fun p hp => mem_of_isMem (sectors p hp)⟩
  obtain ⟨t, step, -, bytes, -⟩ := misfits (by decide +kernel) fun fits => absurd fits.1 (by decide +kernel)
  obtain ⟨u, ran, changes⟩ := ctxload_imageOverHeld
  have clean := HoldsTwice.not_dirtyByte (s := imageOverHeld) ⟨rfl, rfl, rfl⟩ (by decide)
  exact not_keeps_byte step (bytes ⟨by decide, rfl⟩ _ clean) ran changes

end Sys2Proof.Machine
end

section
/-! SUPPORT. A beat of a vector command that reads a copy with a write in two entries (R94, R251, R303). -/

namespace Sys2Proof.Machine

open Sys2Proof

/-- A record of one N8 element at an address (R287). -/
def byteRecord (at_ : Nat) : Tensor := { words := [8 + 2 ^ 5, 1 + 2 ^ 16 + 2 ^ 32 + 2 ^ 48, 0, 0, word at_, 0] }

/-- A `vcopy` by core 1 of the byte at the stamp's place to another page's. -/
def stampCopy : Cmd :=
  { id := 15, ctx := ctxKey 1 0, cls := 0, num := 1, frame := 0, act := 0, pc := 0, lin := { early := false, launch := none },
    kind := .vec 0x14 8 none 0 [some (byteRecord 0x40000), some (byteRecord 0x10000), none] [none, none, none] 0 0 0 {} [] 0 [] [],
    after := [], known := [], writes := [], asked := 1, lost := [], finished := false }

/-- Its fields. -/
def stampCopyFields : VCmd :=
  { k := ctxKey 1 0, id := 15, op := 0x14, ty := 8, mask := none, sub := 0, param := 0,
    recs := [some (byteRecord 0x40000), some (byteRecord 0x10000), none], scales := [none, none, none], rmode := 0, lseed := 0, wid := 0,
    coef := {}, dec := [], pos := 0, taken := [], acc := [] }

theorem vcmdOf_stampCopy : vcmdOf stampCopy = some stampCopyFields := rfl

/-- The command runs on core 1, where owner 0 has the beat of this clk, while the copy of `twiceQueued` stands in the L1 of core 0. -/
def copyOverHeld : State :=
  { twiceQueued with
    cmds  := [stampCopy]
    cores := twiceQueued.cores ++ [(1, { banks := [(0, { valid := true, clean := false })], lastSlot := 1, assigned := some 0,
                                         tlb := [{ stampPage with wr := true }] })] }

/-- `copyOverHeld` once its next beat has asked for what it needs, which it had. -/
def copyAsked : State := (residents copyOverHeld 1).foldl (fun s o => askBeat s 1 o) copyOverHeld

/-- The same with the slot of the beat taken. -/
def copyTakes : State :=
  setPoint copyAsked 0x0A (physCore copyAsked 1) { pointOf copyAsked 0x0A (physCore copyAsked 1) with lastSlot := copyAsked.clk + 1 }

/-- The same with what the beat reads recalled. -/
def copyRecalled : State := engineHome copyTakes (ctxKey 1 0) (beatPlaces stampCopyFields copyTakes)

/-- Whether a beat of a command is ready that satisfies `p`. -/
def beatIs (r : Option (Cmd × VCmd × ERes Beat)) (c : Cmd) (p : Beat → Bool) : Bool :=
  match r with
  | some (x, _, .ok b) => decide (x = c) && p b
  | _ => false

/-- The fields that a beat runs with are those of its command. -/
theorem vcmdOf_of_nextBeat {s : State} {core o : Nat} {c : Cmd} {v : VCmd} {r : ERes Beat} (h : nextBeat s core o = some (c, v, r)) :
    vcmdOf c = some v := by
  unfold nextBeat at h
  split at h
  case h_1 => cases h
  case h_2 x _ =>
    split at h
    case h_1 => cases h
    case h_2 fields =>
      split at h
      · cases h
      · split at h
        · dsimp only at h
          split at h
          · cases h; exact fields
          · cases h
        · cases h; exact fields

theorem ready_of_beatIs {s : State} {core o : Nat} {c : Cmd} {v : VCmd} {p : Beat → Bool} (fields : vcmdOf c = some v)
    (h : beatIs (readyBeat s core o) c p = true) : ∃ b, readyBeat s core o = some (c, v, .ok b) ∧ p b = true := by
  unfold beatIs at h
  split at h
  case h_1 x w b ready =>
    obtain ⟨same, holds⟩ := Bool.and_eq_true_iff.1 h
    obtain rfl := of_decide_eq_true same
    obtain rfl : w = v := Option.some.inj ((vcmdOf_of_nextBeat (Option.filter_eq_some_iff.1 ready).1).symm.trans fields)
    exact ⟨b, ready, holds⟩
  case h_2 => cases h

/-- Before its read is recalled as after, the beat is ready; it writes one byte, which it may, and which is none of bank 0. -/
theorem ready_copyAsked : beatIs (readyBeat copyAsked 1 0) stampCopy (fun _ => true) = true := by decide +kernel

theorem ready_copyRecalled : beatIs (readyBeat copyRecalled 1 0) stampCopy (fun b =>
    decide ((∀ x ∈ b.cells, x.1.loc.isSome = true) ∧ refusedAt copyRecalled (ctxKey 1 0) (b.cells.map Prod.fst) = none
      ∧ lostTo copyRecalled stampCopy (b.cells.map Prod.fst) = none ∧ NMap.find (placeCells b.cells) (bankLoc 0 0) = none)) = true := by
  decide +kernel

/-- The beat's read recalls the copy, and with it write 10 settles by both of its entries. -/
theorem vectorBeat_copyOverHeld :
    ∃ t, exec (.vectorBeat 1) copyOverHeld = .next t ∧ byteAt t (bankLoc 0 0) ≠ byteAt copyOverHeld (bankLoc 0 0) :=
  ⟨_, rfl, by decide +kernel⟩

/-- Refutes O34: a beat is to change no byte but those it writes and the dirty ones. The copy that the beat's read recalls in
`copyOverHeld` holds a write that stands in two entries, and the byte that the second one brings is no dirty one. -/
theorem not_vectorCommands : ¬Obligations.VectorCommands := by
  intro holds
  obtain ⟨-, -, -, beats⟩ := holds.2 copyOverHeld 1 ⟨by decide, rfl⟩
  obtain ⟨b, ready, -⟩ := ready_of_beatIs vcmdOf_stampCopy ready_copyAsked
  obtain ⟨b', again, sound⟩ := ready_of_beatIs vcmdOf_stampCopy ready_copyRecalled
  obtain ⟨placed, allowed, kept, elsewhere⟩ := of_decide_eq_true sound
  obtain ⟨runs, -⟩ := beats 0 stampCopy stampCopyFields (.ok b) (by decide +kernel) (by decide +kernel) (by decide +kernel)
    (by decide +kernel) ready
  obtain ⟨t, -, step, -, -, -, -, bytes⟩ := runs b' again rfl placed allowed kept
  have keeps := bytes (bankLoc 0 0) (by decide +kernel)
  rw [elsewhere] at keeps
  obtain ⟨u, ran, changes⟩ := vectorBeat_copyOverHeld
  have clean := HoldsTwice.not_dirtyByte (s := copyOverHeld) ⟨rfl, rfl, rfl⟩ (by decide)
  exact not_keeps_byte step (keeps clean) ran changes

end Sys2Proof.Machine
end

section
/-! SUPPORT. How instructions end that write a result after their effects, tensor records and timelines (R127, R135, R286-R288, R301). -/

namespace Sys2Proof.Machine

open Sys2Proof

/-! ### Results after other effects (R127, R135) -/

section
variable {s u : State} {i : Instr} {d : Reg} {v : Word} {st : Nat → Prop} {P : State → Prop}

/-- An instruction that never parks completes with its result. -/
theorem completes_of_finish (runs : exec i s = commit s (finish u d v)) (quiet : u.wbuf = s.wbuf) (pc : curPc u = curPc s)
    (holds : P (committed s (finish u d v))) : Completes i s u id [d] st P :=
  completes_of_retires runs (pc ▸ retires_finish u d v) quiet holds

/-- One that may have parked is ready again. -/
theorem retires_clearWait_finish (u : State) (d : Reg) (v : Word) : Retires u (finish (clearWait u) d v) ready [d] (curPc u + 4) :=
  (moves_setCur u ready rfl rfl).finish (fun _ => rfl) (fun _ => rfl) rfl d v

theorem completes_of_ready_finish (runs : exec i s = commit s (finish (clearWait u) d v)) (quiet : u.wbuf = s.wbuf)
    (pc : curPc u = curPc s) (holds : P (committed s (finish (clearWait u) d v))) : Completes i s u ready [d] st P :=
  completes_of_retires runs (pc ▸ retires_clearWait_finish u d v) quiet holds

theorem completes_of_ready_retire (runs : exec i s = commit s (retire4 (clearWait u))) (quiet : u.wbuf = s.wbuf)
    (pc : curPc u = curPc s) (holds : P (committed s (retire4 (clearWait u)))) : Completes i s u ready [] st P :=
  completes_of_retires runs (pc ▸ retires_clearWait_retire4 u) quiet holds

/-- The result stands in its register, whatever was done before. -/
theorem gives_finish : Gives d v (committed s (finish u d v)) := rd_finish u d v

/-- A result and a retirement change no table of a context. -/
theorem tensorAt_finish (k id : Nat) : tensorAt (committed s (finish u d v)) k id = tensorAt u k id :=
  (congrArg (fun c : Ctx => NMap.find c.tensors id) ((retires_finish u d v).moves.ctx k) :)

end

/-! ### The record's image (R287) -/

section
variable {s : State} {va : Word} {k : Nat → State}

theorem withImage_misaligned (h : va.toNat % 64 ≠ 0) : withImage s va k = alignTrap s va := if_pos h

theorem withImage_elsewhere (aligned : va.toNat % 64 = 0) (h : ownTarget s va = none) : withImage s va k = protTrap s va := by
  rw [withImage, if_neg (not_not_intro aligned), h]

theorem withImage_own {off : Nat} (aligned : va.toNat % 64 = 0) (own : ownTarget s va = some off)
    (within : off + 64 ≤ localSize s s.cur.1 (curOwner s)) : withImage s va k = k off := by
  rw [withImage, if_neg (not_not_intro aligned), own]
  exact if_neg (Nat.not_lt.2 within)

end

/-! ### `tget` (R288) -/

/-- A store to local memory enters the queue of its context. -/
theorem storeGroup_local (s : State) (core off : Nat) (bs : List Byte) (ord : StOrd) (va : Word) :
    ∃ id hist ctxs points, storeGroup s (.loc core off) bs ord va = { s with nextId := id, hist := hist, ctxs := ctxs, points := points } := by
  have held (z : State) (k treat w : Nat) : heldDirty z k (.loc core off) treat w = false := rfl
  unfold storeGroup
  simp only [whereTgt, held, Bool.false_eq_true, if_false]
  obtain ⟨points, asks⟩ := requestAccess_points _ _ _ _ _ _ _ _ _
  rw [asks]
  exact ⟨_, _, _, _, rfl⟩

theorem storeWords_queues (off : Nat) (ws : List Word) (s : State) :
    ∃ id hist ctxs points, storeWords off ws s = { s with nextId := id, hist := hist, ctxs := ctxs, points := points } := by
  induction ws generalizing off s with
  | nil => exact ⟨_, _, _, _, rfl⟩
  | cons w r ih =>
    obtain ⟨id, hist, ctxs, points, e⟩ := storeGroup_local s s.cur.1 off (leBytes w.toNat 8) .weak (word (Config.ownWindow + off))
    obtain ⟨id', hist', ctxs', points', e'⟩ := ih (off + 8) _
    exact ⟨id', hist', ctxs', points', e'.trans (by rw [e])⟩

section
variable (s : State) (d a b : Reg)

theorem exec_tdef : exec (.tdef d a b) s = commit s (if 2 ^ 8 ≤ (rd s a).toNat then illOperand s
    else withImage s (rd s b) fun off =>
      let t : Tensor := { words := wordsOf (ownView s off 64) 8 }
      if ownPoisoned s off 64 then trap s 0x08 0 (rd s b) true
      else finish (if tdefCode t = 0 then
        setCtx s (curCtx s) { ctxOf s (curCtx s) with tensors := NMap.put (ctxOf s (curCtx s)).tensors (rd s a).toNat t } else s) d
        (word (tdefCode t))) := rfl

theorem exec_tget : exec (.tget d a b) s = commit s (if 2 ^ 8 ≤ (rd s a).toNat then illOperand s
    else withImage s (rd s b) fun off =>
      let ws := match tensorAt s (curCtx s) (rd s a).toNat with
        | some t => (upto 8).map (tWord t)
        | none => List.replicate 8 0
      storeReady s (.loc s.cur.1 off) 64 8
        (finish (clearWait (storeWords off ws s)) d (word (b2n (tensorAt s (curCtx s) (rd s a).toNat).isSome)))) := rfl

theorem exec_tdrop : exec (.tdrop d a) s = commit s (if 2 ^ 8 ≤ (rd s a).toNat then illOperand s
    else finish (setCtx s (curCtx s) { ctxOf s (curCtx s) with tensors := NMap.del (ctxOf s (curCtx s)).tensors (rd s a).toNat }) d
      (word (b2n (tensorAt s (curCtx s) (rd s a).toNat).isSome))) := rfl

theorem exec_tlr : exec (.tlr d a) s = commit s (if 8 ≤ (rd s a).toNat ∨ (rd s a).toNat % 4 = 3 then illOperand s
    else finish s d (word (if (rd s a).toNat / 4 = 0 then (engOf (ctxOf s (curCtx s)) ((rd s a).toNat % 4)).counter
      else NMap.get (curFrame s).lastn ((rd s a).toNat % 4) 0))) := rfl

end

section
variable {s : State} {d a b : Reg} {off : Nat}

/-- The checks of a store of several groups: earlier strong reads, then room. -/
theorem storeReady_waits {w : Where} {n entries : Nat} {z : State} (h : strongReads s (locsFrom (accessBase s w) n) ≠ []) :
    storeReady s w n entries z = park s [.settled [] (strongReads s (locsFrom (accessBase s w) n))] :=
  if_pos (by simpa [accessBase] using h)

theorem storeReady_full {w : Where} {n entries : Nat} {z : State} (none : strongReads s (locsFrom (accessBase s w) n) = [])
    (full : segmentRoom s (curCtx s) (curBank s) < entries) : storeReady s w n entries z = park s [.segment (curBank s)] := by
  rw [accessBase] at none
  rw [storeReady, none]
  exact if_pos full

theorem storeReady_goes {w : Where} {n entries : Nat} {z : State} (none : strongReads s (locsFrom (accessBase s w) n) = [])
    (room : entries ≤ segmentRoom s (curCtx s) (curBank s)) : storeReady s w n entries z = z := by
  rw [accessBase] at none
  rw [storeReady, none]
  exact if_neg (Nat.not_lt.2 room)

theorem word_isSome {α : Type} (o : Option α) : word (b2n o.isSome) = if o.isSome then 1 else 0 := by
  cases o <;> rfl

/-- What precedes writes is told by the history alone (R79). -/
theorem withPreceders_of_hist {s t : State} (h : t.hist = s.hist) (ids : List Nat) : withPreceders t ids = withPreceders s ids := by
  have record : wrec t = wrec s := funext fun w => by rw [wrec, wrec, h]
  have shares : sharesLoc t = sharesLoc s := by funext v w; simp only [sharesLoc, record]
  have along (n : Nat) (todo acc : List Nat) : preceders t n todo acc = preceders s n todo acc := by
    induction n generalizing todo acc with
    | zero => rfl
    | succ n ih => simp only [preceders, record, shares, ih]
  rw [withPreceders, withPreceders, h, along]

theorem learn_clearWait (s : State) (k : Nat) (ids : List Nat) : learn (clearWait s) k ids = clearWait (learn s k ids) := by
  unfold learn
  split
  · rfl
  · rw [withPreceders_of_hist (s := s) (t := clearWait s) rfl]
    rfl

theorem exec_tlw (s : State) (d a b : Reg) : exec (.tlw d a b) s = commit s
    (let e := engOf (ctxOf s (curCtx s)) (rd s a).toNat
     if 3 ≤ (rd s a).toNat then illOperand s
     else if (curFrame s).granted = false ∧ e.issued < (rd s b).toNat then engineTrap s
     else if e.counter < (rd s b).toNat then park s [.timeline (rd s a).toNat (rd s b).toNat]
     else finish (clearWait (learn s (curCtx s)
       ((e.learn.filter fun p => decide (p.1 ≤ (rd s b).toNat)).foldl (fun l p => unionNat l p.2) []))) d (word e.counter)) := by
  simp only [← learn_clearWait]
  rfl

theorem learn_keeps (s : State) (k : Nat) (ids : List Nat) : (learn s k ids).wbuf = s.wbuf ∧ curPc (learn s k ids) = curPc s := by
  unfold learn
  split <;> exact ⟨rfl, rfl⟩

end

/-- Settles O40: each instruction's checks in their order; what it stores enters the store queue, and its result comes last. -/
theorem tensorRecords : Obligations.TensorRecords := by
  unfold Obligations.TensorRecords
  intro s d a b x va v k ill
  refine ⟨fun wide => ?wide, fun narrow misaligned => ?misaligned, fun narrow aligned elsewhere => ?elsewhere,
    fun off narrow aligned own within => ?image, fun narrow => ?drops, ?waits, fun wide => ?wideRead, fun low known => ?counter,
    fun lo hi => ?last⟩
  case wide =>
    have ill' (z : State) : commit s (if 2 ^ 8 ≤ x then illOperand s else z) = commit s (illOperand s) := by rw [if_pos wide]
    exact ⟨(exec_tdef s d a b).trans (ill' _), (exec_tget s d a b).trans (ill' _), (exec_tdrop s d a).trans (ill' _)⟩
  case misaligned =>
    have align (h : Nat → State) : commit s (if 2 ^ 8 ≤ x then illOperand s else withImage s va h) = commit s (alignTrap s va) := by
      rw [if_neg (Nat.not_le.2 narrow), withImage_misaligned misaligned]
    exact ⟨(exec_tdef s d a b).trans (align _), (exec_tget s d a b).trans (align _)⟩
  case elsewhere =>
    have prot (h : Nat → State) : commit s (if 2 ^ 8 ≤ x then illOperand s else withImage s va h) = commit s (protTrap s va) := by
      rw [if_neg (Nat.not_le.2 narrow), withImage_elsewhere aligned elsewhere]
    exact ⟨(exec_tdef s d a b).trans (prot _), (exec_tget s d a b).trans (prot _)⟩
  case image =>
    intro t rs ws
    have reaches (h : Nat → State) : commit s (if 2 ^ 8 ≤ x then illOperand s else withImage s va h) = commit s (h off) := by
      rw [if_neg (Nat.not_le.2 narrow), withImage_own aligned own within]
    have defines := (exec_tdef s d a b).trans (reaches _)
    have gets := (exec_tget s d a b).trans (reaches _)
    refine ⟨fun bad => ?_, fun sound accepted => ?_, fun sound refused => ?_, fun some_ => ?_, fun none full => ?_, fun none room => ?_⟩
    · rwa [if_pos bad] at defines
    · have found : tensorAt (setCtx s k { ctxOf s k with tensors := NMap.put (ctxOf s k).tensors x t }) k x = some t := by
        rw [tensorAt, ctxOf_setCtx_same, find_put_same]
      rw [if_neg (sound ▸ Bool.false_ne_true), if_pos accepted, show tdefCode _ = 0 from accepted] at defines
      exact completes_of_finish defines rfl rfl ⟨gives_finish, (tensorAt_finish k x).trans found⟩
    · rw [if_neg (sound ▸ Bool.false_ne_true), if_neg refused] at defines
      exact completes_of_finish defines rfl rfl gives_finish
    · exact parks_of_park (gets.trans (congrArg (commit s) (storeReady_waits some_)))
    · exact parks_of_park (gets.trans (congrArg (commit s) (storeReady_full none full)))
    · obtain ⟨id, hist, ctxs, points, queued⟩ := storeWords_queues off ws s
      have runs := gets.trans (congrArg (commit s) (storeReady_goes none room))
      rw [word_isSome] at runs
      exact completes_of_ready_finish runs (by rw [queued]) (by rw [queued]; rfl) gives_finish
  case drops =>
    have runs := exec_tdrop s d a
    rw [if_neg (Nat.not_le.2 narrow), word_isSome] at runs
    have gone : tensorAt (setCtx s k { ctxOf s k with tensors := NMap.del (ctxOf s k).tensors x }) k x = none := by
      rw [tensorAt, ctxOf_setCtx_same, NMap.del, find_filter_dropped (fun p => p != x) _ (by simp)]
    exact completes_of_finish runs rfl rfl ⟨gives_finish, (tensorAt_finish k x).trans gone⟩
  case waits =>
    intro e
    have runs := exec_tlw s d a b
    refine ⟨fun wide => ?_, fun narrow fresh early => ?_, fun narrow known late => ?_, fun narrow known there => ?_⟩
    · rwa [if_pos wide] at runs
    all_goals rw [if_neg (Nat.not_le.2 narrow)] at runs
    · rwa [if_pos ⟨fresh, early⟩] at runs
    all_goals
      have issued : ¬((curFrame s).granted = false ∧ e.issued < v) := fun h => known.elim (Nat.not_le.2 h.2) fun g => by simp [g] at h
      rw [if_neg issued] at runs
    · rw [if_pos late] at runs
      exact parks_of_park runs
    · rw [if_neg (Nat.not_lt.2 there)] at runs
      obtain ⟨quiet, pc⟩ := learn_keeps s k ((e.learn.filter fun p => decide (p.1 ≤ v)).foldl (fun l p => unionNat l p.2) [])
      exact completes_of_ready_finish runs quiet pc gives_finish
  all_goals have runs := exec_tlr s d a
  case wideRead => rwa [if_pos wide] at runs
  case counter =>
    rw [if_neg (by omega), if_pos (Nat.div_eq_of_lt low), Nat.mod_eq_of_lt low] at runs
    exact completes_of_finish runs rfl rfl gives_finish
  case last =>
    have cls : (rd s a).toNat % 4 = x - 4 := by omega
    rw [if_neg (by omega), if_neg (by omega), cls] at runs
    exact completes_of_finish runs rfl rfl gives_finish

end Sys2Proof.Machine
end

section
/-! SUPPORT. Streamer commands that issue, and copies (R76, R284, R289-R292, R295). -/

namespace Sys2Proof.Machine

open Sys2Proof

/-! ### The issue of a streamer command (R76, R284, R292) -/

section
variable (s : State) (d : Reg) (kind : Option Nat → CmdKind) (rel : Bool)

/-- The command and its entry of the issuer's queue, as the state before leaves them, and what is owed to d. -/
def StreamIssued (t : State) : Prop :=
  (d ≠ 0 → (curFrame t).owed = (owing (inHandler s) d s.nextId none (curFrame s)).owed)
  ∧ ∃ (q : Cmd) (e : QEntry), t.cmds = s.cmds ++ [q] ∧ q.kind = kind (if d = 0 then none else some s.nextId) ∧ q.cls = 2
    ∧ q.num = (ctxOf s (curCtx s)).str.issued + 1 ∧ q.ctx = curCtx s ∧ q.known = (ctxOf s (curCtx s)).known ∧ q.finished = false
    ∧ (ctxOf t (curCtx s)).queue = (ctxOf s (curCtx s)).queue ++ [e] ∧ e.body = .request q.id ∧ e.rel = rel
    ∧ (rel = true → e.after = (releaseAfter s).1 ∧ e.reads = (releaseAfter s).2)

/-- What is owed to d before the command issues. -/
def streamOwes : State :=
  let z := { s with nextId := s.nextId + 1 }
  if d = 0 then z else owe z d s.nextId none

/-- A change of the issuing frame that keeps its owner keeps the context. -/
theorem curCtx_setCur (s : State) (f : Frame) (owner : f.owner = (curFrame s).owner) : curCtx (setCur s f) = curCtx s := by
  simp only [curCtx, curOwner, inHandler_setCur, curFrame_setCur, owner]
  rfl

theorem curPc_setCur (s : State) (f : Frame) (pc : f.pc = (curFrame s).pc) : curPc (setCur s f) = curPc s := by
  simp only [curPc, inHandler_setCur, curFrame_setCur, curCore_setCur_hpc, pc]

/-- A command that has been issued (R93, R94). -/
def issuedCmd (cls : Nat) (kind : CmdKind) : Cmd :=
  { id := s.nextId, ctx := curCtx s, cls := cls, num := (engOf (ctxOf s (curCtx s)) cls).issued + 1, frame := s.cur.2,
    act := (curFrame s).act, pc := curPc s, kind := kind, lin := (curFrame s).lin,
    after := (ctxOf s (curCtx s)).queue.map QEntry.id, known := (ctxOf s (curCtx s)).known, writes := [], asked := 0, lost := [],
    finished := false }

/-- What issuing leaves of the context of the issuing frame, of memory and of the rest. -/
structure CmdIssued (cls : Nat) (kind : CmdKind) (t : State) : Prop where
  cmds   : t.cmds = s.cmds ++ [issuedCmd s cls kind]
  ctx    : ctxOf t (curCtx s) = setEng (ctxOf s (curCtx s)) cls
    { engOf (ctxOf s (curCtx s)) cls with issued := (engOf (ctxOf s (curCtx s)) cls).issued + 1 }
  same   : curCtx t = curCtx s
  owed   : (curFrame t).owed = (curFrame s).owed
  wbuf   : t.wbuf = s.wbuf
  clk    : t.clk = s.clk
  pc     : curPc t = curPc s
  copies : t.copies = s.copies

theorem cmdIssued_issueCmd (cls : Nat) (kind : CmdKind) : CmdIssued s cls kind (issueCmd s cls kind).2 where
  cmds := rfl
  ctx := ctxOf_setCtx_same ..
  same := curCtx_setCur _ _ rfl
  owed := (congrArg Frame.owed (curFrame_setCur ..) :)
  wbuf := rfl
  clk := rfl
  pc := curPc_setCur _ _ rfl
  copies := rfl

theorem queue_setEng (c : Ctx) (cls : Nat) (e : Eng) : (setEng c cls e).queue = c.queue ∧ (setEng c cls e).matchTab = c.matchTab := by
  unfold setEng
  split
  · exact ⟨rfl, rfl⟩
  · split <;> exact ⟨rfl, rfl⟩

theorem issueStreamer_eq : issueStreamer s d kind rel =
    ((issueCmd (streamOwes s d) 2 (kind (if d = 0 then none else some s.nextId))).1,
      pushRequest (issueCmd (streamOwes s d) 2 (kind (if d = 0 then none else some s.nextId))).2 s (streamOwes s d).nextId rel) := rfl

/-- Owing the status word changes the issuing frame's owed results alone. -/
theorem streamOwes_keeps : (streamOwes s d).cmds = s.cmds ∧ (streamOwes s d).ctxs = s.ctxs ∧ curCtx (streamOwes s d) = curCtx s
    ∧ (streamOwes s d).wbuf = s.wbuf ∧ (streamOwes s d).clk = s.clk ∧ curPc (streamOwes s d) = curPc s
    ∧ (streamOwes s d).copies = s.copies
    ∧ (d ≠ 0 → (curFrame (streamOwes s d)).owed = (owing (inHandler s) d s.nextId none (curFrame s)).owed) := by
  unfold streamOwes
  split
  case isTrue zero => exact ⟨rfl, rfl, rfl, rfl, rfl, rfl, rfl, fun general => absurd zero general⟩
  case isFalse =>
    exact ⟨rfl, rfl, curCtx_setCur _ _ rfl, rfl, rfl, curPc_owe .., rfl, fun _ => (congrArg Frame.owed (curFrame_owe ..) :)⟩

/-- The entry that brings a command to its streamer. -/
def requestEntry (before : State) (id cmd : Nat) : QEntry :=
  { msgEntry before 0 0 (.leave 0 0) with
    id := id, body := .request cmd, rel := rel, tag := [], after := if rel then (releaseAfter before).1 else [],
    reads := if rel then (releaseAfter before).2 else [] }

theorem pushRequest_eq (u : State) (cmd : Nat) :
    pushRequest u s cmd rel = pushEntry u (curCtx u) (requestEntry rel s u.nextId cmd) := rfl

/-- The command takes the next number; its entry joins the queue; no byte changes. -/
theorem issueStreamer_spec : (issueStreamer s d kind rel).1 = (ctxOf s (curCtx s)).str.issued + 1
    ∧ StreamIssued s d kind rel (issueStreamer s d kind rel).2
    ∧ (issueStreamer s d kind rel).2.wbuf = s.wbuf ∧ (issueStreamer s d kind rel).2.clk = s.clk
    ∧ curPc (issueStreamer s d kind rel).2 = curPc s ∧ (issueStreamer s d kind rel).2.copies = s.copies
    ∧ curCtx (issueStreamer s d kind rel).2 = curCtx s
    ∧ (ctxOf (issueStreamer s d kind rel).2 (curCtx s)).matchTab = (ctxOf s (curCtx s)).matchTab := by
  rw [issueStreamer_eq]
  generalize kind_ : kind (if d = 0 then none else some s.nextId) = x
  obtain ⟨cmds, ctxs, ctx, wbuf, clk, pc, copies, owed⟩ := streamOwes_keeps s d
  generalize streamOwes s d = z at *
  have at_ (k : Nat) : ctxOf z k = ctxOf s k := by rw [ctxOf, ctxOf, ctxs]
  have issues := cmdIssued_issueCmd z 2 x
  have number : (engOf (ctxOf z (curCtx z)) 2).issued = (ctxOf s (curCtx s)).str.issued := by rw [at_, ctx]; rfl
  have queued := queue_setEng (ctxOf z (curCtx z)) 2
    { engOf (ctxOf z (curCtx z)) 2 with issued := (engOf (ctxOf z (curCtx z)) 2).issued + 1 }
  rw [← issues.ctx, at_, ctx] at queued
  have entry : ctxOf (pushRequest (issueCmd z 2 x).2 s z.nextId rel) (curCtx s) = { ctxOf (issueCmd z 2 x).2 (curCtx s) with
      queue := (ctxOf (issueCmd z 2 x).2 (curCtx s)).queue ++ [requestEntry rel s (issueCmd z 2 x).2.nextId z.nextId] } := by
    rw [pushRequest_eq, ctxOf_pushEntry, issues.same, ctx, if_pos rfl]
  refine ⟨congrArg (· + 1) number, ⟨fun general => issues.owed.trans (owed general), issuedCmd z 2 x,
    requestEntry rel s (issueCmd z 2 x).2.nextId z.nextId, ?cmds, kind_.symm, rfl, congrArg (· + 1) number, ctx, ?known, rfl, ?queue, rfl, rfl,
    fun released => ?after⟩, issues.wbuf.trans wbuf, issues.clk.trans clk, issues.pc.trans pc, issues.copies.trans copies, ?same, ?tab⟩
  case cmds => rw [← cmds]; exact issues.cmds
  case known => exact congrArg Ctx.known ((congrArg (ctxOf z) ctx).trans (at_ _))
  case queue => rw [entry, queued.1]
  case after => exact ⟨if_pos released, if_pos released⟩
  case same => exact issues.same.trans ctx
  case tab => rw [entry]; exact queued.2

variable {s d kind rel}

/-- A move of the issuing frame that leaves what it is owed keeps what has been issued. -/
theorem StreamIssued.moves {s0 u t : State} {g : Frame → Frame} {ds : List Reg} {pc : Word} (h : StreamIssued s d kind rel u)
    (m : Moves (committed s0 u) t g ds pc) (owed : ∀ x, (g x).owed = x.owed) : StreamIssued s d kind rel t := by
  obtain ⟨owes, q, e, cmds, is, cls, num, ctx, known, going, queue, rest⟩ := h
  have frame : (curFrame t).owed = (curFrame u).owed := (congrArg Frame.owed m.frame :).trans (owed _)
  have same : t.cmds = u.cmds := (congrArg State.cmds m.rest :)
  have entries : (ctxOf t (curCtx s)).queue = (ctxOf u (curCtx s)).queue := (congrArg Ctx.queue (m.ctx (curCtx s)) :)
  exact ⟨fun general => frame.trans (owes general), q, e, same.trans cmds, is, cls, num, ctx, known, going, entries.trans queue, rest⟩

end

/-! ### Copies (R289-R292, R295) -/

section
variable {s : State} {i : Instr} {d a b : Reg} {va vb : Word} {k : Option (Nat × Nat) → State}

/-- The barrier operand that a copy goes on with. -/
theorem barrierArg_of {bar : Option (Nat × Nat)}
    (h : (vb = 0 ∧ bar = none) ∨ (vb ≠ 0 ∧ vb.toNat % 8 = 0 ∧ bar.isSome = true ∧ localTarget s vb = bar)) :
    barrierArg s vb k = k bar := by
  obtain ⟨rfl, rfl⟩ | ⟨some_, -, there, place⟩ := h
  · exact if_pos rfl
  · obtain ⟨r, rfl⟩ := Option.isSome_iff_exists.1 there
    rw [barrierArg, if_neg some_, place]

theorem barrierArg_lost (some_ : vb ≠ 0) (lost : localTarget s vb = none) : barrierArg s vb k = protTrap s vb := by
  rw [barrierArg, if_neg some_, lost]

/-- An aligned operand that is not lost is none or a place. -/
theorem barrier_cases (aligned : vb.toNat % 8 = 0) (found : ¬(vb ≠ 0 ∧ vb.toNat % 8 = 0 ∧ localTarget s vb = none)) :
    ∃ bar, (vb = 0 ∧ bar = none) ∨ (vb ≠ 0 ∧ vb.toNat % 8 = 0 ∧ bar.isSome = true ∧ localTarget s vb = bar) := by
  by_cases zero : vb = 0
  · exact ⟨none, .inl ⟨zero, rfl⟩⟩
  · refine ⟨localTarget s vb, .inr ⟨zero, aligned, Option.ne_none_iff_isSome.1 fun lost => found ⟨zero, aligned, lost⟩, rfl⟩⟩

theorem exec_cpy (s : State) (d a b : Reg) : exec (.cpy d a b) s = commit s (if (rd s a).toNat % 32 ≠ 0 then alignTrap s (rd s a)
    else if rd s b ≠ 0 ∧ (rd s b).toNat % 8 ≠ 0 then alignTrap s (rd s b)
    else atOwn s (rd s a) fun off => if localSize s s.cur.1 (curOwner s) < off + 32 then protTrap s (rd s a)
      else barrierArg s (rd s b) fun bar =>
        if ownPoisoned s off 32 then trap s 0x08 0 (rd s a)
        else if 2 ^ 40 < ((wordsOf (ownView s off 32) 4).getD 2 0).toNat ∨ (wordsOf (ownView s off 32) 4).getD 3 0 ≠ 0 then engineTrap s
        else issueCopy s d ((wordsOf (ownView s off 32) 4).getD 0 0) ((wordsOf (ownView s off 32) 4).getD 1 0)
          ((wordsOf (ownView s off 32) 4).getD 2 0).toNat none bar) := rfl

/-- What the two records of `cpyt` come to. -/
def recordsCopied (s : State) (d : Reg) (x : Nat) (bar : Option (Nat × Nat)) : State :=
  match tensorAt s (curCtx s) (x % 256), tensorAt s (curCtx s) (x / 256) with
  | some t, some u =>
    if tKind t = 2 ∨ tKind u = 2 ∨ tFmt t ≠ tFmt u ∨ tDims t ≠ tDims u then engineTrap s
    else issueCopy s d 0 0 (tCount u * elemBytes (tFmt u)) (some (u, t)) bar
  | _, _ => engineTrap s

theorem recordsCopied_both {x : Nat} {bar : Option (Nat × Nat)} {t u : Tensor} (first : tensorAt s (curCtx s) (x % 256) = some t)
    (second : tensorAt s (curCtx s) (x / 256) = some u) : recordsCopied s d x bar =
    if tKind t = 2 ∨ tKind u = 2 ∨ tFmt t ≠ tFmt u ∨ tDims t ≠ tDims u then engineTrap s
    else issueCopy s d 0 0 (tCount u * elemBytes (tFmt u)) (some (u, t)) bar := by
  rw [recordsCopied, first, second]

theorem recordsCopied_missing {x : Nat} {bar : Option (Nat × Nat)}
    (missing : tensorAt s (curCtx s) (x % 256) = none ∨ tensorAt s (curCtx s) (x / 256) = none) :
    recordsCopied s d x bar = engineTrap s := by
  unfold recordsCopied
  split
  case h_1 first second => simp [first, second] at missing
  case h_2 => rfl

theorem exec_cpyt (s : State) (d a b : Reg) : exec (.cpyt d a b) s = commit s (if 2 ^ 16 ≤ (rd s a).toNat then illOperand s
    else if rd s b ≠ 0 ∧ (rd s b).toNat % 8 ≠ 0 then alignTrap s (rd s b)
    else barrierArg s (rd s b) (recordsCopied s d (rd s a).toNat)) := rfl

theorem exec_cpst_wide (wide : 4 ≤ (rd s b).toNat) : exec (.cpst d a b) s = commit s (illOperand s) := congrArg (commit s) (if_pos wide)

theorem exec_cpst_none (narrow : (rd s b).toNat < 4) (none : copyRecOf s (rd s a).toNat = none) :
    exec (.cpst d a b) s = commit s (parkValue s d allOnes) := by
  refine congrArg (commit s) ((if_neg (Nat.not_le.2 narrow)).trans ?_)
  rw [none]

/-- A word of a copy's record, by its number (R295). -/
def copyField (r : CopyRec) : Nat → Word
  | 0 => word (r.prog + r.chunks * 2 ^ 32)
  | 1 => (match r.bad with | some o => word (o + 2 ^ 63) | none => 0)
  | 2 => r.faddr
  | _ => word r.fcause

theorem exec_cpst_found {r : CopyRec} (narrow : (rd s b).toNat < 4) (found : copyRecOf s (rd s a).toNat = some r) :
    exec (.cpst d a b) s = commit s (parkValue s d (copyField r (rd s b).toNat)) := by
  refine congrArg (commit s) ((if_neg (Nat.not_le.2 narrow)).trans ?_)
  rw [found]
  generalize (rd s b).toNat = n
  match n with
  | 0 | 1 | 2 => rfl
  | n + 3 => rfl

/-- The commands with the abort mark set on a copy. -/
def abortMark (k num : Nat) (c : Cmd) : Cmd :=
  if c.ctx = k ∧ c.cls = 2 ∧ c.num = num then
    (match c.kind with
     | .copy src dst len recs bar ans chunk status bad faddr fcause _ =>
       { c with kind := .copy src dst len recs bar ans chunk status bad faddr fcause true }
     | _ => c)
  else c

theorem exec_cabort_none (none : copyRecOf s (rd s a).toNat = none) : exec (.cabort d a) s = commit s (parkValue s d 2) := by
  refine congrArg (commit s) ?_
  rw [none]

theorem exec_cabort_ended {r : CopyRec} (found : copyRecOf s (rd s a).toNat = some r) (ended : r.done = true) :
    exec (.cabort d a) s = commit s (parkValue s d 1) := by
  refine congrArg (commit s) ?_
  rw [found]
  exact if_pos ended

theorem exec_cabort_going {r : CopyRec} (found : copyRecOf s (rd s a).toNat = some r) (going : r.done = false) :
    exec (.cabort d a) s = commit s (parkValue { s with cmds := s.cmds.map (abortMark (curCtx s) (rd s a).toNat) } d 0) := by
  refine congrArg (commit s) ?_
  rw [found]
  exact if_neg (going ▸ Bool.false_ne_true)

theorem abortMark_same (k num : Nat) (c : Cmd) : (abortMark k num c).id = c.id ∧ (abortMark k num c).ctx = c.ctx
    ∧ (abortMark k num c).cls = c.cls ∧ (abortMark k num c).num = c.num := by
  unfold abortMark
  split
  · split <;> exact ⟨rfl, rfl, rfl, rfl⟩
  · exact ⟨rfl, rfl, rfl, rfl⟩

/-- Only the copy itself is marked. -/
theorem abortMark_other {k num : Nat} {c : Cmd} (h : ¬(c.ctx = k ∧ c.cls = 2 ∧ c.num = num)) : abortMark k num c = c := if_neg h

theorem abortMark_marks {k num : Nat} {c : Cmd} (h : c.ctx = k ∧ c.cls = 2 ∧ c.num = num) {src dst len recs bar ans ch st bad fa fc ab}
    (is : (abortMark k num c).kind = .copy src dst len recs bar ans ch st bad fa fc ab) : ab = true := by
  rw [abortMark, if_pos h] at is
  split at is
  · cases is; rfl
  · next other => exact absurd is (other _ _ _ _ _ _ _ _ _ _ _ _)

/-- The record of a copy that has been issued. -/
def withCopyRecord (s : State) (len : Nat) (t : State) : State :=
  { t with copies := t.copies ++ [{ ctx := curCtx s, num := (ctxOf s (curCtx s)).str.issued + 1, prog := 0, chunks := (len + 65535) / 65536,
                                    bad := none, faddr := 0, fcause := 0, done := false }] }

/-- A copy issues, or waits for a command to be done, or for room. -/
theorem issues_of_issueCopy {src dst : Word} {len : Nat} {recs : Option (Tensor × Tensor)} {bar : Option (Nat × Nat)}
    (runs : exec i s = commit s (issueCopy s d src dst len recs bar)) :
    (64 ≤ openCount s (curCtx s) 2 → Parks i s [.cmdRoom 2 64])
    ∧ (openCount s (curCtx s) 2 < 64 → streamIssues i s s d (fun ans => .copy src dst len recs bar ans 0 0 none 0 0 false) true false
        (withCopyRecord s len) fun _ => True) := by
  refine ⟨fun full => ?_, fun room => ⟨fun full => ?_, fun room => ?_⟩⟩
  · rw [issueCopy, if_pos full] at runs
    exact parks_of_park runs
  all_goals rw [issueCopy, if_neg (Nat.not_le.2 ‹_›)] at runs
  · rw [needSegment_full s _ full] at runs
    exact parks_of_park runs
  · rw [needSegment_room s _ room] at runs
    obtain ⟨num, issued, wbuf, -, pc, -⟩ := issueStreamer_spec s d (fun ans => .copy src dst len recs bar ans 0 0 none 0 0 false) true
    generalize issueStreamer s d (fun ans => .copy src dst len recs bar ans 0 0 none 0 0 false) true = r at *
    have record : exec i s = commit s (retire4 (clearWait (withCopyRecord s len r.2))) := by
      rw [runs, withCopyRecord, ← num]
    have retires := (retires_clearWait_retire4 (withCopyRecord s len r.2)).committed (s := s)
    have recorded : StreamIssued s d (fun ans => .copy src dst len recs bar ans 0 0 none 0 0 false) true (withCopyRecord s len r.2) := issued
    have ends := recorded.moves retires.moves fun _ => rfl
    exact completes_of_ready_retire record wbuf pc ⟨trivial, ends⟩

end

/-- Settles O37: the checks of each instruction in their order, and one lemma for what issues. -/
theorem copies : Obligations.Copies := by
  unfold Obligations.Copies
  intro s d a b va vb k opens issues lost barrier
  have barriers {bar} (h : barrier bar) : ¬(vb ≠ 0 ∧ vb.toNat % 8 ≠ 0) := by
    obtain ⟨zero, -⟩ | ⟨-, aligned, -⟩ := h
    · exact fun h => h.1 zero
    · exact fun h => h.2 aligned
  have misaligned (h : vb.toNat % 8 ≠ 0) : vb ≠ 0 ∧ vb.toNat % 8 ≠ 0 := ⟨fun zero => h (by rw [zero]; rfl), h⟩
  have copies := exec_cpy s d a b
  have records := exec_cpyt s d a b
  refine ⟨fun bad => ?align, fun aligned bad => ?alignBar, fun aligned barAligned elsewhere => ?window,
    fun off aligned barAligned own => ?image, fun off bar aligned own within bars sound => ?descriptor, fun wide => ?wide,
    fun narrow bad => ?alignBar', fun narrow gone => ?lost, fun narrow barAligned found missing => ?missing,
    fun bar t v narrow bars first second => ?records, fun wide => ?wideQuery, fun narrow none => ?noRecord, fun r narrow found => ?asks,
    fun none => ?noCopy, fun r found ended => ?ended, fun r found going => ?marks⟩
  case align => rwa [if_pos bad] at copies
  case wide => rwa [if_pos wide] at records
  case alignBar => rwa [if_neg (not_not_intro aligned), if_pos (misaligned bad)] at copies
  case window =>
    rw [if_neg (not_not_intro aligned), if_neg fun h => h.2 barAligned] at copies
    exact traps_of_not_own copies elsewhere
  case image =>
    rw [if_neg (not_not_intro aligned), if_neg fun h => h.2 barAligned] at copies
    have at_ := exec_of_own copies own
    refine ⟨fun beyond => ?_, fun within gone => ?_, fun within found bad => ?_⟩
    · rwa [if_pos beyond] at at_
    · rwa [if_neg (Nat.not_lt.2 within), barrierArg_lost gone.1 gone.2.2] at at_
    · obtain ⟨bar, is⟩ := barrier_cases barAligned found
      rwa [if_neg (Nat.not_lt.2 within), barrierArg_of is, if_pos bad] at at_
  case descriptor =>
    intro ws len
    rw [if_neg (not_not_intro aligned), if_neg (barriers bars)] at copies
    have at_ := exec_of_own copies own
    rw [if_neg (Nat.not_lt.2 within), barrierArg_of bars, if_neg (sound ▸ Bool.false_ne_true)] at at_
    refine ⟨fun bad => ?_, fun short clear => ?_⟩
    · rwa [if_pos bad] at at_
    · rw [if_neg fun bad => bad.elim (Nat.not_lt.2 short) (· clear)] at at_
      exact issues_of_issueCopy at_
  case alignBar' => rwa [if_neg (Nat.not_le.2 narrow), if_pos (misaligned bad)] at records
  case lost =>
    rwa [if_neg (Nat.not_le.2 narrow), if_neg fun h => h.2 gone.2.1, barrierArg_lost gone.1 gone.2.2] at records
  case missing =>
    obtain ⟨bar, is⟩ := barrier_cases barAligned found
    rwa [if_neg (Nat.not_le.2 narrow), if_neg fun h => h.2 barAligned, barrierArg_of is, recordsCopied_missing missing] at records
  case records =>
    intro fits
    rw [if_neg (Nat.not_le.2 narrow), if_neg (barriers bars), barrierArg_of bars, recordsCopied_both first second] at records
    refine ⟨fun misfits => ?_, fun same => ?_⟩
    · rwa [if_pos (not_not.1 fun h => misfits (by simpa [fits, not_or, and_assoc] using h))] at records
    · rw [if_neg (by simpa [fits, not_or, and_assoc] using same)] at records
      exact issues_of_issueCopy records
  case wideQuery => exact exec_cpst_wide wide
  case noRecord => exact completesOwing_of_still (exec_cpst_none narrow none)
  case asks => exact completesOwing_of_still (exec_cpst_found narrow found)
  case noCopy => exact completesOwing_of_still (exec_cabort_none none)
  case ended => exact completesOwing_of_still (exec_cabort_ended found ended)
  case marks =>
    have runs := exec_cabort_going (d := d) found going
    refine ⟨s.cmds.map (abortMark k va.toNat), completesOwing_of_parkValue runs rfl rfl rfl trivial, ?_, ?_, ?_⟩
    · simp only [List.map_map, Function.comp_def, (abortMark_same ..).1]
    all_goals
      intro c' mem
      obtain ⟨c, is, rfl⟩ := List.mem_map.1 mem
      obtain ⟨-, ctx, cls, num⟩ := abortMark_same k va.toNat c
      rw [ctx, cls, num]
    · by_cases mine : c.ctx = k ∧ c.cls = 2 ∧ c.num = va.toNat
      · exact .inr mine
      · exact .inl ((abortMark_other mine).symm ▸ is)
    · intro inCtx copy same src dst len recs bar ans ch st bad fa fc ab kind
      exact abortMark_marks ⟨inCtx, copy, same⟩ kind

end Sys2Proof.Machine
end

section
/-! SUPPORT. The maypole's instructions (R296-R300). -/

namespace Sys2Proof.Machine

open Sys2Proof

/-! ### An answer after a wait (R127, R133) -/

theorem put_put {α : Type} (m : NMap α) (k : Nat) (x y : α) : NMap.put (NMap.put m k x) k y = NMap.put m k y := by
  induction m with
  | nil => simp [NMap.put]
  | cons p r ih =>
    obtain ⟨a, z⟩ := p
    rcases Nat.lt_trichotomy k a with below | same | above
    · simp [NMap.put, below]
    · simp [NMap.put, same]
    · simp [NMap.put, Nat.lt_asymm above, Nat.ne_of_gt above, ih]

theorem setFrame_setFrame (s : State) (c f : Nat) (x y : Frame) : setFrame (setFrame s c f x) c f y = setFrame s c f y := by
  simp [setFrame, setCore, coreOf, put_put]

theorem setCur_setCur (s : State) (x y : Frame) : setCur (setCur s x) y = setCur s y := setFrame_setFrame ..

section
variable {s u : State} {i : Instr} {d : Reg} {v : Word} {P : State → Prop}

/-- What is owed for a value known at issue. -/
def valueOwed (u : State) (d : Reg) (v : Word) : State := owe { u with nextId := u.nextId + 1 } d u.nextId (some v)

/-- The end of an earlier wait and what is owed may come in either order. -/
theorem valueOwed_clearWait (u : State) (d : Reg) (v : Word) :
    valueOwed (clearWait u) d v = setCur (valueOwed u d v) (ready (curFrame (valueOwed u d v))) := by
  have frame : curFrame (clearWait u) = ready (curFrame u) := curFrame_setCur ..
  have mode : inHandler (clearWait u) = inHandler u := inHandler_setCur ..
  calc valueOwed (clearWait u) d v
    _ = setCur (clearWait { u with nextId := u.nextId + 1 }) (owing (inHandler (clearWait u)) d u.nextId (some v) (curFrame (clearWait u))) := rfl
    _ = setCur { u with nextId := u.nextId + 1 } (ready (owing (inHandler u) d u.nextId (some v) (curFrame u))) := by
      rw [frame, mode]; exact setCur_setCur ..
    _ = _ := by
      rw [valueOwed, curFrame_owe]; exact (setCur_setCur ..).symm

/-- An instruction that may have parked before owes its value at the end of its wait. -/
theorem completesOwing_of_ready_parkValue (runs : exec i s = commit s (parkValue (clearWait u) d v)) (quiet : u.wbuf = s.wbuf)
    (clk : u.clk = s.clk) (pc : curPc u = curPc s) (holds : P (committed s (parkValue (clearWait u) d v))) : CompletesOwing i s u d v P := by
  have owed : curPc (valueOwed u d v) = curPc s := (curPc_owe ..).trans pc
  have ready_ := moves_setCur (valueOwed u d v) ready rfl rfl
  rw [← valueOwed_clearWait] at ready_
  have waits := ready_.trans (moves_parkedAfter (valueOwed (clearWait u) d v) [.answer u.nextId]) fun x y h =>
    congrArg (waiting [.answer u.nextId] (valueOwed (clearWait u) d v).clk) h
  rw [ready_.pc, owed] at waits
  have moves : Moves (valueOwed u d v) (parkValue (clearWait u) d v) (waiting [.answer u.nextId] s.clk) [] (curPc s + 4) := clk ▸ waits
  exact ⟨_, runs, moves.committed, moves.keeps_bytes quiet noByte, holds⟩

/-- The tables of a context are as its effects left them. -/
theorem matchTab_parkAnswer (u : State) (id k : Nat) : (ctxOf (parkAnswer u id) k).matchTab = (ctxOf u k).matchTab :=
  (congrArg Ctx.matchTab ((moves_parkedAfter u [.answer id]).ctx k) :)

end

theorem matchTab_parkValue (s u : State) (d : Reg) (v : Word) (k : Nat) :
    (ctxOf (committed s (parkValue u d v)) k).matchTab = (ctxOf u k).matchTab := matchTab_parkAnswer _ u.nextId k

/-! ### Match tables (R296) -/

theorem isSource_of_sourceOf {s : State} {k tag : Nat} {e : MatchEntry} (h : sourceOf s k tag = some e) : isSource tag e = true :=
  List.find?_some h

/-- An entry that the test picks takes the place of those it picked. -/
theorem find_setMatch {s : State} {k : Nat} {p : MatchEntry → Bool} {e x : MatchEntry} (found : (ctxOf s k).matchTab.find? p = some x)
    (picked : p e = true) : (ctxOf (setMatch s k p e) k).matchTab.find? p = some e := by
  have same : p ∘ (fun x => if p x then e else x) = p := by
    funext x
    by_cases h : p x = true
    · simp [h, picked]
    · simp [h]
  rw [setMatch, ctxOf_setCtx_same, List.find?_map, same, found]
  exact congrArg some (if_pos (List.find?_some found))

theorem find_dropMatch (s : State) (k : Nat) (p : MatchEntry → Bool) : (ctxOf (dropMatch s k p) k).matchTab.find? p = none := by
  rw [dropMatch, ctxOf_setCtx_same, List.find?_eq_none]
  intro x kept
  simpa using (List.mem_filter.1 kept).2

theorem sourceOf_addMatch {s : State} {k tag b : Nat} (none : sourceOf s k tag = none) :
    sourceOf (addMatch s k (.source b tag 0 0 [] [] [])) k tag = some (.source b tag 0 0 [] [] []) := by
  rw [sourceOf, addMatch, ctxOf_setCtx_same, List.find?_append, show List.find? (isSource tag) (ctxOf s k).matchTab = Option.none from none]
  simp [isSource]

/-! ### `mcast` (R298) -/

/-- `s` issues as `s0` does: the same frame, context, bank and PC, with the same queue. -/
structure IssuesAs (s0 s : State) : Prop where
  ctx   : curCtx s = curCtx s0
  bank  : curBank s = curBank s0
  queue : (ctxOf s (curCtx s)).queue = (ctxOf s0 (curCtx s0)).queue
  wbuf  : s.wbuf = s0.wbuf
  clk   : s.clk = s0.clk
  pc    : curPc s = curPc s0

theorem IssuesAs.room {s0 s : State} (h : IssuesAs s0 s) :
    segmentRoom s (curCtx s) (curBank s) = segmentRoom s0 (curCtx s0) (curBank s0) := by
  rw [segmentRoom, segmentRoom, h.queue, h.bank]

/-- A streamer command whose frame waits for its match table's answer. -/
theorem streamIssues_of_parkAnswer {s0 s : State} {i : Instr} {d : Reg} {kind : Option Nat → CmdKind} {P : State → Prop} (as : IssuesAs s0 s)
    (runs : exec i s0 = commit s0 (needSegment s0 1 fun _ =>
      parkAnswer { (issueStreamer s d kind false).2 with nextId := (issueStreamer s d kind false).2.nextId + 1 }
        (issueStreamer s d kind false).2.nextId))
    (holds : ∀ t, (ctxOf t (curCtx s)).matchTab = (ctxOf s (curCtx s)).matchTab → P t) : streamIssues i s0 s d kind false true id P := by
  refine ⟨fun full => ?_, fun room => ?_⟩
  · rw [as.room] at full
    rw [as.bank]
    rw [needSegment_full s0 _ full] at runs
    exact parks_of_park runs
  · rw [as.room] at room
    rw [needSegment_room s0 _ room] at runs
    obtain ⟨-, issued, wbuf, clk, pc, -, -, tab⟩ := issueStreamer_spec s d kind false
    generalize (issueStreamer s d kind false).2 = r at *
    have moves := (moves_parkedAfter { r with nextId := r.nextId + 1 } [.answer r.nextId]).committed (s := s0)
    have counted : StreamIssued s d kind false { r with nextId := r.nextId + 1 } := issued
    have tables : (ctxOf (committed s0 (parkAnswer { r with nextId := r.nextId + 1 } r.nextId)) (curCtx s)).matchTab
        = (ctxOf s (curCtx s)).matchTab := (matchTab_parkAnswer _ r.nextId _).trans tab
    exact completesWaiting_of_parkAnswer runs (wbuf.trans as.wbuf) (clk.trans as.clk) (pc.trans as.pc)
      ⟨holds _ tables, counted.moves moves fun _ => rfl⟩

section
variable {s : State} {d a b : Reg} {src tag : Nat}

/-- The source's answer to a join, or the join on its way. -/
def joins (s : State) (d : Reg) (src tag : Nat) (y : Word) : State :=
  if bits y 63 36 ≠ 0 ∨ bits y 15 8 = 0 ∨ (bit y 35 = true ∧ bits y 34 16 % 8 ≠ 0) then illOperand s
  else if (matchBank s (curCtx s)).isNone then parkValue s d 1
  else if (receiverOf s (curCtx s) src tag).isSome then parkValue s d 2
  else match tensorAt s (curCtx s) (bits y 7 0) with
    | none => parkValue s d 3
    | some t =>
      if tKind t ≠ 0 ∨ tPacked t = false ∨ localSize s s.cur.1 (curOwner s) < tBase t + bits y 15 8 * landLen t then parkValue s d 3
      else needSegment s 1 fun s =>
        parkAnswer (post (owe { s with nextId := s.nextId + 1 } d s.nextId none) src (curOwner (owe { s with nextId := s.nextId + 1 } d s.nextId none))
          (.join tag (bits y 7 0) (bits y 15 8) (if bit y 35 then some (bits y 34 16) else none) s.nextId)) s.nextId

theorem exec_join (group : groupWord (rd s a) = some (src, tag)) : exec (.join d a b) s = commit s (joins s d src tag (rd s b)) := by
  refine congrArg (commit s) ?_
  rw [group]
  rfl

/-- A group that is left: at its receiver, at its source, or by neither. -/
def leaves (s : State) (d : Reg) (src tag : Nat) : State :=
  match receiverOf s (curCtx s) src tag, (if src = s.cur.1 then sourceOf s (curCtx s) tag else none) with
  | some (.receiver _ _ _ id _ _ _ _ _ _), _ =>
    needSegment s 1 fun z => parkValue (dropMatch (post z src (curOwner z) (.leave tag id)) (curCtx s) (isReceiver src tag)) d 0
  | _, some (.source _ _ sent mail subs _ _) =>
    if subs.isEmpty ∧ mail = sent then parkValue (dropMatch s (curCtx s) (isSource tag)) d 0 else parkValue s d 2
  | _, _ => parkValue s d 1

theorem exec_leave (group : groupWord (rd s a) = some (src, tag)) : exec (.leave d a) s = commit s (leaves s d src tag) := by
  refine congrArg (commit s) ?_
  simp only [group]
  rfl

/-- Tiles that are freed. -/
def frees (s : State) (d : Reg) (src tag n : Nat) : State :=
  match receiverOf s (curCtx s) src tag with
  | some (.receiver rb c t id landing slots bar arrived freed dropped) =>
    if diff32 arrived freed < n then parkValue s d allOnes
    else needSegment s 1 fun z =>
      parkValue (setMatch (post z src (curOwner z) (.free tag id n none)) (curCtx s) (isReceiver src tag)
        (.receiver rb c t id landing slots bar arrived ((freed + n) % 2 ^ 32) dropped)) d (word (diff32 arrived ((freed + n) % 2 ^ 32)))
  | _ => parkValue s d allOnes

theorem exec_bfree (group : groupWord (rd s a) = some (src, tag)) : exec (.bfree d a b) s = commit s
    (if (rd s b).toNat = 0 ∨ 255 < (rd s b).toNat then illOperand s else frees s d src tag (rd s b).toNat) := by
  refine congrArg (commit s) ?_
  simp only [group]
  rfl

/-- The counter of a group, once it has passed a value. -/
def boxes (s : State) (d : Reg) (src tag v : Nat) : State :=
  if src = s.cur.1 then
    (match sourceOf s (curCtx s) tag with
     | some (.source _ _ _ mail _ _ box) =>
       if diff32 mail v < 2 ^ 31 then parkValue (clearWait (learn s (curCtx s) box)) d (word mail) else park s [.mailbox src tag v]
     | _ => parkValue s d allOnes)
  else
    (match receiverOf s (curCtx s) src tag with
     | some (.receiver _ _ _ _ _ _ _ arrived _ dropped) =>
       if diff32 arrived v < 2 ^ 31 then parkValue (clearWait s) d (word (arrived + dropped * 2 ^ 32)) else park s [.mailbox src tag v]
     | _ => parkValue s d allOnes)

theorem exec_mbox (group : groupWord (rd s a) = some (src, tag)) : exec (.mbox d a b) s = commit s
    (if 2 ^ 32 ≤ (rd s b).toNat then illOperand s else boxes s d src tag (rd s b).toNat) := by
  refine congrArg (commit s) ?_
  simp only [boxes, ← learn_clearWait]
  rw [group] <;> rfl

/-- The source entry that a tile goes by, made where there is none and a bank has room. -/
def castSource (s : State) (tag : Nat) : Option (State × MatchEntry) :=
  match sourceOf s (curCtx s) tag, matchBank s (curCtx s) with
  | some e, _ => some (s, e)
  | none, some sb => some (addMatch s (curCtx s) (.source sb tag 0 0 [] [] []), .source sb tag 0 0 [] [] [])
  | none, none => none

/-- The source entry once it has sent one more tile to the subscribers of now. -/
def sentEntry (sb tag sent mail : Nat) (subs : List (Nat × Nat)) (op : List (Nat × List Nat × List Nat)) (box : List Nat) : MatchEntry :=
  .source sb tag ((sent + 1) % 2 ^ 32) mail subs (op ++ [(sent, unread :: subs.map Prod.fst, [])]) box

/-- A tile is sent, by its source entry. -/
def casts (s : State) (d : Reg) (tag : Nat) (t : Tensor) : Option (State × MatchEntry) → State
  | some (z, .source b tag' sent mail subs op box) =>
    let r := (issueStreamer (setMatch z (curCtx s) (isSource tag) (sentEntry b tag' sent mail subs op box)) d
      (fun ans => .mcast t tag sent ans false subs 0) false).2
    parkAnswer { r with nextId := r.nextId + 1 } r.nextId
  | _ => engineTrap s

theorem exec_mcast (s : State) (d a : Reg) : exec (.mcast d a) s = commit s
    (if bits (rd s a) 7 0 ≠ 0 ∨ bits (rd s a) 31 16 ≠ 0 ∨ bits (rd s a) 63 48 ≠ 0 then illOperand s
    else match tensorAt s (curCtx s) (bits (rd s a) 15 8) with
      | none => engineTrap s
      | some t =>
        if tKind t = 2 then engineTrap s
        else if 64 ≤ openCount s (curCtx s) 2 then park s [.cmdRoom 2 64]
        else needSegment s 1 fun _ => casts s d (bits (rd s a) 47 32) t (castSource s (bits (rd s a) 47 32))) := rfl

theorem ill_of_no_group (none : groupWord (rd s a) = none) : exec (.join d a b) s = commit s (illOperand s)
    ∧ exec (.leave d a) s = commit s (illOperand s) ∧ exec (.bfree d a b) s = commit s (illOperand s)
    ∧ exec (.mbox d a b) s = commit s (illOperand s) := by
  refine ⟨congrArg (commit s) ?_, congrArg (commit s) ?_, congrArg (commit s) ?_, congrArg (commit s) ?_⟩
  all_goals rw [none]

end

theorem post_quiet (s : State) (core owner : Nat) (b : Body) : (post s core owner b).wbuf = s.wbuf ∧ (post s core owner b).clk = s.clk
    ∧ curPc (post s core owner b) = curPc s := by
  obtain ⟨cs, hs, e⟩ := post_eq s core owner b
  rw [e]
  exact ⟨rfl, rfl, rfl⟩

section
variable {s : State} {d a b : Reg} {src tag : Nat} {x y : Word}

/-- The operand of `join` has its form. -/
def joinForm (y : Word) : Prop := bits y 63 36 = 0 ∧ bits y 15 8 ≠ 0 ∧ (bit y 35 = true → bits y 34 16 % 8 = 0)

theorem joinForm_iff : joinForm y ↔ ¬(bits y 63 36 ≠ 0 ∨ bits y 15 8 = 0 ∨ (bit y 35 = true ∧ bits y 34 16 % 8 ≠ 0)) := by
  simp only [joinForm, not_or, not_and, ne_eq, not_not]

/-- The record that the tiles of a group land by. -/
def joinLands (s : State) (y : Word) : Prop := ∃ t, tensorAt s (curCtx s) (bits y 7 0) = some t ∧ tKind t = 0 ∧ tPacked t = true
  ∧ tBase t + bits y 15 8 * landLen t ≤ localSize s s.cur.1 (curOwner s)

/-- The state in which a join waits for its source's answer. -/
def joinPosted (s : State) (d : Reg) (src tag : Nat) (y : Word) : State :=
  post (owe { s with nextId := s.nextId + 1 } d s.nextId none) src (curOwner s)
    (.join tag (bits y 7 0) (bits y 15 8) (if bit y 35 then some (bits y 34 16) else none) s.nextId)

theorem joins_malformed (h : ¬joinForm y) : joins s d src tag y = illOperand s := if_pos (not_not.1 (h ∘ joinForm_iff.2))

theorem joins_full (form : joinForm y) (full : matchBank s (curCtx s) = none) : joins s d src tag y = parkValue s d 1 := by
  rw [joins, if_neg (joinForm_iff.1 form), if_pos (by rw [full]; rfl)]

theorem joins_again (form : joinForm y) (room : (matchBank s (curCtx s)).isSome = true)
    (there : (receiverOf s (curCtx s) src tag).isSome = true) : joins s d src tag y = parkValue s d 2 := by
  rw [joins, if_neg (joinForm_iff.1 form), if_neg (by simpa using Option.isSome_iff_ne_none.1 room), if_pos there]

theorem joins_unlanded (form : joinForm y) (room : (matchBank s (curCtx s)).isSome = true)
    (fresh : receiverOf s (curCtx s) src tag = none) (lost : ¬joinLands s y) : joins s d src tag y = parkValue s d 3 := by
  rw [joins, if_neg (joinForm_iff.1 form), if_neg (by simpa using Option.isSome_iff_ne_none.1 room), fresh, if_neg (by simp)]
  split
  case h_1 => rfl
  case h_2 t found =>
    refine if_pos (not_not.1 fun sound => lost ⟨t, found, ?_⟩)
    simpa [not_or] using sound

theorem joins_lands (form : joinForm y) (room : (matchBank s (curCtx s)).isSome = true)
    (fresh : receiverOf s (curCtx s) src tag = none) (lands : joinLands s y) :
    joins s d src tag y = needSegment s 1 fun z => parkAnswer (joinPosted z d src tag y) z.nextId := by
  obtain ⟨t, found, own, packed, fits⟩ := lands
  have sound : ¬(tKind t ≠ 0 ∨ tPacked t = false ∨ localSize s s.cur.1 (curOwner s) < tBase t + bits y 15 8 * landLen t) := by
    simp [own, packed, fits]
  simp only [joins, if_neg (joinForm_iff.1 form), if_neg (show ¬(matchBank s (curCtx s)).isNone = true by
    simpa using Option.isSome_iff_ne_none.1 room), fresh, Option.isSome_none, Bool.false_eq_true, if_false, found, if_neg sound, joinPosted,
    curOwner_owe]
  rfl

theorem joinPosted_quiet (s : State) (d : Reg) (src tag : Nat) (y : Word) : (joinPosted s d src tag y).wbuf = s.wbuf
    ∧ (joinPosted s d src tag y).clk = s.clk ∧ curPc (joinPosted s d src tag y) = curPc s := by
  obtain ⟨wbuf, clk, pc⟩ := post_quiet (owe { s with nextId := s.nextId + 1 } d s.nextId none) src (curOwner s)
    (.join tag (bits y 7 0) (bits y 15 8) (if bit y 35 then some (bits y 34 16) else none) s.nextId)
  exact ⟨wbuf, clk, pc.trans (curPc_owe ..)⟩

end

section
variable {s : State} {d : Reg} {src tag v : Nat}

theorem leaves_receiver {rb c t id l n bar ar fr dr}
    (found : receiverOf s (curCtx s) src tag = some (.receiver rb c t id l n bar ar fr dr)) :
    leaves s d src tag = needSegment s 1 fun z =>
      parkValue (dropMatch (post z src (curOwner z) (.leave tag id)) (curCtx s) (isReceiver src tag)) d 0 := by
  rw [leaves, found]

/-- With neither entry there is no group to leave. -/
theorem leaves_neither (none : receiverOf s (curCtx s) src tag = none) (elsewhere : src ≠ s.cur.1 ∨ sourceOf s (curCtx s) tag = .none) :
    leaves s d src tag = parkValue s d 1 := by
  have other : (if src = s.cur.1 then sourceOf s (curCtx s) tag else .none) = .none := by
    obtain away | gone := elsewhere
    · exact if_neg away
    · rw [gone, ite_self]
  rw [leaves, none, other]

theorem leaves_source {sb t sent mail subs op box} (none : receiverOf s (curCtx s) src tag = none) (here : src = s.cur.1)
    (found : sourceOf s (curCtx s) tag = some (.source sb t sent mail subs op box)) : leaves s d src tag =
      if subs.isEmpty ∧ mail = sent then parkValue (dropMatch s (curCtx s) (isSource tag)) d 0 else parkValue s d 2 := by
  rw [leaves, none, if_pos here, found]

theorem frees_receiver {rb c t id l n bar ar fr dr}
    (found : receiverOf s (curCtx s) src tag = some (.receiver rb c t id l n bar ar fr dr)) :
    frees s d src tag v = if diff32 ar fr < v then parkValue s d allOnes
      else needSegment s 1 fun z =>
        parkValue (setMatch (post z src (curOwner z) (.free tag id v .none)) (curCtx s) (isReceiver src tag)
          (.receiver rb c t id l n bar ar ((fr + v) % 2 ^ 32) dr)) d (word (diff32 ar ((fr + v) % 2 ^ 32))) := by
  rw [frees, found]

theorem frees_none (none : receiverOf s (curCtx s) src tag = none) : frees s d src tag v = parkValue s d allOnes := by
  rw [frees, none]

theorem boxes_source {sb t sent mail subs op box} (here : src = s.cur.1)
    (found : sourceOf s (curCtx s) tag = some (.source sb t sent mail subs op box)) : boxes s d src tag v =
      if diff32 mail v < 2 ^ 31 then parkValue (clearWait (learn s (curCtx s) box)) d (word mail) else park s [.mailbox src tag v] := by
  rw [boxes, if_pos here, found]

theorem boxes_receiver {rb c t id l n bar ar fr dr} (away : src ≠ s.cur.1)
    (found : receiverOf s (curCtx s) src tag = some (.receiver rb c t id l n bar ar fr dr)) : boxes s d src tag v =
      if diff32 ar v < 2 ^ 31 then parkValue (clearWait s) d (word (ar + dr * 2 ^ 32)) else park s [.mailbox src tag v] := by
  rw [boxes, if_neg away, found]

theorem boxes_none (none : (if src = s.cur.1 then sourceOf s (curCtx s) tag else receiverOf s (curCtx s) src tag) = none) :
    boxes s d src tag v = parkValue s d allOnes := by
  unfold boxes
  split
  case isTrue here => rw [if_pos here] at none; rw [none]
  case isFalse away => rw [if_neg away] at none; rw [none]

theorem learn_clk (s : State) (k : Nat) (ids : List Nat) : (learn s k ids).clk = s.clk := by
  unfold learn
  split <;> rfl

end

/-- An entry of the match tables is set or added by the issuing context. -/
theorem issuesAs_setMatch {s z : State} (as : IssuesAs s z) (p : MatchEntry → Bool) (e : MatchEntry) :
    IssuesAs s (setMatch z (curCtx s) p e) where
  ctx := as.ctx
  bank := as.bank
  queue := by
    have same := as.queue
    have ctx : curCtx (setMatch z (curCtx s) p e) = curCtx s := as.ctx
    rw [as.ctx] at same
    rw [ctx, setMatch, ctxOf_setCtx_same, same]
  wbuf := as.wbuf
  clk := as.clk
  pc := as.pc

theorem issuesAs_addMatch (s : State) (e : MatchEntry) : IssuesAs s (addMatch s (curCtx s) e) where
  ctx := rfl
  bank := rfl
  queue := (congrArg Ctx.queue (ctxOf_setCtx_same s (curCtx s) _) :)
  wbuf := rfl
  clk := rfl
  pc := rfl

/-- A tile that is sent by its source entry. -/
theorem streamIssues_of_casts {s z : State} {d a : Reg} {t : Tensor} {tag sb sent mail : Nat} {subs : List (Nat × Nat)}
    {op : List (Nat × List Nat × List Nat)} {box : List Nat} (as : IssuesAs s z)
    (found : sourceOf z (curCtx s) tag = some (.source sb tag sent mail subs op box))
    (runs : exec (.mcast d a) s = commit s (needSegment s 1 fun _ => casts s d tag t (some (z, .source sb tag sent mail subs op box)))) :
    streamIssues (.mcast d a) s (setMatch z (curCtx s) (isSource tag) (sentEntry sb tag sent mail subs op box)) d
      (fun ans => .mcast t tag sent ans false subs 0) false true id
      fun u => sourceOf u (curCtx s) tag = some (sentEntry sb tag sent mail subs op box) := by
  have issues := issuesAs_setMatch as (isSource tag) (sentEntry sb tag sent mail subs op box)
  refine streamIssues_of_parkAnswer issues runs fun u tab => ?_
  rw [issues.ctx] at tab
  rw [sourceOf, tab]
  exact find_setMatch found (beq_self_eq_true tag)

/-- Settles O38: what each instruction does with its group, one match-table entry at a time; what is sent enters the store queue. -/
theorem maypole : Obligations.Maypole := by
  unfold Obligations.Maypole
  intro s d a b x y v k room ill gives
  refine ⟨ill_of_no_group, fun src tag group => ?groups, ?casts⟩
  case groups =>
    intro slots off form lands fresh
    have join := exec_join (d := d) (b := b) group
    have leave := exec_leave (d := d) group
    have bfree := exec_bfree (d := d) (b := b) group
    have mbox := exec_mbox (d := d) (b := b) group
    refine ⟨fun bad => ?malformed, fun ok full => ?full, fun ok bank there => ?again, fun ok new lost => ?unlanded,
      fun ok new lands room => ?posts, fun ok new lands full => ?waits, fun rb c t id_ l n bar ar fr dr found => ?receiver,
      fun none elsewhere => ?neither, fun none narrow => ?noBox, fun none some_ few => ?noFree, fun wide => ?wide,
      fun sb t sent mail subs op box here found => ?source⟩
    case malformed => exact join.trans (congrArg (commit s) (joins_malformed bad))
    case full => exact completesOwing_of_still (join.trans (congrArg (commit s) (joins_full ok full)))
    case again => exact completesOwing_of_still (join.trans (congrArg (commit s) (joins_again ok bank there)))
    case unlanded => exact completesOwing_of_still (join.trans (congrArg (commit s) (joins_unlanded ok new.1 new.2 lost)))
    case posts =>
      have runs := join.trans (congrArg (commit s) ((joins_lands ok new.1 new.2 lands).trans (needSegment_room s _ room)))
      obtain ⟨wbuf, clk, pc⟩ := joinPosted_quiet s d src tag y
      exact completesWaiting_of_parkAnswer runs wbuf clk pc trivial
    case waits =>
      exact parks_of_park (join.trans (congrArg (commit s) ((joins_lands ok new.1 new.2 lands).trans
        (needSegment_full s _ (Nat.not_le.1 full)))))
    case neither => exact completesOwing_of_still (leave.trans (congrArg (commit s) (leaves_neither none elsewhere)))
    case noBox =>
      rw [if_neg (Nat.not_le.2 narrow), boxes_none none] at mbox
      exact completesOwing_of_still mbox
    case noFree =>
      have small : ¬(v = 0 ∨ 255 < v) := by omega
      rw [if_neg small, frees_none none] at bfree
      exact completesOwing_of_still bfree
    case receiver =>
      rw [leaves_receiver found] at leave
      refine ⟨fun room => ?_, fun full => ?_, fun range => ?_, fun some_ few short => ?_, fun some_ few enough room => ?_,
        fun narrow away passed => ?_, fun narrow away waits => ?_⟩
      · rw [needSegment_room s _ room] at leave
        obtain ⟨wbuf, clk, pc⟩ := post_quiet s src (curOwner s) (.leave tag id_)
        have gone (t : State) (tab : (ctxOf t k).matchTab = (ctxOf (dropMatch (post s src (curOwner s) (.leave tag id_)) k (isReceiver src tag)) k).matchTab) :
            receiverOf t k src tag = none := by
          rw [receiverOf, tab, find_dropMatch]
        exact completesOwing_of_parkValue leave wbuf clk pc (gone _ (matchTab_parkValue ..))
      · rw [needSegment_full s _ (Nat.not_le.1 full)] at leave
        exact parks_of_park leave
      · rwa [if_pos range] at bfree
      · have small : ¬(v = 0 ∨ 255 < v) := by omega
        rw [if_neg small, frees_receiver found, if_pos short] at bfree
        exact completesOwing_of_still bfree
      · have small : ¬(v = 0 ∨ 255 < v) := by omega
        rw [if_neg small, frees_receiver found, if_neg (Nat.not_lt.2 enough), needSegment_room s _ room] at bfree
        obtain ⟨wbuf, clk, pc⟩ := post_quiet s src (curOwner s) (.free tag id_ v none)
        exact completesOwing_of_parkValue bfree wbuf clk pc trivial
      · rw [if_neg (Nat.not_le.2 narrow), boxes_receiver away found, if_pos passed] at mbox
        exact completesOwing_of_ready_parkValue mbox rfl rfl rfl trivial
      · rw [if_neg (Nat.not_le.2 narrow), boxes_receiver away found, if_neg (Nat.not_lt.2 waits)] at mbox
        exact parks_of_park mbox
    case wide =>
      exact mbox.trans (congrArg (commit s) (if_pos wide))
    case source =>
      refine ⟨fun none idle settled => ?_, fun none busy => ?_, fun narrow passed => ?_, fun narrow waits => ?_⟩
      · rw [leaves_source none here found, if_pos ⟨by rw [idle]; rfl, settled⟩] at leave
        exact completesOwing_of_parkValue leave rfl rfl rfl trivial
      · rw [leaves_source none here found, if_neg fun h => busy.elim (· (List.isEmpty_iff.1 h.1)) (· h.2)] at leave
        exact completesOwing_of_still leave
      all_goals rw [if_neg (Nat.not_le.2 narrow), boxes_source here found] at mbox
      · rw [if_pos passed] at mbox
        obtain ⟨wbuf, pc⟩ := learn_keeps s k box
        exact completesOwing_of_ready_parkValue mbox wbuf (learn_clk ..) pc trivial
      · rw [if_neg (Nat.not_lt.2 waits)] at mbox
        exact parks_of_park mbox
  case casts =>
    intro tag form
    have runs := exec_mcast s d a
    have shaped : form ↔ ¬(bits x 7 0 ≠ 0 ∨ bits x 31 16 ≠ 0 ∨ bits x 63 48 ≠ 0) := by
      simp only [form, not_or, ne_eq, not_not]
    refine ⟨fun bad => ?malformed, fun ok elsewhere => ?channel, fun t ok record own full => ?full, fun t ok record own room => ?sends⟩
    case malformed => rwa [if_pos (not_not.1 (bad ∘ shaped.2))] at runs
    all_goals rw [if_neg (shaped.1 ok)] at runs
    case channel =>
      cases record : tensorAt s k (bits x 15 8) with
      | none => rwa [record] at runs
      | some t =>
        simp only [k, x] at record
        simp only [record] at runs
        rwa [if_pos (elsewhere t record)] at runs
    all_goals
      simp only [k, x] at record
      simp only [record] at runs
      rw [if_neg own] at runs
    case full =>
      rw [if_pos full] at runs
      exact parks_of_park runs
    case sends =>
      rw [if_neg (Nat.not_le.2 room)] at runs
      refine ⟨fun sb g sent mail subs op box found => ?_, fun sb none bank => ?_, fun none full room => ?_⟩
      · obtain rfl : g = tag := beq_iff_eq.1 (isSource_of_sourceOf found)
        have cast : castSource s tag = some (s, .source sb tag sent mail subs op box) := by rw [castSource, found]
        exact streamIssues_of_casts ⟨rfl, rfl, rfl, rfl, rfl, rfl⟩ found (cast ▸ runs)
      · have cast : castSource s tag = some (addMatch s k (.source sb tag 0 0 [] [] []), .source sb tag 0 0 [] [] []) := by
          rw [castSource, none, bank]
        exact streamIssues_of_casts (issuesAs_addMatch ..) (sourceOf_addMatch none) (cast ▸ runs)
      · have cast : castSource s tag = .none := by rw [castSource, none, full]
        rwa [needSegment_room s _ room, cast] at runs

end Sys2Proof.Machine
end

section
/-! SUPPORT. Requests of the atomic queue: what enters the machine, and how `amo` and `casq` go on (R263, R266, R267). -/

namespace Sys2Proof.Machine

open Sys2Proof

/-! ### Pages that an instruction may not reach (R72, R152, R373) -/

section
variable {s : State} {va : Word} {acc pa : Nat} {x y : Xlat} {ok : Nat → Xlat → Bool}

/-- A page that is there, of memory that the instruction may not reach, is PROT. -/
theorem through_refused {v : Nat} (there : through s x v acc = .mem pa y) (refused : ok pa y = false) : through s x v acc ok = .fault 0x06 := by
  unfold through at there ⊢
  dsimp only at there ⊢
  split at there
  · cases there
  · split at there
    · cases there
    · cases there
      simp [refused]

/-- The translation at hand for an address, of the three places in their order. -/
def xlatAt (s : State) (core owner : Nat) (extra : List Xlat) (v : Nat) : Option Xlat :=
  (xlatHit extra owner v).or ((xlatHit (coreOf s core).tlb owner v).or (xlatHit (ringOf s (ringOfCore s core)).tlb owner v))

/-- Where an address lies that is not translated (R152). -/
def untranslated (s : State) (core owner v : Nat) : Where :=
  if 2 ^ 56 ≤ v then .fault 0x06
  else if Config.remoteWindow ≤ v then
    (if 6144 ≤ v / 2 ^ 20 % 2 ^ 31 ∨ 0x60000 ≤ v % 2 ^ 20 then .fault 0x06 else .loc (v / 2 ^ 20 % 2 ^ 31) (v % 2 ^ 20))
  else if localSize s core owner ≤ v % 2 ^ 51 then .fault 0x06 else .loc core (v % 2 ^ 51)

theorem whereIs_untranslated {core owner : Nat} {extra : List Xlat} (h : Config.ownWindow ≤ va.toNat) :
    whereIs s core owner extra va acc ok = untranslated s core owner va.toNat := by
  unfold whereIs untranslated
  simp only [if_pos h]

theorem whereIs_translated {core owner : Nat} {extra : List Xlat} (h : va.toNat < Config.ownWindow) :
    whereIs s core owner extra va acc ok = match xlatAt s core owner extra va.toNat with
      | some x => through s x va.toNat acc ok
      | none => .miss := by
  have below : Config.ownWindow < Config.remoteWindow ∧ Config.ownWindow < 2 ^ 56 := by decide
  unfold whereIs xlatAt
  rw [if_neg (by omega), if_neg (by omega), if_neg (by omega)]
  cases xlatHit extra owner va.toNat
  case some x => rfl
  case none =>
    cases xlatHit (coreOf s core).tlb owner va.toNat
    case some x => rfl
    case none => cases xlatHit (ringOf s (ringOfCore s core)).tlb owner va.toNat <;> rfl

theorem not_untranslated_mem {core owner v : Nat} : untranslated s core owner v ≠ .mem pa y := by
  unfold untranslated
  split
  · exact nofun
  · split <;> split <;> exact nofun

theorem whereIs_refused {core owner : Nat} {extra : List Xlat} (there : whereIs s core owner extra va acc = .mem pa y)
    (refused : ok pa y = false) : whereIs s core owner extra va acc ok = .fault 0x06 := by
  by_cases low : va.toNat < Config.ownWindow
  · rw [whereIs_translated low] at there ⊢
    split at there
    · exact through_refused there refused
    · cases there
  · rw [whereIs_untranslated (Nat.not_lt.1 low)] at there
    exact absurd there not_untranslated_mem

/-- What the translations say is where the address lies for the issuing frame, but for a miss. -/
theorem whereCur_of_whereIs {w : Where} (is : whereIs s s.cur.1 (curOwner s) (curFrame s).walked va acc ok = w) (found : w ≠ .miss) :
    whereCur s va acc ok = w := by
  subst is
  unfold whereCur
  split
  · next miss => exact absurd miss found
  · rfl

/-- An address that a walk has not failed for lies where its translation says. -/
theorem whereIs_of_whereCur {w : Where} (is : whereCur s va acc ok = w) (found : w ≠ .miss) (sound : ∀ c, w ≠ .fault c) :
    whereIs s s.cur.1 (curOwner s) (curFrame s).walked va acc ok = w := by
  unfold whereCur at is
  split at is
  · split at is
    · exact absurd is.symm (sound _)
    · exact absurd is.symm found
  · exact is

theorem whereCur_refused (there : whereCur s va acc = .mem pa y) (refused : ok pa y = false) : whereCur s va acc ok = .fault 0x06 :=
  whereCur_of_whereIs (whereIs_refused (whereIs_of_whereCur there nofun nofun) refused) nofun

end

/-! ### A request that enters the machine (R78, R263) -/

/-- What a request of the issuing frame is. -/
structure ReqIs (s : State) (kind : ReqKind) (treat : Nat) (va : Word) (q : Req) : Prop where
  id    : q.id = s.nextId
  kind  : q.kind = kind
  ctx   : q.ctx = curCtx s
  frame : q.frame = s.cur.2
  va    : q.va = va
  treat : q.treat = treat

theorem newReq_eq (s : State) (kind : ReqKind) (t : Option (Tgt × Nat)) (treat : Nat) (share : Option Nat) (rel acq : Bool) (va : Word) :
    ∃ q hist ctxs ps, ReqIs s kind treat va q ∧ newReq s kind t treat share rel acq va
      = { s with nextId := s.nextId + 1, hist := hist, reqs := s.reqs ++ [q], ctxs := ctxs, points := ps } := by
  unfold newReq
  extract_lets k id known pool locs tag inval q r c u
  refine ⟨q, NMap.put s.hist id r, u.ctxs, ?_⟩
  have is : ReqIs s kind treat va q := ⟨rfl, rfl, rfl, rfl, rfl, rfl⟩
  split
  · exact (requestAccess_points ..).imp fun ps asks => ⟨is, asks⟩
  · exact ⟨_, is, rfl⟩

/-- A request has entered the machine; no byte is touched. -/
structure Requested (s : State) (kind : ReqKind) (treat : Nat) (va : Word) (u : State) : Prop where
  reqs : ∃ q, u.reqs = s.reqs ++ [q] ∧ ReqIs s kind treat va q
  wbuf : u.wbuf = s.wbuf
  clk  : u.clk = s.clk
  pc   : curPc u = curPc s
  next : s.nextId < u.nextId

theorem requested_newReq (s : State) (kind : ReqKind) (t : Option (Tgt × Nat)) (treat : Nat) (share : Option Nat) (rel acq : Bool)
    (va : Word) : Requested s kind treat va (newReq s kind t treat share rel acq va) := by
  obtain ⟨q, hist, ctxs, ps, is, e⟩ := newReq_eq s kind t treat share rel acq va
  rw [e]
  exact ⟨⟨q, rfl, is⟩, rfl, rfl, rfl, Nat.lt_succ_self _⟩

theorem Requested.owe {s u : State} {kind : ReqKind} {treat : Nat} {va : Word} (h : Requested s kind treat va u) (d : Reg) (id : Nat)
    (v : Option Word) : Requested s kind treat va (owe u d id v) :=
  ⟨h.reqs, h.wbuf, h.clk, (curPc_owe ..).trans h.pc, h.next⟩

/-! ### Atomics (R263, R266, R267) -/

section
variable (s : State) (d a : Reg) (t : AmoTy) (ret acq rel : Bool) (op x e : Nat) (w : Where)

/-- An atomic that has been issued, whose old value is owed to d where it returns. -/
def atomicIssued (size : Nat) : State :=
  let u := newReq s (.amo op t ret acq (whereTgt w) x e) (some (whereTgt w, size)) (whereTreat w) (whereShare w) rel acq (rd s a)
  if ret then owe u d s.nextId none else u

/-- With the upper half of `casq`. -/
def pairIssued (u : State) : State := owe { u with nextId := u.nextId + 1 } (d + 1) u.nextId none

theorem atomicIssued_requested (size : Nat) : Requested s (.amo op t ret acq (whereTgt w) x e) (whereTreat w) (rd s a)
    (atomicIssued s d a t ret acq rel op x e w size) := by
  have issued := requested_newReq s (.amo op t ret acq (whereTgt w) x e) (some (whereTgt w, size)) (whereTreat w) (whereShare w) rel acq
    (rd s a)
  unfold atomicIssued
  dsimp only
  split
  · exact issued.owe ..
  · exact issued

theorem Requested.pair {s u : State} {kind : ReqKind} {treat : Nat} {va : Word} (h : Requested s kind treat va u) (d : Reg) :
    Requested s kind treat va (pairIssued d u) :=
  have next : Requested s kind treat va { u with nextId := u.nextId + 1 } :=
    ⟨h.reqs, h.wbuf, h.clk, h.pc, h.next.trans (Nat.lt_succ_self _)⟩
  next.owe ..

/-- What an atomic of some bytes does at the place that it reaches. -/
def atomicAt (o : AmoOrd) (size : Nat) : State :=
  let acq := o == .acq || o == .ar
  let rel := o == .rel || o == .ar
  let rs := strongReads s (locsFrom (accessBase s w) size)
  if !rs.isEmpty then park s [.settled [] rs]
  else if atomicsFull s (curCtx s) then park s [.atomics]
  else
    let u := atomicIssued s d a t ret acq rel op x e w size
    afterLoad (if ret && op == 8 then pairIssued d u else u) (if acq then .acq else .weak) [s.nextId]

theorem amoOp_eq (o : AmoOrd) : amoOp op d a t ret o x e s = commit s (if (rd s a).toNat % amoSize op t ≠ 0 then alignTrap s (rd s a)
    else withWhere s (rd s a) 2 (fun w => atomicAt s d a t ret op x e w o (amoSize op t)) atomicAllowed) := rfl

end

section
variable {s : State} {d a : Reg} {t : AmoTy} {ret : Bool} {op x e size : Nat} {w : Where} {o : AmoOrd}

theorem atomicAt_waits (some_ : strongReads s (locsFrom (accessBase s w) size) ≠ []) :
    atomicAt s d a t ret op x e w o size = park s [.settled [] (strongReads s (locsFrom (accessBase s w) size))] :=
  if_pos (by simpa using some_)

theorem atomicAt_full (none : strongReads s (locsFrom (accessBase s w) size) = []) (many : atomicsFull s (curCtx s) = true) :
    atomicAt s d a t ret op x e w o size = park s [.atomics] := by
  rw [atomicAt, none]
  exact if_pos many

theorem atomicAt_issues (none : strongReads s (locsFrom (accessBase s w) size) = []) (few : atomicsFull s (curCtx s) = false) :
    atomicAt s d a t ret op x e w o size =
      afterLoad (if ret && op == 8 then pairIssued d (atomicIssued s d a t ret (o == .acq || o == .ar) (o == .rel || o == .ar) op x e w size)
        else atomicIssued s d a t ret (o == .acq || o == .ar) (o == .rel || o == .ar) op x e w size)
        (if o == .acq || o == .ar then .acq else .weak) [s.nextId] := by
  rw [atomicAt, none]
  exact if_neg (few ▸ Bool.false_ne_true)

end

/-- The form of an atomic is its operation. -/
theorem exec_of_amoForm {s : State} {d a b : Reg} {t : AmoTy} {n : Bool} {o : AmoOrd} {op : Nat} {ret : Bool} {x e : Nat} {i : Instr}
    (is : amoForm s d a b t n o op ret x e i) : exec i s = amoOp op d a t ret o x e s ∧ op ≠ 8 := by
  obtain ⟨i_op, rfl, rfl, rfl⟩ | ⟨rfl, rfl, rfl, rfl, rfl⟩ := is
  · rcases i_op with ⟨rfl, rfl⟩ | ⟨rfl, rfl⟩ | ⟨rfl, rfl⟩ | ⟨rfl, rfl⟩ | ⟨rfl, rfl⟩ | ⟨rfl, rfl⟩ | ⟨rfl, rfl⟩ | ⟨rfl, rfl⟩ | ⟨rfl, rfl⟩
      | ⟨rfl, rfl⟩ | ⟨rfl, rfl⟩ | ⟨rfl, rfl⟩
    all_goals exact ⟨rfl, by decide⟩
  · exact ⟨rfl, by decide⟩

/-- An issued request completes at once, or waits for itself where it acquires. -/
theorem completes_of_requested {i : Instr} {s u : State} {kind : ReqKind} {treat : Nat} {va : Word} {acq : Bool} {ids : List Nat}
    (issued : Requested s kind treat va u) (runs : exec i s = commit s (afterLoad u (if acq then .acq else .weak) ids)) :
    (acq = false → Completes i s u ready [] noByte fun _ => True)
    ∧ (acq = true → CompletesWaiting i s u [.settled [] ids] noByte fun _ => True) := by
  obtain ⟨now, later⟩ := load_completes runs issued.wbuf issued.clk issued.pc
  exact ⟨fun plain => now (by rw [plain]; exact nofun), fun acquires => later (if_pos acquires)⟩

/-- Settles O14: one operation gives every form its meaning; what it does at its place is one request. -/
theorem atomicsAndPairs : Obligations.AtomicsAndPairs := by
  unfold Obligations.AtomicsAndPairs
  constructor
  case left =>
    intro s d a b t n o op ret x e i form va size acq rel full
    obtain ⟨runs, single⟩ := exec_of_amoForm form
    have bytes : amoSize op t = size := by rw [amoSize, if_neg single]; cases t <;> rfl
    rw [amoOp_eq, bytes] at runs
    refine ⟨fun bad => ?align, fun aligned => ⟨fun c fault => ?fault, fun miss => ?miss⟩, fun pa y aligned there refused => ?prot,
      fun aligned w is at_ => ?at_⟩
    case align => rwa [if_pos bad] at runs
    all_goals rw [if_neg (not_not_intro aligned)] at runs
    case fault => rw [runs, withWhere, fault]
    case miss => rw [runs, withWhere, miss]
    case prot => rw [runs, withWhere, whereCur_refused there refused]
    case at_ =>
      intro rs
      rw [withWhere_reached is at_] at runs
      refine ⟨fun some_ => ?_, fun none many => ?_, fun none few => ?_⟩
      · exact parks_of_park (runs.trans (congrArg (commit s) (atomicAt_waits some_)))
      · exact parks_of_park (runs.trans (congrArg (commit s) (atomicAt_full none (decide_eq_true many))))
      · rw [atomicAt_issues none (decide_eq_false few), if_neg (by simp [single])] at runs
        have issued := atomicIssued_requested s d a t ret acq rel op x e w size
        obtain ⟨q, reqs, is⟩ := issued.reqs
        exact ⟨⟨q, reqs, is.id, is.kind, is.ctx, is.frame, is.va, is.treat⟩, completes_of_requested issued runs⟩
  case right =>
    intro s d a b o va acq rel i x e
    have runs : exec i s = _ := amoOp_eq s d a .i64 true 8 x e o
    rw [show amoSize 8 .i64 = 16 from rfl] at runs
    refine ⟨fun bad => ?align, fun aligned => ⟨fun c fault => ?fault, fun miss => ?miss⟩, fun aligned w is at_ none few => ?at_⟩
    case align => rwa [if_pos bad] at runs
    all_goals rw [if_neg (not_not_intro aligned)] at runs
    case fault => rw [runs, withWhere, fault]
    case miss => rw [runs, withWhere, miss]
    case at_ =>
      rw [withWhere_reached is at_, atomicAt_issues none few] at runs
      exact completes_of_requested ((atomicIssued_requested s d a .i64 true acq rel 8 x e w 16).pair d) runs

end Sys2Proof.Machine
end


section
/-! SUPPORT. Resumes, dropped translations and banks that are zeroed (R371, R375, R376). -/

namespace Sys2Proof.Machine

open Sys2Proof

/-! ### Waits at the end of an instruction, and resumes (R127, R371) -/

theorem parkDone_eq (s : State) (cs : List Cond) : parkDone s cs = parkedAfter s cs := by
  have frame : curFrame (clearWait (setPc s (curPc s + 4))) = ready (curFrame (setPc s (curPc s + 4))) := curFrame_setCur ..
  unfold parkDone parkedAfter
  dsimp only
  rw [frame]
  exact setCur_setCur ..

theorem parkDone_net (s : State) (cs : List Cond) : (parkDone s cs).net = s.net := by
  rw [parkDone_eq]
  exact (congrArg State.net (moves_parkedAfter s cs).rest :)

theorem sendMsg_eq (s : State) (k frame act core owner : Nat) (b : Body) (tag : List Nat) :
    ∃ m ps, sendMsg s k frame act core owner b tag = { s with nextId := s.nextId + 1, net := s.net ++ [m], points := ps } := by
  obtain ⟨ps, e⟩ := launch_eq { s with nextId := s.nextId + 1 } ⟨s.nextId, k, frame, act, core, owner, b, tag⟩
  exact ⟨_, ps, e⟩

/-- Messages sent one after another join the fabric, and change nothing of the frame. -/
theorem foldl_sendMsg {α : Type} (core : α → Nat) (body : α → Body) (k frame act owner : Nat) (tag : List Nat) (l : List α) (s : State) :
    let t := l.foldl (fun u h => sendMsg u k frame act (core h) owner (body h) tag) s
    t.wbuf = s.wbuf ∧ t.clk = s.clk ∧ curPc t = curPc s ∧ t.net.length = s.net.length + l.length := by
  induction l generalizing s with
  | nil => exact ⟨rfl, rfl, rfl, rfl⟩
  | cons h r ih =>
    obtain ⟨m, ps, e⟩ := sendMsg_eq s k frame act (core h) owner (body h) tag
    obtain ⟨wbuf, clk, pc, net⟩ := ih (sendMsg s k frame act (core h) owner (body h) tag)
    rw [e] at wbuf clk pc net
    refine ⟨?_, ?_, ?_, ?_⟩
    · rw [List.foldl_cons, e]; exact wbuf
    · rw [List.foldl_cons, e]; exact clk
    · rw [List.foldl_cons, e]; exact pc
    · rw [List.foldl_cons, e, net, List.length_append, List.length_cons, List.length_cons]
      simp only [List.length_nil]
      omega

section
variable {i : Instr} {s u : State} {cs : List Cond} {st : Nat → Prop} {P : State → Prop}

theorem completesWaiting_of_parkDone (runs : exec i s = commit s (parkDone u cs)) (quiet : u.wbuf = s.wbuf) (clk : u.clk = s.clk)
    (pc : curPc u = curPc s) (holds : P (committed s (parkDone u cs))) : CompletesWaiting i s u cs st P := by
  have moves := moves_parkedAfter u cs
  rw [← parkDone_eq] at moves
  have moves := pc ▸ clk ▸ moves
  exact ⟨_, runs, moves.committed, moves.keeps_bytes quiet st, holds⟩

end

/-! ### Translations that are dropped (R375) -/

section
variable (hit : Xlat → Bool) (s : State)

/-- A core whose TLB and frames hold no translation that is hit. -/
def withoutHits (c : CoreSt) : CoreSt :=
  { c with
    tlb := c.tlb.filter fun t => !hit t
    frames := c.frames.map fun f => (f.1, { f.2 with walked := f.2.walked.filter fun t => !hit t }) }

theorem coreOf_withoutHits {u : State} (cores : u.cores = s.cores.map fun c => (c.1, withoutHits hit c.2)) (c : Nat) :
    coreOf u c = withoutHits hit (coreOf s c) := by
  unfold coreOf NMap.get
  rw [cores, find_map_values]
  cases NMap.find s.cores c <;> rfl

/-- The issuing frame stands where it stood. -/
theorem curPc_withoutHits {u : State} (cur : u.cur = s.cur) (cores : u.cores = s.cores.map fun c => (c.1, withoutHits hit c.2)) :
    curPc u = curPc s := by
  have core : curCore u = withoutHits hit (curCore s) := by
    unfold curCore
    rw [cur, coreOf_withoutHits hit s cores]
  have handler : inHandler u = inHandler s := by
    unfold inHandler
    rw [core, cur]
    rfl
  have frame : (curFrame u).pc = (curFrame s).pc := by
    unfold curFrame frameOf
    rw [cur, coreOf_withoutHits hit s cores]
    exact get_map_keeps Frame.pc (fun f : Nat × Frame => (f.1, { f.2 with walked := f.2.walked.filter fun t => !hit t }))
      (fun _ => rfl) (fun _ => rfl) ..
  unfold curPc
  rw [handler, core, frame]
  rfl

theorem not_hit_of_mem {l : List Xlat} {e : Xlat} (h : e ∈ l.filter fun t => !hit t) : hit e = false := by
  simpa using (List.mem_filter.1 h).2

/-- A ring whose TLB holds no translation that is hit. -/
def ringWithoutHits (r : RingSt) : RingSt := { r with tlb := r.tlb.filter fun t => !hit t }

/-- The TLBs of a state that has moved on from one without hits hold none. -/
theorem clean_of_moves {u t : State} {g : Frame → Frame} {ds : List Reg} {pc : Word} (m : Moves u t g ds pc)
    (cores : u.cores = s.cores.map fun c => (c.1, withoutHits hit c.2))
    (rings : u.rings = s.rings.map fun r => (r.1, ringWithoutHits hit r.2)) :
    (∀ c, ∀ e ∈ (coreOf t c).tlb, hit e = false) ∧ ∀ r, ∀ e ∈ (ringOf t r).tlb, hit e = false := by
  have kept : t.rings = u.rings := (congrArg State.rings m.rest :)
  refine ⟨fun c e mem => ?_, fun r e mem => ?_⟩
  · have same : (coreOf t c).tlb = (coreOf u c).tlb := (congrArg CoreSt.tlb (m.core c) :)
    rw [same, coreOf_withoutHits hit s cores] at mem
    exact not_hit_of_mem hit mem
  · unfold ringOf NMap.get at mem
    rw [kept, rings, find_map_values] at mem
    cases found : NMap.find s.rings r with
    | none => rw [found] at mem; cases mem
    | some x => rw [found] at mem; exact not_hit_of_mem hit mem

end

/-! ### A bank that is not live (R376) -/

section
variable {s : State} {core n g : Nat}

theorem find_filter_kept {α : Type} (p : Nat → Bool) (m : NMap α) {k : Nat} (h : p k = true) :
    NMap.find (m.filter fun c => p c.1) k = NMap.find m k := by
  induction m with
  | nil => rfl
  | cons q r ih =>
    simp only [List.filter_cons]
    by_cases same : q.1 = k
    · simp [NMap.find, same, h]
    · split <;> simp [NMap.find, same, ih]

/-- Selecting a bank to read leaves the issuing frame where it stands. -/
theorem curPc_bsel (n : Nat) : curPc (setCore s s.cur.1 { coreOf s s.cur.1 with bsel := n }) = curPc s := by
  have core : curCore (setCore s s.cur.1 { coreOf s s.cur.1 with bsel := n }) = { coreOf s s.cur.1 with bsel := n } :=
    coreOf_setCore_same ..
  have handler : inHandler (setCore s s.cur.1 { coreOf s s.cur.1 with bsel := n }) = inHandler s := by
    unfold inHandler
    rw [core]
    rfl
  have frame : (curFrame (setCore s s.cur.1 { coreOf s s.cur.1 with bsel := n })) = curFrame s :=
    (congrArg (fun c : CoreSt => NMap.get c.frames s.cur.2 {}) core :)
  unfold curPc
  rw [handler, core, frame]
  rfl

theorem zeroBank_coreOf (c : Nat) : coreOf (zeroBank s core n) c = coreOf s c := by
  rw [coreOf, coreOf, zeroBank_cores]

/-- The core of a bank that has been zeroed. -/
theorem coreOf_cleanBank : coreOf (cleanBank s core n) core = { coreOf s core with
    frames := (coreOf s core).frames.filter fun p => p.1 / 4 != n
    banks := NMap.put (coreOf s core).banks n { NMap.get (coreOf s core).banks n {} with clean := true } } := by
  simp only [cleanBank, coreOf_setCore_same, coreOf_setCtx, zeroBank_coreOf]

theorem frameOf_cleanBank_inside (inside : g / 4 = n) : frameOf (cleanBank s core n) core g = {} := by
  unfold frameOf NMap.get
  rw [coreOf_cleanBank, find_filter_dropped (fun k => k / 4 != n) _ (by simp [inside])]
  rfl

theorem frameOf_cleanBank_outside (outside : g / 4 ≠ n) : frameOf (cleanBank s core n) core g = frameOf s core g := by
  unfold frameOf NMap.get
  rw [coreOf_cleanBank, find_filter_kept (fun k => k / 4 != n) _ (by simp [outside])]

theorem cur_cleanBank : (cleanBank s core n).cur = s.cur := by
  unfold cleanBank zeroBank
  exact List.foldlRecOn (motive := fun u : State => u.cur = s.cur) _ _ rfl fun _ h _ _ => h

/-- Zeroing another bank, the issuing frame stands where it stood. -/
theorem curPc_cleanBank (outside : s.cur.2 / 4 ≠ n) : curPc (cleanBank s s.cur.1 n) = curPc s := by
  have handler : inHandler (cleanBank s s.cur.1 n) = inHandler s := by
    unfold inHandler curCore
    rw [cur_cleanBank, coreOf_cleanBank]
  have frame : curFrame (cleanBank s s.cur.1 n) = curFrame s := by
    unfold curFrame
    rw [cur_cleanBank, frameOf_cleanBank_outside outside]
  unfold curPc curCore
  rw [handler, frame, cur_cleanBank, coreOf_cleanBank]

/-- No frame of a bank that is not live is in use. -/
theorem frame_free_of_not_live (dead : bankLive s core n = false) (inside : g / 4 = n) : (frameOf s core g).st = .free := by
  unfold bankLive at dead
  have frames := (Bool.or_eq_false_iff.1 (Bool.or_eq_false_iff.1 dead).1).1
  have this := List.any_eq_false.1 frames (g % 4) (mem_upto.2 (Nat.mod_lt _ (by decide)))
  have at_ : 4 * n + g % 4 = g := by omega
  simpa [at_] using this

end

/-! ### The instructions -/

section
variable {s : State} {d a b : Reg}

theorem exec_fresume : exec (.fresume d a b) s = commit s (if bits (rd s a) 15 12 ≠ 0 ∨ bit (rd s a) 17 = true ∨ bits (rd s a) 63 20 ≠ 0
      ∨ (bit (rd s a) 16 = true ∧ bits (rd s a) 19 18 ≠ 0) then illOperand s
    else afterRelease s fun s' =>
      let hits := faultsOf s' (bits (rd s a) 11 0) fun seq addr =>
        if bit (rd s a) 16 then word seq == rd s b
        else addr.toNat / blockSize (bits (rd s a) 19 18) == (rd s b).toNat / blockSize (bits (rd s a) 19 18)
      let sent := hits.foldl (fun u h => sendMsg u (hwCtx 0) 0 0 h.2.1 (bits (rd s a) 11 0) (.resume h.2.2 h.1 s'.nextId)
        (ctxOf s' (curCtx s')).known) { s' with nextId := s'.nextId + 1 }
      if hits.isEmpty then finish (clearWait sent) d 0
      else parkDone (owe sent d s'.nextId (some (word hits.length))) [.resumes s'.nextId]) := rfl

theorem exec_bankctl : exec (.bankctl d a) s = commit s (if bits (rd s a) 7 3 ≠ 0 ∨ bits (rd s a) 63 9 ≠ 0 then illOperand s
    else if bit (rd s a) 8 then
      finish (setCore s s.cur.1 { coreOf s s.cur.1 with bsel := bits (rd s a) 2 0 }) d (bankWord s s.cur.1 (bits (rd s a) 2 0))
    else if bankLive s s.cur.1 (bits (rd s a) 2 0) then finish s d 1
    else finish (cleanBank s s.cur.1 (bits (rd s a) 2 0)) d 0) := rfl

end

/-- Settles O45: the form of each operand and the release before it, then what the instruction sends, drops or zeroes. -/
theorem supervisorInstructions : Obligations.SupervisorInstructions := by
  unfold Obligations.SupervisorInstructions
  intro s d a b x y k core owner sz go waits ill
  refine ⟨?fresume, ?tlbi, ?bankctl⟩
  case fresume =>
    intro form hits sent
    have formed : form ↔ ¬(bits x 15 12 ≠ 0 ∨ bit x 17 = true ∨ bits x 63 20 ≠ 0 ∨ (bit x 16 = true ∧ sz ≠ 0)) := by
      simp only [form, not_or, not_and, not_not, ne_eq, Bool.not_eq_true]
    have checked (h : form) := (exec_fresume (s := s) (d := d) (a := a) (b := b)).trans (congrArg (commit s) (if_neg (formed.1 h)))
    have runs (h : form) (g : go) := (checked h).trans (congrArg (commit s) (afterRelease_released g _))
    obtain ⟨quiet, clk, pc, net⟩ := foldl_sendMsg (fun h : Nat × Nat × Nat => h.2.1) (fun h => .resume h.2.2 h.1 s.nextId) (hwCtx 0) 0 0
      owner (ctxOf s k).known hits { s with nextId := s.nextId + 1 }
    refine ⟨fun bad => ?_, fun h wait => ?_, fun h g none => ?_, fun h g some_ => ?_⟩
    · exact (exec_fresume).trans (congrArg (commit s) (if_pos (not_not.1 (bad ∘ formed.2))))
    · exact parks_of_park ((checked h).trans (congrArg (commit s) (afterRelease_waits wait _)))
    · have empty : sent = { s with nextId := s.nextId + 1 } := by simp only [sent, none]; rfl
      refine completes_of_ready_finish ((runs h g).trans (congrArg (commit s) ?_)) rfl rfl gives_finish
      exact (if_pos (List.isEmpty_iff.2 none)).trans (congrArg (fun z => finish (clearWait z) d 0) empty)
    · refine completesWaiting_of_parkDone ((runs h g).trans (congrArg (commit s) ?_)) quiet clk ((curPc_owe ..).trans pc) ?_
      · exact if_neg (mt List.isEmpty_iff.1 some_)
      · exact (congrArg List.length (parkDone_net _ [.resumes s.nextId])).trans net
  case tlbi =>
    intro scope form lo hit gone ids again u clean
    have formed : form ↔ ¬(bits x 15 12 ≠ 0 ∨ bits x 63 20 ≠ 0 ∨ scope = 3 ∨ (scope ≠ 0 ∧ (y ≠ 0 ∨ sz ≠ 0))) := by
      simp only [form, not_or, not_and, not_not, ne_eq]
    have goes (h : form) (g : go) : exec (.tlbi a b) s = commit s (if ids.isEmpty then retire4 (clearWait u)
        else parkDone u [.users ids]) := congrArg (commit s) ((if_neg (formed.1 h)).trans (afterRelease_released g _))
    have pc : curPc u = curPc s := curPc_withoutHits hit s rfl rfl
    refine ⟨fun bad => ?_, fun h wait => ?_, fun h g none => ?_, fun h g some_ => ?_⟩
    · exact congrArg (commit s) (if_pos (not_not.1 (bad ∘ formed.2)))
    · exact parks_of_park (congrArg (commit s) ((if_neg (formed.1 h)).trans (afterRelease_waits wait _)))
    · refine completes_of_ready_retire ((goes h g).trans (congrArg (commit s) (if_pos (List.isEmpty_iff.2 none)))) rfl pc ?_
      exact clean_of_moves hit s (u := committed s u) (retires_clearWait_retire4 u).committed.moves rfl rfl
    · refine completesWaiting_of_parkDone ((goes h g).trans (congrArg (commit s) (if_neg (mt List.isEmpty_iff.1 some_)))) rfl rfl pc ?_
      rw [parkDone_eq]
      exact clean_of_moves hit s (u := committed s u) (moves_parkedAfter u _).committed rfl rfl
  case bankctl =>
    intro n form inside
    have formed : form ↔ ¬(bits x 7 3 ≠ 0 ∨ bits x 63 9 ≠ 0) := by simp only [form, not_or, not_not, ne_eq]
    have runs (h : form) := (exec_bankctl (s := s) (d := d) (a := a)).trans (congrArg (commit s) (if_neg (formed.1 h)))
    refine ⟨fun bad => ?_, fun h select => ?_, fun h zero live => ?_, fun h zero dead busy => ?_⟩
    · exact exec_bankctl.trans (congrArg (commit s) (if_pos (not_not.1 (bad ∘ formed.2))))
    · refine completes_of_finish ((runs h).trans (congrArg (commit s) (if_pos select))) rfl
        (curPc_bsel n) gives_finish
    · exact completes_of_finish ((runs h).trans (congrArg (commit s) ((if_neg (zero ▸ Bool.false_ne_true)).trans (if_pos live)))) rfl rfl
        gives_finish
    · have run := (runs h).trans (congrArg (commit s) ((if_neg (zero ▸ Bool.false_ne_true)).trans (if_neg (dead ▸ Bool.false_ne_true))))
      have elsewhere : s.cur.2 / 4 ≠ n := fun same => busy (frame_free_of_not_live dead same)
      have moves := (retires_finish (cleanBank s core n) d 0).moves
      have zeroes : (finish (cleanBank s core n) d 0).wbuf = (zeroBank s core n).wbuf := moves.wbuf
      refine ⟨_, run, curPc_cleanBank elsewhere ▸ (retires_finish (cleanBank s core n) d 0).committed, fun inv p outside => ?_,
        gives_finish, ?_, fun inv p at_ => byteAt_zeroed_inside inv zeroes at_.1 at_.2, fun g at_ => ?_⟩
      · exact byteAt_zeroed_outside inv.wbuf zeroes (by simp only [inside, not_and_or] at outside; omega)
      · have banks : (coreOf (finish (cleanBank s core n) d 0) core).banks = (coreOf (cleanBank s core n) core).banks :=
          (congrArg CoreSt.banks (moves.core core) :)
        refine (congrArg (fun m : NMap Bank => (NMap.get m n {}).clean) banks).trans ?_
        simp [coreOf_cleanBank]
      · have other : (core, g) ≠ (cleanBank s core n).cur := by
          rw [cur_cleanBank]
          exact fun same => elsewhere (same ▸ at_)
        refine (congrArg Frame.st (moves.frames core g other)).trans ?_
        rw [frameOf_cleanBank_inside at_]

end Sys2Proof.Machine
end


section
/-! SUPPORT. What a change of node records writes in the node store, and what else it leaves (R351, R354, R356). -/

namespace Sys2Proof.Machine

open Sys2Proof

/-! ### Cells, and numbers read from them (R4) -/

theorem mem_cellsAt {a x : Nat} {b : Byte} {bs : List Byte} : (x, b) ∈ cellsAt a bs ↔ a ≤ x ∧ bs[x - a]? = some b := by
  induction bs generalizing a with
  | nil => simp [cellsAt]
  | cons c r ih =>
    rw [cellsAt, List.mem_cons, ih]
    rcases Nat.lt_trichotomy x a with below | rfl | above
    · simp [Nat.ne_of_lt below, Nat.not_le.2 below, show ¬a + 1 ≤ x by omega]
    · simp [eq_comm]
    · obtain ⟨j, rfl⟩ : ∃ j, x = a + 1 + j := ⟨x - (a + 1), by omega⟩
      have next : a + 1 + j - a = j + 1 := by omega
      have least : a ≤ a + 1 + j := by omega
      simp [next, least, show a + 1 + j ≠ a by omega]

theorem length_leBytes (v n : Nat) : (leBytes v n).length = n := by
  induction n generalizing v with
  | zero => rfl
  | succ n ih => rw [leBytes, List.length_cons, ih]

theorem within_of_mem_cellsAt {a x v n : Nat} {b : Byte} (h : (x, b) ∈ cellsAt a (leBytes v n)) : a ≤ x ∧ x < a + n := by
  obtain ⟨least, there⟩ := mem_cellsAt.1 h
  have := (List.getElem?_eq_some_iff.1 there).1
  rw [length_leBytes] at this
  exact ⟨least, by omega⟩

/-- Bytes that read as a number's give the number. -/
theorem rdNat_of_cells {t : State} {l v n : Nat} (h : ∀ x b, (x, b) ∈ cellsAt l (leBytes v n) → byteAt t x = b) :
    rdNat t l n = v % 256 ^ n := by
  induction n generalizing l v with
  | zero => rw [Nat.pow_zero, Nat.mod_one]; rfl
  | succ n ih =>
    have first : byteAt t l = BitVec.ofNat 8 v := h l _ (.head _)
    rw [rdNat, first, ih fun x b there => h x b (.tail _ there), Nat.pow_succ' (m := 256), Nat.mod_mul, BitVec.toNat_ofNat]

/-- A location that is listed with one byte alone is found with it. -/
theorem find_of_mem {l : List Host.Cell} {x : Nat} {b : Byte} (there : (x, b) ∈ l) (alone : ∀ y, (x, y) ∈ l → y = b) :
    NMap.find l x = some b := by
  obtain ⟨y, found⟩ := Option.isSome_iff_exists.1 (find_isSome_of_mem there)
  rw [found, alone y (mem_of_find found)]

/-! ### The words of node records (R351) -/

section
variable {s z : State}

theorem mem_nodeCells {ws : List (Nat × Nat)} {x : Nat} {b : Byte} : (x, b) ∈ nodeCells s ws ↔
    ∃ q ∈ ws, (x, b) ∈ cellsAt (nodeLoc s q.1 q.2) (leBytes (nodeWord (nodeOf s q.1) q.2).toNat 8) := List.mem_flatMap

theorem nodeByte_of_mem {ws : List (Nat × Nat)} {x : Nat} {b : Byte} (h : (x, b) ∈ nodeCells s ws) : nodeByte s ws x := by
  obtain ⟨q, listed, there⟩ := mem_nodeCells.1 h
  exact ⟨q, listed, within_of_mem_cellsAt there⟩

/-- A byte of the words of records belongs to one word alone. -/
theorem nodeCells_alone {ws : List (Nat × Nat)} (words : ∀ q ∈ ws, q.2 < 8) {n w x : Nat} {b y : Byte} (small : w < 8)
    (there : (x, b) ∈ cellsAt (nodeLoc s n w) (leBytes (nodeWord (nodeOf s n) w).toNat 8)) (listed : (x, y) ∈ nodeCells s ws) : y = b := by
  obtain ⟨⟨m, v⟩, mem, other⟩ := mem_nodeCells.1 listed
  have small' := words _ mem
  obtain ⟨lo, hi⟩ := within_of_mem_cellsAt there
  obtain ⟨lo', hi'⟩ := within_of_mem_cellsAt other
  simp only [nodeLoc] at lo hi lo' hi' small'
  obtain ⟨rfl, rfl⟩ : m = n ∧ v = w := by omega
  exact Option.some.inj ((mem_cellsAt.1 other).2.symm.trans (mem_cellsAt.1 there).2)

end

/-! ### A step at the node store (R356) -/

/-- What a change of records leaves beside them: its cells are the last writes of the step, and the issuing frame stands where it
stood. -/
structure NodeStep (s u : State) (cells : List Host.Cell) : Prop where
  wbuf : u.wbuf = cells.reverse ++ s.wbuf
  clk  : u.clk = s.clk
  pc   : curPc u = curPc s

theorem NodeStep.refl (s : State) : NodeStep s s [] := ⟨rfl, rfl, rfl⟩

theorem NodeStep.after {s z u : State} {cells : List Host.Cell} (h : NodeStep z u cells) (before : NodeStep s z []) : NodeStep s u cells :=
  ⟨h.wbuf.trans (congrArg (cells.reverse ++ ·) before.wbuf), h.clk.trans before.clk, h.pc.trans before.pc⟩

theorem NodeStep.before {s z u : State} {cells : List Host.Cell} (h : NodeStep s z cells) (after : NodeStep z u []) : NodeStep s u cells :=
  ⟨after.wbuf.trans h.wbuf, after.clk.trans h.clk, after.pc.trans h.pc⟩

/-- A frame that lasts has its PC. -/
theorem curPc_of_lasts {s t : State} (h : Lasts s t) : curPc t = curPc s := by
  have core := h.core s.cur.1
  have sup : (coreOf t s.cur.1).sup = (coreOf s s.cur.1).sup := (congrArg CoreSt.sup core :)
  have frame : (coreOf t s.cur.1).supFrame = (coreOf s s.cur.1).supFrame := (congrArg CoreSt.supFrame core :)
  have hpc : (coreOf t s.cur.1).hpc = (coreOf s s.cur.1).hpc := (congrArg CoreSt.hpc core :)
  have pc : (frameOf t s.cur.1 s.cur.2).pc = (frameOf s s.cur.1 s.cur.2).pc := (congrArg Frame.pc (h.frame s.cur.1 s.cur.2) :)
  have handler : inHandler t = inHandler s := by
    unfold inHandler curCore
    rw [h.cur, sup, frame]
  unfold curPc curCore curFrame
  rw [handler, h.cur, hpc, pc]

theorem settledBytes_eq (bs : List Host.Cell) (s : State) : ∃ im, (bs.foldl (fun s p =>
    let s := if s.log.any fun v => covers s v p.1 then s else { s with initMem := memPut s.initMem p.1 (byteAt s p.1) }
    putByte s p.1 p.2) s) = { s with wbuf := bs.reverse ++ s.wbuf, initMem := im } := by
  induction bs generalizing s with
  | nil => exact ⟨s.initMem, rfl⟩
  | cons p r ih =>
    obtain ⟨im, e⟩ := ih (putByte (if s.log.any fun v => covers s v p.1 then s else
      { s with initMem := memPut s.initMem p.1 (byteAt s p.1) }) p.1 p.2)
    refine ⟨im, ?_⟩
    rw [List.foldl_cons, e, List.reverse_cons, List.append_assoc]
    split <;> rfl

theorem discardFetch_eq (s : State) (locs : List Nat) : ∃ cs, discardFetch s locs = { s with cores := cs } := by
  unfold discardFetch
  refine List.foldlRecOn (motive := fun u : State => ∃ cs, u = { s with cores := cs }) _ _ ⟨s.cores, rfl⟩ ?_
  rintro _ ⟨cs, rfl⟩ c -
  exact ⟨_, rfl⟩

theorem recallHost_eq (s : State) (w : Nat) (locs : List Nat) : ∃ hl n, recallHost s w locs = { s with hostLines := hl, bisnp := n } := by
  unfold recallHost
  split
  · exact ⟨s.hostLines, s.bisnp, rfl⟩
  · exact ⟨_, _, rfl⟩

/-- Bytes that settle join the step's writes and the settled order; bumps, nodes and tables stay (R81). -/
theorem settleBytes_eq (s : State) (w : Nat) : ∃ im po pm up cs hl n, settleBytes s w = { s with
    wbuf := (wrec s w).bytes.reverse ++ s.wbuf, log := w :: s.log, initMem := im, poison := po, poolMem := pm, unpub := up, cores := cs,
    hostLines := hl, bisnp := n } := by
  obtain ⟨im, writes⟩ := settledBytes_eq (wrec s w).bytes s
  have follows : ∀ z locs, ∃ cs hl n, recallHost (discardFetch z locs) w locs = { z with cores := cs, hostLines := hl, bisnp := n } := by
    intro z locs
    obtain ⟨cs, discards⟩ := discardFetch_eq z locs
    obtain ⟨hl, n, recalls⟩ := recallHost_eq (discardFetch z locs) w locs
    exact ⟨cs, hl, n, by rw [recalls, discards]⟩
  unfold settleBytes
  dsimp only
  rw [writes]
  obtain ⟨cs, hl, n, e⟩ := follows _ _
  exact ⟨im, _, _, _, cs, hl, n, e⟩

theorem nodeStep_learn (s : State) (k : Nat) (ids : List Nat) : NodeStep s (learn s k ids) [] := by
  obtain ⟨wbuf, pc⟩ := learn_keeps s k ids
  refine ⟨wbuf, ?_, pc⟩
  unfold learn
  split <;> rfl

theorem nodeStep_takeBump (s : State) (chain cause : List Nat) : NodeStep s (takeBump s chain cause) [] := by
  unfold takeBump
  split
  · exact .refl s
  · exact ⟨rfl, rfl, rfl⟩

/-- Settling a write whose record is `r`. -/
theorem nodeStep_settleBytes (s : State) (w : Nat) : NodeStep s (settleBytes s w) (wrec s w).bytes := by
  have pc := curPc_of_lasts (Spares.settleBytes (.refl s) w).toLasts
  obtain ⟨im, po, pm, up, cs, hl, n, e⟩ := settleBytes_eq s w
  exact ⟨by rw [e], by rw [e], pc⟩

/-- The step of the issuing context writes the words as they stand. -/
theorem nodeStep_nodeEvent (s : State) (ws : List (Nat × Nat)) : NodeStep s (nodeEvent s ws).2 (nodeCells s ws) := by
  unfold nodeEvent
  extract_lets k tag cells prior r w known u
  have noted : NodeStep s { r.2 with hist := NMap.put r.2.hist r.1 { w with bytes := cells, known := known } } [] := ⟨rfl, rfl, rfl⟩
  have record : (wrec { r.2 with hist := NMap.put r.2.hist r.1 { w with bytes := cells, known := known } } r.1).bytes = cells := by
    rw [wrec, get_put_same]
  have settled := nodeStep_settleBytes { r.2 with hist := NMap.put r.2.hist r.1 { w with bytes := cells, known := known } } r.1
  rw [record] at settled
  exact (settled.after noted).before (nodeStep_learn ..)

theorem requestHome_eq (s : State) (owner id : Nat) (write : Bool) (l : List Place) :
    ∃ ps, requestHome s owner id write l = { s with points := ps } := by
  unfold requestHome
  refine List.foldlRecOn (motive := fun u : State => ∃ ps, u = { s with points := ps }) _ _ ⟨s.points, rfl⟩ ?_
  rintro _ ⟨ps, rfl⟩ p -
  obtain ⟨qs, e⟩ := requestAt_points { s with points := ps } owner id (some { p with write := write }) [(0x03, homeRing { s with points := ps } p.pa)]
  exact ⟨qs, e⟩

/-- A write of the node store's own writes the words as they stand, and takes no bump. -/
theorem nodeWrite_spec (s : State) (ws : List (Nat × Nat)) :
    NodeStep s (nodeWrite s ws) (nodeCells s ws) ∧ (nodeWrite s ws).bumps = s.bumps := by
  unfold nodeWrite
  extract_lets id owner places z r
  obtain ⟨ps, asked⟩ := requestHome_eq s owner id true (places.map fun a => { pa := a, treat := 0, share := none })
  have noted : NodeStep s { z with nextId := id + 1, hist := NMap.put z.hist id r } [] := by
    simp only [z, asked]
    exact ⟨rfl, rfl, rfl⟩
  have record : (wrec { z with nextId := id + 1, hist := NMap.put z.hist id r } id).bytes = nodeCells s ws := by
    rw [wrec, get_put_same]
    simp only [r, z, asked]
    rfl
  have settled := nodeStep_settleBytes { z with nextId := id + 1, hist := NMap.put z.hist id r } id
  rw [record] at settled
  refine ⟨settled.after noted, ?_⟩
  obtain ⟨im, po, pm, up, cs, hl, n, e⟩ := settleBytes_eq { z with nextId := id + 1, hist := NMap.put z.hist id r } id
  rw [e]
  simp only [z, asked]

/-! ### The bytes after the step (R351) -/

section
variable {s z u : State} {ws changed : List (Nat × Nat)}

/-- No byte changes but those of the words. -/
theorem keeps_of_nodeCells (written : u.wbuf = (nodeCells z ws).reverse ++ s.wbuf) (base : z.nodeBase = s.nodeBase) (within : ∀ q ∈ ws, q ∈ changed) :
    Inv s → ∀ a, ¬nodeByte s changed a → byteAt (committed s u) a = byteAt s a := by
  intro inv a outside
  have apart : ∀ p ∈ u.wbuf, p.1 ≠ a := by
    rintro ⟨x, b⟩ cell rfl
    rw [written, inv.wbuf, List.append_nil, List.mem_reverse] at cell
    obtain ⟨q, listed, there⟩ := nodeByte_of_mem cell
    exact outside ⟨q, within q listed, by rwa [nodeLoc, base] at there⟩
  simp only [byteAt, committed, NMap.find, inv.wbuf]
  exact memRead_applyWrites_other _ _ apart

/-- A word that is written reads as it stands in the record. -/
theorem rdNat_of_nodeCells (written : u.wbuf = (nodeCells z ws).reverse ++ s.wbuf) (inv : Inv s) (base : z.nodeBase = s.nodeBase) (words : ∀ q ∈ ws, q.2 < 8)
    {n w : Nat} (listed : (n, w) ∈ ws) : rdNat (committed s u) (nodeLoc s n w) 8 = (nodeWord (nodeOf z n) w).toNat := by
  have place : nodeLoc s n w = nodeLoc z n w := by rw [nodeLoc, nodeLoc, base]
  have small : (nodeWord (nodeOf z n) w).toNat < 256 ^ 8 := (nodeWord (nodeOf z n) w).isLt
  rw [place, rdNat_of_cells (v := (nodeWord (nodeOf z n) w).toNat), Nat.mod_eq_of_lt small]
  intro x b there
  have found : NMap.find (nodeCells z ws).reverse x = some b :=
    find_of_mem (List.mem_reverse.2 (mem_nodeCells.2 ⟨(n, w), listed, there⟩)) fun y other =>
      nodeCells_alone words (words _ listed) there (List.mem_reverse.1 other)
  simp only [byteAt, committed, NMap.find, memRead_applyWrites _ _ inv.mem, written, inv.wbuf, List.append_nil, found]
  rfl

end

/-! ### Changes of records alone -/

/-- Only node records and the home slices' tile entries change. -/
def OnlyTree (s t : State) : Prop := ∃ ns rs, t = { s with nodes := ns, rings := rs }

section
variable {s t u : State}

theorem OnlyTree.refl (s : State) : OnlyTree s s := ⟨s.nodes, s.rings, rfl⟩

theorem OnlyTree.trans (h : OnlyTree s t) (k : OnlyTree t u) : OnlyTree s u := by
  obtain ⟨ns, rs, rfl⟩ := h
  obtain ⟨ms, qs, rfl⟩ := k
  exact ⟨ms, qs, rfl⟩

theorem OnlyTree.foldl {α : Type} {f : State → α → State} (h : OnlyTree s t) (hf : ∀ u a, OnlyTree s u → OnlyTree s (f u a)) (l : List α) :
    OnlyTree s (l.foldl f t) := List.foldlRecOn l f h fun u hu a _ => hf u a hu

theorem OnlyTree.setNode (h : OnlyTree s t) (n : Nat) (x : Node) : OnlyTree s (setNode t n x) := h.trans ⟨_, t.rings, rfl⟩

theorem OnlyTree.reheight (h : OnlyTree s t) (chain : List Nat) : OnlyTree s (reheight t chain) := h.foldl (fun _ _ h => h.setNode ..) _

theorem OnlyTree.redepth (h : OnlyTree s t) (g n d : Nat) : OnlyTree s (redepth g n d t) := by
  induction g generalizing n d t with
  | zero => exact h
  | succ g ih => exact .foldl (h.setNode ..) (fun u p hu => ih hu p.1 (d + 1)) _

theorem OnlyTree.nodeStep (h : OnlyTree s t) : NodeStep s t [] := by
  obtain ⟨ns, rs, rfl⟩ := h
  exact ⟨rfl, rfl, rfl⟩

theorem OnlyTree.base (h : OnlyTree s t) : t.nodeBase = s.nodeBase := by
  obtain ⟨ns, rs, rfl⟩ := h
  rfl

theorem OnlyTree.oneTile (h : OnlyTree s t) (drop : Bool) (n k : Nat) : OnlyTree s (oneTile drop t n k).1 := by
  unfold Machine.oneTile
  split
  · split
    · exact h.trans ⟨_, _, rfl⟩
    · exact h
  · split
    · exact h
    · exact h.trans ⟨_, _, rfl⟩

/-- Tiles change records and entries alone. -/
theorem OnlyTree.runTiles (h : OnlyTree s t) {drop : Bool} {n count k st kk : Nat} {va : Word} {stop : Option (Nat × Word)}
    (run : runTiles drop n count va t k = .run u st kk stop) : OnlyTree s u := by
  induction count generalizing va t k with
  | zero => cases run; exact h
  | succ count ih =>
    unfold Machine.runTiles at run
    split at run
    · next pa x _ =>
      dsimp only at run
      by_cases stops : (if drop = true then 0 else enrolStop t n (pa / 4096) x) ≠ 0
      · rw [if_pos stops] at run
        cases run
        exact h
      · rw [if_neg stops] at run
        exact ih (h.oneTile ..) run
    · cases run; exact h
    · cases run

end

end Sys2Proof.Machine
end


section
/-! SUPPORT. The instructions of the containment tree case by case, and a roll-up step (R354, R358-R362). -/

namespace Sys2Proof.Machine

open Sys2Proof

/-! ### Records that change, and the value owed for it (R356, R357) -/

/-- `u` is `s` with the records of `z`, of which the words `ws` are written to the node store. -/
structure RecordsStep (s u z : State) (ws : List (Nat × Nat)) : Prop where
  step  : NodeStep s u (nodeCells z ws)
  tree  : treeOf u = treeOf z
  base  : z.nodeBase = s.nodeBase
  words : ∀ q ∈ ws, q.2 < 8

theorem lt_of_mem_nodeChanges {s t : State} {q : Nat × Nat} (h : q ∈ nodeChanges s t) : q.2 < 8 := by
  obtain ⟨p, -, there⟩ := List.mem_flatMap.1 h
  obtain ⟨w, listed, rfl⟩ := List.mem_map.1 there
  have := (List.mem_filter.1 listed).1
  simp only [List.mem_cons, List.not_mem_nil, or_false] at this
  omega

theorem nodeChanges_of_tree {s t z : State} (h : treeOf t = treeOf z) : nodeChanges s t = nodeChanges s z := by
  have nodes : t.nodes = z.nodes := (Prod.mk.inj h).1
  rw [nodeChanges, nodeChanges, nodes]

theorem parkValue_wbuf (u : State) (d : Reg) (v : Word) : (parkValue u d v).wbuf = u.wbuf := by
  obtain ⟨id, cores, ctxs, e⟩ := parkValue_eq u d v
  rw [e]

section
variable {s u z : State} {ws changed : List (Nat × Nat)} {i : Instr} {d : Reg} {v : Word} {P : State → Prop}

theorem recordsStep_nodeEvent (h : OnlyTree s z) (words : ∀ q ∈ ws, q.2 < 8) : RecordsStep s (nodeEvent z ws).2 z ws :=
  ⟨(nodeStep_nodeEvent z ws).after h.nodeStep, treeOf_nodeEvent z ws, h.base, words⟩

theorem recordsStep_changed (h : OnlyTree s z) : RecordsStep s (nodeEvent z (nodeChanges s z)).2 z (nodeChanges s z) :=
  recordsStep_nodeEvent h fun _ => lt_of_mem_nodeChanges

theorem RecordsStep.takeBump (h : RecordsStep s u z ws) (chain cause : List Nat) : RecordsStep s (takeBump u chain cause) z ws :=
  ⟨h.step.before (nodeStep_takeBump u chain cause), (treeOf_takeBump ..).trans h.tree, h.base, h.words⟩

theorem moves_parkAnswer {id : Nat} (clk : u.clk = s.clk) (pc : curPc u = curPc s) :
    Moves u (parkAnswer u id) (waiting [.answer id] s.clk) [] (curPc s + 4) := pc ▸ clk ▸ moves_parkedAfter u [.answer id]

/-- The instruction completes with the change, and its value is owed. -/
theorem RecordsStep.completes (h : RecordsStep s u z ws) (within : ∀ q ∈ ws, q ∈ changed) (runs : exec i s = commit s (parkValue u d v))
    (holds : P (committed s (parkValue u d v))) : CompletesOwingIn i s u d v (nodeByte s changed) P := by
  have written := (parkValue_wbuf u d v).trans h.step.wbuf
  have moves := moves_parkAnswer (s := s) (u := owe { u with nextId := u.nextId + 1 } d u.nextId (some v)) (id := u.nextId) h.step.clk
    ((curPc_owe ..).trans h.step.pc)
  exact ⟨_, runs, moves.committed, keeps_of_nodeCells written h.base within, holds⟩

/-- The words written read as they stand in the records. -/
theorem RecordsStep.reads (h : RecordsStep s u z ws) (inv : Inv s) {n w : Nat} (listed : (n, w) ∈ ws) :
    rdNat (committed s (parkValue u d v)) (nodeLoc s n w) 8 = (nodeWord (nodeOf (committed s (parkValue u d v)) n) w).toNat := by
  rw [nodeOf_owed, nodeOf_of_tree h.tree]
  exact rdNat_of_nodeCells ((parkValue_wbuf u d v).trans h.step.wbuf) inv h.base h.words listed

end

/-! ### `cnode` (R358) -/

section
variable {s : State} {o p n : Nat}

/-- The parent is the root or a node of the owner's. -/
def parentLives (s : State) (o p : Nat) : Prop := p = 0 ∨ ownNode s o p = true

theorem parentLives_iff : parentLives s o p ↔ ¬(p ≠ 0 ∧ ownNode s o p = false) := by
  simp [parentLives, or_iff_not_imp_left]

/-- A record that has been made. -/
def madeNode (s : State) (o p : Nat) : Node :=
  { count := 0, parent := p, owner := o, depth := if p = 0 then 0 else (nodeOf s p).depth + 1, live := true, children := 0, tiles := 0,
    height := 0 }

/-- The parent of a node that is made counts one child more. -/
def madeUnder (s : State) (o p n : Nat) : State :=
  let u := setNode s n (madeNode s o p)
  if p = 0 then u else setNode u p { nodeOf u p with children := (nodeOf u p).children + 1 }

/-- The records as a node has been made. -/
def treeMade (s : State) (o p n : Nat) : State := reheight (madeUnder s o p n) (nodeChain (madeUnder s o p n) 16 p)

/-- The words that are written of it. -/
def madeWords (s : State) (o p n : Nat) : List (Nat × Nat) :=
  [(n, 0), (n, 1), (n, 2)] ++ (nodeChanges s (treeMade s o p n)).filter fun q => q.1 != n

theorem createNode_dead (h : ¬parentLives s o p) : createNode s o p = (s, nodeStatus 3 0) :=
  if_pos (not_not.1 (mt parentLives_iff.2 h))

theorem createNode_deep (lives : parentLives s o p) (h : p ≠ 0 ∧ (nodeOf s p).depth = 15) : createNode s o p = (s, nodeStatus 4 0) :=
  (if_neg (parentLives_iff.1 lives)).trans (if_pos h)

theorem createNode_full (lives : parentLives s o p) (shallow : ¬(p ≠ 0 ∧ (nodeOf s p).depth = 15))
    (full : s.nodeBase = 0 ∨ (ownerOf s o).nodeQuota ≤ nodesHeld s o ∨ freeNode s = none) : createNode s o p = (s, nodeStatus 1 0) := by
  refine ((if_neg (parentLives_iff.1 lives)).trans (if_neg shallow)).trans ?_
  by_cases poor : s.nodeBase = 0 ∨ (ownerOf s o).nodeQuota ≤ nodesHeld s o
  · exact if_pos poor
  · have none : freeNode s = none := by
      rcases full with base | quota | none
      · exact absurd (.inl base) poor
      · exact absurd (.inr quota) poor
      · exact none
    rw [if_neg poor, none]

theorem createNode_makes (lives : parentLives s o p) (shallow : ¬(p ≠ 0 ∧ (nodeOf s p).depth = 15)) (base : s.nodeBase ≠ 0)
    (room : nodesHeld s o < (ownerOf s o).nodeQuota) (free : freeNode s = some n) :
    createNode s o p = ((nodeEvent (treeMade s o p n) (madeWords s o p n)).2, nodeStatus 0 n) := by
  refine ((if_neg (parentLives_iff.1 lives)).trans (if_neg shallow)).trans ?_
  rw [if_neg (by simp [base, Nat.not_le.2 room]), free]
  rfl

theorem onlyTree_treeMade : OnlyTree s (treeMade s o p n) := by
  refine .reheight ?_ _
  unfold madeUnder
  split
  · exact .setNode (.refl s) ..
  · exact .setNode (.setNode (.refl s) ..) ..

theorem not_live_of_freeNode (h : freeNode s = some n) : (nodeOf s n).live = false := by
  have := List.find?_some h
  simp only [Bool.and_eq_true, Bool.not_eq_true', Bool.or_eq_false_iff] at this
  exact this.1.1

/-- The lowest free node is not the parent. -/
theorem freeNode_ne_parent (lives : parentLives s o p) (free : freeNode s = some n) (made : p ≠ 0) : n ≠ p := by
  rintro rfl
  have own := lives.resolve_left made
  simp only [ownNode, not_live_of_freeNode free, Bool.and_false, Bool.false_and] at own
  cases own

/-- The record made stands, but for HEIGHT. -/
theorem treeMade_keeps {α : Type} (f : Node → α) (hf : ∀ x h, f { x with height := h } = f x) (other : p ≠ 0 → n ≠ p) :
    f (nodeOf (treeMade s o p n) n) = f (madeNode s o p) := by
  rw [treeMade, reheight_keeps f hf]
  unfold madeUnder
  dsimp only
  split
  · rw [nodeOf_setNode, if_pos rfl]
  · next under => rw [nodeOf_setNode, if_neg (other under), nodeOf_setNode, if_pos rfl]

theorem madeWords_small : ∀ q ∈ madeWords s o p n, q.2 < 8 := by
  intro q listed
  rcases List.mem_append.1 listed with own | others
  · simp only [List.mem_cons, List.not_mem_nil, or_false] at own
    rcases own with rfl | rfl | rfl <;> simp
  · exact lt_of_mem_nodeChanges (List.mem_filter.1 others).1

end

/-! ### `cmove` and `cdrop` of a node (R359, R360) -/

section
variable {s : State} {o p n : Nat}

/-- The depth that a node takes under a parent. -/
def depthUnder (s : State) (p : Nat) : Nat := if p = 0 then 0 else (nodeOf s p).depth + 1

/-- A parent counts its children anew. -/
def withChildren (s : State) (p : Nat) (f : Nat → Nat) : State :=
  if p = 0 then s else setNode s p { nodeOf s p with children := f (nodeOf s p).children }

/-- The records as a node has moved, before heights. -/
def movedUnder (s : State) (n p : Nat) : State :=
  redepth 16 n (depthUnder s p) (withChildren (withChildren (setNode s n { nodeOf s n with parent := p }) (nodeOf s n).parent (· - 1)) p (· + 1))

/-- The records as a node has moved. -/
def treeMoved (s : State) (n p : Nat) : State :=
  reheight (reheight (movedUnder s n p) (nodeChain (movedUnder s n p) 16 (nodeOf s n).parent)) (nodeChain (movedUnder s n p) 16 p)

theorem OnlyTree.withChildren {t : State} (h : OnlyTree s t) (p : Nat) (f : Nat → Nat) : OnlyTree s (withChildren t p f) := by
  unfold Machine.withChildren
  split
  · exact h
  · exact h.setNode ..

theorem withChildren_keeps {α : Type} (f : Node → α) (hf : ∀ x c, f { x with children := c } = f x) (s : State) (p : Nat) (g : Nat → Nat) (m : Nat) :
    f (nodeOf (withChildren s p g) m) = f (nodeOf s m) := by
  unfold withChildren
  split
  · rfl
  · exact setNode_keeps f s (hf ..) m

theorem onlyTree_treeMoved : OnlyTree s (treeMoved s n p) :=
  .reheight (.reheight (.redepth (.withChildren (.withChildren (.setNode (.refl s) ..) ..) ..) ..) _) _

theorem parent_treeMoved : (nodeOf (treeMoved s n p) n).parent = p := by
  have moved : (nodeOf (movedUnder s n p) n).parent = p := by
    rw [movedUnder, redepth_keeps Node.parent fun _ _ => rfl, withChildren_keeps Node.parent fun _ _ => rfl,
      withChildren_keeps Node.parent fun _ _ => rfl, nodeOf_setNode, if_pos rfl]
  rw [treeMoved, reheight_keeps Node.parent fun _ _ => rfl, reheight_keeps Node.parent fun _ _ => rfl, moved]

theorem moveNode_moves (lives : ¬(ownNode s o n = false ∨ (p ≠ 0 ∧ ownNode s o p = false))) (outside : n ∉ nodeChain s 16 p)
    (low : depthUnder s p + (nodeOf s n).height ≤ 15) (new : p ≠ (nodeOf s n).parent) : moveNode s o n p =
    (takeBump (nodeEvent (treeMoved s n p) (nodeChanges s (treeMoved s n p))).2
      (unionNat ((nodeChain s 16 (nodeOf s n).parent).foldl insNat []) (nodeChain s 16 p))
      [(nodeEvent (treeMoved s n p) (nodeChanges s (treeMoved s n p))).1], nodeStatus 0 0) := by
  have apart : ¬(nodeChain s 16 p).contains n = true := by rwa [List.contains_iff_mem]
  unfold moveNode
  extract_lets x depth old chain s1 src s2 dst s3 s4 s5 e
  have deleted : s2 = withChildren s1 old (· - 1) := rfl
  have added : s3 = withChildren s2 p (· + 1) := rfl
  have under : s4 = movedUnder s n p := by
    simp only [s4, added, deleted]
    rfl
  have tree : s5 = treeMoved s n p := by
    simp only [s5, under]
    rfl
  have event : e = nodeEvent (treeMoved s n p) (nodeChanges s (treeMoved s n p)) := by
    simp only [e, tree]
  have shallow : ¬15 < depth + x.height := Nat.not_lt.2 low
  have other : ¬p = x.parent := new
  rw [if_neg lives, if_neg apart, if_neg shallow, if_neg other, event]

/-- The records as a node has been deleted, before heights. -/
def deletedUnder (s : State) (n : Nat) : State := withChildren (setNode s n { nodeOf s n with live := false }) (nodeOf s n).parent (· - 1)

/-- The ancestors that a deletion bumps. -/
def deletedChain (s : State) (n : Nat) : List Nat := nodeChain (setNode s n { nodeOf s n with live := false }) 16 (nodeOf s n).parent

/-- The records as a node has been deleted. -/
def treeDeleted (s : State) (n : Nat) : State := reheight (deletedUnder s n) (deletedChain s n)

theorem onlyTree_treeDeleted : OnlyTree s (treeDeleted s n) := .reheight (.withChildren (.setNode (.refl s) ..) ..) _

theorem deleteNode_deletes (children : (nodeOf s n).children = 0) (tiles : (nodeOf s n).tiles = 0) : deleteNode s n =
    (takeBump (nodeEvent (treeDeleted s n) (nodeChanges s (treeDeleted s n))).2 (deletedChain s n)
      [(nodeEvent (treeDeleted s n) (nodeChanges s (treeDeleted s n))).1], nodeStatus 0 0) := by
  refine (if_neg ?_).trans rfl
  simp [children, tiles]

end

/-! ### `cenr` and `cdrop` of tiles (R359) -/

section
variable {s v : State} {drop : Bool} {d : Reg} {n count : Nat} {va : Word}

/-- The state after a run of tiles, with its bump where any tile was enrolled or removed. -/
def tilesBumped (v : State) (n kk : Nat) : State :=
  if kk = 0 then v else takeBump (nodeEvent v [(n, 2)]).2 (nodeChain (nodeEvent v [(n, 2)]).2 16 n) [(nodeEvent v [(n, 2)]).1]

theorem tilesOp_unowned (go : released s) (h : ownNode s (curOwner s) n = false) :
    tilesOp drop d n count va s = parkValue s d (nodeStatus 3 0) := by
  rw [tilesOp, afterRelease_released go, h]
  rfl

theorem tilesOp_walks {x : Word} (go : released s) (own : ownNode s (curOwner s) n = true) (run : runTiles drop n count va s 0 = .walk x) :
    tilesOp drop d n count va s = startWalk (setCur s { curFrame s with granted := true }) x 0 := by
  rw [tilesOp, afterRelease_released go, own]
  simp only [Bool.not_true, Bool.false_eq_true, if_false, run]

theorem tilesOp_traps {st kk c : Nat} {x : Word} (go : released s) (own : ownNode s (curOwner s) n = true)
    (run : runTiles drop n count va s 0 = .run v st kk (some (c, x))) :
    tilesOp drop d n count va s = whereTrap (tilesBumped v n kk) c x := by
  rw [tilesOp, afterRelease_released go, own]
  simp only [Bool.not_true, Bool.false_eq_true, if_false, run]
  rfl

theorem tilesOp_completes {st kk : Nat} (go : released s) (own : ownNode s (curOwner s) n = true)
    (run : runTiles drop n count va s 0 = .run v st kk none) :
    tilesOp drop d n count va s = parkValue (tilesBumped v n kk) d (nodeStatus st kk) := by
  rw [tilesOp, afterRelease_released go, own]
  simp only [Bool.not_true, Bool.false_eq_true, if_false, run]
  rfl

theorem recordsStep_tiles {st kk : Nat} {stop : Option (Nat × Word)} (run : runTiles drop n count va s 0 = .run v st kk stop) :
    RecordsStep s (tilesBumped v n kk) v (if kk = 0 then [] else [(n, 2)]) := by
  have tree := (OnlyTree.refl s).runTiles run
  unfold tilesBumped
  split
  · exact ⟨tree.nodeStep, rfl, tree.base, nofun⟩
  · refine (recordsStep_nodeEvent tree ?_).takeBump ..
    simp

/-- One tile that `cenr` does not enrol. -/
theorem runTiles_stays {pa : Nat} {z : Xlat} (at_ : tileWhere s va true = .mem pa z) (stop : enrolStop s n (pa / 4096) z ≠ 0) :
    runTiles false n 1 va s 0 = .run s (enrolStop s n (pa / 4096) z) 0 none := by
  simp [runTiles, at_, stop]

/-- One tile that is the node's already. -/
theorem runTiles_entered {pa c : Nat} {z : Xlat} (at_ : tileWhere s va true = .mem pa z) (entered : tileOf s (pa / 4096) = some (n, c)) :
    runTiles false n 1 va s 0 = .run s 0 0 none := by
  simp [runTiles, at_, enrolStop, oneTile, entered]

end

end Sys2Proof.Machine
end


section
/-! SUPPORT. The containment tree's instructions as they run (R350-R363). -/

namespace Sys2Proof.Machine

open Sys2Proof

/-! ### The checks of each instruction (R357-R362) -/

section
variable {s : State} {d a b : Reg} {x : Word}

theorem bits_above_eq_zero : bits x 63 16 = 0 ↔ x.toNat < 2 ^ 16 := by
  have := x.isLt
  simp only [bits]
  omega

/-- An instruction that ends with a state and a value. -/
theorem runs_of_pair {i : Instr} {u : State} {w : Word} {r : State × Word} (runs : exec i s = commit s (parkValue r.1 d r.2)) (e : r = (u, w)) :
    exec i s = commit s (parkValue u d w) := by
  rw [runs, e]

theorem exec_cnode (small : (rd s a).toNat < 2 ^ 16) : exec (.cnode d a) s = commit s (afterRelease s fun s' =>
    parkValue (createNode s' (curOwner s') (rd s a).toNat).1 d (createNode s' (curOwner s') (rd s a).toNat).2) :=
  congrArg (commit s) (if_neg (not_not_intro (bits_above_eq_zero.2 small)))

theorem exec_cmove (small : (rd s a).toNat < 2 ^ 16) (low : (rd s b).toNat < 2 ^ 16) : exec (.cmove d a b) s = commit s
    (afterRelease s fun s' => parkValue (moveNode s' (curOwner s') (rd s a).toNat (rd s b).toNat).1 d
      (moveNode s' (curOwner s') (rd s a).toNat (rd s b).toNat).2) :=
  congrArg (commit s) (if_neg (not_or.2 ⟨not_not_intro (bits_above_eq_zero.2 small), not_not_intro (bits_above_eq_zero.2 low)⟩))

/-- The form that `cdrop` checks of its count field. -/
theorem cdrop_fields : (bits x 63 49 ≠ 0 ↔ 1 < bits x 63 48) ∧ (bit x 48 = true ↔ bits x 63 48 % 2 = 1)
    ∧ (bits x 63 32 = 0 ↔ bits x 63 48 = 0 ∧ bits x 47 32 = 0) := by
  have := x.isLt
  refine ⟨?_, ?_, ?_⟩
  · simp only [bits]; omega
  · rw [bit, BitVec.getLsbD, Nat.testBit_eq_decide_div_mod_eq, decide_eq_true_iff]
    simp only [bits]
    omega
  · simp only [bits]; omega

end

/-! ### Instructions that change records (R358-R360) -/

section
variable {s : State} {d a b : Reg}

/-- A node that is made: its record, and the words of it in the node store. -/
theorem cnode_completes {n : Nat} (go : released s) (small : (rd s a).toNat < 2 ^ 16) (lives : parentLives s (curOwner s) (rd s a).toNat)
    (shallow : ¬((rd s a).toNat ≠ 0 ∧ (nodeOf s (rd s a).toNat).depth = 15)) (base : s.nodeBase ≠ 0)
    (room : nodesHeld s (curOwner s) < (ownerOf s (curOwner s)).nodeQuota) (free : freeNode s = some n) :
    CompletesOwingIn (.cnode d a) s (createNode s (curOwner s) (rd s a).toNat).1 d (nodeStatus 0 n)
      (nodeByte s ([(n, 0), (n, 1), (n, 2)] ++ nodeChanges s (createNode s (curOwner s) (rd s a).toNat).1)) fun t =>
        { nodeOf t n with height := 0 } = madeNode s (curOwner s) (rd s a).toNat
        ∧ (Inv s → ∀ w < 3, rdNat t (nodeLoc s n w) 8 = (nodeWord (nodeOf t n) w).toNat) := by
  have makes := createNode_makes lives shallow base room free
  have runs := (exec_cnode (d := d) small).trans (congrArg (commit s) (afterRelease_released go _))
  rw [makes] at runs ⊢
  have step : RecordsStep s (nodeEvent (treeMade s (curOwner s) (rd s a).toNat n) (madeWords s (curOwner s) (rd s a).toNat n)).2
      (treeMade s (curOwner s) (rd s a).toNat n) (madeWords s (curOwner s) (rd s a).toNat n) :=
    recordsStep_nodeEvent onlyTree_treeMade madeWords_small
  refine step.completes ?_ runs ⟨?_, fun inv w least => ?_⟩
  · intro q listed
    rw [nodeChanges_of_tree step.tree]
    rcases List.mem_append.1 listed with own | others
    · exact List.mem_append_left _ own
    · exact List.mem_append_right _ (List.mem_filter.1 others).1
  · rw [nodeOf_owed, nodeOf_of_tree step.tree]
    exact treeMade_keeps (fun x : Node => { x with height := 0 }) (fun _ _ => rfl) (freeNode_ne_parent lives free)
  · refine step.reads inv (List.mem_append_left _ ?_)
    have : w = 0 ∨ w = 1 ∨ w = 2 := by omega
    rcases this with rfl | rfl | rfl <;> simp

/-- A node that moves: its record. -/
theorem cmove_completes (go : released s) (small : (rd s a).toNat < 2 ^ 16) (low : (rd s b).toNat < 2 ^ 16)
    (lives : ¬(ownNode s (curOwner s) (rd s a).toNat = false ∨ ((rd s b).toNat ≠ 0 ∧ ownNode s (curOwner s) (rd s b).toNat = false)))
    (outside : (rd s a).toNat ∉ nodeChain s 16 (rd s b).toNat)
    (shallow : depthUnder s (rd s b).toNat + (nodeOf s (rd s a).toNat).height ≤ 15) (new : (rd s b).toNat ≠ (nodeOf s (rd s a).toNat).parent) :
    CompletesOwingIn (.cmove d a b) s (moveNode s (curOwner s) (rd s a).toNat (rd s b).toNat).1 d (nodeStatus 0 0)
      (nodeByte s (nodeChanges s (moveNode s (curOwner s) (rd s a).toNat (rd s b).toNat).1)) fun t =>
        (nodeOf t (rd s a).toNat).parent = (rd s b).toNat := by
  have runs := (exec_cmove (d := d) small low).trans (congrArg (commit s) (afterRelease_released go _))
  rw [moveNode_moves lives outside shallow new] at runs ⊢
  have step := recordsStep_changed (onlyTree_treeMoved (s := s) (n := (rd s a).toNat) (p := (rd s b).toNat))
  refine (step.takeBump _ _).completes (fun q listed => ?_) runs ?_
  · rwa [nodeChanges_of_tree (step.takeBump _ _).tree]
  · rw [nodeOf_owed, nodeOf_of_tree (step.takeBump _ _).tree, parent_treeMoved]

theorem exec_cdrop_node {n : Nat} (node : bits (rd s a) 15 0 = n) (mid : bits (rd s a) 31 16 = 0) (high : bits (rd s a) 63 32 = 0)
    (zero : rd s b = 0) : exec (.cdrop d a b) s = commit s (afterRelease s fun s' =>
      parkValue (if ownNode s' (curOwner s') n then deleteNode s' n else (s', nodeStatus 3 0)).1 d
        (if ownNode s' (curOwner s') n then deleteNode s' n else (s', nodeStatus 3 0)).2) := by
  subst node
  obtain ⟨top, count⟩ := cdrop_fields.2.2.1 high
  have low : ¬(bits (rd s a) 31 16 ≠ 0 ∨ bits (rd s a) 63 49 ≠ 0) := by
    rw [cdrop_fields.1, top]
    simp [mid]
  have alone : ¬bit (rd s a) 48 = true := by
    rw [cdrop_fields.2.1, top]
    decide
  exact congrArg (commit s) ((if_neg low).trans ((if_neg alone).trans (if_neg (by simp [count, zero]))))

/-- A node that is deleted: its record. -/
theorem cdrop_completes {n : Nat} (go : released s) (node : bits (rd s a) 15 0 = n) (mid : bits (rd s a) 31 16 = 0)
    (high : bits (rd s a) 63 32 = 0) (zero : rd s b = 0) (own : ownNode s (curOwner s) n = true) (children : (nodeOf s n).children = 0)
    (tiles : (nodeOf s n).tiles = 0) :
    CompletesOwingIn (.cdrop d a b) s (deleteNode s n).1 d (nodeStatus 0 0) (nodeByte s (nodeChanges s (deleteNode s n).1)) fun t =>
      (nodeOf t n).live = false := by
  have dead := nodeOf_deleteNode children tiles
  have runs := (exec_cdrop_node (d := d) node mid high zero).trans (congrArg (commit s) (afterRelease_released go _))
  simp only [own, if_true] at runs
  rw [deleteNode_deletes children tiles] at runs dead ⊢
  have step := recordsStep_changed (onlyTree_treeDeleted (s := s) (n := n))
  refine (step.takeBump _ _).completes (fun q listed => ?_) runs ?_
  · rwa [nodeChanges_of_tree (step.takeBump _ _).tree]
  · rw [nodeOf_owed]
    exact dead

end

/-! ### Roll-up (R354) -/

section
variable {s : State} {n : Nat} {ids : List Nat}

/-- The bump is one of those included, and its chain holds the node. -/
def included (ids : List Nat) (n : Nat) (b : Bump) : Bool := ids.contains b.id && b.chain.contains n

theorem included_iff {b : Bump} : included ids n b = true ↔ b.id ∈ ids ∧ n ∈ b.chain := by
  simp [included]

/-- The bumps after a node has left the chains of those included. -/
def rolledBumps (s : State) (n : Nat) (ids : List Nat) : List Bump :=
  (s.bumps.map fun b => if included ids n b then { b with chain := b.chain.filter fun m => m != n } else b).filter fun b => !b.chain.isEmpty

theorem rolledBumps_spec {c : Bump} (h : c ∈ rolledBumps s n ids) : c.chain ≠ [] ∧ ¬(c.id ∈ ids ∧ n ∈ c.chain) := by
  obtain ⟨listed, going⟩ := List.mem_filter.1 h
  obtain ⟨b, -, rfl⟩ := List.mem_map.1 listed
  refine ⟨by simpa [List.isEmpty_iff] using going, fun hit => ?_⟩
  split at hit
  · simp at hit
  · next out => exact out (included_iff.2 hit)

theorem exec_rollupStep_idle (h : ∀ b ∈ s.bumps, ¬(b.id ∈ ids ∧ n ∈ b.chain)) : exec (.rollupStep n ids) s = commit s s := by
  refine congrArg (commit s) (if_neg fun some_ => ?_)
  obtain ⟨b, listed, hit⟩ := List.any_eq_true.1 some_
  exact h b listed (included_iff.1 hit)

end

section
variable {s t : State} {n : Nat} {ids : List Nat}

/-- The records and bumps that a roll-up of a live node comes to. -/
def rolledUp (s : State) (n : Nat) (ids : List Nat) : State :=
  setNode { s with bumps := rolledBumps s n ids } n { nodeOf s n with count := ((nodeOf s n).count + 1) % 2 ^ 64 }

theorem exec_rollupStep {b : Bump} (listed : b ∈ s.bumps) (hit : b.id ∈ ids ∧ n ∈ b.chain) : exec (.rollupStep n ids) s = commit s
    (if (nodeOf s n).live then nodeWrite (rolledUp s n ids) [(n, 0)] else { s with bumps := rolledBumps s n ids }) :=
  congrArg (commit s) (if_pos (List.any_eq_true.2 ⟨b, listed, included_iff.2 hit⟩))

theorem nodeOf_rolledUp : nodeOf (rolledUp s n ids) n = { nodeOf s n with count := ((nodeOf s n).count + 1) % 2 ^ 64 } :=
  (nodeOf_setNode ..).trans (if_pos rfl)

theorem nodeStep_rolledUp : NodeStep s (nodeWrite (rolledUp s n ids) [(n, 0)]) (nodeCells (rolledUp s n ids) [(n, 0)]) :=
  (nodeWrite_spec ..).1.after ⟨rfl, rfl, rfl⟩

theorem bumps_committed (s z : State) : (committed s z).bumps = z.bumps := rfl

theorem bumps_rollup : (committed s (nodeWrite (rolledUp s n ids) [(n, 0)])).bumps = rolledBumps s n ids := by
  rw [bumps_committed, (nodeWrite_spec (rolledUp s n ids) [(n, 0)]).2]
  rfl

theorem nodeOf_rollup : nodeOf (committed s (nodeWrite (rolledUp s n ids) [(n, 0)])) n
    = { nodeOf s n with count := ((nodeOf s n).count + 1) % 2 ^ 64 } :=
  (nodeOf_of_tree ((treeOf_committed ..).trans (treeOf_nodeWrite ..)) n).trans nodeOf_rolledUp

theorem rdNat_rollup (inv : Inv s) :
    rdNat (committed s (nodeWrite (rolledUp s n ids) [(n, 0)])) (nodeLoc s n 0) 8 = ((nodeOf s n).count + 1) % 2 ^ 64 := by
  rw [rdNat_of_nodeCells nodeStep_rolledUp.wbuf inv rfl (by simp) (.head _), nodeOf_rolledUp]
  simp only [nodeWord, word, BitVec.toNat_ofNat, Nat.mod_mod]

end

/-! ### Tiles (R359) -/

section
variable {s u : State} {i : Instr} {d : Reg} {n : Nat} {v : Word} {st : Nat → Prop} {P Q : State → Prop}

theorem CompletesOwingIn.imp (h : CompletesOwingIn i s u d v st P) (weaker : ∀ t, P t → Q t) : CompletesOwingIn i s u d v st Q := by
  obtain ⟨t, runs, moves, bytes, holds⟩ := h
  exact ⟨t, runs, moves, bytes, weaker t holds⟩

/-- Tiles that have been enrolled or removed, and the value owed. -/
theorem tiles_complete {drop : Bool} {count stat kk : Nat} {y : Word} {z : State} (runs : exec i s = commit s (tilesOp drop d n count y s))
    (go : released s) (own : ownNode s (curOwner s) n = true) (run : runTiles drop n count y s 0 = .run z stat kk none)
    (holds : P (committed s (parkValue (tilesBumped z n kk) d (nodeStatus stat kk)))) :
    CompletesOwingIn i s (tilesBumped z n kk) d (nodeStatus stat kk) (nodeByte s (if kk = 0 then [] else [(n, 2)])) P :=
  (recordsStep_tiles run).completes (fun _ => id) (runs.trans (congrArg (commit s) (tilesOp_completes go own run))) holds

end

section
variable {s : State} {d a b : Reg} {n pa : Nat} {y : Word} {z : Xlat}

theorem exec_cenr (mid : bits (rd s a) 31 16 = 0) (high : bits (rd s a) 63 48 = 0) (some_ : bits (rd s a) 47 32 ≠ 0) :
    exec (.cenr d a b) s = commit s (if (rd s b).toNat % 4096 ≠ 0 then alignTrap s (rd s b)
      else tilesOp false d (bits (rd s a) 15 0) (bits (rd s a) 47 32) (rd s b) s) :=
  congrArg (commit s) (if_neg (not_or.2 ⟨not_not_intro mid, not_or.2 ⟨not_not_intro high, some_⟩⟩))

theorem exec_cenr_ill (bad : ¬(bits (rd s a) 31 16 = 0 ∧ bits (rd s a) 63 48 = 0 ∧ bits (rd s a) 47 32 ≠ 0)) :
    exec (.cenr d a b) s = commit s (illOperand s) := by
  refine congrArg (commit s) (if_pos ?_)
  by_contra good
  obtain ⟨mid, good⟩ := not_or.1 good
  obtain ⟨high, some_⟩ := not_or.1 good
  exact bad ⟨not_not.1 mid, not_not.1 high, some_⟩

theorem exec_cdrop_tiles (mid : bits (rd s a) 31 16 = 0) (drop : bits (rd s a) 63 48 = 1) (some_ : bits (rd s a) 47 32 ≠ 0) :
    exec (.cdrop d a b) s = commit s (if (rd s b).toNat % 4096 ≠ 0 then alignTrap s (rd s b)
      else tilesOp true d (bits (rd s a) 15 0) (bits (rd s a) 47 32) (rd s b) s) := by
  obtain ⟨high, low, -⟩ := cdrop_fields (x := rd s a)
  have fits : ¬(bits (rd s a) 31 16 ≠ 0 ∨ bits (rd s a) 63 49 ≠ 0) := by
    rw [high, drop]
    simp [mid]
  have tiles : bit (rd s a) 48 = true := low.2 (by rw [drop])
  exact congrArg (commit s) ((if_neg fits).trans ((if_pos tiles).trans (if_neg some_)))

theorem exec_cdrop_ill (bad : bits (rd s a) 31 16 ≠ 0 ∨ 1 < bits (rd s a) 63 48 ∨ (bits (rd s a) 63 48 = 1 ∧ bits (rd s a) 47 32 = 0)) :
    exec (.cdrop d a b) s = commit s (illOperand s) := by
  obtain ⟨high, low, -⟩ := cdrop_fields (x := rd s a)
  by_cases fits : bits (rd s a) 31 16 ≠ 0 ∨ bits (rd s a) 63 49 ≠ 0
  · exact congrArg (commit s) (if_pos fits)
  · obtain ⟨mid, top⟩ := not_or.1 fits
    rw [high] at top
    obtain ⟨drop, none⟩ := (bad.resolve_left mid).resolve_left top
    have tiles : bit (rd s a) 48 = true := low.2 (by rw [drop])
    exact congrArg (commit s) ((if_neg fits).trans ((if_pos tiles).trans (if_pos none)))

/-- The status that one tile stops `cenr` with, where it does not join the node. -/
theorem tilesOp_stays {stat : Nat} (go : released s) (own : ownNode s (curOwner s) n = true) (run : runTiles false n 1 y s 0 = .run s stat 0 none) :
    tilesOp false d n 1 y s = parkValue s d (nodeStatus stat 0) := by
  have none : tilesBumped s n 0 = s := if_pos rfl
  rw [tilesOp_completes go own run, none]

/-- One tile that joins the node. -/
theorem tree_enrolled {v : Word} (t : State) (tree : treeOf t = treeOf (tilesBumped (enrolTile s n pa) n 1)) (d : Reg) :
    tileOf (committed s (parkValue t d v)) pa = some (n, 0) ∧ (nodeOf (committed s (parkValue t d v)) n).tiles = (nodeOf s n).tiles + 1 := by
  have kept : treeOf (committed s (parkValue t d v)) = treeOf (enrolTile s n pa) := by
    rw [treeOf_committed, treeOf_parkValue, tree, tilesBumped, if_neg Nat.one_ne_zero, treeOf_takeBump, treeOf_nodeEvent]
  refine ⟨(tileOf_of_tree kept pa).trans (tileOf_enrolTile ..), ?_⟩
  rw [nodeOf_of_tree kept, enrolTile, nodeOf_setNode, if_pos rfl]
  rfl

end

/-! ### Reads of a node and of a tile (R361, R362) -/

section
variable {s : State} {d a b : Reg} {i : Instr} {n w : Nat} {v : Word}

/-- A node's word that has been read is owed, and no byte changes. -/
theorem completesOwing_of_learnNode (runs : exec i s = commit s (parkValue (learnNode s n w) d v)) :
    CompletesOwing i s (learnNode s n w) d v fun _ => True := by
  have step := nodeStep_learn s (curCtx s) (((locsFrom (nodeLoc s n w) 8).foldl (fun a l => insNat a (lastSettled s l)) []).filter fun v => v != 0)
  exact completesOwing_of_parkValue runs step.wbuf step.clk step.pc trivial

theorem exec_csettle (small : (rd s a).toNat < 2 ^ 16) : exec (.csettle d a) s = commit s
    (if (!ownNode s (curOwner s) (rd s a).toNat) = true then parkValue s d allOnes
     else if (curFrame s).granted then parkValue (learnNode s (rd s a).toNat 0) d (word (nodeOf s (rd s a).toNat).count)
     else park s [.settled ((ctxOf s (curCtx s)).queue.map QEntry.id) (ctxReqs s (curCtx s)), .applied (standingInvals s),
       .bumps (rd s a).toNat ((ctxOf s (curCtx s)).known ++ standingInvals s)]) :=
  congrArg (commit s) (if_neg (not_not_intro (bits_above_eq_zero.2 small)))

theorem exec_cread_ill (bad : 4 ≤ (rd s b).toNat ∨ ((rd s b).toNat < 3 ∧ 2 ^ 16 ≤ (rd s a).toNat)) :
    exec (.cread d a b) s = commit s (illOperand s) :=
  congrArg (commit s) (if_pos (bad.imp id fun h => ⟨h.1, mt bits_above_eq_zero.1 (Nat.not_lt.2 h.2)⟩))

theorem exec_cread (least : (rd s b).toNat < 3) (small : (rd s a).toNat < 2 ^ 16) : exec (.cread d a b) s = commit s
    (if (!ownNode s (curOwner s) (rd s a).toNat) = true then parkValue s d allOnes
     else parkValue (learnNode s (rd s a).toNat (rd s b).toNat) d (nodeWord (nodeOf s (rd s a).toNat) (rd s b).toNat)) := by
  refine congrArg (commit s) ((if_neg ?_).trans (if_pos least))
  rintro (wide | ⟨-, wide⟩)
  · omega
  · exact wide (bits_above_eq_zero.2 small)

end

/-- A tile's entry as `cread` gives it. -/
def tileEntryWord (s : State) (t : Nat) : Word :=
  match tileOf s t with
  | some (n, count) => word (count + n * 2 ^ 32 + 2 ^ 48)
  | none => 0

theorem exec_cread_tile {s : State} {d a b : Reg} {pa : Nat} {z : Xlat} (third : (rd s b).toNat = 3)
    (at_ : tileWhere s (rd s a) false = .mem pa z) : exec (.cread d a b) s = commit s (parkValue s d (tileEntryWord s (pa / 4096))) := by
  refine congrArg (commit s) ((if_neg (by omega)).trans ((if_neg (by omega)).trans ?_))
  rw [at_]
  rfl

/-- Settles O43: each instruction by its checks in their order; a change of records is one step at the node store. -/
theorem containment : Obligations.Containment := by
  unfold Obligations.Containment
  refine ⟨?instructions, ?rollup⟩
  case instructions =>
    intro s d a b x y k o go waits ill st gives
    have still {i : Instr} {w : Word} (runs : exec i s = commit s (parkValue s d w)) : gives i w := completesOwing_of_still runs
    have beyond {v : Word} (wide : 2 ^ 16 ≤ v.toNat) : bits v 63 16 ≠ 0 := mt bits_above_eq_zero.1 (Nat.not_lt.2 wide)
    refine ⟨fun wide => ⟨?_, ?_, ?_⟩, fun small wait => ?_, ?cnode, fun small wide => ?_, fun small low wait => ?_, ?cmove, ?tiles, ?reads⟩
    · exact congrArg (commit s) (if_pos (beyond wide))
    · exact congrArg (commit s) (if_pos (.inl (beyond wide)))
    · exact congrArg (commit s) (if_pos (beyond wide))
    · exact parks_of_park ((exec_cnode small).trans (congrArg (commit s) (afterRelease_waits wait _)))
    case cnode =>
      intro p pn lives full
      have owes (small : p < 2 ^ 16) (g : go) {w : Word} (e : createNode s o p = (s, w)) : gives (.cnode d a) w := by
        have runs := (exec_cnode (d := d) small).trans (congrArg (commit s) (afterRelease_released g _))
        exact still (runs_of_pair runs e)
      have shallow (h : p = 0 ∨ pn.depth ≠ 15) : ¬(p ≠ 0 ∧ (nodeOf s p).depth = 15) := by
        rcases h with root | depth
        · exact fun h => h.1 root
        · exact fun h => depth h.2
      refine ⟨fun small g dead => ?_, fun small g alive under deep => ?_, fun small g alive fits poor => ?_,
        fun n small g alive fits base room free => ?_⟩
      · exact owes small g (createNode_dead dead)
      · exact owes small g (createNode_deep alive ⟨under, deep⟩)
      · exact owes small g (createNode_full alive (shallow fits) poor)
      · refine (cnode_completes g small alive (shallow fits) base room free).imp ?_
        rintro t ⟨made, reads⟩
        exact ⟨(congrArg Node.live made :), (congrArg Node.owner made :), (congrArg Node.parent made :), (congrArg Node.count made :),
          (congrArg Node.depth made :), (congrArg Node.children made :), (congrArg Node.tiles made :), reads⟩
    · exact congrArg (commit s) (if_pos (.inr (beyond wide)))
    · exact parks_of_park ((exec_cmove small low).trans (congrArg (commit s) (afterRelease_waits wait _)))
    case cmove =>
      intro n p nd depth lives small low g
      have owes {w : Word} (e : moveNode s o n p = (s, w)) : gives (.cmove d a b) w := by
        have runs := (exec_cmove (d := d) small low).trans (congrArg (commit s) (afterRelease_released g _))
        exact still (runs_of_pair runs e)
      have alive_iff : lives ↔ ¬(ownNode s o n = false ∨ (p ≠ 0 ∧ ownNode s o p = false)) := by
        simp [lives, or_iff_not_imp_left]
      have apart (h : n ∉ nodeChain s 16 p) : ¬(nodeChain s 16 p).contains n = true := by rwa [List.contains_iff_mem]
      refine ⟨fun dead => ?_, fun alive above => ?_, fun alive outside deep => ?_, fun alive outside shallow same => ?_,
        fun alive outside shallow new => ?_⟩
      · exact owes (if_pos (not_not.1 (mt alive_iff.2 dead)))
      · exact owes ((if_neg (alive_iff.1 alive)).trans (if_pos (List.contains_iff_mem.2 above)))
      · exact owes ((if_neg (alive_iff.1 alive)).trans ((if_neg (apart outside)).trans (if_pos deep)))
      · exact owes ((if_neg (alive_iff.1 alive)).trans ((if_neg (apart outside)).trans ((if_neg (Nat.not_lt.2 shallow)).trans (if_pos same))))
      · exact cmove_completes g small low (alive_iff.1 alive) outside shallow new
    case tiles =>
      intro n count form node nd tiles
      have tiled (drop : Bool) (i : Instr)
          (runs : exec i s = commit s (if y.toNat % 4096 ≠ 0 then alignTrap s y else tilesOp drop d n count y s)) : tiles drop i := by
        have goes (aligned : y.toNat % 4096 = 0) := runs.trans (congrArg (commit s) (if_neg (not_not_intro aligned)))
        refine ⟨fun misaligned => ?_, fun aligned wait => ?_, fun aligned g foreign => ?_, fun v aligned g own run => ?_,
          fun v stat kk stop aligned g own run => ⟨?_, ?_⟩⟩
        · exact runs.trans (congrArg (commit s) (if_pos misaligned))
        · exact parks_of_park ((goes aligned).trans (congrArg (commit s) (afterRelease_waits wait _)))
        · exact still ((goes aligned).trans (congrArg (commit s) (tilesOp_unowned g foreign)))
        · exact (goes aligned).trans (congrArg (commit s) (tilesOp_walks g own run))
        · rintro c va rfl
          exact (goes aligned).trans (congrArg (commit s) (tilesOp_traps g own run))
        · rintro rfl
          exact tiles_complete (goes aligned) g own run trivial
      refine ⟨fun bad => exec_cenr_ill bad, fun h => tiled false _ ?_, ?one, fun mid drop some_ => tiled true _ (exec_cdrop_tiles mid drop some_),
        fun bad => exec_cdrop_ill bad, fun h wait => ?_, fun h g foreign => ?_, fun h g own used => ?_, fun h g own children tiles => ?_⟩
      · obtain ⟨mid, high, some_⟩ := h
        exact exec_cenr mid high some_
      case one =>
        intro pa z h aligned g own one at_ t adds
        obtain ⟨mid, high, some_⟩ := h
        have goes : exec (.cenr d a b) s = commit s (tilesOp false d n 1 y s) :=
          (exec_cenr mid high some_).trans (congrArg (commit s) ((if_neg (not_not_intro aligned)).trans
            (congrArg (fun c => tilesOp false d n c y s) one)))
        have owes {stat : Nat} (run : runTiles false n 1 y s 0 = .run s stat 0 none) : gives (.cenr d a b) (st stat 0) :=
          still (goes.trans (congrArg (commit s) (tilesOp_stays g own run)))
        have stops {stat : Nat} (stop : enrolStop s n t z = stat) (some_ : stat ≠ 0) : gives (.cenr d a b) (st stat 0) := by
          have run := runTiles_stays at_ (stop.trans_ne some_)
          rw [stop] at run
          exact owes run
        refine ⟨fun m c entered other => ?_, fun c entered => ?_, fun absent refused => ?_, fun absent allowed full => ?_,
          fun absent h => ?_⟩
        · exact stops (by simp [enrolStop, entered, other]) (by decide)
        · exact owes (runTiles_entered at_ entered)
        · exact stops (by simp [enrolStop, absent, refused]) (by decide)
        · exact stops (by simp [enrolStop, absent, allowed, full]) (by decide)
        · have run := runTiles_enrol (n := n) at_ absent h.1 h.2
          exact ⟨_, tiles_complete goes g own run (tree_enrolled _ rfl d)⟩
      · obtain ⟨mid, high, zero⟩ := h
        exact parks_of_park ((exec_cdrop_node rfl mid high zero).trans (congrArg (commit s) (afterRelease_waits wait _)))
      · obtain ⟨mid, high, zero⟩ := h
        have runs := (exec_cdrop_node (d := d) rfl mid high zero).trans (congrArg (commit s) (afterRelease_released g _))
        simp only [show ownNode s (curOwner s) (bits (rd s a) 15 0) = false from foreign, Bool.false_eq_true, if_false] at runs
        exact still runs
      · obtain ⟨mid, high, zero⟩ := h
        have runs := (exec_cdrop_node (d := d) rfl mid high zero).trans (congrArg (commit s) (afterRelease_released g _))
        have kept : deleteNode s n = (s, nodeStatus 5 0) := if_pos used
        simp only [show ownNode s (curOwner s) (bits (rd s a) 15 0) = true from own, if_true,
          show deleteNode s (bits (rd s a) 15 0) = (s, nodeStatus 5 0) from kept] at runs
        exact still runs
      · obtain ⟨mid, high, zero⟩ := h
        exact cdrop_completes g rfl mid high zero own children tiles
    case reads =>
      intro n inv
      have own_ (own : ownNode s o n = true) : ¬(!ownNode s o n) = true := by simp [own]
      have foreign_ (foreign : ownNode s o n = false) : (!ownNode s o n) = true := by simp [foreign]
      refine ⟨fun small foreign => ?_, fun small own first => ?_, fun small own granted => ?_, fun bad => exec_cread_ill bad,
        fun least small foreign => ?_, fun least small own => ?_, fun pa z third at_ => ?_⟩
      · exact still ((exec_csettle small).trans (congrArg (commit s) (if_pos (foreign_ foreign))))
      · exact parks_of_park ((exec_csettle small).trans (congrArg (commit s) ((if_neg (own_ own)).trans
          (if_neg (first ▸ Bool.false_ne_true)))))
      · exact completesOwing_of_learnNode ((exec_csettle small).trans (congrArg (commit s) ((if_neg (own_ own)).trans (if_pos granted))))
      · exact still ((exec_cread least small).trans (congrArg (commit s) (if_pos (foreign_ foreign))))
      · exact completesOwing_of_learnNode ((exec_cread least small).trans (congrArg (commit s) (if_neg (own_ own))))
      · exact still (exec_cread_tile third at_)
  case rollup =>
    intro s n ids hit
    refine ⟨exec_rollupStep_idle, fun b listed is => ?_⟩
    have runs := exec_rollupStep listed is
    by_cases live : (nodeOf s n).live = true
    · refine ⟨committed s (nodeWrite (rolledUp s n ids) [(n, 0)]), runs.trans (congrArg (commit s) (if_pos live)), ?_, fun c rolled => ?_, fun _ => ⟨nodeOf_rollup, rdNat_rollup⟩, fun dead => ?_⟩
      · exact keeps_of_nodeCells nodeStep_rolledUp.wbuf rfl fun _ => id
      · rw [bumps_rollup] at rolled
        exact rolledBumps_spec rolled
      · exact absurd live (dead ▸ Bool.false_ne_true)
    · have quiet : Quiet s (committed s { s with bumps := rolledBumps s n ids }) := quiet_committed rfl
      refine ⟨_, runs.trans (congrArg (commit s) (if_neg live)), fun inv p _ => quiet inv.wbuf p, fun c rolled => rolledBumps_spec rolled,
        fun alive => absurd alive live, fun _ => ⟨rfl, quiet⟩⟩

end Sys2Proof.Machine
end


section
/-! SUPPORT. Ordered adds and watches as they issue (R271, R272). -/

namespace Sys2Proof.Machine

open Sys2Proof

/-- A request that releases follows what stands in its context's queue. -/
theorem newReq_releases (s : State) (kind : ReqKind) (t : Option (Tgt × Nat)) (treat : Nat) (share : Option Nat) (acq : Bool) (va : Word) :
    ∃ q, (newReq s kind t treat share true acq va).reqs = s.reqs ++ [q] ∧ q.kind = kind ∧ q.after = (ctxOf s (curCtx s)).queue.map QEntry.id := by
  unfold newReq
  extract_lets k id known pool locs tag inval q r c u
  refine ⟨q, ?_, rfl, rfl⟩
  split
  · obtain ⟨ps, asks⟩ := requestAccess_points u u.cur.1 (curOwner u) id _ treat share true _
    exact congrArg State.reqs asks
  · rfl

section
variable {s : State} {i : Instr} {kind : ReqKind} {t : Option (Tgt × Nat)} {treat : Nat} {share : Option Nat} {acq : Bool} {va : Word}

/-- A releasing request that completes at issue. -/
theorem completes_of_newReq (runs : exec i s = commit s (retire4 (clearWait (newReq s kind t treat share true acq va)))) :
    Completes i s (newReq s kind t treat share true acq va) ready [] noByte fun u =>
      ∃ q, u.reqs = s.reqs ++ [q] ∧ q.kind = kind ∧ q.after = (ctxOf s (curCtx s)).queue.map QEntry.id := by
  have issued := requested_newReq s kind t treat share true acq va
  have kept : (committed s (retire4 (clearWait (newReq s kind t treat share true acq va)))).reqs
      = (newReq s kind t treat share true acq va).reqs := (congrArg State.reqs (retires_clearWait_retire4 _).moves.rest :)
  obtain ⟨q, reqs, is⟩ := newReq_releases s kind t treat share acq va
  exact completes_of_ready_retire runs issued.wbuf issued.pc ⟨q, kept.trans reqs, is⟩

/-- One that is waited for. -/
theorem completesWaiting_of_newReq {ids : List Nat} (runs : exec i s = commit s (afterLoad (newReq s kind t treat share true acq va) .acq ids)) :
    CompletesWaiting i s (newReq s kind t treat share true acq va) [.settled [] ids] noByte fun u =>
      ∃ q, u.reqs = s.reqs ++ [q] ∧ q.kind = kind := by
  have issued := requested_newReq s kind t treat share true acq va
  have waits : afterLoad (newReq s kind t treat share true acq va) .acq ids = parkDone (newReq s kind t treat share true acq va) [.settled [] ids] := by
    rw [parkDone_eq]
    exact if_pos rfl
  have kept : (committed s (parkDone (newReq s kind t treat share true acq va) [.settled [] ids])).reqs
      = (newReq s kind t treat share true acq va).reqs := by
    rw [parkDone_eq]
    exact (congrArg State.reqs (moves_parkedAfter _ _).rest :)
  obtain ⟨q, reqs, is, -⟩ := newReq_releases s kind t treat share acq va
  exact completesWaiting_of_parkDone (runs.trans (congrArg (commit s) waits)) issued.wbuf issued.clk issued.pc ⟨q, kept.trans reqs, is⟩

end

section
variable {s : State} {d a b : Reg} {va rc : Word} {pa : Nat} {x : Xlat} {k : State → Nat → Xlat → State}

/-- The memory that ordered operations reach (R271). -/
def orderedMemory (pa : Nat) (_ : Xlat) : Bool := !isWindow pa

theorem orderedAt_fault {c : Nat} (h : whereCur s va 2 orderedMemory = .fault c) : orderedAt s va k = whereTrap s c va := by
  have at_ : whereCur s va 2 (fun pa _ => !isWindow pa) = .fault c := h
  rw [orderedAt, withWhere, at_]

theorem orderedAt_miss (h : whereCur s va 2 orderedMemory = .miss) : orderedAt s va k = startWalk s va 2 := by
  have at_ : whereCur s va 2 (fun pa _ => !isWindow pa) = .miss := h
  rw [orderedAt, withWhere, at_]

theorem orderedAt_member (h : whereCur s va 2 orderedMemory = .mem pa x) (marked : x.swr = true)
    (member : (groupFor s (curCtx s) pa).isSome = true) : orderedAt s va k = k s pa x := by
  have at_ : whereCur s va 2 (fun pa _ => !isWindow pa) = .mem pa x := h
  rw [orderedAt, withWhere, at_]
  exact if_pos (by simp [marked, member])

theorem orderedAt_refused (h : whereCur s va 2 orderedMemory = .mem pa x) (refused : x.swr = false ∨ groupFor s (curCtx s) pa = none) :
    orderedAt s va k = trap (if x.swr then countCapDrop s pa else s) 0x07 0 va := by
  have at_ : whereCur s va 2 (fun pa _ => !isWindow pa) = .mem pa x := h
  rw [orderedAt, withWhere, at_]
  refine if_neg ?_
  rcases refused with unmarked | outsider
  · simp [unmarked]
  · simp [outsider]

theorem orderedOp_eq (float : Bool) : orderedOp float d a b s = commit s (if 2 ^ 32 ≤ (rd s d).toNat then illOperand s
    else if (rd s a).toNat % (if float then 4 else 8) ≠ 0 then alignTrap s (rd s a)
    else orderedAt s (rd s a) fun s pa x =>
      if !(strongReads s (locsFrom pa (if float then 4 else 8))).isEmpty then
        park s [.settled [] (strongReads s (locsFrom pa (if float then 4 else 8)))]
      else if atomicsFull s (curCtx s) then park s [.atomics]
      else retire4 (clearWait (newReq s (.ordered float (rd s d).toNat pa (rd s b) 0 0) (some (.pa pa, if float then 4 else 8))
        (whereTreat (.mem pa x)) (whereShare (.mem pa x)) true false (rd s a)))) :=
  congrArg (commit s) rfl

theorem exec_ojoin : exec (.ojoin d a b) s = commit s (if 2 ^ 32 ≤ (rd s d).toNat then illOperand s
    else if (rd s b).toNat % 32 ≠ 0 then alignTrap s (rd s b)
    else withTask s (rd s a) (rd s b) (fun pa _ => !isWindow pa) fun t =>
      orderedAt s (rd s a) fun s pa x => afterLoad (newReq s (.watch (rd s d).toNat pa t) none (whereTreat (.mem pa x))
        (whereShare (.mem pa x)) true false (rd s a)) .acq [s.nextId]) := rfl

theorem withTask_of {ok : Nat → Xlat → Bool} {f : Nat × Nat → State} {t : Nat × Nat} (h : localTarget s rc = some t) :
    withTask s va rc ok f = f t := by
  rw [withTask, h]

theorem withTask_lost {ok : Nat → Xlat → Bool} {f : Nat × Nat → State} (lost : localTarget s rc = none) (at_ : whereCur s va 2 ok = .mem pa x) :
    withTask s va rc ok f = protTrap s rc := by
  rw [withTask, lost]
  simp only [at_]

end

end Sys2Proof.Machine
end


section
/-! SUPPORT. Ordered adds and watches that arrive at their home slice (R271, R272). -/

namespace Sys2Proof.Machine

open Sys2Proof

/-! ### Groups of a home slice -/

section
variable {s : State} {ring gid : Nat} {g : Group}

/-- A group of a home slice. -/
def groupAt (s : State) (ring gid : Nat) : Option Group := NMap.find (ringOf s ring).groups gid

/-- A home slice with a group set. -/
def withGroup (s : State) (ring gid : Nat) (g : Group) : State :=
  setRing s ring { ringOf s ring with groups := NMap.put (ringOf s ring).groups gid g }

theorem groupAt_withGroup (s : State) (ring gid : Nat) (g : Group) : groupAt (withGroup s ring gid g) ring gid = some g := by
  rw [groupAt, withGroup, ringOf_setRing_same]
  exact find_put_same ..

theorem groupAt_of_rings {t : State} (h : t.rings = s.rings) : groupAt t ring gid = groupAt s ring gid := by
  rw [groupAt, groupAt, ringOf, ringOf, h]

theorem groupAt_dropReq (id : Nat) : groupAt (dropReq s id) ring gid = groupAt s ring gid := by
  obtain ⟨h, e⟩ := dropReq_eq s id
  exact groupAt_of_rings (by rw [e])

end

/-! ### The entry at NEXT asks for a slot (R262, R271) -/

section
variable {s : State} {ring gid : Nat}

theorem askApply_idle (h : nextEntry s ring gid = none) : askApply s ring gid = s := by
  rw [askApply, h]

theorem askApply_eq (s : State) (ring gid : Nat) : ∃ id qs ps, askApply s ring gid = { s with nextId := id, reqs := s.reqs ++ qs, points := ps } := by
  have still : ∃ id qs ps, s = { s with nextId := id, reqs := s.reqs ++ qs, points := ps } :=
    ⟨s.nextId, [], s.points, by rw [List.append_nil]⟩
  unfold askApply
  split
  · dsimp only
    split
    · exact still
    · obtain ⟨ps, asks⟩ := requestAt_points _ _ _ _ _
      exact ⟨_, _, ps, asks⟩
  · exact still

/-- A request for its application stands. -/
theorem askApply_asks {e : OEntry} {g : Group} (entry : nextEntry s ring gid = some e) (group : groupAt s ring gid = some g) :
    ∃ p ∈ (askApply s ring gid).reqs, p.kind = .apply ring gid := by
  have group : NMap.find (ringOf s ring).groups gid = some g := group
  by_cases asked : (s.reqs.any fun q => q.kind == .apply ring gid) = true
  · have kept : askApply s ring gid = s := by
      rw [askApply, entry, group]
      exact if_pos asked
    obtain ⟨p, listed, is⟩ := List.any_eq_true.1 asked
    exact ⟨p, by rwa [kept], beq_iff_eq.1 is⟩
  · rw [askApply, entry, group]
    dsimp only
    rw [if_neg asked]
    obtain ⟨ps, asks⟩ := requestAt_points _ _ _ _ _
    rw [asks]
    exact ⟨_, List.mem_append_right _ (.head _), rfl⟩

end

/-! ### An ordered add that arrives (R271) -/

section
variable {s : State} {n pa gid sq st x : Nat} {q : Req} {g : Group} {float : Bool} {val : Word}

/-- The window holds the number. -/
def windowHolds (g : Group) (sq : Nat) : Bool :=
  match NMap.find g.window (sq % 64) with
  | some e => e.seq == sq
  | none => false

theorem windowHolds_iff : windowHolds g sq = true ↔ ∃ e, NMap.find g.window (sq % 64) = some e ∧ e.seq = sq := by
  unfold windowHolds
  cases NMap.find g.window (sq % 64) with
  | none => simp
  | some e => simp

/-- The entry that an ordered add becomes. -/
def arrivedEntry (q : Req) (sq pa : Nat) (float : Bool) (val : Word) : OEntry :=
  { wid := q.id, seq := sq, pa := pa, float := float, val := val, tag := q.tag, ctx := q.ctx, frame := q.frame, act := q.act, lin := q.lin,
    treat := q.treat, share := q.share }

/-- The group with an add in its window. -/
def takenInWindow (g : Group) (q : Req) (sq pa : Nat) (float : Bool) (val : Word) : Group :=
  { g with window := NMap.put g.window (sq % 64) (arrivedEntry q sq pa float val) }

/-- The state once an add has taken its place. -/
def windowed (s : State) (q : Req) (g : Group) (gid sq pa : Nat) (float : Bool) (val : Word) : State :=
  dropReq (withGroup s (homeRing s pa) gid (takenInWindow g q sq pa float val)) q.id

theorem exec_orderedArrival (performs_ : performs s n q) (kind : q.kind = .ordered float sq pa val st x) (new : st ≠ 1)
    (slot : atomicSlot s q = true) (member : groupFor s q.ctx pa = some gid) (there : groupAt s (homeRing s pa) gid = some g) :
    exec (.orderedArrival n) s = commit s (if 2 ^ 31 ≤ diff32 sq g.next ∨ windowHolds g sq = true then
        dropReq (withGroup s (homeRing s pa) gid { g with stale := Nat.min (g.stale + 1) (2 ^ 16 - 1) }) q.id
      else if 63 < diff32 sq g.next then
        { s with reqs := s.reqs.map fun p => if p.id = q.id then { p with kind := .ordered float sq pa val 1 s.clk } else p }
      else askApply (windowed s q g gid sq pa float val) (homeRing s pa) gid) := by
  obtain ⟨at_, ready_⟩ := performs_
  have goes : ¬(st == 1 || !atomicSlot s q || !reqReady s q) = true := by simp [new, slot, ready_]
  have there : NMap.find (ringOf s (homeRing s pa)).groups gid = some g := there
  refine congrArg (commit s) ?_
  rw [at_]
  dsimp only
  rw [kind]
  dsimp only
  rw [if_neg goes, member]
  dsimp only
  rw [there]
  rfl

theorem windowed_keeps : groupAt (windowed s q g gid sq pa float val) (homeRing s pa) gid = some (takenInWindow g q sq pa float val)
    ∧ (windowed s q g gid sq pa float val).wbuf = s.wbuf
    ∧ (windowed s q g gid sq pa float val).reqs = s.reqs.filter fun p => p.id != q.id := by
  refine ⟨(groupAt_dropReq q.id).trans (groupAt_withGroup ..), ?_⟩
  obtain ⟨h, e⟩ := dropReq_eq (withGroup s (homeRing s pa) gid (takenInWindow g q sq pa float val)) q.id
  rw [windowed, e]
  exact ⟨rfl, rfl⟩

theorem nextEntry_of_groupAt {ring : Nat} (h : groupAt s ring gid = some g) : nextEntry s ring gid = NMap.find g.window (g.next % 64) := by
  have h : NMap.find (ringOf s ring).groups gid = some g := h
  rw [nextEntry, h]
  rfl

end

/-! ### A watch that arrives (R272) -/

section
variable {s : State} {n pa gid sq : Nat} {q : Req} {g : Group} {task : Nat × Nat}

theorem exec_watchArrival (performs_ : performs s n q) (kind : q.kind = .watch sq pa task) (member : groupFor s q.ctx pa = some gid)
    (there : groupAt s (homeRing s pa) gid = some g) :
    exec (.watchArrival n) s = commit s (if diff32 g.next sq < 2 ^ 31 then sendTdec (dropReq s q.id) (ctxOwner q.ctx) task q.tag
      else if 4 ≤ g.watches.length then s
      else dropReq (withGroup s (homeRing s pa) gid { g with watches := g.watches ++ [(sq, ctxOwner q.ctx, task, q.tag)] }) q.id) := by
  obtain ⟨at_, ready_⟩ := performs_
  have goes : ¬(!reqReady s q) = true := by simp [ready_]
  have there : NMap.find (ringOf s (homeRing s pa)).groups gid = some g := there
  refine congrArg (commit s) ?_
  rw [at_]
  dsimp only
  rw [kind]
  dsimp only
  rw [if_neg goes, member]
  dsimp only
  rw [there]
  rfl

/-- A decrement that is sent. -/
theorem sendTdec_eq (s : State) (owner : Nat) (task : Nat × Nat) (tag : List Nat) : ∃ m ps, m.body = .tdec task.2 1 ∧ m.core = task.1
    ∧ m.owner = owner ∧ sendTdec s owner task tag = { s with nextId := s.nextId + 1, net := s.net ++ [m], points := ps } := by
  obtain ⟨ps, e⟩ := launch_eq { s with nextId := s.nextId + 1 } ⟨s.nextId, hwCtx owner, 0, 0, task.1, owner, .tdec task.2 1, tag⟩
  exact ⟨_, ps, rfl, rfl, rfl, e⟩

end

/-! ### A refused add that is sent again (R271) -/

section
variable {s : State} {j pa x since : Nat} {p : Req} {float : Bool} {val : Word}

/-- Its state once it is on its way again. -/
def resent (s : State) (id : Nat) (kind : ReqKind) : State :=
  { s with reqs := s.reqs.map fun r => if r.id = id then { r with kind := kind } else r }

theorem exec_orderedResend (at_ : s.reqs[j]? = some p) (kind : p.kind = .ordered float x pa val 1 since) : exec (.orderedResend j) s = commit s
    (if since + 64 ≤ s.clk then requestAccess (resent s p.id (.ordered float x pa val 2 0)) (ctxCore p.ctx) (ctxOwner p.ctx) p.id (.pa pa) p.treat
      p.share true false else s) := by
  refine congrArg (commit s) ?_
  rw [at_]
  dsimp only
  rw [kind]
  rfl

end

end Sys2Proof.Machine
end


section
/-! SUPPORT. A line with no dirty copy: recalls, probes and a settled write leave what an ordered application looks at (R250, R251, R271). -/

namespace Sys2Proof.Machine

open Sys2Proof

/-! ### Lines with no dirty copy -/

/-- No L1 holds dirty data of the line of an address. -/
def cleanAt (s : State) (pa : Nat) : Prop := ∀ p ∈ s.cores, ∀ l ∈ p.2.l1, l.pa / 256 = pa / 256 → l.dirty = []

theorem cleanAt_of_not_dirtyLine {s : State} {pa : Nat} (h : ¬dirtyLine s (pa / 256)) : cleanAt s pa := by
  intro p listed l copy same
  by_contra some_
  obtain ⟨w, dirty⟩ := List.exists_mem_of_ne_nil _ some_
  exact h ⟨p, listed, l, copy, w, dirty, .inl same⟩

theorem cleanAt.core {s : State} {pa : Nat} (h : cleanAt s pa) {c : Nat} {l : L1Line} (copy : l ∈ (coreOf s c).l1)
    (same : l.pa / 256 = pa / 256) : l.dirty = [] := by
  unfold coreOf NMap.get at copy
  cases found : NMap.find s.cores c with
  | none => rw [found] at copy; cases copy
  | some x => rw [found] at copy; exact h _ (mem_of_find found) l copy same

theorem writeBack_clean {s : State} {ls : List L1Line} (h : ∀ l ∈ ls, l.dirty = []) : writeBack s ls = s :=
  List.foldlRecOn (motive := fun u => u = s) _ _ rfl fun u e l listed => by rw [h l listed, e]; rfl

/-- `t` has the requests, groups and settled memory of `s`, and still no dirty copy of the line. -/
structure Steady (pa : Nat) (s t : State) : Prop where
  reqs   : t.reqs = s.reqs
  groups : ∀ r, (ringOf t r).groups = (ringOf s r).groups
  mem    : t.mem = s.mem
  clean  : cleanAt t pa

/-- And its writes and its poison. -/
structure Calm (pa : Nat) (s t : State) : Prop extends Steady pa s t where
  wbuf   : t.wbuf = s.wbuf
  poison : t.poison = s.poison

section
variable {pa : Nat} {s t u : State}

theorem Calm.refl (h : cleanAt s pa) : Calm pa s s := ⟨⟨rfl, fun _ => rfl, rfl, h⟩, rfl, rfl⟩

theorem Steady.trans (h : Steady pa s t) (k : Steady pa t u) : Steady pa s u :=
  ⟨k.reqs.trans h.reqs, fun r => (k.groups r).trans (h.groups r), k.mem.trans h.mem, k.clean⟩

theorem Calm.trans (h : Calm pa s t) (k : Calm pa t u) : Calm pa s u :=
  ⟨h.toSteady.trans k.toSteady, k.wbuf.trans h.wbuf, k.poison.trans h.poison⟩

/-- One more change, of neither cores nor rings. -/
theorem Steady.rest (h : Steady pa s t) (e : (u.reqs, u.mem, u.cores, u.rings) = (t.reqs, t.mem, t.cores, t.rings) := by rfl) : Steady pa s u := by
  simp only [Prod.mk.injEq] at e
  obtain ⟨reqs, mem, cores, rings⟩ := e
  refine h.trans ⟨reqs, fun r => by rw [ringOf, ringOf, rings], mem, fun p listed => h.clean p (cores ▸ listed)⟩

theorem Calm.rest (h : Calm pa s t) (e : (u.reqs, u.mem, u.cores, u.rings) = (t.reqs, t.mem, t.cores, t.rings) := by rfl)
    (w : (u.wbuf, u.poison) = (t.wbuf, t.poison) := by rfl) : Calm pa s u := by
  obtain ⟨wbuf, poison⟩ := Prod.mk.inj w
  exact ⟨h.toSteady.rest e, wbuf.trans h.wbuf, poison.trans h.poison⟩

theorem Steady.setRing (h : Steady pa s t) (r : Nat) (x : RingSt) (groups : x.groups = (ringOf t r).groups) : Steady pa s (setRing t r x) := by
  refine h.trans ⟨rfl, fun j => ?_, rfl, h.clean⟩
  rw [ringOf_setRing]
  split
  · next e => rw [groups, e]
  · rfl

theorem Calm.setRing (h : Calm pa s t) (r : Nat) (x : RingSt) (groups : x.groups = (ringOf t r).groups) : Calm pa s (setRing t r x) :=
  ⟨h.toSteady.setRing r x groups, h.wbuf, h.poison⟩

theorem Calm.setWay (h : Calm pa s t) (r i : Nat) (w : Way) : Calm pa s (setWay t r i w) := h.setRing _ _ rfl

theorem Steady.setCore (h : Steady pa s t) (c : Nat) (x : CoreSt) (clean : ∀ l ∈ x.l1, l.pa / 256 = pa / 256 → l.dirty = []) :
    Steady pa s (setCore t c x) := by
  refine h.trans ⟨rfl, fun _ => rfl, rfl, fun p listed => ?_⟩
  rcases mem_put listed with rfl | listed
  · exact clean
  · exact h.clean p listed

theorem Calm.setCore (h : Calm pa s t) (c : Nat) (x : CoreSt) (clean : ∀ l ∈ x.l1, l.pa / 256 = pa / 256 → l.dirty = []) :
    Calm pa s (setCore t c x) := ⟨h.toSteady.setCore c x clean, h.wbuf, h.poison⟩

/-! ### Copies that are recalled or dropped (R250, R251) -/

theorem Calm.setMesi (h : Calm pa s t) (core : Nat) (l : L1Line) (v : Nat) (clean : l.pa / 256 = pa / 256 → l.dirty = []) :
    Calm pa s (setMesi t core l v) := by
  have put : Calm pa s (putL1 t core { l with mesi := v }) := h.setCore core _ fun k copy same => by
    rcases List.mem_append.1 copy with copy | copy
    · exact h.clean.core (List.mem_filter.1 copy).1 same
    · obtain rfl := List.mem_singleton.1 copy
      exact clean same
  unfold Machine.setMesi
  dsimp only
  split
  · exact put.setWay ..
  · exact put

theorem line_of_heldM {l : L1Line} (h : heldM pa l = true) : l.pa / 256 = pa / 256 := by
  simp only [heldM, Bool.and_eq_true, beq_iff_eq] at h
  exact h.1.1

/-- A recall of a line with no dirty copy writes nothing. -/
theorem Calm.recallLine (h : Calm pa s t) (core owner : Nat) : Calm pa s (recallLine t core owner pa) := by
  unfold Machine.recallLine
  dsimp only
  split
  · exact h
  · refine List.foldlRecOn (motive := Calm pa s) _ _ h fun u hu c _ => ?_
    have held : writeBack u ((coreOf u c).l1.filter (heldM pa)) = u := writeBack_clean fun l copy =>
      hu.clean.core (List.mem_filter.1 copy).1 (line_of_heldM (List.mem_filter.1 copy).2)
    rw [held]
    exact List.foldlRecOn (motive := Calm pa s) _ _ hu fun v hv l copy => hv.setMesi c l 1 (hu.clean.core (List.mem_filter.1 copy).1)

theorem recallOpen_clean (h : cleanAt t pa) (core owner : Nat) : recallOpen t core owner pa = false := by
  unfold recallOpen
  dsimp only
  rw [Bool.and_eq_false_iff]
  refine .inr (List.any_eq_false.2 fun c listed => ?_)
  rw [Bool.and_eq_true, not_and]
  intro _
  rw [List.any_eq_true]
  rintro ⟨l, copy, held⟩
  rw [Bool.and_eq_true] at held
  have none : liveDirty t l = [] := by rw [liveDirty, h c listed l copy (line_of_heldM held.1)]; rfl
  simp [none] at held

/-- Once M sectors are recalled, the event goes on at a state that is as calm. -/
theorem onceRecalled_clean (h : cleanAt s pa) (k : Nat) (go : State → State) : ∃ u, Calm pa s u ∧ onceRecalled s k (.pa pa) go = go u := by
  have calm := (Calm.refl h).recallLine (ctxCore k) (ctxOwner k)
  refine ⟨_, calm, if_neg ?_⟩
  exact (recallOpen_clean calm.clean ..).symm ▸ Bool.false_ne_true

theorem Calm.keepPoison (h : Calm pa s t) (l : L1Line) : Calm pa s (keepPoison t l) := by
  unfold Machine.keepPoison
  split
  · refine List.foldlRecOn (motive := Calm pa s) _ _ h fun u hu w _ => ?_
    unfold mapEntry
    split
    · exact hu.rest
    · exact hu
  · exact h

theorem Calm.unrecord (h : Calm pa s t) (core : Nat) (l : L1Line) : Calm pa s (unrecord t core l) := by
  unfold Machine.unrecord
  split
  · exact h.setWay ..
  · exact h

theorem Calm.dropL1 (h : Calm pa s t) (core : Nat) (p : L1Line → Bool) : Calm pa s (dropL1 t core p) := by
  have left := h.setCore core { coreOf t core with l1 := (coreOf t core).l1.filter fun l => !p l } fun l copy =>
    h.clean.core (List.mem_filter.1 copy).1
  exact List.foldlRecOn (motive := Calm pa s) _ _ left fun u hu l _ => (hu.keepPoison l).unrecord core l

theorem line_of_probeHits {l : L1Line} {line : Nat} {o : Option Nat} (h : probeHits line o l = true) : l.pa / 256 = line := by
  simp only [probeHits, Bool.and_eq_true, beq_iff_eq] at h
  exact h.1.1

theorem Calm.sendProbes (h : Calm pa s t) (ts : List (Nat × Nat × Option Nat)) : Calm pa s (sendProbes t (pa / 256) ts) := by
  unfold Machine.sendProbes
  extract_lets found answers absent probed
  have left : Calm pa s probed := by
    refine List.foldlRecOn (motive := Calm pa s) _ _ h fun u hu x _ => ?_
    have held : writeBack u ((coreOf u x.2.1).l1.filter (probeHits (pa / 256) x.2.2)) = u := writeBack_clean fun l copy =>
      hu.clean.core (List.mem_filter.1 copy).1 (line_of_probeHits (List.mem_filter.1 copy).2)
    dsimp only
    rw [held]
    exact hu.dropL1 ..
  exact List.foldlRecOn (motive := Calm pa s) _ _ left fun u hu k _ => hu.setRing _ _ rfl

theorem Calm.removeTracked (h : Calm pa s t) : Calm pa s (removeTracked t pa) := by
  unfold Machine.removeTracked
  extract_lets line probed
  have left : Calm pa s probed := by
    simp only [probed]
    split
    · next i w found =>
      split
      · exact h
      · have same : w.line = pa / 256 := by simpa using List.find?_some found
        unfold probeWay
        rw [same]
        dsimp only
        split
        · exact h.sendProbes _
        · exact (h.sendProbes _).setWay ..
    · exact h
  exact List.foldlRecOn (motive := Calm pa s) _ _ left fun u hu c _ => hu.dropL1 ..

/-! ### A write that settles (R81) -/

theorem Steady.discardFetch (h : Steady pa s t) (locs : List Nat) : Steady pa s (discardFetch t locs) :=
  List.foldlRecOn (motive := Steady pa s) _ _ h fun _ hu c _ => hu.setCore c _ fun _ copy => hu.clean.core copy

theorem Steady.settleBytes (h : Steady pa s t) (w : Nat) : Steady pa s (settleBytes t w) := by
  unfold Machine.settleBytes
  extract_lets bs locs written direct logged
  have writes : Steady pa s written := by
    refine List.foldlRecOn (motive := Steady pa s) _ _ h fun u hu p _ => ?_
    dsimp only
    split
    · exact hu.rest
    · exact hu.rest
  have cleared : Steady pa s (clearPoison logged locs) := writes.rest
  have discards := cleared.discardFetch locs
  unfold Machine.recallHost
  split
  · exact discards
  · exact discards.rest

theorem Steady.takeBump (h : Steady pa s t) (chain cause : List Nat) : Steady pa s (takeBump t chain cause) := by
  unfold Machine.takeBump
  split
  · exact h
  · exact h.rest

theorem Steady.bumpTile (h : Steady pa s t) (n : Nat) (cause : List Nat) : Steady pa s (bumpTile t n cause) := by
  unfold Machine.bumpTile
  split
  · exact .takeBump (h.setRing _ _ (by rfl)) ..
  · exact h

theorem Steady.settleWrite (h : Steady pa s t) (w : Nat) : Steady pa s (settleWrite t w) := by
  unfold Machine.settleWrite
  extract_lets locs settled marked tiles
  have marks : Steady pa s marked := by
    refine List.foldlRecOn (motive := Steady pa s) _ _ (h.settleBytes w) fun u hu a _ => ?_
    dsimp only
    split
    · exact hu
    · exact hu.setRing _ _ rfl
  exact List.foldlRecOn (motive := Steady pa s) _ _ marks fun _ hu a _ => hu.bumpTile ..

end

/-! ### An entry that is applied (R271) -/

section
variable {s : State} {e : OEntry}

/-- Bytes of an ordered add. -/
def orderedBytes (e : OEntry) : Nat := if e.float then 4 else 8

/-- What an ordered add makes of the old value. -/
def orderedSum (e : OEntry) (old : Nat) : Nat :=
  if e.float then amoAll 9 fmtF32 [32] old (e.val.toNat % 2 ^ 32) else (old + e.val.toNat) % 2 ^ 64

/-- The location of the entry is poisoned. -/
def entryPoisoned (s : State) (e : OEntry) : Bool := (locsFrom e.pa (orderedBytes e)).any fun l => poisoned s l

/-- The cells that the application writes. -/
def orderedCells (s : State) (e : OEntry) : List Host.Cell :=
  if entryPoisoned s e then [] else cellsAt e.pa (leBytes (orderedSum e (rdNat s e.pa (orderedBytes e))) (orderedBytes e))

theorem rdNat_congr {t : State} (mem : t.mem = s.mem) (wbuf : t.wbuf = s.wbuf) (a n : Nat) : rdNat t a n = rdNat s a n := by
  induction n generalizing a with
  | zero => rfl
  | succ n ih => rw [rdNat, rdNat, ih, byteAt, byteAt, mem, wbuf]

theorem Calm.charge {pa : Nat} {t : State} (h : Calm pa s t) (o units : Nat) : Calm pa s (charge t o units) := by
  unfold Machine.charge
  dsimp only
  split
  · exact h
  · split
    · exact h.rest
    · exact h.rest

theorem Calm.countError {pa : Nat} {t : State} (h : Calm pa s t) (l : Lin) : Calm pa s (countError t l) := by
  unfold Machine.countError
  split
  · exact h.rest
  · exact h

theorem entryPoisoned_congr {t : State} (h : t.poison = s.poison) : entryPoisoned t e = entryPoisoned s e := by
  have same : poisoned t = poisoned s := funext fun a => by rw [poisoned, poisoned, h]
  rw [entryPoisoned, entryPoisoned, same]

/-- The bytes are the last of the step, and all that the application looks at stays. -/
theorem applyEntry_spec (clean : cleanAt s e.pa) : Steady e.pa s (applyEntry s e) ∧ (applyEntry s e).wbuf = (orderedCells s e).reverse ++ s.wbuf := by
  have charged := (Calm.refl clean).charge (ctxOwner e.ctx) 3
  have poison := entryPoisoned_congr (e := e) charged.poison
  have old : rdNat (charge s (ctxOwner e.ctx) 3) e.pa (orderedBytes e) = rdNat s e.pa (orderedBytes e) :=
    rdNat_congr charged.mem charged.wbuf ..
  unfold applyEntry
  extract_lets n locs u old' new ws r known tag placed noted settled
  have asks : (locs.any fun l => poisoned u l) = entryPoisoned u e := rfl
  rw [asks]
  by_cases bad : entryPoisoned u e = true
  · rw [if_pos bad]
    have calm := charged.countError e.lin
    refine ⟨calm.toSteady, ?_⟩
    rw [orderedCells, ← poison, if_pos bad]
    exact calm.wbuf
  · have bytes : (wrec noted e.wid).bytes = orderedCells s e := by
      rw [orderedCells, ← poison, if_neg bad, ← old, wrec, get_put_same]
      rfl
    have calm : Calm e.pa s noted := charged.rest
    have steady : Steady e.pa s settled := calm.toSteady.settleWrite e.wid
    have wbuf : settled.wbuf = (orderedCells s e).reverse ++ s.wbuf := by
      rw [← bytes, ← calm.wbuf]
      exact (tidies_settleWrite noted e.wid).wbuf
    rw [if_neg bad]
    split
    · exact ⟨steady, wbuf⟩
    · have last := (Calm.refl steady.clean).removeTracked
      exact ⟨steady.trans last.toSteady, last.wbuf.trans wbuf⟩

/-! ### The entry at NEXT is applied (R271, R272) -/

variable {ring gid : Nat} {g : Group}

theorem fireWatches_eq (h : groupAt s ring gid = some g) : ∃ ws id net ps, fireWatches s ring gid
    = { withGroup s ring gid { g with watches := ws } with nextId := id, net := net, points := ps } := by
  have h : NMap.find (ringOf s ring).groups gid = some g := h
  unfold fireWatches
  rw [h]
  dsimp only
  refine ⟨_, List.foldlRecOn (motive := fun u : State => ∃ id net ps, u = { withGroup s ring gid { g with watches := _ } with
    nextId := id, net := net, points := ps }) _ _ ⟨s.nextId, s.net, s.points, rfl⟩ ?_⟩
  rintro _ ⟨id, net, ps, rfl⟩ w -
  obtain ⟨m, qs, -, -, -, e⟩ := sendTdec_eq _ w.2.1 w.2.2.1 w.2.2.2
  exact ⟨_, _, qs, e⟩

/-- The group moves on from the entry, and its watches are tested. -/
def movedOn (s : State) (ring gid : Nat) (g : Group) : State := askApply (fireWatches (withGroup s ring gid g) ring gid) ring gid

theorem movedOn_spec (s : State) (ring gid : Nat) (g : Group) : ∃ ws, groupAt (movedOn s ring gid g) ring gid = some { g with watches := ws }
    ∧ (movedOn s ring gid g).mem = s.mem ∧ (movedOn s ring gid g).wbuf = s.wbuf
    ∧ (NMap.find g.window (g.next % 64) = none → (movedOn s ring gid g).reqs = s.reqs) := by
  obtain ⟨ws, id, net, ps, fired⟩ := fireWatches_eq (groupAt_withGroup s ring gid g)
  obtain ⟨id', qs, ps', asked⟩ := askApply_eq (fireWatches (withGroup s ring gid g) ring gid) ring gid
  have group : groupAt (fireWatches (withGroup s ring gid g) ring gid) ring gid = some { g with watches := ws } := by
    rw [fired]
    exact groupAt_withGroup (withGroup s ring gid g) ring gid _
  refine ⟨ws, ?_, ?_, ?_, fun last => ?_⟩
  · rw [movedOn, asked]
    exact group
  · rw [movedOn, asked, fired]
    rfl
  · rw [movedOn, asked, fired]
    rfl
  · rw [movedOn, askApply_idle ((nextEntry_of_groupAt group).trans last), fired]
    rfl

/-- The group once the entry at NEXT is applied: watches that it precedes know its write. -/
def advanced (g : Group) (e : OEntry) : Group := { g with
  window := NMap.del g.window (g.next % 64)
  next := (g.next + 1) % 2 ^ 32
  watches := g.watches.map fun w => if diff32 e.seq w.1 < 2 ^ 31 then w else (w.1, w.2.1, w.2.2.1, insNat (unionNat w.2.2.2 e.tag) e.wid) }

/-- What an application does: the group moves on, the bytes are written, and the requests stay where nothing stands at NEXT. -/
theorem applyNext_spec (clean : cleanAt s e.pa) (group : groupAt s ring gid = some g) : ∃ y, groupAt (applyNext s ring gid e) ring gid = some y
    ∧ y.next = (g.next + 1) % 2 ^ 32 ∧ y.window = NMap.del g.window (g.next % 64) ∧ (applyNext s ring gid e).mem = s.mem
    ∧ (applyNext s ring gid e).wbuf = (orderedCells s e).reverse ++ s.wbuf
    ∧ (NMap.find y.window (y.next % 64) = none → (applyNext s ring gid e).reqs = s.reqs) := by
  obtain ⟨steady, wbuf⟩ := applyEntry_spec clean
  have kept : NMap.find (ringOf (applyEntry s e) ring).groups gid = some g := by
    rw [steady.groups]
    exact group
  have moves : applyNext s ring gid e = movedOn (applyEntry s e) ring gid (advanced g e) := by
    unfold applyNext
    extract_lets u r
    rw [show NMap.find r.groups gid = some g from kept]
    rfl
  obtain ⟨ws, at_, mem, written, last⟩ := movedOn_spec (applyEntry s e) ring gid (advanced g e)
  rw [← moves] at at_ mem written last
  exact ⟨_, at_, rfl, rfl, mem.trans steady.mem, written.trans wbuf, fun none => (last none).trans steady.reqs⟩

/-! ### The step at the unit (R264, R271) -/

theorem exec_atomicStep_apply {n : Nat} {q : Req} (performs_ : performs s n q) (kind : q.kind = .apply ring gid) (slot : atomicSlot s q = true) :
    exec (.atomicStep n) s = commit s (performApply s q ring gid) := by
  obtain ⟨at_, ready_⟩ := performs_
  have goes : ¬(!atomicSlot s q || !reqReady s q) = true := by simp [slot, ready_]
  have untargeted : reqTarget q = none := by rw [reqTarget, kind]
  have performed : performReq s q = performApply s q ring gid := by rw [performReq, kind]
  refine congrArg (commit s) ?_
  rw [at_]
  dsimp only
  rw [if_neg goes, untargeted]
  exact performed

/-- The entry is applied at a state with the memory, groups and poison of this one, from which the request is gone. -/
theorem performApply_applies {q : Req} (clean : cleanAt s e.pa) (entry : nextEntry s ring gid = some e) : ∃ z, performApply s q ring gid
    = applyNext z ring gid e ∧ z.reqs = (s.reqs.filter fun p => p.id != q.id) ∧ z.mem = s.mem ∧ z.wbuf = s.wbuf ∧ z.poison = s.poison
    ∧ groupAt z ring gid = groupAt s ring gid ∧ cleanAt z e.pa := by
  unfold performApply
  dsimp only
  rw [entry]
  dsimp only
  split
  · exact ⟨_, rfl, rfl, rfl, rfl, rfl, rfl, clean⟩
  · obtain ⟨u, calm, goes⟩ := onceRecalled_clean clean e.ctx fun u => applyNext { u with reqs := u.reqs.filter fun x => x.id != q.id } ring gid e
    refine ⟨_, goes, ?_, calm.mem, calm.wbuf, calm.poison, ?_, calm.clean⟩
    · simp only [calm.reqs]
    · exact congrArg (fun m : NMap Group => NMap.find m gid) (calm.groups ring)

/-! ### The bytes of the location (R4, R271) -/

theorem rdNat_lt (t : State) (a n : Nat) : rdNat t a n < 256 ^ n := by
  induction n generalizing a with
  | zero => exact Nat.one_pos
  | succ n ih =>
    have rest := ih (a + 1)
    have byte := (byteAt t a).isLt
    rw [rdNat, Nat.pow_succ']
    omega

theorem rdNat_of_bytes {t : State} (h : ∀ a, byteAt t a = byteAt s a) (a n : Nat) : rdNat t a n = rdNat s a n := by
  induction n generalizing a with
  | zero => rfl
  | succ n ih => rw [rdNat, rdNat, ih, h]

theorem find_cellsAt_of_mem {a x : Nat} {b : Byte} {bs : List Byte} (h : (x, b) ∈ cellsAt a bs) : NMap.find (cellsAt a bs) x = some b :=
  find_of_mem h fun _ other => Option.some.inj ((mem_cellsAt.1 other).2.symm.trans (mem_cellsAt.1 h).2)

theorem mem_locsFrom {a n x : Nat} : x ∈ locsFrom a n ↔ a ≤ x ∧ x < a + n := by
  simp only [locsFrom, List.mem_map, mem_upto]
  constructor
  · rintro ⟨i, least, rfl⟩
    omega
  · rintro ⟨least, most⟩
    exact ⟨x - a, by omega, by omega⟩

/-- A sum of one F32 lane, or of an I64, as the rule gives it. -/
theorem orderedSum_eq {old : Nat} (h : old < 256 ^ orderedBytes e) : orderedSum e old
    = if e.float then (roundTo fmtF32 0 (addV 0 (unpack fmtF32 old) (unpack fmtF32 (e.val.toNat % 2 ^ 32))).1).1
      else (old + e.val.toNat) % 2 ^ 64 := by
  unfold orderedSum
  split
  · next float =>
    have small : old < 2 ^ 32 := by simpa [orderedBytes, float] using h
    rw [amoAll, amoAll, Nat.mul_zero, Nat.add_zero, Nat.mod_mod, Nat.mod_eq_of_lt small]
    rfl
  · rfl

variable {z : State}

/-- Unpoisoned, the location reads the sum. -/
theorem rdNat_applied (inv : Inv s) (wbuf : z.wbuf = (orderedCells s e).reverse ++ s.wbuf) (sound : entryPoisoned s e = false) :
    rdNat (committed s z) e.pa (orderedBytes e) = orderedSum e (rdNat s e.pa (orderedBytes e)) % 256 ^ orderedBytes e := by
  rw [orderedCells, if_neg (sound ▸ Bool.false_ne_true)] at wbuf
  refine rdNat_of_cells fun x b there => ?_
  rw [byteAt_committed_cells inv wbuf, find_cellsAt_of_mem there]
  rfl

/-- Poisoned, it is left as it is. -/
theorem rdNat_left (inv : Inv s) (wbuf : z.wbuf = (orderedCells s e).reverse ++ s.wbuf) (bad : entryPoisoned s e = true) :
    rdNat (committed s z) e.pa (orderedBytes e) = rdNat s e.pa (orderedBytes e) := by
  rw [orderedCells, if_pos bad] at wbuf
  exact rdNat_of_bytes (quiet_committed wbuf inv.wbuf) ..

theorem byteAt_applied (inv : Inv s) (wbuf : z.wbuf = (orderedCells s e).reverse ++ s.wbuf) {a : Nat} (outside : a ∉ locsFrom e.pa (orderedBytes e)) :
    byteAt (committed s z) a = byteAt s a := by
  rw [orderedCells] at wbuf
  split at wbuf
  · exact quiet_committed wbuf inv.wbuf a
  · have none : NMap.find (cellsAt e.pa (leBytes (orderedSum e (rdNat s e.pa (orderedBytes e))) (orderedBytes e))) a = none := by
      by_cases below : a < e.pa
      · exact find_cellsAt_before _ below
      · refine find_cellsAt_beyond _ ?_
        rw [length_leBytes]
        by_contra inside
        exact outside (mem_locsFrom.2 ⟨Nat.not_lt.1 below, Nat.not_le.1 inside⟩)
    rw [byteAt_committed_cells inv wbuf, none]
    rfl

end

end Sys2Proof.Machine
end


section
/-! SUPPORT. Ordered atomics, from their issue to their application (R271, R272). -/

namespace Sys2Proof.Machine

open Sys2Proof

/-- Settles O31: the checks of each instruction in their order; a window that takes, drops or refuses; and the entry at NEXT applied. -/
theorem orderedAtomicsAndArrivals : Obligations.OrderedAtomicsAndArrivals := by
  unfold Obligations.OrderedAtomicsAndArrivals
  refine ⟨?issues, ?arrives⟩
  case issues =>
    intro s d a b float i n form sq va rc k
    have runs : exec i s = orderedOp float d a b s := by
      obtain ⟨rfl, rfl, -⟩ | ⟨rfl, rfl, -⟩ := form <;> rfl
    have bytes : (if float = true then 4 else 8) = n := by
      obtain ⟨-, rfl, rfl⟩ | ⟨-, rfl, rfl⟩ := form <;> rfl
    rw [orderedOp_eq, bytes] at runs
    have aligned_ (small : sq < 2 ^ 32) (aligned : va.toNat % n = 0) := runs.trans
      (congrArg (commit s) ((if_neg (Nat.not_le.2 small)).trans (if_neg (not_not_intro aligned))))
    have joins (small : sq < 2 ^ 32) (aligned : rc.toNat % 32 = 0) := (exec_ojoin (s := s) (d := d) (a := a) (b := b)).trans
      (congrArg (commit s) ((if_neg (Nat.not_le.2 small)).trans (if_neg (not_not_intro aligned))))
    have joinsAt (small : sq < 2 ^ 32) (aligned : rc.toNat % 32 = 0) {r : Nat × Nat} (own : localTarget s rc = some r) :=
      (joins small aligned).trans (congrArg (commit s) (withTask_of own))
    refine ⟨fun wide => ⟨?_, ?_⟩, fun small bad => ?_, fun small bad => ?_, fun small aligned => ⟨fun c fault => ?_, fun miss => ?_⟩,
      ?member, fun small aligned own => ⟨fun c fault => ?_, fun miss => ?_⟩, ?refused⟩
    · exact runs.trans (congrArg (commit s) (if_pos wide))
    · exact exec_ojoin.trans (congrArg (commit s) (if_pos wide))
    · exact runs.trans (congrArg (commit s) ((if_neg (Nat.not_le.2 small)).trans (if_pos bad)))
    · exact exec_ojoin.trans (congrArg (commit s) ((if_neg (Nat.not_le.2 small)).trans (if_pos bad)))
    · exact (aligned_ small aligned).trans (congrArg (commit s) (orderedAt_fault fault))
    · exact (aligned_ small aligned).trans (congrArg (commit s) (orderedAt_miss miss))
    case member =>
      intro pa x small at_ marked member rs
      have goes (aligned : va.toNat % n = 0) := (aligned_ small aligned).trans (congrArg (commit s) (orderedAt_member at_ marked member))
      refine ⟨fun aligned some_ => ?_, fun aligned none full => ?_, fun aligned none room => ?_, fun r aligned own => ?_,
        fun aligned lost => ?_⟩
      · exact parks_of_park ((goes aligned).trans (congrArg (commit s) (if_pos (by simpa using some_))))
      · exact parks_of_park ((goes aligned).trans (congrArg (commit s) ((if_neg (by simpa using none)).trans (if_pos full))))
      · exact completes_of_newReq ((goes aligned).trans (congrArg (commit s) ((if_neg (by simpa using none)).trans
          (if_neg (room ▸ Bool.false_ne_true)))))
      · exact completesWaiting_of_newReq ((joinsAt small aligned own).trans (congrArg (commit s) (orderedAt_member at_ marked member)))
      · exact (joins small aligned).trans (congrArg (commit s) (withTask_lost lost at_))
    · obtain ⟨r, own⟩ := Option.isSome_iff_exists.1 own
      exact (joinsAt small aligned own).trans (congrArg (commit s) (orderedAt_fault fault))
    · obtain ⟨r, own⟩ := Option.isSome_iff_exists.1 own
      exact (joinsAt small aligned own).trans (congrArg (commit s) (orderedAt_miss miss))
    case refused =>
      intro pa x small at_ refused u
      refine ⟨fun aligned => ?_, fun aligned own => ?_⟩
      · exact (aligned_ small aligned).trans (congrArg (commit s) (orderedAt_refused at_ refused))
      · obtain ⟨r, own⟩ := Option.isSome_iff_exists.1 own
        exact (joinsAt small aligned own).trans (congrArg (commit s) (orderedAt_refused at_ refused))
  case arrives =>
    intro s inv
    refine ⟨?home, ?resends, ?applies⟩
    case home =>
      intro n q pa gid sq g performed member there gone group
      refine ⟨?adds, fun task kind => ?watches⟩
      case adds =>
        intro float val st x kind new slot dist held
        have runs := exec_orderedArrival performed kind new slot member there
        have holds : windowHolds g sq = true ↔ held := windowHolds_iff
        have unheld (near : dist < 2 ^ 31) (free : ¬held) : ¬(2 ^ 31 ≤ dist ∨ windowHolds g sq = true) :=
          not_or.2 ⟨Nat.not_le.2 near, mt holds.1 free⟩
        refine ⟨fun stale => ?_, fun near free far => ?_, fun near free => ?_⟩
        · refine ⟨_, runs.trans (congrArg (commit s) (if_pos (stale.imp_right holds.2))), ?_⟩
          obtain ⟨h, e⟩ := dropReq_eq (withGroup s (homeRing s pa) gid { g with stale := Nat.min (g.stale + 1) (2 ^ 16 - 1) }) q.id
          rw [e]
          exact ⟨rfl, quiet_committed rfl, groupAt_withGroup s ..⟩
        · exact ⟨_, runs.trans (congrArg (commit s) ((if_neg (unheld near free)).trans (if_pos far))), quiet_committed rfl, rfl, rfl⟩
        · have below : dist < 2 ^ 31 := near.trans_lt (by decide)
          obtain ⟨at_, quiet, reqs⟩ := windowed_keeps (s := s) (pa := pa) (gid := gid) (sq := sq) (q := q) (g := g) (float := float) (val := val)
          have next := nextEntry_of_groupAt at_
          refine ⟨_, arrivedEntry q sq pa float val, runs.trans (congrArg (commit s) ((if_neg (unheld below free)).trans
            (if_neg (Nat.not_lt.2 near)))), ?_, ?_, rfl, rfl, rfl, rfl, rfl, fun none => ?_, fun z some_ => askApply_asks (next.trans some_) at_⟩
          · obtain ⟨id, qs, ps, asked⟩ := askApply_eq (windowed s q g gid sq pa float val) (homeRing s pa) gid
            exact quiet_committed (by rw [asked]; exact quiet)
          · obtain ⟨id, qs, ps, asked⟩ := askApply_eq (windowed s q g gid sq pa float val) (homeRing s pa) gid
            rw [asked]
            exact at_
          · rw [askApply_idle (next.trans none)]
            exact reqs
      case watches =>
        have runs := exec_watchArrival performed kind member there
        refine ⟨fun due => ?_, fun early room => ?_, fun early full => ?_⟩
        · obtain ⟨m, ps, body, core, owner, sent⟩ := sendTdec_eq (dropReq s q.id) (ctxOwner q.ctx) task q.tag
          obtain ⟨h, dropped⟩ := dropReq_eq s q.id
          refine ⟨_, m, runs.trans (congrArg (commit s) (if_pos due)), ?_⟩
          rw [sent, dropped]
          exact ⟨rfl, quiet_committed rfl, rfl, body, core, owner⟩
        · refine ⟨_, runs.trans (congrArg (commit s) ((if_neg (Nat.not_lt.2 early)).trans (if_neg (Nat.not_le.2 room)))), ?_⟩
          obtain ⟨h, e⟩ := dropReq_eq (withGroup s (homeRing s pa) gid { g with watches := g.watches ++ [(sq, ctxOwner q.ctx, task, q.tag)] }) q.id
          rw [e]
          exact ⟨rfl, quiet_committed rfl, rfl, groupAt_withGroup s ..⟩
        · rw [runs, if_neg (Nat.not_lt.2 early), if_pos full]
          exact commit_clean s s rfl inv.wbuf
    case resends =>
      intro j p pa float x val since at_ kind
      have runs := exec_orderedResend at_ kind
      refine ⟨fun due => runs.trans (congrArg (commit s) (if_pos due)), fun early => ?_⟩
      rw [runs, if_neg (Nat.not_le.2 early)]
      exact commit_clean s s rfl inv.wbuf
    case applies =>
      intro n q ring gid g e performed kind slot there entry len old sum clean
      have first : e.pa ∈ locsFrom e.pa len := mem_locsFrom.2 ⟨le_rfl, by simp only [len]; split <;> omega⟩
      obtain ⟨z, goes, reqs, mem, wbuf, poison, group, cleaned⟩ := performApply_applies (q := q)
        (cleanAt_of_not_dirtyLine (clean _ first)) ((nextEntry_of_groupAt there).trans entry)
      obtain ⟨y, moved, next, window, -, written, last⟩ := applyNext_spec cleaned (group.trans there)
      have cells : orderedCells z e = orderedCells s e := by
        rw [orderedCells, orderedCells, entryPoisoned_congr poison, rdNat_congr mem wbuf]
      rw [cells, wbuf] at written
      refine ⟨_, y, (exec_atomicStep_apply performed kind slot).trans (congrArg (commit s) goes), moved, next, window, fun sound => ?_, fun bad => ?_,
        fun a outside _ => byteAt_applied inv written outside, fun none => (last none).trans reqs⟩
      · have sound : entryPoisoned s e = false := List.any_eq_false.2 fun l listed => sound l listed ▸ Bool.false_ne_true
        have total : orderedSum e old = sum := orderedSum_eq (rdNat_lt s e.pa (orderedBytes e))
        have power : 256 ^ len = 2 ^ (8 * len) := by rw [Nat.pow_mul]
        exact (rdNat_applied inv written sound).trans (congr (congrArg HMod.hMod total) power)
      · exact rdNat_left inv written (List.any_eq_true.2 bad)

end Sys2Proof.Machine
end
